-- ==== Sys2Proof/Word.lean ====
section
/-!
DEFINITION. The word types of the Thason T8 (R2, R7, R9, R195) and the sparse map that every table of the machine
is kept in: a list of (key, value) pairs.
-/
namespace Sys2Proof

abbrev Byte := BitVec 8
abbrev Word := BitVec 32
abbrev DWord := BitVec 64

/-- A table from numbers to values: pairs in strictly rising order of their keys, no entry equal to what an
unlisted key reads as. The operations that keep this form stand in Machine/Sparse.lean. -/
abbrev SMap (β : Type) := List (Nat × β)

end Sys2Proof
end

