-- ==== Sys2Proof/Machine/Sparse.lean ====
section
/-!
DEFINITION. Sparse tables: a value for every number, of which only those that differ from a default are listed, in
strictly rising order of their keys. Equal tables are equal data.
-/
namespace Sys2Proof.Machine

variable {β : Type}

/-- The listed value of a key. -/
def find? : SMap β → Nat → Option β
  | [], _ => none
  | (k, v) :: r, a => if a = k then some v else find? r a

/-- The value of a key. -/
def sget (dflt : β) (m : SMap β) (a : Nat) : β := (find? m a).getD dflt

/-- Unlists a key. -/
def sdel (m : SMap β) (a : Nat) : SMap β := m.filter fun p => p.1 != a

/-- Lists a value at a key. -/
def sput : SMap β → Nat → β → SMap β
  | [], a, x => [(a, x)]
  | (k, v) :: r, a, x =>
    if a = k then (k, x) :: r else if a < k then (a, x) :: (k, v) :: r else (k, v) :: sput r a x

/-- Gives a key a value: the default unlists it. -/
def sset [DecidableEq β] (dflt : β) (m : SMap β) (a : Nat) (x : β) : SMap β :=
  if x = dflt then sdel m a else sput m a x

/-- The canonical form: keys strictly rising, no entry equal to the default. -/
def SMap.wfFrom [DecidableEq β] (dflt : β) : Nat → SMap β → Bool
  | _, [] => true
  | lo, (k, v) :: r => decide (lo ≤ k) && decide (v ≠ dflt) && SMap.wfFrom dflt (k + 1) r
def SMap.wf [DecidableEq β] (dflt : β) (m : SMap β) : Bool := SMap.wfFrom dflt 0 m

/-- Changes the value of a listed key; an unlisted key stays unlisted. -/
def smod (m : SMap β) (a : Nat) (f : β → β) : SMap β :=
  m.map fun kv => if kv.1 = a then (kv.1, f kv.2) else kv

/-- The keys and the values of a table. -/
def skeys (m : SMap β) : List Nat := m.map (·.1)
def svals (m : SMap β) : List β := m.map (·.2)

end Sys2Proof.Machine
end

