-- ==== Sys2Proof/Machine/Aes.lean ====
section
/-!
DEFINITION. AES-256, which R218 names and takes from its own standard, on lists of bytes. Byte i of a block or of a key is its bits
[8i+7:8i] (log entry 79).
-/
namespace Sys2Proof.Machine

/-! ### The field of 256 elements -/

def gfDouble (a : Nat) : Nat := if a < 128 then 2 * a else (2 * a) ^^^ 0x11B
def gfMul (a b : Nat) : Nat :=
  ((List.range 8).foldl (fun (p : Nat × Nat) k => (if b.testBit k then p.1 ^^^ p.2 else p.1, gfDouble p.2)) (0, a)).1
/-- The inverse of an element, a ^ 254; of 0 it is 0. -/
def gfInv (a : Nat) : Nat :=
  ((List.range 7).foldl (fun (p : Nat × Nat) _ => let q := gfMul p.2 p.2; (gfMul p.1 q, q)) (1, a)).1

/-! ### The cipher -/

def subByte (a : Nat) : Nat :=
  let b := gfInv a
  let rot (k : Nat) : Nat := (b * 2 ^ k) % 256 + b / 2 ^ (8 - k)
  b ^^^ rot 1 ^^^ rot 2 ^^^ rot 3 ^^^ rot 4 ^^^ 0x63

def xorNats (a b : List Nat) : List Nat := List.zipWith (· ^^^ ·) a b

/-- The words of the key schedule, the last one first. -/
def keySchedule (key : List Nat) : List (List Nat) :=
  let first := ((List.range 8).map fun k => (key.drop (4 * k)).take 4).reverse
  (List.range 52).foldl (fun ws j =>
    let i := j + 8
    let t := ws.headD []
    let t := if i % 8 = 0 then
        xorNats ((t.drop 1 ++ t.take 1).map subByte) [(List.range (i / 8 - 1)).foldl (fun c _ => gfDouble c) 1, 0, 0, 0]
      else if i % 8 = 4 then t.map subByte else t
    xorNats (ws.getD 7 []) t :: ws) first

/-- Rows of the state, whose byte r + 4c stands in row r and column c, rotate to the left. -/
def shiftRows (s : List Nat) : List Nat := (List.range 16).map fun k => s.getD ((k % 4) + 4 * ((k / 4 + k % 4) % 4)) 0
def mixColumns (s : List Nat) : List Nat :=
  (List.range 16).map fun k =>
    let b (j : Nat) : Nat := s.getD (k / 4 * 4 + (k + j) % 4) 0
    gfDouble (b 0) ^^^ (gfDouble (b 1) ^^^ b 1) ^^^ b 2 ^^^ b 3

/-- The 16 bytes of a block under a key of 32 bytes. -/
def aesBytes (key block : List Nat) : List Nat :=
  let ws := (keySchedule key).reverse
  let rk (r : Nat) : List Nat := ((ws.drop (4 * r)).take 4).flatten
  let mid := (List.range 13).foldl (fun s r => xorNats (mixColumns (shiftRows (s.map subByte))) (rk (r + 1))) (xorNats block (rk 0))
  xorNats (shiftRows (mid.map subByte)) (rk 14)

def natBytes (n w : Nat) : List Nat := (List.range n).map fun k => w / 2 ^ (8 * k) % 256
def aes256 (key : BitVec 256) (block : BitVec 128) : List Byte :=
  (aesBytes (natBytes 32 key.toNat) (natBytes 16 block.toNat)).map (BitVec.ofNat 8)

end Sys2Proof.Machine
end

