-- ==== Sys2Proof/Syntax.lean ====
section
/-!
DEFINITION. The instructions and the unencoded steps of the Thason T8: one constructor of `Instr` per row of the
opcode table. Register and handle numbers are plain numbers; WellFormed.lean bounds them.
-/
namespace Sys2Proof

/-- LEN of R23: the 64-bit, 96-bit and 128-bit forms. -/
inductive Len
  | l64 | l96 | l128
deriving DecidableEq, Repr, Inhabited

/-- FSEL of R28 and R36. -/
inductive FSel
  | none | a | b
deriving DecidableEq, Repr, Inhabited

/-- The fields of R28 that every instruction has: length, guard, ONCE, flag select and delay. -/
structure Ctl where
  len  : Len
  gp   : Nat
  gn   : Bool
  once : Bool
  fsel : FSel
  dly  : Nat
deriving DecidableEq, Repr, Inhabited

/-- A lane permutation of R34 with its parameter. -/
inductive Perm
  | id
  | bc (p : Nat) | up (p : Nat) | dn (p : Nat) | bfly (p : Nat) | flip (p : Nat)
deriving DecidableEq, Repr, Inhabited

/-- A vector source A or C: its register and its permutation. Under ONCE the number names a scalar register
(R33), and in Guide code a g register (R117). -/
structure VSrc where
  reg  : Nat
  perm : Perm
deriving DecidableEq, Repr, Inhabited

/-- Source B under KB (R28, R30). -/
inductive BSrc
  | vec (reg : Nat) (perm : Perm)
  | sca (reg : Nat)
  | imm8 (v : BitVec 8)
  | imm32 (v : BitVec 32)
deriving DecidableEq, Repr, Inhabited

/-- The operand types of R31. -/
inductive Ty
  | i32 | n32 | i16 | n16 | i8 | n8 | i64 | n64 | b32 | f32 | f16 | bf16
deriving DecidableEq, Repr, Inhabited

/-- The conversion types of R96. -/
inductive CTy
  | i32 | n32 | i16 | n16 | i8 | n8 | i64 | n64 | e4m3 | f32 | f16 | bf16 | e5m2
deriving DecidableEq, Repr, Inhabited

/-- The rounding modes of R31 and R68. -/
inductive Rnd
  | rne | rna | rtz | rup | rdn | rsd
deriving DecidableEq, Repr, Inhabited

/-- The shared modifiers of R31. -/
structure Mods where
  ty  : Ty
  rnd : Rnd
  sat : Bool
  ftz : Bool
deriving DecidableEq, Repr, Inhabited

/-- Operands D, A of a unary instruction (R84). -/
structure O1 where
  d : Nat
  a : VSrc
deriving DecidableEq, Repr, Inhabited

/-- Operands D, A, B. -/
structure O2 where
  d : Nat
  a : VSrc
  b : BSrc
deriving DecidableEq, Repr, Inhabited

/-- Operands D, A, B, C. -/
structure O3 where
  d : Nat
  a : VSrc
  b : BSrc
  c : VSrc
deriving DecidableEq, Repr, Inhabited

/-- The fields of a unary conversion (R96). -/
structure Cvt where
  dst : CTy
  src : CTy
  el  : Nat
  rnd : Rnd
  sat : Bool
  ftz : Bool
deriving DecidableEq, Repr, Inhabited

/-- Compare conditions (R100). -/
inductive Cond
  | eq | ne | lt | le | gt | ge
deriving DecidableEq, Repr, Inhabited

/-- How a compare combines with the old predicates (R100, R101). -/
inductive Comb
  | set | and | or
deriving DecidableEq, Repr, Inhabited

/-- Half select of HCMP (R100). -/
inductive Half
  | lo | hi | all
deriving DecidableEq, Repr, Inhabited

/-- The destinations and operands of a compare (R100). -/
structure CmpF where
  cmb : Comb
  pt  : Nat
  pf  : Nat
  a   : VSrc
  b   : BSrc
deriving DecidableEq, Repr, Inhabited

/-- PLOGIC's operation (R102). -/
inductive POp
  | and | or | xor
deriving DecidableEq, Repr, Inhabited

/-- VOTE's mode (R103). -/
inductive VoteM
  | any | all | uni
deriving DecidableEq, Repr, Inhabited

/-- The replacement hints of R136. -/
inductive Hint
  | none | lu | str
deriving DecidableEq, Repr, Inhabited

/-- Atomic operations of R145. -/
inductive AOp
  | add | mini | maxi | minn | maxn | and | or | xor | exch | inc | dec | fadd | fmin | fmax
deriving DecidableEq, Repr, Inhabited

/-- Atomic types of R145. -/
inductive ATy
  | b32 | b64 | f16 | bf16
deriving DecidableEq, Repr, Inhabited

/-- The scopes of R147. -/
inductive Scope
  | th | wp | gr | co | cl | di | tn | pk | sy
deriving DecidableEq, Repr, Inhabited

/-- GRED's operation (R149): the code's reading depends on the type. -/
inductive GOp
  | add | min | max | and | or | xor
deriving DecidableEq, Repr, Inhabited

/-- The matrix element types of R182. -/
inductive MTy
  | e4m3 | e5m2 | mxf4 | i4o | i8 | f16 | bf16
deriving DecidableEq, Repr, Inhabited

/-- The operands of MMA and MMAJ (R182). -/
structure MmaF where
  tile : Nat
  ta   : MTy
  tb   : MTy
  nz   : Bool
  pri  : Nat
  fa   : Nat
  fb   : Nat
  shape : Nat
  sa   : Nat
  selA : Nat
  sb   : Nat
  selB : Nat
deriving DecidableEq, Repr, Inhabited

/-- The operands of MLD and MST (R182): N registers from D, tile, upper half, first column. -/
structure MTile where
  d    : Nat
  n    : Nat
  tile : Nat
  hi   : Bool
  col  : Nat
deriving DecidableEq, Repr, Inhabited

/-- Which part MCLR clears (R182). -/
inductive ClrPart
  | both | dat | st
deriving DecidableEq, Repr, Inhabited

/-- The side kinds of R224. -/
inductive SideK
  | mem | reg | spad | acc | peer | fifo
deriving DecidableEq, Repr, Inhabited

/-- FRED's operation and type (R349). -/
inductive FrOp
  | add | max | min
deriving DecidableEq, Repr, Inhabited

/-- GMOV's part (R162). -/
inductive GPart
  | full | lo | hi
deriving DecidableEq, Repr, Inhabited

/-- A sequencer: what issues one clause at a time. A partition scheduler of a core of the module (R110), the
Guide of a stage instance's core (R117), a steward core of a die (R276), the walker slot of a cluster (R207). -/
inductive Seq
  | part (core p : Nat)
  | guide (core : Nat)
  | steward (die n : Nat)
  | walker (cluster : Nat)
deriving DecidableEq, Repr, Inhabited

/-- Who waits for a monitor service: a steward core, or a compute thread of a stage instance (R307). -/
inductive Caller
  | steward (die n : Nat)
  | thread (iid tid : Nat)
deriving DecidableEq, Repr, Inhabited

/-- A fabric packet with the fields of R340: class, destination, source module and die, FPID and world, offset and byte mask; of a
multicast its segment and string, of a reduction its group and round. In a sealed world `data` is ciphertext under `tag` (R345).
`seqNo` is the number by which the receive port restores the order of its source, source die and class. -/
structure Packet where
  cls   : Nat := 0
  src   : Nat
  srcDie : Nat
  dst   : Nat
  fpid  : Nat
  world : Nat
  off   : Nat
  mask  : List Bool
  data  : List Byte
  seg   : Nat := 0
  str   : BitVec 256 := 0
  grp   : Nat := 0
  rnd   : Nat := 0
  tag   : BitVec 32 := 0
  seqNo : Nat
deriving DecidableEq, Repr, Inhabited

/-- A remote atomic's request (R339): the packet, the operation, its type and the operands. -/
structure AtomReq where
  pkt : Packet
  op  : AOp
  ty  : ATy
  cas : Bool
  b   : DWord
  c   : DWord
deriving DecidableEq, Repr, Inhabited

/-- A trap as a steward core takes it (R302): cause, detail, fault address. -/
structure TrapInfo where
  cause  : Nat
  detail : Nat
  addr   : DWord
deriving DecidableEq, Repr, Inhabited

/-- One boot image as the boot chain sees it (R294, R298): its 64-byte measurement and whether its signature
verifies. -/
structure BootImage where
  meas  : List Byte
  sigOk : Bool
deriving DecidableEq, Repr, Inhabited

/-- A request on the management port (R299). -/
inductive MgmtReq
  | image (img : BootImage)
  | attest (nonce : List Byte)
  | telemetry
deriving DecidableEq, Repr, Inhabited

/-- One row of the opcode table each. Rows up to WRET have encodings (R42); the rows after them are steps of the
machine that no instruction word names. -/
inductive Instr
  -- group 0x0
  | iadd (c : Ctl) (m : Mods) (o : O2)
  | isub (c : Ctl) (m : Mods) (o : O2)
  | imul (c : Ctl) (m : Mods) (o : O2)
  | imulhi (c : Ctl) (m : Mods) (o : O2)
  | imad (c : Ctl) (m : Mods) (o : O3)
  | imin (c : Ctl) (m : Mods) (o : O2)
  | imax (c : Ctl) (m : Mods) (o : O2)
  | iclamp (c : Ctl) (m : Mods) (o : O3)
  | iabs (c : Ctl) (m : Mods) (o : O1)
  | ineg (c : Ctl) (m : Mods) (o : O1)
  | isad (c : Ctl) (m : Mods) (o : O3)
  | lea (c : Ctl) (m : Mods) (o : O2)
  | idiv (c : Ctl) (m : Mods) (o : O2)
  | irem (c : Ctl) (m : Mods) (o : O2)
  -- group 0x1
  | and (c : Ctl) (ty : Ty) (o : O2)
  | or (c : Ctl) (ty : Ty) (o : O2)
  | xor (c : Ctl) (ty : Ty) (o : O2)
  | not (c : Ctl) (ty : Ty) (o : O1)
  | andn (c : Ctl) (ty : Ty) (o : O2)
  | logic3 (c : Ctl) (ty : Ty) (o : O3) (tbl : BitVec 8)
  | shl (c : Ctl) (ty : Ty) (o : O2)
  | shr (c : Ctl) (ty : Ty) (o : O2)
  | sar (c : Ctl) (ty : Ty) (o : O2)
  | rotl (c : Ctl) (ty : Ty) (o : O2)
  | rotr (c : Ctl) (ty : Ty) (o : O2)
  | shf (c : Ctl) (r : Bool) (o : O3)
  | popc (c : Ctl) (ty : Ty) (o : O1)
  | clz (c : Ctl) (ty : Ty) (o : O1)
  | ctz (c : Ctl) (ty : Ty) (o : O1)
  | brev (c : Ctl) (ty : Ty) (o : O1)
  | bfx (c : Ctl) (ty : Ty) (o : O3)
  | bfi (c : Ctl) (o : O3)
  | bperm (c : Ctl) (o : O2)
  -- group 0x2
  | fadd (c : Ctl) (m : Mods) (o : O2)
  | fsub (c : Ctl) (m : Mods) (o : O2)
  | fmul (c : Ctl) (m : Mods) (o : O2)
  | ffma (c : Ctl) (m : Mods) (o : O3)
  | fmin (c : Ctl) (m : Mods) (o : O2)
  | fmax (c : Ctl) (m : Mods) (o : O2)
  | fclamp (c : Ctl) (m : Mods) (o : O3)
  | fabs (c : Ctl) (m : Mods) (o : O1)
  | fneg (c : Ctl) (m : Mods) (o : O1)
  | fround (c : Ctl) (m : Mods) (o : O1)
  | fdiv (c : Ctl) (m : Mods) (o : O2)
  | fsqrt (c : Ctl) (m : Mods) (o : O1)
  | frcp (c : Ctl) (m : Mods) (o : O1)
  | frsq (c : Ctl) (m : Mods) (o : O1)
  | fexp2 (c : Ctl) (m : Mods) (o : O1)
  | flog2 (c : Ctl) (m : Mods) (o : O1)
  | fsin (c : Ctl) (m : Mods) (o : O1)
  | fcos (c : Ctl) (m : Mods) (o : O1)
  | ftanh (c : Ctl) (m : Mods) (o : O1)
  -- group 0x3
  | hadd (c : Ctl) (m : Mods) (o : O2)
  | hsub (c : Ctl) (m : Mods) (o : O2)
  | hmul (c : Ctl) (m : Mods) (o : O2)
  | hfma (c : Ctl) (m : Mods) (o : O3)
  | hmin (c : Ctl) (m : Mods) (o : O2)
  | hmax (c : Ctl) (m : Mods) (o : O2)
  | hclamp (c : Ctl) (m : Mods) (o : O3)
  | habs (c : Ctl) (m : Mods) (o : O1)
  | hneg (c : Ctl) (m : Mods) (o : O1)
  | hdot2 (c : Ctl) (m : Mods) (o : O3)
  | hexp2 (c : Ctl) (m : Mods) (o : O1)
  | hrcp (c : Ctl) (m : Mods) (o : O1)
  -- group 0x4
  | cvtf (c : Ctl) (f : Cvt) (o : O1)
  | cvtfi (c : Ctl) (f : Cvt) (o : O1)
  | cvtif (c : Ctl) (f : Cvt) (o : O1)
  | cvtii (c : Ctl) (f : Cvt) (o : O1)
  | pack2 (c : Ctl) (f : Cvt) (o : O2)
  | unpack (c : Ctl) (f : Cvt) (o : O1)
  | cvtblk (c : Ctl) (i4o : Bool) (rnd : Rnd) (o : O3)
  -- group 0x5
  | icmp (c : Ctl) (ty : Ty) (cnd : Cond) (f : CmpF)
  | fcmp (c : Ctl) (ftz : Bool) (cnd : Cond) (f : CmpF)
  | hcmp (c : Ctl) (ty : Ty) (ftz : Bool) (cnd : Cond) (h : Half) (f : CmpF)
  | plogic (c : Ctl) (op : POp) (pd pa : Nat) (na : Bool) (pb : Nat) (nb : Bool)
  | fclass (c : Ctl) (ty : Ty) (f : CmpF)
  | psetv (c : Ctl) (a : VSrc) (sel : Bool)
  | pgetv (c : Ctl) (d : Nat) (sel : Bool)
  -- group 0x6
  | mov (c : Ctl) (d : Nat) (b : BSrc)
  | sel (c : Ctl) (o : O2) (ps : Nat)
  | movsr (c : Ctl) (d : Nat) (sr : Nat)
  | movsrW (c : Ctl) (sr : Nat) (b : BSrc)
  | perm (c : Ctl) (o : O2)
  | ballot (c : Ctl) (d : Nat) (ps : Nat)
  | vote (c : Ctl) (m : VoteM) (pd ps : Nat)
  | laneget (c : Ctl) (o : O2)
  -- group 0x7
  | nop (c : Ctl)
  | bra (c : Ctl) (off : BitVec 32)
  | jmp (c : Ctl) (a : VSrc)
  | call (c : Ctl) (d : Nat) (off : BitVec 32)
  | calli (c : Ctl) (o : O1)
  | ret (c : Ctl) (a : VSrc)
  | exit (c : Ctl)
  | meet (c : Ctl) (off : BitVec 32)
  | meetNone (c : Ctl)
  | trap (c : Ctl) (b : BSrc)
  -- group 0x8
  | ld (c : Ctl) (ty : Ty) (h : Hint) (o : O2)
  | st (c : Ctl) (ty : Ty) (h : Hint) (o : O2)
  | ldm (c : Ctl) (n : Nat) (s128 : Bool) (o : O2)
  | stm (c : Ctl) (n : Nat) (s128 : Bool) (o : O2)
  | lds (c : Ctl) (ty : Ty) (o : O2)
  | sts (c : Ctl) (ty : Ty) (o : O2)
  | ldt (c : Ctl) (w : Nat) (o : O2)
  | spres (c : Ctl) (o : O2)
  | pref (c : Ctl) (h : Hint) (a : VSrc) (b : BSrc)
  | drainst (c : Ctl)
  | sfqpop (c : Ctl) (pp d : Nat)
  -- group 0x9
  | atom (c : Ctl) (op : AOp) (ty : ATy) (o : O2)
  | atomcas (c : Ctl) (ty : ATy) (o : O3)
  | atoms (c : Ctl) (op : AOp) (ty : ATy) (o : O2)
  | atomscas (c : Ctl) (ty : ATy) (o : O3)
  | red (c : Ctl) (op : AOp) (ty : ATy) (a : VSrc) (b : BSrc)
  | fence (c : Ctl) (s : Scope)
  | rel (c : Ctl) (s : Scope)
  | acq (c : Ctl) (s : Scope)
  -- group 0xA
  | join (c : Ctl) (pd : Nat) (b : BSrc)
  | leave (c : Ctl) (pd : Nat) (b : BSrc)
  | bar (c : Ctl) (pd : Nat) (b : BSrc)
  | elect (c : Ctl) (pd : Nat) (b : BSrc)
  | electRel (c : Ctl) (b : BSrc)
  | gkill (c : Ctl) (b : BSrc)
  | gred (c : Ctl) (ty : Ty) (op : GOp) (o : O2)
  | gbcast (c : Ctl) (ty : Ty) (o : O2)
  | genOpen (c : Ctl) (w t : Nat) (cons exit : BitVec 16)
  | genPoint (c : Ctl)
  | genTake (c : Ctl) (d : Nat)
  | genNext (c : Ctl)
  | genPend (c : Ctl)
  | yield (c : Ctl) (a : Nat)
  | reggrow (c : Ctl) (wait : Bool) (pd : Nat) (b : BSrc)
  | regshrink (c : Ctl) (b : BSrc)
  -- group 0xB
  | loopn (c : Ctl) (b : BSrc) (off : BitVec 32)
  | loopend (c : Ctl)
  | dqpush (c : Ctl) (a : Nat)
  | dqpop (c : Ctl) (d : Nat)
  | dqdone (c : Ctl)
  | dqbr (c : Ctl) (f : Bool) (b : BSrc) (off : BitVec 32)
  | sqpush (c : Ctl) (a q : Nat)
  | sqpop (c : Ctl) (pp d q : Nat)
  | gmov (c : Ctl) (p : GPart) (d : Nat) (b : BSrc)
  -- group 0xC
  | mma (c : Ctl) (f : MmaF)
  | mmaj (c : Ctl) (f : MmaF) (h1 : Bool)
  | mrdy (c : Ctl) (fa fb shape : Nat)
  | mwait (c : Ctl) (t : Nat)
  | mwaitAll (c : Ctl)
  | mld (c : Ctl) (f : MTile)
  | mst (c : Ctl) (f : MTile)
  | mclr (c : Ctl) (p : ClrPart) (t : Nat)
  | mswap (c : Ctl) (t u : Nat)
  | mstat (c : Ctl) (d t : Nat)
  | ffstat (c : Ctl) (d f : Nat)
  -- group 0xD
  | claimNew (c : Ctl) (k : Nat) (sk dk : SideK) (a fifo : Nat)
  | claimUse (c : Ctl) (k : Nat)
  | flowReg (c : Ctl) (k : Nat) (s : Scope) (a : Nat)
  | flowImm (c : Ctl) (k : Nat) (s : Scope) (so d n : Nat)
  | flwait (c : Ctl) (k : Nat) (s : Scope)
  | clrel (c : Ctl) (k : Nat)
  | clrevokePg (c : Ctl) (a : VSrc) (b : BSrc)
  | clrevokeK (c : Ctl) (a : VSrc) (k : Nat)
  | hdrain (c : Ctl)
  | mcast (c : Ctl) (n d : Nat) (a : Nat) (x : Nat)
  | fred (c : Ctl) (bf : Bool) (op : FrOp) (o : O2)
  -- group 0xE
  | cregOpen (c : Ctl) (strict : Bool) (pd a : Nat) (off : BitVec 32)
  | cregClose (c : Ctl)
  | pairOpen (c : Ctl) (pd a : Nat) (off : BitVec 16) (slack : Nat)
  | pairClose (c : Ctl)
  | einjPerr (c : Ctl)
  | einjPoison (c : Ctl)
  | einjPmis (c : Ctl) (b : BSrc)
  | einjCerr (c : Ctl)
  | prepair (c : Ctl) (d : Nat) (a : VSrc)
  | presume (c : Ctl) (a : VSrc)
  | presumeFail (c : Ctl) (a : VSrc)
  | trmark (c : Ctl) (b : BSrc)
  | cntcapStart (c : Ctl) (n : Nat)
  | cntcapStop (c : Ctl) (d n : Nat)
  | sample (c : Ctl) (b : BSrc)
  -- group 0xF
  | launch (c : Ctl) (o : O1)
  | scall (c : Ctl) (b : BSrc)
  | mcall (c : Ctl) (fn : BitVec 8)
  | eret (c : Ctl)
  | tlbfill (c : Ctl) (pd : Nat) (a : VSrc) (lvl : Bool)
  | tlbinvPg (c : Ctl) (a : VSrc) (b : BSrc)
  | tlbinvAsid (c : Ctl) (b : BSrc)
  | tlbinvAll (c : Ctl)
  | cinvPg (c : Ctl) (a : VSrc) (b : BSrc)
  | cinvAsid (c : Ctl) (b : BSrc)
  | cinvAll (c : Ctl)
  | ckptIvl (c : Ctl) (d : Nat) (b : BSrc)
  | ckptMem (c : Ctl) (d : Nat)
  | ckptMemrst (c : Ctl) (d : Nat)
  | recctlOff (c : Ctl) (d : Nat) (b : BSrc)
  | recctlRec (c : Ctl) (d : Nat) (b : BSrc)
  | recctlRpl (c : Ctl) (d : Nat) (b : BSrc)
  | movps (c : Ctl) (d : Nat) (b : BSrc)
  | movpsW (c : Ctl) (a : VSrc) (b : BSrc)
  | intctlMask (c : Ctl) (b : BSrc)
  | intctlWait (c : Ctl)
  | intctlResume (c : Ctl) (a : VSrc) (act : BitVec 8)
  | intctlRespg (c : Ctl) (a : VSrc) (b : BSrc)
  | ctxsaveInst (c : Ctl) (o : O2)
  | ctxsaveCtx (c : Ctl) (o : O2)
  | ctxsaveEnd (c : Ctl) (o : O2)
  | ctxload (c : Ctl) (o : O2)
  | ctxloadCtx (c : Ctl) (o : O2)
  | wretFill (c : Ctl)
  | wretServ (c : Ctl)
  | wretDeny (c : Ctl) (cause : Nat)
  -- monitor services (R307)
  | mcallMap (who : Caller)
  | mcallUnmap (who : Caller)
  | mcallLoad (who : Caller)
  | mcallReport (who : Caller)
  | mcallAssign (who : Caller)
  | mcallVfset (who : Caller)
  | mcallActivate (who : Caller)
  | mcallRelease (who : Caller)
  -- what a MOVPS.w does beyond storing (R303)
  | memoryEventPop (die : Nat)
  | trapQueuePop (die : Nat)
  | unreachClear (die : Nat)
  | laneBinCtlWrite (core bin : Nat) (v : DWord)
  | vfBlockWrite (vf k : Nat) (v : DWord)
  -- core steps
  | clauseIssue (q : Seq) (iid : Nat) (tids : List Nat)
  | spinDemotion (iid warp : Nat)
  | demotionEnd (iid hw : Nat)
  | flagCompletion (op tid : Nat)
  | falseGuardCompletion (op hw : Nat)
  | storeFault (op tid : Nat)
  | stageHandlerDelivery (iid hw : Nat)
  | stewardTrapEntry (die n : Nat) (t : TrapInfo)
  | interruptEntry (die n : Nat)
  | spadParkResume (iid sub : Nat)
  -- die memory steps
  | tlbMiss (want : Nat)
  | walkerDispatch (ctrl cluster : Nat)
  | poisonedFill (op tid cause : Nat)
  | repairStageStart (ctx core : Nat)
  | migrationRequest (ctrl asid : Nat) (va : DWord) (big far : Bool) (frame : Nat)
  | migrationCopy (ctrl asid : Nat) (va : DWord)
  | migrationComplete (ctrl asid : Nat) (va : DWord)
  | migrationAck (ctrl asid : Nat) (va : DWord)
  | sectorWrite (die key : Nat)
  -- claims and flows
  | claimWalkEnd (die entry : Nat)
  | flowComplete (flow : Nat)
  -- matrix engine
  | arbiterGrant (cluster : Nat)
  | priorityPromotion (cluster entry : Nat)
  | passComplete (cluster entry : Nat)
  | jointEntryTimeout (cluster entry : Nat)
  | mrdyReady (op : Nat)
  -- register growth, instances, placement
  | reggrowGrant (iid hw : Nat)
  | growthDeadlock (core : Nat)
  | instanceEnd (iid : Nat)
  | gangPlacement (die launch stage base : Nat)
  | queueDrivenStart (die launch stage : Nat)
  | gangAgeing (die launch stage : Nat)
  -- intervals, errors, pairs
  | intervalStart (ctx : Nat)
  | uncorrectableError (iid tid cause : Nat) (va : DWord)
  | regionUnwind (iid hw : Nat)
  | rollback (ctx : Nat)
  | compareMatch (die iid tid : Nat)
  -- log, replay, trace
  | logRecordWrite (ctx : Nat)
  | replayRecordApply (ctx src : Nat)
  | replayDivergence (ctx kind : Nat)
  | pairedPartitionCompare (ctx : Nat)
  | preciseStop (ctx : Nat)
  | traceRecordWrite (die : Nat)
  | traceFrameClose (die : Nat)
  | laneCycleEmit (core : Nat)
  -- test, boot, power, management
  | clusterTestDue (cluster : Nat)
  | testOverdue (cluster : Nat)
  | clusterTest (cluster : Nat) (pass : Bool)
  | powerOnBoot (imgs : List BootImage)
  | coolantLossTrip
  | managementPortRequest (r : MgmtReq)
  | moduleIdAssign (id : BitVec 19)
  -- fabric
  | hamperAgeExpiry (core line : Nat)
  | remoteMaskedWrite (p : Packet)
  | remoteLoadRequest (p : Packet)
  | remoteAtomicRequest (r : AtomReq)
  | remoteAck (req : Nat) (data : DWord)
  | remoteRefusal (req cause : Nat)
  | destinationUnreachable (peer : Nat)
  | ackTimeout (req : Nat)
  | linkDown (die link : Nat)
  | grantRequest (die : Nat) (p : Packet) (len : Nat) (isDst : Bool)
  | multicastCopy (p : Packet)
  | fredRoundComplete (group round : Nat) (others : List (List Word))
  | fredRefusal (req : Nat)
  | logRingConsumerWrite (ctx : Nat) (v : DWord)
  | logRingProducerWrite (ctx : Nat) (v : DWord)
  | linkUp (die link : Nat)
  | probeAnswer (peer : Nat)
  | computeSideReset
  | thermalLimitReached (on : Bool)
  | activationEnd
  | dieToDieWriteArrival (id : Nat)
  | peerRevokeMessage (peer : Nat) (va : DWord) (cause : Nat)
  | flowsDrainedReport (die entry : Nat)
deriving DecidableEq, Repr, Inhabited

end Sys2Proof
end

