-- ==== Sys2Proof/WellFormed.lean ====
section
/-!
DEFINITION. When an instruction is one that a word can encode and the checks of order 1 to 4 of R41 accept: its
opcode and class (R42), the registers it names (R30, R84), the values its chapter allows (sub-cause 5), the lengths
and operand kinds it allows (sub-cause 6), and the field widths of R28 and R29.
-/
namespace Sys2Proof

/-- The classes of R42; `step` for the rows that no word encodes. -/
inductive Cls
  | f3 | f5 | v | x | step
deriving DecidableEq, Repr, Inhabited

/-- The fields of R28 that the instruction holds; none for the steps that no word encodes. -/
def Instr.ctl : Instr → Option Ctl
  | .iadd c _ _ => some c
  | .isub c _ _ => some c
  | .imul c _ _ => some c
  | .imulhi c _ _ => some c
  | .imad c _ _ => some c
  | .imin c _ _ => some c
  | .imax c _ _ => some c
  | .iclamp c _ _ => some c
  | .iabs c _ _ => some c
  | .ineg c _ _ => some c
  | .isad c _ _ => some c
  | .lea c _ _ => some c
  | .idiv c _ _ => some c
  | .irem c _ _ => some c
  | .and c _ _ => some c
  | .or c _ _ => some c
  | .xor c _ _ => some c
  | .not c _ _ => some c
  | .andn c _ _ => some c
  | .logic3 c _ _ _ => some c
  | .shl c _ _ => some c
  | .shr c _ _ => some c
  | .sar c _ _ => some c
  | .rotl c _ _ => some c
  | .rotr c _ _ => some c
  | .shf c _ _ => some c
  | .popc c _ _ => some c
  | .clz c _ _ => some c
  | .ctz c _ _ => some c
  | .brev c _ _ => some c
  | .bfx c _ _ => some c
  | .bfi c _ => some c
  | .bperm c _ => some c
  | .fadd c _ _ => some c
  | .fsub c _ _ => some c
  | .fmul c _ _ => some c
  | .ffma c _ _ => some c
  | .fmin c _ _ => some c
  | .fmax c _ _ => some c
  | .fclamp c _ _ => some c
  | .fabs c _ _ => some c
  | .fneg c _ _ => some c
  | .fround c _ _ => some c
  | .fdiv c _ _ => some c
  | .fsqrt c _ _ => some c
  | .frcp c _ _ => some c
  | .frsq c _ _ => some c
  | .fexp2 c _ _ => some c
  | .flog2 c _ _ => some c
  | .fsin c _ _ => some c
  | .fcos c _ _ => some c
  | .ftanh c _ _ => some c
  | .hadd c _ _ => some c
  | .hsub c _ _ => some c
  | .hmul c _ _ => some c
  | .hfma c _ _ => some c
  | .hmin c _ _ => some c
  | .hmax c _ _ => some c
  | .hclamp c _ _ => some c
  | .habs c _ _ => some c
  | .hneg c _ _ => some c
  | .hdot2 c _ _ => some c
  | .hexp2 c _ _ => some c
  | .hrcp c _ _ => some c
  | .cvtf c _ _ => some c
  | .cvtfi c _ _ => some c
  | .cvtif c _ _ => some c
  | .cvtii c _ _ => some c
  | .pack2 c _ _ => some c
  | .unpack c _ _ => some c
  | .cvtblk c _ _ _ => some c
  | .icmp c _ _ _ => some c
  | .fcmp c _ _ _ => some c
  | .hcmp c _ _ _ _ _ => some c
  | .plogic c _ _ _ _ _ _ => some c
  | .fclass c _ _ => some c
  | .psetv c _ _ => some c
  | .pgetv c _ _ => some c
  | .mov c _ _ => some c
  | .sel c _ _ => some c
  | .movsr c _ _ => some c
  | .movsrW c _ _ => some c
  | .perm c _ => some c
  | .ballot c _ _ => some c
  | .vote c _ _ _ => some c
  | .laneget c _ => some c
  | .nop c => some c
  | .bra c _ => some c
  | .jmp c _ => some c
  | .call c _ _ => some c
  | .calli c _ => some c
  | .ret c _ => some c
  | .exit c => some c
  | .meet c _ => some c
  | .meetNone c => some c
  | .trap c _ => some c
  | .ld c _ _ _ => some c
  | .st c _ _ _ => some c
  | .ldm c _ _ _ => some c
  | .stm c _ _ _ => some c
  | .lds c _ _ => some c
  | .sts c _ _ => some c
  | .ldt c _ _ => some c
  | .spres c _ => some c
  | .pref c _ _ _ => some c
  | .drainst c => some c
  | .sfqpop c _ _ => some c
  | .atom c _ _ _ => some c
  | .atomcas c _ _ => some c
  | .atoms c _ _ _ => some c
  | .atomscas c _ _ => some c
  | .red c _ _ _ _ => some c
  | .fence c _ => some c
  | .rel c _ => some c
  | .acq c _ => some c
  | .join c _ _ => some c
  | .leave c _ _ => some c
  | .bar c _ _ => some c
  | .elect c _ _ => some c
  | .electRel c _ => some c
  | .gkill c _ => some c
  | .gred c _ _ _ => some c
  | .gbcast c _ _ => some c
  | .genOpen c _ _ _ _ => some c
  | .genPoint c => some c
  | .genTake c _ => some c
  | .genNext c => some c
  | .genPend c => some c
  | .yield c _ => some c
  | .reggrow c _ _ _ => some c
  | .regshrink c _ => some c
  | .loopn c _ _ => some c
  | .loopend c => some c
  | .dqpush c _ => some c
  | .dqpop c _ => some c
  | .dqdone c => some c
  | .dqbr c _ _ _ => some c
  | .sqpush c _ _ => some c
  | .sqpop c _ _ _ => some c
  | .gmov c _ _ _ => some c
  | .mma c _ => some c
  | .mmaj c _ _ => some c
  | .mrdy c _ _ _ => some c
  | .mwait c _ => some c
  | .mwaitAll c => some c
  | .mld c _ => some c
  | .mst c _ => some c
  | .mclr c _ _ => some c
  | .mswap c _ _ => some c
  | .mstat c _ _ => some c
  | .ffstat c _ _ => some c
  | .claimNew c _ _ _ _ _ => some c
  | .claimUse c _ => some c
  | .flowReg c _ _ _ => some c
  | .flowImm c _ _ _ _ _ => some c
  | .flwait c _ _ => some c
  | .clrel c _ => some c
  | .clrevokePg c _ _ => some c
  | .clrevokeK c _ _ => some c
  | .hdrain c => some c
  | .mcast c _ _ _ _ => some c
  | .fred c _ _ _ => some c
  | .cregOpen c _ _ _ _ => some c
  | .cregClose c => some c
  | .pairOpen c _ _ _ _ => some c
  | .pairClose c => some c
  | .einjPerr c => some c
  | .einjPoison c => some c
  | .einjPmis c _ => some c
  | .einjCerr c => some c
  | .prepair c _ _ => some c
  | .presume c _ => some c
  | .presumeFail c _ => some c
  | .trmark c _ => some c
  | .cntcapStart c _ => some c
  | .cntcapStop c _ _ => some c
  | .sample c _ => some c
  | .launch c _ => some c
  | .scall c _ => some c
  | .mcall c _ => some c
  | .eret c => some c
  | .tlbfill c _ _ _ => some c
  | .tlbinvPg c _ _ => some c
  | .tlbinvAsid c _ => some c
  | .tlbinvAll c => some c
  | .cinvPg c _ _ => some c
  | .cinvAsid c _ => some c
  | .cinvAll c => some c
  | .ckptIvl c _ _ => some c
  | .ckptMem c _ => some c
  | .ckptMemrst c _ => some c
  | .recctlOff c _ _ => some c
  | .recctlRec c _ _ => some c
  | .recctlRpl c _ _ => some c
  | .movps c _ _ => some c
  | .movpsW c _ _ => some c
  | .intctlMask c _ => some c
  | .intctlWait c => some c
  | .intctlResume c _ _ => some c
  | .intctlRespg c _ _ => some c
  | .ctxsaveInst c _ => some c
  | .ctxsaveCtx c _ => some c
  | .ctxsaveEnd c _ => some c
  | .ctxload c _ => some c
  | .ctxloadCtx c _ => some c
  | .wretFill c => some c
  | .wretServ c => some c
  | .wretDeny c _ => some c
  | .mcallMap .. | .mcallUnmap .. | .mcallLoad .. | .mcallReport .. | .mcallAssign .. | .mcallVfset ..
  | .mcallActivate .. | .mcallRelease .. | .memoryEventPop .. | .trapQueuePop .. | .unreachClear ..
  | .laneBinCtlWrite .. | .vfBlockWrite .. | .clauseIssue .. | .spinDemotion .. | .demotionEnd ..
  | .flagCompletion .. | .falseGuardCompletion .. | .storeFault .. | .stageHandlerDelivery ..
  | .stewardTrapEntry .. | .interruptEntry .. | .spadParkResume .. | .tlbMiss .. | .walkerDispatch ..
  | .poisonedFill .. | .repairStageStart .. | .migrationRequest .. | .migrationCopy .. | .migrationComplete ..
  | .migrationAck .. | .sectorWrite .. | .claimWalkEnd .. | .flowComplete .. | .arbiterGrant ..
  | .priorityPromotion .. | .passComplete .. | .jointEntryTimeout .. | .mrdyReady .. | .reggrowGrant ..
  | .growthDeadlock .. | .instanceEnd .. | .gangPlacement .. | .queueDrivenStart .. | .gangAgeing ..
  | .intervalStart .. | .uncorrectableError .. | .regionUnwind .. | .rollback .. | .compareMatch ..
  | .logRecordWrite .. | .replayRecordApply .. | .replayDivergence .. | .pairedPartitionCompare ..
  | .preciseStop .. | .traceRecordWrite .. | .traceFrameClose .. | .laneCycleEmit .. | .clusterTestDue ..
  | .testOverdue .. | .clusterTest .. | .powerOnBoot .. | .coolantLossTrip .. | .managementPortRequest ..
  | .moduleIdAssign .. | .hamperAgeExpiry .. | .remoteMaskedWrite .. | .remoteLoadRequest ..
  | .remoteAtomicRequest .. | .remoteAck .. | .remoteRefusal .. | .destinationUnreachable .. | .ackTimeout ..
  | .linkDown .. | .grantRequest .. | .multicastCopy .. | .fredRoundComplete .. | .fredRefusal ..
  | .logRingConsumerWrite .. | .logRingProducerWrite .. | .linkUp .. | .probeAnswer .. | .computeSideReset ..
  | .thermalLimitReached .. | .activationEnd .. | .dieToDieWriteArrival .. | .peerRevokeMessage ..
  | .flowsDrainedReport .. => none

/-- The opcode of R42: group × 64 + minor. None for the steps that no word encodes. -/
def Instr.opc : Instr → Option Nat
  | .iadd .. => some 0x000
  | .isub .. => some 0x001
  | .imul .. => some 0x002
  | .imulhi .. => some 0x003
  | .imad .. => some 0x004
  | .imin .. => some 0x005
  | .imax .. => some 0x006
  | .iclamp .. => some 0x007
  | .iabs .. => some 0x008
  | .ineg .. => some 0x009
  | .isad .. => some 0x00A
  | .lea .. => some 0x00B
  | .idiv .. => some 0x00C
  | .irem .. => some 0x00D
  | .and .. => some 0x040
  | .or .. => some 0x041
  | .xor .. => some 0x042
  | .not .. => some 0x043
  | .andn .. => some 0x044
  | .logic3 .. => some 0x045
  | .shl .. => some 0x046
  | .shr .. => some 0x047
  | .sar .. => some 0x048
  | .rotl .. => some 0x049
  | .rotr .. => some 0x04A
  | .shf .. => some 0x04B
  | .popc .. => some 0x04C
  | .clz .. => some 0x04D
  | .ctz .. => some 0x04E
  | .brev .. => some 0x04F
  | .bfx .. => some 0x050
  | .bfi .. => some 0x051
  | .bperm .. => some 0x052
  | .fadd .. => some 0x080
  | .fsub .. => some 0x081
  | .fmul .. => some 0x082
  | .ffma .. => some 0x083
  | .fmin .. => some 0x084
  | .fmax .. => some 0x085
  | .fclamp .. => some 0x086
  | .fabs .. => some 0x087
  | .fneg .. => some 0x088
  | .fround .. => some 0x089
  | .fdiv .. => some 0x08A
  | .fsqrt .. => some 0x08B
  | .frcp .. => some 0x08C
  | .frsq .. => some 0x08D
  | .fexp2 .. => some 0x08E
  | .flog2 .. => some 0x08F
  | .fsin .. => some 0x090
  | .fcos .. => some 0x091
  | .ftanh .. => some 0x092
  | .hadd .. => some 0x0C0
  | .hsub .. => some 0x0C1
  | .hmul .. => some 0x0C2
  | .hfma .. => some 0x0C3
  | .hmin .. => some 0x0C4
  | .hmax .. => some 0x0C5
  | .hclamp .. => some 0x0C6
  | .habs .. => some 0x0C7
  | .hneg .. => some 0x0C8
  | .hdot2 .. => some 0x0C9
  | .hexp2 .. => some 0x0CA
  | .hrcp .. => some 0x0CB
  | .cvtf .. => some 0x100
  | .cvtfi .. => some 0x101
  | .cvtif .. => some 0x102
  | .cvtii .. => some 0x103
  | .pack2 .. => some 0x104
  | .unpack .. => some 0x105
  | .cvtblk .. => some 0x106
  | .icmp .. => some 0x140
  | .fcmp .. => some 0x141
  | .hcmp .. => some 0x142
  | .plogic .. => some 0x143
  | .fclass .. => some 0x144
  | .psetv .. => some 0x145
  | .pgetv .. => some 0x146
  | .mov .. => some 0x180
  | .sel .. => some 0x181
  | .movsr .. | .movsrW .. => some 0x182
  | .perm .. => some 0x183
  | .ballot .. => some 0x184
  | .vote .. => some 0x185
  | .laneget .. => some 0x186
  | .nop .. => some 0x1C0
  | .bra .. => some 0x1C1
  | .jmp .. => some 0x1C2
  | .call .. => some 0x1C3
  | .calli .. => some 0x1C4
  | .ret .. => some 0x1C5
  | .exit .. => some 0x1C6
  | .meet .. | .meetNone .. => some 0x1C7
  | .trap .. => some 0x1C8
  | .ld .. => some 0x200
  | .st .. => some 0x201
  | .ldm .. => some 0x202
  | .stm .. => some 0x203
  | .lds .. => some 0x204
  | .sts .. => some 0x205
  | .ldt .. => some 0x206
  | .spres .. => some 0x207
  | .pref .. => some 0x208
  | .drainst .. => some 0x209
  | .sfqpop .. => some 0x20A
  | .atom .. => some 0x240
  | .atomcas .. => some 0x241
  | .atoms .. => some 0x242
  | .atomscas .. => some 0x243
  | .red .. => some 0x244
  | .fence .. => some 0x245
  | .rel .. => some 0x246
  | .acq .. => some 0x247
  | .join .. => some 0x280
  | .leave .. => some 0x281
  | .bar .. => some 0x282
  | .elect .. | .electRel .. => some 0x283
  | .gkill .. => some 0x284
  | .gred .. => some 0x285
  | .gbcast .. => some 0x286
  | .genOpen .. | .genPoint .. | .genTake .. | .genNext .. | .genPend .. => some 0x287
  | .yield .. => some 0x288
  | .reggrow .. => some 0x289
  | .regshrink .. => some 0x28A
  | .loopn .. => some 0x2C0
  | .loopend .. => some 0x2C1
  | .dqpush .. => some 0x2C2
  | .dqpop .. => some 0x2C3
  | .dqdone .. => some 0x2C4
  | .dqbr .. => some 0x2C5
  | .sqpush .. => some 0x2C6
  | .sqpop .. => some 0x2C7
  | .gmov .. => some 0x2C8
  | .mma .. => some 0x300
  | .mmaj .. => some 0x301
  | .mrdy .. => some 0x302
  | .mwait .. | .mwaitAll .. => some 0x303
  | .mld .. => some 0x304
  | .mst .. => some 0x305
  | .mclr .. => some 0x306
  | .mswap .. => some 0x307
  | .mstat .. => some 0x308
  | .ffstat .. => some 0x309
  | .claimNew .. | .claimUse .. => some 0x340
  | .flowReg .. | .flowImm .. => some 0x341
  | .flwait .. => some 0x342
  | .clrel .. => some 0x343
  | .clrevokePg .. | .clrevokeK .. => some 0x344
  | .hdrain .. => some 0x345
  | .mcast .. => some 0x346
  | .fred .. => some 0x347
  | .cregOpen .. | .cregClose .. => some 0x380
  | .pairOpen .. | .pairClose .. => some 0x381
  | .einjPerr .. | .einjPoison .. | .einjPmis .. | .einjCerr .. => some 0x382
  | .prepair .. => some 0x383
  | .presume .. | .presumeFail .. => some 0x384
  | .trmark .. => some 0x385
  | .cntcapStart .. | .cntcapStop .. => some 0x386
  | .sample .. => some 0x387
  | .launch .. => some 0x3C0
  | .scall .. => some 0x3C1
  | .mcall .. => some 0x3C2
  | .eret .. => some 0x3C3
  | .tlbfill .. => some 0x3C4
  | .tlbinvPg .. | .tlbinvAsid .. | .tlbinvAll .. => some 0x3C5
  | .cinvPg .. | .cinvAsid .. | .cinvAll .. => some 0x3C6
  | .ckptIvl .. | .ckptMem .. | .ckptMemrst .. => some 0x3C7
  | .recctlOff .. | .recctlRec .. | .recctlRpl .. => some 0x3C8
  | .movps .. | .movpsW .. => some 0x3C9
  | .intctlMask .. | .intctlWait .. | .intctlResume .. | .intctlRespg .. => some 0x3CA
  | .ctxsaveInst .. | .ctxsaveCtx .. | .ctxsaveEnd .. => some 0x3CB
  | .ctxload .. | .ctxloadCtx .. => some 0x3CC
  | .wretFill .. | .wretServ .. | .wretDeny .. => some 0x3CD
  | .mcallMap .. | .mcallUnmap .. | .mcallLoad .. | .mcallReport .. | .mcallAssign .. | .mcallVfset ..
  | .mcallActivate .. | .mcallRelease .. | .memoryEventPop .. | .trapQueuePop .. | .unreachClear ..
  | .laneBinCtlWrite .. | .vfBlockWrite .. | .clauseIssue .. | .spinDemotion .. | .demotionEnd ..
  | .flagCompletion .. | .falseGuardCompletion .. | .storeFault .. | .stageHandlerDelivery ..
  | .stewardTrapEntry .. | .interruptEntry .. | .spadParkResume .. | .tlbMiss .. | .walkerDispatch ..
  | .poisonedFill .. | .repairStageStart .. | .migrationRequest .. | .migrationCopy .. | .migrationComplete ..
  | .migrationAck .. | .sectorWrite .. | .claimWalkEnd .. | .flowComplete .. | .arbiterGrant ..
  | .priorityPromotion .. | .passComplete .. | .jointEntryTimeout .. | .mrdyReady .. | .reggrowGrant ..
  | .growthDeadlock .. | .instanceEnd .. | .gangPlacement .. | .queueDrivenStart .. | .gangAgeing ..
  | .intervalStart .. | .uncorrectableError .. | .regionUnwind .. | .rollback .. | .compareMatch ..
  | .logRecordWrite .. | .replayRecordApply .. | .replayDivergence .. | .pairedPartitionCompare ..
  | .preciseStop .. | .traceRecordWrite .. | .traceFrameClose .. | .laneCycleEmit .. | .clusterTestDue ..
  | .testOverdue .. | .clusterTest .. | .powerOnBoot .. | .coolantLossTrip .. | .managementPortRequest ..
  | .moduleIdAssign .. | .hamperAgeExpiry .. | .remoteMaskedWrite .. | .remoteLoadRequest ..
  | .remoteAtomicRequest .. | .remoteAck .. | .remoteRefusal .. | .destinationUnreachable .. | .ackTimeout ..
  | .linkDown .. | .grantRequest .. | .multicastCopy .. | .fredRoundComplete .. | .fredRefusal ..
  | .logRingConsumerWrite .. | .logRingProducerWrite .. | .linkUp .. | .probeAnswer .. | .computeSideReset ..
  | .thermalLimitReached .. | .activationEnd .. | .dieToDieWriteArrival .. | .peerRevokeMessage ..
  | .flowsDrainedReport .. => none

/-- The class of R42 (for a GEN form, of R154). -/
def Instr.cls : Instr → Cls
  | .iadd .. | .isub .. | .imin .. | .imax .. | .iclamp .. | .iabs .. | .ineg .. | .isad .. | .lea .. | .and ..
  | .or .. | .xor .. | .not .. | .andn .. | .logic3 .. | .shl .. | .shr .. | .sar .. | .rotl .. | .rotr ..
  | .shf .. | .popc .. | .clz .. | .ctz .. | .brev .. | .bfx .. | .bfi .. | .bperm .. | .fmin .. | .fmax ..
  | .fclamp .. | .fabs .. | .fneg .. | .hmin .. | .hmax .. | .hclamp .. | .habs .. | .hneg .. | .cvtii ..
  | .unpack .. | .icmp .. | .fcmp .. | .hcmp .. | .plogic .. | .fclass .. | .psetv .. | .pgetv .. | .mov ..
  | .sel .. | .movsr .. | .movsrW .. | .perm .. | .ballot .. | .vote .. | .laneget .. | .nop .. | .meet ..
  | .meetNone .. | .spres .. | .gmov .. | .ffstat .. | .trmark .. | .movps .. | .movpsW .. => .f3
  | .imul .. | .imulhi .. | .imad .. | .fadd .. | .fsub .. | .fmul .. | .ffma .. | .fround .. | .hadd ..
  | .hsub .. | .hmul .. | .hfma .. | .hdot2 .. | .cvtf .. | .cvtfi .. | .cvtif .. | .pack2 .. | .cvtblk .. => .f5
  | .idiv .. | .irem .. | .fdiv .. | .fsqrt .. | .frcp .. | .frsq .. | .fexp2 .. | .flog2 .. | .fsin ..
  | .fcos .. | .ftanh .. | .hexp2 .. | .hrcp .. | .ld .. | .st .. | .ldm .. | .stm .. | .lds .. | .sts ..
  | .ldt .. | .pref .. | .drainst .. | .sfqpop .. | .atom .. | .atomcas .. | .atoms .. | .atomscas .. | .red ..
  | .fence .. | .rel .. | .acq .. | .join .. | .leave .. | .bar .. | .elect .. | .electRel .. | .gkill ..
  | .gred .. | .gbcast .. | .genOpen .. | .genTake .. | .yield .. | .reggrow .. | .regshrink .. | .dqpush ..
  | .dqpop .. | .dqdone .. | .sqpush .. | .sqpop .. | .mma .. | .mmaj .. | .mrdy .. | .mwait .. | .mwaitAll ..
  | .mld .. | .mst .. | .mclr .. | .mswap .. | .mstat .. | .claimNew .. | .claimUse .. | .flowReg ..
  | .flowImm .. | .flwait .. | .clrel .. | .clrevokePg .. | .clrevokeK .. | .hdrain .. | .mcast .. | .fred ..
  | .cregOpen .. | .cregClose .. | .pairOpen .. | .pairClose .. | .einjPerr .. | .einjPoison .. | .einjPmis ..
  | .einjCerr .. | .prepair .. | .presume .. | .presumeFail .. | .cntcapStart .. | .cntcapStop .. | .sample ..
  | .launch .. | .tlbfill .. | .tlbinvPg .. | .tlbinvAsid .. | .tlbinvAll .. | .cinvPg .. | .cinvAsid ..
  | .cinvAll .. | .ckptIvl .. | .ckptMem .. | .ckptMemrst .. | .recctlOff .. | .recctlRec .. | .recctlRpl ..
  | .intctlMask .. | .intctlWait .. | .intctlResume .. | .intctlRespg .. | .ctxsaveInst .. | .ctxsaveCtx ..
  | .ctxsaveEnd .. | .ctxload .. | .ctxloadCtx .. => .v
  | .bra .. | .jmp .. | .call .. | .calli .. | .ret .. | .exit .. | .trap .. | .genPoint .. | .genNext ..
  | .genPend .. | .loopn .. | .loopend .. | .dqbr .. | .scall .. | .mcall .. | .eret .. | .wretFill ..
  | .wretServ .. | .wretDeny .. => .x
  | .mcallMap .. | .mcallUnmap .. | .mcallLoad .. | .mcallReport .. | .mcallAssign .. | .mcallVfset ..
  | .mcallActivate .. | .mcallRelease .. | .memoryEventPop .. | .trapQueuePop .. | .unreachClear ..
  | .laneBinCtlWrite .. | .vfBlockWrite .. | .clauseIssue .. | .spinDemotion .. | .demotionEnd ..
  | .flagCompletion .. | .falseGuardCompletion .. | .storeFault .. | .stageHandlerDelivery ..
  | .stewardTrapEntry .. | .interruptEntry .. | .spadParkResume .. | .tlbMiss .. | .walkerDispatch ..
  | .poisonedFill .. | .repairStageStart .. | .migrationRequest .. | .migrationCopy .. | .migrationComplete ..
  | .migrationAck .. | .sectorWrite .. | .claimWalkEnd .. | .flowComplete .. | .arbiterGrant ..
  | .priorityPromotion .. | .passComplete .. | .jointEntryTimeout .. | .mrdyReady .. | .reggrowGrant ..
  | .growthDeadlock .. | .instanceEnd .. | .gangPlacement .. | .queueDrivenStart .. | .gangAgeing ..
  | .intervalStart .. | .uncorrectableError .. | .regionUnwind .. | .rollback .. | .compareMatch ..
  | .logRecordWrite .. | .replayRecordApply .. | .replayDivergence .. | .pairedPartitionCompare ..
  | .preciseStop .. | .traceRecordWrite .. | .traceFrameClose .. | .laneCycleEmit .. | .clusterTestDue ..
  | .testOverdue .. | .clusterTest .. | .powerOnBoot .. | .coolantLossTrip .. | .managementPortRequest ..
  | .moduleIdAssign .. | .hamperAgeExpiry .. | .remoteMaskedWrite .. | .remoteLoadRequest ..
  | .remoteAtomicRequest .. | .remoteAck .. | .remoteRefusal .. | .destinationUnreachable .. | .ackTimeout ..
  | .linkDown .. | .grantRequest .. | .multicastCopy .. | .fredRoundComplete .. | .fredRefusal ..
  | .logRingConsumerWrite .. | .logRingProducerWrite .. | .linkUp .. | .probeAnswer .. | .computeSideReset ..
  | .thermalLimitReached .. | .activationEnd .. | .dieToDieWriteArrival .. | .peerRevokeMessage ..
  | .flowsDrainedReport .. => .step

/-- A range of registers that an instruction names: the first, how many, and whether the first must be even (R84). -/
structure RU where
  first : Nat
  n     : Nat
  even  : Bool
deriving DecidableEq, Repr, Inhabited

/-- What an instruction names: register ranges it writes, register ranges it reads without the crossbar, the
vector sources A and C with their width, source B with its width, and its predicates. -/
structure Uses where
  dst : List RU := []
  src : List RU := []
  vs  : List (VSrc × RU) := []
  bs  : Option (BSrc × RU) := none
  pd  : List Nat := []
  ps  : List Nat := []
deriving DecidableEq, Repr, Inhabited

/-- The 64-bit integer types of R31, whose operands are pairs. -/
def Ty.wide : Ty → Bool
  | .i64 | .n64 => true
  | _ => false

def CTy.wide : CTy → Bool
  | .i64 | .n64 => true
  | _ => false

/-- A 32-bit operand in one register, or a 64-bit operand: an even pair, and in Guide code one register (R158). -/
def RU.one (r : Nat) : RU := ⟨r, 1, false⟩
def RU.pair (g : Bool) (r : Nat) : RU := if g then ⟨r, 1, false⟩ else ⟨r, 2, true⟩
def RU.val (g wide : Bool) (r : Nat) : RU := if wide then RU.pair g r else RU.one r
def RU.many (r n : Nat) : RU := ⟨r, n, false⟩

/-- A vector source with the width of its operand, and source B. -/
def VSrc.use (g wide : Bool) (a : VSrc) : VSrc × RU := (a, RU.val g wide a.reg)
def BSrc.reg : BSrc → Nat
  | .vec r _ => r
  | .sca n => n
  | .imm8 _ | .imm32 _ => 0
def BSrc.use (g wide : Bool) (b : BSrc) : Option (BSrc × RU) := some (b, RU.val g wide b.reg)

def O1.uses (g wd wa : Bool) (o : O1) : Uses :=
  { dst := [RU.val g wd o.d], vs := [o.a.use g wa] }
def O2.uses (g wd wa wb : Bool) (o : O2) : Uses :=
  { dst := [RU.val g wd o.d], vs := [o.a.use g wa], bs := o.b.use g wb }
def O3.uses (g wd wa wb wc : Bool) (o : O3) : Uses :=
  { dst := [RU.val g wd o.d], vs := [o.a.use g wa, o.c.use g wc], bs := o.b.use g wb }
def O2.store (g wd wa wb : Bool) (o : O2) : Uses :=
  { src := [RU.val g wd o.d], vs := [o.a.use g wa], bs := o.b.use g wb }
def CmpF.uses (g w : Bool) (f : CmpF) : Uses :=
  { vs := [f.a.use g w], bs := f.b.use g w, pd := [f.pt, f.pf] }

/-- K / 32 of the 4-bit family per shape (R169): 4 for shapes 0 to 3, 8 for 4 to 7. -/
def shapeBlocks (shape : Nat) : Nat := if shape < 4 then 4 else 8

def MTy.fourBit : MTy → Bool
  | .mxf4 | .i4o => true
  | _ => false

/-- Whether a shape has 64 rows, and whether it has 64 columns (R169). -/
def shapeTall (shape : Nat) : Bool := shape == 2 || shape == 3 || shape == 6
def shapeWide (shape : Nat) : Bool := shape == 1 || shape == 3 || shape == 5 || shape == 6 || shape == 7

/-- Registers of an A or B scale range (R178). -/
def MmaF.scales (f : MmaF) : List RU :=
  if f.ta.fourBit then
    [RU.many f.sa (if shapeTall f.shape then 4 else 2), RU.many f.sb (if shapeWide f.shape then 4 else 2)]
  else []

/-- LDT's registers (R141): 2N for elements of N = 4, 8, 16 or 32 bits. -/
def ldtRegs (w : Nat) : Nat := 8 * 2 ^ w

/-- The predicates of PSETV and PGETV (R102). -/
def predGroup (sel : Bool) : List Nat := if sel then (List.range 16).map (32 + ·) else (List.range 31).map (· + 1)

/-- The registers and predicates of an instruction; `g` says that it stands in Guide code. GEN.TAKE, YIELD, SQPUSH
and SQPOP name a first register only: how many follow is the Basket's or the queue's (R155, R161). -/
def Instr.uses (g : Bool) : Instr → Uses
  | .iadd _ m o | .isub _ m o | .imul _ m o | .imulhi _ m o | .imin _ m o | .imax _ m o | .idiv _ m o
  | .irem _ m o => let w := m.ty.wide; o.uses g w w w
  | .imad _ m o | .iclamp _ m o | .isad _ m o => let w := m.ty.wide; o.uses g w w w w
  | .iabs _ m o | .ineg _ m o => let w := m.ty.wide; o.uses g w w
  | .lea _ _ o => o.uses g true true false
  | .and _ ty o | .or _ ty o | .xor _ ty o | .andn _ ty o => let w := ty.wide; o.uses g w w w
  | .not _ ty o | .brev _ ty o => let w := ty.wide; o.uses g w w
  | .logic3 _ ty o _ => let w := ty.wide; o.uses g w w w w
  | .shl _ ty o | .shr _ ty o | .sar _ ty o | .rotl _ ty o | .rotr _ ty o => let w := ty.wide; o.uses g w w false
  | .shf _ _ o => o.uses g false false false false
  | .popc _ ty o | .clz _ ty o | .ctz _ ty o => o.uses g false ty.wide
  | .bfx _ _ o | .bfi _ o => o.uses g false false false false
  | .bperm _ o => o.uses g false false false
  | .fadd _ _ o | .fsub _ _ o | .fmul _ _ o | .fmin _ _ o | .fmax _ _ o | .fdiv _ _ o
  | .hadd _ _ o | .hsub _ _ o | .hmul _ _ o | .hmin _ _ o | .hmax _ _ o => o.uses g false false false
  | .ffma _ _ o | .fclamp _ _ o | .hfma _ _ o | .hclamp _ _ o | .hdot2 _ _ o => o.uses g false false false false
  | .fabs _ _ o | .fneg _ _ o | .fround _ _ o | .fsqrt _ _ o | .frcp _ _ o | .frsq _ _ o | .fexp2 _ _ o
  | .flog2 _ _ o | .fsin _ _ o | .fcos _ _ o | .ftanh _ _ o | .habs _ _ o | .hneg _ _ o | .hexp2 _ _ o
  | .hrcp _ _ o => o.uses g false false
  | .cvtf _ f o | .cvtfi _ f o | .cvtif _ f o | .cvtii _ f o | .unpack _ f o => o.uses g f.dst.wide f.src.wide
  | .pack2 _ _ o => o.uses g false false false
  | .cvtblk _ _ _ o =>
    { dst := [RU.one o.d], vs := [(o.a, RU.many o.a.reg 4), (o.c, RU.many o.c.reg 4)], bs := o.b.use g false }
  | .icmp _ ty _ f => f.uses g ty.wide
  | .fcmp _ _ _ f | .hcmp _ _ _ _ _ f | .fclass _ _ f => f.uses g false
  | .plogic _ _ pd pa _ pb _ => { pd := [pd], ps := [pa, pb] }
  | .psetv _ a hi => { vs := [a.use g false], pd := predGroup hi }
  | .pgetv _ d hi => { dst := [RU.one d], ps := predGroup hi }
  | .mov _ d b => { dst := [RU.one d], bs := b.use g false }
  | .sel _ o ps => { o.uses g false false false with ps := [ps] }
  | .movsr _ d sr => { dst := [RU.val g (sr == 5) d] }
  | .movsrW _ sr b => { bs := b.use g (sr == 5) }
  | .perm _ o | .laneget _ o => o.uses g false false false
  | .ballot _ d ps => { dst := [RU.one d], ps := [ps] }
  | .vote _ _ pd ps => { pd := [pd], ps := [ps] }
  | .nop _ | .bra _ _ | .exit _ | .meet _ _ | .meetNone _ => {}
  | .jmp _ a | .ret _ a => { vs := [a.use g true] }
  | .call _ d _ => { dst := [RU.pair g d] }
  | .calli _ o => o.uses g true true
  | .trap _ b => { bs := b.use g false }
  | .ld _ ty _ o => o.uses g ty.wide true false
  | .st _ ty _ o => o.store g ty.wide true false
  | .ldm _ n _ o => { dst := [RU.many o.d n], vs := [o.a.use g true], bs := o.b.use g false }
  | .stm _ n _ o => { src := [RU.many o.d n], vs := [o.a.use g true], bs := o.b.use g false }
  | .lds _ ty o => o.uses g ty.wide false false
  | .sts _ ty o => o.store g ty.wide false false
  | .ldt _ w o => { dst := [RU.many o.d (ldtRegs w)], vs := [o.a.use g false], bs := o.b.use g false }
  | .spres _ o => { vs := [o.a.use g false], bs := o.b.use g false, pd := [o.d] }
  | .pref _ _ a b => { vs := [a.use g true], bs := b.use g false }
  | .drainst _ => {}
  | .sfqpop _ pp d => { dst := [RU.many d 8], pd := [pp] }
  | .atom _ _ ty o => let w := ty == .b64; o.uses g w true w
  | .atomcas _ ty o => let w := ty == .b64; o.uses g w true w w
  | .atoms _ _ ty o => let w := ty == .b64; o.uses g w false w
  | .atomscas _ ty o => let w := ty == .b64; o.uses g w false w w
  | .red _ _ ty a b => { vs := [a.use g true], bs := b.use g (ty == .b64) }
  | .fence _ _ | .rel _ _ | .acq _ _ => {}
  | .join _ pd b | .leave _ pd b | .bar _ pd b | .elect _ pd b | .reggrow _ _ pd b =>
    { bs := b.use g false, pd := [pd] }
  | .electRel _ b | .gkill _ b | .regshrink _ b => { bs := b.use g false }
  | .gred _ ty _ o => o.uses g ty.wide ty.wide false
  | .gbcast _ ty o => o.uses g ty.wide ty.wide false
  | .genOpen _ _ _ _ _ | .genPoint _ | .genNext _ | .genPend _ => {}
  | .genTake _ d => { dst := [RU.one d] }
  | .yield _ a => { src := [RU.one a] }
  | .loopn _ b _ => { bs := b.use true false }
  | .dqbr _ _ b _ => { bs := b.use g false }
  | .loopend _ | .dqpop _ _ | .dqdone _ => {}
  | .dqpush _ a => { src := [RU.many a 2] }
  | .sqpush _ a _ => { src := [RU.one a] }
  | .sqpop _ pp d _ => { dst := [RU.one d], pd := [pp] }
  | .gmov _ _ d b => { dst := [RU.pair true d], bs := b.use true true }
  | .mma _ f => { src := f.scales }
  | .mmaj _ f _ => { src := f.scales }
  | .mrdy _ _ _ _ | .mwait _ _ | .mwaitAll _ | .mclr _ _ _ | .mswap _ _ _ => {}
  | .mld _ f => { dst := [RU.many f.d f.n] }
  | .mst _ f => { src := [RU.many f.d f.n] }
  | .mstat _ d _ => { dst := [RU.one d] }
  | .ffstat _ d _ => { dst := [RU.many d 2] }
  | .claimNew _ _ sk dk a _ => { src := [RU.many a (if g then 3 else if sk == .peer || dk == .peer then 6 else 5)] }
  | .claimUse _ _ | .flowImm _ _ _ _ _ _ | .flwait _ _ _ | .clrel _ _ | .hdrain _ => {}
  | .flowReg _ _ _ a => { src := [RU.many a (if g then 2 else 3)] }
  | .clrevokePg _ a b => { vs := [a.use g true], bs := b.use g false }
  | .clrevokeK _ a _ => { vs := [a.use g false] }
  | .mcast _ n d a x => { src := [RU.many d n, RU.pair g a, RU.many x 8] }
  | .fred _ _ _ o => o.uses g false false false
  | .cregOpen _ _ pd a _ | .pairOpen _ pd a _ _ => { dst := [RU.many a 8], pd := [pd] }
  | .cregClose _ | .pairClose _ | .einjPerr _ | .einjPoison _ | .einjCerr _ => {}
  | .einjPmis _ b => { bs := b.use g false }
  | .prepair _ d a => { src := [RU.many d 8], vs := [a.use g true] }
  | .presume _ a | .presumeFail _ a => { vs := [a.use g true] }
  | .trmark _ b | .sample _ b | .scall _ b => { bs := b.use g false }
  | .cntcapStart _ _ => {}
  | .cntcapStop _ d _ => { dst := [RU.pair g d] }
  | .launch _ o => o.uses g true true
  | .mcall _ _ | .eret _ => {}
  | .tlbfill _ pd a _ => { vs := [a.use g true], pd := [pd] }
  | .tlbinvPg _ a b | .cinvPg _ a b => { vs := [a.use g true], bs := b.use g false }
  | .tlbinvAsid _ b | .cinvAsid _ b => { bs := b.use g false }
  | .tlbinvAll _ | .cinvAll _ => {}
  | .ckptIvl _ d b | .recctlOff _ d b | .recctlRec _ d b | .recctlRpl _ d b =>
    { dst := [RU.one d], bs := b.use g false }
  | .ckptMem _ d | .ckptMemrst _ d => { dst := [RU.one d] }
  | .movps _ d b => { dst := [RU.pair g d], bs := b.use g false }
  | .movpsW _ a b => { vs := [a.use g true], bs := b.use g false }
  | .intctlMask _ b => { bs := b.use g false }
  | .intctlWait _ => {}
  | .intctlResume _ a _ => { vs := [(a, RU.many a.reg 2)] }
  | .intctlRespg _ a b => { vs := [a.use g true], bs := b.use g false }
  | .ctxsaveInst _ o | .ctxsaveCtx _ o | .ctxsaveEnd _ o | .ctxload _ o | .ctxloadCtx _ o =>
    o.uses g false false false
  | .wretFill _ | .wretServ _ | .wretDeny _ _ => {}
  | .mcallMap .. | .mcallUnmap .. | .mcallLoad .. | .mcallReport .. | .mcallAssign .. | .mcallVfset ..
  | .mcallActivate .. | .mcallRelease .. | .memoryEventPop .. | .trapQueuePop .. | .unreachClear ..
  | .laneBinCtlWrite .. | .vfBlockWrite .. | .clauseIssue .. | .spinDemotion .. | .demotionEnd ..
  | .flagCompletion .. | .falseGuardCompletion .. | .storeFault .. | .stageHandlerDelivery ..
  | .stewardTrapEntry .. | .interruptEntry .. | .spadParkResume .. | .tlbMiss .. | .walkerDispatch ..
  | .poisonedFill .. | .repairStageStart .. | .migrationRequest .. | .migrationCopy .. | .migrationComplete ..
  | .migrationAck .. | .sectorWrite .. | .claimWalkEnd .. | .flowComplete .. | .arbiterGrant ..
  | .priorityPromotion .. | .passComplete .. | .jointEntryTimeout .. | .mrdyReady .. | .reggrowGrant ..
  | .growthDeadlock .. | .instanceEnd .. | .gangPlacement .. | .queueDrivenStart .. | .gangAgeing ..
  | .intervalStart .. | .uncorrectableError .. | .regionUnwind .. | .rollback .. | .compareMatch ..
  | .logRecordWrite .. | .replayRecordApply .. | .replayDivergence .. | .pairedPartitionCompare ..
  | .preciseStop .. | .traceRecordWrite .. | .traceFrameClose .. | .laneCycleEmit .. | .clusterTestDue ..
  | .testOverdue .. | .clusterTest .. | .powerOnBoot .. | .coolantLossTrip .. | .managementPortRequest ..
  | .moduleIdAssign .. | .hamperAgeExpiry .. | .remoteMaskedWrite .. | .remoteLoadRequest ..
  | .remoteAtomicRequest .. | .remoteAck .. | .remoteRefusal .. | .destinationUnreachable .. | .ackTimeout ..
  | .linkDown .. | .grantRequest .. | .multicastCopy .. | .fredRoundComplete .. | .fredRefusal ..
  | .logRingConsumerWrite .. | .logRingProducerWrite .. | .linkUp .. | .probeAnswer .. | .computeSideReset ..
  | .thermalLimitReached .. | .activationEnd .. | .dieToDieWriteArrival .. | .peerRevokeMessage ..
  | .flowsDrainedReport .. => {}

/-! ### Values: sub-cause 5 -/

def Ty.isInt : Ty → Bool
  | .i32 | .n32 | .i16 | .n16 | .i8 | .n8 | .i64 | .n64 => true
  | _ => false
def Ty.signed : Ty → Bool
  | .i32 | .i16 | .i8 | .i64 => true
  | _ => false
def Ty.isWord : Ty → Bool
  | .i32 | .n32 | .i64 | .n64 => true
  | _ => false
def Ty.logic : Ty → Bool
  | .b32 | .n64 => true
  | _ => false
def Ty.half : Ty → Bool
  | .f16 | .bf16 => true
  | _ => false

/-- The modifiers of a group 0x0 row (R86): its types, whether it has .sat; .rne and no .ftz. -/
def Mods.int (tys : Ty → Bool) (sat : Bool) (m : Mods) : Bool :=
  tys m.ty && (sat || !m.sat) && !m.ftz && m.rnd == .rne

/-- The modifiers of a group 0x2 or 0x3 row (R92, R93): any rounding or .rne only, .sat, .ftz. -/
def Mods.flt (tys : Ty → Bool) (any sat ftz : Bool) (m : Mods) : Bool :=
  tys m.ty && (any || m.rnd == .rne) && (sat || !m.sat) && (ftz || !m.ftz)

def CTy.isInt : CTy → Bool
  | .i32 | .n32 | .i16 | .n16 | .i8 | .n8 | .i64 | .n64 => true
  | _ => false
def CTy.flt3 : CTy → Bool
  | .f32 | .f16 | .bf16 => true
  | _ => false
def CTy.byteFlt : CTy → Bool
  | .e4m3 | .e5m2 => true
  | _ => false
def CTy.isFlt (t : CTy) : Bool := t.flt3 || t.byteFlt
/-- How many elements of the type a register holds (R96). -/
def CTy.elems : CTy → Nat
  | .i32 | .n32 | .i64 | .n64 | .f32 => 1
  | .i16 | .n16 | .f16 | .bf16 => 2
  | .i8 | .n8 | .e4m3 | .e5m2 => 4

/-- A row of R97: sources, destinations, any rounding, .sat, .ftz, and the element index of R96. -/
def Cvt.row (src dst : CTy → Bool) (any sat ftz : Bool) (f : Cvt) : Bool :=
  src f.src && dst f.dst && (any || f.rnd == .rne) && (sat || !f.sat) && (ftz || !f.ftz) && decide (f.el < f.src.elems)

/-- PACK2's source under the destination (R98): the first of the listed source types, or .bf16 for OPY[4:3] = 01. -/
def Cvt.packSrc (dst : CTy) (sel : Nat) : Option CTy :=
  match dst, sel with
  | .f16, 0 | .bf16, 0 => some .f32
  | .e4m3, 0 | .e5m2, 0 => some .f16
  | .e4m3, 1 | .e5m2, 1 => some .bf16
  | .i16, 0 => some .i32
  | .n16, 0 => some .n32
  | .i8, 0 => some .i16
  | .n8, 0 => some .n16
  | _, _ => none

def Cvt.packOk (f : Cvt) : Bool :=
  (some f.src == Cvt.packSrc f.dst 0 || some f.src == Cvt.packSrc f.dst 1) && f.el == 0 &&
    (!f.dst.isInt || (f.rnd == .rne && !f.ftz))

/-- The operations and types of R145. -/
def AOp.tyOk (op : AOp) (ty : ATy) : Bool :=
  match op with
  | .fadd | .fmin | .fmax => ty != .b64
  | _ => ty == .b32 || ty == .b64
def ATy.cas (ty : ATy) : Bool := ty == .b32 || ty == .b64

/-- The types and operations of GRED (R149). -/
def GOp.tyOk (ty : Ty) : GOp → Bool
  | .add | .min | .max => ty.isWord || ty == .f32
  | .and | .or | .xor => ty == .b32

/-- The families of R77 for MMA's types (R184). -/
def MTy.family : MTy → Nat
  | .mxf4 | .i4o => 0
  | .e4m3 | .e5m2 => 1
  | .i8 => 2
  | .f16 => 3
  | .bf16 => 4

/-- MMA's values (R184). -/
def MmaF.ok (f : MmaF) : Bool :=
  f.ta.family == f.tb.family && decide (f.shape ≤ 7) && !(f.nz && f.ta == .i8) &&
    (if f.ta.fourBit then decide (f.selA + shapeBlocks f.shape ≤ 8) && decide (f.selB + shapeBlocks f.shape ≤ 8)
     else f.sa == 0 && f.sb == 0 && f.selA == 0 && f.selB == 0)

/-- The values that each description allows; a word that breaks this raises sub-cause 5 (R41). -/
def Instr.ok5 : Instr → Bool
  | .iadd _ m _ | .isub _ m _ | .imul _ m _ | .imad _ m _ => m.int Ty.isInt true
  | .imulhi _ m _ | .imin _ m _ | .imax _ m _ | .iclamp _ m _ | .lea _ m _ => m.int Ty.isInt false
  | .iabs _ m _ | .ineg _ m _ => m.int Ty.signed true
  | .isad _ m _ => m.int (fun t => t.isInt && !t.wide) true
  | .idiv _ m _ => m.int Ty.isWord true
  | .irem _ m _ => m.int Ty.isWord false
  | .and _ ty _ | .or _ ty _ | .xor _ ty _ | .not _ ty _ | .andn _ ty _ | .logic3 _ ty _ _ | .shl _ ty _
  | .shr _ ty _ | .sar _ ty _ | .rotl _ ty _ | .rotr _ ty _ | .popc _ ty _ | .clz _ ty _ | .ctz _ ty _
  | .brev _ ty _ => ty.logic
  | .bfx _ ty _ => ty == .i32 || ty == .n32
  | .fadd _ m _ | .fsub _ m _ | .fmul _ m _ | .ffma _ m _ | .fdiv _ m _ | .fsqrt _ m _ =>
    m.flt (· == .f32) true true true
  | .fmin _ m _ | .fmax _ m _ | .fclamp _ m _ | .frcp _ m _ | .frsq _ m _ | .fexp2 _ m _ | .flog2 _ m _
  | .fsin _ m _ | .fcos _ m _ | .ftanh _ m _ => m.flt (· == .f32) false false true
  | .fabs _ m _ | .fneg _ m _ => m.flt (· == .f32) false false false
  | .fround _ m _ => m.flt (· == .f32) true false true
  | .hadd _ m _ | .hsub _ m _ | .hmul _ m _ | .hfma _ m _ | .hdot2 _ m _ => m.flt Ty.half true true true
  | .hmin _ m _ | .hmax _ m _ | .hclamp _ m _ | .hexp2 _ m _ | .hrcp _ m _ => m.flt Ty.half false false true
  | .habs _ m _ | .hneg _ m _ => m.flt Ty.half false false false
  | .cvtf _ f _ => f.row CTy.isFlt CTy.isFlt true true true
  | .cvtfi _ f _ => f.row CTy.flt3 CTy.isInt true false true
  | .cvtif _ f _ => f.row CTy.isInt CTy.flt3 true true false
  | .cvtii _ f _ => f.row CTy.isInt CTy.isInt false true false
  | .unpack _ f _ =>
    f.row (fun t => t.byteFlt || t == .f16 || t == .bf16) (fun t => t == .f32 || (f.src.byteFlt && t.flt3)) false false false
  | .pack2 _ f _ => f.packOk
  | .cvtblk _ i4o rnd _ => if i4o then rnd == .rne else rnd != .rup && rnd != .rdn
  | .icmp _ ty _ _ => ty.isInt
  | .hcmp _ ty _ _ _ _ => ty.half
  | .fclass _ ty _ => ty.half || ty == .f32
  | .atom _ op ty _ | .atoms _ op ty _ => op.tyOk ty
  | .red _ op ty _ _ => op.tyOk ty && op != .exch
  | .atomcas _ ty _ | .atomscas _ ty _ => ty.cas
  | .gred _ ty op _ => op.tyOk ty
  | .gbcast _ ty _ => ty.logic
  | .genOpen _ _ t _ _ => decide (1 ≤ t) && decide (t ≤ 32)
  | .sqpush _ _ q | .sqpop _ _ _ q => decide (q < 32)
  | .mma _ f => f.ok
  | .mmaj _ f _ => f.ok && shapeTall f.shape
  | .mrdy _ _ _ sh => decide (sh ≤ 7)
  | .mld _ f | .mst _ f => decide (f.col + f.n ≤ 64)
  | .claimNew _ _ sk dk _ fifo => sk != .fifo && (if dk == .fifo then decide (fifo ≤ 7) else fifo == 0)
  | .pairOpen _ _ _ _ slack => decide (16 ≤ slack) && decide (slack ≤ 256)
  | .clrevokeK _ _ k => decide (k < 64)
  | .cntcapStart _ n | .cntcapStop _ _ n => decide (n < 16)
  | .scall _ b => match b with | .imm32 _ => false | _ => true
  | .intctlMask _ b => match b with | .imm8 _ | .imm32 _ => true | _ => false
  | .intctlResume _ _ act => decide (act.toNat ≤ 2)
  | .wretDeny _ cause => decide (1 ≤ cause) && decide (cause ≤ 4)
  | _ => true

/-! ### Lengths and operand kinds: sub-cause 6 -/

/-- The lengths an instruction has: an opcode with source C has no 64-bit form (R30), compares have none (R100),
the direct transfers and the forms with a label are 128-bit (R89, R105, R154, R159, R260), and the chapters of
groups 0xC to 0xF give each opcode its length (R182, R255, R301, R346, R347, R349, R264 to R267). -/
def Instr.lenOk (i : Instr) (l : Len) : Bool :=
  match i with
  | .imad .. | .iclamp .. | .isad .. | .shf .. | .bfx .. | .bfi .. | .ffma .. | .fclamp .. | .hfma ..
  | .hclamp .. | .hdot2 .. | .cvtblk .. | .icmp .. | .fcmp .. | .hcmp .. | .fclass .. | .atomcas ..
  | .atomscas .. => l != .l64
  | .logic3 .. | .bra .. | .call .. | .meet .. | .meetNone .. | .genOpen .. | .loopn .. | .dqbr ..
  | .flowImm .. | .cregOpen .. | .pairOpen .. => l == .l128
  | .nop .. => l != .l128
  | .mma .. | .mmaj .. | .claimUse .. | .mcast .. => l == .l96
  | .fred .. => l != .l96
  | .trmark .. | .movps .. | .movpsW .. => l != .l96
  | .intctlMask _ (.imm32 _) => l == .l128
  | .mrdy .. | .mwait .. | .mwaitAll .. | .mld .. | .mst .. | .mclr .. | .mswap .. | .mstat .. | .ffstat ..
  | .claimNew .. | .flowReg .. | .flwait .. | .clrel .. | .clrevokePg .. | .clrevokeK .. | .hdrain ..
  | .cregClose .. | .pairClose .. | .einjPerr .. | .einjPoison .. | .einjPmis .. | .einjCerr .. | .prepair ..
  | .presume .. | .presumeFail .. | .cntcapStart .. | .cntcapStop .. | .sample .. | .launch .. | .scall ..
  | .mcall .. | .eret .. | .tlbfill .. | .tlbinvPg .. | .tlbinvAsid .. | .tlbinvAll .. | .cinvPg ..
  | .cinvAsid .. | .cinvAll .. | .ckptIvl .. | .ckptMem .. | .ckptMemrst .. | .recctlOff .. | .recctlRec ..
  | .recctlRpl .. | .intctlMask .. | .intctlWait .. | .intctlResume .. | .intctlRespg .. | .ctxsaveInst ..
  | .ctxsaveCtx .. | .ctxsaveEnd .. | .ctxload .. | .ctxloadCtx .. | .wretFill .. | .wretServ ..
  | .wretDeny .. => l == .l64
  | _ => true

/-- The opcodes that may carry ONCE (R33): groups 0x0 and 0x1, MOV, SEL and LD. -/
def Instr.onceOk (i : Instr) : Bool :=
  match i.opc with
  | some n => decide (n < 0x80) || n == 0x180 || n == 0x181 || n == 0x200
  | none => false

def BSrc.isVec : BSrc → Bool
  | .vec .. => true
  | _ => false
def BSrc.isSca : BSrc → Bool
  | .sca _ => true
  | _ => false
def BSrc.isImm32 : BSrc → Bool
  | .imm32 _ => true
  | _ => false
def BSrc.perm : BSrc → Perm
  | .vec _ p => p
  | _ => .id

/-- The register numbers of one range: below 256, below 64 where they name scalar or g registers (R30, R33, R117),
even where a pair is asked for, and in Guide code wholly inside g0 to g63. -/
def RU.ok (g once : Bool) (r : RU) : Bool :=
  (if g then decide (r.first + r.n ≤ 64) else if once then decide (r.first < 64) else decide (r.first < 256)) &&
    (!r.even || r.first % 2 == 0)

/-- Source B: the Guide has no home warp, so no scalar register (R30, R117; log entry 9). -/
def BSrc.ok6 (g once : Bool) (len : Len) (b : BSrc) (r : RU) : Bool :=
  match b with
  | .vec _ _ => !once && r.ok g false
  | .sca n => !g && decide (n < 64) && (!r.even || n % 2 == 0)
  | .imm8 _ => true
  | .imm32 _ => len == .l128

/-- The operand kinds that single rows ask for. -/
def Instr.kindOk : Instr → Bool
  | .logic3 _ _ o _ => o.b.isVec || o.b.isSca
  | .laneget _ o | .fred _ _ _ o => !o.b.isVec
  | .trap _ b => !b.isImm32
  | .ldm _ n _ o => decide (o.d + n ≤ o.a.reg) || decide (o.a.reg + 2 ≤ o.d)
  | .reggrow _ _ _ b | .regshrink _ b => !b.isVec
  | .loopn _ b _ => match b with | .vec .. | .imm8 _ => true | _ => false
  | .dqbr _ _ b _ => match b with | .sca _ => true | .imm8 v => decide (v.toNat < 32) | _ => false
  | .dqpush _ a => decide (a ≤ 62) && a % 2 == 0
  | .dqpop _ d => decide (d ≤ 60) && d % 4 == 0
  | .gmov _ _ _ b => !b.isSca
  | .claimNew _ k _ _ _ _ | .claimUse _ k | .flowReg _ k _ _ | .flowImm _ k _ _ _ _ | .flwait _ k _
  | .clrel _ k => decide (k < 64)
  | _ => true

/-- The instructions whose register fields name g registers wherever they stand (R158, R159, R161, R162): a number of 64 or
above is sub-cause 6 in any code, and the refusal outside Guide code comes after it (R41). -/
def Instr.ofGuide : Instr → Bool
  | .loopn .. | .dqpush .. | .sqpush .. | .sqpop .. | .gmov .. => true
  | _ => false

/-- Lengths, register files and operand kinds; a word that breaks this raises sub-cause 6 (R41). ONCE needs a KB that is not
00, so it is never legal on a unary instruction (R33, R84; log entry 70). -/
def Instr.ok6 (g : Bool) (i : Instr) : Bool :=
  match i.ctl with
  | none => false
  | some c =>
    let g := g || i.ofGuide
    let u := i.uses g
    i.lenOk c.len && i.kindOk && u.dst.all (RU.ok g c.once) && u.src.all (RU.ok g c.once) &&
      u.vs.all (fun x => x.2.ok g c.once && (!c.once || x.1.perm == .id)) &&
      (match u.bs with | none => !c.once | some (b, r) => b.ok6 g c.once c.len r) &&
      u.pd.all (fun p => decide (p < 48)) && u.ps.all (fun p => decide (p < 48))

/-! ### What the words can carry -/

/-- A permutation's parameter (R34). -/
def Perm.ok : Perm → Bool
  | .id => true
  | .bc p | .up p | .dn p => decide (p < 32)
  | .bfly p => decide (p ≤ 4)
  | .flip p => decide (1 ≤ p) && decide (p ≤ 5)

/-- The permutations of a 64-bit form (R34): those with the default parameter. -/
def Perm.short : Perm → Bool
  | .id => true
  | .bc p => p == 0
  | .up p | .dn p | .bfly p => p == 1
  | .flip p => p == 5

def Perm.fits (l : Len) (p : Perm) : Bool := p.ok && (l != .l64 || p.short)

def Ctl.ok (c : Ctl) : Bool := decide (c.gp < 48) && decide (c.dly < 4)

def Rnd.fits (l : Len) (r : Rnd) : Bool := l != .l64 || r == .rne

/-- Fields outside the operands: rounding needs an extension word (R31), and every number fits its field. -/
def Instr.fits (l : Len) : Instr → Bool
  | .fadd _ m _ | .fsub _ m _ | .fmul _ m _ | .ffma _ m _ | .fmin _ m _ | .fmax _ m _ | .fclamp _ m _
  | .fdiv _ m _ | .hadd _ m _ | .hsub _ m _ | .hmul _ m _ | .hfma _ m _ | .hmin _ m _ | .hmax _ m _
  | .hclamp _ m _ | .hdot2 _ m _ => m.rnd.fits l
  | .fround _ m _ | .fsqrt _ m _ | .fabs _ m _ | .fneg _ m _ | .frcp _ m _ | .frsq _ m _ | .fexp2 _ m _
  | .flog2 _ m _ | .fsin _ m _ | .fcos _ m _ | .ftanh _ m _ | .habs _ m _ | .hneg _ m _ | .hexp2 _ m _
  | .hrcp _ m _ => m.rnd.fits l
  | .cvtf _ f _ | .cvtfi _ f _ | .cvtif _ f _ | .cvtii _ f _ | .unpack _ f _ => f.rnd.fits l
  | .pack2 _ f _ => f.rnd.fits l && (l != .l64 || f.src != .bf16)
  | .perm _ o | .laneget _ o | .fred _ _ _ o => o.a.perm == .id
  | .movsr _ _ sr | .movsrW _ sr _ => decide (sr < 256)
  | .ldm _ n s _ | .stm _ n s _ => decide (1 ≤ n) && decide (n ≤ 64) && (l != .l64 || !s)
  | .ldt _ w _ => decide (w < 4)
  | .genOpen _ w _ _ _ => decide (1 ≤ w) && decide (w ≤ 4)
  | .mma _ f | .mmaj _ f _ =>
    decide (f.tile < 8) && decide (f.pri < 4) && decide (f.fa < 8) && decide (f.fb < 8) && decide (f.sa < 256) &&
      decide (f.sb < 256) && decide (f.selA < 4) && decide (f.selB < 4)
  | .mrdy _ a b _ => decide (a < 8) && decide (b < 8)
  | .mwait _ t | .mclr _ _ t | .mstat _ _ t | .ffstat _ _ t => decide (t < 8)
  | .mswap _ t u => decide (t < 8) && decide (u < 8)
  | .mld _ f | .mst _ f => decide (1 ≤ f.n) && decide (f.n ≤ 64) && decide (f.tile < 8) && decide (f.col < 256)
  | .flowImm _ _ _ so d n => decide (so < 256) && decide (d < 65536) && decide (n < 65536)
  | .mcast _ n _ _ _ => decide (1 ≤ n) && decide (n ≤ 32)
  | _ => true

/-- An instruction that some word encodes, in vector code or, for `g`, in Guide code. Its flag must be named where
its class asks for one (R36). -/
def Instr.wf (g : Bool) (i : Instr) : Bool :=
  match i.ctl with
  | none => false
  | some c =>
    c.ok && i.ok5 && i.ok6 g && i.fits c.len && (!c.once || i.onceOk) &&
      (i.uses g).vs.all (fun x => x.1.perm.fits c.len) &&
      (match (i.uses g).bs with | none => true | some (b, _) => b.perm.fits c.len) &&
      (i.cls != .v || c.fsel != .none)

end Sys2Proof
end

