-- ==== Sys2Proof/Decode.lean ====
section
/-!
DEFINITION. Instruction words: the fields of R28 and R29 (`Raw`), the decoder with the checks of order 2 to 4 of R41,
and the encoder. A decoding error is a sub-cause of R131: 3 reserved guard, 4 unallocated opcode, 5 reserved or
unallocated field value, 6 wrong length or operand kind, 7 variable-latency opcode without a flag; and 2 for a word
with LEN = 00 in an instruction's place (R26).
-/
namespace Sys2Proof

/-- The fields of the base word (R28) and of the extension words (R29). -/
structure Raw where
  len  : Len  := .l64
  gp   : Nat  := 0
  gn   : Bool := false
  once : Bool := false
  opc  : Nat  := 0
  d    : Nat  := 0
  a    : Nat  := 0
  ap   : Nat  := 0
  b    : Nat  := 0
  bp   : Nat  := 0
  kb   : Nat  := 0
  fsel : Nat  := 0
  dly  : Nat  := 0
  opx  : Nat  := 0
  c    : Nat  := 0
  cp   : Nat  := 0
  apm  : Nat  := 0
  bpm  : Nat  := 0
  cpm  : Nat  := 0
  opy  : Nat  := 0
  imm  : Nat  := 0
deriving DecidableEq, Repr, Inhabited

/-- Bits [lo + w − 1 : lo] of a number. -/
def field (x lo w : Nat) : Nat := x / 2 ^ lo % 2 ^ w

def Len.bytes : Len → Nat
  | .l64 => 8
  | .l96 => 12
  | .l128 => 16
def Len.code : Len → Nat
  | .l64 => 1
  | .l96 => 2
  | .l128 => 3
/-- LEN of R23; none is a clause header. -/
def lenOf (w : Nat) : Option Len :=
  match w % 4 with
  | 1 => some .l64
  | 2 => some .l96
  | 3 => some .l128
  | _ => none

/-- The fields of an instruction whose bytes, little-endian, are the number w. -/
def Raw.ofNat (len : Len) (w : Nat) : Raw :=
  let e := match len with | .l64 => 0 | .l96 => field w 64 32 | .l128 => field w 64 32
  { len := len, gp := field w 2 6, gn := field w 8 1 == 1, once := field w 9 1 == 1, opc := field w 10 10
    d := field w 20 8, a := field w 28 8, ap := field w 36 4, b := field w 40 8, bp := field w 48 4
    kb := field w 52 2, fsel := field w 54 2, dly := field w 56 2, opx := field w 58 6
    c := field e 0 8, cp := field e 8 4, apm := field e 12 5, bpm := field e 17 5, cpm := field e 22 5
    opy := field e 27 5, imm := match len with | .l128 => field w 96 32 | _ => 0 }

/-- The number of a word from its fields: the base word, the extension word, IMM32. -/
def Raw.base (r : Raw) : Nat :=
  r.len.code + r.gp * 2 ^ 2 + r.gn.toNat * 2 ^ 8 + r.once.toNat * 2 ^ 9 + r.opc * 2 ^ 10 + r.d * 2 ^ 20 +
    r.a * 2 ^ 28 + r.ap * 2 ^ 36 + r.b * 2 ^ 40 + r.bp * 2 ^ 48 + r.kb * 2 ^ 52 + r.fsel * 2 ^ 54 +
    r.dly * 2 ^ 56 + r.opx * 2 ^ 58
def Raw.ext (r : Raw) : Nat :=
  r.c + r.cp * 2 ^ 8 + r.apm * 2 ^ 12 + r.bpm * 2 ^ 17 + r.cpm * 2 ^ 22 + r.opy * 2 ^ 27
def Raw.toNat (r : Raw) : Nat :=
  match r.len with
  | .l64 => r.base
  | .l96 => r.base + r.ext * 2 ^ 64
  | .l128 => r.base + r.ext * 2 ^ 64 + r.imm * 2 ^ 96

/-! ### Codes -/

def fselOf : Nat → FSel
  | 1 => .a
  | 2 => .b
  | _ => .none
def FSel.code : FSel → Nat
  | .none => 0
  | .a => 1
  | .b => 2

def Perm.code : Perm → Nat
  | .id => 0
  | .bc _ => 1
  | .up _ => 2
  | .dn _ => 3
  | .bfly _ => 4
  | .flip _ => 5
def Perm.parm : Perm → Nat
  | .id => 0
  | .bc p | .up p | .dn p | .bfly p | .flip p => p

/-- The permutation of a code and its parameter; a 64-bit form takes the default of R34. -/
def permOf (len : Len) (code parm : Nat) : Option Perm :=
  let p (dflt : Nat) := if len == .l64 then dflt else parm
  let q : Option Perm := match code with
    | 0 => if parm == 0 then some .id else none
    | 1 => some (.bc (p 0))
    | 2 => some (.up (p 1))
    | 3 => some (.dn (p 1))
    | 4 => some (.bfly (p 1))
    | 5 => some (.flip (p 5))
    | _ => none
  match q with
  | some q => if q.ok then some q else none
  | none => none

/-- The type codes of R31. -/
def tyOf : Nat → Option Ty
  | 0 => some .i32 | 1 => some .n32 | 2 => some .i16 | 3 => some .n16 | 4 => some .i8 | 5 => some .n8
  | 6 => some .i64 | 7 => some .n64 | 8 => some .b32 | 9 => some .f32 | 10 => some .f16 | 11 => some .bf16
  | _ => none
def Ty.code : Ty → Nat
  | .i32 => 0 | .n32 => 1 | .i16 => 2 | .n16 => 3 | .i8 => 4 | .n8 => 5
  | .i64 => 6 | .n64 => 7 | .b32 => 8 | .f32 => 9 | .f16 => 10 | .bf16 => 11

/-- The conversion type codes of R96 without the block formats 13 and 14, which only CVTBLK names. -/
def ctyOf : Nat → Option CTy
  | 0 => some .i32 | 1 => some .n32 | 2 => some .i16 | 3 => some .n16 | 4 => some .i8 | 5 => some .n8
  | 6 => some .i64 | 7 => some .n64 | 8 => some .e4m3 | 9 => some .f32 | 10 => some .f16 | 11 => some .bf16
  | 12 => some .e5m2
  | _ => none
def CTy.code : CTy → Nat
  | .i32 => 0 | .n32 => 1 | .i16 => 2 | .n16 => 3 | .i8 => 4 | .n8 => 5
  | .i64 => 6 | .n64 => 7 | .e4m3 => 8 | .f32 => 9 | .f16 => 10 | .bf16 => 11 | .e5m2 => 12

def rndOf : Nat → Option Rnd
  | 0 => some .rne | 1 => some .rna | 2 => some .rtz | 3 => some .rup | 4 => some .rdn | 5 => some .rsd
  | _ => none
def Rnd.code : Rnd → Nat
  | .rne => 0 | .rna => 1 | .rtz => 2 | .rup => 3 | .rdn => 4 | .rsd => 5

def condOf : Nat → Option Cond
  | 0 => some .eq | 1 => some .ne | 2 => some .lt | 3 => some .le | 4 => some .gt | 5 => some .ge
  | _ => none
def Cond.code : Cond → Nat
  | .eq => 0 | .ne => 1 | .lt => 2 | .le => 3 | .gt => 4 | .ge => 5
def combOf : Nat → Option Comb
  | 0 => some .set | 1 => some .and | 2 => some .or
  | _ => none
def Comb.code : Comb → Nat
  | .set => 0 | .and => 1 | .or => 2
def halfOf : Nat → Option Half
  | 0 => some .lo | 1 => some .hi | 2 => some .all
  | _ => none
def Half.code : Half → Nat
  | .lo => 0 | .hi => 1 | .all => 2
def popOf : Nat → Option POp
  | 0 => some .and | 1 => some .or | 2 => some .xor
  | _ => none
def POp.code : POp → Nat
  | .and => 0 | .or => 1 | .xor => 2
def voteOf : Nat → Option VoteM
  | 0 => some .any | 1 => some .all | 2 => some .uni
  | _ => none
def VoteM.code : VoteM → Nat
  | .any => 0 | .all => 1 | .uni => 2
def hintOf : Nat → Option Hint
  | 0 => some .none | 1 => some .lu | 2 => some .str
  | _ => none
def Hint.code : Hint → Nat
  | .none => 0 | .lu => 1 | .str => 2
def aopOf : Nat → Option AOp
  | 0 => some .add | 1 => some .mini | 2 => some .maxi | 3 => some .minn | 4 => some .maxn | 5 => some .and
  | 6 => some .or | 7 => some .xor | 8 => some .exch | 9 => some .inc | 10 => some .dec | 11 => some .fadd
  | 12 => some .fmin | 13 => some .fmax
  | _ => none
def AOp.code : AOp → Nat
  | .add => 0 | .mini => 1 | .maxi => 2 | .minn => 3 | .maxn => 4 | .and => 5 | .or => 6 | .xor => 7
  | .exch => 8 | .inc => 9 | .dec => 10 | .fadd => 11 | .fmin => 12 | .fmax => 13
def atyOf : Nat → ATy
  | 0 => .b32 | 1 => .b64 | 2 => .f16 | _ => .bf16
def ATy.code : ATy → Nat
  | .b32 => 0 | .b64 => 1 | .f16 => 2 | .bf16 => 3
def scopeOf : Nat → Option Scope
  | 0 => some .th | 1 => some .wp | 2 => some .gr | 3 => some .co | 4 => some .cl | 5 => some .di
  | 6 => some .tn | 7 => some .pk | 8 => some .sy
  | _ => none
def Scope.code : Scope → Nat
  | .th => 0 | .wp => 1 | .gr => 2 | .co => 3 | .cl => 4 | .di => 5 | .tn => 6 | .pk => 7 | .sy => 8
/-- GRED's op codes (R149): those of .b32 and those of the numeric types. -/
def gopOf (ty : Ty) : Nat → Option GOp
  | 0 => some (if ty == .b32 then .and else .add)
  | 1 => some (if ty == .b32 then .or else .min)
  | 2 => some (if ty == .b32 then .xor else .max)
  | _ => none
def GOp.code : GOp → Nat
  | .add | .and => 0 | .min | .or => 1 | .max | .xor => 2
def mtyOf : Nat → Option MTy
  | 0 => some .e4m3 | 1 => some .e5m2 | 2 => some .mxf4 | 3 => some .i4o | 4 => some .i8 | 5 => some .f16
  | 6 => some .bf16
  | _ => none
def MTy.code : MTy → Nat
  | .e4m3 => 0 | .e5m2 => 1 | .mxf4 => 2 | .i4o => 3 | .i8 => 4 | .f16 => 5 | .bf16 => 6
def clrOf : Nat → Option ClrPart
  | 0 => some .both | 1 => some .dat | 2 => some .st
  | _ => none
def ClrPart.code : ClrPart → Nat
  | .both => 0 | .dat => 1 | .st => 2
def sideOf : Nat → Option SideK
  | 0 => some .mem | 1 => some .reg | 2 => some .spad | 3 => some .acc | 4 => some .peer | 5 => some .fifo
  | _ => none
def SideK.code : SideK → Nat
  | .mem => 0 | .reg => 1 | .spad => 2 | .acc => 3 | .peer => 4 | .fifo => 5
def fropOf : Nat → Option FrOp
  | 0 => some .add | 1 => some .max | 2 => some .min
  | _ => none
def FrOp.code : FrOp → Nat
  | .add => 0 | .max => 1 | .min => 2
def gpartOf : Nat → Option GPart
  | 0 => some .full | 1 => some .lo | 2 => some .hi
  | _ => none
def GPart.code : GPart → Nat
  | .full => 0 | .lo => 1 | .hi => 2

/-! ### Operands of a raw word -/

def Raw.ctl (r : Raw) : Ctl :=
  { len := r.len, gp := r.gp, gn := r.gn, once := r.once, fsel := fselOf r.fsel, dly := r.dly }

def Raw.srcA (r : Raw) : VSrc := ⟨r.a, (permOf r.len r.ap r.apm).getD .id⟩
def Raw.srcC (r : Raw) : VSrc := ⟨r.c, (permOf r.len r.cp r.cpm).getD .id⟩
def Raw.srcB (r : Raw) : BSrc :=
  match r.kb with
  | 0 => .vec r.b ((permOf r.len r.bp r.bpm).getD .id)
  | 1 => .sca r.b
  | 2 => .imm8 (BitVec.ofNat 8 r.b)
  | _ => .imm32 (BitVec.ofNat 32 r.imm)
def Raw.o1 (r : Raw) : O1 := ⟨r.d, r.srcA⟩
def Raw.o2 (r : Raw) : O2 := ⟨r.d, r.srcA, r.srcB⟩
def Raw.o3 (r : Raw) : O3 := ⟨r.d, r.srcA, r.srcB, r.srcC⟩

/-- A source whose permutation code or parameter is reserved (R34): sub-cause 5. -/
def Raw.bA (r : Raw) : Bool := (permOf r.len r.ap r.apm).isNone
def Raw.bC (r : Raw) : Bool := (permOf r.len r.cp r.cpm).isNone
/-- Source B's sub-cause 5: a reserved permutation, a parameter without one, B beside IMM32 (R28, R30). -/
def Raw.bB (r : Raw) : Bool :=
  match r.kb with
  | 0 => (permOf r.len r.bp r.bpm).isNone
  | 3 => r.b != 0 || r.bpm != 0
  | _ => r.bpm != 0
/-- Source B's sub-cause 6: BP with KB other than 00, IMM32 where the word has none (R30). -/
def Raw.kB (r : Raw) : Bool := (r.kb != 0 && r.bp != 0) || (r.kb == 3 && r.len != .l128)
/-- Fields that the form does not use (R28, R30). -/
def Raw.nD (r : Raw) : Bool := r.d != 0
def Raw.nAp (r : Raw) : Bool := r.ap != 0 || r.apm != 0
def Raw.nA (r : Raw) : Bool := r.a != 0 || r.nAp
def Raw.nBp (r : Raw) : Bool := r.bp != 0 || r.bpm != 0
def Raw.nB (r : Raw) : Bool := r.b != 0 || r.kb != 0 || r.nBp
def Raw.nC (r : Raw) : Bool := r.c != 0 || r.cp != 0 || r.cpm != 0
def Raw.nI (r : Raw) : Bool := r.kb != 3 && r.imm != 0
def Raw.nX (r : Raw) : Bool := r.opx != 0
def Raw.nY (r : Raw) : Bool := r.opy != 0

/-- What a row's decoding answers: whether a field value is refused with sub-cause 5, whether a length or kind is
refused with 6, and the instruction. -/
structure Dec where
  b5 : Bool
  b6 : Bool
  i  : Instr
deriving Repr

/-- The forms D, A (R84), D, A, B and D, A, B, C with their unused fields. -/
def Raw.u1 (r : Raw) (x : Bool) (i : Instr) : Dec :=
  ⟨x || r.bA || r.nC || r.nI || r.bpm != 0, r.b != 0 || r.kb != 0 || r.bp != 0, i⟩
def Raw.u2 (r : Raw) (x : Bool) (i : Instr) : Dec := ⟨x || r.bA || r.bB || r.nC || r.nI, r.kB, i⟩
def Raw.u3 (r : Raw) (x : Bool) (i : Instr) : Dec := ⟨x || r.bA || r.bB || r.bC || r.nI, r.kB, i⟩
/-- Source B alone, and no source at all. -/
def Raw.uB (r : Raw) (x : Bool) (i : Instr) : Dec := ⟨x || r.nA || r.bB || r.nC || r.nI, r.kB, i⟩
def Raw.u0 (r : Raw) (x : Bool) (i : Instr) : Dec := ⟨x || r.nA || r.nB || r.nC || r.nI, false, i⟩
/-- An immediate in B with KB 10, with sub-cause 6 or 5 for another KB. -/
def Raw.k10 (r : Raw) : Bool := r.kb != 2 || r.bp != 0

/-! ### Groups -/

/-- The shared modifiers of R31, and whether a code of theirs is reserved. -/
def Raw.mods (r : Raw) : Mods :=
  { ty := (tyOf (r.opx % 16)).getD .i32, rnd := (rndOf (r.opy % 8)).getD .rne, sat := r.opx / 16 % 2 == 1
    ftz := r.opx / 32 == 1 }
def Raw.m5 (r : Raw) : Bool :=
  (tyOf (r.opx % 16)).isNone || (rndOf (r.opy % 8)).isNone || r.opy / 8 != 0

def Raw.g0 (r : Raw) : Option Dec :=
  let c := r.ctl; let m := r.mods; let x := r.m5
  match r.opc % 64 with
  | 0x00 => some (r.u2 x (.iadd c m r.o2))
  | 0x01 => some (r.u2 x (.isub c m r.o2))
  | 0x02 => some (r.u2 x (.imul c m r.o2))
  | 0x03 => some (r.u2 x (.imulhi c m r.o2))
  | 0x04 => some (r.u3 x (.imad c m r.o3))
  | 0x05 => some (r.u2 x (.imin c m r.o2))
  | 0x06 => some (r.u2 x (.imax c m r.o2))
  | 0x07 => some (r.u3 x (.iclamp c m r.o3))
  | 0x08 => some (r.u1 x (.iabs c m r.o1))
  | 0x09 => some (r.u1 x (.ineg c m r.o1))
  | 0x0A => some (r.u3 x (.isad c m r.o3))
  | 0x0B => some (r.u2 x (.lea c m r.o2))
  | 0x0C => some (r.u2 x (.idiv c m r.o2))
  | 0x0D => some (r.u2 x (.irem c m r.o2))
  | _ => none

/-- Group 0x1's layout (R88): a type in OPX[3:0], the rest zero but .r for SHF. -/
def Raw.x1 (r : Raw) : Bool := (tyOf r.opx).isNone || r.nY
def Raw.xb32 (r : Raw) : Bool := r.opx != 8 || r.nY

def Raw.g1 (r : Raw) : Option Dec :=
  let c := r.ctl; let t := (tyOf r.opx).getD .b32; let x := r.x1
  match r.opc % 64 with
  | 0x00 => some (r.u2 x (.and c t r.o2))
  | 0x01 => some (r.u2 x (.or c t r.o2))
  | 0x02 => some (r.u2 x (.xor c t r.o2))
  | 0x03 => some (r.u1 x (.not c t r.o1))
  | 0x04 => some (r.u2 x (.andn c t r.o2))
  | 0x05 => some ⟨x || r.bA || r.bB || r.bC || decide (256 ≤ r.imm), r.kB, .logic3 c t r.o3 (BitVec.ofNat 8 r.imm)⟩
  | 0x06 => some (r.u2 x (.shl c t r.o2))
  | 0x07 => some (r.u2 x (.shr c t r.o2))
  | 0x08 => some (r.u2 x (.sar c t r.o2))
  | 0x09 => some (r.u2 x (.rotl c t r.o2))
  | 0x0A => some (r.u2 x (.rotr c t r.o2))
  | 0x0B => some (r.u3 (r.opx % 16 != 8 || r.opx / 32 != 0 || r.nY) (.shf c (r.opx / 16 % 2 == 1) r.o3))
  | 0x0C => some (r.u1 x (.popc c t r.o1))
  | 0x0D => some (r.u1 x (.clz c t r.o1))
  | 0x0E => some (r.u1 x (.ctz c t r.o1))
  | 0x0F => some (r.u1 x (.brev c t r.o1))
  | 0x10 => some (r.u3 x (.bfx c t r.o3))
  | 0x11 => some (r.u3 r.xb32 (.bfi c r.o3))
  | 0x12 => some (r.u2 r.xb32 (.bperm c r.o2))
  | _ => none

def Raw.g2 (r : Raw) : Option Dec :=
  let c := r.ctl; let m := r.mods; let x := r.m5
  match r.opc % 64 with
  | 0x00 => some (r.u2 x (.fadd c m r.o2))
  | 0x01 => some (r.u2 x (.fsub c m r.o2))
  | 0x02 => some (r.u2 x (.fmul c m r.o2))
  | 0x03 => some (r.u3 x (.ffma c m r.o3))
  | 0x04 => some (r.u2 x (.fmin c m r.o2))
  | 0x05 => some (r.u2 x (.fmax c m r.o2))
  | 0x06 => some (r.u3 x (.fclamp c m r.o3))
  | 0x07 => some (r.u1 x (.fabs c m r.o1))
  | 0x08 => some (r.u1 x (.fneg c m r.o1))
  | 0x09 => some (r.u1 x (.fround c m r.o1))
  | 0x0A => some (r.u2 x (.fdiv c m r.o2))
  | 0x0B => some (r.u1 x (.fsqrt c m r.o1))
  | 0x0C => some (r.u1 x (.frcp c m r.o1))
  | 0x0D => some (r.u1 x (.frsq c m r.o1))
  | 0x0E => some (r.u1 x (.fexp2 c m r.o1))
  | 0x0F => some (r.u1 x (.flog2 c m r.o1))
  | 0x10 => some (r.u1 x (.fsin c m r.o1))
  | 0x11 => some (r.u1 x (.fcos c m r.o1))
  | 0x12 => some (r.u1 x (.ftanh c m r.o1))
  | _ => none

def Raw.g3 (r : Raw) : Option Dec :=
  let c := r.ctl; let m := r.mods; let x := r.m5
  match r.opc % 64 with
  | 0x00 => some (r.u2 x (.hadd c m r.o2))
  | 0x01 => some (r.u2 x (.hsub c m r.o2))
  | 0x02 => some (r.u2 x (.hmul c m r.o2))
  | 0x03 => some (r.u3 x (.hfma c m r.o3))
  | 0x04 => some (r.u2 x (.hmin c m r.o2))
  | 0x05 => some (r.u2 x (.hmax c m r.o2))
  | 0x06 => some (r.u3 x (.hclamp c m r.o3))
  | 0x07 => some (r.u1 x (.habs c m r.o1))
  | 0x08 => some (r.u1 x (.hneg c m r.o1))
  | 0x09 => some (r.u3 x (.hdot2 c m r.o3))
  | 0x0A => some (r.u1 x (.hexp2 c m r.o1))
  | 0x0B => some (r.u1 x (.hrcp c m r.o1))
  | _ => none

/-- Group 0x4's fields (R96). A unary conversion holds its source type in B[43:40] and the element in B[45:44]; B[47:46] that are
not zero take sub-cause 5 as reserved bits, and KB and BP 6 as in the other unary forms (log entry 7). -/
def Raw.cvt (r : Raw) (src el : Nat) : Cvt :=
  { dst := (ctyOf (r.opx % 16)).getD .f32, src := (ctyOf src).getD .f32, el := el
    rnd := (rndOf (r.opy % 8)).getD .rne, sat := r.opx / 16 % 2 == 1, ftz := r.opx / 32 == 1 }
def Raw.uc (r : Raw) (f : Cvt → Instr) : Dec :=
  ⟨(ctyOf (r.opx % 16)).isNone || (ctyOf (r.b % 16)).isNone || (rndOf (r.opy % 8)).isNone || r.opy / 8 != 0 ||
      r.b / 64 != 0 || r.bA || r.nC || r.nI || r.bpm != 0,
    r.kb != 0 || r.bp != 0, f (r.cvt (r.b % 16) (r.b / 16 % 4))⟩
def Raw.packSrc (r : Raw) : Option CTy :=
  match ctyOf (r.opx % 16) with
  | some t => Cvt.packSrc t (r.opy / 8)
  | none => none

def Raw.g4 (r : Raw) : Option Dec :=
  let c := r.ctl
  match r.opc % 64 with
  | 0x00 => some (r.uc fun f => .cvtf c f r.o1)
  | 0x01 => some (r.uc fun f => .cvtfi c f r.o1)
  | 0x02 => some (r.uc fun f => .cvtif c f r.o1)
  | 0x03 => some (r.uc fun f => .cvtii c f r.o1)
  | 0x04 => some (r.u2 (r.packSrc.isNone || (rndOf (r.opy % 8)).isNone)
      (.pack2 c { r.cvt 9 0 with src := r.packSrc.getD .f32 } r.o2))
  | 0x05 => some (r.uc fun f => .unpack c f r.o1)
  | 0x06 => some (r.u3 ((r.opx != 13 && r.opx != 14) || (rndOf r.opy).isNone)
      (.cvtblk c (r.opx == 14) ((rndOf r.opy).getD .rne) r.o3))
  | _ => none

/-- The fields of a compare (R100). -/
def Raw.cmpF (r : Raw) : CmpF :=
  { cmb := (combOf (r.d / 64)).getD .set, pt := r.d % 64, pf := r.c % 64, a := r.srcA, b := r.srcB }
def Raw.uCmp (r : Raw) (x : Bool) (i : Instr) : Dec :=
  ⟨x || (combOf (r.d / 64)).isNone || r.cpm != 0 || r.bA || r.bB || r.nI || r.nY || r.opx / 16 % 2 != 0 ||
    (tyOf (r.opx % 16)).isNone, r.kB, i⟩

def Raw.g5 (r : Raw) : Option Dec :=
  let c := r.ctl; let t := (tyOf (r.opx % 16)).getD .i32; let cd := (condOf r.cp).getD .eq
  let xc := (condOf r.cp).isNone; let h0 := r.c / 64 != 0
  match r.opc % 64 with
  | 0x00 => some (r.uCmp (xc || h0 || r.opx / 32 != 0) (.icmp c t cd r.cmpF))
  | 0x01 => some (r.uCmp (xc || h0 || r.opx % 16 != 9) (.fcmp c (r.opx / 32 == 1) cd r.cmpF))
  | 0x02 => some (r.uCmp (xc || (halfOf (r.c / 64)).isNone)
      (.hcmp c t (r.opx / 32 == 1) cd ((halfOf (r.c / 64)).getD .lo) r.cmpF))
  | 0x03 => some ⟨r.nX || r.nY || (popOf (r.d / 64)).isNone || r.a / 128 != 0 || r.b / 128 != 0 || r.nAp || r.nBp ||
        r.nC || r.nI, r.kb != 0,
      .plogic c ((popOf (r.d / 64)).getD .and) (r.d % 64) (r.a % 64) (r.a / 64 % 2 == 1) (r.b % 64)
        (r.b / 64 % 2 == 1)⟩
  | 0x04 => some (r.uCmp (r.cp != 0 || h0 || r.opx / 32 != 0) (.fclass c t r.cmpF))
  | 0x05 => some ⟨r.nX || r.nY || r.nD || r.bA || r.nC || r.nI || r.bpm != 0 || decide (2 ≤ r.b), r.k10,
      .psetv c r.srcA (r.b == 1)⟩
  | 0x06 => some ⟨r.nX || r.nY || r.nA || r.nC || r.nI || r.bpm != 0 || decide (2 ≤ r.b), r.k10,
      .pgetv c r.d (r.b == 1)⟩
  | _ => none

def Raw.g6 (r : Raw) : Option Dec :=
  let c := r.ctl; let y := r.nY; let xy := r.nX || r.nY
  match r.opc % 64 with
  | 0x00 => some (r.uB xy (.mov c r.d r.srcB))
  | 0x01 => some (r.u2 y (.sel c r.o2 r.opx))
  | 0x02 =>
    if r.opx == 1 then some ⟨y || r.nD || r.nAp || r.bB || r.nC || r.nI, r.kB, .movsrW c r.a r.srcB⟩
    else some ⟨xy || r.nAp || r.nB || r.nC || r.nI, false, .movsr c r.d r.a⟩
  | 0x03 => some (r.u2 (xy || r.nAp) (.perm c r.o2))
  | 0x04 => some (r.u0 y (.ballot c r.d r.opx))
  | 0x05 => some ⟨y || (voteOf r.opx).isNone || r.d / 64 != 0 || r.a / 64 != 0 || r.nAp || r.nB || r.nC || r.nI, false,
      .vote c ((voteOf r.opx).getD .any) r.d r.a⟩
  | 0x06 => some (r.u2 (xy || r.nAp) (.laneget c r.o2))
  | _ => none

/-- The direct transfers (R105): KB and B zero, IMM32 the target. -/
def Raw.uT (r : Raw) (x : Bool) (i : Instr) : Dec := ⟨x || r.nX || r.nY || r.nA || r.nB || r.nC, false, i⟩

def Raw.g7 (r : Raw) : Option Dec :=
  let c := r.ctl; let off := BitVec.ofNat 32 r.imm; let xy := r.nX || r.nY
  match r.opc % 64 with
  | 0x00 => some (r.u0 (xy || r.nD) (.nop c))
  | 0x01 => some (r.uT r.nD (.bra c off))
  | 0x02 => some (r.u1 (xy || r.nD) (.jmp c r.srcA))
  | 0x03 => some (r.uT false (.call c r.d off))
  | 0x04 => some (r.u1 xy (.calli c r.o1))
  | 0x05 => some (r.u1 (xy || r.nD) (.ret c r.srcA))
  | 0x06 => some (r.u0 (xy || r.nD) (.exit c))
  | 0x07 =>
    if r.opx == 1 then some (r.u0 (r.nY || r.nD) (.meetNone c)) else some (r.uT r.nD (.meet c off))
  | 0x08 => some (r.uB (xy || r.nD) (.trap c r.srcB))
  | _ => none

def Raw.g8 (r : Raw) : Option Dec :=
  let c := r.ctl; let t := (tyOf (r.opx % 16)).getD .i32; let y := r.nY; let xy := r.nX || r.nY
  let xt := (tyOf (r.opx % 16)).isNone; let xh := (hintOf (r.opx / 16)).isNone
  let h := (hintOf (r.opx / 16)).getD .none
  match r.opc % 64 with
  | 0x00 => some (r.u2 (y || xt || xh) (.ld c t h r.o2))
  | 0x01 => some (r.u2 (y || xt || xh) (.st c t h r.o2))
  | 0x02 => some (r.u2 (decide (2 ≤ r.opy)) (.ldm c (r.opx + 1) (r.opy == 1) r.o2))
  | 0x03 => some (r.u2 (decide (2 ≤ r.opy)) (.stm c (r.opx + 1) (r.opy == 1) r.o2))
  | 0x04 => some (r.u2 (y || (tyOf r.opx).isNone) (.lds c t r.o2))
  | 0x05 => some (r.u2 (y || (tyOf r.opx).isNone) (.sts c t r.o2))
  | 0x06 => some (r.u2 (y || decide (4 ≤ r.opx)) (.ldt c r.opx r.o2))
  | 0x07 => some (r.u2 (xy || r.d / 64 != 0) (.spres c r.o2))
  | 0x08 => some (r.u2 (y || xh || r.opx % 16 != 0 || r.nD) (.pref c h r.srcA r.srcB))
  | 0x09 => some (r.u0 (xy || r.nD) (.drainst c))
  | 0x0A => some (r.u0 y (.sfqpop c r.opx r.d))
  | _ => none

def Raw.g9 (r : Raw) : Option Dec :=
  let c := r.ctl; let y := r.nY; let op := (aopOf (r.opx / 4)).getD .add; let t := atyOf (r.opx % 4)
  let xo := (aopOf (r.opx / 4)).isNone; let s := (scopeOf r.opx).getD .th
  let xs := (scopeOf r.opx).isNone || r.nD || r.nY
  match r.opc % 64 with
  | 0x00 => some (r.u2 (y || xo) (.atom c op t r.o2))
  | 0x01 => some (r.u3 (y || r.opx / 4 != 0) (.atomcas c t r.o3))
  | 0x02 => some (r.u2 (y || xo) (.atoms c op t r.o2))
  | 0x03 => some (r.u3 (y || r.opx / 4 != 0) (.atomscas c t r.o3))
  | 0x04 => some (r.u2 (y || xo || r.nD) (.red c op t r.srcA r.srcB))
  | 0x05 => some (r.u0 xs (.fence c s))
  | 0x06 => some (r.u0 xs (.rel c s))
  | 0x07 => some (r.u0 xs (.acq c s))
  | _ => none

/-- GEN's forms (R154). -/
def Raw.gGen (r : Raw) : Dec :=
  let c := r.ctl
  match r.opx % 8 with
  | 0 => ⟨r.nY || r.opx / 32 != 0 || r.nA || r.nB || r.nC, false,
      .genOpen c (r.opx / 8 % 4 + 1) r.d (BitVec.ofNat 16 r.imm) (BitVec.ofNat 16 (r.imm / 2 ^ 16))⟩
  | 1 => r.u0 (r.nY || r.opx != 1 || r.nD) (.genPoint c)
  | 2 => r.u0 (r.nY || r.opx != 2) (.genTake c r.d)
  | 3 => r.u0 (r.nY || r.opx != 3 || r.nD) (.genNext c)
  | 4 => r.u0 (r.nY || r.opx != 4 || r.nD) (.genPend c)
  | _ => ⟨true, false, .genPoint c⟩

def Raw.gA (r : Raw) : Option Dec :=
  let c := r.ctl; let y := r.nY; let xy := r.nX || r.nY; let d6 := r.d / 64 != 0
  let t := (tyOf (r.opx % 16)).getD .i32
  match r.opc % 64 with
  | 0x00 => some (r.uB (xy || d6) (.join c r.d r.srcB))
  | 0x01 => some (r.uB (xy || d6) (.leave c r.d r.srcB))
  | 0x02 => some (r.uB (xy || d6) (.bar c r.d r.srcB))
  | 0x03 =>
    if r.opx == 1 then some (r.uB (y || r.nD) (.electRel c r.srcB)) else some (r.uB (xy || d6) (.elect c r.d r.srcB))
  | 0x04 => some (r.uB (xy || r.nD) (.gkill c r.srcB))
  | 0x05 => some (r.u2 (y || (tyOf (r.opx % 16)).isNone || (gopOf t (r.opx / 16)).isNone)
      (.gred c t ((gopOf t (r.opx / 16)).getD .add) r.o2))
  | 0x06 => some (r.u2 (y || (tyOf r.opx).isNone) (.gbcast c t r.o2))
  | 0x07 => some r.gGen
  | 0x08 => some ⟨xy || r.nD || r.nAp || r.nB || r.nC || r.nI, false, .yield c r.a⟩
  | 0x09 => some (r.uB (y || decide (2 ≤ r.opx) || d6) (.reggrow c (r.opx == 1) r.d r.srcB))
  | 0x0A => some (r.uB (xy || r.nD) (.regshrink c r.srcB))
  | _ => none

def Raw.gB (r : Raw) : Option Dec :=
  let c := r.ctl; let y := r.nY; let xy := r.nX || r.nY; let off := BitVec.ofNat 32 r.imm
  match r.opc % 64 with
  | 0x00 => some ⟨xy || r.nD || r.nA || r.bB || r.nC, r.kB, .loopn c r.srcB off⟩
  | 0x01 => some (r.u0 (xy || r.nD) (.loopend c))
  | 0x02 => some ⟨xy || r.nD || r.nAp || r.nB || r.nC || r.nI, false, .dqpush c r.a⟩
  | 0x03 => some (r.u0 xy (.dqpop c r.d))
  | 0x04 => some (r.u0 (xy || r.nD) (.dqdone c))
  | 0x05 => some ⟨y || decide (2 ≤ r.opx) || r.nD || r.nA || r.bB || r.nC, r.kB, .dqbr c (r.opx == 1) r.srcB off⟩
  | 0x06 => some ⟨xy || r.nD || r.nAp || r.nC || r.nI || r.bpm != 0, r.k10, .sqpush c r.a r.b⟩
  | 0x07 => some ⟨y || r.nA || r.nC || r.nI || r.bpm != 0, r.k10, .sqpop c r.opx r.d r.b⟩
  | 0x08 => some (r.uB (y || (gpartOf r.opx).isNone) (.gmov c ((gpartOf r.opx).getD .full) r.d r.srcB))
  | _ => none

/-- The fields of MMA and MMAJ (R182). -/
def Raw.mmaF (r : Raw) : MmaF :=
  { tile := r.d, ta := (mtyOf (r.opx % 8)).getD .i8, tb := (mtyOf (r.opx / 8)).getD .i8, nz := r.cp % 2 == 1
    pri := r.c / 64, fa := r.c % 8, fb := r.c / 8 % 8, shape := r.opy, sa := r.a, selA := r.apm, sb := r.b
    selB := r.bpm }
def Raw.uM (r : Raw) (x : Bool) (i : Instr) : Dec :=
  ⟨x || (mtyOf (r.opx % 8)).isNone || (mtyOf (r.opx / 8)).isNone || decide (8 ≤ r.d) || r.kb != 0 || r.ap != 0 ||
    r.bp != 0 || decide (4 ≤ r.apm) || decide (4 ≤ r.bpm) || r.cpm != 0 || r.nI, false, i⟩
def Raw.mtile (r : Raw) : MTile := { d := r.d, n := r.opx + 1, tile := r.a % 8, hi := r.a / 8 % 2 == 1, col := r.b }
def Raw.uMt (r : Raw) (i : Instr) : Dec :=
  ⟨r.nY || decide (16 ≤ r.a) || r.nAp || r.kb != 2 || r.nBp || r.nC || r.nI, false, i⟩

def Raw.gC (r : Raw) : Option Dec :=
  let c := r.ctl; let y := r.nY; let xy := r.nX || r.nY; let d8 := decide (8 ≤ r.d); let a8 := decide (8 ≤ r.a)
  match r.opc % 64 with
  | 0x00 => some (r.uM (decide (2 ≤ r.cp)) (.mma c r.mmaF))
  | 0x01 => some (r.uM (decide (4 ≤ r.cp)) (.mmaj c r.mmaF (r.cp / 2 == 1)))
  | 0x02 => some (r.u0 (y || decide (64 ≤ r.d)) (.mrdy c (r.d % 8) (r.d / 8) r.opx))
  | 0x03 =>
    if r.opx == 1 then some (r.u0 (y || r.nD) (.mwaitAll c)) else some (r.u0 (xy || d8) (.mwait c r.d))
  | 0x04 => some (r.uMt (.mld c r.mtile))
  | 0x05 => some (r.uMt (.mst c r.mtile))
  | 0x06 => some (r.u0 (y || (clrOf r.opx).isNone || d8) (.mclr c ((clrOf r.opx).getD .both) r.d))
  | 0x07 => some ⟨xy || d8 || a8 || r.nAp || r.nB || r.nC || r.nI, false, .mswap c r.d r.a⟩
  | 0x08 => some ⟨xy || a8 || r.nAp || r.nB || r.nC || r.nI, false, .mstat c r.d r.a⟩
  | 0x09 => some ⟨xy || a8 || r.nAp || r.nB || r.nC || r.nI, false, .ffstat c r.d r.a⟩
  | _ => none

def Raw.gD (r : Raw) : Option Dec :=
  let c := r.ctl; let y := r.nY; let xy := r.nX || r.nY; let s := (scopeOf (r.opx % 16)).getD .th
  let xs := (scopeOf (r.opx % 16)).isNone || r.nY
  match r.opc % 64 with
  | 0x00 =>
    if r.len == .l96 then some (r.u0 (r.nX || r.opy != 1) (.claimUse c r.d))
    else
      let dk := sideOf (r.opx / 8)
      some ⟨y || (sideOf (r.opx % 8)).isNone || dk.isNone || r.nAp || r.nBp || r.nC || r.nI ||
          r.kb != (if dk == some .fifo then 2 else 0), false,
        .claimNew c r.d ((sideOf (r.opx % 8)).getD .mem) (dk.getD .mem) r.a r.b⟩
  | 0x01 =>
    if r.opx / 16 == 1 then
      some ⟨xs || r.nAp || r.b != 0 || r.kb != 3 || r.nBp || r.nC, false,
        .flowImm c r.d s r.a (r.imm / 2 ^ 16) (r.imm % 2 ^ 16)⟩
    else some ⟨xs || r.opx / 16 != 0 || r.nAp || r.nB || r.nC || r.nI, false, .flowReg c r.d s r.a⟩
  | 0x02 => some (r.u0 (xs || r.opx / 16 != 0) (.flwait c r.d s))
  | 0x03 => some (r.u0 xy (.clrel c r.d))
  | 0x04 =>
    if r.opx == 1 then
      some ⟨y || r.nD || r.bA || r.kb != 2 || r.nBp || r.nC || r.nI, false, .clrevokeK c r.srcA r.b⟩
    else some (r.u2 (xy || r.nD) (.clrevokePg c r.srcA r.srcB))
  | 0x05 => some (r.u0 (xy || r.nD) (.hdrain c))
  | 0x06 => some ⟨y || decide (32 ≤ r.opx) || r.nAp || r.nB || r.cp != 0 || r.cpm != 0 || r.nI, false,
      .mcast c (r.opx + 1) r.d r.a r.c⟩
  | 0x07 => some (r.u2 (y || (fropOf (r.opx % 4)).isNone || decide (8 ≤ r.opx) || r.nAp)
      (.fred c (r.opx / 4 == 1) ((fropOf (r.opx % 4)).getD .add) r.o2))
  | _ => none

/-- CREG.OPEN and PAIR.OPEN (R260): a predicate in D, the record registers in A, IMM32 the handler. -/
def Raw.uR (r : Raw) (x : Bool) (i : Instr) : Dec :=
  ⟨x || r.nY || r.d / 64 != 0 || r.nAp || r.nB || r.nC, false, i⟩

def Raw.gE (r : Raw) : Option Dec :=
  let c := r.ctl; let y := r.nY; let xy := r.nX || r.nY
  match r.opc % 64 with
  | 0x00 =>
    if r.opx % 2 == 1 then some (r.u0 (r.opx != 1 || y || r.nD) (.cregClose c))
    else some (r.uR (decide (4 ≤ r.opx)) (.cregOpen c (r.opx / 2 == 1) r.d r.a (BitVec.ofNat 32 r.imm)))
  | 0x01 =>
    if r.opx % 2 == 1 then some (r.u0 (r.opx != 1 || y || r.nD) (.pairClose c))
    else some (r.uR (r.nX || decide (2 ^ 25 ≤ r.imm))
      (.pairOpen c r.d r.a (BitVec.ofNat 16 r.imm) (r.imm / 2 ^ 16 % 512)))
  | 0x02 =>
    match r.opx with
    | 0 => some (r.u0 (y || r.nD) (.einjPerr c))
    | 1 => some (r.u0 (y || r.nD) (.einjPoison c))
    | 2 => some (r.uB (y || r.nD) (.einjPmis c r.srcB))
    | 3 => some (r.u0 (y || r.nD) (.einjCerr c))
    | _ => some ⟨true, false, .einjPerr c⟩
  | 0x03 => some ⟨xy || r.bA || r.nB || r.nC || r.nI, false, .prepair c r.d r.srcA⟩
  | 0x04 => some ⟨y || decide (2 ≤ r.opx) || r.nD || r.bA || r.nB || r.nC || r.nI, false,
      if r.opx == 1 then .presumeFail c r.srcA else .presume c r.srcA⟩
  | 0x05 => some (r.uB (xy || r.nD) (.trmark c r.srcB))
  | 0x06 => some ⟨y || decide (2 ≤ r.opx) || (r.opx == 0 && r.nD) || r.nA || r.kb != 2 || r.nBp || r.nC || r.nI, false,
      if r.opx == 1 then .cntcapStop c r.d r.b else .cntcapStart c r.b⟩
  | 0x07 => some (r.uB (xy || r.nD) (.sample c r.srcB))
  | _ => none

/-- TLBINV and CINV (R301): the page form has both operands, .asid has B alone, .all none. -/
def Raw.uInv (r : Raw) (pg asid all : Instr) : Dec :=
  match r.opx with
  | 0 => r.u2 (r.nY || r.nD) pg
  | 1 => r.uB (r.nY || r.nD) asid
  | 2 => r.u0 (r.nY || r.nD) all
  | _ => ⟨true, false, all⟩

def Raw.gF (r : Raw) : Option Dec :=
  let c := r.ctl; let y := r.nY; let xy := r.nX || r.nY
  match r.opc % 64 with
  | 0x00 => some ⟨xy || r.bA || r.nB || r.nC || r.nI, false, .launch c r.o1⟩
  | 0x01 => some (r.uB (xy || r.nD) (.scall c r.srcB))
  | 0x02 => some ⟨xy || r.nD || r.nA || r.kb != 2 || r.nBp || r.nC || r.nI, false, .mcall c (BitVec.ofNat 8 r.b)⟩
  | 0x03 => some (r.u0 (xy || r.nD) (.eret c))
  | 0x04 => some ⟨xy || r.d / 64 != 0 || r.bA || r.kb != 2 || r.nBp || decide (2 ≤ r.b) || r.nC || r.nI, false,
      .tlbfill c r.d r.srcA (r.b == 1)⟩
  | 0x05 => some (r.uInv (.tlbinvPg c r.srcA r.srcB) (.tlbinvAsid c r.srcB) (.tlbinvAll c))
  | 0x06 => some (r.uInv (.cinvPg c r.srcA r.srcB) (.cinvAsid c r.srcB) (.cinvAll c))
  | 0x07 =>
    match r.opx with
    | 0 => some (r.uB y (.ckptIvl c r.d r.srcB))
    | 1 => some (r.u0 y (.ckptMem c r.d))
    | 2 => some (r.u0 y (.ckptMemrst c r.d))
    | _ => some ⟨true, false, .ckptMem c r.d⟩
  | 0x08 =>
    match r.opx with
    | 0 => some (r.uB y (.recctlOff c r.d r.srcB))
    | 1 => some (r.uB y (.recctlRec c r.d r.srcB))
    | 2 => some (r.uB y (.recctlRpl c r.d r.srcB))
    | _ => some ⟨true, false, .recctlOff c r.d r.srcB⟩
  | 0x09 =>
    if r.opx == 1 then some (r.u2 (y || r.nD) (.movpsW c r.srcA r.srcB)) else some (r.uB xy (.movps c r.d r.srcB))
  | 0x0A =>
    match r.opx with
    | 0 => some (r.uB (y || r.nD) (.intctlMask c r.srcB))
    | 1 => some (r.u0 (y || r.nD) (.intctlWait c))
    | 2 => some ⟨y || r.nD || r.bA || r.kb != 2 || r.nBp || r.nC || r.nI, false,
        .intctlResume c r.srcA (BitVec.ofNat 8 r.b)⟩
    | 3 => some (r.u2 (y || r.nD) (.intctlRespg c r.srcA r.srcB))
    | _ => some ⟨true, false, .intctlWait c⟩
  | 0x0B =>
    match r.opx with
    | 0 => some (r.u2 y (.ctxsaveInst c r.o2))
    | 1 => some (r.u2 y (.ctxsaveCtx c r.o2))
    | 2 => some (r.u2 y (.ctxsaveEnd c r.o2))
    | _ => some ⟨true, false, .ctxsaveEnd c r.o2⟩
  | 0x0C =>
    match r.opx with
    | 0 => some (r.u2 y (.ctxload c r.o2))
    | 1 => some (r.u2 y (.ctxloadCtx c r.o2))
    | _ => some ⟨true, false, .ctxload c r.o2⟩
  | 0x0D =>
    match r.opx with
    | 0 => some (r.u0 (y || r.nD) (.wretFill c))
    | 1 => some (r.u0 (y || r.nD) (.wretServ c))
    | 2 => some ⟨y || r.nD || r.nA || r.kb != 2 || r.nBp || r.nC || r.nI, false, .wretDeny c r.b⟩
    | _ => some ⟨true, false, .wretFill c⟩
  | _ => none

/-- The opcode map (R42): a group's rows; none is an unallocated opcode (R43). -/
def Raw.row (r : Raw) : Option Dec :=
  match r.opc / 64 with
  | 0x0 => r.g0
  | 0x1 => r.g1
  | 0x2 => r.g2
  | 0x3 => r.g3
  | 0x4 => r.g4
  | 0x5 => r.g5
  | 0x6 => r.g6
  | 0x7 => r.g7
  | 0x8 => r.g8
  | 0x9 => r.g9
  | 0xA => r.gA
  | 0xB => r.gB
  | 0xC => r.gC
  | 0xD => r.gD
  | 0xE => r.gE
  | 0xF => r.gF
  | _ => none

/-- What decoding needs of its surroundings: whether the clause header has SETA and SETB valid (R36), and whether
the code is the Guide's (R117). -/
structure DecCtx where
  sav   : Bool
  sbv   : Bool
  guide : Bool
deriving DecidableEq, Repr, Inhabited

/-- FSEL against the header (R36). -/
def fselBad (x : DecCtx) (fsel : Nat) : Bool :=
  match fsel with
  | 0 => false
  | 1 => !x.sav
  | 2 => !x.sbv
  | _ => true

/-- The checks of order 2, 3 and 4 of R41, in order; within one order the lowest sub-cause. -/
def Raw.decode (x : DecCtx) (r : Raw) : Except Nat Instr :=
  if 48 ≤ r.gp then .error 3
  else match r.row with
    | none => .error 4
    | some d =>
      if d.b5 || !d.i.ok5 || fselBad x r.fsel || (r.once && !d.i.onceOk) then .error 5
      else if d.b6 || !d.i.ok6 x.guide then .error 6
      else if d.i.cls == .v && r.fsel == 0 then .error 7
      else .ok d.i

/-- Decoding of the number whose little-endian bytes stand in an instruction's place. -/
def decodeNat (x : DecCtx) (w : Nat) : Except Nat Instr :=
  match lenOf w with
  | none => .error 2
  | some len => (Raw.ofNat len w).decode x

/-- Little-endian bytes as a number (R2). -/
def leNat : List Byte → Nat
  | [] => 0
  | b :: bs => b.toNat + 256 * leNat bs

/-- The first n bytes of a number, little-endian. -/
def leBytes : Nat → Nat → List Byte
  | 0, _ => []
  | n + 1, w => BitVec.ofNat 8 w :: leBytes n (w / 256)

/-- Decoding of bytes as they lie in memory: the instruction and the bytes after it. Bytes that end inside the
instruction are refused as a clause that is not well formed. -/
def decodeBytes (x : DecCtx) (bs : List Byte) : Except Nat (Instr × List Byte) :=
  match lenOf (leNat (bs.take 1)) with
  | none => .error 2
  | some len =>
    if bs.length < len.bytes then .error 2
    else match decodeNat x (leNat (bs.take len.bytes)) with
      | .error e => .error e
      | .ok i => .ok (i, bs.drop len.bytes)

/-- The decoder's answer for a word numbered as the opcode table numbers it, in a clause with both flags valid. -/
def decodeTableWord (nbits w : Nat) : Option Instr :=
  match decodeBytes ⟨true, true, false⟩ (leBytes 16 (w % 2 ^ nbits)) with
  | .ok (i, _) => some i
  | .error _ => none

/-! ### The encoder -/

def Ctl.raw (c : Ctl) (opc : Nat) : Raw :=
  { len := c.len, gp := c.gp, gn := c.gn, once := c.once, fsel := c.fsel.code, dly := c.dly, opc := opc }

/-- A permutation's parameter field: a 64-bit form has none. -/
def Perm.field (l : Len) (p : Perm) : Nat := if l == .l64 then 0 else p.parm

def Raw.putA (s : VSrc) (r : Raw) : Raw :=
  { r with a := s.reg, ap := s.perm.code, apm := s.perm.field r.len }
def Raw.putC (s : VSrc) (r : Raw) : Raw :=
  { r with c := s.reg, cp := s.perm.code, cpm := s.perm.field r.len }
def Raw.putB (s : BSrc) (r : Raw) : Raw :=
  match s with
  | .vec n p => { r with b := n, bp := p.code, bpm := p.field r.len }
  | .sca n => { r with b := n, kb := 1 }
  | .imm8 v => { r with b := v.toNat, kb := 2 }
  | .imm32 v => { r with kb := 3, imm := v.toNat }
def Raw.putD (d : Nat) (r : Raw) : Raw := { r with d := d }
def Raw.putX (x : Nat) (r : Raw) : Raw := { r with opx := x }
def Raw.putY (y : Nat) (r : Raw) : Raw := { r with opy := y }
def Raw.putI (i : Nat) (r : Raw) : Raw := { r with imm := i }
/-- A number in B under KB 10. -/
def Raw.putK (n : Nat) (r : Raw) : Raw := { r with b := n, kb := 2 }

def Ctl.e1 (c : Ctl) (opc x y : Nat) (o : O1) : Raw := (((c.raw opc).putD o.d).putX x).putY y |>.putA o.a
def Ctl.e2 (c : Ctl) (opc x y : Nat) (o : O2) : Raw :=
  ((((c.raw opc).putD o.d).putX x).putY y |>.putA o.a).putB o.b
def Ctl.e3 (c : Ctl) (opc x y : Nat) (o : O3) : Raw :=
  (((((c.raw opc).putD o.d).putX x).putY y |>.putA o.a).putB o.b).putC o.c
def Ctl.eB (c : Ctl) (opc x d : Nat) (b : BSrc) : Raw := (((c.raw opc).putD d).putX x).putB b
def Ctl.e0 (c : Ctl) (opc x d : Nat) : Raw := ((c.raw opc).putD d).putX x

/-- OPX of the shared modifiers (R31). -/
def Mods.x (m : Mods) : Nat := m.ty.code + m.sat.toNat * 16 + m.ftz.toNat * 32
def Cvt.x (f : Cvt) : Nat := f.dst.code + f.sat.toNat * 16 + f.ftz.toNat * 32
def Ctl.eCvt (c : Ctl) (opc : Nat) (f : Cvt) (o : O1) : Raw :=
  { c.e1 opc f.x f.rnd.code o with b := f.src.code + f.el * 16 }
def Ctl.eCmp (c : Ctl) (opc x cp half : Nat) (f : CmpF) : Raw :=
  { ((c.e0 opc x (f.cmb.code * 64 + f.pt)).putA f.a).putB f.b with c := half * 64 + f.pf, cp := cp }
def Ctl.eMma (c : Ctl) (opc : Nat) (f : MmaF) (cp : Nat) : Raw :=
  { (c.e0 opc (f.ta.code + f.tb.code * 8) f.tile).putY f.shape with
    a := f.sa, apm := f.selA, b := f.sb, bpm := f.selB, c := f.fa + f.fb * 8 + f.pri * 64, cp := cp }
def Ctl.eMt (c : Ctl) (opc : Nat) (f : MTile) : Raw :=
  { (c.e0 opc (f.n - 1) f.d).putK f.col with a := f.tile + f.hi.toNat * 8 }

/-- The fields of an instruction's words; none for the steps that no word encodes. -/
def Instr.raw : Instr → Option Raw
  | .iadd c m o => some (c.e2 0x000 m.x m.rnd.code o)
  | .isub c m o => some (c.e2 0x001 m.x m.rnd.code o)
  | .imul c m o => some (c.e2 0x002 m.x m.rnd.code o)
  | .imulhi c m o => some (c.e2 0x003 m.x m.rnd.code o)
  | .imad c m o => some (c.e3 0x004 m.x m.rnd.code o)
  | .imin c m o => some (c.e2 0x005 m.x m.rnd.code o)
  | .imax c m o => some (c.e2 0x006 m.x m.rnd.code o)
  | .iclamp c m o => some (c.e3 0x007 m.x m.rnd.code o)
  | .iabs c m o => some (c.e1 0x008 m.x m.rnd.code o)
  | .ineg c m o => some (c.e1 0x009 m.x m.rnd.code o)
  | .isad c m o => some (c.e3 0x00A m.x m.rnd.code o)
  | .lea c m o => some (c.e2 0x00B m.x m.rnd.code o)
  | .idiv c m o => some (c.e2 0x00C m.x m.rnd.code o)
  | .irem c m o => some (c.e2 0x00D m.x m.rnd.code o)
  | .and c t o => some (c.e2 0x040 t.code 0 o)
  | .or c t o => some (c.e2 0x041 t.code 0 o)
  | .xor c t o => some (c.e2 0x042 t.code 0 o)
  | .not c t o => some (c.e1 0x043 t.code 0 o)
  | .andn c t o => some (c.e2 0x044 t.code 0 o)
  | .logic3 c t o tbl => some ((c.e3 0x045 t.code 0 o).putI tbl.toNat)
  | .shl c t o => some (c.e2 0x046 t.code 0 o)
  | .shr c t o => some (c.e2 0x047 t.code 0 o)
  | .sar c t o => some (c.e2 0x048 t.code 0 o)
  | .rotl c t o => some (c.e2 0x049 t.code 0 o)
  | .rotr c t o => some (c.e2 0x04A t.code 0 o)
  | .shf c r o => some (c.e3 0x04B (8 + r.toNat * 16) 0 o)
  | .popc c t o => some (c.e1 0x04C t.code 0 o)
  | .clz c t o => some (c.e1 0x04D t.code 0 o)
  | .ctz c t o => some (c.e1 0x04E t.code 0 o)
  | .brev c t o => some (c.e1 0x04F t.code 0 o)
  | .bfx c t o => some (c.e3 0x050 t.code 0 o)
  | .bfi c o => some (c.e3 0x051 8 0 o)
  | .bperm c o => some (c.e2 0x052 8 0 o)
  | .fadd c m o => some (c.e2 0x080 m.x m.rnd.code o)
  | .fsub c m o => some (c.e2 0x081 m.x m.rnd.code o)
  | .fmul c m o => some (c.e2 0x082 m.x m.rnd.code o)
  | .ffma c m o => some (c.e3 0x083 m.x m.rnd.code o)
  | .fmin c m o => some (c.e2 0x084 m.x m.rnd.code o)
  | .fmax c m o => some (c.e2 0x085 m.x m.rnd.code o)
  | .fclamp c m o => some (c.e3 0x086 m.x m.rnd.code o)
  | .fabs c m o => some (c.e1 0x087 m.x m.rnd.code o)
  | .fneg c m o => some (c.e1 0x088 m.x m.rnd.code o)
  | .fround c m o => some (c.e1 0x089 m.x m.rnd.code o)
  | .fdiv c m o => some (c.e2 0x08A m.x m.rnd.code o)
  | .fsqrt c m o => some (c.e1 0x08B m.x m.rnd.code o)
  | .frcp c m o => some (c.e1 0x08C m.x m.rnd.code o)
  | .frsq c m o => some (c.e1 0x08D m.x m.rnd.code o)
  | .fexp2 c m o => some (c.e1 0x08E m.x m.rnd.code o)
  | .flog2 c m o => some (c.e1 0x08F m.x m.rnd.code o)
  | .fsin c m o => some (c.e1 0x090 m.x m.rnd.code o)
  | .fcos c m o => some (c.e1 0x091 m.x m.rnd.code o)
  | .ftanh c m o => some (c.e1 0x092 m.x m.rnd.code o)
  | .hadd c m o => some (c.e2 0x0C0 m.x m.rnd.code o)
  | .hsub c m o => some (c.e2 0x0C1 m.x m.rnd.code o)
  | .hmul c m o => some (c.e2 0x0C2 m.x m.rnd.code o)
  | .hfma c m o => some (c.e3 0x0C3 m.x m.rnd.code o)
  | .hmin c m o => some (c.e2 0x0C4 m.x m.rnd.code o)
  | .hmax c m o => some (c.e2 0x0C5 m.x m.rnd.code o)
  | .hclamp c m o => some (c.e3 0x0C6 m.x m.rnd.code o)
  | .habs c m o => some (c.e1 0x0C7 m.x m.rnd.code o)
  | .hneg c m o => some (c.e1 0x0C8 m.x m.rnd.code o)
  | .hdot2 c m o => some (c.e3 0x0C9 m.x m.rnd.code o)
  | .hexp2 c m o => some (c.e1 0x0CA m.x m.rnd.code o)
  | .hrcp c m o => some (c.e1 0x0CB m.x m.rnd.code o)
  | .cvtf c f o => some (c.eCvt 0x100 f o)
  | .cvtfi c f o => some (c.eCvt 0x101 f o)
  | .cvtif c f o => some (c.eCvt 0x102 f o)
  | .cvtii c f o => some (c.eCvt 0x103 f o)
  | .pack2 c f o => some (c.e2 0x104 f.x (f.rnd.code + (f.src == .bf16).toNat * 8) o)
  | .unpack c f o => some (c.eCvt 0x105 f o)
  | .cvtblk c i4o rnd o => some (c.e3 0x106 (if i4o then 14 else 13) rnd.code o)
  | .icmp c t cd f => some (c.eCmp 0x140 t.code cd.code 0 f)
  | .fcmp c z cd f => some (c.eCmp 0x141 (9 + z.toNat * 32) cd.code 0 f)
  | .hcmp c t z cd h f => some (c.eCmp 0x142 (t.code + z.toNat * 32) cd.code h.code f)
  | .plogic c op pd pa na pb nb =>
    some { c.e0 0x143 0 (op.code * 64 + pd) with a := pa + na.toNat * 64, b := pb + nb.toNat * 64 }
  | .fclass c t f => some (c.eCmp 0x144 t.code 0 0 f)
  | .psetv c a s => some (((c.raw 0x145).putA a).putK s.toNat)
  | .pgetv c d s => some ((c.e0 0x146 0 d).putK s.toNat)
  | .mov c d b => some (c.eB 0x180 0 d b)
  | .sel c o ps => some (c.e2 0x181 ps 0 o)
  | .movsr c d sr => some { c.e0 0x182 0 d with a := sr }
  | .movsrW c sr b => some { c.eB 0x182 1 0 b with a := sr }
  | .perm c o => some (c.e2 0x183 0 0 o)
  | .ballot c d ps => some (c.e0 0x184 ps d)
  | .vote c m pd ps => some { c.e0 0x185 m.code pd with a := ps }
  | .laneget c o => some (c.e2 0x186 0 0 o)
  | .nop c => some (c.raw 0x1C0)
  | .bra c off => some ((c.raw 0x1C1).putI off.toNat)
  | .jmp c a => some ((c.raw 0x1C2).putA a)
  | .call c d off => some ((c.e0 0x1C3 0 d).putI off.toNat)
  | .calli c o => some (c.e1 0x1C4 0 0 o)
  | .ret c a => some ((c.raw 0x1C5).putA a)
  | .exit c => some (c.raw 0x1C6)
  | .meet c off => some ((c.raw 0x1C7).putI off.toNat)
  | .meetNone c => some (c.e0 0x1C7 1 0)
  | .trap c b => some (c.eB 0x1C8 0 0 b)
  | .ld c t h o => some (c.e2 0x200 (t.code + h.code * 16) 0 o)
  | .st c t h o => some (c.e2 0x201 (t.code + h.code * 16) 0 o)
  | .ldm c n s o => some (c.e2 0x202 (n - 1) s.toNat o)
  | .stm c n s o => some (c.e2 0x203 (n - 1) s.toNat o)
  | .lds c t o => some (c.e2 0x204 t.code 0 o)
  | .sts c t o => some (c.e2 0x205 t.code 0 o)
  | .ldt c w o => some (c.e2 0x206 w 0 o)
  | .spres c o => some (c.e2 0x207 0 0 o)
  | .pref c h a b => some (c.e2 0x208 (h.code * 16) 0 ⟨0, a, b⟩)
  | .drainst c => some (c.raw 0x209)
  | .sfqpop c pp d => some (c.e0 0x20A pp d)
  | .atom c op t o => some (c.e2 0x240 (op.code * 4 + t.code) 0 o)
  | .atomcas c t o => some (c.e3 0x241 t.code 0 o)
  | .atoms c op t o => some (c.e2 0x242 (op.code * 4 + t.code) 0 o)
  | .atomscas c t o => some (c.e3 0x243 t.code 0 o)
  | .red c op t a b => some (c.e2 0x244 (op.code * 4 + t.code) 0 ⟨0, a, b⟩)
  | .fence c s => some (c.e0 0x245 s.code 0)
  | .rel c s => some (c.e0 0x246 s.code 0)
  | .acq c s => some (c.e0 0x247 s.code 0)
  | .join c pd b => some (c.eB 0x280 0 pd b)
  | .leave c pd b => some (c.eB 0x281 0 pd b)
  | .bar c pd b => some (c.eB 0x282 0 pd b)
  | .elect c pd b => some (c.eB 0x283 0 pd b)
  | .electRel c b => some (c.eB 0x283 1 0 b)
  | .gkill c b => some (c.eB 0x284 0 0 b)
  | .gred c t op o => some (c.e2 0x285 (t.code + op.code * 16) 0 o)
  | .gbcast c t o => some (c.e2 0x286 t.code 0 o)
  | .genOpen c w t cn ex => some ((c.e0 0x287 ((w - 1) * 8) t).putI (cn.toNat + ex.toNat * 2 ^ 16))
  | .genPoint c => some (c.e0 0x287 1 0)
  | .genTake c d => some (c.e0 0x287 2 d)
  | .genNext c => some (c.e0 0x287 3 0)
  | .genPend c => some (c.e0 0x287 4 0)
  | .yield c a => some { c.raw 0x288 with a := a }
  | .reggrow c w pd b => some (c.eB 0x289 w.toNat pd b)
  | .regshrink c b => some (c.eB 0x28A 0 0 b)
  | .loopn c b off => some ((c.eB 0x2C0 0 0 b).putI off.toNat)
  | .loopend c => some (c.raw 0x2C1)
  | .dqpush c a => some { c.raw 0x2C2 with a := a }
  | .dqpop c d => some (c.e0 0x2C3 0 d)
  | .dqdone c => some (c.raw 0x2C4)
  | .dqbr c f b off => some ((c.eB 0x2C5 f.toNat 0 b).putI off.toNat)
  | .sqpush c a q => some { (c.raw 0x2C6).putK q with a := a }
  | .sqpop c pp d q => some ((c.e0 0x2C7 pp d).putK q)
  | .gmov c p d b => some (c.eB 0x2C8 p.code d b)
  | .mma c f => some (c.eMma 0x300 f f.nz.toNat)
  | .mmaj c f h1 => some (c.eMma 0x301 f (f.nz.toNat + h1.toNat * 2))
  | .mrdy c fa fb sh => some (c.e0 0x302 sh (fa + fb * 8))
  | .mwait c t => some (c.e0 0x303 0 t)
  | .mwaitAll c => some (c.e0 0x303 1 0)
  | .mld c f => some (c.eMt 0x304 f)
  | .mst c f => some (c.eMt 0x305 f)
  | .mclr c p t => some (c.e0 0x306 p.code t)
  | .mswap c t u => some { c.e0 0x307 0 t with a := u }
  | .mstat c d t => some { c.e0 0x308 0 d with a := t }
  | .ffstat c d f => some { c.e0 0x309 0 d with a := f }
  | .claimNew c k sk dk a fifo =>
    some { c.e0 0x340 (sk.code + dk.code * 8) k with a := a, b := fifo, kb := if dk == .fifo then 2 else 0 }
  | .claimUse c k => some ((c.e0 0x340 0 k).putY 1)
  | .flowReg c k s a => some { c.e0 0x341 s.code k with a := a }
  | .flowImm c k s so d n => some { (c.e0 0x341 (s.code + 16) k).putI (n + d * 2 ^ 16) with a := so, kb := 3 }
  | .flwait c k s => some (c.e0 0x342 s.code k)
  | .clrel c k => some (c.e0 0x343 0 k)
  | .clrevokePg c a b => some (c.e2 0x344 0 0 ⟨0, a, b⟩)
  | .clrevokeK c a k => some (((c.e0 0x344 1 0).putA a).putK k)
  | .hdrain c => some (c.raw 0x345)
  | .mcast c n d a x => some { c.e0 0x346 (n - 1) d with a := a, c := x }
  | .fred c bf op o => some (c.e2 0x347 (op.code + bf.toNat * 4) 0 o)
  | .cregOpen c strict pd a off => some { (c.e0 0x380 (strict.toNat * 2) pd).putI off.toNat with a := a }
  | .cregClose c => some (c.e0 0x380 1 0)
  | .pairOpen c pd a off slack => some { (c.e0 0x381 0 pd).putI (off.toNat + slack * 2 ^ 16) with a := a }
  | .pairClose c => some (c.e0 0x381 1 0)
  | .einjPerr c => some (c.raw 0x382)
  | .einjPoison c => some (c.e0 0x382 1 0)
  | .einjPmis c b => some (c.eB 0x382 2 0 b)
  | .einjCerr c => some (c.e0 0x382 3 0)
  | .prepair c d a => some ((c.e0 0x383 0 d).putA a)
  | .presume c a => some ((c.raw 0x384).putA a)
  | .presumeFail c a => some ((c.e0 0x384 1 0).putA a)
  | .trmark c b => some (c.eB 0x385 0 0 b)
  | .cntcapStart c n => some ((c.raw 0x386).putK n)
  | .cntcapStop c d n => some ((c.e0 0x386 1 d).putK n)
  | .sample c b => some (c.eB 0x387 0 0 b)
  | .launch c o => some (c.e1 0x3C0 0 0 o)
  | .scall c b => some (c.eB 0x3C1 0 0 b)
  | .mcall c fn => some ((c.raw 0x3C2).putK fn.toNat)
  | .eret c => some (c.raw 0x3C3)
  | .tlbfill c pd a lvl => some (((c.e0 0x3C4 0 pd).putA a).putK lvl.toNat)
  | .tlbinvPg c a b => some (c.e2 0x3C5 0 0 ⟨0, a, b⟩)
  | .tlbinvAsid c b => some (c.eB 0x3C5 1 0 b)
  | .tlbinvAll c => some (c.e0 0x3C5 2 0)
  | .cinvPg c a b => some (c.e2 0x3C6 0 0 ⟨0, a, b⟩)
  | .cinvAsid c b => some (c.eB 0x3C6 1 0 b)
  | .cinvAll c => some (c.e0 0x3C6 2 0)
  | .ckptIvl c d b => some (c.eB 0x3C7 0 d b)
  | .ckptMem c d => some (c.e0 0x3C7 1 d)
  | .ckptMemrst c d => some (c.e0 0x3C7 2 d)
  | .recctlOff c d b => some (c.eB 0x3C8 0 d b)
  | .recctlRec c d b => some (c.eB 0x3C8 1 d b)
  | .recctlRpl c d b => some (c.eB 0x3C8 2 d b)
  | .movps c d b => some (c.eB 0x3C9 0 d b)
  | .movpsW c a b => some (c.e2 0x3C9 1 0 ⟨0, a, b⟩)
  | .intctlMask c b => some (c.eB 0x3CA 0 0 b)
  | .intctlWait c => some (c.e0 0x3CA 1 0)
  | .intctlResume c a act => some (((c.e0 0x3CA 2 0).putA a).putK act.toNat)
  | .intctlRespg c a b => some (c.e2 0x3CA 3 0 ⟨0, a, b⟩)
  | .ctxsaveInst c o => some (c.e2 0x3CB 0 0 o)
  | .ctxsaveCtx c o => some (c.e2 0x3CB 1 0 o)
  | .ctxsaveEnd c o => some (c.e2 0x3CB 2 0 o)
  | .ctxload c o => some (c.e2 0x3CC 0 0 o)
  | .ctxloadCtx c o => some (c.e2 0x3CC 1 0 o)
  | .wretFill c => some (c.raw 0x3CD)
  | .wretServ c => some (c.e0 0x3CD 1 0)
  | .wretDeny c cause => some ((c.e0 0x3CD 2 0).putK cause)
  | .mcallMap .. | .mcallUnmap .. | .mcallLoad .. | .mcallReport .. | .mcallAssign .. | .mcallVfset ..
  | .mcallActivate .. | .mcallRelease .. | .memoryEventPop .. | .trapQueuePop .. | .unreachClear ..
  | .laneBinCtlWrite .. | .vfBlockWrite .. | .clauseIssue .. | .spinDemotion .. | .demotionEnd ..
  | .flagCompletion .. | .falseGuardCompletion .. | .storeFault .. | .stageHandlerDelivery ..
  | .stewardTrapEntry .. | .interruptEntry .. | .spadParkResume .. | .tlbMiss .. | .walkerDispatch ..
  | .poisonedFill .. | .repairStageStart .. | .migrationRequest .. | .migrationCopy .. | .migrationComplete ..
  | .migrationAck .. | .sectorWrite .. | .claimWalkEnd .. | .flowComplete .. | .arbiterGrant ..
  | .priorityPromotion .. | .passComplete .. | .jointEntryTimeout .. | .mrdyReady .. | .reggrowGrant ..
  | .growthDeadlock .. | .instanceEnd .. | .gangPlacement .. | .queueDrivenStart .. | .gangAgeing ..
  | .intervalStart .. | .uncorrectableError .. | .regionUnwind .. | .rollback .. | .compareMatch ..
  | .logRecordWrite .. | .replayRecordApply .. | .replayDivergence .. | .pairedPartitionCompare ..
  | .preciseStop .. | .traceRecordWrite .. | .traceFrameClose .. | .laneCycleEmit .. | .clusterTestDue ..
  | .testOverdue .. | .clusterTest .. | .powerOnBoot .. | .coolantLossTrip .. | .managementPortRequest ..
  | .moduleIdAssign .. | .hamperAgeExpiry .. | .remoteMaskedWrite .. | .remoteLoadRequest ..
  | .remoteAtomicRequest .. | .remoteAck .. | .remoteRefusal .. | .destinationUnreachable .. | .ackTimeout ..
  | .linkDown .. | .grantRequest .. | .multicastCopy .. | .fredRoundComplete .. | .fredRefusal ..
  | .logRingConsumerWrite .. | .logRingProducerWrite .. | .linkUp .. | .probeAnswer .. | .computeSideReset ..
  | .thermalLimitReached .. | .activationEnd .. | .dieToDieWriteArrival .. | .peerRevokeMessage ..
  | .flowsDrainedReport .. => none

/-- The words of an instruction: its length and the number its little-endian bytes make. -/
def encode (i : Instr) : Option (Len × Nat) :=
  match i.raw with
  | some r => some (r.len, r.toNat)
  | none => none

/-- The bytes of an instruction as they lie in memory. -/
def encodeBytes (i : Instr) : List Byte :=
  match i.raw with
  | some r => leBytes r.len.bytes r.toNat
  | none => []

/-! ### The clause header (R25) -/

structure Header where
  yld  : Bool
  land : Bool
  seta : Option Nat
  setb : Option Nat
  wait : BitVec 12
  size : Nat
  ni   : Nat
deriving DecidableEq, Repr, Inhabited

/-- The header checks of R41 in order: not a header (LEN ≠ 00) is sub-cause 11 at a target (R27), NI = 0 or SIZE < 2
is 2, then reserved or disallowed fields are 5. -/
def decodeHeader (w : Nat) : Except Nat Header :=
  if w % 4 ≠ 0 then .error 11
  else
    let ni := field w 2 4; let size := field w 6 6; let sa := field w 24 4; let sb := field w 29 4
    let sav := field w 28 1 == 1; let sbv := field w 33 1 == 1
    if ni = 0 ∨ size < 2 then .error 2
    else if w / 2 ^ 36 % 2 ^ 28 ≠ 0 ∨ (sav = true ∧ 12 ≤ sa) ∨ (sbv = true ∧ 12 ≤ sb) ∨ (sav = false ∧ sa ≠ 0) ∨
        (sbv = false ∧ sb ≠ 0) then .error 5
    else .ok { yld := field w 35 1 == 1, land := field w 34 1 == 1, seta := if sav then some sa else none
               setb := if sbv then some sb else none, wait := BitVec.ofNat 12 (field w 12 12), size := size, ni := ni }

def Header.encode (h : Header) : Nat :=
  h.ni * 2 ^ 2 + h.size * 2 ^ 6 + h.wait.toNat * 2 ^ 12 + h.seta.getD 0 * 2 ^ 24 + h.seta.isSome.toNat * 2 ^ 28 +
    h.setb.getD 0 * 2 ^ 29 + h.setb.isSome.toNat * 2 ^ 33 + h.land.toNat * 2 ^ 34 + h.yld.toNat * 2 ^ 35

/-- The decoding context that a header gives. -/
def Header.ctx (h : Header) (guide : Bool) : DecCtx := ⟨h.seta.isSome, h.setb.isSome, guide⟩

end Sys2Proof
end

