-- ==== Sys2Proof/Config.lean ====
section
/-!
DEFINITION. What an implementation of the Thason T8 fixes, and the values that the spec leaves open. The opaque
constants have no body: no proof can find a value of theirs. The counter that feeds them stands in State.
-/
namespace Sys2Proof

/-- What may move next: a sequencer issues its next instruction, an event that no word encodes takes place, time
passes by n cycles, an L1 sector is evicted, one byte of a flow moves, or a dirty sector of an L1 or of a die's L2 that holds an
uncorrectable error is written back poisoned (R258). -/
inductive Turn
  | seq (q : Seq)
  | ev (i : Instr)
  | idle (n : Nat)
  | evictL1 (iid key : Nat)
  | flowByte (flow i : Nat)
  | badL1 (iid key : Nat)
  | badL2 (die key : Nat)
deriving DecidableEq, Repr, Inhabited

namespace Config

/-! Numbers of the part (R1, R110, R170, R119, R128, R194, R197, R207, R210, R215, R225, R263, R276, R304, R335). -/
def dies : Nat := 8
def coresPerDie : Nat := 128
def clustersPerDie : Nat := 32
def copyEngines : Nat := 12
def stewardsPerDie : Nat := 8
def controllers : Nat := 64
def bankBytes : Nat := 512 * 1024
def l1Min : Nat := 32 * 1024
def regionMax : Nat := 480 * 1024
def warpsPerPart : Nat := 24
def flagMax : Nat := 63
def groupMax : Nat := 64
def dqSize : Nat := 16
def sfqSize : Nat := 16
def rsvSize : Nat := 32
def fifoBytes : Nat := 32768
/-- The lines of an L2 slice of 256 KiB, and the slices of a die. -/
def sliceLines : Nat := 2048
def slices : Nat := 512
def tlbSize : Nat := 4096
def winTlbSize : Nat := 512
def walkMax : Nat := 64
def memqSize : Nat := 256
def trapqSize : Nat := 64
def holdSize : Nat := 256
def claimSize : Nat := 256
def grantSize : Nat := 256
def cmpSize : Nat := 4096
def launchSize : Nat := 64
def hamperSize : Nat := 64
def undoSectors : Nat := 1024
def flowsPerClaim : Nat := 8
def claimBytes : Nat := 2 ^ 26
def passLimit : Nat := 64
/-- The clauses of siblings that end a demotion (R116), and the equal iterations that make a spinning path (R115). -/
def demoteLimit : Nat := 4096
def spinLimit : Nat := 8
/-- 2.7 GHz (R300): cycles of 0.25 µs (R333), of 2 ms (R342), of 50 ms (R296) and of an hour. -/
def hageCycles : Nat := 675
def ackCycles : Nat := 5400000
def testWaitCycles : Nat := 135000000
def hourCycles : Nat := 9720000000000

/-- A value that the spec leaves open; n is a number that the step takes from a counter, so that each use has a
value of its own and nothing is known of it (log entry 4). -/
opaque freeValue : Nat → BitVec 64

/-- The value of a location that the spec leaves unspecified to one instruction (R40): n is the number of the step, l
the location (log entry 4). -/
opaque openRead (n l : Nat) : BitVec 64

/-- What the machine does next where the agenda does not say; unconstrained (log entry 3). -/
opaque turn : Nat → Turn

/-- The candidate of a transcendental result (R94, R95): a fixed function of opcode, input bits and .ftz. -/
opaque approx (opc : Nat) (ty : Ty) (ftz : Bool) (x : Nat) : Nat

/-- The spin detector's hash (R115). -/
opaque spinHash : List Nat → Nat

/-- The L2 slice of a die, modulo 512, that holds a line (R197). -/
opaque slice (asid va : Nat) : Nat

/-- The world key, the integrity key and the fabric key that the monitor loads (R217, R345); n is the number of the step. -/
opaque worldKey (n : Nat) : BitVec 256
opaque tagKey (n : Nat) : BitVec 256
opaque fabricKey (n : Nat) : BitVec 256

/-- The integrity tag of a sector under the integrity key (R222), whose function the implementation chooses, the tag that a
sector's side band holds at power-on, and the pad byte of a fabric key at an address, whose function the spec does not give (R345;
log entry 22). -/
opaque sectorTag (key : BitVec 256) (data : List (BitVec 8)) (pa major minor : Nat) : BitVec 32
opaque powerTag (sector : Nat) : BitVec 32
opaque fabricPad (key : BitVec 256) (va : Nat) : BitVec 8

/-- The tag of a packet under a fabric key, over its offset, its mask and the bytes that it carries: the spec gives neither its
function nor what it covers (R345; log entry 22). -/
opaque packetTag (key : BitVec 256) (off : Nat) (mask : List Bool) (bytes : List (BitVec 8)) : BitVec 32

/-- The device secret (R294; log entry 21). -/
opaque deviceSecret : List Byte

/-- Whether CKPT.MEM is enabled, so that its far area is never a frame (R291): the spec does not say what enables it (log entry 36). -/
opaque ckptMem : Bool

/-- Where a context's control block lies: the spec says it stands in physical memory and not how the hardware finds
it (log entry 8). -/
opaque ccbAddress : Nat → Nat

/-- What R307 leaves to software: the regions that a LOAD's list names (base, length, permission byte, measured), the VAs of the launch
descriptors it names, and the firmware image that an ACTIVATE names (log entry 38). -/
opaque loadRegions (n : Nat) (list : BitVec 64) : List (Nat × Nat × Nat × Bool)
opaque loadDescs (n : Nat) (list : BitVec 64) : List (BitVec 64)
opaque imageAt (n : Nat) (va : BitVec 64) : BootImage

/-- The interval, less one hour, that the supervisor has set for the structural test of a cluster by a time (R296): the spec does not say by
what means it sets it (log entry 61). -/
opaque testHours (cluster now : Nat) : Option Nat

/-- Bytes of one undo-area entry (R289), which the spec leaves to the implementation. -/
opaque undoEntryBytes : Nat

/-- A byte that the hardware writes at an address in a layout of its own (R261, R286, R289); n is the number of the step
(log entry 4). -/
opaque areaByte (n a : Nat) : BitVec 8

/-- The retry hint of a BUSY answer in µs (R295), 1 to 65,535. -/
opaque retryHint : Nat → Nat

end Config
end Sys2Proof
end

