-- ==== Sys2Proof/Machine/Numbers.lean ====
section
/-!
DEFINITION. Number formats and exact arithmetic (R61 to R76): integers, the floating-point formats, the one rounding
of R68 and R69 with its flags, and the operations of R92 to R99 on bit patterns. A floating-point result is a pair of
bits and the five flags of R75.
-/
namespace Sys2Proof.Machine

/-! ### Integers (R61) -/

/-- Wrap(x, T) and Sat(x, T) as the w-bit pattern. -/
def wrapI (w : Nat) (x : Int) : Nat := (x % (2 ^ w : Nat)).toNat
def intLo (w : Nat) (sg : Bool) : Int := if sg then -(2 ^ (w - 1) : Nat) else 0
def intHi (w : Nat) (sg : Bool) : Int := if sg then (2 ^ (w - 1) : Nat) - 1 else (2 ^ w : Nat) - 1
def satI (w : Nat) (sg : Bool) (x : Int) : Nat :=
  wrapI w (if x < intLo w sg then intLo w sg else if intHi w sg < x then intHi w sg else x)
/-- The value of a w-bit pattern. -/
def valI (w : Nat) (sg : Bool) (b : Nat) : Int :=
  let b := b % 2 ^ w
  if sg && decide (2 ^ (w - 1) ≤ b) then (b : Int) - (2 ^ w : Nat) else b

/-! ### Flags (R75) -/

def flInvalid : BitVec 5 := 1
def flDivZero : BitVec 5 := 2
def flOverflow : BitVec 5 := 4
def flUnderflow : BitVec 5 := 8
def flInexact : BitVec 5 := 16

/-- A result with the flags it raises. -/
structure FRes where
  bits  : Nat
  flags : BitVec 5
deriving DecidableEq, Repr, Inhabited

/-! ### Formats (R63, R64) -/

/-- A format: exponent and mantissa width, bias, whether it has infinities, its largest finite code without the sign,
its canonical NaN. -/
structure Fmt where
  eb   : Nat
  mb   : Nat
  bias : Nat
  inf  : Bool
  maxc : Nat
  nan  : Nat
deriving DecidableEq, Repr, Inhabited

def Fmt.f32 : Fmt := ⟨8, 23, 127, true, 0x7F7FFFFF, 0x7FC00000⟩
def Fmt.f16 : Fmt := ⟨5, 10, 15, true, 0x7BFF, 0x7E00⟩
def Fmt.bf16 : Fmt := ⟨8, 7, 127, true, 0x7F7F, 0x7FC0⟩
def Fmt.e4m3 : Fmt := ⟨4, 3, 7, false, 0x7E, 0x7F⟩
def Fmt.e5m2 : Fmt := ⟨5, 2, 15, true, 0x7B, 0x7E⟩

def Fmt.signAt (f : Fmt) : Nat := 2 ^ (f.eb + f.mb)
def Fmt.infc (f : Fmt) : Nat := (2 ^ f.eb - 1) * 2 ^ f.mb
def Fmt.withSign (f : Fmt) (neg : Bool) (c : Nat) : Nat := if neg then c + f.signAt else c
/-- Exponent of the smallest subnormal's unit: 1 − bias − mantissa bits. -/
def Fmt.qmin (f : Fmt) : Int := 1 - (f.bias : Int) - f.mb

def tyFmt : Ty → Fmt
  | .f16 => .f16
  | .bf16 => .bf16
  | _ => .f32
def ctyFmt : CTy → Fmt
  | .f16 => .f16
  | .bf16 => .bf16
  | .e4m3 => .e4m3
  | .e5m2 => .e5m2
  | _ => .f32

/-- A decoded operand: NaN (signalling or not), an infinity, or ±m × 2^e. -/
inductive FVal
  | nan (sig : Bool)
  | inf (neg : Bool)
  | num (neg : Bool) (m : Nat) (e : Int)
deriving DecidableEq, Repr, Inhabited

/-- The value of a code (R63, R64); under .ftz a subnormal of the formats that .ftz covers is a zero (R72). -/
def Fmt.value (f : Fmt) (ftz : Bool) (b : Nat) : FVal :=
  let neg := b / f.signAt % 2 == 1
  let c := b % f.signAt
  let ex := c / 2 ^ f.mb
  let m := c % 2 ^ f.mb
  if f.inf then
    if ex = 2 ^ f.eb - 1 then (if m = 0 then .inf neg else .nan (m < 2 ^ (f.mb - 1)))
    else if ex = 0 then .num neg (if ftz then 0 else m) f.qmin
    else .num neg (m + 2 ^ f.mb) (f.qmin + ex - 1)
  else if c = f.nan then .nan false
  else if ex = 0 then .num neg m f.qmin
  else .num neg (m + 2 ^ f.mb) (f.qmin + ex - 1)

def FVal.isNan : FVal → Bool
  | .nan _ => true
  | _ => false
def FVal.isSig : FVal → Bool
  | .nan s => s
  | _ => false
def FVal.isInf : FVal → Bool
  | .inf _ => true
  | _ => false
def FVal.neg : FVal → Bool
  | .nan _ => false
  | .inf n => n
  | .num n _ _ => n
def FVal.isZero : FVal → Bool
  | .num _ m _ => m == 0
  | _ => false

/-! ### Rounding (R68, R69) -/

/-- The mode of one rounding: the mode of R68, .sat, .ftz, and the RsdBits that .rsd uses. -/
structure RMode where
  rnd : Rnd
  sat : Bool
  ftz : Bool
  h   : Nat
deriving DecidableEq, Repr, Inhabited

def RMode.rne : RMode := ⟨.rne, false, false, 0⟩

/-- |x| = m × 2^e, or a little more where `st`: the multiple of 2^q that the mode gives, and whether it is inexact. -/
def roundAt (md : Rnd) (h : Nat) (neg : Bool) (m : Nat) (st : Bool) (e q : Int) : Nat × Bool :=
  if q ≤ e then (m * 2 ^ (e - q).toNat, st)
  else
    let k := (q - e).toNat
    let a := m / 2 ^ k
    let low := m % 2 ^ k
    let inexact := low ≠ 0 || st
    let half := 2 ^ (k - 1)
    let above := half < low || (low == half && st)
    let tie := low == half && !st
    let up := match md with
      | .rne => above || (tie && a % 2 == 1)
      | .rna => above || tie
      | .rtz => false
      | .rup => inexact && !neg
      | .rdn => inexact && neg
      | .rsd => decide (2 ^ 32 ≤ low * 2 ^ 32 / 2 ^ k + h)
    (if up then a + 1 else a, inexact)

/-- The largest finite value, or the infinity (R76: 0x7F for E4M3), that overflow gives under a mode; `up` says that
.rsd did not deliver the truncated value. -/
def overflowTo (f : Fmt) (md : RMode) (neg up : Bool) : Nat :=
  let toInf := !md.sat && (match md.rnd with
    | .rne | .rna => true
    | .rtz => false
    | .rup => !neg
    | .rdn => neg
    | .rsd => up)
  if toInf then (if f.inf then f.withSign neg f.infc else f.nan) else f.withSign neg f.maxc

/-- The code of R × 2^q, where R fits the precision. -/
def encodeAt (f : Fmt) (r : Nat) (q : Int) : Nat :=
  if r = 0 then 0
  else
    let (r, q) := if 2 ^ (f.mb + 1) ≤ r then (r / 2, q + 1) else (r, q)
    if r < 2 ^ f.mb then r else (q - f.qmin + 1).toNat * 2 ^ f.mb + (r - 2 ^ f.mb)

/-- Round of R68, R69, R72 and R76 of a non-zero |x| = m × 2^e (a little more where `st`), with the flags of R75. -/
def fpRound (f : Fmt) (md : RMode) (neg : Bool) (m : Nat) (st : Bool) (e : Int) : FRes :=
  let qu := (Nat.log2 m : Int) + e - f.mb
  let q := if qu < f.qmin then f.qmin else qu
  let (r, inexact) := roundAt md.rnd md.h neg m st e q
  let trunc := (roundAt .rtz 0 neg m st e q).1
  let maxR := (f.maxc % 2 ^ f.mb) + 2 ^ f.mb
  let maxQ := f.qmin + (f.maxc / 2 ^ f.mb : Nat) - 1
  if decide (maxQ ≤ q) && decide (maxR < r * 2 ^ (q - maxQ).toNat) then ⟨overflowTo f md neg (trunc < r), flOverflow ||| flInexact⟩
  else
    let ru := (roundAt md.rnd md.h neg m st e qu).1
    let tiny := decide (qu < f.qmin) && decide (ru < 2 ^ (f.qmin - qu).toNat * 2 ^ f.mb)
    let c := encodeAt f r q
    if md.ftz && f.inf && f.eb + f.mb > 8 && decide (c < 2 ^ f.mb) then
      ⟨f.withSign neg 0, flUnderflow ||| flInexact⟩
    else
      ⟨f.withSign neg c, (if inexact then flInexact else 0) ||| (if inexact && tiny then flUnderflow else 0)⟩

/-- RsdBits of R70. -/
def rsdMix (h : Word) : Word :=
  let h := (h ^^^ (h >>> 16)) * 0x7FEB352D
  let h := (h ^^^ (h >>> 15)) * 0x846CA68B
  h ^^^ (h >>> 16)
def rsdBits (seed tid ctr : Word) : Word :=
  rsdMix (rsdMix ((seed ^^^ 0x5BD1E995) + tid * 0x27D4EB2F) + ctr * 0x165667B1)

/-! ### Arithmetic (R72 to R76, R92) -/

def Fmt.canon (f : Fmt) (sig : Bool) : FRes := ⟨f.nan, if sig then flInvalid else 0⟩
/-- An infinity delivered by FpResult (R92): under .sat the largest finite value with no extra flag. -/
def Fmt.infRes (f : Fmt) (sat neg : Bool) : FRes := ⟨f.withSign neg (if sat then f.maxc else f.infc), 0⟩
def Fmt.zeroRes (f : Fmt) (neg : Bool) : FRes := ⟨f.withSign neg 0, 0⟩

/-- A signed number as an integer multiple of 2^e0, for e0 at most its exponent. -/
def scaled (neg : Bool) (m : Nat) (e e0 : Int) : Int :=
  let n : Int := (m * 2 ^ (e - e0).toNat : Nat)
  if neg then -n else n

/-- The exact sum of two numbers (one may be a product), rounded once; the sign of an exact zero is R92's. -/
def sum2 (f : Fmt) (md : RMode) (n1 : Bool) (m1 : Nat) (e1 : Int) (n2 : Bool) (m2 : Nat) (e2 : Int) : FRes :=
  let e0 := min e1 e2
  let t := scaled n1 m1 e1 e0 + scaled n2 m2 e2 e0
  if t = 0 then
    if m1 = 0 ∧ m2 = 0 ∧ n1 = n2 then f.zeroRes n1 else f.zeroRes (md.rnd == .rdn)
  else fpRound f md (decide (t < 0)) t.natAbs false e0

/-- A + B, with `sub` for A − B. -/
def fpAdd (f : Fmt) (md : RMode) (sub : Bool) (a b : Nat) : FRes :=
  let x := f.value md.ftz a
  let y := f.value md.ftz b
  match x, y with
  | .num n1 m1 e1, .num n2 m2 e2 => sum2 f md n1 m1 e1 (n2 != sub) m2 e2
  | .inf n1, .inf n2 => if n1 = (n2 != sub) then f.infRes md.sat n1 else ⟨f.nan, flInvalid⟩
  | .inf n1, .num _ _ _ => f.infRes md.sat n1
  | .num _ _ _, .inf n2 => f.infRes md.sat (n2 != sub)
  | _, _ => f.canon (x.isSig || y.isSig)

def fpMul (f : Fmt) (md : RMode) (a b : Nat) : FRes :=
  let x := f.value md.ftz a
  let y := f.value md.ftz b
  let n := x.neg != y.neg
  match x, y with
  | .num _ m1 e1, .num _ m2 e2 =>
    if m1 = 0 ∨ m2 = 0 then f.zeroRes n else fpRound f md n (m1 * m2) false (e1 + e2)
  | .nan _, _ | _, .nan _ => f.canon (x.isSig || y.isSig)
  | _, _ => if x.isZero || y.isZero then ⟨f.nan, flInvalid⟩ else f.infRes md.sat n

/-- A × B + C with one rounding. An invalid product beside a quiet NaN addend raises nothing (R75). -/
def fpFma (f : Fmt) (md : RMode) (a b c : Nat) : FRes :=
  let x := f.value md.ftz a
  let y := f.value md.ftz b
  let z := f.value md.ftz c
  let n := x.neg != y.neg
  if x.isNan || y.isNan || z.isNan then f.canon (x.isSig || y.isSig || z.isSig)
  else if (x.isInf && y.isZero) || (x.isZero && y.isInf) then ⟨f.nan, flInvalid⟩
  else if x.isInf || y.isInf then
    if z.isInf && z.neg != n then ⟨f.nan, flInvalid⟩ else f.infRes md.sat n
  else match x, y, z with
    | .num _ m1 e1, .num _ m2 e2, .num n3 m3 e3 => sum2 f md n (m1 * m2) (e1 + e2) n3 m3 e3
    | _, _, z => f.infRes md.sat z.neg

def fpDiv (f : Fmt) (md : RMode) (a b : Nat) : FRes :=
  let x := f.value md.ftz a
  let y := f.value md.ftz b
  let n := x.neg != y.neg
  match x, y with
  | .nan _, _ | _, .nan _ => f.canon (x.isSig || y.isSig)
  | .inf _, .inf _ => ⟨f.nan, flInvalid⟩
  | .inf _, .num _ _ _ => f.infRes md.sat n
  | .num _ _ _, .inf _ => f.zeroRes n
  | .num _ m1 e1, .num _ m2 e2 =>
    if m2 = 0 then (if m1 = 0 then ⟨f.nan, flInvalid⟩ else { f.infRes md.sat n with flags := flDivZero })
    else if m1 = 0 then f.zeroRes n
    else
      let k : Nat := 96
      let num := m1 * 2 ^ k
      fpRound f md n (num / m2) (num % m2 != 0) (e1 - e2 - k)

/-- ⌊√n⌋, bit by bit from 2^k. -/
def isqrtFrom (n : Nat) : Nat → Nat → Nat
  | 0, r => if (r + 1) * (r + 1) ≤ n then r + 1 else r
  | k + 1, r => let t := r + 2 ^ (k + 1); isqrtFrom n k (if t * t ≤ n then t else r)
def isqrt (n : Nat) : Nat := isqrtFrom n (Nat.log2 n / 2 + 1) 0

def fpSqrt (f : Fmt) (md : RMode) (a : Nat) : FRes :=
  match f.value md.ftz a with
  | .nan s => f.canon s
  | .inf n => if n then ⟨f.nan, flInvalid⟩ else f.infRes md.sat false
  | .num n m e =>
    if m = 0 then f.zeroRes n
    else if n then ⟨f.nan, flInvalid⟩
    else
      let k : Nat := if e % 2 = 0 then 160 else 161
      let s := m * 2 ^ k
      let r := isqrt s
      fpRound f md false r (r * r != s) ((e - k) / 2)

/-- The order of two numbers without NaN: −1, 0 or 1 as x is below, equal to or above y. -/
def fcmp (x y : FVal) : Int :=
  let key (v : FVal) (e0 : Int) : Int := match v with
    | .num n m e => scaled n m e e0
    | _ => 0
  match x, y with
  | .inf n1, .inf n2 => if n1 = n2 then 0 else if n1 then -1 else 1
  | .inf n1, _ => if n1 then -1 else 1
  | _, .inf n2 => if n2 then 1 else -1
  | .num _ _ e1, .num _ _ e2 => Int.sign (key x (min e1 e2) - key y (min e1 e2))
  | _, _ => 0

/-- A flushed operand keeps only its sign. -/
def Fmt.flushBits (f : Fmt) (ftz : Bool) (b : Nat) : Nat :=
  if ftz && (f.value true b).isZero then f.withSign (f.value true b).neg 0 else b

/-- minimumNumber and maximumNumber of R74. -/
def fpMinMax (f : Fmt) (ftz mx : Bool) (a b : Nat) : FRes :=
  let x := f.value ftz a
  let y := f.value ftz b
  let fl := if x.isSig || y.isSig then flInvalid else 0
  if x.isNan && y.isNan then ⟨f.nan, fl⟩
  else if x.isNan then ⟨f.flushBits ftz b, fl⟩
  else if y.isNan then ⟨f.flushBits ftz a, fl⟩
  else
    let o := fcmp x y
    let below := o < 0 || (o == 0 && x.neg && !y.neg)
    let above := o > 0 || (o == 0 && !x.neg && y.neg)
    let pickB := if mx then below else above
    ⟨f.flushBits ftz (if pickB then b else a), fl⟩

def fpClamp (f : Fmt) (ftz : Bool) (x lo hi : Nat) : FRes :=
  let r := fpMinMax f ftz true x lo
  let t := fpMinMax f ftz false r.bits hi
  ⟨t.bits, r.flags ||| t.flags⟩

/-- FABS and FNEG: bitwise (R73). -/
def fpAbs (f : Fmt) (a : Nat) : Nat := a % f.signAt
def fpNeg (f : Fmt) (a : Nat) : Nat := if a / f.signAt % 2 = 1 then a % f.signAt else a % f.signAt + f.signAt

/-- FROUND (R92): roundToIntegralExact with u = 1. -/
def fpIntegral (f : Fmt) (md : RMode) (a : Nat) : FRes :=
  match f.value md.ftz a with
  | .nan s => f.canon s
  | .inf n => ⟨f.withSign n f.infc, 0⟩
  | .num n m e =>
    if m = 0 then f.zeroRes n
    else
      let (r, inexact) := roundAt md.rnd md.h n m false e 0
      let fl := if inexact then flInexact else 0
      if r = 0 then ⟨f.withSign n 0, fl⟩
      else ⟨(fpRound f .rne n r false 0).bits, fl⟩

/-- A comparison under a condition (R101): c, d and the flags. -/
def fpCompare (f : Fmt) (ftz : Bool) (cd : Cond) (a b : Nat) : Bool × Bool × BitVec 5 :=
  let x := f.value ftz a
  let y := f.value ftz b
  if x.isNan || y.isNan then
    let inv := match cd with
      | .eq | .ne => x.isSig || y.isSig
      | _ => true
    (false, false, if inv then flInvalid else 0)
  else
    let o := fcmp x y
    let c := match cd with
      | .eq => o == 0
      | .ne => o != 0
      | .lt => o < 0
      | .le => o ≤ 0
      | .gt => o > 0
      | .ge => o ≥ 0
    (c, !c, 0)

/-- The class bit of FCLASS (R101). -/
def fpClass (f : Fmt) (a : Nat) : Nat :=
  match f.value false a with
  | .nan s => if s then 0 else 1
  | .inf n => if n then 2 else 9
  | .num n m _ =>
    if m = 0 then (if n then 5 else 6)
    else if m < 2 ^ f.mb then (if n then 4 else 7)
    else if n then 3 else 8

/-- HDOT2 (R93): the exact A0 × B0 + A1 × B1 + C, rounded once to FP32. Beside a quiet NaN a product of 0 and infinity raises no invalid,
and a zero sum of the three terms has their sign where all are zeros of one sign, else that of R93's rule for two operands: the model's
choices (log entry 84). -/
def fpDot2 (f : Fmt) (md : RMode) (a b c : Nat) : FRes :=
  let o := Fmt.f32
  let v (w i : Nat) := f.value md.ftz (w / 2 ^ (16 * i) % 2 ^ 16)
  let z := o.value md.ftz c
  let ops := [v a 0, v b 0, v a 1, v b 1, z]
  let badProd (x y : FVal) : Bool := (x.isInf && y.isZero) || (x.isZero && y.isInf)
  let prodInf (x y : FVal) : Option Bool := if x.isInf || y.isInf then some (x.neg != y.neg) else none
  if ops.any FVal.isNan then o.canon (ops.any FVal.isSig)
  else if badProd (v a 0) (v b 0) || badProd (v a 1) (v b 1) then ⟨o.nan, flInvalid⟩
  else
    let infs := [prodInf (v a 0) (v b 0), prodInf (v a 1) (v b 1), if z.isInf then some z.neg else none]
    if infs.contains (some true) && infs.contains (some false) then ⟨o.nan, flInvalid⟩
    else if infs.contains (some true) then o.infRes md.sat true
    else if infs.contains (some false) then o.infRes md.sat false
    else
      let term (x y : FVal) : Bool × Nat × Int := match x, y with
        | .num n1 m1 e1, .num n2 m2 e2 => (n1 != n2, m1 * m2, e1 + e2)
        | _, _ => (false, 0, 0)
      let ts := [term (v a 0) (v b 0), term (v a 1) (v b 1), term z (.num false 1 0)]
      let e0 := ts.foldl (fun e t => min e t.2.2) 0
      let tot := ts.foldl (fun s t => s + scaled t.1 t.2.1 t.2.2 e0) 0
      if tot = 0 then
        if ts.all (fun t => t.2.1 == 0 && t.1) then o.zeroRes true
        else if ts.all (fun t => t.2.1 == 0 && !t.1) then o.zeroRes false
        else o.zeroRes (md.rnd == .rdn)
      else fpRound o md (decide (tot < 0)) tot.natAbs false e0

/-! ### Conversions (R76, R96 to R99) -/

def ctyWidth : CTy → Nat
  | .i32 | .n32 | .f32 => 32
  | .i16 | .n16 | .f16 | .bf16 => 16
  | .i8 | .n8 | .e4m3 | .e5m2 => 8
  | .i64 | .n64 => 64
def ctySigned : CTy → Bool
  | .i32 | .i16 | .i8 | .i64 => true
  | _ => false

/-- Float to float (CVTF, PACK2, UNPACK): R76 for the 8-bit destinations. -/
def cvtFF (dst src : Fmt) (md : RMode) (a : Nat) : FRes :=
  match src.value (md.ftz && src.eb + src.mb > 8) a with
  | .nan s => dst.canon s
  | .inf n =>
    if dst.inf then dst.infRes md.sat n
    else if md.sat then ⟨dst.withSign n dst.maxc, 0⟩ else ⟨dst.nan, flInvalid⟩
  | .num n m e => if m = 0 then dst.zeroRes n else fpRound dst md n m false e

/-- Float to integer (CVTFI). -/
def cvtFI (w : Nat) (sg : Bool) (src : Fmt) (md : RMode) (a : Nat) : FRes :=
  match src.value md.ftz a with
  | .nan _ => ⟨0, flInvalid⟩
  | .inf n => ⟨wrapI w (if n then intLo w sg else intHi w sg), flInvalid⟩
  | .num n m e =>
    let (r, inexact) := roundAt md.rnd md.h n m false e 0
    let x : Int := if n then -(r : Int) else r
    if x < intLo w sg then ⟨wrapI w (intLo w sg), flInvalid⟩
    else if intHi w sg < x then ⟨wrapI w (intHi w sg), flInvalid⟩
    else ⟨wrapI w x, if inexact then flInexact else 0⟩

/-- Integer to float (CVTIF). -/
def cvtIF (w : Nat) (sg : Bool) (dst : Fmt) (md : RMode) (a : Nat) : FRes :=
  let x := valI w sg a
  if x = 0 then dst.zeroRes false else fpRound dst md (decide (x < 0)) x.natAbs false 0

/-- E2M1Code of R99. -/
def e2m1Code (md : RMode) : FVal → FRes
  | .nan _ => ⟨0, flInvalid⟩
  | .inf n => ⟨if n then 0xF else 0x7, flInvalid⟩
  | .num n m e =>
    let s := if n then 8 else 0
    if m = 0 then ⟨s, 0⟩
    else
      let qu := (Nat.log2 m : Int) + e - 1
      let q := if qu < -1 then -1 else qu
      let (r, inexact) := roundAt md.rnd md.h n m false e q
      -- the value is r × 2^q; 6 is 12 × 2^−1
      if 12 < r * 2 ^ (q + 1).toNat then ⟨s + 7, flOverflow ||| flInexact⟩
      else
        let ru := (roundAt md.rnd md.h n m false e qu).1
        let tiny := decide (qu < -1) && decide (ru < 2 ^ (-qu).toNat)
        let c := if r = 0 then 0 else
          let (r, q) := if 4 ≤ r then (r / 2, q + 1) else (r, q)
          if r < 2 then r else (q + 2).toNat * 2 + (r - 2)
        ⟨s + c, (if inexact then flInexact else 0) ||| (if inexact && tiny then flUnderflow else 0)⟩

/-- |y| against an integer multiple of one half: sign of |y| − n/2. -/
def absVsHalf (m : Nat) (e : Int) (n : Nat) : Int :=
  Int.sign ((m * 2 ^ (e - min e (-1)).toNat : Nat) - (n * 2 ^ (-1 - min e (-1)).toNat : Nat) : Int)

/-- I4OPair of R99: the two slots of a pair and the flags. A NaN element is read as 0 and an infinity as beyond
every finite value, which stays below 2^256. -/
def i4oPair (x0 x1 : FVal) : Nat × Nat × BitVec 5 :=
  let clip : FVal → FVal | .inf n => .num n 1 300 | .nan _ => .num false 0 0 | v => v
  let fl0 := if x0.isNan || x1.isNan || x0.isInf || x1.isInf then flInvalid else 0
  let y0 := clip x0
  let y1 := clip x1
  let mag : FVal → Nat × Int | .num _ m e => (m, e) | _ => (0, 0)
  let rnd (v : FVal) : Nat × Bool := match v with
    | .num n m e => roundAt .rne 0 n m false e 0
    | _ => (0, false)
  let (q0, ix0) := rnd y0
  let (q1, ix1) := rnd y1
  let slot (v : FVal) (q : Nat) : Nat := wrapI 4 (if v.neg then -(q : Int) else q)
  if q0 ≤ 7 ∧ q1 ≤ 7 then
    (slot y0 q0, slot y1 q1, fl0 ||| (if ix0 || ix1 then flInexact else 0))
  else
    let (m0, e0) := mag y0
    let (m1, e1) := mag y1
    let em := min e0 e1
    let even := decide (m1 * 2 ^ (e1 - em).toNat ≤ m0 * 2 ^ (e0 - em).toNat)
    let (cv, pv) := if even then (y0, y1) else (y1, y0)
    let (m, e) := mag cv
    -- nearest of 4, 16, 64, 256, the larger on a tie: the midpoints are 10, 40 and 160
    let k := if absVsHalf m e 320 ≥ 0 then 8 else if absVsHalf m e 80 ≥ 0 then 6
      else if absVsHalf m e 20 ≥ 0 then 4 else 2
    -- ||y| − o| < |y| − 7, at a common exponent
    let eb := min e (-1)
    let yy : Int := (m * 2 ^ (e - eb).toNat : Nat)
    let o : Int := (2 ^ k * 2 ^ (-eb).toNat : Nat)
    let seven : Int := (7 * 2 ^ (-eb).toNat : Nat)
    if (if yy < o then o - yy else yy - o) < yy - seven then
      let pat := (if cv.neg then 8 else 0) + (k + 6) / 2
      let big := decide (o < yy) && k == 8
      let exact := decide (yy = o) && pv.isZero
      let fl := fl0 ||| (if big then flOverflow else 0) ||| (if exact then 0 else flInexact)
      if even then (8, pat, fl) else (pat, 8, fl)
    else
      let sat (q : Nat) := if 7 < q then 7 else q
      (slot y0 (sat q0), slot y1 (sat q1), fl0 ||| flOverflow ||| flInexact)

/-- The value x / 2^(e − 127) of an FP32 code. -/
def scaleDown (e : Nat) (b : Nat) : FVal :=
  match Fmt.f32.value false b with
  | .num n m x => .num n m (x - e + 127)
  | v => v

/-! ### Transcendental functions (R94, R95)

A delivered result is the implementation's candidate where it lies within the bound, and the nearest value otherwise.
The exact function is enclosed in fixed point with `tp` fraction bits; the enclosure's width is far below any bound. -/

/-- Fraction bits of the enclosure. -/
def tp : Nat := 448

/-- Σ (−1)^k?·x^(2k+1)/(2k+1) by a fixed number of terms, for atan (alternating) and atanh of 1/n. -/
def atanInv (alt : Bool) (n : Nat) : Nat → Nat → Int → Int → Int
  | 0, _, _, acc => acc
  | fuel + 1, k, pw, acc =>
    let t := pw / (2 * k + 1 : Nat)
    atanInv alt n fuel (k + 1) (pw / (n * n : Nat)) (if alt && k % 2 == 1 then acc - t else acc + t)
def fxOne : Int := (2 ^ tp : Nat)
def fxLn2 : Int := 2 * atanInv false 3 300 0 (fxOne / 3) 0
def fxPi : Int := 16 * atanInv true 5 220 0 (fxOne / 5) 0 - 4 * atanInv true 239 70 0 (fxOne / 239) 0
def fxMul (a b : Int) : Int := a * b / (2 ^ tp : Nat)

/-- e^x for a fixed-point |x| ≤ 1: the Taylor series. -/
def fxExpGo (x : Int) : Nat → Nat → Int → Int → Int
  | 0, _, _, acc => acc
  | fuel + 1, k, term, acc =>
    let t := fxMul term x / (k : Int)
    fxExpGo x fuel (k + 1) t (acc + t)
def fxExp (x : Int) : Int := fxExpGo x 100 1 fxOne fxOne

/-- sin and cos of a fixed-point 0 ≤ x ≤ 2: the Taylor series from its first term. -/
def fxTrigGo (x2 : Int) : Nat → Nat → Int → Int → Int
  | 0, _, _, acc => acc
  | fuel + 1, k, term, acc =>
    let t := -(fxMul term x2) / ((k * (k + 1) : Nat) : Int)
    fxTrigGo x2 fuel (k + 2) t (acc + t)
def fxSin (x : Int) : Int := fxTrigGo (fxMul x x) 80 2 x x
def fxCos (x : Int) : Int := fxTrigGo (fxMul x x) 80 1 fxOne fxOne

/-- log2 of a fixed-point 1 ≤ x < 2. -/
def fxLog2 (x : Int) : Int :=
  let z := (x - fxOne) * (2 ^ tp : Nat) / (x + fxOne)
  let z2 := fxMul z z
  let rec go : Nat → Nat → Int → Int → Int
    | 0, _, _, acc => acc
    | fuel + 1, k, pw, acc => go fuel (k + 1) (fxMul pw z2) (acc + pw / (2 * k + 1 : Nat))
  2 * go 160 0 z 0 * (2 ^ tp : Nat) / fxLn2

/-- The exact function value to the enclosure's precision: m × 2^e with its sign; none where R94 lists the result. -/
structure Approx where
  neg : Bool
  m   : Nat
  e   : Int
deriving DecidableEq, Repr, Inhabited

def Approx.ofFx (x : Int) (e : Int) : Approx := ⟨decide (x < 0), x.natAbs, e - tp⟩

/-- A fixed-point value of m × 2^e. -/
def fxOf (m : Nat) (e : Int) : Int :=
  if -(tp : Int) ≤ e then (m * 2 ^ (e + tp).toNat : Nat) else (m / 2 ^ (-(e + tp)).toNat : Nat)

/-- 2^x = 2^i × 2^f: i the floor of x, f the fraction. -/
def exp2At (n : Bool) (m : Nat) (e : Int) : Approx :=
  let x := if n then -(fxOf m e) else fxOf m e
  let i := x / (2 ^ tp : Nat)
  Approx.ofFx (fxExp (fxMul (x % (2 ^ tp : Nat)) fxLn2)) i
def log2At (m : Nat) (e : Int) : Approx :=
  let k := Nat.log2 m
  Approx.ofFx (((k : Int) + e) * (2 ^ tp : Nat) + fxLog2 (fxOf m (-(k : Int)))) 0
/-- sin(π r) and cos(π r) for 0 ≤ r ≤ 1/2, given in units of 2^e. -/
def sinPiAt (m : Nat) (e : Int) : Approx :=
  -- for a small argument π r is scaled up so that no precision is lost
  let k := Nat.log2 m
  if (k : Int) + e < -200 then ⟨false, (fxPi.toNat) * m, e - tp⟩ else Approx.ofFx (fxSin (fxMul fxPi (fxOf m e))) 0
def cosPiAt (m : Nat) (e : Int) : Approx := Approx.ofFx (fxCos (fxMul fxPi (fxOf m e))) 0
/-- tanh x for 0 < x < 10: (E − 1) / (E + 1) with E = e^2x, through e^(x/16) squared; x itself where it is small. -/
def tanhAt (m : Nat) (e : Int) : Approx :=
  let k := Nat.log2 m
  if (k : Int) + e < -60 then ⟨false, m, e⟩
  else
    let y := fxExp (fxOf m e / 16)
    let y2 := fxMul y y
    let y4 := fxMul y2 y2
    let y8 := fxMul y4 y4
    let y16 := fxMul y8 y8
    let ee := fxMul y16 y16
    Approx.ofFx ((ee - fxOne) * (2 ^ tp : Nat) / (ee + fxOne)) 0

/-- Whether a candidate code (an infinity counts as the next value above the largest) is within `ulps` units in the
last place of the destination at the exact value, or within 2^−22 where `abs`. -/
def Approx.within (x : Approx) (f : Fmt) (ulps : Nat) (abs : Bool) (cand : Nat) : Bool :=
  let c : Option (Bool × Nat × Int) := match f.value false cand with
    | .num n m e => some (n, m, e)
    | .inf n => some (n, 1, f.qmin + (f.maxc / 2 ^ f.mb : Nat) + f.mb)
    | .nan _ => none
  match c with
  | none => false
  | some (n, m, e) =>
    let qu := (Nat.log2 x.m : Int) + x.e - f.mb
    let q := if qu < f.qmin then f.qmin else qu
    let (b, eb) : Nat × Int := if abs then (1, -22) else (ulps, q)
    let e0 := min (min e x.e) eb
    let d := (scaled n m e e0 - scaled x.neg x.m x.e e0).natAbs
    decide (d ≤ b * 2 ^ (eb - e0).toNat)

/-- Delivers a result that R94 does not list: the candidate or the nearest value, with the flags of R94. -/
def Approx.deliver (x : Approx) (f : Fmt) (ftz : Bool) (ulps : Nat) (abs : Bool) (cand : Nat) : FRes :=
  let c := if x.within f ulps abs cand then cand % (2 * f.signAt) else (fpRound f .rne x.neg x.m true x.e).bits
  match f.value false c with
  | .num n m _ =>
    if m < 2 ^ f.mb then ⟨if ftz then f.withSign n 0 else c, flUnderflow ||| flInexact⟩ else ⟨c, flInexact⟩
  | .inf _ => ⟨c, flOverflow ||| flInexact⟩
  | .nan _ => ⟨c, flInexact⟩

/-- An exact ±2^k as R94 lists it; it may be subnormal, and .ftz flushes it (R72). -/
def pow2Res (f : Fmt) (ftz neg : Bool) (k : Int) : FRes :=
  let r := fpRound f .rne neg 1 false k
  if ftz && decide (r.bits % f.signAt < 2 ^ f.mb) then ⟨f.withSign neg 0, flUnderflow ||| flInexact⟩
  else ⟨r.bits, r.flags⟩

/-- FRCP and HRCP. A power of two whose reciprocal is not normal is not listed. -/
def fpRcp (f : Fmt) (ftz : Bool) (cand a : Nat) : FRes :=
  match f.value ftz a with
  | .nan s => f.canon s
  | .inf n => f.zeroRes n
  | .num n m e =>
    if m = 0 then ⟨f.withSign n f.infc, flDivZero⟩
    else
      let k := Nat.log2 m
      let x : Approx := ⟨n, 2 ^ (k + 128) / m, -(k : Int) - 128 - e⟩
      let r := -((k : Int) + e)
      let maxE := f.qmin + (f.maxc / 2 ^ f.mb : Nat) - 1 + f.mb
      if m = 2 ^ k ∧ f.qmin + f.mb ≤ r ∧ r ≤ maxE then pow2Res f ftz n r
      else x.deliver f ftz 1 false cand

def fpRsq (f : Fmt) (ftz : Bool) (cand a : Nat) : FRes :=
  match f.value ftz a with
  | .nan s => f.canon s
  | .inf n => if n then ⟨f.nan, flInvalid⟩ else f.zeroRes false
  | .num n m e =>
    if m = 0 then ⟨f.withSign n f.infc, flDivZero⟩
    else if n then ⟨f.nan, flInvalid⟩
    else
      let k := Nat.log2 m
      if m = 2 ^ k ∧ ((k : Int) + e) % 2 = 0 then pow2Res f ftz false (-(((k : Int) + e) / 2))
      else
        -- 1/√x = √(2^(2j) / m) × 2^(−j) × 2^(−e/2)
        let j := k + 128 + (if e % 2 = 0 then 0 else 1)
        let e' := if e % 2 = 0 then e else e - 1
        let m' := if e % 2 = 0 then m else 2 * m
        Approx.deliver ⟨false, isqrt (2 ^ (2 * j) / m'), -(j : Int) - e' / 2⟩ f ftz 1 false cand

def fpExp2 (f : Fmt) (ftz : Bool) (ulps cand a : Nat) : FRes :=
  let maxE := f.qmin + (f.maxc / 2 ^ f.mb : Nat) - 1 + f.mb
  match f.value ftz a with
  | .nan s => f.canon s
  | .inf n => if n then f.zeroRes false else ⟨f.infc, 0⟩
  | .num n m e =>
    if m = 0 then ⟨(fpRound f .rne false 1 false 0).bits, 0⟩
    else
      -- the integer part of |x|, and whether x is an integer
      let whole := if 0 ≤ e then m * 2 ^ e.toNat else m / 2 ^ (-e).toNat
      let isInt := decide (0 ≤ e) || m % 2 ^ (-e).toNat == 0
      let i : Int := if n then -(whole : Int) else whole
      if !n && decide (maxE < i) then ⟨f.infc, flOverflow ||| flInexact⟩
      else if isInt && decide (f.qmin ≤ i) then pow2Res f ftz false i
      else if n && decide (i < f.qmin - 64) then
        Approx.deliver ⟨false, 1, f.qmin - 64⟩ f ftz ulps false cand
      else (exp2At n m e).deliver f ftz ulps false cand

def fpLog2 (f : Fmt) (ftz : Bool) (cand a : Nat) : FRes :=
  match f.value ftz a with
  | .nan s => f.canon s
  | .inf n => if n then ⟨f.nan, flInvalid⟩ else ⟨f.infc, 0⟩
  | .num n m e =>
    if m = 0 then ⟨f.withSign true f.infc, flDivZero⟩
    else if n then ⟨f.nan, flInvalid⟩
    else
      let k := Nat.log2 m
      let x : Int := k + e
      if m = 2 ^ k then
        (if x = 0 then f.zeroRes false else ⟨(fpRound f .rne (decide (x < 0)) x.natAbs false 0).bits, 0⟩)
      else (log2At m e).deliver f ftz 2 (x == 0 || x == -1) cand

/-- FSIN and FCOS of π x: x modulo 2 in units of 2^e, folded into [0, 1/2]. -/
def fpTrig (f : Fmt) (ftz isCos : Bool) (cand a : Nat) : FRes :=
  let one (neg : Bool) : FRes := ⟨(fpRound f .rne neg 1 false 0).bits, 0⟩
  match f.value ftz a with
  | .nan s => f.canon s
  | .inf _ => ⟨f.nan, flInvalid⟩
  | .num n m e =>
    if m = 0 then (if isCos then one false else f.zeroRes n)
    else
      let d := (-e).toNat
      let whole := if 0 ≤ e then m * 2 ^ e.toNat else m / 2 ^ d
      let frac := if 0 ≤ e then 0 else m % 2 ^ d
      let odd := whole % 2 == 1
      if frac = 0 then (if isCos then one odd else f.zeroRes n)
      else if 2 * frac = 2 ^ d then
        -- x = n + 1/2: |x| = whole + 1/2; for x < 0, n = −whole − 1
        (if isCos then f.zeroRes false else one (if n then !odd else odd))
      else
        let upper := decide (2 ^ d < 2 * frac)
        let fr := if upper then 2 ^ d - frac else frac
        if isCos then
          let r := cosPiAt fr e
          Approx.deliver { r with neg := odd != upper } f ftz 2 false cand
        else
          let r := sinPiAt fr e
          Approx.deliver { r with neg := n != odd } f ftz 2 false cand

def fpTanh (f : Fmt) (ftz : Bool) (cand a : Nat) : FRes :=
  let one (neg : Bool) : FRes := ⟨(fpRound f .rne neg 1 false 0).bits, 0⟩
  match f.value ftz a with
  | .nan s => f.canon s
  | .inf n => one n
  | .num n m e =>
    if m = 0 then f.zeroRes n
    else if 0 ≤ e ∧ 10 ≤ m * 2 ^ e.toNat ∨ e < 0 ∧ 10 * 2 ^ (-e).toNat ≤ m then one n
    else Approx.deliver { tanhAt m e with neg := n } f ftz 2 false cand

/-- The function of a transcendental opcode (R94). -/
def fpTrans (opc : Nat) (ty : Ty) (ftz : Bool) (a : Nat) : FRes :=
  let f := tyFmt ty
  let cand := Config.approx opc ty ftz a
  match opc with
  | 0x08C | 0x0CB => fpRcp f ftz cand a
  | 0x08D => fpRsq f ftz cand a
  | 0x08E => fpExp2 f ftz 2 cand a
  | 0x08F => fpLog2 f ftz cand a
  | 0x090 => fpTrig f ftz false cand a
  | 0x091 => fpTrig f ftz true cand a
  | 0x092 => fpTanh f ftz cand a
  | _ => fpExp2 f ftz 1 cand a

/-! ### Matrix accumulation (R65, R67, R77 to R80) -/

/-- E2M1(k) in units of one half (R64). -/
def e2m1Half (c : Nat) : Int :=
  let m : Int := match c % 8 with
    | 0 => 0 | 1 => 1 | 2 => 2 | 3 => 3 | 4 => 4 | 5 => 6 | 6 => 8 | _ => 12
  if 8 ≤ c % 16 then -m else m

/-- DecodeI4OPair of R67 without the scale: both elements as values. -/
def i4oDecode (byte : Nat) : FVal × FVal :=
  let lo := byte % 16
  let hi := byte / 16 % 16
  let int (x : Nat) : FVal := let v := valI 4 true x; .num (decide (v < 0)) v.natAbs 0
  if lo = 8 then (Fmt.e4m3.value false (hi * 16 + 8), .num false 0 0)
  else if hi = 8 then (.num false 0 0, Fmt.e4m3.value false (lo * 16 + 8))
  else (int lo, int hi)

/-- The exact sum of numbers as a multiple of 2^e0. -/
def sumExact (xs : List (Bool × Nat × Int)) : Int × Int :=
  let nz := xs.filter fun t => t.2.1 != 0
  let e0 := nz.foldl (fun e t => min e t.2.2) 0
  (nz.foldl (fun s t => s + scaled t.1 t.2.1 t.2.2 e0) 0, e0)

/-- The BF16 window of R79: each product truncated at 2^(E − 120). -/
def bf16Window (xs : List (Bool × Nat × Int)) : List (Bool × Nat × Int) :=
  let nz := xs.filter fun t => t.2.1 != 0
  match nz with
  | [] => []
  | x :: r =>
    let top (t : Bool × Nat × Int) : Int := (Nat.log2 t.2.1 : Int) + t.2.2
    let u := r.foldl (fun m t => max m (top t)) (top x) - 120
    nz.map fun t => if u ≤ t.2.2 then t else (t.1, t.2.1 / 2 ^ (u - t.2.2).toNat, u)

/-- What a block gives: a value s × 2^e, an infinity, or the canonical NaN with its invalid event. -/
inductive BlockVal
  | num (s : Int) (e : Int)
  | inf (neg : Bool)
  | nan
deriving DecidableEq, Repr, Inhabited

/-- One block of R78 and R79 with the rows of R80 for products; `xs` are the element pairs, `kz` says NZ mode. -/
def blockSum (bf : Bool) (kz : Bool) (xs : List (FVal × FVal)) : BlockVal :=
  let fix (v : FVal) : FVal := if kz && v.isNan then .num false 0 0 else v
  let ps := xs.map fun p => (fix p.1, fix p.2)
  if ps.any fun p => p.1.isNan || p.2.isNan then .nan
  else if ps.any fun p => (p.1.isInf && p.2.isZero) || (p.1.isZero && p.2.isInf) then .nan
  else
    let infs := (ps.filter fun p => p.1.isInf || p.2.isInf).map fun p => p.1.neg != p.2.neg
    if infs.contains true && infs.contains false then .nan
    else match infs with
      | n :: _ => .inf n
      | [] =>
        let prods := ps.map fun p => match p.1, p.2 with
          | .num n1 m1 e1, .num n2 m2 e2 => (n1 != n2, m1 * m2, e1 + e2)
          | _, _ => (false, 0, 0)
        let (s, e) := sumExact (if bf then bf16Window prods else prods)
        .num s e

/-- Events of a pass for the status word (R180): invalid, saturation, overflow. -/
structure PassEv where
  inv : Bool
  sat : Bool
  ovf : Bool
deriving DecidableEq, Repr, Inhabited

/-- c = Round(c + v) of R78 and R80, in FP32. -/
def accumF (c : Nat) (v : BlockVal) : Nat × PassEv :=
  let f := Fmt.f32
  match f.value false c, v with
  | .nan _, .num 0 _ => (c, ⟨false, false, false⟩)
  | .nan _, .nan => (f.nan, ⟨true, false, false⟩)
  | .nan _, _ => (f.nan, ⟨false, false, false⟩)
  | _, .nan => (f.nan, ⟨true, false, false⟩)
  | .inf n, .inf k => if n = k then (c, ⟨false, false, false⟩) else (f.nan, ⟨true, false, false⟩)
  | .num _ _ _, .inf k => (f.withSign k f.infc, ⟨false, false, false⟩)
  | .inf _, .num _ _ => (c, ⟨false, false, false⟩)
  | .num n m e, .num s q =>
    if s = 0 then (c, ⟨false, false, false⟩)
    else
      let r := sum2 f .rne n m e (decide (s < 0)) s.natAbs q
      (r.bits, ⟨false, false, r.flags &&& flOverflow != 0⟩)

/-- c = Sat(c + v, .i32) of R78. -/
def accumI (c : Nat) (v : Int) : Nat × PassEv :=
  let x := valI 32 true c + v
  (satI 32 true x, ⟨false, decide (x < intLo 32 true) || decide (intHi 32 true < x), false⟩)

/-! ### Reductions of the fabric (R350) -/

/-- One element of a .add round: the exact sum of all contributions, rounded once. -/
def fredAdd (f : Fmt) (xs : List Nat) : Nat :=
  let vs := xs.map (f.value false)
  if vs.any FVal.isNan then f.nan
  else
    let infs := (vs.filter FVal.isInf).map FVal.neg
    if infs.contains true && infs.contains false then f.nan
    else match infs with
      | n :: _ => f.withSign n f.infc
      | [] =>
        let ts := vs.map fun v => match v with | .num n m e => (n, m, e) | _ => (false, 0, 0)
        let (s, e) := sumExact ts
        if s = 0 then (if ts.all (fun t => t.1 && t.2.1 == 0) then f.withSign true 0 else 0)
        else (fpRound f .rne (decide (s < 0)) s.natAbs false e).bits

def fredMinMax (f : Fmt) (mx : Bool) (xs : List Nat) : Nat :=
  xs.foldl (fun a b => (fpMinMax f false mx a b).bits) f.nan

end Sys2Proof.Machine
end

