-- ==== Sys2Proof/Machine/State.lean ====
section
/-!
DEFINITION. The state of the Thason T8, plain data throughout, and the state after power-on. Every table is sparse: a
key that is not listed has the default its docstring names. Cores are numbered 0 to 1023 over the module, clusters 0
to 255, stewards die × 8 + n, controllers 0 to 63.
-/
namespace Sys2Proof.Machine

/-! ### Threads -/

/-- Why a thread is Parked (R18). -/
inductive ParkCause
  /-- an absent scratchpad line (R121, R355) -/
  | line
  /-- a memory event of R210 or a refused claim or reduction: the cause and the access byte -/
  | mem (cause access : Nat)
  /-- a record of the trap queue (R304): the supervisor acts -/
  | trap (kind : Nat)
  /-- a delivery that waits behind an earlier one (R131) -/
  | wait
  /-- a monitor service (R307) -/
  | monitor (fn : Nat)
deriving DecidableEq, Repr, Inhabited

/-- Why a thread is Sleeping (R18). -/
inductive SleepCause
  | group (name : Nat)
  | elect (name : Nat)
  | grow
  /-- a record of the decision queue -/
  | decision
  /-- the end of the consumer that the lane has reached (R125) -/
  | next
deriving DecidableEq, Repr, Inhabited

/-- The life-cycle states of R18. -/
inductive Status
  | ready
  | held
  | parked (c : ParkCause)
  | sleeping (c : SleepCause)
  | exited
deriving DecidableEq, Repr, Inhabited

/-- A trap of R130 that waits for its delivery: cause code, detail, address, resume header, trapping header, the
lane mask of the threads that take it together, the instruction's index and opcode. A park of order 6 that waits (code 6)
holds in `detail` its cause and access code, in `idx` one more than the flag that its instruction named, and in `opc` the cause
of the poison that it met. -/
structure TrapRec where
  code   : Nat
  detail : Nat
  addr   : DWord
  resume : DWord
  hdr    : DWord
  mask   : BitVec 32
  idx    : Nat
  opc    : Nat
  /-- the thread's sr.hnd was set when it trapped (R131) -/
  nested : Bool := false
deriving DecidableEq, Repr, Inhabited

/-- An uncorrectable error that a thread has consumed (R259, R262): record cause, fault address, clause header. -/
structure Uncorr where
  cause : Nat
  va    : DWord
  hdr   : DWord
  /-- how many regions are open up to the one to unwind; none names the innermost -/
  depth : Option Nat := none
  /-- the number from which on the thread's operations were issued after it -/
  since : Nat := 0
deriving DecidableEq, Repr, Inhabited

/-- What a thread of a Consume returns to (R125, R126): its header, its state and its formed warp. -/
structure Susp where
  pc     : DWord
  status : Status
  sub    : Nat
  warp   : Nat := 0
deriving DecidableEq, Repr, Inhabited

/-- The state of one thread (R7, R9, R15, R18, R262 to R264, R322). `pc` is the address after a header (R7); its
vector registers stand in the core's REG rows. -/
structure Thread where
  pc      : DWord
  meet    : DWord := BitVec.allOnes 64
  preds   : BitVec 48 := 0
  fp      : BitVec 5 := 0
  seed    : Word := 0
  rsc     : Word := 0
  hnd     : Bool := false
  hndRet  : DWord := 0
  level   : Nat := 0
  status  : Status := .ready
  slots   : List Nat := [0, 0, 0, 0]
  sub     : Nat := 0
  warp    : Nat := 0
  retired : Nat := 0
  pend    : List TrapRec := []
  sfPend  : Nat := 0
  /-- the address of the oldest of them, and its number among the core's records (R165) -/
  sfVa    : DWord := 0
  sfNo    : Nat := 0
  uncorr  : Option Uncorr := none
  poison  : Bool := false
  pmis    : Option Word := none
  atomN   : Nat := 0
  pairN   : Nat := 0
  /-- releases of .cl or wider numbered in a pair region (R263) -/
  relN    : Nat := 0
  /-- old values of memory atomics that wait for the trailing copy, by number; none where the atomic faulted (R263) -/
  olds    : SMap (Option DWord) := []
  pended  : Bool := false
  susp    : Option Susp := none
  /-- the header of the last clause that the thread has issued (R262 under replay) -/
  lastHdr : DWord := 0
  /-- restored by CTXLOAD and not issued since (R316, type 0x04) -/
  restored : Bool := false
  /-- an exit that the supervisor has asked for while a Consume runs (R126, R308) -/
  dying : Bool := false
  /-- the flags of failed passes: the thread consumes their error at the first clause that waits on one (R258) -/
  perr   : List Nat := []
  /-- how often the thread has been passed over while it was Ready in the formation pool (R21) -/
  passed : Nat := 0
  /-- a check of the result of the next instruction that it issues is going to fail (R83, R258) -/
  failNext : Bool := false
deriving DecidableEq, Repr, Inhabited

/-- The spin detector's record of one target header (R115): the signature of the iteration that runs, the signature of
the last complete iteration, and how many consecutive iterations had it. -/
structure Spin where
  target : DWord
  cur  : Nat
  last : Nat
  run  : Nat
deriving DecidableEq, Repr, Inhabited

/-- A formed warp (R112, R115, R116): its serial, its threads, how often it was passed over (R21), whether it is a
demoted path, how many clauses siblings have issued since, and the spin detector's records. -/
structure Warp where
  id     : Nat
  tids   : List Nat
  passed : Nat
  demoted : Bool
  sibs   : Nat
  spins  : List Spin
deriving DecidableEq, Repr, Inhabited

/-! ### Home warps -/

/-- A decision record (R119) with its push sequence number. -/
structure DqRec where
  w0 : Word
  w1 : Word
  w2 : Word
  w3 : Word
  seqNo : Nat
deriving DecidableEq, Repr, Inhabited

/-- One frame of a Basket: its entries in order, each of W words (R124). -/
structure Frame where
  entries : List (List Word)
  /-- a number that grows with each first entry, to tell the older-filled frame (R125) -/
  age : Nat
deriving DecidableEq, Repr, Inhabited

/-- A home warp's Basket (R123 to R126). `consuming` is the frame of the Consume in progress, with what follows it. -/
structure Basket where
  w       : Nat
  t       : Nat
  f0      : Frame
  f1      : Frame
  filling : Bool
  consEntry : DWord
  exitHdr : DWord
  yielded : Bool
  consuming : Option Bool
  draining  : Bool
  nexted  : List Nat
  ages    : Nat
  /-- the formed warps of the producer paths that the Consume has stopped (R125) -/
  paths   : List Warp := []
deriving DecidableEq, Repr, Inhabited

/-- A register-growth request that waits (R156): granules, the destination predicate, its operation, whose number is its
age. -/
structure Grow where
  granules : Nat
  pd   : Nat
  op   : Nat
deriving DecidableEq, Repr, Inhabited

/-- The R, W, X and U bits of a translation, which a sector carries with it (R200). -/
structure Rights where
  r : Bool := false
  w : Bool := false
  x : Bool := false
  u : Bool := false
deriving DecidableEq, Repr, Inhabited

/-- A sector logged by a region (R261): whether it is scratchpad, its address (a physical address, or an SPAD window
offset), the virtual key and the rights it has in L1, and its old bytes. -/
structure UndoSec where
  spad : Bool
  addr : Nat
  key  : Nat
  old  : List Byte
  rights : Rights := {}
deriving DecidableEq, Repr, Inhabited

/-- One member's snapshot (R261). -/
structure Snap where
  tid   : Nat
  regs  : List Word
  preds : BitVec 48
  meet  : DWord
  fp    : BitVec 5
  rsc   : Word
  slots : List Nat
  pended : Bool
deriving DecidableEq, Repr, Inhabited

/-- A containment or pair region of a home warp (R261 to R263). -/
structure Region where
  /-- the operation that opened it -/
  id : Nat
  /-- the number from which on operations were issued in it -/
  since : Nat
  members : List Nat
  strict  : Bool
  pair    : Bool
  slack   : Nat
  handler : DWord
  recReg  : Nat
  count   : Nat
  snaps   : List Snap
  scal    : SMap Word
  basket  : Option Basket
  undo    : List UndoSec
  atomics : Nat
  remotes : Nat
  closed  : List Nat
  /-- its slot of the context's containment area (R261, R278) -/
  slot    : Nat := 0
deriving DecidableEq, Repr, Inhabited

/-- A counter set (R313, R329): open, its count of 63 bits, and whether a save fell inside. -/
structure Counter where
  on    : Bool
  count : Nat
  cut   : Bool
deriving DecidableEq, Repr, Inhabited

/-- The destinations of a flagged instruction of a home warp, which the hardware tracks until the flag is zero again
(R40): the flag and its set, ranges of vector (or g) registers, ranges of scalar registers, predicates, and the threads
that the vector registers and predicates belong to. -/
structure Haz where
  sub  : Nat
  flag : Nat
  regs : List (Nat × Nat)
  scal : List (Nat × Nat)
  preds : List Nat
  /-- the threads whose registers and predicates they are -/
  tids : List Nat
deriving DecidableEq, Repr, Inhabited

/-- A home warp (R12, R13, R36, R111, R119, R127). Unlisted scalar registers and flags are 0. -/
structure HWarp where
  n      : Nat
  vb     : Nat
  /-- granted moves that have not taken effect: operation, base, count (R13) -/
  moveTo : List (Nat × Nat × Nat) := []
  scal   : SMap Word := []
  flags  : SMap Nat := []
  dq     : Option DqRec := none
  basket : Option Basket := none
  grow   : Option Grow := none
  regions : List Region := []
  /-- the region of a PAIR.OPEN that waits for the other copy (R263) -/
  opening : Option Region := none
  haz    : List Haz := []
  counters : SMap Counter := []
  /-- results of FRED that the trailing copy has not taken yet, by group × 256 + round (R351) -/
  freds  : SMap (List Word) := []
deriving DecidableEq, Repr, Inhabited

/-! ### Clauses in flight -/

/-- A location that an instruction writes: a vector register or predicate of a thread, a scalar register of a home
warp, a g register, or one of the special registers seed, fpflags, meet and hnd (R9) of a thread. -/
inductive Loc
  | v (tid n : Nat)
  | p (tid n : Nat)
  | s (hw n : Nat)
  | g (n : Nat)
  | seed (tid : Nat)
  | fp (tid : Nat)
  | meet (tid : Nat)
  | hnd (tid : Nat)
deriving DecidableEq, Repr, Inhabited

/-- A result of a fixed-latency instruction of the clause: where, what, at which nominal slot, with which latency
(R39); `raise` says that the value is ORed in (the flags of R10), `done` that the location already holds it because
threads have left the formed warp. -/
structure FWrite where
  loc   : Loc
  val   : DWord
  slot  : Nat
  lat   : Nat
  raise : Bool
  done  : Bool := false
deriving DecidableEq, Repr, Inhabited

/-- A thread of the formed warp: its lane position, its number, and whether it is active. -/
structure LaneT where
  lane   : Nat
  tid    : Nat
  active : Bool
deriving DecidableEq, Repr, Inhabited

/-- A flag of a fixed-latency instruction that clears when its result is readable (R36). -/
structure FFlag where
  hw   : Nat
  sub  : Nat
  flag : Nat
  due  : Nat
deriving DecidableEq, Repr, Inhabited

/-- How a clause ends where it does not simply continue: a switch point, or the end of the consumer for lanes (R125). -/
inductive GenEnd
  | point
  | next (tids : List Nat)
deriving DecidableEq, Repr, Inhabited

/-- One clause being issued (R45): the instance, the header, the next instruction's address, index and nominal slot,
the formed warp, the results of the clause, the values that locations held when the clause issued and that have
changed since (R39, R132), the taken targets, and the flags of fixed-latency instructions. -/
structure Issue where
  q     : Seq
  iid   : Nat
  hdrAt : DWord
  hdr   : Header
  addr  : DWord
  idx   : Nat
  slot  : Nat
  lanes : List LaneT
  writes : List FWrite := []
  olds  : List (Loc × DWord) := []
  next  : List (Nat × DWord) := []
  fflags : List FFlag := []
  gend  : Option GenEnd := none
  gopen : Option Basket := none
  stopAt : Option Nat := none
  /-- the operation of an instruction that is held at issue with some of its threads done (R229) -/
  part  : Option Nat := none
  /-- its taken targets come from a BRA, JMP, CALLI or RET (R115) -/
  back  : Bool := false
  /-- the number of the clause, which the continuations split off from it keep -/
  uid   : Nat := 0
  /-- of a continuation of R355: the threads of the formed warp that it left, whose registers a permuted read reaches -/
  ghosts : List LaneT := []
  /-- the threads that have left it as parked sub-groups of R355: a later sub-group reads their registers too -/
  parked : List LaneT := []
deriving DecidableEq, Repr, Inhabited

/-- A parked sub-group (R209, R355): its home warp, its own flags, the header it resumes at, its trapping header, and
for a park on an absent line the clause it continues. -/
structure SubGroup where
  id     : Nat
  hw     : Nat
  flags  : SMap Nat
  resume : DWord
  hdr    : DWord
  cont   : Option Issue
  va     : DWord
  /-- the scratchpad lines that the parked instruction waits for (R355) -/
  lines  : List Nat := []
  /-- of a park on a poisoned sector, the sector's physical address (R267) -/
  pa     : Nat := 0
deriving DecidableEq, Repr, Inhabited

/-! ### Operations in flight -/

/-- One home warp's share of a flagged operation: the set its flag count stands in (0 the home warp's, else a
sub-group's), and the parts still to complete (R37). -/
structure Share where
  hw   : Nat
  sub  : Nat
  left : List Nat
deriving DecidableEq, Repr, Inhabited

/-- What one thread, or one home warp or formed warp for the operations that act once, still has to do: its operands
as read at issue and how many words are done. -/
structure Part where
  tid  : Nat
  lane : Nat
  args : List DWord
  done : Nat
  arrived : Bool
deriving DecidableEq, Repr, Inhabited

/-- A store-fault record (R128). -/
structure SfRec where
  va   : DWord
  hdr  : DWord
  tid  : Nat
  inst : Nat
  cause : Nat
  idx  : Nat
  size : Nat
  stage : Nat
  seqNo : Nat
  iid  : Nat
  /-- it has entered a queue before a save of its instance: it keeps its number, and its thread has been told (R132) -/
  old  : Bool := false
deriving DecidableEq, Repr, Inhabited

/-- A flagged operation that has issued and not completed (R37, R40): the instruction, its clause and index, the time
of its issue, its shares and parts. -/
structure PendOp where
  id    : Nat
  iid   : Nat
  ins   : Instr
  hdr   : DWord
  idx   : Nat
  born  : Nat
  flag  : Option Nat
  shares : List Share
  parts : List Part
  lanes : List LaneT
  /-- records of its failing accesses, which enter the queue together (R164) -/
  sf    : List SfRec := []
deriving DecidableEq, Repr, Inhabited

/-- A pending group operation (R151): the group, the opcode, the members awaited, and the arrivals: thread, operation
and the issuing operation's number. -/
structure GroupOp where
  name   : Nat
  opc    : Nat
  await  : List Nat
  arrive : List (Nat × Nat)
deriving DecidableEq, Repr, Inhabited

/-- An election in force (R152): its group, its leader, the sleeping members with their operations. -/
structure Election where
  name   : Nat
  leader : Nat
  sleep  : List (Nat × Nat)
deriving DecidableEq, Repr, Inhabited

/-! ### Stage instances -/

/-- A level of the Guide's loop stack (R118). -/
structure LoopLv where
  start : DWord
  stop  : DWord
  count : Nat
deriving DecidableEq, Repr, Inhabited

/-- A sector of a stage instance's L1 or of an instruction cache (R122, R197, R200, R219, R220): 32 bytes, ciphertext in a sealed
world, the bytes held, those dirty, the rights of its fill, its physical address, and the counters that its bytes are under. -/
structure L1Sec where
  data  : List Byte
  have_ : BitVec 32
  dirty : BitVec 32
  rights : Rights
  pa    : Nat
  major : Nat
  minor : Nat
deriving DecidableEq, Repr, Inhabited

/-- What issues: a stage instance, a steward core's thread, a walker. -/
inductive InstKind
  | stage
  | steward
  | walker
deriving DecidableEq, Repr, Inhabited

/-- Whether an instance runs, is held at clause boundaries for a save or an interval start (R132), or ends and waits for
its regions (R19). -/
inductive InstState
  | run
  | hold
  | ending
deriving DecidableEq, Repr, Inhabited

/-- A stage instance (R19, R59, R120), or the single thread of a steward core or of a walker slot (R17, R207). The
Guide's thread has the number of the instance's threads (R158) and home warp 63. -/
structure Inst where
  kind   : InstKind
  st     : InstState := .run
  ctx    : Nat
  launch : Nat
  stage  : Nat
  core   : Nat
  no     : Nat
  gang   : Nat
  threads : Nat
  handler : DWord := 0
  preemptible : Bool := false
  paired : Bool := false
  leading : Bool := true
  partner : Option Nat := none
  repair : Bool := false
  spadBase : Nat := 0
  spadSize : Nat := 0
  accBase : Nat := 0
  accTiles : Nat := 0
  ths    : SMap Thread := []
  hws    : SMap HWarp := []
  gregs  : SMap DWord := []
  loops  : List LoopLv := []
  guide  : Bool := false
  subs   : List SubGroup := []
  warps  : List Warp := []
  gops   : List GroupOp := []
  elects : List Election := []
  l1     : SMap L1Sec := []
  born   : Nat := 0
  gRel   : Nat := 0
deriving DecidableEq, Repr, Inhabited

/-! ### Cores and clusters -/

/-- A Hamper entry (R335): the line's tag ASID and peer-window address, data and mask by byte, the time it opened, and
its first writer. -/
structure HEntry where
  asid  : Nat
  line  : Nat
  data  : SMap Byte
  opened : Nat
  limit : Nat
  ctx   : Nat
  iid   : Nat
  tid   : Nat
  inst  : Nat
  stage : Nat
  hdr   : DWord
  idx   : Nat
deriving DecidableEq, Repr, Inhabited

/-- A lane-cycle bin (R328). -/
structure Bin where
  base  : DWord
  limit : DWord
  ctl   : DWord
  cnt   : List Nat
deriving DecidableEq, Repr, Inhabited

/-- A core: the REG words by row × 32 + lane, SPAD bytes, ACC words and status words by tile (R120, R180), absent SPAD
lines (R121), the decision queue (R119), the store-fault queue and the records that wait for room (R128), the Hamper
(R335), instruction-cache sectors (R197), bins (R328), and the bin of the last clause of each partition. -/
structure Core where
  reg    : SMap Word := []
  spad   : SMap Byte := []
  acc    : SMap Word := []
  tstat  : SMap Word := []
  absent : List Nat := []
  dq     : List DqRec := []
  permits : Nat := 16
  dqSeq  : Nat := 0
  dqWait : List (Nat × Nat) := []
  sfq    : List SfRec := []
  sfWait : List SfRec := []
  sfSeq  : Nat := 0
  hamper : List HEntry := []
  icache : SMap L1Sec := []
  bins   : SMap Bin := []
  /-- the context and header of the clause that last issued on each partition (R328) -/
  lastIssued : SMap (Nat × DWord) := []
  /-- when the core last emitted its lane-cycle records (R328) -/
  laneAt : Nat := 0
deriving DecidableEq, Repr, Inhabited

/-- An operand FIFO (R174): the next position to consume, the arrived bytes by position, the next position to hand
out to a flow, and the bytes that claims have reserved. -/
structure Fifo where
  head  : Nat
  bytes : SMap Byte
  tail  : Nat
  resv  : Nat
  /-- how many positions from `head` on are committed: every earlier position has arrived (R174) -/
  comm  : Nat
  /-- positions that a pass has consumed before they arrived (R176) -/
  gaps  : List Nat := []
deriving DecidableEq, Repr, Inhabited

/-- An entry of the reservation table (R170, R186). `half` is the part number of an incomplete joint entry; `ops` are the
operations whose flags it clears, the first one posted it; `seen` are the scale registers as the posting read them, `opA`
and `opB` the operand bytes taken at the grant; `spoil` fields mark what R176 and R179 leave unspecified. -/
structure Rsv where
  iid   : Nat
  core  : Nat
  part  : Nat
  hw    : Nat
  f     : MmaF
  joint : Bool
  half  : Option Nat
  posted : Nat
  ops   : List Nat
  mask  : BitVec 64
  lanes0 : List LaneT
  lanes1 : List LaneT
  prio  : Nat
  granted : Option Nat
  timeout : Bool
  seen   : List (Loc × DWord)
  opA    : List Byte
  opB    : List Byte
  spoilTile : Bool
  spoilRows : BitVec 64
  spoilCols : BitVec 64
  /-- the scale registers written since the posting, and the clauses and nominal slots of the postings (R179) -/
  wrote  : List Loc := []
  posts  : List (Nat × Nat) := []
  /-- a check of the matrix engine or of its operand bytes has failed (R258) -/
  failed : Bool := false
deriving DecidableEq, Repr, Inhabited

/-- The steps of a cluster's test (R296). -/
inductive TestSt
  | idle
  | due (since : Nat)
  | overdue
deriving DecidableEq, Repr, Inhabited

/-- A cluster (R174, R181, R207, R296, R297). -/
structure Cluster where
  fifos : SMap Fifo := []
  resv  : SMap Rsv := []
  busy  : Nat := 0
  owner : Option Nat := none
  fenced : Bool := false
  test  : TestSt := .idle
  testAt : Nat := 0
  testIvl : Nat := 4
  walk  : Option Nat := none
deriving DecidableEq, Repr, Inhabited

/-! ### Dies -/

/-- A sector of L2 (R197, R200, R219), ciphertext in a sealed world, with the physical address and the counters of its bytes. -/
structure L2Sec where
  data  : List Byte
  dirty : BitVec 32
  rights : Rights
  pa    : Nat
  major : Nat
  minor : Nat
  ctx   : Nat
deriving DecidableEq, Repr, Inhabited

/-- A 32-byte record of the memory-event queue (R210) or of the trap queue (R304): four doublewords, the kind and the
core that MOVPS reads beside them. -/
structure QRec where
  w0 : DWord
  w1 : DWord
  w2 : DWord
  w3 : DWord
  kind : Nat
  core : Nat
deriving DecidableEq, Repr, Inhabited

/-- The states of a claim-table entry (R225). -/
inductive ClaimSt
  | free
  | walking
  | held
  | revoking
  | revoked
deriving DecidableEq, Repr, Inhabited

/-- One 4 KiB page of a claim that the walk has walked: side, page address, the physical address of its first byte, the tag ASID
and the rights of its leaf, and whether that leaf is a 2 MiB page's (R227). -/
structure ClaimPg where
  dst  : Bool
  va   : Nat
  pa   : Nat
  tag  : Nat
  rights : Rights := {}
  big  : Bool := false
deriving DecidableEq, Repr, Inhabited

/-- A claim-table entry (R225) with the walk's progress. `iid` is the instance that claimed, `op` and `tid` the command
that made the walk, `cluster` the cluster of the module, `left` bytes [31:28], `pod` the descriptor's pod word;
`walked` counts the items of the walk that are over, `granted` names the peer sides that their peer has granted (true for the
destination), `refused` is the cause with which one has been refused. -/
structure Claim where
  st    : ClaimSt := .free
  k     : Nat := 0
  ctx   : Nat := 0
  sk    : SideK := .mem
  dk    : SideK := .mem
  fifo  : Nat := 0
  cluster : Nat := 0
  src   : DWord := 0
  dst   : DWord := 0
  len   : Nat := 0
  left  : Nat := 0
  flows : Nat := 0
  rev   : Nat := 0
  fault : Nat := 0
  faultVa : DWord := 0
  gen   : Nat := 0
  peer  : Nat := 0
  pod   : Nat := 0
  iid   : Nat := 0
  op    : Nat := 0
  tid   : Nat := 0
  pages : List ClaimPg := []
  walked : Nat := 0
  /-- every item of the walk that can fail is over: only FIFO space is still waited for (R228) -/
  checked : Bool := false
  granted : List Bool := []
  refused : Nat := 0
deriving DecidableEq, Repr, Inhabited

/-- An entry of the remote-grant table (R343): who holds the claim, the export and range, its translations, the flows for which
landing-buffer space is reserved, and the agents whose revocations wait for the holder's flows. -/
structure Grant where
  src   : Nat
  srcDie : Nat
  vf    : Nat
  off   : Nat
  len   : Nat
  isDst : Bool
  pages : List ClaimPg
  space : Nat := Config.flowsPerClaim
  revoking : List Nat := []
deriving DecidableEq, Repr, Inhabited

/-- A flow in flight (R229): its claim's entry, the operation and thread whose flag it clears, source and destination
offsets, length, its FIFO position, its scope, the bytes already moved. -/
structure Flow where
  id   : Nat
  die  : Nat
  entry : Nat
  op   : Nat
  tid  : Nat
  s    : Nat
  d    : Nat
  n    : Nat
  p0   : Nat
  scope : Scope
  moved : List Nat
  /-- the bytes read from a peer, and those for a peer -/
  got  : SMap Byte := []
  sent : SMap Byte
  /-- the peer has acknowledged them -/
  acked : Bool
  /-- the peer vanished while the flow was in flight -/
  lost : Bool
deriving DecidableEq, Repr, Inhabited

/-- An entry of the compare buffer (R263): the leading access's operation and thread, its sequence number, and its
signature: kind, address, size, data. -/
structure CmpEntry where
  iid  : Nat
  tid  : Nat
  seqNo : Nat
  op   : Nat
  word : Nat
  sig  : List Nat
deriving DecidableEq, Repr, Inhabited

/-- An event of the control-flow trace (R326). -/
structure TrEvent where
  core : Nat
  hw   : Nat
  kind : Nat
  mask : BitVec 32
  target : DWord
deriving DecidableEq, Repr, Inhabited

/-- The open frame of the compression engine (R326): its header's work name, payload, dictionary, previous event. -/
structure TrFrame where
  seqNo : Nat
  ctx  : Nat
  stage : Nat
  inst : Nat
  tid  : Nat
  ivl  : Nat
  retired : Nat
  opened : Nat
  payload : List Byte
  dict : List TrEvent
  prev : TrEvent
deriving DecidableEq, Repr, Inhabited

/-- The trace of a die (R324 to R327): ring registers, per-source losses, the open frame, the closed
buffers, and the records that sources have handed over and that are not in the ring yet. -/
structure Trace where
  base : DWord := 0
  size : DWord := 0
  write : Nat := 0
  read : Nat := 0
  ctl  : DWord := 0
  lost : Nat := 0
  losses : SMap (Nat × Nat) := []
  frame : Option TrFrame := none
  closed : List (List Byte) := []
  queue  : List (Nat × List Byte) := []
  discard : Bool := false
  frameSeq : Nat := 0
  lostFrames : Option (Nat × Nat) := none
deriving DecidableEq, Repr, Inhabited

/-- A die. -/
structure Die where
  world  : Nat := 0
  walkerEntry : DWord := 0
  l2     : SMap L2Sec := []
  vc     : List Nat := [0, 0, 0, 0, 0, 0, 0, 0]
  memq   : List QRec := []
  memWait : List QRec := []
  trapq  : List QRec := []
  trapWait : List QRec := []
  claims : SMap Claim := []
  grants : SMap Grant := []
  cmp    : List CmpEntry := []
  trace  : Trace := {}
  hage   : Nat := 15
  links  : Nat := 0
  unreach : Nat := 0
  launchSeq : Nat := 0
  /-- the world key and the integrity key of a sealed die (R217, R222) -/
  worldKey : BitVec 256 := 0
  tagKey : BitVec 256 := 0
  /-- how often each context has been served in the current round of the Trailhead (R285) -/
  rr     : SMap Nat := []
deriving DecidableEq, Repr, Inhabited

/-- The trap registers of a level of a steward core (R302). -/
structure TrapRegs where
  epc   : DWord := 0
  ecause : DWord := 0
  epriv : DWord := 0
  vec   : DWord := 0
  ie    : Bool := false
  mask  : BitVec 16 := 0
  eaddr : DWord := 0
deriving DecidableEq, Repr, Inhabited

/-- A steward core (R276, R302): its trap registers at S and at M. Its thread stands in the instance table. -/
structure Steward where
  s : TrapRegs := {}
  m : TrapRegs := {}
deriving DecidableEq, Repr, Inhabited

/-! ### Translation -/

/-- A leaf that a TLB holds (R205): the tag ASID of its page (the share ASID's where G is set, R198), frame field,
level, tier, type, rights, its MIG bit, and whether migration has pinned it (`gone` marks a pinned entry to remove at its unpinning,
R309). -/
structure Leaf where
  tag   : Nat
  frame : Nat
  big   : Bool
  far   : Bool
  win   : Bool
  r     : Bool
  w     : Bool
  x     : Bool
  u     : Bool
  pin   : Bool
  mig   : Bool := false
  gone  : Bool := false
deriving DecidableEq, Repr, Inhabited

/-- A memory page as a leaf has mapped it since the last TLBINV of the page: the ASID and tag ASID, the page and its bytes, the frame and
its bytes at the leaf's controller, the rights. What breaks R199, R203, R212 or R315 shows in these (log entry 22). -/
structure Mapped where
  asid : Nat
  tag  : Nat
  va   : Nat
  vn   : Nat
  pa   : Nat
  n    : Nat
  rights : Rights
deriving DecidableEq, Repr, Inhabited

/-- Who waits for a translation: a thread's part of an operation, the fetch of a sequencer's warp, an indirect target, a
claim walk, a remote request, the poison ring of a context (R214), the completion word of a launch (R281), a monitor
service (R307). -/
inductive Asker
  | op (op tid : Nat)
  | fetch (iid tid : Nat)
  | target (iid tid : Nat)
  | claim (die entry : Nat)
  | remote (id : Nat)
  | ring (ctx : Nat)
  | word (launch : Nat)
  | monitor (k : Nat)
deriving DecidableEq, Repr, Inhabited

/-- How far a request for a translation is (R207, R211): missed, in a walk, held for the supervisor after a Service
outcome, or answered: denied with a cause of R211. -/
inductive WantSt
  | missed
  | walking
  | service
  | denied (cause : Nat)
deriving DecidableEq, Repr, Inhabited

/-- A request that missed a TLB (R207): who asks, the controller (64 + die for a window TLB), tag ASID, page, access
kind, privilege, world and context. -/
structure Want where
  id   : Nat
  who  : Asker
  ctrl : Nat
  asid : Nat
  page : Nat
  kind : Nat
  priv : Nat
  world : Nat
  ctx  : Nat
  st   : WantSt
deriving DecidableEq, Repr, Inhabited

/-- A walk (R207): what it walks, its cluster once dispatched, whether a TLBFILL was accepted, and whether a TLBINV has
overtaken it (R309). -/
structure Walk where
  ctrl : Nat
  asid : Nat
  page : Nat
  kind : Nat
  priv : Nat
  world : Nat
  ctx  : Nat
  cluster : Option Nat
  filled : Bool
  stale : Bool
  /-- a TLBINV has named another page of the same 2 MiB: the leaf of a 2 MiB page is stale -/
  staleBig : Bool := false
  /-- a TLBFILL of the stale walk has been refused: the walk restarts at its WRET -/
  again : Bool := false
deriving DecidableEq, Repr, Inhabited

/-! ### Contexts, launches, saves -/

/-- What a save keeps of an instance (R132, R286): the instance, its rows, scratchpad, tiles, queue records and
permits, the clauses held at issue, its waiting operations. -/
structure Saved where
  iid   : Nat
  inst  : Inst
  reg   : SMap Word
  spad  : SMap Byte
  acc   : SMap Word
  tstat : SMap Word
  absent : List Nat
  dq    : List DqRec
  permits : Nat
  dqWait : List (Nat × Nat)
  sfq   : List SfRec
  conts : List Issue
  ops   : List PendOp
  vc    : List Nat
  dqSeq : Nat
  /-- where the record lies, and the memory cells of its 1 MiB, which stand for its integrity tag (log entry 31) -/
  area  : Nat
  cells : List Host.Cell
  /-- the key under which its context keeps the FIFOs of its cluster (R181) -/
  fset  : Nat := 0
  /-- a test of its cluster has pre-empted it: the Trailhead restores it (R296) -/
  auto  : Bool := false
deriving DecidableEq, Repr, Inhabited

/-- The fields of the context control block as the hardware last read it (R278). -/
structure Ccb where
  asid  : Nat := 0
  sasid : Nat := 0
  root  : Nat := 0
  ibase : Nat := 0
  ik    : Nat := 0
  world : Nat := 0
  vf    : Nat := 0
  prio  : Nat := 0
  weight : Nat := 0
  fhtrap : Bool := false
  inj   : Bool := false
  cki   : Bool := false
  recB  : Bool := false
  rplB  : Bool := false
  repair : Nat := 0xFF
  slots : Nat := 0
  contArea : Nat := 0
  saveArea : Nat := 0
  undoArea : Nat := 0
  undoSize : Nat := 0
  ivl   : Nat := 0
  logPa : Nat := 0
  poison : Nat := 0
  repairLaunch : Nat := 0
deriving DecidableEq, Repr, Inhabited

/-- The live log ring registers of a context and its sources' sequence numbers (R314, R316). `held` are the records of
decisions that wait for room, `ready` those written since, `waits` the other sources that stall, with the room that each needs (in
replay, where a source waits for a record, 0 once the supervisor has been told of it), `next` the record that replay has applied to a source,
`taken` the indexes beyond `replay` that it has consumed, `diverge` the case and record of a divergence found. -/
structure LogRing where
  base  : Nat := 0
  size  : Nat := 0
  thresh : Nat := 0
  producer : Nat := 0
  consumer : Nat := 0
  replay : Nat := 0
  waits : SMap Nat := []
  diverged : Bool := false
  stopped : Bool := false
  partner : Nat := 0
  pvalid : Bool := false
  seqs  : SMap Nat := []
  taken : List Nat := []
  above : Bool := false
  held  : List (Nat × List Byte) := []
  ready : List (Nat × List Byte) := []
  next  : SMap (Nat × List Byte) := []
  diverge : Option (Nat × Nat) := none
deriving DecidableEq, Repr, Inhabited

/-- An entry of an interval's undo log (R289): physical address of the sector, its virtual address, its old
plaintext, and the cause of its poison, if it was poisoned. -/
structure UndoRec where
  pa  : Nat
  va  : Nat
  old : List Byte
  oldPoison : Option Nat
deriving DecidableEq, Repr, Inhabited

/-- What waits to be written for a context in which threads park on poison (R214): a poison record, with its sector's VA, cause and tag
ASID, and the memory-event record of the park, which comes after it, with its die. -/
inductive RingItem
  | poison (va cause tag : Nat)
  | event (die : Nat) (r : QRec)
deriving DecidableEq, Repr, Inhabited

/-- A context (R201, R225, R278, R289, R314, R322). Unlisted handles are Free: h maps to die × 256 + entry. -/
structure Ctx where
  ccb    : Ccb := {}
  known  : Bool := false
  handles : SMap Nat := []
  /-- the cause and VA of the last claim fault on each handle (R225) -/
  faults : SMap (Nat × DWord) := []
  ivlNo  : Nat := 0
  ivlOn  : Bool := false
  ivlAt  : Nat := 0
  snap   : List Saved := []
  /-- the instances of the context that were saved already when the interval started -/
  snapSaved : List Saved := []
  snapClusters : SMap (SMap Fifo) := []
  /-- the handles at the interval's start, each with its entry and the entry's generation × 2048 -/
  snapHandles : SMap Nat := []
  undo   : List UndoRec := []
  /-- the sectors for which a service of the monitor waits for room in the undo area (R289) -/
  undoWant : Nat := 0
  unlogged : Bool := false
  log    : LogRing := {}
  /-- the signatures of intervals that have no partner's to be compared with yet, the oldest first (R321) -/
  sigs   : List Nat := []
  fatal  : Bool := false
  stop0  : DWord := 0
  stop1  : DWord := 0
  stop2  : DWord := 0
  armed  : Bool := false
  /-- the replay that runs stops at the work name (R323) -/
  stopOn : Bool := false
  events : SMap Nat := []
  fifos  : SMap (SMap Fifo) := []
  poisoned : List RingItem := []
  repairNo : Nat := 0
  cerr   : Option Uncorr := none
deriving DecidableEq, Repr, Inhabited

/-- A virtual function's control block and export (R279, R332). -/
structure Vf where
  world  : Nat := 0
  scopeLim : Bool := false
  trapDemote : Bool := false
  demoteCnt : Nat := 0
  clusters : Nat := 0
  ctrls  : Nat := 0
  diesM  : Nat := 0
  fpid   : Nat := 0
  live   : Bool := false
  r      : Bool := false
  w      : Bool := false
  ectx   : Nat := 0
  base   : DWord := 0
  len    : Nat := 0
  /-- the fabric key of its world, installed with the export (R345) -/
  fkey   : BitVec 256 := 0
deriving DecidableEq, Repr, Inhabited

/-- A stage of a live launch (R59): its record, its handler, and what is still to place. -/
structure StageSt where
  entry  : DWord
  guide  : DWord
  threads : Nat
  regs   : Nat
  acc    : Nat
  preemptible : Bool
  paired : Bool
  record : Bool
  queued : Bool
  spad   : Nat
  pref   : Nat
  fall   : Nat
  prio   : Nat
  param  : List Byte
  seed   : Word
  image  : List Byte
  handler : DWord
  total  : Nat
  placed : Nat
  pendGang : List Nat
  waitFrom : Nat
  aged   : Bool := false
deriving DecidableEq, Repr, Inhabited

/-- A stage queue (R59, R161): its record and the records it holds. The trailing copies of a paired stage have a queue of their
own (R163). -/
structure StageQ where
  producer : Nat
  consumer : Nat
  recSize : Nat
  cap    : Nat
  high   : Nat
  low    : Nat
  recs   : List (List DWord)
  seqNo  : Nat
  trail  : List (List DWord) := []
  trailNo : Nat := 0
deriving DecidableEq, Repr, Inhabited

/-- A live launch (R280, R281). -/
structure Launch where
  id     : Nat
  die    : Nat
  ctx    : Nat
  prio   : Nat
  completion : DWord
  stages : List StageSt
  queues : List StageQ
  /-- the context that issued it -/
  by_    : Nat
  started : Bool
  /-- an instance of it has been ended by a fatal error (R281) -/
  dead   : Bool := false
deriving DecidableEq, Repr, Inhabited

/-- What the far checkpoint area holds besides plain bytes (R291): the saved instances, with the contexts and launches they belong
to, as CKPT.mem found them. -/
structure Ckpt where
  saved  : List Saved
  ctxs   : SMap Ctx
  launches : List Launch
deriving DecidableEq, Repr, Inhabited

/-! ### Between dies and between modules -/

/-- A write on its way between dies, or to its own die's L2 where it has to wait (R244, R215): its source, its sector with its
physical address and rights, its bytes under their counters, its vector clock, and the instance it comes from. -/
structure D2d where
  id   : Nat
  src  : Nat
  dst  : Nat
  key  : Nat
  ctx  : Nat
  world : Nat
  data : List Byte
  mask : BitVec 32
  major : Nat
  minor : Nat
  vc   : List Nat
  pa   : Nat
  rights : Rights := {}
  iid  : Nat := 0
deriving DecidableEq, Repr, Inhabited

/-- The stages of a migration (R215). -/
inductive MigSt
  | draining
  | copied
  | done
deriving DecidableEq, Repr, Inhabited

/-- What the hold queue of a migration holds: a thread's part of an atomic or a PREPAIR, another module's request, a store's bytes. -/
inductive Held
  | op (op tid : Nat)
  | served (id : Nat)
  | store (m : D2d)
deriving DecidableEq, Repr, Inhabited

/-- A migration at a controller (R215): page, destination, its stage, and the operations held in arrival order. -/
structure Mig where
  ctrl : Nat
  asid : Nat
  page : Nat
  big  : Bool
  far  : Bool
  frame : Nat
  st   : MigSt
  held : List Held
deriving DecidableEq, Repr, Inhabited

/-- What a request asks of the module that it reaches (R332, R337, R339, R343, R347). -/
inductive SKind
  | write
  | load
  | atomic (op : AOp) (ty : ATy) (cas : Bool) (b c : DWord)
  | grant (die len : Nat) (isDst : Bool)
deriving DecidableEq, Repr, Inhabited

/-- What an unacknowledged request of the module is for (R334, R337, R339, R343, R347, R349). `own` are bytes of a load that the issuing
core's Hamper held (R250); `refused` is the cause with which a destination of an MCAST has refused, or its thread's access has failed
at issue; a flow sends lines to a peer and fetches bytes from one. -/
inductive FKind
  | write (e : HEntry)
  | load (op tid word : Nat) (own : SMap Byte)
  | atomic (op tid : Nat)
  | mcast (op tid member : Nat) (rec : SfRec) (refused : Nat)
  | grant (die entry : Nat) (dst : Bool)
  | flow (flow : Nat)
  | fetch (flow byte : Nat)
deriving DecidableEq, Repr, Inhabited

/-- A request sent and not yet acknowledged: core, tag ASID, context, peer, offset there, when it was sent, its packet and what that asks. -/
structure FReq where
  id   : Nat
  core : Nat
  asid : Nat
  ctx  : Nat
  peer : Nat
  off  : Nat
  sent : Nat
  pkt  : Packet
  ask  : SKind
  kind : FKind
deriving DecidableEq, Repr, Inhabited

/-- A contribution to a switch reduction (R349): its number, operation, home warp part, group, round, elements. -/
structure Contrib where
  id    : Nat
  op    : Nat
  tid   : Nat
  group : Nat
  round : Nat
  bf    : Bool
  fop   : FrOp
  elems : List Nat
deriving DecidableEq, Repr, Inhabited

/-- A request in service that another module has sent, or this one to itself (R331). -/
structure Served where
  id  : Nat
  pkt : Packet
  kind : SKind
deriving DecidableEq, Repr, Inhabited

/-- An answer the module has sent (R337, R338): a packet of class 1 with the sequence number of its request, and the refusal cause or 0. -/
structure Answer where
  pkt   : Packet
  cause : Nat
deriving DecidableEq, Repr, Inhabited

/-- A page that the monitor has mapped into a sealed context (R288): its frame's physical address, tag ASID, VA, and
whether it is writable. -/
structure MapRec where
  ctx   : Nat
  frame : Nat
  tag   : Nat
  va    : Nat
  w     : Bool
deriving DecidableEq, Repr, Inhabited

/-- The monitor's memory (R278, R288, R292, R294, R299): page ownership by frame, measurements, unmeasured regions and measured
code by context, its copies of the control blocks of sealed contexts, its mappings, and what it has sent over the management
port. -/
structure Monitor where
  owner  : SMap Nat := []
  meas   : SMap (List Byte) := []
  unmeas : SMap (List (Nat × Nat)) := []
  code   : SMap (List (Nat × Nat)) := []
  chain  : List Byte := List.replicate 64 0
  activating : Bool := false
  next   : Option BootImage := none
  telemetry : Nat := 0
  blocks : SMap (List Byte) := []
  maps   : List MapRec := []
  sent   : List (List Byte) := []
deriving DecidableEq, Repr, Inhabited

/-! ### The machine -/

/-- A machine stop. The spec gives every stop of the machine as a trap or as a halted state, so no step of this model
faults. -/
inductive Fault
  /-- raised by `exec` of an encoded instruction when no sequencer in focus has a clause in flight: nothing issues it;
  `step` never asks for this (safe: the hardware has no such execution) -/
  | noClause
deriving DecidableEq, Repr, Inhabited

/-- Why an instruction has no next state. -/
inductive Refusal
  /-- raised by the arm of an instruction that has no meaning yet (safe: the machine stops where the hardware goes on) -/
  | notModelled (mnemonic : String)
deriving DecidableEq, Repr, Inhabited

/-- The whole module. `agenda`, `focus`, `now`, `fresh` and `nextId` are the model's own (log entries 3, 4, 5). -/
structure State where
  agenda  : List Turn
  focus   : Option Seq
  now     : Nat
  fresh   : Nat
  nextId  : Nat
  mem     : List Host.Cell
  /-- the side band of memory: the cause of each poisoned sector (R213, R214), and the integrity tags, whose value at power-on
  nothing gives (R222) -/
  poisonM : SMap Nat
  stags   : SMap (BitVec 32)
  /-- the requests that the supervisor has released, in arrival order, with their page (R211) -/
  resumed : List (Asker × Nat)
  dies    : SMap Die
  clusters : SMap Cluster
  cores   : SMap Core
  stewards : SMap Steward
  insts   : SMap Inst
  issues  : List Issue
  ops     : List PendOp
  ctxs    : SMap Ctx
  vfs     : SMap Vf
  launches : List Launch
  /-- the launches of each context as they stood at its interval's start (R289) -/
  snapLaunches : SMap (List Launch)
  saved   : List Saved
  tlb     : SMap Leaf
  /-- the mappings in use, and the physical ranges whose loads a broken rule of R199, R203, R212 or R315 leaves undefined (R353) -/
  mapped  : List Mapped
  spoiled : List (Nat × Nat)
  wants   : List Want
  walks   : List Walk
  migs    : List Mig
  flows   : List Flow
  d2d     : List D2d
  freqs   : List FReq
  contribs : List Contrib
  served  : List Served
  answers : List Answer
  rxSeq   : SMap Nat
  down    : List Nat
  probing : List Nat
  modId   : Nat
  monitor : Monitor
  halted  : Bool
  throttled : Bool
  ckptOp  : Option Nat
  ckpt    : Option Ckpt
  booted  : Bool
deriving DecidableEq, Repr, Inhabited

/-! ### Reset -/

/-- The number that stands for no context, in a steward's or a walker's thread: context numbers have 16 bits. -/
def noCtx : Nat := 65536

/-- The thread of a steward core at power-on: no register of it has a reset value in the spec, so all are 0 (log entry
2); the monitor's core runs at M, the others at S (R276). -/
def stewardInst (k : Nat) : Inst :=
  { kind := .steward, ctx := noCtx, launch := 0, stage := 0, core := k, no := 0, gang := 1, threads := 1
    ths := [(0, { pc := 8, level := if k % 8 = 0 then 2 else 1 })]
    hws := [(0, { n := 256, vb := 0 })] }

/-- Instance numbers: stewards have 0 to 63, walkers 64 to 319 by cluster, stage instances the numbers above. -/
def stewardId (die n : Nat) : Nat := die * 8 + n
def walkerId (cluster : Nat) : Nat := 64 + cluster
def firstId : Nat := 320

/-- The module after power-on (R298): every die in world 0, nothing placed, memory with nothing listed. -/
def State.reset : State :=
  { agenda := [], focus := none, now := 0, fresh := 0, nextId := firstId, mem := [], poisonM := []
    stags := [], resumed := []
    dies := [], clusters := [], cores := [], stewards := []
    insts := (List.range 64).map fun k => (k, stewardInst k)
    issues := [], ops := [], ctxs := [], vfs := [], launches := [], snapLaunches := [], saved := [], tlb := [], mapped := [], spoiled := [], wants := [], walks := []
    migs := [], flows := [], d2d := [], freqs := [], contribs := [], served := [], answers := [], rxSeq := []
    down := [], probing := [], modId := 0, monitor := {}, halted := false, throttled := false, ckptOp := none, ckpt := none
    booted := false }

end Sys2Proof.Machine
end

