-- ==== Sys2Proof/Machine/Ops.lean ====
section
/-!
DEFINITION. The named operations over the state that every meaning uses: access to the parts of the machine,
registers, physical memory, the supervisor's queues, taking an exception (R130, R131, R302, R304), and
the events of a trace (R324 to R327).
-/
namespace Sys2Proof.Machine

open Host (Outcome)

/-! ### Parts of the machine -/

def State.core (s : State) (c : Nat) : Core := sget {} s.cores c
def State.setCore (s : State) (c : Nat) (k : Core) : State := { s with cores := sset {} s.cores c k }
def State.modCore (s : State) (c : Nat) (f : Core → Core) : State := s.setCore c (f (s.core c))
def State.die (s : State) (d : Nat) : Die := sget {} s.dies d
def State.setDie (s : State) (d : Nat) (x : Die) : State := { s with dies := sset {} s.dies d x }
def State.modDie (s : State) (d : Nat) (f : Die → Die) : State := s.setDie d (f (s.die d))
def State.cluster (s : State) (c : Nat) : Cluster := sget {} s.clusters c
def State.setCluster (s : State) (c : Nat) (x : Cluster) : State := { s with clusters := sset {} s.clusters c x }
def State.modCluster (s : State) (c : Nat) (f : Cluster → Cluster) : State := s.setCluster c (f (s.cluster c))
def State.steward (s : State) (k : Nat) : Steward := sget {} s.stewards k
def State.setSteward (s : State) (k : Nat) (x : Steward) : State := { s with stewards := sset {} s.stewards k x }
def State.ctx (s : State) (c : Nat) : Ctx := sget {} s.ctxs c
def State.setCtx (s : State) (c : Nat) (x : Ctx) : State := { s with ctxs := sset {} s.ctxs c x }
def State.modCtx (s : State) (c : Nat) (f : Ctx → Ctx) : State := s.setCtx c (f (s.ctx c))
def State.vf (s : State) (v : Nat) : Vf := sget {} s.vfs v
def State.setVf (s : State) (v : Nat) (x : Vf) : State := { s with vfs := sset {} s.vfs v x }
def State.inst? (s : State) (iid : Nat) : Option Inst := find? s.insts iid
def State.inst (s : State) (iid : Nat) : Inst := (find? s.insts iid).getD default
def State.setInst (s : State) (iid : Nat) (i : Inst) : State := { s with insts := sput s.insts iid i }
def State.modInst (s : State) (iid : Nat) (f : Inst → Inst) : State := { s with insts := smod s.insts iid f }

def Inst.th? (i : Inst) (tid : Nat) : Option Thread := find? i.ths tid
def Inst.th (i : Inst) (tid : Nat) : Thread := (find? i.ths tid).getD default
def Inst.setTh (i : Inst) (tid : Nat) (t : Thread) : Inst := { i with ths := sput i.ths tid t }
def Inst.modTh (i : Inst) (tid : Nat) (f : Thread → Thread) : Inst := { i with ths := smod i.ths tid f }
def Inst.hw (i : Inst) (h : Nat) : HWarp := (find? i.hws h).getD { n := 8, vb := 0 }
def Inst.setHw (i : Inst) (h : Nat) (w : HWarp) : Inst := { i with hws := sput i.hws h w }
def Inst.modHw (i : Inst) (h : Nat) (f : HWarp → HWarp) : Inst := { i with hws := smod i.hws h f }
def State.modTh (s : State) (iid tid : Nat) (f : Thread → Thread) : State := s.modInst iid (·.modTh tid f)
def State.modHw (s : State) (iid h : Nat) (f : HWarp → HWarp) : State := s.modInst iid (·.modHw h f)

/-- The key of the Guide's home warp in tables; records say 0xFF and INTCTL says 63 (R304, R308). -/
def guideHw : Nat := 63
/-- Whether a thread is the Guide: its number is the instance's thread count (R158). -/
def Inst.isGuide (i : Inst) (tid : Nat) : Bool := i.guide && tid == i.threads
/-- Home warp and home lane (R11); a thread of a steward core or walker has both 0 (R17). -/
def Inst.hwOf (i : Inst) (tid : Nat) : Nat := if i.isGuide tid then guideHw else tid / 32
def Inst.laneOf (i : Inst) (tid : Nat) : Nat := if i.isGuide tid then 0 else tid % 32

/-- The number of the register store: the core's, or one of its own for a steward core or walker slot. -/
def Inst.bank (i : Inst) (iid : Nat) : Nat := if i.kind == .stage then i.core else 1024 + iid
/-- The die something issues on. -/
def Inst.die (i : Inst) (iid : Nat) : Nat :=
  match i.kind with
  | .stage => i.core / Config.coresPerDie
  | .steward => iid / Config.stewardsPerDie
  | .walker => (iid - 64) / Config.clustersPerDie
def Inst.cluster (i : Inst) : Nat := i.core / 4
/-- A trailing copy (R263). -/
def Inst.trailing (i : Inst) : Bool := i.paired && !i.leading
/-- The launch of an instance, and whether a stage of it runs in copies. -/
def State.launchOf (s : State) (i : Inst) : Option Launch := s.launches.find? fun (l : Launch) => l.id == i.launch
def State.pairedStage (s : State) (i : Inst) (k : Nat) : Bool := (s.launchOf i).elim false fun l => (l.stages.getD k default).paired
/-- The sides of a stage queue (R161, R163): the trailing copies' own (true), and that of every other instance. -/
def StageQ.held (x : StageQ) (trail : Bool) : List (List DWord) := if trail then x.trail else x.recs
def StageQ.num (x : StageQ) (trail : Bool) : Nat := if trail then x.trailNo else x.seqNo
def StageQ.put (x : StageQ) (trail : Bool) (rs : List (List DWord)) : StageQ := if trail then { x with trail := rs } else { x with recs := rs }
def StageQ.count (x : StageQ) (trail : Bool) : StageQ :=
  if trail then { x with trailNo := (x.trailNo + 1) % 2 ^ 32 } else { x with seqNo := (x.seqNo + 1) % 2 ^ 32 }
/-- The sides that a record of a producer joins: its own one, and where only the consumer runs in copies both. The side of a
trailing producer whose consumer has no copies has no reader and takes nothing. -/
def Inst.sides (i : Inst) (both : Bool) : List Bool :=
  if i.trailing then (if both then [true] else []) else if both && !i.paired then [false, true] else [false]

/-- A new number for an operation, warp, instance, sub-group, flow or request. -/
def State.newId (s : State) : Nat × State := (s.nextId, { s with nextId := s.nextId + 1 })
/-- A value that the spec leaves open (log entry 4). -/
def State.free (s : State) : DWord × State := (Config.freeValue s.fresh, { s with fresh := s.fresh + 1 })

/-! ### Registers -/

def regKey (row lane : Nat) : Nat := row * 32 + lane

/-- The value that a location holds now. p0 reads true (R8). -/
def State.readLoc (s : State) (iid : Nat) (l : Loc) : DWord :=
  let i := s.inst iid
  match l with
  | .v t n => ((sget 0 (s.core (i.bank iid)).reg (regKey ((i.hw (i.hwOf t)).vb + n) (i.laneOf t)) : Word)).setWidth 64
  | .p t n => if n = 0 then 1 else if (i.th t).preds.getLsbD n then 1 else 0
  | .s h n => (sget (0 : Word) (i.hw h).scal n).setWidth 64
  | .g n => sget 0 i.gregs n
  | .seed t => (i.th t).seed.setWidth 64
  | .fp t => (i.th t).fp.setWidth 64
  | .meet t => (i.th t).meet
  | .hnd t => if (i.th t).hnd then 1 else 0

/-- The bits of a predicate file with one predicate written; a write to p0 is discarded (R8). -/
def setPred (ps : BitVec 48) (n : Nat) (b : Bool) : BitVec 48 :=
  if n = 0 then ps else if b then ps ||| BitVec.twoPow 48 n else ps &&& ~~~(BitVec.twoPow 48 n)

/-- Writes a location. -/
def State.writeLoc (s : State) (iid : Nat) (l : Loc) (x : DWord) : State :=
  let i := s.inst iid
  match l with
  | .v t n => s.modCore (i.bank iid) fun k =>
      { k with reg := sset 0 k.reg (regKey ((i.hw (i.hwOf t)).vb + n) (i.laneOf t)) (x.setWidth 32) }
  | .p t n => s.modTh iid t fun th => { th with preds := setPred th.preds n (x.getLsbD 0) }
  | .s h n => s.modHw iid h fun w => { w with scal := sset 0 w.scal n (x.setWidth 32) }
  | .g n => s.modInst iid fun i => { i with gregs := sset 0 i.gregs n x }
  | .seed t => s.modTh iid t fun th => { th with seed := x.setWidth 32 }
  | .fp t => s.modTh iid t fun th => { th with fp := x.setWidth 5 }
  | .meet t => s.modTh iid t fun th => { th with meet := x }
  | .hnd t => s.modTh iid t fun th => { th with hnd := x.getLsbD 0 }

/-- The value a location had when the clause issued is recorded before something other than the clause's own
fixed-latency instructions changes it (R39, R132). -/
def Issue.remember (is : Issue) (l : Loc) (old : DWord) : Issue :=
  if is.olds.any (fun p => p.1 == l) then is else { is with olds := (l, old) :: is.olds }

/-- The clause of a sub-group parked on a scratchpad line records old values too (R355). -/
def Inst.rememberConts (i : Inst) (l : Loc) (old : DWord) : Inst :=
  { i with subs := i.subs.map fun (g : SubGroup) => { g with cont := g.cont.map fun c => c.remember l old } }

/-- A number for a location. -/
def Loc.key : Loc → Nat
  | .v t n => 8 * (t * 256 + n)
  | .p t n => 8 * (t * 256 + n) + 1
  | .s h n => 8 * (h * 256 + n) + 2
  | .g n => 8 * n + 3
  | .seed t => 8 * t + 4
  | .fp t => 8 * t + 5
  | .meet t => 8 * t + 6
  | .hnd t => 8 * t + 7

/-- The signature of the iterations that run takes in values (R115). -/
def Spin.feed (p : Spin) (xs : List Nat) : Spin := { p with cur := Config.spinHash (p.cur :: xs) }
def Inst.spinFeed (i : Inst) (f : Nat → Bool) (xs : List Nat) : Inst :=
  { i with warps := i.warps.map fun (w : Warp) =>
      if w.tids.any f then { w with spins := w.spins.map fun (p : Spin) => p.feed xs } else w }
/-- The threads whose iteration a register, scalar register or predicate written belongs to. -/
def Inst.feedLoc (i : Inst) (l : Loc) (x : DWord) : Inst :=
  match l with
  | .v t _ | .p t _ => i.spinFeed (· == t) [l.key, x.toNat]
  | .s h _ => i.spinFeed (fun t => i.hwOf t == h) [l.key, x.toNat]
  | _ => i

/-- A write that does not come from the fixed-latency instructions of the writer's own clause. -/
def State.asyncWrite (s : State) (iid : Nat) (l : Loc) (x : DWord) : State :=
  let old := s.readLoc iid l
  let issues := s.issues.map fun (is : Issue) => if is.iid = iid then is.remember l old else is
  (({ s with issues } : State).modInst iid fun i => (i.rememberConts l old).feedLoc l x).writeLoc iid l x

/-- A request of an instance whose scale registers hold a location (R178). -/
def Rsv.scaleLoc (r : Rsv) (iid : Nat) (l : Loc) : Bool :=
  match l with
  | .v t n => r.iid == iid && r.f.ta.fourBit && (r.lanes0 ++ r.lanes1).any (fun x => x.tid == t) &&
      r.f.scales.any fun u => decide (u.first ≤ n) && decide (n < u.first + u.n)
  | _ => false
/-- Scale registers of pending requests have been written (R179). -/
def State.noteScale (s : State) (iid : Nat) (ls : List Loc) : State :=
  let k := (s.inst iid).core / 4
  if (s.cluster k).resv.any fun p => ls.any fun l => p.2.scaleLoc iid l then
    s.modCluster k fun c => { c with resv := c.resv.map fun (p : Nat × Rsv) =>
      (p.1, { p.2 with wrote := (ls.filter fun l => p.2.scaleLoc iid l) ++ p.2.wrote }) }
  else s

/-- A result of an operation in its place: what earlier instructions of a clause in flight have written there is not written again at
the clause's end, since a result never replaces a later one (R39). -/
def Issue.retire (is : Issue) (ls : List Loc) : Issue :=
  { is with writes := is.writes.map fun (w : FWrite) => if ls.contains w.loc then { w with done := true } else w }
def State.retire (s : State) (iid : Nat) (ls : List Loc) : State :=
  ({ s with issues := s.issues.map fun (x : Issue) => if x.iid = iid then x.retire ls else x } : State).modInst iid fun i =>
    { i with subs := i.subs.map fun (g : SubGroup) => { g with cont := g.cont.map fun c => c.retire ls } }
def State.asyncWrites (s : State) (iid : Nat) (ws : List (Loc × DWord)) : State :=
  ws.foldl (fun s w => s.asyncWrite iid w.1 w.2) ((s.noteScale iid (ws.map (·.1))).retire iid (ws.map (·.1)))

/-- Raises floating-point flags in a thread (R75). A clause in flight that has written sr.fpflags holds them too, so that its
end does not lose them (R10). -/
def State.raiseFp (s : State) (iid tid : Nat) (fl : BitVec 5) : State :=
  if fl = 0 then s
  else
    let s := s.asyncWrite iid (.fp tid) (s.readLoc iid (.fp tid) ||| fl.setWidth 64)
    { s with issues := s.issues.map fun (is : Issue) =>
        if is.iid = iid && is.writes.any fun w => w.loc == .fp tid && !w.raise && !w.done then
          { is with writes := ⟨.fp tid, fl.setWidth 64, is.slot, 0, true, false⟩ :: is.writes }
        else is }

/-! ### Bytes -/

/-- The n low bytes of a number, and back. -/
def bytesOf (n w : Nat) : List Byte := leBytes n w
def natOf (bs : List Byte) : Nat := leNat bs
/-- A byte of a list by position, 0 beyond it. -/
def nthByte (bs : List Byte) (k : Nat) : Byte := bs.getD k 0
/-- 32 bytes with those of a mask replaced. -/
def mergeBytes (old new : List Byte) (mask : BitVec 32) : List Byte :=
  (List.range 32).map fun k => if mask.getLsbD k then nthByte new k else nthByte old k

/-! ### Physical memory (R195) -/

/-- What a byte that nothing has written reads as (log entry 1). -/
def unlistedByte : Byte := 0

/-- The canonical form of the memory list: addresses strictly rising, no entry equal to an unlisted byte. -/
def Memory.wf (m : List Host.Cell) : Bool := SMap.wf unlistedByte m

def State.byteAt (s : State) (pa : Nat) : Byte := sget unlistedByte s.mem pa
def State.setByte (s : State) (pa : Nat) (b : Byte) : State := { s with mem := sset unlistedByte s.mem pa b }
def State.bytesAt (s : State) (pa n : Nat) : List Byte := (List.range n).map fun k => s.byteAt (pa + k)
def State.setBytes (s : State) (pa : Nat) : List Byte → State
  | [] => s
  | b :: r => (s.setByte pa b).setBytes (pa + 1) r

/-- The fields of a physical address. -/
def paWindow (pa : Nat) : Bool := pa / 2 ^ 47 % 2 == 1
def paCtrl (pa : Nat) : Nat := pa / 2 ^ 41 % 64
def paFar (pa : Nat) : Bool := pa / 2 ^ 40 % 2 == 1
def paLocal (pa : Nat) : Nat := pa % 2 ^ 36
def mkPa (ctrl : Nat) (far : Bool) (off : Nat) : Nat := ctrl * 2 ^ 41 + far.toNat * 2 ^ 40 + off
def paDie (pa : Nat) : Nat := if paWindow pa then pa / 2 ^ 44 % 8 else paCtrl pa / 8
def paCore (pa : Nat) : Nat := paDie pa * Config.coresPerDie + pa / 2 ^ 37 % 128
def paRegion (pa : Nat) : Nat := pa / 2 ^ 35 % 4
def paOff (pa : Nat) : Nat := pa % 2 ^ 19
def localLimit (far : Bool) : Nat := if far then 0x800000000 else 0x300000000

/-- Whether a number is a physical address (R195). -/
def validPa (pa : Nat) : Bool :=
  decide (pa < 2 ^ 48) &&
    (if paWindow pa then paRegion pa != 3 && pa / 2 ^ 19 % 2 ^ 16 == 0
     else pa / 2 ^ 36 % 16 == 0 && decide (paLocal pa < localLimit (paFar pa)))

/-- One byte of a core's banked store through its windows (R120). -/
def Core.winByte (k : Core) (region off : Nat) : Byte :=
  match region with
  | 0 => ((sget (0 : Word) k.reg (off / 4)) >>> (8 * (off % 4))).setWidth 8
  | 1 => sget 0 k.spad off
  | _ => ((sget (0 : Word) k.acc (off / 4)) >>> (8 * (off % 4))).setWidth 8

/-- A word with one byte replaced. -/
def putByte (w : Word) (k : Nat) (b : Byte) : Word :=
  (w &&& ~~~((0xFF : Word) <<< (8 * k))) ||| (b.setWidth 32 <<< (8 * k))

def Core.setWinByte (k : Core) (region off : Nat) (b : Byte) : Core :=
  match region with
  | 0 => { k with reg := sset 0 k.reg (off / 4) (putByte (sget 0 k.reg (off / 4)) (off % 4) b) }
  | 1 => { k with spad := sset 0 k.spad off b }
  | _ => { k with acc := sset 0 k.acc (off / 4) (putByte (sget 0 k.acc (off / 4)) (off % 4) b) }

/-- A byte at a physical address, memory or window. -/
def State.physByte (s : State) (pa : Nat) : Byte :=
  if paWindow pa then (s.core (paCore pa)).winByte (paRegion pa) (paOff pa) else s.byteAt pa
def State.setPhysByte (s : State) (pa : Nat) (b : Byte) : State :=
  if paWindow pa then s.modCore (paCore pa) fun k => k.setWinByte (paRegion pa) (paOff pa) b else s.setByte pa b
def State.physBytes (s : State) (pa n : Nat) : List Byte := (List.range n).map fun k => s.physByte (pa + k)
def State.setPhysBytes (s : State) (pa : Nat) : List Byte → State
  | [] => s
  | b :: r => (s.setPhysByte pa b).setPhysBytes (pa + 1) r

/-! ### The supervisor's queues (R210, R304) -/

/-- A record joins the memory-event queue, or waits at its source while the queue is full. -/
def State.pushMem (s : State) (d : Nat) (r : QRec) : State :=
  s.modDie d fun x =>
    if x.memWait.isEmpty && decide (x.memq.length < Config.memqSize) then { x with memq := x.memq ++ [r] }
    else { x with memWait := x.memWait ++ [r] }
def State.pushTrap (s : State) (d : Nat) (r : QRec) : State :=
  s.modDie d fun x =>
    if x.trapWait.isEmpty && decide (x.trapq.length < Config.trapqSize) then { x with trapq := x.trapq ++ [r] }
    else { x with trapWait := x.trapWait ++ [r] }

/-- Removing the head lets a waiting record in. -/
def State.popMem (s : State) (d : Nat) : State :=
  s.modDie d fun x => match x.memWait with
    | [] => { x with memq := x.memq.drop 1 }
    | w :: r => if x.memq.isEmpty then x else { x with memq := x.memq.drop 1 ++ [w], memWait := r }
def State.popTrap (s : State) (d : Nat) : State :=
  s.modDie d fun x => match x.trapWait with
    | [] => { x with trapq := x.trapq.drop 1 }
    | w :: r => if x.trapq.isEmpty then x else { x with trapq := x.trapq.drop 1 ++ [w], trapWait := r }

/-- A record from its 32 bytes. -/
def qrecOf (bs : List Byte) (kind core : Nat) : QRec :=
  let w (k : Nat) : DWord := BitVec.ofNat 64 (natOf ((bs.drop (8 * k)).take 8))
  ⟨w 0, w 1, w 2, w 3, kind, core⟩

/-- A kind-5 record (R304). -/
def eventRec (event sub ctx unit page : Nat) : QRec :=
  qrecOf (bytesOf 1 event ++ bytesOf 1 sub ++ bytesOf 2 ctx ++ bytesOf 2 unit ++ bytesOf 2 0 ++ bytesOf 8 page ++
    bytesOf 16 0) 5 0
def State.pushEvent (s : State) (d event sub ctx unit page : Nat) : State :=
  s.pushTrap d (eventRec event sub ctx unit page)

/-- Whether a context is sealed (R287). -/
def State.sealed (s : State) (c : Nat) : Bool := (s.ctx c).ccb.world != 0

/-! ### The control-flow trace (R324, R326, R327) -/

def Trace.sizeN (t : Trace) : Nat := t.size.toNat
def Trace.room (t : Trace) : Nat := t.sizeN - (t.write - t.read)

def TrEvent.bytes (e : TrEvent) : List Byte :=
  bytesOf 2 e.core ++ bytesOf 1 e.hw ++ bytesOf 1 e.kind ++ bytesOf 4 e.mask.toNat ++ bytesOf 8 e.target.toNat

def TrEvent.zero : TrEvent := ⟨0, 0, 0, 0, 0⟩

/-- The coding of one event after the dictionary and the previous event. -/
def TrFrame.code (f : TrFrame) (e : TrEvent) : TrFrame :=
  match f.dict.findIdx? (· == e) with
  | some n => { f with payload := f.payload ++ bytesOf 1 n, prev := e }
  | none =>
    let d : Int := (e.target.toNat : Int) - f.prev.target.toNat
    if !f.payload.isEmpty && { e with target := 0 } == { f.prev with target := 0 } && d % 8 == 0 &&
        decide (-(0x3F : Int) ≤ d / 8) && decide (d / 8 ≤ 0x3F) then
      { f with payload := f.payload ++ bytesOf 1 (d / 8 + 0xBF).toNat, prev := e }
    else { f with payload := f.payload ++ bytesOf 1 0xFF ++ e.bytes, prev := e
                  dict := if f.dict.length < 128 then f.dict ++ [e] else f.dict }

/-- A frame of header and payload, padded to 32 bytes. -/
def TrFrame.bytes (f : TrFrame) (die : Nat) : List Byte :=
  bytesOf 1 4 ++ bytesOf 1 die ++ bytesOf 4 f.seqNo ++ bytesOf 2 f.payload.length ++ bytesOf 2 f.ctx ++ bytesOf 1 f.stage ++
    bytesOf 1 0 ++ bytesOf 4 f.inst ++ bytesOf 4 f.tid ++ bytesOf 6 f.ivl ++ bytesOf 6 f.retired ++ f.payload ++
    List.replicate ((32 - f.payload.length % 32) % 32) 0

/-- Whether both frame buffers are in use. -/
def Trace.buffersFull (t : Trace) : Bool := decide (2 ≤ t.closed.length)
/-- The open frame is lost: the first one's number and how many, for the marker before the next frame that is written. -/
def Trace.loseFrame (t : Trace) (seqNo : Nat) : Trace :=
  { t with frame := none, lostFrames := some (match t.lostFrames with
      | none => (seqNo, 1)
      | some (k, n) => (k, n + 1)) }
/-- The open frame closes: into a buffer, or it is lost where both are full, or where the ring has no room beside the frames that wait
for it. -/
def State.closeFrame (s : State) (d : Nat) : State :=
  s.modDie d fun x =>
    let t := x.trace
    match t.frame with
    | none => x
    | some f =>
      let marker := match t.lostFrames with
        | none => []
        | some (k, n) => bytesOf 1 5 ++ bytesOf 1 d ++ bytesOf 4 k ++ bytesOf 4 n ++ bytesOf 22 0
      let bs := marker ++ f.bytes d
      { x with trace :=
          if t.buffersFull || decide (t.room < (t.closed.map (·.length / 32)).sum + bs.length / 32) then t.loseFrame f.seqNo
          else { t with frame := none, lostFrames := none, closed := t.closed ++ [bs] } }

/-- Whether the trace of a die takes events of a thread: of every level, or of U alone (R324). -/
def State.traces (s : State) (iid tid : Nat) : Bool :=
  let i := s.inst iid
  let ctl := (s.die (i.die iid)).trace.ctl
  ctl.getLsbD 2 || (ctl.getLsbD 3 && (i.th tid).level == 0)
/-- An event of one formed warp: a taken transfer, an exit, a trap entry, or a tag. While both buffers are full the frame that is open
is lost, and every event with it until the next one opens (R327). -/
def State.traceWarp (s : State) (iid : Nat) (warp tids : List Nat) (kind : Nat) (target : DWord) : State :=
  let i := s.inst iid
  let d := i.die iid
  let t := (s.die d).trace
  let first (ts : List Nat) : Nat := (ts.insertionSort fun a b => i.laneOf a ≤ i.laneOf b).headD 0
  let ts := tids.filter fun u => s.traces iid u
  if ts.isEmpty then s
  else
    let w := first warp
    let f := match t.frame with
      | some f => f
      | none => { seqNo := t.frameSeq, ctx := min i.ctx 0xFFFF, stage := i.stage, inst := i.no, tid := w
                  ivl := (s.ctx i.ctx).ivlNo, retired := (i.th w).retired, opened := s.now, payload := [], dict := []
                  prev := TrEvent.zero }
    let seq := if t.frame.isNone then (t.frameSeq + 1) % 2 ^ 32 else t.frameSeq
    if t.buffersFull then
      if t.discard then s
      else s.modDie d fun x => { x with trace := { x.trace.loseFrame f.seqNo with frameSeq := seq, discard := true } }
    else
      let e : TrEvent := { core := if i.kind == .stage then i.core else iid, hw := if i.isGuide (first ts) then 0xFF else i.hwOf (first ts), kind
                           mask := ts.foldl (fun m u => m ||| BitVec.twoPow 32 (i.laneOf u)) 0, target }
      let f := f.code e
      let s := s.modDie d fun x => { x with trace := { x.trace with frame := some f, frameSeq := seq, discard := false } }
      if 4096 ≤ f.payload.length then s.closeFrame d else s
/-- An event of the formed warp of a clause. -/
def State.traceEvent (s : State) (is : Issue) (kind : Nat) (tids : List Nat) (target : DWord) : State :=
  s.traceWarp is.iid (is.lanes.map (·.tid)) ((is.lanes.map (·.tid)).filter tids.contains) kind target
/-- Where a trap of a stage's threads goes: to their handler, or to the supervisor, which is no target. -/
def Inst.trapTarget (i : Inst) (tid code : Nat) : DWord :=
  if code = 2 || i.isGuide tid || (i.th tid).hnd then 0 else i.handler
/-- The trap entries of threads of a formed warp, by where they go; those of a steward are traced at its entry, and a walker's trap
enters nothing. -/
def State.traceTrap (s : State) (iid : Nat) (warp tids : List Nat) (code : Nat) : State :=
  let i := s.inst iid
  if i.kind != .stage then s
  else ((tids.map fun t => i.trapTarget t code).eraseDups).foldl (fun s x =>
    s.traceWarp iid warp (tids.filter fun t => i.trapTarget t code == x) 3 x) s

/-! ### Taking an exception -/

/-- A trap-queue record of kinds 1, 2, 3 and 6 (R304). -/
def trapRec (s : State) (i : Inst) (kind code : Nat) (t : TrapRec) (hw : Nat) (nested : Bool) : QRec :=
  let z := s.sealed i.ctx
  let k6 := kind == 6
  qrecOf (bytesOf 8 (if z then 0 else t.hdr.toNat) ++ bytesOf 8 (if z then 0 else t.resume.toNat) ++ bytesOf 2 i.ctx ++
    bytesOf 1 kind ++ bytesOf 1 code ++ bytesOf 2 t.opc ++ bytesOf 1 (if hw = guideHw then 0xFF else hw) ++
    bytesOf 1 (i.core % Config.coresPerDie) ++ bytesOf 4 t.mask.toNat ++ bytesOf 1 t.idx ++
    bytesOf 1 (if k6 then min t.detail 255 else 0) ++ bytesOf 1 (if k6 && nested then 1 else 0) ++ bytesOf 1 0)
    kind (i.core % Config.coresPerDie)

/-- A thread leaves its formed warp. -/
def Inst.unwarp (i : Inst) (tid : Nat) : Inst :=
  let j := i.modTh tid (fun t => { t with warp := 0 })
  { j with warps := (i.warps.map fun (w : Warp) => { w with tids := w.tids.filter (· != tid) }).filter fun (w : Warp) =>
      !w.tids.isEmpty }

/-- Whether a thread is one of a clause in flight. -/
def State.issuing (s : State) (iid tid : Nat) : Bool :=
  s.issues.any fun is => is.iid == iid && is.lanes.any fun l => l.tid == tid

/-- Makes a sub-group of threads of one home warp (R209): its own flags, where it resumes, where it trapped. -/
def State.newSub (s : State) (iid hw : Nat) (tids : List Nat) (flags : SMap Nat) (resume hdr va : DWord)
    (cause : ParkCause) : Nat × State :=
  let (id, s) := s.newId
  let s := s.modInst iid fun i => { i with subs := i.subs ++ [{ id, hw, flags, resume, hdr, cont := none, va }] }
  (id, tids.foldl (fun s t => s.modInst iid fun i =>
    (i.modTh t fun th => { th with status := .parked cause, sub := id, pc := resume + 8 }).unwarp t) s)

/-- Parks the threads as a sub-group and sends a record of the trap queue to the supervisor (R131, R304). -/
def State.toSupervisor (s : State) (iid hw : Nat) (tids : List Nat) (kind code : Nat) (t : TrapRec)
    (nested : Bool) : State :=
  let i := s.inst iid
  let s := (s.newSub iid hw tids [] t.resume t.hdr 0 (.trap kind)).2
  let mask := tids.foldl (fun m u => m ||| BitVec.twoPow 32 (i.laneOf u)) 0
  s.pushTrap (i.die iid) (trapRec s i kind code { t with mask } hw nested)

/-! ### The store-fault record queue (R128) -/

/-- A record enters its core's queue: its thread has a trap to take at its next boundary, and keeps the address and age of the
oldest record that the trap will cover (R165). -/
def State.enterSf (s : State) (core : Nat) (r : SfRec) : State :=
  if r.old then s.modCore core fun k => { k with sfq := k.sfq ++ [r] }
  else
    let (no, s) := s.newId
    (s.modCore core fun k => { k with sfq := k.sfq ++ [{ r with seqNo := k.sfSeq, old := true }], sfSeq := (k.sfSeq + 1) % 65536 }).modTh
      r.iid r.tid fun t => if t.status == .exited then t else
        { t with sfPend := t.sfPend + 1, sfVa := if t.sfPend = 0 then r.va else t.sfVa, sfNo := if t.sfPend = 0 then no else t.sfNo }
/-- The queue is full, or a record waits for room. -/
def Core.sfFull (k : Core) : Bool := !k.sfWait.isEmpty || decide (Config.sfqSize ≤ k.sfq.length)
/-- A new record enters, or waits while the queue is full. -/
def State.pushSf (s : State) (core : Nat) (r : SfRec) : State :=
  if (s.core core).sfFull then s.modCore core fun k => { k with sfWait := k.sfWait ++ [r] } else s.enterSf core r
/-- Records that wait enter as slots free. -/
def State.settleSf (s : State) (core : Nat) : Nat → State
  | 0 => s
  | n + 1 =>
    match (s.core core).sfWait with
    | [] => s
    | r :: rest =>
      if (s.core core).sfq.length < Config.sfqSize then
        ((s.modCore core fun k => { k with sfWait := rest }).enterSf core r).settleSf core n
      else s

/-! ### Siblings of a demoted path (R116) -/

/-- An action of a thread (a store, an atomic, an exit, a hold, a release) makes the demotion of paths that represent
its home warp and do not hold it due to end. -/
def Inst.sibling (i : Inst) (tid : Nat) : Inst :=
  { i with warps := i.warps.map fun (w : Warp) =>
      if w.demoted && !w.tids.contains tid && w.tids.any (fun u => i.hwOf u == i.hwOf tid) then
        { w with sibs := Config.demoteLimit } else w }
def State.sibling (s : State) (iid tid : Nat) : State := s.modInst iid fun i => i.sibling tid

/-! ### Meetings (R113, R114) -/

/-- The header at which a thread stands. -/
def Thread.header (t : Thread) : DWord := t.pc - 8
def noMeeting : DWord := BitVec.allOnes 64

/-- A release at header H of a home warp: every thread is Held there, or has exited, or meets elsewhere. -/
def Inst.meetReady (i : Inst) (hw : Nat) (h : DWord) : Bool :=
  i.ths.all fun p => i.hwOf p.1 != hw || p.2.status == .exited || p.2.meet != h ||
    (p.2.status == .held && p.2.header == h)

def Inst.meetRelease (i : Inst) (hw : Nat) (h : DWord) : Inst :=
  if i.meetReady hw h then
    { i with ths := i.ths.map fun p =>
        if i.hwOf p.1 == hw && p.2.status == .held && p.2.header == h && p.2.meet == h then
          (p.1, { p.2 with status := .ready, meet := noMeeting }) else p }
  else i

/-- The meetings of a home warp at every header at which one of its threads is Held. -/
def State.meetings (s : State) (iid hw : Nat) : State :=
  s.modInst iid fun i =>
    let hs := ((i.ths.filter fun p => i.hwOf p.1 == hw && p.2.status == .held).map fun p => p.2.header).eraseDups
    hs.foldl (fun i h => i.meetRelease hw h) i

/-- A thread that comes to stand at a header is Ready, or Held where that header is its meeting (R113). -/
def Thread.settle (t : Thread) : Thread := { t with status := if t.meet == t.header then .held else .ready }
/-- What follows where threads have become Held (R114, R116). -/
def State.heldNow (s : State) (iid hw : Nat) (tids : List Nat) : State :=
  let held := tids.filter fun t => ((s.inst iid).th t).status == .held
  if held.isEmpty then s else (held.foldl (fun s t => s.sibling iid t) s).meetings iid hw

/-! ### Deliveries (R130, R131) -/

/-- Whether an earlier delivery of the home warp still owns s56 to s63 (R131). -/
def Inst.handlerBusy (i : Inst) (hw : Nat) : Bool :=
  i.ths.any fun p => i.hwOf p.1 == hw && p.2.hnd && p.2.status != .exited

/-- The delivery to the stage handler (R131): s56 to s63 are written, the threads take sr.hnd and go to the handler
with only themselves active. -/
def State.deliver (s : State) (iid hw : Nat) (tids : List Nat) (t : TrapRec) : State :=
  let i := s.inst iid
  let cnt := (sget (0 : Word) (i.hw hw).scal 63) + 1
  let s := s.asyncWrites iid
    [(.s hw 56, BitVec.ofNat 64 t.code), (.s hw 57, BitVec.ofNat 64 t.detail), (.s hw 58, t.addr &&& 0xFFFFFFFF),
     (.s hw 59, t.addr >>> 32), (.s hw 60, t.resume &&& 0xFFFFFFFF), (.s hw 61, t.resume >>> 32),
     (.s hw 62, t.mask.setWidth 64), (.s hw 63, cnt.setWidth 64)]
  let s := tids.foldl (fun s u => s.modInst iid fun i => (i.modTh u fun th =>
    ({ th with pc := i.handler + 8, hnd := true, hndRet := t.resume
               pend := th.pend.filter (· != t) } : Thread).settle).unwarp u) s
  s.heldNow iid hw tids

/-- A trap waits at its thread's boundary: behind the threads of an earlier delivery, or behind a trap of a lower order
of its own (R130, R131). -/
def State.trapWaits (s : State) (iid : Nat) (tids : List Nat) (t : TrapRec) : State :=
  tids.foldl (fun s u => s.modInst iid fun i => (i.modTh u fun th =>
    { th with status := .parked .wait, pc := t.resume + 8
              pend := if th.pend.contains t then th.pend else th.pend ++ [t] }).unwarp u) s

/-- A user trap of the same instruction with a lower code waits in the home warp: the codes go out in ascending order (R107). -/
def Inst.lowerWaits (i : Inst) (hw : Nat) (t : TrapRec) : Bool :=
  t.code == 5 && i.ths.any fun p => i.hwOf p.1 == hw && p.2.status != .exited && p.2.pend.any fun r =>
    r.code == 5 && decide (r.detail < t.detail) && r.hdr == t.hdr && r.idx == t.idx && r.nested == t.nested

/-- Takes one trap of R130 for threads of one home warp at a clause boundary: a privilege trap and a trap that R131
sends on go to the supervisor, the others to the stage handler, now or when an earlier delivery has released it. A user
TRAP of a thread that has a store fault to take waits for it, with the other threads of its code and behind lower codes of its
instruction (R107). The Guide has no scalar registers for a delivery to write,
so its traps go to the supervisor as if no handler were registered (log entry 71). -/
def State.takeTrap (s : State) (iid hw : Nat) (tids : List Nat) (t : TrapRec) : State :=
  let i := s.inst iid
  let drop (s : State) (us : List Nat) : State :=
    us.foldl (fun s u => s.modTh iid u fun th => { th with pend := th.pend.filter (· != t) }) s
  if t.code = 2 then (drop s tids).toSupervisor iid hw tids 2 0 t false
  else
    let late := if t.code = 5 && (tids.any (fun u => (i.th u).sfPend != 0) || i.lowerWaits hw t) then tids else []
    let now := tids.filter fun u => !late.contains u
    let nested := now.filter fun u => (i.th u).hnd
    let plain := now.filter fun u => !(i.th u).hnd
    let s := late.foldl (fun s u => s.trapWaits iid [u] { t with nested := (i.th u).hnd }) s
    let s := if nested.isEmpty then s else (drop s nested).toSupervisor iid hw nested 6 t.code t true
    if plain.isEmpty then s
    else if i.handler = 0 ∨ i.isGuide (plain.headD 0) then
      if t.code = 5 then (drop s plain).toSupervisor iid hw plain 3 t.detail t false
      else (drop s plain).toSupervisor iid hw plain 6 t.code t false
    else if (s.inst iid).handlerBusy hw then s.trapWaits iid plain t
    else s.deliver iid hw plain t

/-- The level a steward's trap enters (R17, R302): an illegal instruction or a memory fault the thread's own level, a
privilege trap at S the monitor. -/
def trapLevel (level cause : Nat) : Nat := if cause = 2 then 2 else level

/-- The trap registers of a level. -/
def Steward.regs (x : Steward) (level : Nat) : TrapRegs := if level = 2 then x.m else x.s
def Steward.setRegs (x : Steward) (level : Nat) (r : TrapRegs) : Steward :=
  if level = 2 then { x with m := r } else { x with s := r }

/-- Entry of a steward thread into a level (R302), with no double-trap check. -/
def State.enterLevel (s : State) (k level : Nat) (t : TrapInfo) (resume : DWord) : State :=
  let i := s.inst k
  let old := (i.th 0).level
  let x := s.steward k
  let r := x.regs level
  let cause : DWord := BitVec.ofNat 64 (t.cause % 256) ||| (BitVec.ofNat 64 t.detail <<< 32)
  let r' := { r with epc := resume, ecause := cause, epriv := BitVec.ofNat 64 (if old = 2 then 2 else 1), ie := false
                     eaddr := t.addr }
  ((s.traceWarp k [0] [0] 3 r'.vec).setSteward k (x.setRegs level r')).modTh k 0 fun th => { th with pc := r'.vec + 8, level := level }

/-- A trap that enters a level: at a level whose IE is clear it is a double trap: from S it goes to M with cause 7, at M
it halts the module's compute and is reported over the management port (R302). -/
def State.stewardTrapAt (s : State) (k level : Nat) (t : TrapInfo) (resume : DWord) : State :=
  let x := s.steward k
  let double (s : State) : State :=
    { s with halted := true, monitor := { s.monitor with telemetry := s.monitor.telemetry + 1 } }
  if (x.regs level).ie then s.enterLevel k level t resume
  else if level = 1 then
    (if (x.regs 2).ie then s.enterLevel k 2 { t with cause := 7 } resume else double s)
  else double s

/-- STEWARD_TRAP_ENTRY (R302). -/
def State.stewardTrap (s : State) (k : Nat) (t : TrapInfo) (resume : DWord) : State :=
  s.stewardTrapAt k (trapLevel (s.inst k |>.th 0).level t.cause) t resume

/-- A trap of R130 whose ECAUSE code R302 does not give, a user TRAP or a flag hazard: it enters the thread's own level
with an unspecified cause (log entry 16). -/
def State.stewardOther (s : State) (k detail : Nat) (resume : DWord) : State :=
  s.stewardTrapAt k ((s.inst k).th 0).level ⟨(Config.openRead s.fresh detail).toNat % 256, detail, 0⟩ resume

/-- A walker that takes a trap ends its walk as a Deny with cause 1, and the supervisor receives a walker-fault event
(R266). The outcome itself is given to the requests in Machine/Translate.lean. -/
def State.walkerFault (s : State) (iid : Nat) : State :=
  let c := iid - 64
  let w := (s.cluster c).walk
  let page := match w with
    | some k => (s.walks.getD k default).page
    | none => 0
  s.pushEvent (c / Config.clustersPerDie) 1 0 0xFFFF c page

/-- The threads of a formed warp by home warp, ascending. -/
def byHw (i : Inst) (ls : List LaneT) : List (Nat × List LaneT) :=
  let hs := ((ls.map fun l => i.hwOf l.tid).eraseDups).insertionSort (· ≤ ·)
  hs.map fun h => (h, ls.filter fun l => i.hwOf l.tid == h)

/-- Bit mask of lane positions. -/
def laneMask (ls : List LaneT) : BitVec 32 := ls.foldl (fun m l => m ||| BitVec.twoPow 32 l.lane) 0

end Sys2Proof.Machine
end

