-- ==== Sys2Proof/Machine/Operands.lean ====
section
/-!
DEFINITION. Operand forms: the runs of an instruction (R32, R33), the read-old rule of the static timing contract
(R39, R40), the lane crossbar (R34, R35), immediates (R30, R85), and the results that a run writes.
-/
namespace Sys2Proof.Machine

/-! ### The clause in focus -/

/-- The clause that the sequencer in focus issues. -/
def State.issue? (s : State) : Option Issue :=
  match s.focus with
  | none => none
  | some q => s.issues.find? fun is => is.q == q

def State.setIssue (s : State) (is : Issue) : State :=
  { s with issues := s.issues.map fun (x : Issue) => if x.q == is.q then is else x }
def State.dropIssue (s : State) (q : Seq) : State :=
  { s with issues := s.issues.filter fun (x : Issue) => x.q != q }

/-- Whether the sequencer runs Guide code (R117). -/
def Issue.guide (is : Issue) : Bool := match is.q with | .guide _ => true | _ => false
/-- Whether the clause runs on a steward core or in a walker slot. -/
def Issue.single (is : Issue) : Bool := match is.q with | .steward .. | .walker _ => true | _ => false

/-- One run of an instruction: a thread of the formed warp, or under ONCE a home warp through its representative. -/
structure Run where
  t    : LaneT
  once : Bool
deriving DecidableEq, Repr, Inhabited

/-! ### Reading under R39 -/

def inRange (rs : List (Nat × Nat)) (n : Nat) : Bool := rs.any fun r => decide (r.1 ≤ n) && decide (n < r.1 + r.2)

/-- Whether a location is the destination of a flagged instruction whose flag is not zero yet (R40). -/
def Inst.hazard (i : Inst) (l : Loc) : Bool :=
  match l with
  | .v t n => (i.hw (i.hwOf t)).haz.any fun z => z.tids.contains t && inRange z.regs n
  | .p t n => (i.hw (i.hwOf t)).haz.any fun z => z.tids.contains t && z.preds.contains n
  | .s h n => (i.hw h).haz.any fun z => inRange z.scal n
  | .g n => (i.hw guideHw).haz.any fun z => inRange z.regs n
  | _ => false

/-- The search of ReadFixed: the latest writer whose result is readable at the slot; raised flags are gathered. -/
def pickWrite (l : Loc) (n need : Nat) (base : DWord) : List FWrite → DWord
  | [] => base
  | w :: r =>
    if w.loc == l && decide (w.slot + w.lat + need ≤ n) then
      (if w.raise then w.val ||| pickWrite l n need base r else w.val)
    else pickWrite l n need base r

/-- The value that a location held when the clause issued. -/
def State.heldAt (s : State) (is : Issue) (l : Loc) : DWord :=
  match is.olds.find? fun p => p.1 == l with
  | some p => p.2
  | none => s.readLoc is.iid l

/-- ReadFixed (R39), and the unspecified value of R40. -/
def State.readFixed (s : State) (is : Issue) (l : Loc) (need : Nat) : DWord :=
  if (s.inst is.iid).hazard l then Config.openRead s.fresh l.key
  else pickWrite l is.slot need (s.heldAt is l) is.writes

/-- The result of the last writer in program order of a location of a clause. -/
def State.latest (s : State) (is : Issue) (l : Loc) : DWord :=
  pickWrite l (is.slot + 1000) 0 (s.readLoc is.iid l) (is.writes.filter fun w => !w.done)

/-- A predicate of a thread at the nominal slot; p0 is true (R8). -/
def State.predAt (s : State) (is : Issue) (tid n : Nat) : Bool :=
  n == 0 || (s.readFixed is (.p tid n) 0).getLsbD 0

/-- GuardOf (R32). -/
def State.guardAt (s : State) (is : Issue) (c : Ctl) (tid : Nat) : Bool := s.predAt is tid c.gp != c.gn

/-! ### Runs (R32, R33) -/

/-- The thread of a home warp at the lowest lane position (R33). -/
def lowest (ls : List LaneT) : LaneT :=
  match ls with
  | [] => default
  | l :: r => r.foldl (fun m x => if x.lane < m.lane then x else m) l

/-- The runs of an instruction in order: its active threads with a true guard, or under ONCE the home warps whose
representative has a true guard. -/
def State.runs (s : State) (is : Issue) (c : Ctl) : List Run :=
  if c.once then
    -- Guide code represents no home warp (log entry 67)
    if is.guide then [] else
    ((byHw (s.inst is.iid) is.lanes).map fun g => lowest g.2).filterMap fun l =>
      if s.guardAt is c l.tid then some ⟨l, true⟩ else none
  else is.lanes.filterMap fun l => if l.active && s.guardAt is c l.tid then some ⟨l, false⟩ else none

/-! ### The crossbar (R34, R35) -/

/-- The source lane of a permutation at lane i. -/
def Perm.from (p : Perm) (i : Nat) : Nat :=
  match p with
  | .id => i
  | .bc p => p
  | .up p => (i + 32 - p) % 32
  | .dn p => (i + p) % 32
  | .bfly p => i ^^^ (2 ^ p)
  | .flip p => i ^^^ (2 ^ p - 1)

/-- The threads whose registers the clause reaches: its formed warp's, and in a continuation those of the warp that it left. -/
def Issue.reach (is : Issue) : List LaneT := is.lanes ++ is.ghosts
/-- One register of the thread at lane j of the formed warp: +0 where there is none. -/
def State.laneReg (s : State) (is : Issue) (j reg need : Nat) : DWord :=
  let i := s.inst is.iid
  match is.reach.find? fun l => l.lane == j with
  | none => 0
  | some u =>
    if i.isGuide u.tid then s.readFixed is (.g reg) need
    else if reg < (i.hw (i.hwOf u.tid)).n then s.readFixed is (.v u.tid reg) need
    else 0

/-- A register as source: scalar under ONCE (R33), else through the crossbar. -/
def State.srcReg (s : State) (is : Issue) (r : Run) (reg : Nat) (p : Perm) : DWord :=
  if r.once then s.readFixed is (.s ((s.inst is.iid).hwOf r.t.tid) reg) 0
  else s.laneReg is (Perm.from p r.t.lane) reg (if p == .id then 0 else 1)

def lo32 (x : DWord) : DWord := x &&& 0xFFFFFFFF
def pairOf (lo hi : DWord) : DWord := lo32 lo ||| (hi <<< 32)

/-- A vector source of 32 or 64 bits. -/
def State.srcV (s : State) (is : Issue) (r : Run) (wide : Bool) (a : VSrc) : DWord :=
  let x := s.srcReg is r a.reg a.perm
  if !wide then lo32 x else if is.guide then x else pairOf x (s.srcReg is r (a.reg + 1) a.perm)

/-- A register of the run's own thread, read without permutation: data operands and the registers of ranges. -/
def State.ownReg (s : State) (is : Issue) (r : Run) (reg : Nat) : DWord := s.srcReg is r reg .id
def State.own (s : State) (is : Issue) (r : Run) (wide : Bool) (reg : Nat) : DWord := s.srcV is r wide ⟨reg, .id⟩

/-- A scalar register of the run's home warp (R30). -/
def State.srcS (s : State) (is : Issue) (r : Run) (wide : Bool) (n : Nat) : DWord :=
  let h := (s.inst is.iid).hwOf r.t.tid
  let x := s.readFixed is (.s h n) 0
  if wide then pairOf x (s.readFixed is (.s h (n + 1)) 0) else lo32 x

/-! ### Immediates (R30, R85, R93) -/

/-- n copies of a w-bit element. -/
def replicateBits (w n x : Nat) : Nat := (List.range n).foldl (fun acc k => acc + x % 2 ^ w * 2 ^ (w * k)) 0

/-- The 8-bit immediate of a type: sign-extended to the operand or the element, or its integer value in the float
format, for every element. -/
def imm8Of (ty : Ty) (v : BitVec 8) : DWord :=
  let fl (f : Fmt) : Nat := (cvtIF 8 true f .rne v.toNat).bits
  match ty with
  | .i64 | .n64 => v.signExtend 64
  | .i32 | .n32 | .b32 => (v.signExtend 32).setWidth 64
  | .i16 | .n16 => BitVec.ofNat 64 (replicateBits 16 2 (v.signExtend 16).toNat)
  | .i8 | .n8 => BitVec.ofNat 64 (replicateBits 8 4 v.toNat)
  | .f32 => BitVec.ofNat 64 (fl Fmt.f32)
  | .f16 => BitVec.ofNat 64 (replicateBits 16 2 (fl Fmt.f16))
  | .bf16 => BitVec.ofNat 64 (replicateBits 16 2 (fl Fmt.bf16))

/-- Source B read as a type. -/
def State.srcB (s : State) (is : Issue) (r : Run) (ty : Ty) (b : BSrc) : DWord :=
  match b with
  | .vec reg p => s.srcV is r ty.wide ⟨reg, p⟩
  | .sca n => s.srcS is r ty.wide n
  | .imm8 v => imm8Of ty v
  | .imm32 v => if ty.wide then v.signExtend 64 else v.setWidth 64

/-! ### Results -/

/-- A result of one run: a location, a value, whether the value is ORed in. -/
structure Put where
  loc : Loc
  val : DWord
  raise : Bool := false
deriving DecidableEq, Repr, Inhabited

/-- The results of writing a 32-bit or 64-bit destination: a scalar register under ONCE, a g register in Guide code
(a 32-bit result clears bits 63 to 32, R158), else a vector register of the thread. -/
def State.dst (s : State) (is : Issue) (r : Run) (wide : Bool) (d : Nat) (x : DWord) : List Put :=
  let i := s.inst is.iid
  if is.guide then [⟨.g d, if wide then x else lo32 x, false⟩]
  else
    let l (k : Nat) : Loc := if r.once then .s (i.hwOf r.t.tid) (d + k) else .v r.t.tid (d + k)
    if wide then [⟨l 0, lo32 x, false⟩, ⟨l 1, x >>> 32, false⟩] else [⟨l 0, lo32 x, false⟩]

/-- Raised flags of the run's thread (R10, R75). -/
def raises (r : Run) (fl : BitVec 5) : List Put := if fl = 0 then [] else [⟨.fp r.t.tid, fl.setWidth 64, true⟩]

/-- A predicate result. -/
def putPred (tid n : Nat) (b : Bool) : Put := ⟨.p tid n, if b then 1 else 0, false⟩

/-- sr.tid of a thread: the Guide's is the instance's thread count (R158), a steward's or walker's 0 (R17). -/
def Inst.srTid (i : Inst) (tid : Nat) : Nat := if i.kind == .stage then tid else 0

/-- The mode of one rounding, and the state after it: under .rsd the counter is read and advanced at the nominal slot
(R69, R71). -/
def State.rmode (s : State) (is : Issue) (r : Run) (rnd : Rnd) (sat ftz : Bool) : RMode × State :=
  match rnd with
  | .rsd =>
    let th := (s.inst is.iid).th r.t.tid
    let seed : Word := (s.readFixed is (.seed r.t.tid) 0).setWidth 32
    (⟨rnd, sat, ftz, (rsdBits seed (BitVec.ofNat 32 ((s.inst is.iid).srTid r.t.tid)) th.rsc).toNat⟩,
     s.modTh is.iid r.t.tid fun th => { th with rsc := th.rsc + 1 })
  | _ => (⟨rnd, sat, ftz, 0⟩, s)

/-- EA of R133: the address operand and the signed offset. -/
def State.ea (s : State) (is : Issue) (r : Run) (a : VSrc) (b : BSrc) : DWord :=
  s.srcV is r true a + ((s.srcB is r .i32 b).setWidth 32).signExtend 64

/-- A range of registers of the run's own thread. -/
def State.ownRange (s : State) (is : Issue) (r : Run) (d n : Nat) : List DWord :=
  (List.range n).map fun k => s.ownReg is r (d + k)

end Sys2Proof.Machine
end

