-- ==== Sys2Proof/Machine/Flags.lean ====
section
/-!
DEFINITION. Completion flags (R36 to R40, R209): counting, hazards, and the operations in flight that clear them. The
flags of R75 are raised by `State.raiseFp` (Ops) and by `raises` (Operands).
-/
namespace Sys2Proof.Machine

/-- The flag that FSEL names in a clause. -/
def Issue.flagOf (is : Issue) (f : FSel) : Option Nat :=
  match f with
  | .none => none
  | .a => is.hdr.seta
  | .b => is.hdr.setb

/-- The flag count of a home warp's own set (0), or of a parked sub-group's set. -/
def Inst.flag (i : Inst) (hw sub f : Nat) : Nat :=
  if sub = 0 then sget 0 (i.hw hw).flags f
  else match i.subs.find? fun (g : SubGroup) => g.id == sub with
    | some g => sget 0 g.flags f
    | none => sget 0 (i.hw hw).flags f

/-- The set that a share stands in: a sub-group that has rejoined counts in the home warp's. -/
def Inst.setOf (i : Inst) (sub : Nat) : Nat := if i.subs.any fun (g : SubGroup) => g.id == sub then sub else 0

def Inst.putFlag (i : Inst) (hw sub f x : Nat) : Inst :=
  if i.setOf sub = 0 then i.modHw hw fun w => { w with flags := sset 0 w.flags f x }
  else { i with subs := i.subs.map fun (g : SubGroup) => if g.id == sub then { g with flags := sset 0 g.flags f x } else g }

/-- The home warps of a formed warp with the set in which each counts, ascending. -/
def Inst.sets (i : Inst) (ls : List LaneT) : List (Nat × Nat) :=
  (byHw i ls).map fun g => (g.1, i.setOf (i.th (lowest g.2).tid).sub)

/-- One increment, and one decrement: a destination is no longer tracked once its flag is zero (R40). -/
def Inst.incFlag (i : Inst) (hw sub f : Nat) : Inst := i.putFlag hw sub f (i.flag hw (i.setOf sub) f + 1)
def Inst.decFlag (i : Inst) (hw sub f : Nat) : Inst :=
  let x := i.flag hw (i.setOf sub) f - 1
  let i := i.putFlag hw sub f x
  if x = 0 then i.modHw hw fun w => { w with haz := w.haz.filter fun (z : Haz) => !(z.flag == f && z.sub == i.setOf sub) }
  else i

/-- Whether an increment would take a represented home warp past 63: the formed warp stalls (R37). -/
def Inst.flagFull (i : Inst) (sets : List (Nat × Nat)) (f : Nat) : Bool :=
  sets.any fun p => decide (Config.flagMax ≤ i.flag p.1 p.2 f)

def Inst.incFlags (i : Inst) (sets : List (Nat × Nat)) (f : Nat) : Inst :=
  sets.foldl (fun i p => i.incFlag p.1 p.2 f) i

/-- Whether the WAIT flags are zero in every home warp represented, for a sub-group in both sets (R38, R209). -/
def Inst.waitsOver (i : Inst) (sets : List (Nat × Nat)) (wait : BitVec 12) : Bool :=
  sets.all fun p => (List.range 12).all fun f =>
    !wait.getLsbD f || (i.flag p.1 p.2 f == 0 && i.flag p.1 0 f == 0)

/-! ### Hazards (R40) -/

/-- The destinations of an instruction as the hardware tracks them: under ONCE scalar registers. -/
def hazOf (ins : Instr) (g once : Bool) (sub flag : Nat) (more : List RU) (tids : List Nat) : Haz :=
  let u := ins.uses g
  let rs := (u.dst ++ more).map fun r => (r.first, r.n)
  let own := match ins with
    | .dqpop _ d => [(d, 4)]
    | _ => []
  { sub, flag, regs := if once then [] else rs, scal := if once then rs else own, preds := u.pd, tids }

def Inst.addHaz (i : Inst) (sets : List (Nat × Nat)) (z : Nat → Haz) : Inst :=
  sets.foldl (fun i p => i.modHw p.1 fun w => { w with haz := w.haz ++ [z p.2] }) i

/-! ### Operations in flight -/

def State.op? (s : State) (id : Nat) : Option PendOp := s.ops.find? fun o => o.id == id
def State.modOp (s : State) (id : Nat) (f : PendOp → PendOp) : State :=
  { s with ops := s.ops.map fun (o : PendOp) => if o.id == id then f o else o }
def PendOp.part? (o : PendOp) (tid : Nat) : Option Part := o.parts.find? fun p => p.tid == tid
def PendOp.modPart (o : PendOp) (tid : Nat) (f : Part → Part) : PendOp :=
  { o with parts := o.parts.map fun (p : Part) => if p.tid == tid then f p else p }
def Part.arg (p : Part) (k : Nat) : DWord := p.args.getD k 0

/-- A share is complete: its flag is decremented once (R37). -/
def State.closeShare (s : State) (o : PendOp) (hw : Nat) : State :=
  let s := s.modOp o.id fun o => { o with shares := o.shares.filter fun (x : Share) => x.hw != hw }
  let sub := (o.shares.find? fun (x : Share) => x.hw == hw).elim 0 (·.sub)
  match o.flag with
  | none => s
  | some f => s.modInst o.iid fun i => i.decFlag hw sub f

/-- An operation with no share and no part left is over. -/
def State.reapOps (s : State) : State := { s with ops := s.ops.filter fun (o : PendOp) => !o.shares.isEmpty || !o.parts.isEmpty }

/-- With its last part the records of an operation's failing accesses enter the queue, in ascending lane position of its formed
warp, those of one thread in the order of its accesses (R164; log entry 73). -/
def State.flushSf (s : State) (id : Nat) : State :=
  match s.op? id with
  | none => s
  | some o =>
    if o.sf.isEmpty || !o.parts.isEmpty then s
    else
      let i := s.inst o.iid
      (o.sf.insertionSort fun a b => i.laneOf a.tid ≤ i.laneOf b.tid).foldl (fun s r => s.pushSf i.core r)
        (s.modOp id fun o => { o with sf := [] })

/-- The part of a thread is complete (R37): with the last part of its home warp, the flag is decremented. -/
def State.partDone (s : State) (id tid : Nat) : State :=
  match s.op? id with
  | none => s
  | some o =>
    let hws := (o.shares.filter fun (x : Share) => x.left.contains tid).map (·.hw)
    let s := (s.modOp id fun o =>
      { o with parts := o.parts.filter fun (p : Part) => p.tid != tid
               shares := o.shares.map fun (x : Share) => { x with left := x.left.filter (· != tid) } }).flushSf id
    (hws.foldl (fun s h => match s.op? id with
      | none => s
      | some o => if o.shares.any fun (x : Share) => x.hw == h && x.left.isEmpty then s.closeShare o h else s) s).reapOps

/-- Whether the operation acted once per home warp on scalar registers (R33). -/
def PendOp.once (o : PendOp) : Bool := (o.ins.ctl.map (·.once)).getD false

/-- The destination of a part, of 32 or 64 bits: a scalar register under ONCE, a g register of the Guide (R158), else a
vector register of its thread. -/
def PendOp.dst (o : PendOp) (i : Inst) (tid : Nat) (wide : Bool) (d : Nat) (x : DWord) : List (Loc × DWord) :=
  if i.isGuide tid then [(.g d, if wide then x else lo32 x)]
  else
    let l (k : Nat) : Loc := if o.once then .s (i.hwOf tid) (d + k) else .v tid (d + k)
    if wide then [(l 0, lo32 x), (l 1, x >>> 32)] else [(l 0, lo32 x)]

/-- The thread to which a location belongs, if it is a thread's own. -/
def Loc.tid? : Loc → Option Nat
  | .v t _ | .p t _ | .seed t | .fp t | .meet t | .hnd t => some t
  | .s .. | .g _ => none
/-- Completes a part with writes of its destination; results in the registers of a thread that has exited are discarded (R20),
those of its home warp's other threads and scalar registers are not. -/
def State.partWrites (s : State) (id tid : Nat) (ws : List (Loc × DWord)) (fl : BitVec 5) : State :=
  match s.op? id with
  | none => s
  | some o =>
    let i := s.inst o.iid
    let gone (t : Nat) : Bool := (i.th t).status == .exited
    let s := s.asyncWrites o.iid (ws.filter fun w => !(w.1.tid?.elim false gone))
    (if gone tid then s else s.raiseFp o.iid tid fl).partDone id tid

/-- A new flagged operation: its shares and hazards; parts come with their keys. A home warp without a part has a
share of its own that completes by itself (R37). -/
def State.startOp (s : State) (is : Issue) (ins : Instr) (c : Ctl) (parts : List Part) (more : List RU) : State :=
  let i := s.inst is.iid
  let sets := i.sets is.lanes
  let tids := (s.runs is c).map (·.t.tid)
  let (id, s) := s.newId
  let shares := sets.map fun p =>
    ({ hw := p.1, sub := p.2, left := (parts.filter fun q => i.hwOf q.tid == p.1).map (·.tid) } : Share)
  let f := is.flagOf c.fsel
  let s := { s with ops := s.ops ++ [{ id, iid := is.iid, ins, hdr := is.hdrAt, idx := is.idx, born := s.now, flag := f
                                       shares, parts, lanes := is.lanes }] }
  match f with
  | none => s
  | some f => s.modInst is.iid fun i =>
    (i.incFlags sets f).addHaz sets fun sub => hazOf ins is.guide c.once sub f more tids

/-! ### Accesses that are not performed yet (R147) -/

/-- What an operation is to the ordering instructions. -/
inductive AccK
  | load | store | atomic
deriving DecidableEq, Repr, Inhabited
def accKind : Instr → Option AccK
  | .ld .. | .ldm .. | .lds .. | .ldt .. => some .load
  | .st .. | .stm .. | .sts .. | .mcast .. | .prepair .. => some .store
  | .atom .. | .atomcas .. | .red .. | .atoms .. | .atomscas .. => some .atomic
  | _ => none

/-- Earlier accesses of a thread that are not performed yet: all of them, or loads and atomics alone. -/
def State.accessesBefore (s : State) (iid tid id : Nat) (stores : Bool) : Bool :=
  s.ops.any fun (q : PendOp) => q.iid == iid && decide (q.id < id) && q.parts.any (fun (r : Part) => r.tid == tid) &&
    (match accKind q.ins with
      | none => false
      | some .store => stores
      | some _ => true)

end Sys2Proof.Machine
end

