-- ==== Sys2Proof/Machine/Translate.lean ====
section
/-!
DEFINITION. Addresses, translation and caches (R194 to R208), ciphertext (R217 to R222), and the vector clocks of the
dies (R244).
-/
namespace Sys2Proof.Machine

/-! ### Requests and apertures -/

/-- Who asks memory for what: instance, context, privilege (0 U, 1 S, 2 M), the world its die sends (R216), its die,
and the access kind of R207. -/
structure Req where
  iid   : Nat
  ctx   : Nat
  priv  : Nat
  world : Nat
  die   : Nat
  kind  : Nat
  /-- another module's load, which is performed at the home slice (R332, R334) -/
  home  : Bool := false
deriving DecidableEq, Repr, Inhabited

def State.req (s : State) (iid tid kind : Nat) : Req :=
  let i := s.inst iid
  { iid, ctx := i.ctx, priv := (i.th tid).level, world := (s.die (i.die iid)).world, die := i.die iid, kind }

inductive Aper
  | mem | win | phys | peer
deriving DecidableEq, Repr, Inhabited

def aperOf (va : Nat) : Aper :=
  match va / 2 ^ 52 % 32 with
  | 31 => .peer
  | 30 => .win
  | 29 => .phys
  | _ => .mem

/-- An access is canonical and lies in one aperture (R194). -/
def spanOk (va n : Nat) : Bool :=
  decide (va + n ≤ 2 ^ 57) && (n == 0 || aperOf va == aperOf (va + n - 1))

/-- The controller of R202. -/
def ctrlOf (b : Ccb) (va : Nat) : Nat := b.ibase + ((va / 2 ^ 12 % 2 ^ b.ik) ^^^ (va / 2 ^ 21 % 2 ^ b.ik))

/-- The physical address of a VA under a leaf (R202). -/
def leafPa (b : Ccb) (l : Leaf) (va : Nat) : Nat :=
  if l.win then l.frame * 4096 + va % 4096
  else
    let o := if l.big then l.frame * 4096 + va / 2 ^ (12 + b.ik) % 2 ^ (9 - b.ik) * 4096 + va % 4096
      else l.frame * 4096 + va % 4096
    mkPa (ctrlOf b va) l.far o

/-- The key of a TLB entry: controller (64 + die for a window TLB), ASID, level, page number. -/
def tlbKey (ctrl asid : Nat) (big : Bool) (va : Nat) : Nat :=
  ((ctrl * 65536 + asid) * 2 + big.toNat) * 2 ^ 45 + (if big then va / 2 ^ 21 else va / 2 ^ 12)
def tlbCtrl (key : Nat) : Nat := key / 2 ^ 45 / 2 / 65536
def tlbPage (key : Nat) : Nat := if key / 2 ^ 45 % 2 = 1 then key % 2 ^ 45 * 2 ^ 21 else key % 2 ^ 45 * 2 ^ 12
def tlbBig (key : Nat) : Bool := key / 2 ^ 45 % 2 == 1

def State.tlbFind (s : State) (ctrl asid va : Nat) : Option Leaf :=
  match find? s.tlb (tlbKey ctrl asid false va) with
  | some l => some l
  | none => find? s.tlb (tlbKey ctrl asid true va)

/-- The rights an access needs (R206): none where they are granted, else the refusal cause of R210. -/
def refusal (kind priv : Nat) (r w x u : Bool) : Option Nat :=
  let need := match kind with
    | 0 => r
    | 1 => w
    | 2 => r && w
    | 3 => x
    | 4 => r
    | _ => w
  if !need then some 2 else if priv = 0 && !u then some 4 else none

/-- The outcome of a translation. -/
inductive Xlat
  | hit (l : Leaf) (pa : Nat)
  | miss (ctrl : Nat)
  | refuse (cause : Nat)
deriving DecidableEq, Repr, Inhabited

def Rights.refusal (kind priv : Nat) (t : Rights) : Option Nat := Sys2Proof.Machine.refusal kind priv t.r t.w t.x t.u
def Leaf.rights (l : Leaf) : Rights := ⟨l.r, l.w, l.x, l.u⟩

/-- Whether a broken rule has left what loads return from a physical address undefined (R353). -/
def State.spoilt (s : State) (pa : Nat) : Bool := s.spoiled.any fun r => decide (r.1 ≤ pa) && decide (pa < r.1 + r.2)
/-- A byte that a load of a physical address returns: where a broken rule leaves it undefined, an unconstrained one. -/
def State.loaded (s : State) (pa : Nat) (b : Byte) : Byte := if s.spoilt pa then (Config.openRead s.fresh (16 * pa + 13)).setWidth 8 else b
def State.loadedAll (s : State) (pa : Nat) (bs : List Byte) : List Byte := (List.range bs.length).map fun k => s.loaded (pa + k) (nthByte bs k)

/-- Translation of one address (R194, R195, R197, R201, R206, R216): a page without a tag ASID, and a window page that names no
window address, are unmapped. -/
def State.xlat (s : State) (q : Req) (va : Nat) : Xlat :=
  let b := (s.ctx q.ctx).ccb
  let win := aperOf va == .win
  let ctrl := match aperOf va with
    | .win => 64 + q.die
    | _ => ctrlOf b va
  match aperOf va with
  | .phys | .peer => .refuse 1
  | _ =>
    if b.asid = 0 || (decide (64 ≤ ctrl) && !win) then .refuse 1
    else if !win && (s.die (ctrl / 8)).world != q.world then .refuse 3
    else match s.tlbFind ctrl b.asid va with
      | none => .miss ctrl
      | some l =>
        let pa := leafPa b l va
        if l.tag = 0 || (win && !(paWindow pa && validPa pa)) then .refuse 1
        else match l.rights.refusal q.kind q.priv with
        | some c => .refuse c
        | none => if win && (s.die (paDie pa)).world != q.world then .refuse 3 else .hit l pa

/-- A physical-aperture address (R194, R195): its PA, or the refusal cause. -/
def State.aperPa (s : State) (q : Req) (va : Nat) : Except Nat Nat :=
  let pa := va % 2 ^ 48
  if q.priv = 0 then .error 4
  else if va / 2 ^ 48 % 16 ≠ 0 ∨ !validPa pa then .error 1
  else if (s.die (paDie pa)).world ≠ q.world then .error 3
  else .ok pa

/-! ### Ciphertext (R217, R218, R221) -/

def ctrBlock (pa : Nat) : Nat :=
  mkPa (paCtrl pa) (paFar pa) ((if paFar pa then 0x7C0000000 else 0x2E8000000) + 128 * (paLocal pa / 4096))
/-- The far offsets that hold the checkpoint of the near tier (R291). -/
def ckptBase : Nat := 0x4C0000000
def ckptArea (o : Nat) : Bool := decide (ckptBase ≤ o) && decide (o < ckptBase + 0x300000000)
/-- Whether a local offset lies in the counter area of a sealed world (R217). -/
def inCtrArea (far : Bool) (o : Nat) : Bool := decide ((if far then 0x7C0000000 else 0x2E8000000) ≤ o)

def State.major (s : State) (pa : Nat) : Nat := natOf (s.bytesAt (ctrBlock pa) 8)
def State.minor (s : State) (pa : Nat) : Nat :=
  natOf (s.bytesAt (ctrBlock pa) 128) / 2 ^ (7 * (pa / 32 % 128) + 64) % 128
/-- One of the two blocks of R218. A minor counter of 128, which a first store in L1 may reach, counts into the major. -/
def padBlock (world major minor half pa : Nat) : BitVec 128 :=
  BitVec.ofNat 128 (major * 2 ^ 64 + minor * 2 ^ 57 + half * 2 ^ 56 + world * 2 ^ 48 + pa % 2 ^ 48 / 32 * 32)
/-- The 32 bytes of the pad. -/
def padBytes (key : BitVec 256) (world major minor pa : Nat) : List Byte :=
  aes256 key (padBlock world major minor 0 pa) ++ aes256 key (padBlock world major minor 1 pa)
def xorBytes (a b : List Byte) : List Byte := List.zipWith (· ^^^ ·) a b

/-- The world that owns a memory address. -/
def State.worldOf (s : State) (pa : Nat) : Nat := (s.die (paDie pa)).world
/-- Memory that holds plaintext: that of world 0, and the counter blocks. -/
def State.plainAt (s : State) (pa : Nat) : Bool := s.worldOf pa == 0 || inCtrArea (paFar pa) (paLocal pa)

/-- Plaintext of a sector as ciphertext under a pair of counters, or back. -/
def State.crypt (s : State) (pa major minor : Nat) (data : List Byte) : List Byte :=
  if s.plainAt pa then data
  else xorBytes data (padBytes (s.die (paDie pa)).worldKey (s.worldOf pa) major minor pa)
/-- The conversion of ciphertext from one pair of counters to another by the XOR of the two pads (R220, R221). -/
def State.rekey (s : State) (pa : Nat) (old new : Nat × Nat) (data : List Byte) : List Byte :=
  if old = new then data else s.crypt pa new.1 new.2 (s.crypt pa old.1 old.2 data)
/-- The counters that a memory sector is under. -/
def State.ctrs (s : State) (pa : Nat) : Nat × Nat := if s.plainAt pa then (0, 0) else (s.major pa, s.minor pa)

/-- The plaintext of a memory sector. -/
def State.readSector (s : State) (pa : Nat) : List Byte :=
  let sec := pa / 32 * 32
  let c := s.ctrs sec
  s.crypt sec c.1 c.2 (s.bytesAt sec 32)
/-- Its bytes as they stand in memory: a change of contents under the counters that it has. -/
def State.writeRaw (s : State) (pa : Nat) (data : List Byte) (mask : BitVec 32) : State :=
  let sec := pa / 32 * 32
  let c := s.ctrs sec
  s.setBytes sec (s.crypt sec c.1 c.2 (mergeBytes (s.readSector sec) data mask))

/-! ### Integrity tags and poison (R213, R217, R222) -/

/-- The tag in a sector's side band, and the one that its bytes and counters have. -/
def State.tagOf (s : State) (pa : Nat) : BitVec 32 := (find? s.stags (pa / 32)).getD (Config.powerTag (pa / 32))
def State.goodTag (s : State) (pa : Nat) : BitVec 32 :=
  let sec := pa / 32 * 32
  let c := s.ctrs sec
  Config.sectorTag (s.die (paDie sec)).tagKey (s.bytesAt sec 32) sec c.1 c.2
/-- A write computes the tag. -/
def State.retag (s : State) (pa : Nat) : State := { s with stags := sput s.stags (pa / 32) (s.goodTag pa) }
/-- The sectors of a frame's counter block. -/
def ctrSectors (pa : Nat) : List Nat := (List.range 4).map fun k => ctrBlock pa + 32 * k
def State.ctrOk (s : State) (pa : Nat) : Bool := (ctrSectors pa).all fun a => s.tagOf a == s.goodTag a

def State.setCtr (s : State) (pa major minor : Nat) : State :=
  let x := natOf (s.bytesAt (ctrBlock pa) 128)
  let sh := 7 * (pa / 32 % 128) + 64
  let old := x / 2 ^ sh % 128
  let y := x - old * 2 ^ sh + minor * 2 ^ sh
  (ctrSectors pa).foldl State.retag (s.setBytes (ctrBlock pa) (bytesOf 128 (y - y % 2 ^ 64 + major)))

/-- The cause in the side band of a poisoned sector (R214). -/
def State.poison? (s : State) (pa : Nat) : Option Nat := find? s.poisonM (pa / 32)
def State.setPoison (s : State) (pa : Nat) (cause : Option Nat) : State :=
  { s with poisonM := match cause with
      | some c => sput s.poisonM (pa / 32) c
      | none => sdel s.poisonM (pa / 32) }
/-- A wrong tag of its counter block poisons every sector of a page. -/
def State.checkCtr (s : State) (pa : Nat) : State :=
  if s.ctrOk pa then s
  else (List.range 128).foldl (fun s k =>
    let sec := pa / 4096 * 4096 + 32 * k
    if (s.poison? sec).isSome then s else s.setPoison sec (some 3)) s
/-- A fill: the cause of the poison that it meets. -/
def State.fillPoison (s : State) (pa : Nat) : Option Nat × State :=
  match s.poison? pa with
  | some c => (some c, s)
  | none =>
    if s.plainAt pa then (none, s)
    else
      let s := s.checkCtr pa
      match s.poison? pa with
      | some c => (some c, s)
      | none => if s.tagOf pa == s.goodTag pa then (none, s) else (some 2, s.setPoison pa (some 2))

/-- Rewrites every sector of a page under major + 1 and minor 0 (R221). -/
def State.reencrypt (s : State) (pa : Nat) : State :=
  let page := pa / 4096 * 4096
  let maj := s.major pa
  let plain := (List.range 128).map fun k => s.readSector (page + 32 * k)
  (List.range 128).foldl (fun s k =>
    let sec := page + 32 * k
    ((s.setBytes sec (s.crypt sec (maj + 1) 0 (plain.getD k []))).setCtr sec (maj + 1) 0).retag sec) s

/-! ### The undo log of intervals (R289) -/

/-- The contexts whose interval logs the sector: it lies at one of their controllers, and it is not logged yet. -/
def State.undoers (s : State) (pa : Nat) : List Nat :=
  (s.ctxs.filter fun p =>
    p.2.ivlOn && decide (p.2.ccb.ibase ≤ paCtrl pa) && decide (paCtrl pa < p.2.ccb.ibase + 2 ^ p.2.ccb.ik) &&
      !(p.2.undo.any fun u => u.pa == pa / 32 * 32)).map (·.1)
def Ctx.undoRoom (c : Ctx) : Bool :=
  decide ((c.undo.length + 1) * Config.undoEntryBytes ≤ c.ccb.undoSize)
/-- The minor of a write of a sector, which overflows past 127 (R221). -/
def State.nextMinor (s : State) (pa minorIn : Nat) : Nat := max (s.minor pa + 1) minorIn
def State.overflows (s : State) (pa minorIn : Nat) : Bool := !s.plainAt pa && decide (127 < s.nextMinor pa minorIn)

/-- A write of a sector to memory (R221): its plaintext under the next minor. Bytes outside the mask stay; a write of
less than the sector leaves its poison (R213). -/
def State.writePlain (s : State) (pa minorIn : Nat) (data : List Byte) (mask : BitVec 32) : State :=
  let sec := pa / 32 * 32
  let full := mask == BitVec.allOnes 32
  let s := if s.plainAt sec then s else if full then s.checkCtr sec else (s.fillPoison sec).2
  let s := if full then s.setPoison sec none else s
  if s.plainAt sec then
    let s := s.writeRaw sec data mask
    if s.worldOf sec = 0 then s else s.retag sec
  else
    let new := mergeBytes (s.readSector sec) data mask
    let ovf := s.overflows sec minorIn
    let m := if ovf then 1 else s.nextMinor sec minorIn
    let s := if ovf then s.reencrypt sec else s
    ((s.setBytes sec (s.crypt sec (s.major sec) m new)).setCtr sec (s.major sec) m).retag sec

/-- The sectors that hold n bytes from an address on hold what the hardware has written there in a layout of its own
(log entries 31 and 34). -/
def State.scribble (s : State) (pa n : Nat) : State :=
  (List.range ((pa + n + 31) / 32 - pa / 32)).foldl (fun t k =>
    let sec := (pa / 32 + k) * 32
    t.writePlain sec 0 ((List.range 32).map fun j => Config.areaByte s.fresh (sec + j)) (BitVec.allOnes 32)) s

/-- Appends the sector's old contents to the undo area of every context that logs it. -/
def State.undoAppend (s : State) (pa va : Nat) : State :=
  let sec := pa / 32 * 32
  let u : UndoRec := { pa := sec, va, old := s.readSector sec, oldPoison := s.poison? sec }
  (s.undoers sec).foldl (fun s c =>
    let x := s.ctx c
    (if x.undoRoom then s.scribble (x.ccb.undoArea + x.undo.length * Config.undoEntryBytes) Config.undoEntryBytes else s).modCtx c
      fun x => { x with undo := x.undo ++ [u] }) s

/-- A write that names no VA: the physical aperture's and the hardware's own. It is no write of a context's memory, and no
interval logs it (R320; log entry 34). -/
def noVa : Nat := 2 ^ 64

/-! ### The recall of a page whose minor counters overflow (R221) -/

/-- The dirty sectors of a page in the L1s, with their plain bytes and dirty masks; the dirty bytes of a trailing copy never reach memory
(R263). -/
def State.dirtyL1 (s : State) (pa : Nat) : List (Nat × Nat × List Byte × BitVec 32) :=
  (s.insts.filter fun i => !(i.2.paired && !i.2.leading)).flatMap fun i =>
    (i.2.l1.filter fun p => p.2.pa / 4096 == pa / 4096 && p.2.dirty != 0).map fun p =>
      (p.2.pa, p.1 % 2 ^ 52 * 32, s.crypt p.2.pa p.2.major p.2.minor p.2.data, p.2.dirty)
/-- The dirty sectors of a page that caches hold, those of L2 first, since L1's bytes are newer. -/
def State.dirtyOfPage (s : State) (pa : Nat) : List (Nat × Nat × List Byte × BitVec 32) :=
  ((s.dies.flatMap fun d => (d.2.l2.filter fun p => p.2.pa / 4096 == pa / 4096 && p.2.dirty != 0).map fun p =>
    (p.2.pa, p.1 % 2 ^ 52 * 32, s.crypt p.2.pa p.2.major p.2.minor p.2.data, p.2.dirty))) ++ s.dirtyL1 pa
/-- Recalls every cached sector of the page, as CINV would: their bytes reach memory, which is about to be rewritten. -/
def State.recallPage (s : State) (pa : Nat) : State :=
  let off (a : Nat) : Bool := a / 4096 != pa / 4096
  let s := (s.dirtyOfPage pa).foldl (fun s x => (s.undoAppend x.1 x.2.1).writeRaw x.1 x.2.2.1 x.2.2.2) s
  { s with
    dies := s.dies.map fun d => (d.1, { d.2 with l2 := d.2.l2.filter fun p => off p.2.pa })
    cores := s.cores.map fun k => (k.1, { k.2 with icache := k.2.icache.filter fun p => off p.2.pa })
    insts := s.insts.map fun i =>
      if i.2.paired && !i.2.leading then i else (i.1, { i.2 with l1 := i.2.l1.filter fun p => off p.2.pa }) }

/-- Whether a write of a sector finds room in the undo area of a context. -/
def State.undoOkOf (s : State) (c pa minorIn : Nat) : Bool :=
  let secs := if s.overflows pa minorIn then (pa / 32 * 32 :: (s.dirtyOfPage pa).map (·.1)).eraseDups else [pa / 32 * 32]
  let n := (secs.filter fun x => (s.undoers x).contains c).length
  n == 0 || decide (((s.ctx c).undo.length + n) * Config.undoEntryBytes ≤ (s.ctx c).ccb.undoSize)
/-- Whether it finds room in every one: where it does not, an interval starts first. -/
def State.undoOk (s : State) (pa minorIn : Nat) : Bool := (skeys s.ctxs).all fun c => s.undoOkOf c pa minorIn

/-- A write of a sector, after its old contents have been logged (R289); a page whose counters overflow is recalled first, and what L1s
held of the sector goes over its bytes, as CINV merges it (R221). -/
def State.writeSector (s : State) (pa va minorIn : Nat) (data : List Byte) (mask : BitVec 32) : State :=
  let sec := pa / 32 * 32
  let ovf := s.overflows sec minorIn
  let newer := if ovf then (s.dirtyL1 sec).filter fun x => x.1 / 32 == sec / 32 else []
  let (data, mask) := newer.foldl (fun (r : List Byte × BitVec 32) x => (mergeBytes r.1 x.2.2.1 x.2.2.2, r.2 ||| x.2.2.2)) (data, mask)
  let s := if ovf then s.recallPage sec else s
  (if va = noVa then s else s.undoAppend sec va).writePlain pa minorIn data mask

/-! ### Vector clocks (R244, R246) -/

/-- Entries have 16 bits and wrap; one is at or before another where it lies less than 2^15 behind it. -/
def vcGet (v : List Nat) (d : Nat) : Nat := v.getD d 0
def vcLe (a b : Nat) : Bool := decide ((b + 65536 - a % 65536) % 65536 < 32768)
def vcMax (a b : List Nat) : List Nat := (List.range 8).map fun d => if vcLe (vcGet a d) (vcGet b d) then vcGet b d else vcGet a d
def vcInc (v : List Nat) (d : Nat) : List Nat :=
  (List.range 8).map fun k => if k = d then (vcGet v k + 1) % 65536 else vcGet v k
/-- Every write that is cause-before the clock and bound for the die has been applied. -/
def State.vcReady (s : State) (dst : Nat) (v : List Nat) : Bool :=
  s.d2d.all fun m => m.dst != dst || !vcLe (vcGet m.vc m.src) (vcGet v m.src)
/-- A die learns of another die's clock. -/
def State.vcLearn (s : State) (d src : Nat) : State :=
  if d = src then s else s.modDie d fun x => { x with vc := vcMax x.vc (s.die src).vc }
/-- Whether a die may send n more writes: no entry runs 2^15 ahead of what a receiving die has applied. -/
def State.vcRoom (s : State) (d n : Nat) : Bool :=
  s.d2d.all fun m => m.src != d || decide ((vcGet (s.die d).vc d + n + 65536 - vcGet m.vc d % 65536) % 65536 < 32768)
/-- An entry that lies 2^15 behind its die's own, all of whose writes up to it have been applied, moves up with it. -/
def vcAge (d now : Nat) (v : List Nat) : List Nat :=
  (List.range 8).map fun k => if k = d && !vcLe (vcGet v k) now then (now + 32769) % 65536 else vcGet v k
/-- A die's clock counts one more write. -/
def State.vcSend (s : State) (d : Nat) : State :=
  let v := vcInc (s.die d).vc d
  let now := vcGet v d
  let s := s.modDie d fun z => { z with vc := v }
  { s with
    dies := s.dies.map fun x => (x.1, { x.2 with vc := vcAge d now x.2.vc })
    d2d := s.d2d.map fun (m : D2d) => { m with vc := vcAge d now m.vc } }

/-! ### L2 (R197, R200, R219) -/

/-- The key of a cached sector. -/
def secKey (asid va : Nat) : Nat := asid * 2 ^ 52 + va / 32
def keyAsid (key : Nat) : Nat := key / 2 ^ 52
def keyVa (key : Nat) : Nat := key % 2 ^ 52 * 32

/-- A sector's tag ASIDs, in the order in which a cache is searched: a page has one of the two. -/
def State.tags (s : State) (ctx : Nat) : List Nat :=
  let b := (s.ctx ctx).ccb
  if b.sasid = 0 then [b.asid] else [b.asid, b.sasid]

def Die.l2Find (d : Die) (tags : List Nat) (va : Nat) : Option (Nat × L2Sec) :=
  tags.findSome? fun a => (find? d.l2 (secKey a va)).map fun x => (a, x)
def Inst.l1Find (i : Inst) (tags : List Nat) (va : Nat) : Option (Nat × L1Sec) :=
  tags.findSome? fun a => (find? i.l1 (secKey a va)).map fun x => (a, x)

/-- The home die of an ordinary-memory address. -/
def State.home (s : State) (ctx va : Nat) : Nat := ctrlOf (s.ctx ctx).ccb va / 8

/-- What an access to one sector finds: where it stands and with which rights. -/
inductive Sec
  | ok (asid pa : Nat) (rt : Rights)
  | miss (ctrl : Nat)
  | refuse (cause : Nat)
  /-- a line has to leave first (R1) -/
  | full
deriving DecidableEq, Repr, Inhabited

/-- The rights of a sector: those of the line at home, else of the translation (R200). -/
def State.rights (s : State) (q : Req) (va : Nat) : Sec :=
  let h := s.home q.ctx va
  let c := ctrlOf (s.ctx q.ctx).ccb va
  if (s.ctx q.ctx).ccb.asid = 0 || decide (64 ≤ c) then .refuse 1
  else if (s.die h).world ≠ q.world then .refuse 3
  else match (s.die h).l2Find (s.tags q.ctx) va with
    | some (a, x) => match x.rights.refusal q.kind q.priv with
      | some c => .refuse c
      | none => .ok a x.pa x.rights
    | none => match s.xlat q va with
      | .hit l pa => .ok l.tag (pa / 32 * 32) l.rights
      | .miss ctrl => .miss ctrl
      | .refuse c => .refuse c

/-- The migration whose page holds a sector of a controller. -/
def State.migOf (s : State) (pa key : Nat) : Option Mig :=
  s.migs.find? fun (m : Mig) => m.ctrl == paCtrl pa && (if m.big then m.page / 2 ^ 21 == keyVa key / 2 ^ 21 else m.page / 2 ^ 12 == keyVa key / 2 ^ 12) &&
    (keyAsid key == m.asid || (s.tlbFind m.ctrl m.asid m.page).elim false fun l => l.tag == keyAsid key)

/-- The plaintext of a cached sector. -/
def State.plainL2 (s : State) (x : L2Sec) : List Byte := s.crypt x.pa x.major x.minor x.data
def State.plainL1 (s : State) (x : L1Sec) : List Byte := s.crypt x.pa x.major x.minor x.data

/-- The dirty bytes of a cached sector reach memory; the sector stays, clean. -/
def State.cleanSec (s : State) (d key : Nat) (x : L2Sec) : State :=
  let plain := s.plainL2 x
  let s := s.writeSector x.pa (keyVa key) x.minor plain x.dirty
  let c := s.ctrs x.pa
  let e := { x with data := s.crypt x.pa c.1 c.2 plain, dirty := 0, major := c.1, minor := c.2 }
  s.modDie d fun y => { y with l2 := smod y.l2 key fun _ => e }
/-- Writes a dirty sector of L2 to memory, and the slice's copy is under the new counters (R221): it waits while a migration holds
its page, and for an interval where an undo area has no room (R289). The answer says whether the sector is clean. -/
def State.cleanL2 (s : State) (d key : Nat) : Bool × State :=
  match find? (s.die d).l2 key with
  | none => (true, s)
  | some x =>
    if x.dirty = 0 then (true, s)
    else if (s.migOf x.pa key).elim false (·.st == .copied) then (false, s)
    else if !s.undoOk x.pa x.minor then (false, s)
    else (true, s.cleanSec d key x)
def State.dropL2 (s : State) (d key : Nat) : Bool × State :=
  let (ok, s) := s.cleanL2 d key
  if ok then (true, s.modDie d fun y => { y with l2 := sdel y.l2 key }) else (false, s)

/-- The slice that holds a sector's line. -/
def keySlice (key : Nat) : Nat := Config.slice (keyAsid key) (keyVa key / 128 * 128) % Config.slices
/-- The first of some lines leaves that can be cleaned. -/
def evictLine (d : Nat) : State → List Nat → State
  | s, [] => s
  | s, l :: r =>
    let (ok, t) := ((skeys (s.die d).l2).filter fun k => k / 4 == l).foldl (fun (a : Bool × State) k =>
      let (ok, s) := a.2.dropL2 d k
      (a.1 && ok, s)) (true, s)
    if ok then t else evictLine d t r
/-- The lines of the slice that holds a sector's line. -/
def State.sliceOf (s : State) (d key : Nat) : List Nat :=
  (((skeys (s.die d).l2).filter fun k => keySlice k == keySlice key).map (· / 4)).eraseDups
/-- Whether a new line finds no room in its slice of 2048 lines (R1). -/
def State.l2Full (s : State) (d key : Nat) : Bool :=
  let l2 := (s.die d).l2
  decide (Config.sliceLines ≤ l2.length) && !l2.any (fun p => p.1 / 4 == key / 4) && decide (Config.sliceLines ≤ (s.sliceOf d key).length)
/-- A line of a full slice leaves, the spec does not say which (log entry 22); none does while none can be cleaned. -/
def State.l2Evict (s : State) (d key : Nat) : State :=
  let lines := s.sliceOf d key
  evictLine d s (lines.rotate ((Config.openRead s.fresh (8 * key + 6)).toNat % lines.length))

/-- Fills a sector into the L2 of its home die. A poisoned sector is never cached as data (R213): cause 5. After a broken rule of R199,
R203 or R212 what a load returns of it is unconstrained (`State.loaded`, log entry 22). -/
def State.fillL2 (s : State) (q : Req) (va : Nat) : Sec × State :=
  let h := s.home q.ctx va
  match s.rights q va with
  | .ok a pa rt =>
    match find? (s.die h).l2 (secKey a va) with
    | some _ => (.ok a pa rt, s)
    | none =>
      match s.fillPoison pa with
      | (some _, s) => (.refuse 5, s)
      | (none, s) =>
        if s.l2Full h (secKey a va) then (.full, s.l2Evict h (secKey a va))
        else
        let c := s.ctrs pa
        let e : L2Sec := { data := s.bytesAt pa 32, dirty := 0, rights := rt, pa, major := c.1, minor := c.2, ctx := q.ctx }
        (.ok a pa rt, s.modDie h fun d => { d with l2 := sput d.l2 (secKey a va) e })
  | o => (o, s)

/-- Dirty bytes under their counters reach a sector of L2 (R220): the slice converts them to its own copy's counters; a sector that it
does not hold it fills, under the counters of the bytes. The bytes of a partial write to a poisoned sector merge into memory, which stays
poisoned (R213). -/
def State.mergeL2 (s : State) (h key pa ctx : Nat) (rt : Rights) (data : List Byte) (mask : BitVec 32) (major minor : Nat) : State :=
  match find? (s.die h).l2 key with
  | some x => s.modDie h fun d =>
    { d with l2 := sput d.l2 key { x with data := mergeBytes x.data (s.rekey pa (major, minor) (x.major, x.minor) data) mask
                                          dirty := x.dirty ||| mask } }
  | none =>
    let full := mask == BitVec.allOnes 32
    let (bad, s) := if full then (none, s) else s.fillPoison pa
    if bad.isSome then s.writeSector pa (keyVa key) minor (s.crypt pa major minor data) mask
    else
      let c := s.ctrs pa
      let new : Nat × Nat := if s.plainAt pa || c.1 != major then c else (major, minor)
      let e : L2Sec := { data := mergeBytes (s.rekey pa c new (s.bytesAt pa 32)) (s.rekey pa (major, minor) new data) mask, dirty := mask
                         rights := rt, pa, major := new.1, minor := new.2, ctx }
      s.modDie h fun d => { d with l2 := sput d.l2 key e }
/-- Plaintext bytes that a slice itself writes, for an atomic, a flow or the hardware: on a clean copy the first of them takes the next
minor, as in L1 (R220). -/
def State.putL2 (s : State) (h key pa ctx : Nat) (rt : Rights) (plain : List Byte) (mask : BitVec 32) : State :=
  match find? (s.die h).l2 key with
  | some x =>
    let m := if s.plainAt pa || x.dirty != 0 then x.minor else x.minor + 1
    s.modDie h fun d =>
      { d with l2 := sput d.l2 key { x with data := s.crypt pa x.major m (mergeBytes (s.plainL2 x) plain mask)
                                            dirty := x.dirty ||| mask, minor := m } }
  | none =>
    let c := s.ctrs pa
    let m := if s.plainAt pa then 0 else c.2 + 1
    s.mergeL2 h key pa ctx rt (s.crypt pa c.1 m plain) mask c.1 m

/-- A request enters the hold queue of a migration once, while the controller's has room (R215). -/
def State.holdIn (s : State) (m : Mig) (x : Held) : Bool × State :=
  if m.held.contains x then (true, s)
  else
    let n := ((s.migs.filter fun (y : Mig) => y.ctrl == m.ctrl).map (·.held.length)).sum
    if Config.holdSize ≤ n then (false, s)
    else (true, { s with migs := s.migs.map fun (y : Mig) => if y == m then { y with held := y.held ++ [x] } else y })
/-- Whether a write of less than a sector goes to memory at once, because its fill meets poison (R213). -/
def State.fillsPoison (s : State) (h key pa : Nat) : Bool := (find? (s.die h).l2 key).isNone && (s.fillPoison pa).1.isSome
/-- A write reaches its home slice (R215, R216): another world's is refused, a migration's hold queue takes that of its page, else it
merges. The answer is false where it has to wait: for room in the queue, or in an undo area. -/
def State.arriveL2 (s : State) (m : D2d) : Bool × State :=
  if (s.die m.dst).world != m.world then (true, s)
  else match (s.migOf m.pa m.key).filter fun (g : Mig) => g.st == .copied with
    | some g => s.holdIn g (.store m)
    | none =>
      if m.mask != BitVec.allOnes 32 && s.fillsPoison m.dst m.key m.pa && !s.undoOk m.pa m.minor then (false, s)
      else if s.l2Full m.dst m.key then (false, s.l2Evict m.dst m.key)
      else (true, s.mergeL2 m.dst m.key m.pa m.ctx m.rights m.data m.mask m.major m.minor)
/-- A write sets out for its home die (R148, R244): one of the same die arrives at once, unless it has to wait. -/
def State.launchWrite (s : State) (m : D2d) : State :=
  let (ok, t) := if m.dst = m.src && !(s.d2d.any fun (x : D2d) => x.src == m.src && x.dst == m.dst && x.key == m.key) then s.arriveL2 m
    else (false, s)
  if ok then t
  else
    let s := s.vcSend m.src
    let (id, s) := s.newId
    { s with d2d := s.d2d ++ [{ m with id, vc := (s.die m.src).vc }] }

/-! ### L1 (R122, R200, R220) -/

/-- A mask of the bytes [lo, lo + n) of a sector. -/
def byteMask (lo n : Nat) : BitVec 32 := BitVec.ofNat 32 ((2 ^ n - 1) * 2 ^ lo)

/-- Bytes of an instance set out for their home. -/
def State.sendHome (s : State) (iid key pa : Nat) (rt : Rights) (data : List Byte) (mask : BitVec 32) (major minor : Nat) : State :=
  let i := s.inst iid
  let d := i.die iid
  s.launchWrite { id := 0, src := d, dst := paDie pa, key, ctx := i.ctx, world := (s.die d).world, data, mask, major, minor, vc := []
                  pa, rights := rt, iid }

/-- Writes the dirty bytes of one L1 sector back: into L2 of the same die at once, to another die over the die-to-die
port with the die's vector clock (R122, R148, R244), unless the die stalls its sends (R246). The dirty bytes of a trailing copy are never
written back (R263). -/
def State.writeback (s : State) (iid key : Nat) : State :=
  let i := s.inst iid
  match find? i.l1 key with
  | none => s
  | some x =>
    if x.dirty = 0 || (i.paired && !i.leading) || !s.vcRoom (i.die iid) 1 then s
    else
      (s.modInst iid fun i => { i with l1 := sput i.l1 key { x with dirty := 0 } }).sendHome iid key x.pa x.rights x.data x.dirty
        x.major x.minor

/-- The pieces of an access by sector: address and length. -/
def sectorsOf (va n : Nat) : List (Nat × Nat) :=
  let first := va / 32
  let last := (va + n - 1) / 32
  if n = 0 then []
  else (List.range (last + 1 - first)).map fun k =>
    let lo := max va ((first + k) * 32)
    let hi := min (va + n) ((first + k + 1) * 32)
    (lo, hi - lo)

/-! ### The room of L1 (R1, R56, R120) -/

/-- The count of a home warp with its growth. -/
def HWarp.count (w : HWarp) : Nat := w.moveTo.getLast?.elim w.n (·.2.2)
/-- Bytes of the regions of a core's instances, of REG those of one home warp apart. -/
def State.regionBytes (s : State) (core iid hw : Nat) : Nat :=
  ((s.insts.filter fun p => p.2.kind == .stage && p.2.core == core).map fun p =>
    ((p.2.hws.filter fun h => h.1 != guideHw && !(p.1 == iid && h.1 == hw)).map fun h => 128 * HWarp.count h.2).sum +
      (p.2.spadSize + 127) / 128 * 128 + 16384 * p.2.accTiles).sum
/-- The lines that the instances of a core have in L1, but for the dirty ones of trailing copies, which nothing writes back (R263; log
entry 22). -/
def State.l1Lines (s : State) (core : Nat) : List (Nat × Nat) :=
  (s.insts.filter fun p => p.2.kind == .stage && p.2.core == core).flatMap fun p =>
    (((p.2.l1.filter fun e => !(p.2.trailing && e.2.dirty != 0)).map (·.1 / 4)).eraseDups).map fun l => (p.1, l)
/-- L1 has what the regions of a core's instances leave of the banked store. -/
def State.l1Cap (s : State) (core : Nat) : Nat := (Config.bankBytes - s.regionBytes core noCtx 0) / 128
/-- Whether a new line of an instance finds no room. -/
def State.l1Full (s : State) (iid key : Nat) : Bool :=
  let i := s.inst iid
  i.kind == .stage && !(i.l1.any fun p => p.1 / 4 == key / 4) &&
    (let n := (s.l1Lines i.core).length
     decide (Config.l1Min / 128 ≤ n) && decide (s.l1Cap i.core ≤ n))
/-- A line leaves L1, its dirty bytes written back; none where they cannot set out yet. -/
def State.dropLine (s : State) (iid line : Nat) : Option State :=
  let ks := (skeys (s.inst iid).l1).filter fun k => k / 4 == line
  let t := ks.foldl (fun s k => s.writeback iid k) s
  if ks.any fun k => (find? (t.inst iid).l1 k).elim false (·.dirty != 0) then none
  else some (t.modInst iid fun i => { i with l1 := i.l1.filter fun p => p.1 / 4 != line })
/-- A line of a core's L1 leaves; the spec does not say which (log entry 22). -/
def State.l1Evict (s : State) (core : Nat) : State :=
  let ls := s.l1Lines core
  ((ls.rotate ((Config.openRead s.fresh (8 * core + 14)).toNat % ls.length)).findSome? fun l => s.dropLine l.1 l.2).getD s
/-- The regions of a core have grown: L1 gives up what it has beyond its share. -/
def State.l1Trim (s : State) (core : Nat) : State :=
  (List.range ((s.l1Lines core).length - s.l1Cap core)).foldl (fun s _ => s.l1Evict core) s

/-- A sector of L1 refilled from L2: the dirty bytes stay (R148), under their counters. -/
def State.refill (s : State) (old : Option L1Sec) (x : L2Sec) : L1Sec :=
  let fresh : L1Sec := { data := x.data, have_ := BitVec.allOnes 32, dirty := 0, rights := x.rights, pa := x.pa, major := x.major
                         minor := x.minor }
  match old with
  | none => fresh
  | some o =>
    if o.dirty = 0 then fresh
    else { fresh with data := mergeBytes (s.rekey x.pa (x.major, x.minor) (o.major, o.minor) x.data) o.data o.dirty
                      dirty := o.dirty, major := o.major, minor := o.minor }

/-- Makes the bytes of one piece present in the instance's L1. -/
def State.fillL1 (s : State) (q : Req) (va n : Nat) : Sec × State :=
  let i := s.inst q.iid
  let m := byteMask (va % 32) n
  let old := i.l1Find (s.tags q.ctx) va
  let fill : Sec × State :=
    match s.rights q va with
    | .ok a _ _ =>
      if s.l1Full q.iid (secKey a va) then (.full, s.l1Evict i.core) else
      match s.fillL2 q va with
      | (.ok a pa rt, s) =>
        let e := (find? (s.die (s.home q.ctx va)).l2 (secKey a va)).getD default
        (.ok a pa rt, s.modInst q.iid fun i => { i with l1 := sput i.l1 (secKey a va) (s.refill (old.map (·.2)) e) })
      | o => o
    | o => (o, s)
  match old with
  | some (a, x) =>
    if x.have_ &&& m = m then
      (match x.rights.refusal q.kind q.priv with
        | some c => (.refuse c, s)
        | none => (.ok a x.pa x.rights, s))
    else fill
  | none => fill

/-- One byte that L1 holds. -/
def State.l1Byte (s : State) (q : Req) (va : Nat) : Byte :=
  match (s.inst q.iid).l1Find (s.tags q.ctx) va with
  | some (_, x) => s.loaded (x.pa + va % 32) (nthByte (s.plainL1 x) (va % 32))
  | none => 0

/-- Accepts the bytes of one piece of a store into L1 (R200, R220): the first store to a clean sector moves it to the next minor. The
rights have been checked. -/
def State.l1Put (s : State) (q : Req) (asid pa va : Nat) (rt : Rights) (bs : List Byte) : State :=
  let key := secKey asid va
  let m := byteMask (va % 32) bs.length
  let data := List.replicate (va % 32) 0 ++ bs
  let next (n : Nat) : Nat := if s.plainAt pa then n else n + 1
  let e : L1Sec := match find? (s.inst q.iid).l1 key with
    | some x =>
      let n := if x.dirty == 0 then next x.minor else x.minor
      { x with data := s.crypt pa x.major n (mergeBytes (s.plainL1 x) data m), have_ := x.have_ ||| m, dirty := x.dirty ||| m, minor := n }
    | none =>
      let c := s.ctrs pa
      { data := s.crypt pa c.1 (next c.2) (mergeBytes [] data m), have_ := m, dirty := m, rights := rt, pa, major := c.1, minor := next c.2 }
  s.modInst q.iid fun i => { i with l1 := sput i.l1 key e }

/-- The release action of .cl and wider (R148). -/
def State.writebackAll (s : State) (iid : Nat) : State :=
  (skeys (s.inst iid).l1).foldl (fun s k => s.writeback iid k) s
/-- Whether a write that some instances have sent from a die waits on its way: between dies, at its own die's slices, or in a hold queue. -/
def State.underway (s : State) (d : Nat) (f : D2d → Bool) : Bool :=
  (s.d2d.any fun m => m.src == d && f m) ||
    s.migs.any fun (g : Mig) => g.held.any fun x => match x with | .store m => m.src == d && f m | _ => false
/-- Whether a dirty sector of an instance has still to go home. -/
def State.l1Dirty (s : State) (iid : Nat) : Bool :=
  let i := s.inst iid
  !(i.paired && !i.leading) && i.l1.any fun p => p.2.dirty != 0
/-- The acquire action of .cl and wider (R148): clean lines go, clean bytes of other lines are stale. -/
def Inst.invalidate (i : Inst) : Inst :=
  { i with l1 := (i.l1.filter fun p => p.2.dirty != 0).map fun p => (p.1, { p.2 with have_ := p.2.dirty }) }

/-! ### Requests that wait for a translation (R207) -/

def State.want? (s : State) (who : Asker) : Option Want := s.wants.find? fun w => w.who == who
def State.dropWant (s : State) (who : Asker) : State := { s with wants := s.wants.filter fun (w : Want) => w.who != who }
/-- A miss: the request waits until a walk has ended. -/
def State.addWant (s : State) (who : Asker) (q : Req) (ctrl va : Nat) : State :=
  match s.want? who with
  | some _ => s
  | none =>
    let (id, s) := s.newId
    { s with wants := s.wants ++ [{ id, who, ctrl, asid := (s.ctx q.ctx).ccb.asid, page := va / 4096 * 4096
                                    kind := if 64 ≤ ctrl then 6 else q.kind, priv := q.priv, world := q.world
                                    ctx := q.ctx, st := .missed }] }

end Sys2Proof.Machine
end

