-- ==== Sys2Proof/Machine/Log.lean ====
section
/-!
DEFINITION. Record and replay (R314 to R319): the records of decisions, writing one, and the gate that a decision
passes in record mode and in replay mode.
-/
namespace Sys2Proof.Machine

/-! ### The ACC window during a pass (R179) -/

/-- The tile of the ACC window that an entry of the reservation table updates. -/
def State.rsvTile (s : State) (r : Rsv) : Nat := (s.inst r.iid).accBase + r.f.tile
/-- Whether a tile of a core has a request whose pass has not completed. -/
def State.accBusy (s : State) (core tile : Nat) : Bool :=
  (s.cluster (core / 4)).resv.any fun p => p.2.core == core % 4 && s.rsvTile p.2 == tile
/-- Every element of a tile in the rows that its pending passes update becomes unspecified. -/
def State.accSpoil (s : State) (core tile : Nat) : State :=
  if s.accBusy core tile then
    s.modCluster (core / 4) fun k => { k with resv := k.resv.map (fun (p : Nat × Rsv) =>
      if p.2.core == core % 4 && s.rsvTile p.2 == tile then (p.1, { p.2 with spoilTile := true }) else p) }
  else s
/-- An access through the ACC window touches tiles. -/
def State.accTouch (s : State) (pa n : Nat) : State :=
  if paWindow pa && paRegion pa == 2 then
    (((List.range n).map fun k => paOff (pa + k) / 16384).eraseDups).foldl (fun s t => s.accSpoil (paCore pa) t) s
  else s

/-- The scale registers of a request that lie at words of its core's REG bank. -/
def State.scaleWords (s : State) (r : Rsv) (words : List Nat) : List Loc :=
  let i := s.inst r.iid
  if !r.f.ta.fourBit then []
  else (r.lanes0 ++ r.lanes1).flatMap fun l => (r.f.scales.flatMap fun u => (List.range u.n).map (u.first + ·)).filterMap fun n =>
    let w := i.hw (i.hwOf l.tid)
    if n < w.n ∧ words.contains (regKey (w.vb + n) (i.laneOf l.tid)) then some (.v l.tid n) else none
/-- A write through the windows of a core touches tiles, and scale registers of pending requests (R179). -/
def State.winTouch (s : State) (pa n : Nat) : State :=
  let s := s.accTouch pa n
  if paWindow pa && paRegion pa == 0 then
    let words := (((List.range n).map fun k => paOff (pa + k) / 4).eraseDups)
    s.modCluster (paCore pa / 4) fun k => { k with resv := k.resv.map fun (p : Nat × Rsv) =>
      if p.2.core == (paCore pa) % 4 then (p.1, { p.2 with wrote := s.scaleWords p.2 words ++ p.2.wrote }) else p }
  else s

/-- A physical address read and written as plaintext, memory or window. -/
def State.paByte (s : State) (pa : Nat) : Byte :=
  if paWindow pa then
    (if paRegion pa == 2 && s.accBusy (paCore pa) (paOff pa / 16384) then (Config.openRead s.fresh (8 * pa + 5)).setWidth 8
     else s.physByte pa)
  else nthByte (s.readSector pa) (pa % 32)
def State.paBytes (s : State) (pa n : Nat) : List Byte := (List.range n).map fun k => s.paByte (pa + k)
/-- Whether a read at a physical address meets poison (R213). -/
def State.paPoison (s : State) (pa : Nat) : Bool × State :=
  if paWindow pa then (false, s)
  else
    let (c, s) := s.fillPoison (pa / 32 * 32)
    (c.isSome, s)
def State.paNat (s : State) (pa n : Nat) : Nat := natOf (s.paBytes pa n)
/-- One piece inside a sector. -/
def State.putPiece (s : State) (pa : Nat) (bs : List Byte) : State :=
  if paWindow pa then
    let s := (s.winTouch pa bs.length).setPhysBytes pa bs
    -- an ordinary store sets the presence of a scratchpad line (R121)
    if paRegion pa == 1 then s.modCore (paCore pa) fun k =>
      { k with absent := k.absent.filter fun l => !(decide (paOff pa / 128 ≤ l) && decide (l ≤ (paOff pa + bs.length - 1) / 128)) }
    else s
  else s.writeSector pa noVa 0 (List.replicate (pa % 32) 0 ++ bs) (byteMask (pa % 32) bs.length)
def State.setPaBytes (s : State) (pa : Nat) (bs : List Byte) : State :=
  (sectorsOf pa bs.length).foldl (fun s p => s.putPiece p.1 ((bs.drop (p.1 - pa)).take p.2)) s

/-! ### Sources (R316) -/

/-- A field of a record. -/
def bytesNat (bs : List Byte) (o n : Nat) : Nat := natOf ((bs.drop o).take n)
def logSrc (die cls unit : Nat) : Nat := die * 8192 + cls * 1024 + unit

/-- The bytes of a record that make its identity (R318). -/
def logIdent (r : List Byte) : List Byte :=
  let pick (ks : List Nat) : List Byte := ks.map fun k => nthByte r k
  match (nthByte r 0).toNat with
  | 0x01 => pick [0, 12, 13, 14, 15]
  | 0x02 => pick [0, 8, 9, 10, 11, 12, 13]
  | 0x03 => pick [0, 4, 5, 6, 7, 8, 9]
  | 0x04 => pick [0, 12]
  | 0x05 => pick [0, 4]
  | 0x06 => pick [0, 5, 7, 8, 9, 10, 11]
  | 0x07 => pick [0, 4, 5, 6, 7, 8]
  | 0x08 => pick [0, 4, 5, 6, 7, 8, 9]
  | 0x09 => pick [0, 8, 9, 10, 11, 12]
  | 0x0A => pick [0, 8, 9, 10, 11, 12]
  | 0x0B => pick [0, 4, 9, 10, 11, 12]
  | 0x0C => pick [0, 4, 12, 13, 14, 15]
  | 0x0D => pick [0, 4, 5, 10, 11, 12, 13]
  | _ => pick [0]

/-- A record without its source's sequence number, which is no part of its payload. -/
def logBare (r : List Byte) : List Byte := r.take 3 ++ [0] ++ r.drop 4
/-- The bytes of a record that a request must agree with. The source itself chooses, and takes over from the log, a formed warp's
serial and the number of a table entry. -/
def logChosen (r : List Byte) : List Byte :=
  let r := logBare r
  match (nthByte r 0).toNat with
  | 0x04 => r.take 13 ++ [0] ++ r.drop 14
  | 0x06 => r.take 4 ++ [0] ++ r.drop 5
  | _ => r
/-- Whether a record `n` of the identity of a request `r` differs from it only in what is the source's own decision, so that the source
waits until it can make the recorded one (R318): which threads at one header form a warp, with the marks of byte [14]; the first core
of a gang; the rows of a grant. Formations of other lanes are other requests. -/
def logOther (n r : List Byte) : Bool :=
  match (nthByte r 0).toNat with
  | 0x04 => bytesNat n 4 4 &&& bytesNat r 4 4 == 0 || (n.drop 8).take 5 == (r.drop 8).take 5
  | 0x07 => (n.drop 4).take 10 == (r.drop 4).take 10
  | 0x0B => nthByte n 6 == nthByte r 6
  | _ => false

/-- A record of 16 bytes: its payload stands from byte 4 on. -/
def State.logRec (s : State) (c src typ : Nat) (payload : List Byte) : List Byte :=
  bytesOf 1 typ ++ bytesOf 2 src ++ bytesOf 1 (sget 0 (s.ctx c).log.seqs src) ++ (payload ++ List.replicate 12 0).take 12

def LogRing.room (g : LogRing) : Nat := g.size - (g.producer - g.consumer)
def LogRing.full (g : LogRing) : Bool := decide (g.size ≤ g.producer - g.consumer)
/-- STATUS[0]: a source of the context is stalled (R314, R317, R318). -/
def LogRing.stalled (g : LogRing) : Bool := !g.held.isEmpty || !g.waits.isEmpty
/-- The registers of a context that has rolled back or ended: it is neither stopped nor diverged, and no source waits. -/
def LogRing.fresh (g : LogRing) : LogRing :=
  { g with stopped := false, diverged := false, diverge := none, held := [], ready := [], waits := [], next := [] }
/-- The sources whose records fit now no longer stall. -/
def LogRing.unwait (g : LogRing) : LogRing := { g with waits := g.waits.filter fun w => decide (g.room < w.2) }

/-- A record is written at .pk, through the context's own controllers; event 7 at the threshold (R315, R317). Of a ring that is mapped
writable into its context the contents are undefined: what is read of it, by a load or by a replay, is unconstrained (`State.openRings`,
log entry 22). -/
def State.logWrite (s : State) (c src : Nat) (r : List Byte) : State :=
  let g := (s.ctx c).log
  let s := s.setPaBytes (g.base + 16 * (g.producer % g.size)) r
  let occ := g.producer + 1 - g.consumer
  let hit := decide (g.thresh ≤ occ) && !g.above
  let s := s.modCtx c fun x =>
    { x with log := { x.log with producer := g.producer + 1, above := decide (g.thresh ≤ occ), waits := sdel x.log.waits src
                                 seqs := sset 0 x.log.seqs src ((sget 0 x.log.seqs src + 1) % 256) } }
  if hit then s.pushEvent 0 7 0 c 0 (g.producer + 1) else s

/-- The next unconsumed record of a source in ring order, looking ahead at most SIZE records (R318). Atomics that
arrived from the fabric are skipped. -/
def State.logNext (s : State) (c src : Nat) : Option (Nat × List Byte) :=
  let g := (s.ctx c).log
  ((List.range (min g.size (g.producer - g.replay))).map (g.replay + ·)).findSome? fun k =>
    let r := s.loadedAll (g.base + 16 * (k % g.size)) (s.paBytes (g.base + 16 * (k % g.size)) 16)
    if g.taken.contains k || decide (natOf ((r.drop 1).take 2) ≠ src) ||
        ((nthByte r 0).toNat == 1 && (nthByte r 13).getLsbD 7) then none else some (k, r)

/-- REPLAY advances over consumed records. -/
def LogRing.settle (g : LogRing) : Nat → LogRing
  | 0 => g
  | n + 1 =>
    if g.taken.contains g.replay then
      LogRing.settle { g with replay := g.replay + 1, consumer := g.replay + 1, taken := g.taken.filter (· != g.replay) } n
    else g
def LogRing.consume (g : LogRing) (k src : Nat) : LogRing :=
  LogRing.settle { g with taken := k :: g.taken, next := sdel g.next src, waits := sdel g.waits src
                          seqs := sset 0 g.seqs src ((sget 0 g.seqs src + 1) % 256) } (g.taken.length + 1)

/-- A decision of a source passes: with neither REC nor RPL at once; in record mode when its record is written; in
replay mode when it is the source's next record, which REPLAY_RECORD_APPLY has brought there. Else it is held, and a
record of its identity that differs elsewhere is a divergence (R317 to R319). -/
def State.gate (s : State) (c src typ : Nat) (payload : List Byte) : Bool × State :=
  let x := s.ctx c
  let g := x.log
  let r := s.logRec c src typ payload
  if x.ccb.recB then
    if g.ready.any fun p => p.1 == src && logBare p.2 == logBare r then
      (true, s.modCtx c fun x => { x with log := { x.log with ready := x.log.ready.filter fun p => p.1 != src || logBare p.2 != logBare r } })
    else if (g.held ++ g.ready).any fun p => p.1 == src then (false, s)
    else if g.full then
      (false, s.modCtx c fun x => { x with log := { x.log with held := x.log.held ++ [(src, r)] } })
    else (true, s.logWrite c src r)
  else if x.ccb.rplB then
    match find? g.next src with
    | none => (false, s)
    | some (k, n) =>
      if logChosen n = logChosen r then (true, s.modCtx c fun x => { x with log := x.log.consume k src })
      else if logIdent n = logIdent r && logOther n r then (false, s)
      else if logIdent n = logIdent r then
        (false, s.modCtx c fun x => { x with log := { x.log with diverge := some (1, k) } })
      else if (nthByte n 0).toNat = 0x0F then
        (false, s.modCtx c fun x => { x with log := { x.log with diverge := some (3, k) } })
      else (false, s)
  else (true, s)

/-- The next record of a source is brought to it (R318). -/
def State.applyNext (s : State) (c src : Nat) : State :=
  match find? (s.ctx c).log.next src, s.logNext c src with
  | none, some r => s.modCtx c fun x => { x with log := { x.log with next := sput x.log.next src r } }
  | _, _ => s

/-- The later records of one decision follow the first. -/
def State.gateMore (s : State) (c src typ : Nat) : List (List Byte) → Bool × State
  | [] => (true, s)
  | p :: ps =>
    let (b, s) := (if (s.ctx c).ccb.rplB then s.applyNext c src else s).gate c src typ p
    if b then s.gateMore c src typ ps else (false, s)

/-- Several records of one decision, in order: all or none. -/
def State.gateAll (s : State) (c src typ : Nat) (ps : List (List Byte)) : Bool × State :=
  let g := (s.ctx c).log
  if (s.ctx c).ccb.recB && decide (g.size < g.producer - g.consumer + ps.length) then
    (false, s.modCtx c fun x => { x with log := { x.log with waits := sput x.log.waits src ps.length } })
  else match ps with
  | [] => (true, s)
  | p :: ps =>
    let (b, s1) := s.gate c src typ p
    if !b then (false, s1)
    else
      let (b, s2) := s1.gateMore c src typ ps
      if b then (true, s2) else (false, s.modCtx c fun x => { x with log := { x.log with diverge := (s2.ctx c).log.diverge } })

end Sys2Proof.Machine
end

