-- ==== Sys2Proof/Machine/Basket.lean ====
section
/-!
DEFINITION. Generator mode (R123 to R126): the Basket, its switch points, and the Consume of a frame.
-/
namespace Sys2Proof.Machine

def Frame.empty : Frame := ⟨[], 0⟩
def Basket.frame (b : Basket) (f1 : Bool) : Frame := if f1 then b.f1 else b.f0
def Basket.setFrame (b : Basket) (f1 : Bool) (f : Frame) : Basket := if f1 then { b with f1 := f } else { b with f0 := f }
def Frame.count (f : Frame) : Nat := f.entries.length

/-- One entry goes to the filling frame, or to the other frame once the filling frame is full (R124). -/
def Basket.push (b : Basket) (e : List Word) : Basket :=
  let k := if (b.frame b.filling).count < 32 then b.filling else !b.filling
  let f := b.frame k
  let b := { b with ages := b.ages + 1 }
  b.setFrame k { entries := f.entries ++ [e], age := if f.entries.isEmpty then b.ages else f.age }

/-- The threads of a home warp. -/
def Inst.hwTids (i : Inst) (hw : Nat) : List Nat := (i.ths.filter fun p => i.hwOf p.1 == hw).map (·.1)

/-- P: the producer lanes that have not executed GEN.PEND. -/
def Inst.producers (i : Inst) (hw : Nat) : Nat :=
  (i.ths.filter fun p => i.hwOf p.1 == hw && p.2.status != .exited && !p.2.pended).length

/-- What a switch point decides: 0 continue, 1 consume the filling frame, 2 drain (R125). -/
def Basket.decide (b : Basket) (p : Nat) : Nat :=
  let c := (b.frame b.filling).count
  if p = 0 then 2 else if c = 32 ∨ (b.t ≤ c ∧ p < b.t) then 1 else 0

/-- A lane of a Consume is active while it has an entry. -/
def Basket.consumer (b : Basket) (lane : Nat) : Bool :=
  match b.consuming with
  | none => false
  | some k => Nat.blt lane (b.frame k).count

/-- Starts a Consume: producers keep where they stopped, the lanes with an entry go to the consumer body, counting in
their home warp's flags (R126). -/
def Inst.consume (i : Inst) (hw : Nat) (k : Bool) : Inst :=
  match (i.hw hw).basket with
  | none => i
  | some b =>
    let n := (b.frame k).count
    let mine (w : Warp) : Bool := w.tids.any fun t => i.hwOf t == hw
    let i := i.modHw hw fun w =>
      { w with basket := some { b with consuming := some k, nexted := [], paths := b.paths ++ i.warps.filter mine } }
    let i := { i with warps := i.warps.filter fun (w : Warp) => !mine w }
    (i.hwTids hw).foldl (fun i t => i.modTh t fun th =>
      let th := { th with susp := some (th.susp.getD ⟨th.pc, th.status, th.sub, th.warp⟩), warp := 0 }
      if i.laneOf t < n && th.status != .exited then ({ th with pc := b.consEntry + 8, sub := 0 } : Thread).settle else th) i

/-- A thread returns to the state that the Consume suspended, or to what has happened to it since. -/
def Thread.unsuspend (t : Thread) : Thread :=
  match t.susp with
  | none => t
  | some u =>
    if t.status == .exited then { t with susp := none }
    else { t with pc := u.pc, status := u.status, sub := u.sub, warp := u.warp, susp := none }

/-- Leaves generator mode: all threads continue at the exit header. -/
def Inst.leaveGen (i : Inst) (hw : Nat) (b : Basket) : Inst :=
  let i := i.modHw hw fun w => { w with basket := none }
  (i.hwTids hw).foldl (fun i t => (i.modTh t fun th =>
    let th := th.unsuspend
    if th.status == .exited then th else ({ th with pc := b.exitHdr + 8, pended := false } : Thread).settle).unwarp t) i

/-- The drain: the older-filled frame first, then the other, then the exit header. -/
def Inst.drain (i : Inst) (hw : Nat) : Inst :=
  match (i.hw hw).basket with
  | none => i
  | some b =>
    let i := i.modHw hw fun w => { w with basket := some { b with draining := true, consuming := none } }
    let n0 := b.f0.count; let n1 := b.f1.count
    if n0 = 0 ∧ n1 = 0 then i.leaveGen hw b
    else if n1 = 0 ∨ (n0 ≠ 0 ∧ b.f0.age ≤ b.f1.age) then i.consume hw false
    else i.consume hw true

/-- A switch point of a path of the home warp. -/
def Inst.switchPoint (i : Inst) (hw : Nat) : Inst :=
  match (i.hw hw).basket with
  | none => i
  | some b =>
    let i := i.modHw hw fun w => { w with basket := some { b with yielded := false } }
    if b.consuming.isSome then i
    else match b.decide (i.producers hw) with
      | 2 => i.drain hw
      | 1 => i.consume hw b.filling
      | _ => i

/-- The record of a switch-point evaluation (R316, type 0x05), for lanes that have just ended their producer role. -/
def switchRec (i : Inst) (hw : Nat) (b : Basket) (pending : List Nat) (hdr : DWord) : List Byte :=
  let p := (i.ths.filter fun x => i.hwOf x.1 == hw && x.2.status != .exited && !x.2.pended && !pending.contains x.1).length
  bytesOf 1 hw ++ bytesOf 1 (b.decide p) ++ bytesOf 1 (b.frame b.filling).count ++ bytesOf 1 p ++
    bytesOf 4 (hdr.toNat / 8 % 2 ^ 32)

/-- With the last active lane at the end of the consumer, the Consume ends and every producer path resumes. -/
def Inst.consumeEnd (i : Inst) (hw : Nat) : Inst :=
  match (i.hw hw).basket with
  | none => i
  | some b =>
    match b.consuming with
    | none => i
    | some k =>
      if !((i.hwTids hw).filter fun t => b.consumer (i.laneOf t) && (i.th t).status != .exited).all fun t =>
          b.nexted.contains t then i
      else
        let b := { (b.setFrame k Frame.empty) with consuming := none, nexted := [], yielded := false }
        let b := if b.draining then b else { b with filling := !k }
        let i := i.modHw hw fun w => { w with basket := some b }
        if b.draining then i.drain hw
        else
          let i := (i.hwTids hw).foldl (fun i t => i.modTh t Thread.unsuspend) i
          -- the producer paths resume as the formed warps that they were (R112)
          let paths := (b.paths.map fun (w : Warp) =>
            { w with tids := w.tids.filter fun t => (i.th t).status != .exited }).filter fun (w : Warp) => !w.tids.isEmpty
          { (i.modHw hw fun w => { w with basket := w.basket.map fun b => { b with paths := [] } }) with warps := i.warps ++ paths }

/-- GEN.NEXT: lanes reach the end of the consumer. -/
def Inst.genNext (i : Inst) (hw : Nat) (tids : List Nat) : Inst :=
  let i := tids.foldl (fun i t => (i.modTh t fun th => { th with status := .sleeping .next }).unwarp t) i
  (i.modHw hw fun w => { w with basket := w.basket.map fun b => { b with nexted := (b.nexted ++ tids).eraseDups } }).consumeEnd hw

/-- The threads present but inactive on a path of a home warp in generator mode: the lanes without an entry in a Consume,
else the lanes that have executed GEN.PEND. -/
def Inst.inactive (i : Inst) (hw : Nat) : List Nat :=
  match (i.hw hw).basket with
  | none => []
  | some b => (i.hwTids hw).filter fun t => (i.th t).status != .exited &&
      (if b.consuming.isSome then !b.consumer (i.laneOf t) else (i.th t).pended)

/-- Whether generator mode lets the thread issue: a consumer lane in a Consume, else a producer. -/
def Inst.genIssues (i : Inst) (tid : Nat) : Bool :=
  match (i.hw (i.hwOf tid)).basket with
  | none => true
  | some b => if b.consuming.isSome then b.consumer (i.laneOf tid) else !(i.th tid).pended

end Sys2Proof.Machine
end

