-- ==== Sys2Proof/Machine/Groups.lean ====
section
/-!
DEFINITION. What moves threads between the states of R18: meetings (R113, R114), the end of a demotion (R116), group
operations and elections (R14 to R16, R150 to R153), and exit (R20).
-/
namespace Sys2Proof.Machine

/-! ### Demotion (R116) -/

/-- Ends the demotion of a formed warp: its iteration count restarts. -/
def Warp.promote (w : Warp) : Warp := { w with demoted := false, sibs := 0, spins := [] }
/-- The sleep for a cause is over: the thread is Ready, or Held where its next header is its meeting (R113). A sleep that a
Consume has suspended ends for the return (R126). -/
def Thread.wake (t : Thread) (c : SleepCause) : Thread :=
  if t.status == .sleeping c then { t with status := if t.meet == t.header then .held else .ready }
  else match t.susp with
    | some u => if u.status == .sleeping c then
        { t with susp := some { u with status := if t.meet == u.pc - 8 then .held else .ready } } else t
    | none => t
def State.wake (s : State) (iid tid : Nat) (c : SleepCause) : State :=
  let was := ((s.inst iid).th tid).status
  let s := s.modTh iid tid fun t => t.wake c
  let i := s.inst iid
  if was != .held && (i.th tid).status == .held then (s.sibling iid tid).meetings iid (i.hwOf tid) else s
/-- The sleep for a cause goes on for another. -/
def Thread.resleep (t : Thread) (c d : SleepCause) : Thread :=
  if t.status == .sleeping c then { t with status := .sleeping d }
  else match t.susp with
    | some u => if u.status == .sleeping c then { t with susp := some { u with status := .sleeping d } } else t
    | none => t

/-- A thread falls asleep at an operation; its header is settled when its clause ends. -/
def State.sleep (s : State) (iid tid : Nat) (c : SleepCause) : State :=
  s.modTh iid tid fun t => { t with status := .sleeping c }

/-! ### Groups (R14, R15) -/

def Thread.member (t : Thread) (name : Nat) : Bool := t.status != .exited && (name == 0 || t.slots.contains name)
/-- Members in ascending sr.tid; the Guide comes last (R158). -/
def Inst.members (i : Inst) (name : Nat) : List Nat := (i.ths.filter fun p => p.2.member name).map (·.1)

/-- The named groups with members on a core. -/
def State.groupsOn (s : State) (core : Nat) : List (Nat × Nat) :=
  ((s.insts.filter fun p => p.2.kind == .stage && p.2.core == core).flatMap fun p =>
    (p.2.ths.filter fun t => t.2.status != .exited).flatMap fun t =>
      (t.2.slots.filter (· != 0)).map fun g => (p.1, g)).eraseDups

/-- JOIN: whether it can be made, and the lowest free slot (R15, R150). -/
def State.canJoin (s : State) (iid tid name : Nat) : Bool :=
  let t := (s.inst iid).th tid
  !t.slots.contains name && t.slots.contains 0 &&
    ((s.groupsOn (s.inst iid).core).contains (iid, name) ||
      decide ((s.groupsOn (s.inst iid).core).length < Config.groupMax))

def putSlot (name : Nat) : List Nat → List Nat
  | [] => []
  | x :: r => if x = 0 then name :: r else x :: putSlot name r

/-! ### Group operations (R151, R152) -/

/-- The group opcode of an instruction: BAR, ELECT, GRED or GBCAST. -/
def groupOpc : Instr → Option Nat
  | .bar .. => some 2
  | .elect .. => some 3
  | .gred .. => some 5
  | .gbcast .. => some 6
  | _ => none

/-- One step of GRED on 64-bit values: value and flags. -/
def gredStep (ty : Ty) (op : GOp) (a b : Nat) : FRes :=
  let w := if ty.wide then 64 else 32
  match ty with
  | .f32 => match op with
    | .add => fpAdd Fmt.f32 RMode.rne false a b
    | .min => fpMinMax Fmt.f32 false false a b
    | _ => fpMinMax Fmt.f32 false true a b
  | _ => match op with
    | .add => ⟨(a + b) % 2 ^ w, 0⟩
    | .min => ⟨if valI w ty.signed a ≤ valI w ty.signed b then a else b, 0⟩
    | .max => ⟨if valI w ty.signed a ≥ valI w ty.signed b then a else b, 0⟩
    | .and => ⟨a &&& b, 0⟩
    | .or => ⟨a ||| b, 0⟩
    | .xor => ⟨a ^^^ b, 0⟩

/-- The reduction in ascending sr.tid, with the flags of the whole sequence. -/
def gredAll (ty : Ty) (op : GOp) : List Nat → FRes
  | [] => ⟨0, 0⟩
  | x :: r => r.foldl (fun acc y => let z := gredStep ty op acc.bits y; ⟨z.bits, acc.flags ||| z.flags⟩) ⟨x, 0⟩

/-- Writes of a completed group operation in one member. -/
def dstLocs (i : Inst) (tid d : Nat) (wide : Bool) (x : DWord) : List (Loc × DWord) :=
  if i.isGuide tid then [(.g d, if wide then x else lo32 x)]
  else if wide then [(.v tid d, lo32 x), (.v tid (d + 1), x >>> 32)] else [(.v tid d, lo32 x)]

/-- The arrivals of a group operation with their operand values. -/
def State.arrivals (s : State) (g : GroupOp) : List (Nat × Nat × Instr × DWord) :=
  (g.arrive.insertionSort fun a b => a.1 ≤ b.1).filterMap fun p =>
    match s.op? p.2 with
    | none => none
    | some o => (o.part? p.1).map fun q => (p.1, p.2, o.ins, q.arg 1)

/-- What one arrived member receives (R151). Members that name different types or operations get unspecified values and
flags. -/
def groupResult (i : Inst) (n : Nat) (as : List (Nat × Nat × Instr × DWord)) (a : Nat × Nat × Instr × DWord) :
    List (Loc × DWord) × BitVec 5 :=
  let lead := (as.headD a).1
  match a.2.2.1 with
  | .bar _ pd _ => ([(.p a.1 pd, 1)], 0)
  | .elect _ pd _ => ([(.p a.1 pd, if a.1 = lead then 1 else 0)], 0)
  | .gred _ ty op o =>
    if as.all fun x => match x.2.2.1 with | .gred _ ty' op' _ => ty' == ty && op' == op | _ => false then
      let r := gredAll ty op (as.map fun x => x.2.2.2.toNat)
      (dstLocs i a.1 o.d ty.wide (BitVec.ofNat 64 r.bits), r.flags)
    else (dstLocs i a.1 o.d ty.wide (Config.openRead n (8 * a.1 + 7)), (Config.openRead n (8 * a.1 + 6)).setWidth 5)
  | .gbcast _ ty o =>
    if as.all fun x => match x.2.2.1 with | .gbcast _ ty' _ => ty' == ty | _ => false then
      (dstLocs i a.1 o.d ty.wide ((as.headD a).2.2.2), 0)
    else (dstLocs i a.1 o.d ty.wide (Config.openRead n (8 * a.1 + 7)), (Config.openRead n (8 * a.1 + 6)).setWidth 5)
  | _ => ([], 0)

/-- One member's share of a release: results, flag, and waking; the sleepers of an election go on sleeping (R152). -/
def State.releaseOne (s : State) (iid name : Nat) (as : List (Nat × Nat × Instr × DWord))
    (a : Nat × Nat × Instr × DWord) : State :=
  let i := s.inst iid
  let (ws, fl) := groupResult i s.fresh as a
  let lead := (as.headD a).1
  match a.2.2.1 with
  | .elect .. =>
    if a.1 = lead then (s.partWrites a.2.1 a.1 ws fl).wake iid a.1 (.group name)
    else (s.asyncWrites iid ws).modTh iid a.1 fun t => t.resleep (.group name) (.elect name)
  | _ => (s.partWrites a.2.1 a.1 ws fl).wake iid a.1 (.group name)

/-- An arrival that was held opens or joins the next operation on its group. -/
def Inst.arrive (i : Inst) (name opc tid op : Nat) : Bool × Inst :=
  match i.gops.find? fun (g : GroupOp) => g.name == name with
  | none => (true, { i with gops := i.gops ++ [{ name, opc, await := i.members name, arrive := [(tid, op)] }] })
  | some g =>
    if g.opc = opc && g.await.contains tid && !(g.arrive.any fun a => a.1 == tid) then
      (true, { i with gops := i.gops.map fun (x : GroupOp) =>
        if x.name == name then { x with arrive := x.arrive ++ [(tid, op)] } else x })
    else (false, i)

/-- A member arrives; where its group has another operation pending, the arrival is held. -/
def State.arriveOne (s : State) (iid name opc tid op : Nat) : State :=
  let (ok, i) := (s.inst iid).arrive name opc tid op
  (s.setInst iid i).modOp op fun o => o.modPart tid fun p => { p with arrived := ok }

/-- The held arrivals of a group, oldest first. -/
def State.heldArrivals (s : State) (iid name : Nat) : List (Nat × Nat × Nat) :=
  (s.ops.filter fun (o : PendOp) => o.iid == iid).flatMap fun o =>
    match groupOpc o.ins with
    | none => []
    | some k => (o.parts.filter fun (p : Part) => !p.arrived && p.arg 0 == BitVec.ofNat 64 name).map fun p => (k, p.tid, o.id)

/-- GROUP_RELEASE: when every awaited member has arrived and its earlier accesses are performed, the operation releases; the release is a logged decision
(R151, R316). Then the arrivals it held open the next operation. -/
def State.tryRelease (s : State) (iid name : Nat) : State :=
  let i := s.inst iid
  match i.gops.find? fun (g : GroupOp) => g.name == name with
  | none => s
  | some g =>
    if g.arrive.isEmpty then
      -- its arrivals have gone with their threads: what it held opens the next operation
      (s.heldArrivals iid name).foldl (fun s h => s.arriveOne iid name h.1 h.2.1 h.2.2)
        (s.modInst iid fun i => { i with gops := i.gops.filter fun (x : GroupOp) => x.name != name })
    else if g.await.all (fun t => g.arrive.any fun a => a.1 == t) &&
        g.arrive.all fun a => !s.accessesBefore iid a.1 a.2 true then
      let as := s.arrivals g
      let lead := if g.opc = 3 then (as.map (·.1)).headD 0 else 0
      let (ok, s) := s.gate i.ctx (logSrc (i.core / 128) 4 (i.core % 128)) 0x03
        (bytesOf 2 name ++ bytesOf 4 i.no ++ bytesOf 1 g.opc ++ bytesOf 1 0 ++ bytesOf 4 lead)
      if !ok then s
      else
        let s := s.modInst iid fun i => { i with
          gops := i.gops.filter fun (x : GroupOp) => x.name != name
          elects := if g.opc = 3 then
              i.elects ++ [{ name, leader := lead, sleep := (as.drop 1).map fun a => (a.1, a.2.1) }] else i.elects }
        let s := as.foldl (fun s a => (s.releaseOne iid name as a).sibling iid a.1) s
        (s.heldArrivals iid name).foldl (fun s h => s.arriveOne iid name h.1 h.2.1 h.2.2) s
    else s

/-- The end of an election: its sleepers wake and their operations complete (R152). Its leader has released it (R116). -/
def State.endElection (s : State) (iid name : Nat) : State :=
  let es := (s.inst iid).elects.filter fun (e : Election) => e.name == name
  let s := s.modInst iid fun i => { i with elects := i.elects.filter fun (e : Election) => e.name != name }
  es.foldl (fun s e => e.sleep.foldl (fun s p => (s.partDone p.2 p.1).wake iid p.1 (.elect name)) (s.sibling iid e.leader)) s

/-- A member leaves a group (R16): it is no longer awaited, and an election that it leads is released. -/
def State.leaveGroup (s : State) (iid tid name : Nat) : State :=
  let s := s.modInst iid fun i => { i with
    gops := i.gops.map fun (g : GroupOp) =>
      if g.name == name && !(g.arrive.any fun a => a.1 == tid) then { g with await := g.await.filter (· != tid) } else g }
  let s := s.modTh iid tid fun t => { t with slots := t.slots.map fun n => if n = name then 0 else n }
  let s := if (s.inst iid).elects.any fun (e : Election) => e.name == name && e.leader == tid then s.endElection iid name
    else s
  s.tryRelease iid name

/-! ### Exit (R18, R20, R153) -/

/-- A thread is taken out of the clause that it issues, its results so far in place (R41). -/
def FWrite.owner (w : FWrite) : Option Nat := w.loc.tid?

/-- Applies one result of a clause. A scalar register may be read by a parked clause of its home warp (R355). -/
def State.apply (s : State) (iid : Nat) (w : FWrite) : State :=
  if w.done then s
  else match w.loc with
  | .s .. => s.asyncWrite iid w.loc w.val
  | _ => (s.modInst iid fun i => i.rememberConts w.loc (s.readLoc iid w.loc)).writeLoc iid w.loc
      (if w.raise then s.readLoc iid w.loc ||| w.val else w.val)

/-- The continuations that have split off from a clause read its later results as those of the threads that went on (R355). -/
def State.lendWrites (s : State) (is : Issue) : State :=
  s.modInst is.iid fun i => { i with subs := i.subs.map fun (g : SubGroup) => { g with cont := g.cont.map fun c =>
    if c.uid == is.uid then
      let later := is.writes.filter fun (w : FWrite) => decide (c.slot ≤ w.slot) && w.owner.isSome
      { c with writes := (later.map fun (w : FWrite) => { w with done := true }) ++ c.writes }
    else c } }

/-- The results of a clause that are readable only after a request has been posted are written in its pending interval (R179). -/
def State.noteClause (s : State) (is : Issue) : State :=
  let k := (s.inst is.iid).core / 4
  let late (r : Rsv) (w : FWrite) : Bool := !w.done && r.scaleLoc is.iid w.loc &&
    r.posts.all fun p => p.1 != is.uid || decide (p.2 < w.slot + w.lat)
  if (s.cluster k).resv.any fun p => is.writes.any fun w => late p.2 w then
    s.modCluster k fun c => { c with resv := c.resv.map fun (p : Nat × Rsv) =>
      (p.1, { p.2 with wrote := ((is.writes.filter fun w => late p.2 w).map (·.loc)) ++ p.2.wrote }) }
  else s

/-- The results of a clause that belong to threads that leave it, and the scalar results of their home warps, which the
threads that stay still read as they were (R39). -/
def State.commitFor (s : State) (is : Issue) (tids : List Nat) : State :=
  let i := s.inst is.iid
  let mine (w : FWrite) : Bool := match w.loc with
    | .s h _ => tids.any fun t => i.hwOf t == h
    | .g _ => tids.any fun t => i.isGuide t
    | _ => match w.owner with
      | some t => tids.contains t
      | none => false
  let s := s.noteClause { is with writes := is.writes.filter mine }
  let s := is.writes.reverse.foldl (fun s w =>
    if !mine w || w.done then s
    else match w.loc with
      | .s .. => s.asyncWrite is.iid w.loc w.val
      | _ => s.apply is.iid w) s
  { s with issues := s.issues.map fun (x : Issue) =>
      if x.q == is.q then
        { x with writes := x.writes.map (fun (w : FWrite) => if mine w then { w with done := true } else w) }
      else x }

/-- Threads leave the clause that they issue; a clause without threads is over. -/
def State.leaveIssue (s : State) (iid : Nat) (tids : List Nat) : State :=
  let mine (x : Issue) : Bool := x.iid == iid && x.lanes.any fun l => tids.contains l.tid
  let s := (s.issues.filter mine).foldl (fun s is => s.commitFor is (tids.filter fun t => is.lanes.any fun l => l.tid == t)) s
  let out (x : Issue) : Issue :=
    if mine x then { x with lanes := x.lanes.filter (fun (l : LaneT) => !tids.contains l.tid) } else x
  let xs := s.issues.map out
  -- a clause that has lost every thread leaves no count behind
  let s := (xs.filter fun (x : Issue) => x.lanes.isEmpty).foldl (fun s x =>
    x.fflags.foldl (fun s f => s.modInst x.iid fun i => i.decFlag f.hw f.sub f.flag) (s.lendWrites x)) s
  { s with issues := xs.filter fun (x : Issue) => !x.lanes.isEmpty }

/-- The operations that wait for an event of a home warp none of whose threads is left: they end with it (R20). -/
def State.dropWaits (s : State) (iid hw : Nat) : State :=
  let i := s.inst iid
  if i.ths.any fun p => i.hwOf p.1 == hw && p.2.status != .exited then s
  else
    let s := s.modHw iid hw fun w => { w with grow := none }
    (s.ops.filter fun (o : PendOp) => o.iid == iid && (match o.ins with | .dqpop .. | .reggrow .. => true | _ => false)).foldl (fun s o =>
      (o.parts.filter fun (p : Part) => i.hwOf p.tid == hw).foldl (fun s p =>
        (s.modCore i.core fun k => { k with dqWait := k.dqWait.filter (· != (o.id, hw)) }).partDone o.id p.tid) s) s

/-- A thread exits: its group memberships are left in slot order, then the instance group's; it counts as arrived at
every meeting of its home warp, and its arrivals and waits end with it. -/
def State.exitThread (s : State) (iid tid : Nat) : State :=
  let i := s.inst iid
  if (i.th tid).status == .exited then s
  else
    let named := ((i.th tid).slots.filter (· != 0))
    let s := s.leaveIssue iid [tid]
    let s := s.modInst iid fun i => 
      (i.modTh tid (fun t => { t with status := .exited, pend := [], susp := none })).unwarp tid
    -- operations that only wait for an event of this thread end with it
    let s := (s.ops.filter fun (o : PendOp) => o.iid == iid && (groupOpc o.ins).isSome && (o.part? tid).isSome).foldl
      (fun s o => s.partDone o.id tid) s
    let s := s.modInst iid fun i => { i with
      gops := i.gops.map (fun (g : GroupOp) =>
        { g with arrive := g.arrive.filter (fun a => a.1 != tid), await := g.await.filter (· != tid) })
      elects := i.elects.map (fun (e : Election) => { e with sleep := e.sleep.filter (fun a => a.1 != tid) }) }
    let s := (named ++ [0]).foldl (fun (s : State) g => s.leaveGroup iid tid g) s
    let s := s.modInst iid fun i => i.consumeEnd (i.hwOf tid)
    ((s.dropWaits iid (i.hwOf tid)).sibling iid tid).meetings iid (i.hwOf tid)

/-- Threads exit in ascending sr.tid. They exit together: a group operation at which one of them sleeps does not release to it. -/
def State.exitThreads (s : State) (iid : Nat) (tids : List Nat) : State :=
  let s := s.modInst iid fun i => { i with
    gops := i.gops.map fun (g : GroupOp) => { g with arrive := g.arrive.filter fun a => !tids.contains a.1 } }
  (tids.insertionSort (· ≤ ·)).foldl (fun s t => s.exitThread iid t) s

end Sys2Proof.Machine
end

