-- ==== Sys2Proof/Machine/Account.lean ====
section
/-!
DEFINITION. The lane-cycle account (R328), counter sets (R329), retired counts (R322), and the records of the trace ring (R324, R325).
-/
namespace Sys2Proof.Machine

/-! ### Lane cycles -/

/-- The class of a lane position while an instruction issues (R328). -/
def State.laneClass (s : State) (is : Issue) (c : Ctl) (lane : Nat) : Nat :=
  let i := s.inst is.iid
  match is.lanes.find? fun l => l.lane == lane with
  | some l => if !l.active then 1 else if s.guardAt is c l.tid then 0 else 2
  | none =>
    let hws := (is.lanes.map fun l => i.hwOf l.tid).eraseDups
    if hws.any fun h => match i.th? (h * 32 + lane) with
      | some t => t.status != .exited
      | none => false
    then 1 else 3

/-- The bin of a clause: the lowest-numbered enabled one whose context and range match. -/
def Core.binOf (k : Core) (ctx : Nat) (hdr : DWord) : Option Nat :=
  (k.bins.find? fun p => p.2.ctl.getLsbD 0 && decide (p.2.ctl.toNat / 2 ^ 16 % 2 ^ 16 = ctx) &&
    decide (p.2.base.toNat ≤ hdr.toNat) && decide (hdr.toNat < p.2.limit.toNat)).map (·.1)

def Bin.add (b : Bin) (cls n : Nat) : Bin :=
  { b with cnt := (List.range 5).map fun k => (b.cnt.getD k 0 + (if k = cls then n else 0)) % 2 ^ 48 }

/-- Counter sets that count an event of a home warp (R329). -/
def HWarp.countEv (w : HWarp) (evs : SMap Nat) (ev n : Nat) : HWarp :=
  { w with counters := w.counters.map fun p =>
      if p.2.on && sget 0 evs p.1 == ev then (p.1, { p.2 with count := (p.2.count + n) % 2 ^ 63 }) else p }

/-- What the issue of one instruction counts: lane cycles of the partition and of the home warps' counter sets, and the
retired count of every thread of the formed warp. -/
def State.account (s : State) (is : Issue) (c : Ctl) : State :=
  let s := s.modInst is.iid fun i =>
    is.lanes.foldl (fun i l => i.modTh l.tid fun t => { t with retired := (t.retired + 1) % 2 ^ 48 }) i
  match is.q with
  | .part core p =>
    let i := s.inst is.iid
    let cls := (List.range 32).map fun l => s.laneClass is c l
    let n (k : Nat) : Nat := (cls.filter (· == k)).length
    let bin := (s.core core).binOf i.ctx is.hdrAt
    let s := s.modCore core fun k =>
      let bins := match bin with
        | none => k.bins
        | some b => smod k.bins b fun x =>
          ((((x.add 0 (n 0)).add 1 (n 1)).add 2 (n 2)).add 3 (n 3)).add 4 (32 * c.dly)
      { k with lastIssued := sput k.lastIssued p (i.ctx, is.hdrAt), bins }
    let evs := (s.ctx i.ctx).events
    s.modInst is.iid fun i => (byHw i is.lanes).foldl (fun i g =>
      -- the positions of the home warp's own threads
      let own := (List.range 32).filter fun l => match is.lanes.find? fun x => x.lane == l with
        | some x => i.hwOf x.tid == g.1
        | none => match i.th? (g.1 * 32 + l) with
          | some t => t.status != .exited
          | none => false
      let m (k : Nat) : Nat := (own.filter fun l => cls.getD l 3 == k).length
      i.modHw g.1 fun w =>
        if w.counters.isEmpty then w
        else ((List.range 4).foldl (fun w k => w.countEv evs (3 + k) (m k))
          ((w.countEv evs 0 (1 + c.dly)).countEv evs 2 1)).countEv evs 7 (own.length * c.dly)) i
  | _ => s

/-- The bin of the clause that last issued on a partition takes its idle slots, while it is enabled for that context (R328). -/
def Core.idle (k : Core) (n : Nat) : Core :=
  { k with bins := (svals k.lastIssued).foldl (fun bs x => match k.binOf x.1 x.2 with
      | none => bs
      | some b => smod bs b fun y => y.add 4 (32 * n)) k.bins }
/-- Whether the context of an instance is running, so that its counter sets count (R329). -/
def State.counts (s : State) (i : Inst) : Bool :=
  let x := s.ctx i.ctx
  i.kind == .stage && i.st == .run && !s.halted && !(x.log.stopped || x.log.diverged || x.fatal)
/-- Cycles in which a partition issues nothing (R328), with the counter sets that count them (R329). -/
def State.idleLanes (s : State) (n : Nat) : State :=
  let count (x : Nat × Inst) : Nat × Inst :=
    if s.counts x.2 then
      let evs := (s.ctx x.2.ctx).events
      (x.1, { x.2 with hws := x.2.hws.map fun (h : Nat × HWarp) =>
        let live := (x.2.ths.filter fun t => x.2.hwOf t.1 == h.1 && t.2.status != .exited).length
        (h.1, (h.2.countEv evs 0 n).countEv evs 7 (live * n)) })
    else x
  { s with cores := s.cores.map fun k => (k.1, k.2.idle n), insts := s.insts.map count }

/-! ### The trace ring (R324, R325) -/

/-- Puts whole granules of 32 bytes into the ring of a die. -/
def State.ringPut (s : State) (d : Nat) (bs : List Byte) : State :=
  let t := (s.die d).trace
  let n := bs.length / 32
  let s := (List.range n).foldl (fun s k =>
    s.setPaBytes (t.base.toNat + 32 * ((t.write + k) % t.sizeN)) ((bs.drop (32 * k)).take 32)) s
  s.modDie d fun x => { x with trace := { x.trace with write := t.write + n } }

/-- A source hands a record over; records of one source keep their order. -/
def State.traceQueue (s : State) (d core : Nat) (bs : List Byte) : State :=
  s.modDie d fun x => { x with trace := { x.trace with queue := x.trace.queue ++ [(core, bs)] } }

end Sys2Proof.Machine
end

