-- ==== Sys2Proof/Machine/Access.lean ====
section
/-!
DEFINITION. Memory accesses: the bytes an operation touches (R133, R138, R140, R141), their check (R194 to R206, R213),
loading and storing them, the order in which one thread's accesses are performed (R134, R147), and the scratchpad.
-/
namespace Sys2Proof.Machine

/-! ### What an operation touches -/

def tyBytes (ty : Ty) : Nat :=
  match ty with
  | .i8 | .n8 => 1
  | .i16 | .n16 | .f16 | .bf16 => 2
  | .i64 | .n64 => 8
  | _ => 4
def atyBytes (ty : ATy) : Nat := if ty == .b64 then 8 else 4

/-- The addresses of the words of LDM, STM and MCAST. -/
def wordsAt (ea n stride : Nat) : List (Nat × Nat) := (List.range n).map fun k => ((ea + stride * k) % 2 ^ 64, 4)

/-- The pieces of memory that a part of an operation touches: one access, or the words of LDM and STM. -/
def accPieces (ins : Instr) (p : Part) : List (Nat × Nat) :=
  let ea := (p.arg 0).toNat
  match ins with
  | .ld _ ty _ _ | .st _ ty _ _ => [(ea, tyBytes ty)]
  | .ldm _ n s _ | .stm _ n s _ => wordsAt ea n (if s then 128 else 4)
  | .atom _ _ ty _ | .atomcas _ ty _ | .red _ _ ty _ _ => [(ea, atyBytes ty)]
  | .prepair .. => [(ea / 32 * 32, 32)]
  | .mcast _ n _ _ _ => wordsAt ea n 4
  | _ => []

/-- The pieces of the scratchpad region that a part touches, by offset; LDT's second operand is the row stride. -/
def spadPieces (ins : Instr) (p : Part) : List (Nat × Nat) :=
  let off := (p.arg 0).toNat % 2 ^ 32
  match ins with
  | .lds _ ty _ | .sts _ ty _ => [(off, tyBytes ty)]
  | .ldt _ w _ => (List.range 4).map fun q => (off / 4 * 4 + q * ((p.arg 1).toNat % 2 ^ 32 / 4 * 4), ldtRegs w)
  | .atoms _ _ ty _ | .atomscas _ ty _ => [(off, atyBytes ty)]
  | _ => []

def isRel : Instr → Bool
  | .rel .. | .fence .. => true
  | _ => false
/-- What acquires: later accesses of the thread are performed after it (R119, R147, R151, R161, R234). -/
def isAcq : Instr → Bool
  | .acq .. | .fence .. | .bar .. | .elect .. | .gred .. | .gbcast .. | .dqpop .. | .sqpop .. | .flwait .. => true
  | _ => false

/-- The access code of R210. -/
def accCode : Instr → Nat
  | .ldm .. => 1
  | .atom .. | .atomcas .. | .red .. => 3
  | .claimNew .. | .claimUse .. => 6
  | .flowReg .. | .flowImm .. => 7
  | _ => 0
/-- Whether a failed access parks its thread; the others are store faults (R135). -/
def loadClass : Instr → Bool
  | .ld .. | .ldm .. => true
  | _ => false

def overlaps (a b : Nat × Nat) : Bool := decide (a.1 < b.1 + b.2) && decide (b.1 < a.1 + a.2)
def touches (xs ys : List (Nat × Nat)) : Bool := xs.any fun x => ys.any fun y => overlaps x y
/-- Core windows and the physical aperture, whose accesses are performed in issue order (R194). -/
def uncached (xs : List (Nat × Nat)) : Bool := xs.any fun x => aperOf x.1 == .win || aperOf x.1 == .phys

/-- An operation that acts once for all threads of a home warp. -/
def PendOp.perHw (o : PendOp) : Bool := o.once || (match o.ins with | .dqpop .. => true | _ => false)
/-- Whether an earlier operation of the same thread must be performed first: it shares a byte (R134), both bypass the
caches (R194), or it is an ordering instruction (R147). -/
def State.blocked (s : State) (o : PendOp) (p : Part) : Bool :=
  let i := s.inst o.iid
  let mine := accPieces o.ins p
  let spad := spadPieces o.ins p
  s.ops.any fun (q : PendOp) => q.iid == o.iid && decide (q.id < o.id) && q.parts.any fun (r : Part) =>
    (r.tid == p.tid || ((o.perHw || q.perHw) && i.hwOf r.tid == i.hwOf p.tid)) &&
      (touches mine (accPieces q.ins r) || touches spad (spadPieces q.ins r) ||
        (uncached mine && uncached (accPieces q.ins r)) || isAcq q.ins ||
        (isRel q.ins && accKind o.ins != some .load))

/-! ### Checking an access -/

inductive Chk
  | ok
  | wait
  | refuse (cause va : Nat)
deriving DecidableEq, Repr, Inhabited

/-- A miss of the requester: it waits for a walk, or has been denied. -/
def State.missed (s : State) (who : Asker) (q : Req) (ctrl va : Nat) : Chk × State :=
  match s.want? who with
  | some w =>
    (match w.st with
      | .denied c => if w.page = va / 4096 * 4096 then (.refuse c va, match who with | .op .. => s | _ => s.dropWant who) else (.wait, s.dropWant who)
      | _ => (.wait, s))
  | none => (.wait, s.addWant who q ctrl va)

/-- The rights of a store at its instance's L1, else at the home slice (R200). -/
def State.storeRights (s : State) (q : Req) (va : Nat) : Sec :=
  match (s.inst q.iid).l1Find (s.tags q.ctx) va with
  | some (a, x) => match x.rights.refusal q.kind q.priv with
    | some c => .refuse c
    | none => .ok a x.pa x.rights
  | none => s.rights q va
/-- In a sealed world a store that misses L1 fetches the sector, unless it is poisoned (R200, R213). -/
def State.storeFetch (s : State) (q : Req) (va : Nat) : Sec × State :=
  let r := s.storeRights q va
  match r with
  | .ok a pa _ =>
    if s.l1Full q.iid (secKey a va) then (.full, s.l1Evict (s.inst q.iid).core)
    else if s.plainAt pa || ((s.inst q.iid).l1Find (s.tags q.ctx) va).isSome then (r, s)
    else match s.fillL1 q va 32 with
      | (.refuse 5, s) => (r, s)
      | x => x
  | _ => (r, s)

/-- Whether the instance's L1 holds bytes. -/
def State.l1Has (s : State) (q : Req) (va n : Nat) : Bool :=
  match (s.inst q.iid).l1Find (s.tags q.ctx) va with
  | some (_, x) => x.have_ &&& byteMask (va % 32) n == byteMask (va % 32) n
  | none => false
/-- Whether bytes of the instance for a sector wait for a migration or on their way to their own die's L2: its thread's own stores come
before its loads (R134, R215). -/
def State.ownWaits (s : State) (q : Req) (va : Nat) : Bool :=
  let mine (m : D2d) : Bool := m.iid == q.iid && keyVa m.key == va / 32 * 32
  (s.d2d.any fun m => m.src == m.dst && mine m) ||
    s.migs.any fun (g : Mig) => g.held.any fun x => match x with | .store m => mine m | _ => false

/-- One piece inside a sector. A load fills L1, an atomic L2, each once every write that the die knows of has reached the
home die (R244); a store takes its rights. -/
def State.chkPiece (s : State) (who : Asker) (q : Req) (va n : Nat) : Chk × State :=
  match aperOf va with
  | .peer => (.ok, s)
  | .phys => match s.aperPa q va with
    | .error c => (.refuse c va, s)
    | .ok pa =>
      if q.kind == 0 || q.kind == 2 then
        (match s.paPoison pa with
        | (true, s) => (.refuse 5 va, s)
        | (false, s) => (if q.kind == 2 && !paWindow pa && !s.undoOk pa 0 then .wait else .ok, s))
      else (if !paWindow pa && !s.undoOk pa 0 then .wait else .ok, s)
  | .win => match s.xlat q va with
    | .hit _ _ => (.ok, s)
    | .miss c => s.missed who q c va
    | .refuse c => (.refuse c va, s)
  | .mem =>
    let h := s.home q.ctx va
    let reads := q.kind == 0 || q.kind == 2 || q.kind == 4 || (q.kind == 1 && q.world != 0)
    if reads && !(q.kind == 0 && !q.home && s.l1Has q va n) && (!s.vcReady h (s.die q.die).vc || s.ownWaits q va) then (.wait, s)
    else
      let (o, t) := match q.kind with
        | 0 => if q.home then s.fillL2 q va else s.fillL1 q va n
        | 1 => s.storeFetch q va
        | _ => s.fillL2 q va
      match o with
      | .ok .. => (.ok, if reads then t.vcLearn q.die h else t)
      | .miss c => t.missed who q c va
      | .refuse c => (.refuse c va, t)
      | .full => (.wait, t)

def chkPieces (who : Asker) (q : Req) : State → List (Nat × Nat) → Chk × State
  | s, [] => (.ok, s)
  | s, (va, n) :: r =>
    match s.chkPiece who q va n with
    | (.ok, s) => chkPieces who q s r
    | x => x

/-- Whether a request that the supervisor has released has another of its page before it that is not performed yet (R211). -/
def State.behind (s : State) (who : Asker) : Bool :=
  let live (x : Asker) : Bool := match x with
    | .op id t => (s.op? id).elim false fun o => (o.part? t).isSome
    | .remote id => s.served.any fun (v : Served) => v.id == id
    | _ => false
  match s.resumed.find? fun x => x.1 == who with
  | none => false
  | some (_, page) => (s.resumed.takeWhile fun x => x.1 != who).any fun x => x.2 == page && live x.1

/-- An access of n bytes: the lowest failing byte decides. -/
def State.accCheck (s : State) (who : Asker) (q : Req) (va n : Nat) : Chk × State :=
  if !spanOk va n then (.refuse 1 va, s)
  else if s.behind who then (.wait, s)
  else match chkPieces who q s (sectorsOf va n) with
    | (.refuse c v, s) => (.refuse c v, { s with resumed := s.resumed.filter fun x => x.1 != who })
    | x => x

/-- Accesses one after the other; what they need is in place when the answer is ok. -/
def accChecks (who : Asker) (q : Req) : State → List (Nat × Nat) → Chk × State
  | s, [] => (.ok, s)
  | s, (va, n) :: r =>
    match s.accCheck who q va n with
    | (.ok, s) => accChecks who q s r
    | x => x

/-- The bytes of an access that has been checked in this step. -/
def State.loadPiece (s : State) (q : Req) (va n : Nat) : List Byte :=
  match aperOf va with
  | .mem => (List.range n).map fun k => s.l1Byte q (va + k)
  | .phys => match s.aperPa q va with
    | .ok pa => s.paBytes pa n
    | .error _ => List.replicate n 0
  | .win => match s.xlat q va with
    | .hit _ pa => s.paBytes pa n
    | _ => List.replicate n 0
  | .peer => List.replicate n 0
def State.loadBytes (s : State) (q : Req) (va n : Nat) : List Byte :=
  (sectorsOf va n).flatMap fun p => s.loadPiece q p.1 p.2

def State.storePiece (s : State) (q : Req) (va : Nat) (bs : List Byte) : State :=
  match aperOf va with
  | .mem => match s.storeRights q va with
    | .ok a pa rt => s.l1Put q a pa va rt bs
    | _ => s
  | .phys => match s.aperPa q va with
    -- the first write of an interval to a sector is logged, whatever names it (R289)
    | .ok pa => (if paWindow pa then s else s.undoAppend pa noVa).setPaBytes pa bs
    | .error _ => s
  | .win => match s.xlat q va with
    | .hit _ pa => s.setPaBytes pa bs
    | _ => s
  | .peer => s
def State.storeBytes (s : State) (q : Req) (va : Nat) (bs : List Byte) : State :=
  (sectorsOf va bs.length).foldl (fun s p => s.storePiece q p.1 ((bs.drop (p.1 - va)).take p.2)) s

/-- A load through the ACC window touches the tiles that it reads (R179). -/
def State.loadTouch (s : State) (q : Req) (va n : Nat) : State :=
  (sectorsOf va n).foldl (fun s p => match aperOf p.1 with
    | .win => match s.xlat q p.1 with
      | .hit _ pa => s.accTouch pa p.2
      | _ => s
    | .phys => match s.aperPa q p.1 with
      | .ok pa => s.accTouch pa p.2
      | .error _ => s
    | _ => s) s

/-! ### Bytes at their home slice, for the hardware's own accesses and for other modules -/

/-- The bytes of a checked access at their home slices (kinds 2, 4 and 5 have filled L2 or taken their rights); through a core
window or the physical aperture there is no slice. -/
def State.homePiece (s : State) (q : Req) (va n : Nat) : List Byte :=
  if aperOf va != .mem then s.loadPiece q va n
  else match (s.die (s.home q.ctx va)).l2Find (s.tags q.ctx) va with
  | some (_, x) => s.loadedAll (x.pa + va % 32) (((s.plainL2 x).drop (va % 32)).take n)
  | none => match s.rights q va with
    | .ok _ pa _ => s.loadedAll (pa + va % 32) (((s.readSector pa).drop (va % 32)).take n)
    | _ => List.replicate n 0
def State.homeBytes (s : State) (q : Req) (va n : Nat) : List Byte :=
  (sectorsOf va n).flatMap fun p => s.homePiece q p.1 p.2
/-- One piece of a write at its home slice; during the copy of a migration it enters the hold queue (R215). -/
def State.homePutPiece (s : State) (q : Req) (va : Nat) (bs : List Byte) : State :=
  if aperOf va != .mem then s.storePiece q va bs
  else match s.rights q va with
    | .ok a pa rt =>
      let h := s.home q.ctx va
      let key := secKey a va
      let data := List.replicate (va % 32) 0 ++ bs
      let mask := byteMask (va % 32) bs.length
      if (s.migOf pa key).elim false (·.st == .copied) then
        let c := s.ctrs pa
        s.launchWrite { id := 0, src := h, dst := h, key, ctx := q.ctx, world := q.world, data := s.crypt pa c.1 c.2 data, mask, major := c.1
                        minor := c.2, vc := [], pa, rights := rt, iid := q.iid }
      else s.putL2 h key pa q.ctx rt data mask
    | _ => s
def State.homePut (s : State) (q : Req) (va : Nat) (bs : List Byte) : State :=
  (sectorsOf va bs.length).foldl (fun s p => s.homePutPiece q p.1 ((bs.drop (p.1 - va)).take p.2)) s

/-! ### The scratchpad (R120, R121, R140) -/

/-- A line of the core's SPAD region. -/
def Inst.spadLine (i : Inst) (off : Nat) : Nat := (i.spadBase + off) / 128
def Inst.spadHas (i : Inst) (off n : Nat) : Bool := decide (off + n ≤ i.spadSize)
def State.spadBytes (s : State) (i : Inst) (off n : Nat) : List Byte :=
  (List.range n).map fun k =>
    if i.spadHas (off + k) 1 then sget 0 (s.core i.core).spad (i.spadBase + off + k) else 0
/-- The absent lines that pieces touch; bytes outside the region have none. -/
def State.absentLines (s : State) (i : Inst) (ps : List (Nat × Nat)) : List Nat :=
  ((ps.flatMap fun p => (List.range p.2).filterMap fun k =>
    if i.spadHas (p.1 + k) 1 then some (i.spadLine (p.1 + k)) else none).eraseDups).filter fun l =>
      (s.core i.core).absent.contains l
/-- A store to the scratchpad sets its lines' presence (R121). -/
def State.spadPut (s : State) (i : Inst) (off : Nat) (bs : List Byte) : State :=
  s.modCore i.core fun k =>
    let ls := (List.range bs.length).map fun j => i.spadLine (off + j)
    { k with
      spad := (List.range bs.length).foldl (fun m j => sset 0 m (i.spadBase + off + j) (nthByte bs j)) k.spad
      absent := k.absent.filter fun l => !ls.contains l }

/-! ### The words of LDM that count as transferred (R139) -/

/-- LDM writes words 0 to n − 1 to its registers. -/
def State.ldmPrefix (s : State) (o : PendOp) (p : Part) (n : Nat) : State :=
  match o.ins with
  | .ldm _ _ _ x =>
    let q := s.req o.iid p.tid 0
    let ks := (List.range n).filter fun k => decide (p.done ≤ k)
    s.asyncWrites o.iid (ks.filterMap fun k =>
      let a := (accPieces o.ins p).getD k (0, 4)
      if aperOf a.1 == .peer then none
      else some (.v p.tid (x.d + k), BitVec.ofNat 64 (natOf (s.loadBytes q a.1 4))))
  | _ => s

/-- The lowest failing byte of a part in a page, and how many pieces lie before it. -/
def failVa (ins : Instr) (p : Part) (page : Nat) : Nat :=
  match (accPieces ins p).find? fun x => decide (x.1 < page + 4096) && decide (page < x.1 + x.2) with
  | some x => max x.1 page
  | none => (p.arg 0).toNat
def piecesBefore (ins : Instr) (p : Part) (va : Nat) : Nat :=
  ((accPieces ins p).takeWhile fun x => !(decide (x.1 ≤ va) && decide (va < x.1 + x.2))).length

end Sys2Proof.Machine
end

