-- ==== Sys2Proof/Machine/Clause.lean ====
section
/-!
DEFINITION. Clauses: fetching (R23, R24, R197), traps of a clause (R41, R130, R131, R209, R210, R302), the issue of one
instruction (R45), and the end of a clause (R26, R27, R112 to R118).
-/
namespace Sys2Proof.Machine

/-! ### The poison ring (R214) -/

/-- The hardware's own access to a context's memory, at the home slices. -/
def State.hwReq (s : State) (c kind : Nat) : Req :=
  { iid := 0, ctx := c, priv := 1, world := (s.ctx c).ccb.world, die := (s.ctx c).ccb.ibase / 8, kind }
def State.repairLive (s : State) (c : Nat) : Bool :=
  let b := (s.ctx c).ccb
  b.repair != 0xFF && s.launches.any fun (l : Launch) => l.id == b.repairLaunch && l.ctx == c

/-- Writes what waits, while the ring has room and its page is translated; where the supervisor services the page, the record waits for it
(R211). A context without a repair stage has no poison records. The spec says that no record is dropped, and nothing of a ring page that
is denied: then nobody can read the record, and it is (log entry 80). -/
def State.poisonFlush (s : State) (c : Nat) : Nat → State
  | 0 => s
  | n + 1 =>
    match (s.ctx c).poisoned with
    | [] => s
    | x :: rest =>
      let drop (s : State) : State := s.modCtx c fun x => { x with poisoned := rest }
      match x with
      | .event d r => ((drop s).pushMem d r).poisonFlush c n
      | .poison va cause tag =>
        if !s.repairLive c then (drop s).poisonFlush c n
        else
          let b := (s.ctx c).ccb
          let q := s.hwReq c 2
          match s.accCheck (.ring c) q b.poison 4096 with
          | (.ok, s) =>
            let prod := natOf (s.homeBytes q b.poison 8)
            let cons := natOf (s.homeBytes q (b.poison + 8) 8)
            let named := (List.range (prod - cons)).any fun k =>
              let r := s.homeBytes q (b.poison + 64 + 16 * ((cons + k) % 252)) 10
              natOf (r.take 8) == va / 32 * 32 && natOf (r.drop 8) == tag
            if named then (drop s).poisonFlush c n
            else if 252 ≤ prod - cons then s
            else
              let r := bytesOf 8 (va / 32 * 32) ++ bytesOf 2 tag ++ bytesOf 1 cause ++ bytesOf 1 0 ++ bytesOf 4 (prod % 2 ^ 32)
              ((drop ((s.homePut q (b.poison + 64 + 16 * (prod % 252)) r).homePut q b.poison (bytesOf 8 (prod + 1)))).poisonFlush c n)
          | (.wait, s) => s
          | (.refuse .., s) => (drop s).poisonFlush c n
/-- Every context's. -/
def State.flushRings (s : State) : State :=
  s.ctxs.foldl (fun s x => if x.2.poisoned.isEmpty then s else s.poisonFlush x.1 x.2.poisoned.length) s

/-- The tag ASID of the page that holds an address, as far as a cache or a TLB knows it: the share ASID of a G page (R198). -/
def State.tagAt (s : State) (q : Req) (va : Nat) : Nat :=
  let asid := (s.ctx q.ctx).ccb.asid
  let leaf (ctrl : Nat) : Nat := (s.tlbFind ctrl asid va).elim asid (·.tag)
  match aperOf va with
  | .mem => match (s.die (s.home q.ctx va)).l2Find (s.tags q.ctx) va with
    | some (a, _) => a
    | none => leaf (ctrlOf (s.ctx q.ctx).ccb va)
  | .win => leaf (64 + q.die)
  | _ => asid
/-- The physical address of the sector of a memory address, and the cause of its poison. -/
def State.sectorAt (s : State) (q : Req) (va : Nat) : Option Nat :=
  match aperOf va with
  | .phys => (s.aperPa q va).toOption.map fun pa => pa / 32 * 32
  | .mem => match s.xlat q va with
    | .hit _ pa => some (pa / 32 * 32)
    | _ => none
  | _ => none
def State.poisonAt (s : State) (q : Req) (va : Nat) : Nat := ((s.sectorAt q va).bind s.poison?).getD 1

/-! ### Parked sub-groups (R209, R210) -/

/-- A memory-event record; of a sealed context it shows the page alone (R210, R287). -/
def State.memRec (s : State) (i : Inst) (hw : Nat) (tids : List Nat) (cause access asid : Nat) (va hdr : DWord) : QRec :=
  let z := s.sealed i.ctx
  let mask : BitVec 32 := if hw = guideHw then 0 else tids.foldl (fun m t => m ||| BitVec.twoPow 32 (i.laneOf t)) 0
  qrecOf (bytesOf 8 (if z then va.toNat / 4096 * 4096 else va.toNat) ++ bytesOf 8 (if z then 0 else hdr.toNat) ++
    bytesOf 2 i.ctx ++ bytesOf 2 asid ++ bytesOf 4 i.no ++ bytesOf 1 cause ++ bytesOf 1 access ++
    bytesOf 1 (if hw = guideHw then 0xFF else hw) ++ bytesOf 1 (i.core % Config.coresPerDie) ++ bytesOf 4 mask.toNat) 0
    (i.core % Config.coresPerDie)

/-- Threads of one home warp leave as a parked sub-group whose own set holds the failing instruction's flag. A park on poison hands its
poison records over before the memory-event record (R214); `bad` names other threads' sectors with the causes. -/
def State.parkStage (s : State) (iid hw : Nat) (tids : List Nat) (cause access : Nat) (va hdr : DWord)
    (flag : Option Nat) (bad : List (Nat × Nat) := []) : State :=
  let i := s.inst iid
  let tids := tids.filter fun t => (i.th t).status != .exited
  if tids.isEmpty then s
  else
    let s := s.leaveIssue iid tids
    let fl : SMap Nat := match flag with | none => [] | some f => [(f, 1)]
    let q := s.req iid (tids.headD 0) (match access with | 3 => 2 | 4 | 5 => 3 | _ => 0)
    let tag := if cause = 1 || cause = 6 then (s.ctx i.ctx).ccb.asid else s.tagAt q va.toNat
    let r := s.memRec i hw tids cause access tag va hdr
    let (id, s) := s.newSub iid hw tids fl hdr hdr va (.mem cause access)
    let bad := if cause = 5 && bad.isEmpty then [(va.toNat, s.poisonAt q va.toNat)] else bad
    if bad.isEmpty then s.pushMem (i.die iid) r
    else
      let pa := (s.sectorAt q va.toNat).getD 0
      let s := s.modInst iid fun i => { i with subs := i.subs.map fun (g : SubGroup) => if g.id == id then { g with pa := pa } else g }
      let s := s.modCtx i.ctx fun x =>
        { x with poisoned := x.poisoned ++ bad.map (fun b => .poison b.1 b.2 (s.tagAt q b.1)) ++ [.event (i.die iid) r] }
      s.poisonFlush i.ctx (s.ctx i.ctx).poisoned.length

/-- Whether a trap of a lower order waits at the thread's boundary, so that a park of order 6 comes after it (R130). -/
def Thread.firstTrap (t : Thread) : Bool := t.status != .exited && (t.sfPend != 0 || t.pend.any fun r => r.code < 6 && (!t.hnd || r.nested))
/-- The threads of a park that comes after another trap of one of them leave their clause and wait at its header, so that they
still park as one sub-group (R130, R131, R209). -/
def State.parkWaits (s : State) (iid : Nat) (tids : List Nat) (cause access : Nat) (va : Nat → DWord) (hdr : DWord)
    (flag : Option Nat) (bad : List (Nat × Nat)) : State :=
  let tids := tids.filter fun t => ((s.inst iid).th t).status != .exited
  tids.foldl (fun s t =>
    let why := ((bad.find? fun b => b.1 == (va t).toNat).map (·.2)).getD 0
    s.trapWaits iid [t] ⟨6, cause * 16 + access, va t, hdr, hdr, 0, flag.elim 0 (· + 1), why, ((s.inst iid).th t).hnd⟩) (s.leaveIssue iid tids)

/-- A memory fault of a thread that accesses memory: a parked sub-group of a compute thread, a memory-fault trap at the
next clause boundary of a steward thread (R302); of a walker thread it is noted for the end of its walk. -/
def State.threadFault (s : State) (iid hw : Nat) (tids : List Nat) (cause access : Nat) (va hdr : DWord)
    (flag : Option Nat) (bad : List (Nat × Nat) := []) (vas : SMap DWord := []) : State :=
  match (s.inst iid).kind with
  | .stage =>
    if tids.any fun t => ((s.inst iid).th t).firstTrap then
      s.parkWaits iid tids cause access (fun t => (find? vas t).getD va) hdr flag bad
    else s.parkStage iid hw tids cause access va hdr flag bad
  | _ => s.modTh iid 0 fun t => { t with pend := t.pend ++ [⟨5, cause, va, 0, hdr, 1, 0, 0, false⟩] }

/-! ### The end of a walk (R207, R211, R266) -/

/-- Parts of one operation park together, by home warp (R209): the instruction counts as completed by them, and the
sub-group's record names the byte of its lowest lane. Under ONCE every thread of the home warp parks (R137). -/
def State.parkParts (s : State) (o : PendOp) (tids : List Nat) (cause : Nat) (va : Nat → Nat)
    (bad : List (Nat × Nat) := []) : State :=
  let i := s.inst o.iid
  let hws := ((tids.map i.hwOf).eraseDups).insertionSort (· ≤ ·)
  hws.foldl (fun s h =>
    let ts := tids.filter fun t => i.hwOf t == h
    let all := if (o.ins.ctl.map (·.once)).getD false then
        (o.lanes.filter fun l => i.hwOf l.tid == h).map (·.tid) else ts
    let s := ts.foldl (fun s t =>
      let p := (o.part? t).getD default
      ((s.ldmPrefix o p (piecesBefore o.ins p (va t))).dropWant (.op o.id t)).partDone o.id t) s
    s.threadFault o.iid h all cause (accCode o.ins) (BitVec.ofNat 64 (va (ts.headD 0))) o.hdr o.flag bad
      (ts.map fun t => (t, BitVec.ofNat 64 (va t)))) s

/-- The outcomes of a walk: filled, the supervisor's service, a denial with its cause. -/
inductive WalkEnd
  | fill
  | serv
  | deny (cause : Nat)
deriving DecidableEq, Repr, Inhabited

/-- Whether a request is served by a walk. -/
def Walk.serves (w : Walk) (q : Want) : Bool :=
  q.ctrl == w.ctrl && q.asid == w.asid && q.page == w.page && q.st == .walking

/-- Ends the walk in a cluster's slot: filled requests try again; a denial parks the load-class threads and refuses the
others; a Service parks the load-class threads and holds stores and atomics. -/
def State.endWalk (s : State) (cluster : Nat) (e : WalkEnd) : State :=
  let iid := walkerId cluster
  match (s.cluster cluster).walk with
  | none => s
  | some k =>
    let w := s.walks.getD k default
    let s : State := { s with
                      walks := s.walks.eraseIdx k
                      insts := sdel s.insts iid
                      issues := s.issues.filter (fun (x : Issue) => x.iid != iid)
                      ops := s.ops.filter (fun (o : PendOp) => o.iid != iid)
                      clusters := s.clusters.map (fun (c : Nat × Cluster) =>
                        (c.1, { c.2 with walk := c.2.walk.map (fun j => if k < j then j - 1 else j) })) }
    let s := s.modCluster cluster fun c => { c with walk := none }
    match e with
    | .fill => { s with wants := s.wants.filter fun (x : Want) => !w.serves x }
    | _ =>
      let cause := match e with | .deny c => c | _ => 6
      let settle (x : Want) : Want :=
        if !w.serves x then x
        else match x.who, e with
          | .op id _, .serv => if (s.op? id).elim false fun o => loadClass o.ins then { x with st := .denied cause } else { x with st := .service }
          | .remote _, .serv | .ring _, .serv | .word _, .serv => { x with st := .service }
          | _, _ => { x with st := .denied cause }
      { s with wants := s.wants.map settle }

/-- A walker that would take a trap ends its walk as a denial with cause 1, and the supervisor is told (R266). -/
def State.walkerTrap (s : State) (iid : Nat) : State := (s.walkerFault iid).endWalk (iid - 64) (.deny 1)

/-! ### Traps of a clause -/

/-- A trap for threads of one formed warp, by home warp (R41, R131): they leave the clause with its results so far. -/
def State.trapThreads (s : State) (is : Issue) (tids : List Nat) (code detail : Nat) (addr resume : DWord) (opc : Nat) :
    State :=
  let i := s.inst is.iid
  let ls := is.lanes.filter fun l => tids.contains l.tid
  if ls.isEmpty then s
  else
    let s := s.traceTrap is.iid (is.lanes.map (·.tid)) (ls.map (·.tid)) code
    let s := s.leaveIssue is.iid tids
    match i.kind with
    | .stage =>
      let t : TrapRec := ⟨code, detail, addr, resume, is.hdrAt, laneMask ls, is.idx, opc, false⟩
      (byHw i ls).foldl (fun s g => s.takeTrap is.iid g.1 (g.2.map (·.tid)) t) s
    | .steward =>
      if code = 1 then s.stewardTrap is.iid ⟨1, detail, addr⟩ resume
      else if code = 2 then s.stewardTrap is.iid ⟨2, opc, 0⟩ resume
      else s.stewardOther is.iid detail resume
    | .walker => s.walkerTrap is.iid

/-- Checks 1 to 5 trap the whole formed warp. -/
def State.trapAll (s : State) (is : Issue) (sub opc : Nat) (addr : DWord) : State :=
  s.trapThreads is (is.lanes.map (·.tid)) 1 sub addr is.hdrAt opc

/-- A memory fault where a walker's thread ends its walk at once (R266). -/
def State.memFault (s : State) (iid hw : Nat) (tids : List Nat) (cause access : Nat) (va hdr : DWord)
    (flag : Option Nat) : State :=
  match (s.inst iid).kind with
  | .walker => s.walkerTrap iid
  | _ => s.threadFault iid hw tids cause access va hdr flag

/-! ### Fetching -/

inductive Fetch
  | bytes (bs : List Byte)
  | wait
  | fault (cause : Nat)
deriving DecidableEq, Repr, Inhabited

/-- What a denied or serviced request answers. -/
def Want.answer (w : Want) : Fetch :=
  match w.st with
  | .denied c => .fault c
  | .service => .fault 6
  | _ => .wait

/-- The bytes of one fetch, which lie inside a sector: from the core's instruction cache, from L2, or past the caches in
the core windows and the physical aperture (R194, R197, R206). A poisoned sector is a fault (R213). -/
def State.fetch (s : State) (who : Asker) (iid tid va n : Nat) : Fetch × State :=
  let q := s.req iid tid 3
  let i := s.inst iid
  let miss (s : State) (ctrl : Nat) : Fetch × State :=
    match s.want? who with
    | some w => (match w.answer with
      | .wait => (.wait, s)
      | a => (a, s.dropWant who))
    | none => (.wait, s.addWant who q ctrl va)
  if !spanOk va n then (.fault 1, s)
  else match aperOf va with
  | .peer => (.fault 1, s)
  | .phys => match s.aperPa q va with
    | .error c => (.fault c, s)
    | .ok pa => match s.paPoison pa with
      | (true, s) => (.fault 5, s)
      | (false, s) => (.bytes (s.paBytes pa n), s)
  | .win => match s.xlat q va with
    | .hit _ pa => (.bytes (s.paBytes pa n), s)
    | .miss c => miss s c
    | .refuse c => (.fault c, s)
  | .mem =>
    let cached := (s.tags q.ctx).findSome? fun a => find? (s.core (i.bank iid)).icache (secKey a va)
    match cached with
    | some x => (match x.rights.refusal 3 q.priv with
      | some c => (.fault c, s)
      | none => (.bytes (((s.plainL1 x).drop (va % 32)).take n), s))
    | none =>
      let (o, s) := s.fillL2 q va
      match o with
      | .ok a _ _ =>
        let z := s.refill none ((find? (s.die (s.home q.ctx va)).l2 (secKey a va)).getD default)
        (.bytes (((s.plainL1 z).drop (va % 32)).take n),
         s.modCore (i.bank iid) fun k => { k with icache := sput k.icache (secKey a va) z })
      | .miss c => miss s c
      | .refuse c => (.fault c, s)
      | .full => (.wait, s)

/-- An instruction-fetch fault (R105, R209): the arriving threads park, by home warp. -/
def State.fetchFault (s : State) (iid : Nat) (tids : List Nat) (cause : Nat) (va hdr : DWord) : State :=
  let i := s.inst iid
  (((tids.map i.hwOf).eraseDups).insertionSort (· ≤ ·)).foldl (fun s h =>
    s.memFault iid h (tids.filter fun t => i.hwOf t == h) cause 4 va hdr none) s

/-- Whether an opcode is of class X (R42, R154). -/
def opcX (opc opx : Nat) : Bool :=
  (decide (0x1C1 ≤ opc) && decide (opc ≤ 0x1C6)) || opc == 0x1C8 || opc == 0x2C0 || opc == 0x2C1 || opc == 0x2C5 ||
    opc == 0x3C1 || opc == 0x3C2 || opc == 0x3C3 || opc == 0x3CD ||
    (opc == 0x287 && (opx % 8 == 1 || opx % 8 == 3 || opx % 8 == 4))

/-- What the sequencer reads at its address: an instruction, a sub-cause with the opcode, or nothing yet. -/
inductive Read
  | ins (i : Instr)
  | bad (sub opc : Nat)
  | wait
  | fault (cause : Nat)
deriving DecidableEq, Repr, Inhabited

/-- Reads and decodes the next instruction, with the checks of order 1 to 4 of R41. -/
def State.readIns (s : State) (is : Issue) : Read × State :=
  let a := is.addr.toNat
  let who : Asker := .fetch is.iid (lowest is.lanes).tid
  match s.fetch who is.iid (lowest is.lanes).tid a 8 with
  | (.wait, s) => (.wait, s)
  | (.fault c, s) => (.fault c, s)
  | (.bytes b, s) =>
    let w := natOf b
    match lenOf w with
    | none => (.bad 2 0, s)
    | some len =>
      let opc := field w 10 10
      if 32 < a % 32 + len.bytes then (.bad 1 opc, s)
      else if opcX opc (field w 58 6) && decide (is.idx + 1 < is.hdr.ni) then (.bad 8 opc, s)
      else match (if len.bytes = 8 then (.bytes [], s) else s.fetch who is.iid (lowest is.lanes).tid (a + 8) (len.bytes - 8)) with
        | (.bytes b', s) =>
          (match decodeNat (is.hdr.ctx is.guide) (w + natOf b' * 2 ^ 64) with
            | .ok i => (.ins i, s)
            | .error sub => (.bad sub opc, s))
        | (.wait, s) => (.wait, s)
        | (.fault c, s) => (.fault c, s)

/-! ### The end of a clause -/

/-- The next header of a thread: its taken target, else the header that follows (R27). -/
def Issue.follow (is : Issue) : DWord := is.hdrAt + BitVec.ofNat 64 (8 * is.hdr.size)
def Issue.nextOf (is : Issue) (tid : Nat) : DWord := ((is.next.find? fun p => p.1 == tid).map (·.2)).getD is.follow

/-- The level check of the loop stack at a boundary of the Guide (R118, R159). -/
def loopCheck (h : DWord) : List LoopLv → DWord × List LoopLv
  | [] => (h, [])
  | l :: r =>
    if l.stop = h then
      if 1 < l.count then (l.start, { l with count := l.count - 1 } :: r) else loopCheck h r
    else (h, l :: r)

/-- The signature of a clause's results for the spin detector (R115). -/
def FWrite.items (w : FWrite) : List Nat := [w.loc.key, w.val.toNat]

/-- A taken backward transfer ends an iteration of its target header. -/
def Warp.backward (w : Warp) (target : DWord) : Warp :=
  match w.spins.find? fun (p : Spin) => p.target == target with
  | none => { w with spins := w.spins ++ [⟨target, 0, 0, 0⟩] }
  | some p =>
    let q : Spin := if p.run ≠ 0 ∧ p.cur = p.last then ⟨target, 0, p.cur, p.run + 1⟩ else ⟨target, 0, p.cur, 1⟩
    { w with spins := w.spins.map fun (x : Spin) => if x.target == target then q else x }

/-- The sub-groups of threads at a boundary whose own set is zero rejoin their home warps' flags (R209). -/
def Inst.rejoin (i : Inst) (tids : List Nat) : Inst :=
  let gone := i.subs.filter fun (g : SubGroup) => g.flags.isEmpty && g.cont.isNone &&
    tids.any (fun t => (i.th t).sub == g.id) &&
    i.ths.all (fun p => p.2.sub != g.id || (match p.2.status with | .parked _ => false | _ => true))
  let ids := gone.map (·.id)
  { i with subs := i.subs.filter (fun (g : SubGroup) => !ids.contains g.id)
           ths := i.ths.map (fun p => if ids.contains p.2.sub then (p.1, { p.2 with sub := 0 }) else p) }

/-- A thread arrives at a header: the PC is settled, a delivery whose resume header it is ends, and a Ready thread whose
meeting is there is Held (R9, R27, R113). -/
def Thread.arriveAt (t : Thread) (h : DWord) : Thread :=
  let t := { t with pc := h + 8, hnd := if t.hnd && t.hndRet == h then false else t.hnd }
  if t.status == .ready && t.meet == h then { t with status := .held } else t

/-- The formed warp after its clause (R112): it stays formed when its Ready threads have one next header, else they
enter the pool. -/
def Inst.reform (i : Inst) (is : Issue) : Inst :=
  let ready := (is.lanes.filter fun l => l.active && (i.th l.tid).status == .ready).map (·.tid)
  let hs := (ready.map is.nextOf).eraseDups
  let old := (i.th (ready.headD 0)).warp
  let i := { i with warps := (i.warps.map fun (w : Warp) =>
      { w with tids := w.tids.filter fun t => !(is.lanes.any fun l => l.tid == t) || ready.contains t }).filter fun (w : Warp) =>
        !w.tids.isEmpty }
  if hs.length ≤ 1 && old != 0 then
    (is.lanes.filter fun l => !ready.contains l.tid).foldl (fun i l => i.modTh l.tid fun t => { t with warp := 0 }) i
  else is.lanes.foldl (fun i l => i.unwarp l.tid) i

/-- The issue of a clause by a sibling counts towards the end of a demotion (R116). -/
def Inst.sibIssue (i : Inst) (tids : List Nat) : Inst :=
  { i with warps := i.warps.map fun (w : Warp) =>
      if w.demoted && tids.any (fun t => !w.tids.contains t && w.tids.any (fun u => i.hwOf u == i.hwOf t)) then
        { w with sibs := w.sibs + 1 } else w }

/-- The end of a clause: every result is in place, its size is checked (R26), and the threads go on (R27). -/
def State.endClause (s : State) (is : Issue) : State :=
  let i0 := s.inst is.iid
  let a := if is.addr.toNat % 8 = 4 then is.addr + 4 else is.addr
  let tids := (is.lanes.filter fun l => l.active).map (·.tid)
  -- every location holds the result of its last writer in program order
  let s := is.writes.reverse.foldl (fun s w => s.apply is.iid w) ((s.lendWrites is).noteClause is)
  let s := is.fflags.foldl (fun s f => s.modInst is.iid fun i => i.decFlag f.hw f.sub f.flag) s
  if a ≠ is.follow then (s.setIssue { is with writes := [], fflags := [] }).trapAll { is with writes := [] } 2 0 0
  else
    let s := s.dropIssue is.q
    -- the trace, the spin detector
    let targets := (is.next.map (·.2)).eraseDups
    let s := targets.foldl (fun s h => s.traceEvent is 1 ((is.next.filter fun p => p.2 == h).map (·.1)) h) s
    let s := s.modInst is.iid fun i =>
      { i with warps := i.warps.map fun (w : Warp) =>
          if tids.any fun t => w.tids.contains t then
            let own := is.writes.filter fun (x : FWrite) => x.loc.tid?.elim true fun t => is.lanes.any fun l => l.tid == t
            let w := { w with spins := w.spins.map fun (p : Spin) => p.feed (own.flatMap FWrite.items) }
            if is.back then targets.foldl (fun w h => if h.toNat ≤ is.hdrAt.toNat then w.backward h else w) w else w
          else w }
    -- arrival at the next headers
    let s := s.modInst is.iid fun i => tids.foldl (fun i t =>
      if (i.th t).status == .exited then i
      else
        let (h, ls) := if i.isGuide t then loopCheck (is.nextOf t) i.loops else (is.nextOf t, i.loops)
        ({ i with loops := ls }).modTh t fun th => { th.arriveAt h with lastHdr := is.hdrAt }) i
    let s := s.modInst is.iid fun i => ((i.reform is).sibIssue tids).rejoin tids
    let held := tids.filter fun t => ((s.inst is.iid).th t).status == .held
    let s := held.foldl (fun s t => s.sibling is.iid t) s
    -- generator mode
    let hw := i0.hwOf (lowest is.lanes).tid
    let s := match is.gopen with
      | none => s
      | some b => s.modHw is.iid hw fun w => { w with basket := some b }
    let heldIn (s : State) : List Nat := ((s.inst is.iid).hwTids hw).filter fun t => ((s.inst is.iid).th t).status == .held
    let was := heldIn s
    let s := match is.gend with
      | none => s
      | some .point => s.modInst is.iid fun i => i.switchPoint hw
      | some (.next ts) => s.modInst is.iid fun i => i.genNext hw ts
    let s := s.heldNow is.iid hw ((heldIn s).filter fun t => !was.contains t)
    let i := s.inst is.iid
    let s := s.exitThreads is.iid ((i.hwTids hw).filter fun t => (i.th t).dying && (i.th t).susp.isNone && (i.th t).status != .exited)
    ((is.lanes.map fun l => i0.hwOf l.tid).eraseDups).foldl (fun s h => s.meetings is.iid h) s

/-! ### One instruction -/

/-- The fixed-latency flags whose results are readable at a slot clear (R36). -/
def State.clearDue (s : State) (is : Issue) (slot : Nat) : State :=
  (is.fflags.filter fun f => decide (f.due ≤ slot)).foldl
    (fun s f => s.modInst is.iid fun i => i.decFlag f.hw f.sub f.flag) s

/-! ### Uncorrectable errors (R83, R258, R259) -/

/-- The region that an error of a thread unwinds: the innermost one that holds it, or the one of a depth (R259, R261). -/
def HWarp.target (w : HWarp) (tid : Nat) (u : Uncorr) : Option Region :=
  match u.depth with
  | some d => w.regions[d - 1]?
  | none => (w.regions.filter fun (r : Region) => r.members.contains tid).getLast?

/-- How many regions are open up to the one that an error unwinds; 0 where it unwinds the context. -/
def HWarp.targetDepth (w : HWarp) (tid : Nat) (u : Uncorr) : Nat :=
  (w.target tid u).elim 0 fun r => w.regions.findIdx (fun (x : Region) => x.id == r.id) + 1

/-- A thread consumes an uncorrectable error (R259). The first one stands until the unwinding, but for one that unwinds an outer region,
with which the inner ones unwind (R262). An exited thread consumes one of an access that it has left behind in a region. -/
def Inst.takeError (i : Inst) (tid : Nat) (u : Uncorr) : Inst :=
  let w := i.hw (i.hwOf tid)
  let d := w.targetDepth tid u
  i.modTh tid fun t => match t.uncorr with
    | some v => if d != 0 && decide (d < w.targetDepth tid v) then { t with uncorr := some { u with since := v.since } } else t
    | none => if t.status == .exited && d == 0 then t else { t with uncorr := some u }
/-- A pair region spans both copies (R263): the thread of the other copy consumes the error too, inside whatever it has opened there. -/
def State.consume (s : State) (iid tid cause : Nat) (va hdr : DWord) (depth : Option Nat) : State :=
  let u : Uncorr := { cause, va, hdr, depth, since := s.nextId }
  let i := s.inst iid
  let d := (i.hw (i.hwOf tid)).targetDepth tid u
  let pairAt (i : Inst) : Bool := d != 0 && ((i.hw (i.hwOf tid)).regions[d - 1]?).elim false fun r => r.pair && r.members.contains tid
  let s := s.modInst iid fun i => i.takeError tid u
  match i.partner with
  | none => s
  | some j => if i.paired && pairAt i && pairAt (s.inst j) then s.modInst j fun i => i.takeError tid { u with depth := some d } else s

/-- Whether a result of a clause is one that an instruction has produced for a thread: its own registers, predicates and flags; of
a home warp's representative under ONCE the scalar registers; of the Guide the g registers. -/
def Issue.produced (is : Issue) (i : Inst) (tid : Nat) (w : FWrite) : Bool :=
  !w.done && (w.owner == some tid || (match w.loc with
    | .s h _ => i.hwOf tid == h && (lowest (is.lanes.filter fun l => i.hwOf l.tid == h)).tid == tid
    | .g _ => i.isGuide tid
    | _ => false))
/-- A pipeline error reaches a thread: it consumes the error, on a steward core it has a trap to take at its boundary, in a walker
slot it ends the walk (log entry 77). -/
def State.pipeError (s : State) (iid tid : Nat) (hdr : DWord) : State :=
  match (s.inst iid).kind with
  | .walker => s.walkerTrap iid
  | .steward => s.modTh iid tid fun t => { t with pend := t.pend ++ [⟨8, 1, 0, 0, 0, 1, 0, 0, false⟩] }
  | .stage => s.consume iid tid 1 0 hdr none
/-- The instruction at the nominal slot has failed a check of its results in the threads that were to meet one: they are not
written. -/
def State.failDue (s : State) (is : Issue) : State × Issue :=
  let i := s.inst is.iid
  let hit (t : Nat) (w : FWrite) : Bool := is.produced i t w && w.slot == is.slot
  let due := (is.lanes.map (·.tid)).filter fun t => (i.th t).failNext && is.writes.any (hit t)
  if due.isEmpty then (s, is)
  else
    let is := { is with writes := is.writes.filter fun w => !due.any fun t => hit t w }
    (due.foldl (fun s t => (s.modTh is.iid t fun th => { th with failNext := false }).pipeError is.iid t is.hdrAt) (s.setIssue is), is)

/-- Moves past an instruction: pad words are skipped, the slot counts the delay (R24, R39); after the last one the
clause ends. A precise stop ends it early (R323). -/
def State.advance (s : State) (c : Ctl) (q : Seq) : State :=
  match s.issues.find? fun is => is.q == q with
  | none => s
  | some is =>
    let (s, is) := s.failDue is
    if (s.inst? is.iid).isNone then s else
    let a := is.addr + BitVec.ofNat 64 c.len.bytes
    let last := decide (is.idx + 1 = is.hdr.ni)
    let a := if !last && a.toNat % 32 == 28 then a + 4 else a
    let slot := is.slot + 1 + c.dly
    let s := s.clearDue is slot
    let is := { is with addr := a, idx := is.idx + 1, slot, fflags := is.fflags.filter fun f => !decide (f.due ≤ slot) }
    if last then s.endClause is else s.setIssue is

/-- Privilege and availability (check 5 of R41): sub-cause 12, or 0 for the privilege trap. The levels are those of
R301, the marks P and W of R42, the Guide's list of R158, and R17 for steward cores and walker slots. -/
def guideOk : Instr → Bool
  | .icmp .. | .plogic .. | .mov .. | .sel .. | .movsr .. | .movsrW .. | .nop .. | .bra .. | .jmp .. | .call ..
  | .calli .. | .ret .. | .exit .. | .trap .. | .ld .. | .st .. | .pref .. | .drainst .. | .atom .. | .atomcas ..
  | .red .. | .fence .. | .rel .. | .acq .. | .join .. | .leave .. | .bar .. | .elect .. | .electRel .. | .gkill ..
  | .gred .. | .gbcast .. | .loopn .. | .loopend .. | .dqpush .. | .sqpush .. | .sqpop .. | .gmov .. | .claimNew ..
  | .claimUse .. | .flowReg .. | .flowImm .. | .flwait .. | .clrel .. | .trmark .. => true
  | i => match i.opc with
    | some n => decide (n < 0x80)
    | none => false
/-- The instructions that only the Guide has. -/
def guideOnly : Instr → Bool
  | .loopn .. | .loopend .. | .dqpush .. | .sqpush .. | .sqpop .. | .gmov .. => true
  | _ => false
/-- What steward cores and walker slots lack (R17): the Basket and the matrix instructions, and what needs a stage
instance's scratchpad, groups, queues, regions or claims (log entry 14). -/
def stageOnly (i : Instr) : Bool :=
  match i with
  | .genOpen .. | .genPoint .. | .genTake .. | .genNext .. | .genPend .. | .yield .. => true
  | i => match i.opc with
    | some n => decide (0x300 ≤ n) && decide (n ≤ 0x309)
    | none => false

/-- The lowest level at which an instruction is legal: 0 U, 1 S, 2 M. -/
def minLevel : Instr → Nat
  | .clrevokePg .. | .clrevokeK .. | .eret .. | .tlbinvPg .. | .tlbinvAsid .. | .tlbinvAll .. | .cinvPg ..
  | .cinvAsid .. | .cinvAll .. | .ckptIvl .. | .ckptMem .. | .recctlOff .. | .recctlRec .. | .recctlRpl .. | .movps ..
  | .movpsW .. | .intctlMask .. | .intctlWait .. | .intctlResume .. | .intctlRespg .. | .ctxsaveInst ..
  | .ctxsaveCtx .. | .ctxsaveEnd .. | .ctxload .. | .ctxloadCtx .. => 1
  | .ckptMemrst .. => 2
  | _ => 0
/-- The mark W: legal in a walker slot alone. -/
def walkerOnly : Instr → Bool
  | .tlbfill .. | .wretFill .. | .wretServ .. | .wretDeny .. => true
  | _ => false
/-- PREPAIR and PRESUME are legal at S, and at U in the context's repair stage (R267). -/
def repairOnly : Instr → Bool
  | .prepair .. | .presume .. | .presumeFail .. => true
  | _ => false

inductive Check5
  | ok
  | privilege
  | unavailable
deriving DecidableEq, Repr, Inhabited

def check5 (i : Inst) (is : Issue) (ins : Instr) : Check5 :=
  let level := (i.th (lowest is.lanes).tid).level
  if level < minLevel ins then .privilege
  else if walkerOnly ins && i.kind != .walker then .privilege
  else if repairOnly ins && level == 0 && !(i.kind == .stage && i.repair) then .privilege
  else if is.guide && !guideOk ins then .unavailable
  else if !is.guide && guideOnly ins then .unavailable
  else if i.kind != .stage && stageOnly ins then .unavailable
  else .ok

/-- The vector registers that an instruction names, in its own window (R12), with those whose number only the machine
knows: the words of a Basket entry, the words of a queue record. -/
def windowOf (g : Bool) (ins : Instr) (more : List RU) : List RU :=
  let u := ins.uses g
  u.dst ++ u.src ++ u.vs.map (·.2) ++ (match u.bs with | some (.vec .., r) => [r] | _ => []) ++ more

/-- Threads that fail check 6 with their sub-cause (R41): the lowest of a register beyond the window (9), a reserved or
read-only special register (10). -/
def srBad : Instr → Bool
  | .movsr _ _ sr => decide (10 < sr)
  | .movsrW _ sr _ => !(sr == 5 || sr == 6 || sr == 7 || sr == 8 || sr == 10)
  | _ => false
/-- The tiles that an instruction names (R183). -/
def tilesOf : Instr → List Nat
  | .mma _ f | .mmaj _ f _ => [f.tile]
  | .mwait _ t | .mclr _ _ t | .mstat _ _ t => [t]
  | .mld _ f | .mst _ f => [f.tile]
  | .mswap _ t u => [t, u]
  | _ => []
def check6 (i : Inst) (is : Issue) (ins : Instr) (c : Ctl) (more : List RU) (tid : Nat) : Option Nat :=
  if !is.guide && !c.once && (windowOf false ins more).any (fun r => decide ((i.hw (i.hwOf tid)).n < r.first + r.n)) then some 9
  else if (tilesOf ins).any fun t => decide (i.accTiles ≤ t) then some 9
  else if srBad ins then some 10
  else none

/-- JOIN and LEAVE of a thread that names group 0 fail check 6 (R149). -/
def State.zeroName (s : State) (is : Issue) (ins : Instr) (tid : Nat) : Option Nat :=
  match ins with
  | .join _ _ b | .leave _ _ b =>
    let l := (is.lanes.find? fun l => l.tid == tid).getD default
    if (s.srcB is ⟨l, false⟩ .b32 b).toNat % 4096 = 0 then some 18 else none
  | _ => none

/-- The thread whose predicates stand for a thread's: its own, under ONCE those of its home warp's representative (R33). -/
def Issue.speaker (is : Issue) (i : Inst) (c : Ctl) (tid : Nat) : Nat :=
  if c.once then (lowest (is.lanes.filter fun l => i.hwOf l.tid == i.hwOf tid)).tid else tid

/-- The vector sources of an instruction as the thread reads them: the lane position and the registers. PERM and LANEGET take the lane
from B (R103). -/
def State.laneReads (s : State) (is : Issue) (ins : Instr) (tid : Nat) : List (Nat × RU) :=
  let l := (is.lanes.find? fun l => l.tid == tid).getD default
  let u := ins.uses is.guide
  let vs := match ins with
    | .perm _ o | .laneget _ o => [((s.srcB is ⟨l, false⟩ .b32 o.b).toNat % 32, RU.one o.a.reg)]
    | _ => u.vs.map fun x => (Perm.from x.1.perm l.lane, x.2)
  vs ++ match u.bs with
    | some (.vec _ p, r) => [(Perm.from p l.lane, r)]
    | _ => []

/-- The register of a flag hazard that an instruction would meet in a thread (R40): a register that it writes or reads, where a
permutation reads another lane's that lane's, a scalar register that it reads as B or that DQPOP fills, a predicate, its guard. -/
def State.hazardReg (s : State) (i : Inst) (is : Issue) (ins : Instr) (c : Ctl) (more : List RU) (tid : Nat) : Option Nat :=
  let u := ins.uses is.guide
  let each (rs : List RU) : List Nat := rs.flatMap fun r => (List.range r.n).map (r.first + ·)
  let scal (n : Nat) : Bool := i.hazard (.s (i.hwOf tid) n)
  let hit (n : Nat) : Bool :=
    if c.once then scal n else if is.guide then i.hazard (.g n) else i.hazard (.v tid n)
  let far (j n : Nat) : Bool :=
    if c.once then scal n
    else match is.reach.find? fun l => l.lane == j with
      | none => false
      | some x => if i.isGuide x.tid then i.hazard (.g n) else decide (n < (i.hw (i.hwOf x.tid)).n) && i.hazard (.v x.tid n)
  let own := (match u.bs with | some (.sca _, r) => [r] | _ => []) ++ (match ins with | .dqpop _ d => [RU.many d 4] | _ => [])
  ((((each (u.dst ++ u.src ++ more)).find? hit).orElse fun _ =>
    (s.laneReads is ins tid).findSome? fun x => (each [x.2]).find? (far x.1)).orElse fun _ => (each own).find? scal).orElse fun _ =>
    (u.pd ++ u.ps ++ [c.gp]).find? fun n => n != 0 && i.hazard (.p (is.speaker i c tid) n)

/-- A destination in the scale range of a request that the thread's home warp has issued and whose pass has not completed (R179).
Registers beyond the encoding are results but for a YIELD, which reads them. -/
def State.scaleReg (s : State) (i : Inst) (is : Issue) (ins : Instr) (c : Ctl) (more : List RU) (tid : Nat) : Option Nat :=
  let more := match ins with | .yield .. => [] | _ => more
  let regs := (if c.once then [] else (ins.uses is.guide).dst ++ more).flatMap fun r => (List.range r.n).map (r.first + ·)
  let from_ (r : Rsv) : Bool := r.ops.any fun id => (s.op? id).elim false fun o => o.lanes.any fun l => i.hwOf l.tid == i.hwOf tid
  regs.find? fun n => (s.cluster (i.core / 4)).resv.any fun p =>
    p.2.iid == is.iid && p.2.f.ta.fourBit && from_ p.2 &&
      p.2.f.scales.any fun r => decide (r.first ≤ n) && decide (n < r.first + r.n)

/-- Threads leave with a trap; of an issue that has lost all its threads nothing is left. -/
def State.splitTrap (s : State) (is : Issue) (bad : List (Nat × Nat)) (code opc : Nat) (resume : DWord) : State :=
  ((bad.map (·.2)).eraseDups.insertionSort (· ≤ ·)).foldl (fun s d =>
    s.trapThreads is ((bad.filter fun p => p.2 == d).map (·.1)) code d 0 resume opc) s

/-- What an instruction's own part gives: the state, the issue with its results and targets, or a wait at issue. -/
inductive Did
  | go (s : State)
  | stay (s : State)
deriving DecidableEq, Repr, Inhabited

/-- Issues one instruction for the formed warp (R41, R45): checks 5 and 6, the flag hazard, the stall of R37, then what
the instruction itself does, then the step past it. `more` are registers beyond the encoded ones. -/
def State.issueIns (s : State) (is : Issue) (ins : Instr) (c : Ctl) (more : List RU)
    (body : State → Issue → Did) : State :=
  let i := s.inst is.iid
  let opc := ins.opc.getD 0
  match check5 i is ins with
  | .privilege => s.trapThreads is (is.lanes.map (·.tid)) 2 opc 0 is.hdrAt opc
  | .unavailable => s.trapAll is 12 opc 0
  | .ok =>
    let active := (is.lanes.filter fun l => l.active && s.guardAt is c (is.speaker i c l.tid)).map (·.tid)
    let bad := active.filterMap fun t => ((check6 i is ins c more t).orElse fun _ => s.zeroName is ins t).map fun d => (t, d)
    let haz := if (s.ctx i.ctx).ccb.fhtrap then
        -- a guard that is itself a pending result is read, whatever it reads as
        ((is.lanes.filter (·.active)).map (·.tid)).filterMap fun t =>
          if bad.any fun p => p.1 == t then none
          else if active.contains t then
            ((s.hazardReg i is ins c more t).orElse fun _ => s.scaleReg i is ins c more t).map fun d => (t, d)
          else if c.gp != 0 && i.hazard (.p (is.speaker i c t) c.gp) then some (t, c.gp) else none
      else []
    if !bad.isEmpty || !haz.isEmpty then
      -- the failing threads split off; the others issue the instruction as the formed warp that is left
      (s.splitTrap is bad 1 opc is.hdrAt).splitTrap is haz 3 opc is.follow
    else if ((is.flagOf c.fsel).map fun f => i.flagFull (i.sets is.lanes) f).getD false then s
    else match body s is with
      | .stay s => s
      | .go s => (s.account is c).advance c is.q

/-- An encoded instruction has a clause in focus, or nothing issues it. -/
def inClause (s : State) (f : Issue → State) : Host.Outcome State Fault Refusal :=
  match s.issue? with
  | none => .fault .noClause
  | some is => .next (f is)

/-! ### Bodies -/

/-- A fixed-latency instruction that names a flag (R36): the count rises, and falls when the result is readable. -/
def State.fixedFlag (s : State) (is : Issue) (c : Ctl) (lat : Nat) : State × Issue :=
  match is.flagOf c.fsel with
  | none => (s, is)
  | some f =>
    let sets := (s.inst is.iid).sets is.lanes
    (s.modInst is.iid fun i => i.incFlags sets f,
     { is with fflags := is.fflags ++ sets.map fun p => ⟨p.1, p.2, f, is.slot + lat⟩ })

/-- Records results of the instruction at the nominal slot, the latest first. -/
def Issue.record (is : Issue) (lat : Nat) (ps : List Put) : Issue :=
  { is with writes := (ps.map fun p => (⟨p.loc, p.val, is.slot, lat, p.raise, false⟩ : FWrite)).reverse ++ is.writes }

/-- Folds the runs of an instruction over the state, gathering their results. -/
def foldRuns (f : State → Run → State × List Put) : State → List Run → State × List Put
  | s, [] => (s, [])
  | s, r :: rs =>
    let (s, p) := f s r
    let (s, q) := foldRuns f s rs
    (s, p ++ q)

/-- An F-class instruction: one run per guard-true thread, or per home warp under ONCE. -/
def fixed (ins : Instr) (c : Ctl) (lat : Nat) (run : State → Issue → Run → State × List Put) (s : State) :
    Host.Outcome State Fault Refusal :=
  inClause s fun is => s.issueIns is ins c [] fun s is =>
    let (s, ps) := foldRuns (fun s r => run s is r) s (s.runs is c)
    let (s, is) := s.fixedFlag is c lat
    .go (s.setIssue (is.record lat ps))

/-- A fixed-latency instruction whose runs only compute. -/
def pureFixed (ins : Instr) (c : Ctl) (lat : Nat) (run : State → Issue → Run → List Put) (s : State) :
    Host.Outcome State Fault Refusal :=
  fixed ins c lat (fun s is r => (s, run s is r)) s

/-- A V-class instruction: a part per run, with operands read at issue, and what the issue itself does after that. -/
def flagged (ins : Instr) (c : Ctl) (more : State → Issue → List RU) (parts : State → Issue → List Run → State × List Part)
    (after : State → Issue → Nat → State) (s : State) : Host.Outcome State Fault Refusal :=
  inClause s fun is => s.issueIns is ins c (more s is) fun s is =>
    let (s, ps) := parts s is (s.runs is c)
    let id := s.nextId
    .go (after (s.startOp is ins c ps (more s is)) is id)

def noMore (_ : State) (_ : Issue) : List RU := []
def noAfter (s : State) (_ : Issue) (_ : Nat) : State := s
/-- One part per run with these operands. -/
def partPer (f : State → Issue → Run → List DWord) (s : State) (is : Issue) (rs : List Run) : State × List Part :=
  (s, rs.map fun r => { tid := r.t.tid, lane := r.t.lane, args := f s is r, done := 0, arrived := false })
/-- One part per run, where computing its operands changes the state (the counter of R71). -/
def partFold (f : State → Issue → Run → State × List DWord) (s : State) (is : Issue) : List Run → State × List Part
  | [] => (s, [])
  | r :: rs =>
    let (s, a) := f s is r
    let (s, ps) := partFold f s is rs
    (s, { tid := r.t.tid, lane := r.t.lane, args := a, done := 0, arrived := false } :: ps)
/-- One part per home warp that has a run, under its representative run, in ascending home-warp order. It acts where any active thread of
the home warp has a true guard: whose guard decides for REGGROW, REGSHRINK, DQPOP and DQDONE where they differ is the model's choice (log
entry 85). -/
def partHw (f : State → Issue → Run → List DWord) (s : State) (is : Issue) (rs : List Run) : State × List Part :=
  let i := s.inst is.iid
  let firsts := rs.filter fun r => !(rs.any fun q => i.hwOf q.t.tid == i.hwOf r.t.tid && decide (q.t.lane < r.t.lane))
  (s, (firsts.insertionSort fun p q => i.hwOf p.t.tid ≤ i.hwOf q.t.tid).map fun r =>
    { tid := r.t.tid, lane := r.t.lane, args := f s is r, done := 0, arrived := false })

/-- A control transfer: its taken targets, and what it does beside. Its flag clears at the end of its clause. -/
def transfer (ins : Instr) (c : Ctl) (body : State → Issue → List Run → Did) (s : State) :
    Host.Outcome State Fault Refusal :=
  inClause s fun is => s.issueIns is ins c [] fun s is =>
    match body s is (s.runs is c) with
    | .stay s => .stay s
    | .go s =>
      match s.issues.find? fun (x : Issue) => x.q == is.q with
      | none => .go s
      | some is =>
        let (s, is) := s.fixedFlag is c 1
        .go (s.setIssue is)

/-- Sets taken targets in the clause in flight; `back` where the spin detector watches the transfer (R115). -/
def State.take (s : State) (is : Issue) (ts : List (Nat × DWord)) (back : Bool := false) : State :=
  s.setIssue { is with next := is.next ++ ts, back }

end Sys2Proof.Machine
end

