-- ==== Sys2Proof/Machine/Formation.lean ====
section
/-!
DEFINITION. What issues next (R21, R22, R38, R110 to R117): which threads may issue, the formation of warps, the issue
of a clause, the instruction that a sequencer issues, and the traps that wait at a clause boundary (R128 to R131).
-/
namespace Sys2Proof.Machine

/-! ### Which threads may issue -/

/-- Whether a region that holds the thread is to unwind: one of its members has consumed an error. -/
def Inst.unwinding (i : Inst) (tid : Nat) : Bool :=
  let hw := i.hwOf tid
  !(i.hw hw).regions.isEmpty && i.ths.any fun p => i.hwOf p.1 == hw && (match p.2.uncorr with
    | none => false
    | some u => match (i.hw hw).target p.1 u with
      | none => false
      | some r => r.members.contains tid)

/-- Whether the part of a claim command has checks before it (R227, R228): its walk is not over, but for the wait for FIFO space, or it
has not reached its entry. In that wait its threads go on (R38), since the space may be theirs to release; a revocation then parks them
at the command's clause (R226, R228; log entry 15). -/
def State.claimOpen (s : State) (o : PendOp) (p : Part) : Bool :=
  p.done == 0 && !(s.inst o.iid).trailing && match o.ins with
  | .claimNew .. => !(s.dies.any fun d => d.2.claims.any fun c => c.2.op == o.id && c.2.tid == p.tid && c.2.checked)
  | .claimUse .. => p.args.isEmpty
  | _ => false
/-- A load or atomic of an earlier clause that has not been checked: the thread cannot be beyond its clause, or its park
would not be precise (R135, R209; log entry 15). An atomic that the supervisor services is held at its controller. -/
def State.unchecked (s : State) (iid tid : Nat) : Bool :=
  (s.ops.any fun (o : PendOp) => o.iid == iid && o.parts.any fun p =>
    (p.tid == tid || (o.once && (s.inst iid).hwOf p.tid == (s.inst iid).hwOf tid)) && s.claimOpen o p) ||
  s.ops.any fun (o : PendOp) => o.iid == iid &&
    (loadClass o.ins || (accKind o.ins == some .atomic && (spadPieces o.ins default).isEmpty && !(s.inst iid).trailing)) &&
    o.parts.any fun p => !p.arrived && (p.tid == tid || (o.once && (s.inst iid).hwOf p.tid == (s.inst iid).hwOf tid)) &&
      !(s.wants.any fun (w : Want) => w.who == .op o.id p.tid && w.st == .service)

/-- An operation that waits for other threads and that a save must wait for (R132): the close of a region and the opening of a pair
region wait for the other members and the other copy, a CLREL for a claim that waits for FIFO space. -/
def PendOp.waitsOthers (o : PendOp) : Bool :=
  match o.ins with
  | .cregClose .. | .pairClose .. | .pairOpen .. | .clrel .. => true
  | _ => false
/-- Whether a thread of a held instance may still issue, so that the operations which its save waits for complete: one of its
context waits for other threads, or the thread's other copy has gone further (R132, R263; log entries 32 and 33). -/
def State.catchUp (s : State) (i : Inst) (tid : Nat) : Bool :=
  (i.paired && i.partner.elim false fun p => decide ((i.th tid).retired < ((s.inst p).th tid).retired)) ||
    s.ops.any fun (o : PendOp) => o.waitsOthers && (s.inst o.iid).ctx == i.ctx

/-- A thread is issuable: Ready, not issuing, with nothing to deliver first (R18, R129, R262, R288). Within a handler its own
later traps of the same boundary wait (R130, R131). -/
def State.issuable (s : State) (iid tid : Nat) : Bool :=
  match find? s.insts iid with
  | none => false
  | some i =>
    let t := i.th tid
    let x := s.ctx i.ctx
    (i.st == .run || i.st == .hold && s.catchUp i tid) && t.status == .ready && (i.th? tid).isSome && t.sfPend == 0 && t.pend.all (fun r => t.hnd && !r.nested) && t.uncorr.isNone &&
      !i.unwinding tid && i.genIssues tid && !s.issuing iid tid && !s.unchecked iid tid && (if i.kind == .stage then !s.halted else s.booted) &&
      !(i.kind == .stage && (x.log.stopped || x.log.diverged || x.fatal))

/-- The sub-group or home-warp set that the threads of one formed warp share: a sub-group does not combine. -/
def Inst.oneSet (i : Inst) (tids : List Nat) : Bool :=
  tids.all fun t => i.setOf (i.th t).sub == i.setOf (i.th (tids.headD 0)).sub

/-- The threads of a home warp issue their first clause together: of the choices that R112 leaves, the one with which the programs of the
spec run as it says (R168, 06_program_median.md; log entry 83). -/
def State.startsWhole (s : State) (iid : Nat) (tids : List Nat) : Bool :=
  let i := s.inst iid
  tids.all fun t => (i.th t).lastHdr != 0 || i.ths.all fun p => i.hwOf p.1 != i.hwOf t || p.2.lastHdr != 0 || p.2.pc != (i.th t).pc ||
    !s.issuable iid p.1 || tids.contains p.1
/-- The constraints of R112 on a formed warp, and the Ready threads of a warp that stays formed. -/
def State.formable (s : State) (iid : Nat) (tids : List Nat) : Bool :=
  let i := s.inst iid
  let h := (i.th (tids.headD 0)).pc
  let lanes := tids.map i.laneOf
  let warps := ((tids.map fun t => (i.th t).warp).filter (· != 0)).eraseDups
  let gen := tids.any fun t => (i.hw (i.hwOf t)).basket.isSome
  !tids.isEmpty && tids.all (fun t => s.issuable iid t && (i.th t).pc == h) && lanes.eraseDups.length == lanes.length &&
    tids.eraseDups.length == tids.length && i.oneSet tids && s.startsWhole iid tids &&
    (!gen || tids.all fun t => i.hwOf t == i.hwOf (tids.headD 0)) &&
    (match warps with
      | [] => true
      | [w] => i.warps.all fun (x : Warp) => x.id != w ||
          ((x.tids.filter fun t => (i.th t).status == .ready && i.genIssues t).all fun t => tids.contains t) &&
            (!x.demoted || tids.all fun t => x.tids.contains t)
      | _ => false)

/-- A sibling of a path outside demoted paths that is Ready (R116). In generator mode a lane that may not issue is not Ready. -/
def Inst.readySibling (i : Inst) (w : Warp) : Bool :=
  i.ths.any fun p => p.2.status == .ready && i.genIssues p.1 && !w.tids.contains p.1 &&
    w.tids.any (fun u => i.hwOf u == i.hwOf p.1) && !(i.warps.any fun (x : Warp) => x.demoted && x.tids.contains p.1)
/-- Whether the demotion of a path is over. -/
def Inst.demotionOver (i : Inst) (w : Warp) : Bool :=
  decide (Config.demoteLimit ≤ w.sibs) || !i.readySibling w

/-- A demoted path is not issued before its demotion is over (R116). -/
def State.demotedBlocked (s : State) (iid : Nat) (tids : List Nat) : Bool :=
  let i := s.inst iid
  i.warps.any fun (w : Warp) => w.demoted && tids.any (fun t => w.tids.contains t) && !i.demotionOver w
/-- A demotion ends at the first moment at which no sibling outside demoted paths is Ready: it stays over (R116). -/
def Inst.latchDemotions (i : Inst) : Inst :=
  if i.warps.all fun (w : Warp) => !w.demoted then i
  else { i with warps := i.warps.map fun (w : Warp) =>
    if w.demoted && i.demotionOver w then { w with sibs := Config.demoteLimit } else w }
def State.latchDemotions (s : State) : State :=
  { s with insts := s.insts.map fun x => (x.1, x.2.latchDemotions) }

/-- A spinning path whose demotion has not taken place yet: it is demoted before it issues again (R116). -/
def Inst.demotionDue (i : Inst) (tids : List Nat) : Bool :=
  i.warps.any fun (w : Warp) => !w.demoted && w.spins.any (fun p => decide (Config.spinLimit ≤ p.run)) && tids.any fun t => w.tids.contains t

/-- No completion-flag count and no fetch holds back threads at one header: what is held back does not count as Ready for the
bound of R21. -/
def State.unheld (s : State) (iid : Nat) (tids : List Nat) : Bool :=
  let i := s.inst iid
  let t0 := tids.headD 0
  tids.all (fun t => s.issuable iid t) &&
    match (s.fetch (.fetch iid t0) iid t0 (i.th t0).header.toNat 8).1 with
    | .bytes b =>
      (match decodeHeader (natOf b) with
      | .ok h => i.waitsOver (i.sets ((tids ++ (i.inactive (i.hwOf t0)).filter fun t => !tids.contains t).map fun t =>
          ⟨i.laneOf t, t, tids.contains t⟩)) h.wait
      | .error _ => true)
    | _ => false

/-- The instances and formed warps of a partition that are Ready and not demoted. -/
def State.contenders (s : State) (core p : Nat) : List (Nat × Warp) :=
  (s.insts.filter fun x => x.2.kind == .stage && x.2.core == core).flatMap fun x =>
    (x.2.warps.filter fun (w : Warp) => !w.demoted && (w.tids.headD 0 / 32) % 2 == p && s.unheld x.1 w.tids).map fun w => (x.1, w)
/-- The Ready threads of a partition that stand in its formation pool. -/
def State.pooled (s : State) (core p : Nat) : List (Nat × Nat × Thread) :=
  (s.insts.filter fun x => x.2.kind == .stage && x.2.core == core).flatMap fun x =>
    (x.2.ths.filter fun t => t.2.warp == 0 && !x.2.isGuide t.1 && x.2.hwOf t.1 % 2 == p && s.unheld x.1 [t.1]).map fun t => (x.1, t.1, t.2)

/-- Whether issuing these threads would pass over a Ready formed warp of the partition for a 65th time, now (`j = 0`) or in a turn
that is then unavoidable: within `j` further turns no more than `j` warps reach the limit (R21). So would it a pool thread that has waited longer. A formed warp near its limit goes before pool threads. -/
def State.starved (s : State) (core p : Nat) (iid : Nat) (tids : List Nat) : Bool :=
  let ws := s.contenders core p
  let mine (x : Nat × Warp) : Bool := x.1 == iid && tids.any fun t => x.2.tids.contains t
  let own := ((ws.filter mine).map (·.2.passed)).foldl max 0
  let others := (ws.filter fun x => !mine x).map (·.2.passed)
  let served := (List.range (Config.warpsPerPart + 2)).all fun j =>
    decide ((others.filter fun n => decide (Config.passLimit ≤ n + j)).length ≤ j)
  let waited := (tids.map fun t => ((s.inst iid).th t).passed).foldl max 0
  (!served && others.any fun n => decide (own < n)) ||
    (decide (own + Config.warpsPerPart < Config.passLimit) && (s.pooled core p).any fun u =>
      !(u.1 == iid && tids.contains u.2.1) && decide (Config.passLimit ≤ u.2.2.passed) && decide (waited < u.2.2.passed))

/-- The other Ready formed warps and pool threads of the partition have been passed over once more. What is not Ready is not
passed over, and its count in a row ends. -/
def State.passOver (s : State) (core p iid warp : Nat) : State :=
  let ws := (s.contenders core p).map fun x => (x.1, x.2.id)
  let us := (s.pooled core p).map fun u => (u.1, u.2.1)
  { s with insts := s.insts.map fun x =>
      if x.2.kind == .stage && x.2.core == core then
        (x.1, { x.2 with
          warps := x.2.warps.map fun (w : Warp) =>
            if (w.tids.headD 0 / 32) % 2 != p then w
            else if x.1 == iid && w.id == warp || !ws.contains (x.1, w.id) then { w with passed := 0 }
            else { w with passed := w.passed + 1 }
          ths := x.2.ths.map fun t =>
            if (x.2.hwOf t.1) % 2 != p then t
            else if x.1 == iid && t.2.warp == warp || !us.contains (x.1, t.1) then (t.1, { t.2 with passed := 0 })
            else (t.1, { t.2 with passed := t.2.passed + 1 }) })
      else x }

/-! ### Growth moves (R13) -/

/-- The last granted move whose REGGROW has completed in the home warp, and the moves after it. -/
def State.movesDue (s : State) (iid hw : Nat) : List (Nat × Nat × Nat) → Option ((Nat × Nat) × List (Nat × Nat × Nat))
  | [] => none
  | (op, b, n) :: r =>
    match s.movesDue iid hw r with
    | some x => some x
    | none =>
      if (s.op? op).any fun o => o.shares.any fun x => o.iid == iid && x.hw == hw then none else some ((b, n), r)
/-- At the boundary of the clause that follows the completion of a REGGROW the new base and count take effect: the rows move, the
new registers are zero. -/
def State.moveRows (s : State) (iid hw : Nat) : State :=
  let i := s.inst iid
  match s.movesDue iid hw (i.hw hw).moveTo with
  | none => s
  | some ((b, n), rest) =>
    let w := i.hw hw
    let row (r : Nat) : List Word := (List.range 32).map fun l =>
      if r < w.n then sget (0 : Word) (s.core i.core).reg (regKey (w.vb + r) l) else 0
    let vals := (List.range n).map row
    let put (k : Core) : Core := (List.range n).foldl (fun k r => (List.range 32).foldl (fun k l =>
        { k with reg := sset 0 k.reg (regKey (b + r) l) ((vals.getD r []).getD l 0) }) k) k
    (s.modCore i.core put).modHw iid hw fun w => { w with vb := b, n, moveTo := rest }

/-! ### The issue of a clause -/

/-- Whether a sequencer may issue threads of the instance. -/
def seqFits (i : Inst) (iid : Nat) (q : Seq) (tids : List Nat) : Bool :=
  match q with
  | .part core p => i.kind == .stage && i.core == core && tids.all fun t => !i.isGuide t && (i.hwOf t) % 2 == p
  | .guide core => i.kind == .stage && i.core == core && tids.all fun t => i.isGuide t
  | .steward d n => i.kind == .steward && iid == stewardId d n
  | .walker c => i.kind == .walker && iid == walkerId c

/-- The record of a formation decision (R316, type 0x04): a share per home warp. Its flags beside the last share's: 2 demoted, 4
demotion ended, 8 after a restore. -/
def formRecs (i : Inst) (ls : List LaneT) (serial : Nat) (hdr : DWord) (fl : Nat) : List (List Byte) :=
  let gs := byHw i ls
  (List.range gs.length).map fun k =>
    let g := gs.getD k (0, [])
    bytesOf 4 (laneMask g.2).toNat ++ bytesOf 4 (hdr.toNat / 8 % 2 ^ 32) ++ bytesOf 1 g.1 ++ bytesOf 1 (serial % 256) ++
      bytesOf 1 ((if k + 1 = gs.length then 1 else 0) + fl) ++ bytesOf 1 0

/-- A decision about a formed warp as it stands is logged, or met in replay (R316, type 0x04). -/
def State.gateWarp (s : State) (iid : Nat) (w : Warp) (fl : Nat) : Bool × State :=
  let i := s.inst iid
  let t0 := w.tids.headD 0
  let ls := (w.tids.map fun t => (⟨i.laneOf t, t, true⟩ : LaneT)).insertionSort fun a b => a.lane ≤ b.lane
  s.gateAll i.ctx (logSrc (i.core / 128) 1 ((i.core % 128) * 2 + i.hwOf t0 % 2)) 0x04
    (formRecs i ls w.id (i.th t0).header fl)

/-- Changes a formed warp. -/
def State.modWarp (s : State) (iid id : Nat) (f : Warp → Warp) : State :=
  s.modInst iid fun i => { i with warps := i.warps.map fun (w : Warp) => if w.id == id then f w else w }

/-- The demoted paths of these threads, whose demotion is over, become Ready again before they issue (R116). -/
def State.endDemotions (s : State) (iid : Nat) (tids : List Nat) : Bool × State :=
  ((s.inst iid).warps.filter fun (w : Warp) => w.demoted && tids.any fun t => w.tids.contains t).foldl (fun r w =>
    if !r.1 then r
    else match r.2.gateWarp iid w 4 with
      | (true, s) => (true, s.modWarp iid w.id Warp.promote)
      | (false, s) => (false, s)) (true, s)

/-- What a precise stop leaves of the clause (R323): how many instructions it may issue. -/
def State.stopFor (s : State) (i : Inst) (tids : List Nat) (ni : Nat) : Option Nat :=
  let x := s.ctx i.ctx
  let stage := x.stop1.toNat / 2 ^ 16 % 2 ^ 8
  let no := x.stop1.toNat / 2 ^ 32
  let tid := x.stop2.toNat % 2 ^ 16
  let n := x.stop2.toNat / 2 ^ 16
  if x.stopOn && x.ccb.rplB && x.ivlNo % 2 ^ 48 == x.stop0.toNat % 2 ^ 48 && i.stage == stage && i.no == no && tids.contains tid then
    let have_ := (i.th tid).retired
    if n < have_ + ni then some (n - have_) else none
  else none

/-- The records of clauses issued and of cycles that counter sets take (R329). -/
def State.countClause (s : State) (iid : Nat) (ls : List LaneT) : State :=
  let evs := (s.ctx (s.inst iid).ctx).events
  s.modInst iid fun i => (byHw i ls).foldl (fun i g => i.modHw g.1 fun w =>
    if w.counters.isEmpty then w else w.countEv evs 1 1) i

/-- CLAUSE_ISSUE: a scheduler starts a clause (R45): the threads form one warp, its header is checked, its waits hold. -/
def State.clauseIssue (s : State) (q : Seq) (iid : Nat) (tids : List Nat) : State :=
  let i := s.inst iid
  let t0 := tids.headD 0
  let hdr := (i.th t0).header
  let part := match q with | .part core p => some (core, p) | _ => none
  if s.issues.any (fun (x : Issue) => x.q == q) || !seqFits i iid q tids || !s.formable iid tids || s.demotedBlocked iid tids || i.demotionDue tids ||
      (part.elim false fun x => s.starved x.1 x.2 iid tids) then s
  else
    match s.endDemotions iid tids with
    | (false, s) => s
    | (true, s) =>
    let i := s.inst iid
    -- a sub-group parked on a scratchpad line goes on inside its clause (R355)
    match i.subs.find? fun (g : SubGroup) => g.id == (i.th t0).sub && g.cont.isSome with
    | some g =>
      (match g.cont with
        | none => s
        | some c =>
          let ls := c.lanes.filter fun l => !l.active || tids.contains l.tid
          if !c.lanes.all (fun l => !l.active || tids.contains l.tid || (i.th l.tid).status == .exited) then s
          else
          let s := s.modInst iid fun i =>
            { i with subs := i.subs.map fun (x : SubGroup) => if x.id == g.id then { x with cont := none } else x }
          { s with issues := s.issues ++ [{ c with q := q, lanes := ls }] })
    | none =>
      let who : Asker := .fetch iid t0
      match s.fetch who iid t0 hdr.toNat 8 with
      | (.wait, s) => s
      | (.fault c, s) => s.fetchFault iid tids c hdr hdr
      | (.bytes b, s) =>
        let ls := (tids.map fun t => (⟨i.laneOf t, t, true⟩ : LaneT)) ++
          ((i.inactive (i.hwOf t0)).filter fun t => !tids.contains t).map fun t => ⟨i.laneOf t, t, false⟩
        let ls := ls.insertionSort fun a b => a.lane ≤ b.lane
        let base : Issue := { q, iid, hdrAt := hdr, hdr := default, addr := hdr + 8, idx := 0, slot := 0, lanes := ls }
        match decodeHeader (natOf b) with
        | .error sub =>
          { s with issues := s.issues ++ [base] }.trapAll base sub 0 (if sub = 11 then hdr else 0)
        | .ok h =>
          let sets := i.sets ls
          let hit := tids.filter fun t => (i.th t).perr.any fun f => h.wait.getLsbD f
          if !i.waitsOver sets h.wait then s
          else if !hit.isEmpty then
            -- the first clause that waits on the flag of a failed pass (R258)
            hit.foldl (fun s t => (s.consume iid t 1 0 hdr none).modTh iid t fun th =>
              { th with perr := th.perr.filter fun f => !h.wait.getLsbD f }) s
          else
            let old := (tids.map fun t => (i.th t).warp).find? (· != 0)
            let (serial, s) := match old with
              | some w => (w, s)
              | none => s.newId
            let back := tids.any fun t => (i.th t).restored
            let same := !back && i.warps.any fun (w : Warp) => some w.id == old && w.tids.all (fun t => tids.contains t) &&
              tids.all fun t => w.tids.contains t
            let (ok, s) := match part with
              | some (core, p) =>
                let src := logSrc (core / 128) 1 ((core % 128) * 2 + p)
                let recs := formRecs i ls serial hdr (if back then 8 else 0)
                if same then (true, s)
                -- what is left of a formed warp waits for the others where the log does so
                else if (s.ctx i.ctx).ccb.rplB && old.isSome && (find? (s.ctx i.ctx).log.next src).elim true fun n =>
                    logChosen n.2 != logChosen (s.logRec i.ctx src 0x04 (recs.headD [])) then (false, s)
                else s.gateAll i.ctx src 0x04 recs
              | none => (true, s)
            if !ok then s
            else
              let s := ((ls.map fun l => i.hwOf l.tid).eraseDups).foldl (fun s h => s.moveRows iid h) s
              let s := s.modInst iid fun i => tids.foldl (fun i t => i.modTh t fun th => { th with warp := serial, restored := false }) i
              let s := match part with
                | none => s
                | some (core, p) =>
                  let w : Warp := { id := serial, tids, passed := 0, demoted := false, sibs := 0, spins := [] }
                  let s := s.modInst iid fun i =>
                    if i.warps.any fun (x : Warp) => x.id == serial then
                      { i with warps := i.warps.map fun (x : Warp) => if x.id == serial then { x with tids := tids } else x }
                    else { i with warps := i.warps ++ [w] }
                  s.passOver core p iid serial
              let s := s.countClause iid ls
              { s with issues := s.issues ++ [{ base with hdr := h, stopAt := s.stopFor i tids h.ni, uid := s.nextId }]
                       nextId := s.nextId + 1 }

/-! ### The next instruction of a clause -/

/-- What the sequencer's clause issues next: an instruction for `exec`, or a state in which there is none: a fetch that
waits, a fault, a trap of check 1 to 4. -/
def State.nextIns (s : State) (q : Seq) : Option Instr × State :=
  match s.issues.find? fun is => is.q == q with
  | none => (none, s)
  | some is =>
    if is.stopAt == some is.idx then (none, s)
    else match s.readIns is with
    | (.ins i, s) => (some i, s)
    | (.wait, s) => (none, s)
    | (.fault c, s) => (none, (s.leaveIssue is.iid (is.lanes.map (·.tid))).fetchFault is.iid (is.lanes.map (·.tid)) c is.addr is.hdrAt)
    | (.bad sub opc, s) => (none, s.trapAll is sub opc 0)

/-! ### Traps at a boundary -/

/-- The trap that a thread takes next, with its order in R130 and, for a user TRAP, its code (R107): a waiting trap, or its
store fault. -/
def Thread.nextTrap (t : Thread) : Option (Nat × Nat × Option TrapRec) :=
  let best := (t.pend.insertionSort fun a b => decide (a.code < b.code ∨ (a.code = b.code ∧ a.detail ≤ b.detail))).head?
  match best with
  | some r => if t.sfPend != 0 && 4 < r.code then some (4, 0, none) else some (r.code, r.detail, some r)
  | none => if t.sfPend != 0 then some (4, 0, none) else none

/-- The store-fault trap of threads at one header (R129, R165): it covers every record of theirs that has entered since, and
names the oldest. -/
def State.takeStoreFault (s : State) (iid hw : Nat) (mine : List (Nat × Thread)) : State :=
  let i := s.inst iid
  let h := (mine.headD default).2.header
  let first := (mine.insertionSort fun a b => a.2.sfNo ≤ b.2.sfNo).headD default
  let mask : BitVec 32 := mine.foldl (fun m p => m ||| BitVec.twoPow 32 (i.laneOf p.1)) 0
  let s := s.modInst iid fun i => mine.foldl (fun i p => i.modTh p.1 fun x => { x with sfPend := 0 }) i
  let s := s.traceTrap iid (mine.map (·.1)) (mine.map (·.1)) 4
  s.takeTrap iid hw (mine.map (·.1)) ⟨4, (mine.map fun p => p.2.sfPend).sum, first.2.sfVa, h, h, mask, 0, 0, false⟩

/-- The trap of waiting threads whose delivery comes now. Threads that have gone on since resume where they stand. -/
def State.takeWaiting (s : State) (iid hw : Nat) (mine : List (Nat × Thread)) (r : TrapRec) : State :=
  let h := (mine.headD default).2.header
  let s := s.modInst iid fun i => mine.foldl (fun i p => i.modTh p.1 fun x => { x with pend := x.pend.filter (· != r) }) i
  s.takeTrap iid hw (mine.map (·.1)) { r with resume := h, nested := false }

/-- Two waiting parks of order 6 of one instruction. -/
def TrapRec.sameFault (r t : TrapRec) : Bool :=
  r.code == 6 && t.code == 6 && r.hdr == t.hdr && r.idx == t.idx && r.detail % 16 == t.detail % 16 && r.nested == t.nested
/-- The park of threads that have waited for an earlier trap of their boundary (R130, R209). -/
def State.takePark (s : State) (iid hw : Nat) (mine : List ((Nat × Thread) × TrapRec)) : State :=
  match mine.insertionSort fun a b => (s.inst iid).laneOf a.1.1 ≤ (s.inst iid).laneOf b.1.1 with
  | [] => s
  | x :: r =>
    let s := s.modInst iid fun i => mine.foldl (fun i y => i.modTh y.1.1 fun th => { th with pend := th.pend.filter (· != y.2) }) i
    s.parkStage iid hw ((x :: r).map (·.1.1)) (x.2.detail / 16) (x.2.detail % 16) x.2.addr x.2.hdr
      (if x.2.idx = 0 then none else some (x.2.idx - 1))
      (((x :: r).filter fun y => y.2.opc != 0).map fun y => (y.2.addr.toNat, y.2.opc))

/-- STAGE_HANDLER_DELIVERY: one delivery to threads of a home warp at their clause boundary (R129 to R131). A trap of a thread
that handles an earlier one goes to the supervisor at once. Of the others the one of the lowest order of R130 goes out, among
user TRAPs the one of the lowest code (R107), among equals that of the lowest sr.tid (log entry 72); while an earlier delivery
holds s56 to s63 they are Parked. A Sleeping or Parked thread takes its trap when it is Ready again (log entry 73). -/
def State.deliverHw (s : State) (iid hw : Nat) : State :=
  match find? s.insts iid with
  | none => s
  | some i =>
    let ready := i.ths.filter fun p => i.hwOf p.1 == hw && !s.issuing iid p.1 &&
      (match p.2.status with | .ready | .held | .parked .wait => true | _ => false)
    if i.kind != .stage then
      (match ready.find? fun p => p.2.sfPend != 0 with
        | some (t0, th) => s.modTh iid t0 fun x => { x with sfPend := 0, pend := x.pend ++ [⟨5, 1, 0, th.header, th.header, 1, 0, 0, false⟩] }
        | none => s)
    else
      let due (p : Nat × Thread) : Option (Nat × Nat × Option TrapRec) :=
        match p.2.nextTrap with
        | some (k, d, some r) => if p.2.hnd && !r.nested then none else some (k, d, some r)
        | x => x
      let all : List ((Nat × Thread) × (Nat × Nat × Option TrapRec)) := ready.filterMap fun p => (due p).map fun d => (p, d)
      -- a user trap follows the lower codes of its instruction; the threads of one park wait for each other
      let all := all.filter fun x => x.2.2.2.elim true fun r => !i.lowerWaits hw r &&
        (r.code != 6 || i.ths.all fun p => i.hwOf p.1 != hw || p.2.status == .exited || !(p.2.pend.any r.sameFault) ||
          all.any fun y => y.1.1 == p.1 && y.2.2.2.elim false r.sameFault)
      let inside := all.filter fun x => x.1.2.hnd
      let now := if inside.isEmpty then all else inside
      match now.insertionSort fun a b =>
        a.2.1 < b.2.1 ∨ (a.2.1 = b.2.1 ∧ (a.2.2.1 < b.2.2.1 ∨ (a.2.2.1 = b.2.2.1 ∧ a.1.1 ≤ b.1.1))) with
      | [] => s
      | x :: _ =>
        if x.2.1 < 6 && !x.1.2.hnd && i.handler != 0 && !i.isGuide x.1.1 && i.handlerBusy hw then
          s.modInst iid fun i => now.foldl (fun i y => (i.modTh y.1.1 fun th => { th with status := .parked .wait }).unwarp y.1.1) i
        else
          let mine := (now.filter fun y => y.2 == x.2 && y.1.2.pc == x.1.2.pc && i.isGuide y.1.1 == i.isGuide x.1.1).map (·.1)
          match x.2.2.2 with
          | none => s.takeStoreFault iid hw mine
          | some r =>
            if r.code = 6 then
              s.takePark iid hw (now.filterMap fun y => y.2.2.2.bind fun z => if r.sameFault z then some (y.1, z) else none)
            else s.takeWaiting iid hw mine r

end Sys2Proof.Machine
end

