-- ==== Sys2Proof/Machine/Integer.lean ====
section
/-!
DEFINITION. Group 0x0, integer arithmetic (R61, R85 to R87). An operation is one function of exact element values; the
result is wrapped or, under .sat, saturated once.
-/
namespace Sys2Proof.Machine

/-- Width of an element and how many elements an operand holds (R62). -/
def Ty.elemBits : Ty → Nat
  | .i16 | .n16 | .f16 | .bf16 => 16
  | .i8 | .n8 => 8
  | .i64 | .n64 => 64
  | _ => 32
def Ty.elemCount : Ty → Nat
  | .i16 | .n16 | .f16 | .bf16 => 2
  | .i8 | .n8 => 4
  | _ => 1

/-- Elements from the low bits upward (R62). -/
def joinElems (w : Nat) : List Nat → Nat
  | [] => 0
  | x :: r => x % 2 ^ w + 2 ^ w * joinElems w r
def elemAt (w : Nat) (x : DWord) (k : Nat) : Nat := x.toNat / 2 ^ (w * k) % 2 ^ w

/-- The exact value of an element of an integer operand. -/
def intElem (ty : Ty) (x : DWord) (k : Nat) : Int := valI (Ty.elemBits ty) ty.signed (elemAt (Ty.elemBits ty) x k)

/-- An operation on exact elements, delivered with Wrap or Sat (R61). -/
def intOp (ty : Ty) (sat : Bool) (f : Int → Int → Int → Int) (a b c : DWord) : DWord :=
  let w := Ty.elemBits ty
  let fin (x : Int) : Nat := if sat then satI w ty.signed x else wrapI w x
  BitVec.ofNat 64 (joinElems w ((List.range (Ty.elemCount ty)).map fun k =>
    fin (f (intElem ty a k) (intElem ty b k) (intElem ty c k))))

/-- The three operand shapes of the group. -/
def intUn (ins : Instr) (c : Ctl) (lat : Nat) (m : Mods) (o : O1) (f : Int → Int) (s : State) :=
  pureFixed ins c lat (fun s is r =>
    s.dst is r m.ty.wide o.d (intOp m.ty m.sat (fun a _ _ => f a) (s.srcV is r m.ty.wide o.a) 0 0)) s
def intBin (ins : Instr) (c : Ctl) (lat : Nat) (m : Mods) (o : O2) (f : Int → Int → Int) (s : State) :=
  pureFixed ins c lat (fun s is r =>
    s.dst is r m.ty.wide o.d
      (intOp m.ty m.sat (fun a b _ => f a b) (s.srcV is r m.ty.wide o.a) (s.srcB is r m.ty o.b) 0)) s
def intTer (ins : Instr) (c : Ctl) (lat : Nat) (m : Mods) (o : O3) (f : Int → Int → Int → Int) (s : State) :=
  pureFixed ins c lat (fun s is r =>
    s.dst is r m.ty.wide o.d
      (intOp m.ty m.sat f (s.srcV is r m.ty.wide o.a) (s.srcB is r m.ty o.b) (s.srcV is r m.ty.wide o.c))) s

def execIadd (c : Ctl) (m : Mods) (o : O2) (s : State) := intBin (.iadd c m o) c 3 m o (fun a b => a + b) s
def execIsub (c : Ctl) (m : Mods) (o : O2) (s : State) := intBin (.isub c m o) c 3 m o (fun a b => a - b) s
def execImul (c : Ctl) (m : Mods) (o : O2) (s : State) := intBin (.imul c m o) c 5 m o (fun a b => a * b) s
/-- The high half of the exact product. -/
def execImulhi (c : Ctl) (m : Mods) (o : O2) (s : State) :=
  intBin (.imulhi c m o) c 5 m o (fun a b => a * b / (2 ^ Ty.elemBits m.ty : Nat)) s
def execImad (c : Ctl) (m : Mods) (o : O3) (s : State) := intTer (.imad c m o) c 5 m o (fun a b c => a * b + c) s
def execImin (c : Ctl) (m : Mods) (o : O2) (s : State) := intBin (.imin c m o) c 3 m o min s
def execImax (c : Ctl) (m : Mods) (o : O2) (s : State) := intBin (.imax c m o) c 3 m o max s
def execIclamp (c : Ctl) (m : Mods) (o : O3) (s : State) :=
  intTer (.iclamp c m o) c 3 m o (fun a b c => min (max a b) c) s
def execIabs (c : Ctl) (m : Mods) (o : O1) (s : State) := intUn (.iabs c m o) c 3 m o (fun a => (a.natAbs : Int)) s
def execIneg (c : Ctl) (m : Mods) (o : O1) (s : State) := intUn (.ineg c m o) c 3 m o (fun a => -a) s
def execIsad (c : Ctl) (m : Mods) (o : O3) (s : State) :=
  intTer (.isad c m o) c 3 m o (fun a b c => ((a - b).natAbs : Int) + c) s

/-- LEA (R87): the index is one 32-bit operand, extended by the type's signedness and scaled by its element size. -/
def leaSize (ty : Ty) : DWord := BitVec.ofNat 64 (Ty.elemBits ty / 8)
def leaIndex (ty : Ty) (x : DWord) : DWord :=
  if ty.signed then (x.setWidth 32).signExtend 64 else lo32 x
def execLea (c : Ctl) (m : Mods) (o : O2) (s : State) :=
  pureFixed (.lea c m o) c 3 (fun s is r =>
    s.dst is r true o.d (s.srcV is r true o.a + leaIndex m.ty (s.srcB is r .i32 o.b) * leaSize m.ty)) s

/-! ### Division: class V (R61) -/

/-- Quotient and remainder of R61, as patterns. -/
def intQuot (ty : Ty) (sat : Bool) (a b : DWord) : DWord :=
  let w := Ty.elemBits ty
  if intElem ty b 0 = 0 then BitVec.ofNat 64 (2 ^ w - 1) else intOp ty sat (fun a b _ => Int.tdiv a b) a b 0
def intRem (ty : Ty) (a b : DWord) : DWord :=
  if intElem ty b 0 = 0 then intOp ty false (fun a _ _ => a) a b 0 else intOp ty false (fun a b _ => Int.tmod a b) a b 0

/-- A class V computation: the result and its flags are made from the operands at issue and delivered at completion. -/
def computeV (ins : Instr) (c : Ctl) (run : State → Issue → Run → State × DWord × BitVec 5) (s : State) :=
  flagged ins c noMore (partFold fun s is r =>
    let (s, x, fl) := run s is r
    (s, [x, fl.setWidth 64])) noAfter s
/-- The completion of a class V computation into D. -/
def State.computeDone (s : State) (o : PendOp) (p : Part) (wide : Bool) (d : Nat) : State :=
  s.partWrites o.id p.tid (o.dst (s.inst o.iid) p.tid wide d (p.arg 0)) ((p.arg 1).setWidth 5)

def execIdiv (c : Ctl) (m : Mods) (o : O2) (s : State) :=
  computeV (.idiv c m o) c (fun s is r =>
    (s, intQuot m.ty m.sat (s.srcV is r m.ty.wide o.a) (s.srcB is r m.ty o.b), 0)) s
def execIrem (c : Ctl) (m : Mods) (o : O2) (s : State) :=
  computeV (.irem c m o) c (fun s is r =>
    (s, intRem m.ty (s.srcV is r m.ty.wide o.a) (s.srcB is r m.ty o.b), 0)) s

end Sys2Proof.Machine
end

