-- ==== Sys2Proof/Machine/Lsu.lean ====
section
/-!
DEFINITION. What the load-store unit does besides moving bytes: uncorrectable errors and the logs of regions (R259 to
R263), store-fault records (R128), the Hamper (R335 to R338), the poison ring (R214), and the compare buffer (R263, R273).
-/
namespace Sys2Proof.Machine

/-! ### Errors and regions -/

/-- Whether the memory effects of an operation of a thread are not performed: the thread has issued it after it has consumed
an error, and waits for an unwinding (R262). -/
def State.muted (s : State) (iid tid id : Nat) : Bool :=
  let i := s.inst iid
  match (i.th tid).uncorr with
  | none => false
  | some u => decide (u.since ≤ id) && (((i.hw (i.hwOf tid)).target tid u).map fun r => r.members.contains tid).getD false

/-- Whether a region holds a thread and an operation of it. -/
def Region.holds (r : Region) (tid id : Nat) : Bool := r.members.contains tid && decide (r.since ≤ id)

/-- Adds to the counts of regions of a home warp. -/
def HWarp.countIn (w : HWarp) (atomics remotes : Nat) (f : Region → Bool) : HWarp :=
  let more (r : Region) : Region := { r with atomics := r.atomics + atomics, remotes := r.remotes + remotes }
  { w with regions := w.regions.map fun r => if f r then more r else r }
/-- Changes the counts of every open region that holds an operation of a thread (R261); a pair region counts in both copies, whose
records are the same (R274). -/
def State.countRegion (s : State) (iid tid id atomics remotes : Nat) : State :=
  let i := s.inst iid
  let s := s.modHw iid (i.hwOf tid) fun w => w.countIn atomics remotes fun r => r.holds tid id
  match i.partner with
  | none => s
  | some j =>
    if (i.hw (i.hwOf tid)).regions.any fun (r : Region) => r.pair && r.holds tid id then
      s.modHw j (i.hwOf tid) fun w => w.countIn atomics remotes fun r => r.pair && r.members.contains tid
    else s

/-- The depth of the innermost .strict region that holds an operation of a thread. -/
def Inst.strictDepth (i : Inst) (tid id : Nat) : Option Nat :=
  let rs := (i.hw (i.hwOf tid)).regions
  ((List.range rs.length).reverse.find? fun k => match rs[k]? with
    | some r => r.strict && r.holds tid id
    | none => false).map (· + 1)

/-- The old contents of the memory sectors that a store touches, as R261 takes them. -/
def State.memUndo (s : State) (q : Req) (va n : Nat) : List UndoSec :=
  (sectorsOf va n).filterMap fun p =>
    match aperOf p.1 with
    | .mem => match s.storeRights q p.1 with
      | .ok a pa rt =>
        let home := match find? (s.die (s.home q.ctx p.1)).l2 (secKey a p.1) with
          | some x => s.plainL2 x
          | none => s.readSector pa
        let old := match find? (s.inst q.iid).l1 (secKey a p.1) with
          | some x => mergeBytes home (s.plainL1 x) x.dirty
          | none => home
        some { spad := false, addr := pa / 32 * 32, key := secKey a p.1, old, rights := rt }
      | _ => none
    | .phys => match s.aperPa q p.1 with
      | .ok pa => some { spad := false, addr := pa / 32 * 32, key := 0, old := s.paBytes (pa / 32 * 32) 32 }
      | .error _ => none
    | .win => match s.xlat q p.1 with
      | .hit _ pa => some { spad := false, addr := pa / 32 * 32, key := 0, old := s.paBytes (pa / 32 * 32) 32 }
      | _ => none
    | .peer => none
def State.spadUndo (s : State) (i : Inst) (off n : Nat) : List UndoSec :=
  (sectorsOf (i.spadBase + off) n).map fun p =>
    let a := p.1 / 32 * 32
    { spad := true, addr := a, key := 0, old := (List.range 32).map fun k => sget 0 (s.core i.core).spad (a + k) }

/-- Adds sectors to a log that does not hold them yet. -/
def logSectors (undo : List UndoSec) : List UndoSec → List UndoSec
  | [] => undo
  | x :: r =>
    logSectors (if undo.any fun (u : UndoSec) => u.spad == x.spad && u.addr == x.addr then undo else undo ++ [x]) r

/-- A region's slot of the containment area, 96 KiB (R278), holds what the hardware has written there (log entry 49). -/
def State.spoilSlot (s : State) (c : Nat) (r : Region) : State :=
  s.scribble ((s.ctx c).ccb.contArea + 98304 * r.slot) 98304
/-- Logs sectors in every open region that holds the operation, or names the depth of a region whose log is full. -/
def State.regionLog (s : State) (iid tid id : Nat) (xs : List UndoSec) : Option Nat × State :=
  let i := s.inst iid
  let rs := (i.hw (i.hwOf tid)).regions
  let rs' := rs.map fun (r : Region) => if r.holds tid id then { r with undo := logSectors r.undo xs } else r
  match rs'.findIdx? fun (r : Region) => decide (Config.undoSectors < r.undo.length) with
  | some k => (some (k + 1), s)
  | none => (none, if rs.isEmpty then s else
      ((rs.zip rs').foldl (fun s p => if p.1.undo.length < p.2.undo.length then s.spoilSlot i.ctx p.2 else s) s).modInst iid fun i =>
        i.modHw (i.hwOf tid) fun w => { w with regions := rs' })

/-! ### Store faults (R128, R129) -/

/-- A store fault of an access: a record for a compute thread or the Guide, which the operation keeps until its last part is
over; a steward's thread takes a memory fault, a walker ends its walk. -/
def State.storeFault (s : State) (o : PendOp) (tid : Nat) (va : DWord) (cause size : Nat) : State :=
  let i := s.inst o.iid
  match i.kind with
  | .stage =>
    let r : SfRec := { va, hdr := o.hdr, tid, inst := i.no, cause, idx := o.idx, size, stage := i.stage, seqNo := 0, iid := o.iid }
    s.modOp o.id fun o => { o with sf := o.sf ++ [r] }
  | _ => s.memFault o.iid 0 [tid] cause 1 va o.hdr none

/-- Whether an earlier store or atomic of a thread may still add a record, or has one that has not entered: a later access of the
thread fails after it (R164). -/
def State.faultsBefore (s : State) (o : PendOp) (tid : Nat) : Bool :=
  (s.ops.any fun (q : PendOp) => q.iid == o.iid && decide (q.id < o.id) &&
    (accKind q.ins == some .store || accKind q.ins == some .atomic) &&
    ((q.parts.any fun (r : Part) => r.tid == tid) || q.sf.any fun (r : SfRec) => r.tid == tid)) ||
  s.freqs.any fun (f : FReq) => match f.kind with
    | .mcast op t _ r _ => r.iid == o.iid && t == tid && decide (op < o.id)
    | _ => false
/-- An access fails its checks: its store fault, then what its part does; it waits for what its thread may fail before. -/
def State.failWith (s : State) (o : PendOp) (tid : Nat) (va : DWord) (cause size : Nat) (after : State → State) : State :=
  if s.faultsBefore o tid then s else after ((s.dropWant (.op o.id tid)).storeFault o tid va cause size)

/-- The 32 bytes of a record. -/
def SfRec.bytes (r : SfRec) : List Byte :=
  bytesOf 8 r.va.toNat ++ bytesOf 8 r.hdr.toNat ++ bytesOf 4 r.tid ++ bytesOf 4 r.inst ++ bytesOf 1 r.cause ++ bytesOf 1 r.idx ++
    bytesOf 1 r.size ++ bytesOf 1 r.stage ++ bytesOf 2 r.seqNo ++ bytesOf 2 0

/-! ### The Hamper (R335 to R338) -/

def peerOf (va : Nat) : Nat := va / 2 ^ 40 % 4096
def peerOff (va : Nat) : Nat := va % 2 ^ 40
/-- The module that a peer-window address names: a member of the issuing module's own pod (R330, R331). -/
def State.peerId (s : State) (va : Nat) : Nat := s.modId / 4096 * 4096 + peerOf va

/-- The record of a refused masked write (R338). -/
def HEntry.record (e : HEntry) (va cause size : Nat) : SfRec :=
  { va := BitVec.ofNat 64 va, hdr := e.hdr, tid := e.tid, inst := e.inst, cause, idx := e.idx, size, stage := e.stage
    seqNo := 0, iid := e.iid }
def HEntry.low (e : HEntry) : Nat := e.line + (skeys e.data).headD 0

/-- Whether a request has an effect on a peer that an interval leaves unlogged (R289). -/
def FKind.unlogged : FKind → Bool
  | .write .. | .atomic .. | .mcast .. | .flow .. => true
  | .load .. | .grant .. | .fetch .. => false

/-- A byte that the Hamper or a packet holds, in a sealed world under the pad of the world's fabric key (R345). -/
def Vf.pad (v : Vf) (off : Nat) (b : Byte) : Byte := if v.world = 0 then b else b ^^^ Config.fabricPad v.fkey off
def Vf.padBytes (v : Vf) (off : Nat) (bs : List Byte) : List Byte := (List.range bs.length).map fun k => v.pad (off + k) (nthByte bs k)
def Vf.padWord (v : Vf) (off : Nat) (x : DWord) : DWord := BitVec.ofNat 64 (natOf (v.padBytes off (bytesOf 8 x.toNat)))
/-- The virtual function of a context. -/
def State.vfOf (s : State) (ctx : Nat) : Vf := s.vf (s.ctx ctx).ccb.vf
/-- What a request carries beside its packet's data: an atomic's operands, B's bytes at the offset and C's after them. -/
def SKind.padded (v : Vf) (off : Nat) : SKind → SKind
  | .atomic op ty cas b c => .atomic op ty cas (v.padWord off b) (v.padWord (off + 8) c)
  | k => k
def SKind.bytes : SKind → List Byte
  | .atomic _ _ _ b c => bytesOf 8 b.toNat ++ bytesOf 8 c.toNat
  | _ => []
/-- A packet's tag, in a sealed world (R345). -/
def Vf.tagOf (v : Vf) (p : Packet) (k : SKind) : BitVec 32 :=
  if v.world = 0 then 0 else Config.packetTag v.fkey p.off p.mask (p.data ++ k.bytes)

/-- What a request's packet carries besides its route: class, offset, mask and data. -/
def packetOf (cls off n : Nat) (data : List Byte) : Packet :=
  { cls, src := 0, srcDie := 0, dst := 0, fpid := 0, world := 0, off, mask := List.replicate n true, data, seqNo := 0 }
/-- Sends a request to a peer: its packet gets the route, the sender's FPID and world, and its tag (R340); a packet to the module itself
reaches its own receive port (R331). -/
def State.sendReq (s : State) (core asid ctx peer : Nat) (p : Packet) (ask : SKind) (kind : FKind) : State :=
  let (id, s) := s.newId
  let s := if kind.unlogged then s.modCtx ctx fun x => { x with unlogged := true } else s
  let v := s.vfOf ctx
  let ask := ask.padded v p.off
  let pkt : Packet := { p with src := s.modId, srcDie := core / Config.coresPerDie, fpid := v.fpid, world := v.world, seqNo := id
                               dst := if p.cls = 3 then peer / 4096 else peer, tag := v.tagOf p ask }
  { s with freqs := s.freqs ++ [{ id, core, asid, ctx, peer, off := p.off, sent := s.now, pkt, ask, kind }]
           served := if peer = s.modId then s.served ++ [{ id, pkt, kind := ask }] else s.served }

/-- The packet of a masked write: the bytes as the entry holds them. -/
def HEntry.packet (e : HEntry) : Packet :=
  { packetOf 0 (peerOff e.line) 0 ((List.range 128).map fun k => (find? e.data k).getD 0) with
    mask := (List.range 128).map fun k => (find? e.data k).isSome }

/-- Drains an entry: it closes, and its packet leaves. -/
def State.drainEntry (s : State) (core : Nat) (e : HEntry) : State :=
  let s := s.modCore core fun k => { k with hamper := k.hamper.filter (· != e) }
  if s.down.contains (s.peerId e.line) then s.pushSf core (e.record e.low 1 e.data.length)
  else s.sendReq core e.asid e.ctx (s.peerId e.line) e.packet .write (.write e)
def State.drainWhere (s : State) (core : Nat) (f : HEntry → Bool) : State :=
  ((s.core core).hamper.filter f).foldl (fun s e => s.drainEntry core e) s
/-- The entries that hold a byte of an access. -/
def HEntry.holds (e : HEntry) (asid va n : Nat) : Bool :=
  e.asid == asid && (skeys e.data).any fun k => decide (va ≤ e.line + k) && decide (e.line + k < va + n)

/-- Merges bytes of one line into its entry; a new entry takes the oldest one's place when all are in use. -/
def State.hamperLine (s : State) (o : PendOp) (tid va : Nat) (bs : List Byte) : State :=
  let i := s.inst o.iid
  let core := i.bank o.iid
  let asid := (s.ctx i.ctx).ccb.asid
  let line := va / 128 * 128
  let put (e : HEntry) : HEntry :=
    { e with data := (List.range bs.length).foldl (fun m k => sput m (va - line + k) ((s.vfOf i.ctx).pad (peerOff (va + k)) (nthByte bs k))) e.data }
  let s := if (s.core core).hamper.any fun (e : HEntry) => e.asid == asid && e.line == line then
      s.modCore core fun k => { k with hamper := k.hamper.map fun (e : HEntry) =>
        if e.asid == asid && e.line == line then put e else e }
    else
      let s := match (s.core core).hamper with
        | e :: _ => if Config.hamperSize ≤ (s.core core).hamper.length then s.drainEntry core e else s
        | [] => s
      let e : HEntry := { asid, line, data := [], opened := s.now, limit := ((s.die (i.die o.iid)).hage + 1) * Config.hageCycles
                          ctx := i.ctx, iid := o.iid, tid, inst := i.no, stage := i.stage, hdr := o.hdr, idx := o.idx }
      s.modCore core fun k => { k with hamper := k.hamper ++ [put e] }
  s.drainWhere core fun e => e.asid == asid && e.line == line && e.data.length == 128
def State.hamperMerge (s : State) (o : PendOp) (tid va : Nat) (bs : List Byte) : State :=
  (sectorsOf va bs.length).foldl (fun s p => s.hamperLine o tid p.1 ((bs.drop (p.1 - va)).take p.2)) s

/-- What a .sy release of a core and tag ASID waits for: its packets that are not acknowledged (R337), and the records of refusals that
have not entered the queue (R338). -/
def State.unacked (s : State) (core asid : Nat) : Bool :=
  (s.freqs.any fun (f : FReq) => f.core == core && f.asid == asid && (match f.kind with
    | .write _ | .atomic .. | .mcast .. => true
    | _ => false)) ||
  (s.core core).sfWait.any fun (r : SfRec) => (s.ctx (s.inst r.iid).ctx).ccb.asid == asid

/-! ### Parking (R135, R209) -/

/-- Which parts of a home warp an access check decides together: all that have not passed it, but for loads, and accesses of a peer, that
an earlier access of their thread holds back; an atomic that has passed it and is about to be performed is checked again. -/
def State.decides (s : State) (o : PendOp) (p : Part) : Bool :=
  let peer := (accPieces o.ins p).any fun x => aperOf x.1 == .peer
  !s.blocked o p || !(p.arrived || peer || loadClass o.ins)
/-- Whether an injected poison has waited for this load (R264). -/
def Part.injected (p : Part) (ins : Instr) : Bool := loadClass ins && p.arg 1 == 1
/-- A part of a load or atomic as it stands: the cause and address of its failure where it fails, whether it waits. -/
def State.partFails (s : State) (o : PendOp) (p : Part) (kind : Nat) : Chk × State :=
  if loadClass o.ins && p.arg 2 != 0 then (.refuse (p.arg 2).toNat (p.arg 3).toNat, s)
  else if p.injected o.ins then (.refuse 5 (p.arg 0).toNat, s)
  else if (accPieces o.ins p).any fun x => aperOf x.1 == .peer then (if loadClass o.ins then .wait else .ok, s)
  else accChecks (.op o.id p.tid) (s.req o.iid p.tid kind) s (accPieces o.ins p)

/-- A load or atomic that fails parks with the other threads of its home warp whose access fails: one sub-group, once no thread
of the home warp waits for its check; its record has the cause of the lowest lane (R209, R210). A poisoned sector alone parks an
atomic. -/
def State.parkFailing (s : State) (o : PendOp) (tid kind : Nat) : State :=
  let i := s.inst o.iid
  let hw := i.hwOf tid
  let mine := (o.parts.filter fun p => i.hwOf p.tid == hw && s.decides o p).insertionSort fun a b => a.lane ≤ b.lane
  let (fails, waits, s) := mine.foldl (fun (acc : List (Nat × Nat × Nat) × Bool × State) p =>
    match acc.2.2.partFails o p kind with
    | (.refuse c va, s) => (if kind = 0 || c = 5 then acc.1 ++ [(p.tid, c, va)] else acc.1, acc.2.1, s)
    | (.wait, s) => (acc.1, true, s)
    | (.ok, s) => (acc.1, acc.2.1, s)) ([], false, s)
  match fails with
  | [] => s
  | f :: _ =>
    if waits then s
    else
      let cause (x : Nat × Nat × Nat) : Nat :=
        if ((o.part? x.1).getD default).injected o.ins then 4 else s.poisonAt (s.req o.iid x.1 kind) x.2.2
      let bad := (fails.filter fun x => x.2.1 == 5).map fun x => (x.2.2, cause x)
      s.parkParts o (fails.map (·.1)) f.2.1 (fun t => ((fails.find? fun x => x.1 == t).map (·.2.2)).getD 0) bad
/-- A load that a peer refuses, or that cannot reach one: its part keeps cause and address until its home warp parks. -/
def State.loadFails (s : State) (o : PendOp) (tid cause va : Nat) : State :=
  let s := s.modOp o.id fun o => o.modPart tid fun p => { p with args := [p.arg 0, p.arg 1, BitVec.ofNat 64 cause, BitVec.ofNat 64 va] }
  match s.op? o.id with
  | some o => s.parkFailing o tid 0
  | none => s

/-! ### Numbered accesses of paired instances (R263, R273) -/

/-- Whether a thread is in a pair region of a paired instance. -/
def Inst.inPair (i : Inst) (tid : Nat) : Bool :=
  i.paired && (i.hw (i.hwOf tid)).regions.any fun (r : Region) => r.pair && r.members.contains tid
def Inst.slackOf (i : Inst) (hw : Nat) : Nat :=
  (((i.hw hw).regions.filter fun (r : Region) => r.pair).getLast?).elim 0 (·.slack)

/-! Operands of a store-class part: address, sequence number plus one in a pair region or 0, the injected difference,
then the data words, or B and C of an atomic and its number outside pair regions. -/
def Part.seqNo (p : Part) : Nat := (p.arg 1).toNat
def Part.data (p : Part) (k : Nat) : DWord := p.arg (3 + k)

/-- How many numbered accesses a part makes. -/
def numWords : Instr → Nat
  | .stm _ n _ _ | .mcast _ n _ _ _ => n
  | _ => 1
/-- The signature of one numbered access. -/
def sigOf (ins : Instr) (p : Part) (k : Nat) : List Nat :=
  let x (v : DWord) : Nat := (if k = 0 then v ^^^ p.arg 2 else v).toNat
  match ins with
  | .st _ ty _ _ => [0, (p.arg 0).toNat, tyBytes ty, x (p.data 0)]
  | .stm _ _ s _ => [0, ((p.arg 0).toNat + (if s then 128 else 4) * k) % 2 ^ 64, 4, x (p.data k)]
  | .mcast .. => [0, ((p.arg 0).toNat + 4 * k) % 2 ^ 64, 4, x (p.data k)]
  | .atom _ op ty _ => [1, (p.arg 0).toNat, op.code * 4 + ty.code, x (p.data 0)]
  | .red _ op ty _ _ => [1, (p.arg 0).toNat, op.code * 4 + ty.code, x (p.data 0)]
  | .atomcas _ ty _ => [2, (p.arg 0).toNat, ty.code, x (p.data 0), (p.data 1).toNat]
  | _ => []

/-- Whether a store or atomic is held at issue: the store-fault record queue is full (R128), or the slack or the compare
buffer of a leading copy is used up (R263, R273). -/
def State.storeHeld (s : State) (is : Issue) (rs : List Run) (words : Nat) : Bool :=
  let i := s.inst is.iid
  let d := i.die is.iid
  let lead := rs.filter fun r => i.leading && i.inPair r.t.tid && !i.unwinding r.t.tid
  i.kind == .stage && !rs.isEmpty &&
    ((s.core i.core).sfFull ||
      ((lead.map fun r => i.hwOf r.t.tid).eraseDups.any fun h =>
        let n := ((s.die d).cmp.filter fun (e : CmpEntry) => e.iid == is.iid && i.hwOf e.tid == h).length
        let e := words * (lead.filter fun r => i.hwOf r.t.tid == h).length
        n != 0 && decide (i.slackOf h < n + e)) ||
      (!lead.isEmpty && decide (Config.cmpSize < (s.die d).cmp.length + words * lead.length)))

/-- Numbers the accesses of a run: in a pair region the entries of a leading thread join the compare buffer under the
operation that is about to start, a trailing thread's armed difference goes to its first access. An access issued after an error
of its region is never performed, so it has no entry (R262, R273). -/
def State.number (s : State) (is : Issue) (ins : Instr) (tid lane : Nat) (ea : DWord) (data : List DWord) (memAtomic : Bool) :
    Part × State :=
  let i := s.inst is.iid
  let th := i.th tid
  let n := numWords ins
  if i.inPair tid then
    let x : DWord := if i.trailing then (th.pmis.getD 0).setWidth 64 else 0
    let p : Part := { tid, lane, args := [ea, BitVec.ofNat 64 (th.pairN + 1), x] ++ data, done := 0, arrived := false }
    let s := s.modTh is.iid tid fun t => { t with pairN := t.pairN + n, pmis := if i.trailing then none else t.pmis }
    (p, if i.trailing || i.unwinding tid then s else s.modDie (i.die is.iid) fun d =>
      { d with cmp := d.cmp ++ (List.range n).map fun k =>
          ({ iid := is.iid, tid, seqNo := th.pairN + k, op := s.nextId, word := k, sig := sigOf ins p k } : CmpEntry) })
  else
    let num : List DWord := if i.paired && memAtomic then [BitVec.ofNat 64 th.atomN] else []
    ({ tid, lane, args := [ea, 0, 0] ++ data ++ num, done := 0, arrived := false },
     if i.paired && memAtomic then s.modTh is.iid tid fun t => { t with atomN := t.atomN + 1 } else s)

/-- Address, size and data of a store or atomic belong to the iteration that issues it (R115). -/
def State.feedStores (s : State) (is : Issue) (ins : Instr) (ps : List Part) : State :=
  s.modInst is.iid fun i => i.spinFeed (fun t => is.lanes.any fun l => l.tid == t) (ins.opc.getD 0 :: ps.flatMap fun (p : Part) =>
    p.tid :: ((accPieces ins p ++ spadPieces ins p).flatMap fun x => [x.1, x.2]) ++ (p.args.drop (if (accPieces ins p).isEmpty then 1 else 3)).map (·.toNat))

/-- The issue of a store or memory atomic: address and data of each run. -/
def storeOp (ins : Instr) (c : Ctl) (memAtomic : Bool) (f : State → Issue → Run → DWord × List DWord) (s : State) :
    Host.Outcome State Fault Refusal :=
  inClause s fun is => s.issueIns is ins c [] fun s is =>
    let rs := s.runs is c
    if s.storeHeld is rs (numWords ins) then .stay s
    else
      let (ps, s) := rs.foldl (fun (acc : List Part × State) r =>
        let (ea, data) := f acc.2 is r
        let (p, s) := acc.2.number is ins r.t.tid r.t.lane ea data memAtomic
        (acc.1 ++ [p], s)) ([], s)
      .go ((s.feedStores is ins ps).startOp is ins c ps [])

/-- The partner's operation and part that hold a numbered access (R263). -/
def State.partnerPart (s : State) (iid tid seqNo : Nat) : Option (PendOp × Part) :=
  match (s.inst iid).partner with
  | none => none
  | some j => s.ops.findSome? fun (o : PendOp) =>
    if o.iid != j then none
    else (o.parts.find? fun p => p.tid == tid && p.seqNo != 0 && (accKind o.ins).any (· != .load) && (spadPieces o.ins p).isEmpty &&
      decide (p.seqNo ≤ seqNo + 1) && decide (seqNo + 1 < p.seqNo + numWords o.ins)).map fun p => (o, p)

end Sys2Proof.Machine
end

