-- ==== Sys2Proof/Machine/LoadStore.lean ====
section
/-! DEFINITION. Group 0x8, loads and stores (R133 to R144, R334, R335, R355). -/
namespace Sys2Proof.Machine

/-! ### Loads -/

/-- A loaded value in D (R136). -/
def extendLoad (ty : Ty) (x : Nat) : DWord :=
  let b : DWord := BitVec.ofNat 64 x
  match ty with
  | .i8 => ((b.setWidth 8).signExtend 32).setWidth 64
  | .i16 => ((b.setWidth 16).signExtend 32).setWidth 64
  | _ => b

/-- The parts of a load: the address, and beside it 1 where an injected poison has waited for this load (R264). -/
def loadParts (o : O2) (s : State) (is : Issue) (rs : List Run) : State × List Part :=
  let hit (tid : Nat) (ea : DWord) : Bool :=
    ((s.inst is.iid).th tid).poison && (aperOf ea.toNat == .mem || aperOf ea.toNat == .phys)
  let ps : List Part := rs.map fun r =>
    let ea := s.ea is r o.a o.b
    { tid := r.t.tid, lane := r.t.lane, args := if hit r.t.tid ea then [ea, 1] else [ea], done := 0, arrived := false }
  (ps.foldl (fun s p => if p.args.length = 2 then s.modTh is.iid p.tid fun t => { t with poison := false } else s) s, ps)
def execLd (c : Ctl) (ty : Ty) (h : Hint) (o : O2) (s : State) :=
  flagged (.ld c ty h o) c noMore (loadParts o) noAfter s
def execLdm (c : Ctl) (n : Nat) (s128 : Bool) (o : O2) (s : State) :=
  flagged (.ldm c n s128 o) c noMore (loadParts o) noAfter s

/-- The writes of a load's bytes. -/
def State.loadWrites (s : State) (o : PendOp) (tid k : Nat) (bs : List Byte) : List (Loc × DWord) :=
  match o.ins with
  | .ld _ ty _ x => o.dst (s.inst o.iid) tid ty.wide x.d (extendLoad ty (natOf bs))
  | .ldm _ _ _ x => [(.v tid (x.d + k), BitVec.ofNat 64 (natOf bs))]
  | _ => []

/-- A load that reaches a peer, one word after the other: the word's line drains from the Hamper, one request goes out
and is answered (R334, R250). -/
def State.peerLoad (s : State) (o : PendOp) (p : Part) : State :=
  let i := s.inst o.iid
  let core := i.bank o.iid
  let asid := (s.ctx i.ctx).ccb.asid
  match (accPieces o.ins p)[p.done]? with
  | none => s.partDone o.id p.tid
  | some (va, n) =>
    if !spanOk va n then s.loadFails o p.tid 1 va
    else if aperOf va != .peer then
      match s.accCheck (.op o.id p.tid) (s.req o.iid p.tid 0) va n with
      | (.wait, s) => s
      | (.refuse c v, s) => s.loadFails o p.tid c v
      | (.ok, s) =>
        (s.asyncWrites o.iid (s.loadWrites o p.tid p.done (s.loadBytes (s.req o.iid p.tid 0) va n))).modOp o.id fun o =>
          o.modPart p.tid fun p => { p with done := p.done + 1 }
    else if s.freqs.any fun (f : FReq) => (match f.kind with | .load op t _ _ => op == o.id && t == p.tid | _ => false) then s
    else if s.down.contains (s.peerId va) then s.loadFails o p.tid 1 va
    else
      let own : SMap Byte := (List.range n).filterMap fun k => (s.core core).hamper.findSome? fun (e : HEntry) =>
        if e.asid == asid && e.line == (va + k) / 128 * 128 then (find? e.data ((va + k) % 128)).map fun b => (k, (s.vfOf i.ctx).pad (peerOff (va + k)) b) else none
      (s.drainWhere core fun e => e.holds asid va n).sendReq core asid i.ctx (s.peerId va) (packetOf 0 (peerOff va) n []) .load
        (.load o.id p.tid p.done own)

/-- A word of an LDM or STM in two sectors of memory. -/
def overSectors (ins : Instr) (va n : Nat) : Bool :=
  (match ins with | .ldm .. | .stm .. => true | _ => false) && (sectorsOf va n).length != 1 && (sectorsOf va n).all fun p => aperOf p.1 == .mem
/-- L1 gives up the clean bytes of a sector. -/
def State.l1Stale (s : State) (q : Req) (va : Nat) : State :=
  match (s.inst q.iid).l1Find (s.tags q.ctx) va with
  | none => s
  | some (a, x) => s.modInst q.iid fun i =>
      { i with l1 := if x.dirty = 0 then i.l1.filter fun p => p.1 != secKey a va else sput i.l1 (secKey a va) { x with have_ := x.dirty } }
/-- Each word of an LDM is read as one (R236): both sectors of a word are read anew in the step that reads it. -/
def State.freshWords (s : State) (ins : Instr) (q : Req) (ps : List (Nat × Nat)) : State :=
  (ps.filter fun a => overSectors ins a.1 a.2).foldl (fun s a => (sectorsOf a.1 a.2).foldl (fun s p => s.l1Stale q p.1) s) s

/-- The next action of a load's part: behind what holds it back it is checked and performed, so that what it fails by then parks it
(R209, R213). -/
def State.loadStep (s : State) (o : PendOp) (p : Part) : State :=
  let ps := accPieces o.ins p
  let q := s.req o.iid p.tid 0
  let i := s.inst o.iid
  if (i.th p.tid).status == .exited && !o.once then (s.dropWant (.op o.id p.tid)).partDone o.id p.tid
  else if p.arg 2 != 0 then s.parkFailing o p.tid 0
  else if s.blocked o p then s
  else if p.injected o.ins then s.parkFailing o p.tid 0
  else if ps.any fun x => aperOf x.1 == .peer then s.peerLoad o p
  else match accChecks (.op o.id p.tid) q (s.freshWords o.ins q ps) ps with
    | (.wait, s) => s
    | (.refuse .., s') => s'.parkFailing o p.tid 0
    | (.ok, s) =>
      let t := s.partWrites o.id p.tid ((List.range ps.length).flatMap fun k =>
        let a := ps.getD k (0, 0)
        s.loadWrites o p.tid k (s.loadBytes q a.1 a.2)) 0
      ps.foldl (fun (s : State) a => s.loadTouch q a.1 a.2) t

/-! ### Stores -/

def execSt (c : Ctl) (ty : Ty) (h : Hint) (o : O2) (s : State) :=
  storeOp (.st c ty h o) c false (fun s is r => (s.ea is r o.a o.b, [s.own is r ty.wide o.d])) s
def execStm (c : Ctl) (n : Nat) (s128 : Bool) (o : O2) (s : State) :=
  storeOp (.stm c n s128 o) c false (fun s is r => (s.ea is r o.a o.b, s.ownRange is r o.d n)) s

/-- One word of a store is over: the part goes on to its next word. -/
def State.nextWord (s : State) (o : PendOp) (p : Part) : State :=
  if p.done + 1 < numWords o.ins then s.modOp o.id fun o => o.modPart p.tid fun p => { p with done := p.done + 1 }
  else (s.dropWant (.op o.id p.tid)).partDone o.id p.tid

/-- Address and bytes of the word that a store performs next. -/
def storeWord (o : PendOp) (p : Part) : Nat × List Byte :=
  let a := (accPieces o.ins p).getD p.done (0, 0)
  (a.1, bytesOf a.2 (p.data p.done).toNat)

/-- The bytes of sectors of an instance's L1 reach their home slices at once. The answer is false where one has to wait. -/
def sendThrough (q : Req) : State → List (Nat × Nat) → Bool × State
  | s, [] => (true, s)
  | s, (va, _) :: r => match (s.inst q.iid).l1Find (s.tags q.ctx) va with
    | none => sendThrough q s r
    | some (a, x) =>
      let key := secKey a va
      let m : D2d := { id := 0, src := q.die, dst := paDie x.pa, key, ctx := q.ctx, world := (s.die q.die).world, data := x.data, mask := x.dirty
                       major := x.major, minor := x.minor, vc := [], pa := x.pa, rights := x.rights, iid := q.iid }
      match (s.modInst q.iid fun i => { i with l1 := sput i.l1 key { x with dirty := 0 } }).arriveL2 m with
      | (true, s) => sendThrough q (s.vcLearn m.dst m.src) r
      | o => o
/-- What a word of an STM in two sectors waits for, before both reach their slices in one step (R236): older bytes of the sectors, writes
that are cause-before them, a migration's copy, and room. -/
def State.wordWaits (s : State) (q : Req) (va : Nat) (bs : List Byte) : Option State :=
  let ps := sectorsOf va bs.length
  (ps.findSome? fun p => match s.storeRights q p.1 with
    | .ok a pa _ =>
      let key := secKey a p.1
      if (find? (s.inst q.iid).l1 key).elim false fun x => x.dirty != 0 then some (s.writeback q.iid key)
      else if (s.underway q.die fun m => m.key == key) || !s.vcReady (paDie pa) (s.die q.die).vc ||
          (s.migOf pa key).elim false (·.st == .copied) then some s
      else none
    | _ => none).orElse fun _ =>
      if (sendThrough q (s.storeBytes q va bs) ps).1 then none
      else some (ps.foldl (fun s p => match s.storeRights q p.1 with
        | .ok a pa _ => s.l2Evict (paDie pa) (secKey a p.1)
        | _ => s) s)
/-- The bytes of a store's word that has been checked: L1 takes them, and a word of an STM in two sectors goes on home. -/
def State.putWord (s : State) (o : PendOp) (q : Req) (va : Nat) (bs : List Byte) : State :=
  let t := s.storeBytes q va bs
  if overSectors o.ins va bs.length then (sendThrough q t (sectorsOf va bs.length)).2 else t

/-- A word that the leading or only copy performs: remote stores merge into the Hamper, the others are checked, logged
and accepted by L1 or performed at their target. -/
def State.performStore (s : State) (o : PendOp) (p : Part) : State :=
  let i := s.inst o.iid
  let q := s.req o.iid p.tid 1
  let (va, bs) := storeWord o p
  if spanOk va bs.length && aperOf va == .peer then
    match i.strictDepth p.tid o.id with
    | some d => (s.consume o.iid p.tid 6 (BitVec.ofNat 64 va) o.hdr (some d)).nextWord o p
    | none => (((s.hamperMerge o p.tid va bs).countRegion o.iid p.tid o.id 0 1).sibling o.iid p.tid).nextWord o p
  else match s.accCheck (.op o.id p.tid) q va bs.length with
    | (.wait, s) => s
    | (.refuse c _, s) => s.failWith o p.tid (BitVec.ofNat 64 va) c bs.length fun s => s.nextWord o p
    | (.ok, s) =>
      match if overSectors o.ins va bs.length then s.wordWaits q va bs else none with
      | some s => s
      | none =>
        match s.regionLog o.iid p.tid o.id (s.memUndo q va bs.length) with
        | (some d, s) => (s.consume o.iid p.tid 5 (BitVec.ofNat 64 va) o.hdr (some d)).nextWord o p
        | (none, s) => ((s.putWord o q va bs).sibling o.iid p.tid).nextWord o p

/-- A word of a trailing copy goes to its own L1 alone (R263). -/
def State.trailStore (s : State) (o : PendOp) (p : Part) : State :=
  let q := s.req o.iid p.tid 1
  let (va, bs) := storeWord o p
  if aperOf va != .mem then (s.sibling o.iid p.tid).nextWord o p
  else match s.accCheck (.op o.id p.tid) q va bs.length with
    | (.wait, s) => s
    | (.refuse .., s) => s.nextWord o p
    | (.ok, s) =>
      match s.regionLog o.iid p.tid o.id (s.memUndo q va bs.length) with
      | (some d, s) => (s.consume o.iid p.tid 5 (BitVec.ofNat 64 va) o.hdr (some d)).nextWord o p
      | (none, s) => ((s.storeBytes q va bs).sibling o.iid p.tid).nextWord o p

/-- The next action of a store's part. -/
def State.storeStep (s : State) (o : PendOp) (p : Part) : State :=
  let i := s.inst o.iid
  let seq := p.seqNo
  if s.muted o.iid p.tid o.id || (i.trailing && seq == 0) then s.partDone o.id p.tid
  else if s.blocked o p || (seq != 0 && !p.arrived) then s
  else if i.trailing then s.trailStore o p
  else s.performStore o p

/-! ### Scratchpad -/

/-- The lines that runs wait for. -/
def State.lineWaits (s : State) (is : Issue) (ins : Instr) (rs : List (Run × List DWord)) : List (Nat × List Nat) :=
  let i := s.inst is.iid
  rs.filterMap fun r =>
    let ls := s.absentLines i (spadPieces ins { tid := r.1.t.tid, lane := 0, args := r.2, done := 0, arrived := false })
    if ls.isEmpty then none else some (r.1.t.tid, ls)

/-- Threads whose access touches an absent line leave as a sub-group of each home warp that keeps its clause, and sees the
registers of the other threads of the formed warp, those that go on and those that have parked, as the clause does (R355). -/
def State.parkLines (s : State) (is : Issue) (c : Ctl) (ws : List (Nat × List Nat)) : State :=
  let i := s.inst is.iid
  let fl : SMap Nat := match is.flagOf c.fsel with | none => [] | some f => [(f, 1)]
  match s.issues.find? fun (x : Issue) => x.q == is.q with
  | none => s
  | some base =>
  (((ws.map fun w => i.hwOf w.1).eraseDups).insertionSort (· ≤ ·)).foldl (fun s h =>
    let mine := ws.filter fun w => i.hwOf w.1 == h
    let tids := mine.map (·.1)
    -- what the clause has read and written for these threads goes with them; the scalar results of their home warp go
    -- with its last threads
    match s.issues.find? fun (x : Issue) => x.q == is.q with
    | none => s
    | some cur =>
    let stays := cur.lanes.filter fun (l : LaneT) => !tids.contains l.tid
    let last := !(stays.any fun (l : LaneT) => i.hwOf l.tid == h)
    let own (w : FWrite) : Bool := w.owner.elim false fun t => tids.contains t
    let sca (w : FWrite) : Bool := match w.loc with | .s m _ => m == h | _ => false
    let goes (w : FWrite) : Bool := own w || (sca w && last)
    let (leaves, others) := base.lanes.partition fun (l : LaneT) => tids.contains l.tid
    let cont : Issue := { base with lanes := leaves, fflags := [], ghosts := others ++ base.ghosts ++ base.parked, parked := []
                                    writes := base.writes.map fun (w : FWrite) => if goes w then w else { w with done := true } }
    let rest : Issue := { cur with lanes := stays, parked := leaves ++ cur.parked
                                   writes := cur.writes.map fun (w : FWrite) => if goes w then { w with done := true } else w }
    let s := if stays.isEmpty then
        rest.fflags.foldl (fun s f => s.modInst is.iid fun i => i.decFlag f.hw f.sub f.flag) (s.dropIssue is.q)
      else s.setIssue rest
    let (id, s) := s.newSub is.iid h tids fl is.hdrAt is.hdrAt 0 .line
    s.modInst is.iid fun i => { i with subs := i.subs.map fun (g : SubGroup) =>
      if g.id == id then { g with cont := some cont, lines := (mine.flatMap (·.2)).eraseDups } else g }) s

/-- Whether a scratchpad store or atomic is held at issue by a full store-fault record queue (R128). -/
def State.fullHeld (s : State) (is : Issue) (rs : List Run) : Bool :=
  (s.inst is.iid).kind == .stage && !rs.isEmpty && (s.core (s.inst is.iid).core).sfFull

/-- The issue of a scratchpad access: threads that touch an absent line park first, also where the access is misaligned or leaves
the region at another byte, since a thread whose access cannot be performed yet has not failed (log entry 76). -/
def spadOp (ins : Instr) (c : Ctl) (parks : Bool) (f : State → Issue → Run → List DWord) (s : State) :
    Host.Outcome State Fault Refusal :=
  inClause s fun is => s.issueIns is ins c [] fun s is =>
    let rs := s.runs is c
    let args := rs.map fun r => (r, f s is r)
    let ws := if parks then s.lineWaits is ins args else []
    if !ws.isEmpty then .stay (s.parkLines is c ws)
    else if accKind ins != some .load && s.fullHeld is rs then .stay s
    else
      let ps := args.map fun a => ({ tid := a.1.t.tid, lane := a.1.t.lane, args := a.2, done := 0, arrived := false } : Part)
      .go ((if accKind ins == some .load then s else s.feedStores is ins ps).startOp is ins c ps [])

/-- The byte offset of R140. -/
def State.spadOff (s : State) (is : Issue) (r : Run) (a : VSrc) (b : BSrc) : DWord :=
  lo32 (s.srcV is r false a + s.srcB is r .i32 b)

def execLds (c : Ctl) (ty : Ty) (o : O2) (s : State) :=
  spadOp (.lds c ty o) c true (fun s is r => [s.spadOff is r o.a o.b]) s
def execSts (c : Ctl) (ty : Ty) (o : O2) (s : State) :=
  spadOp (.sts c ty o) c false (fun s is r => [s.spadOff is r o.a o.b, s.own is r ty.wide o.d]) s
def execLdt (c : Ctl) (w : Nat) (o : O2) (s : State) :=
  spadOp (.ldt c w o) c true (fun s is r => [s.srcV is r false o.a, s.srcB is r .n32 o.b]) s

/-- The record address of a scratchpad access that fails (R140). -/
def spadFaultVa (off : Nat) : DWord := BitVec.twoPow 64 63 ||| BitVec.ofNat 64 off

def State.ldsStep (s : State) (o : PendOp) (p : Part) (ty : Ty) (d : Nat) : State :=
  let i := s.inst o.iid
  let off := (p.arg 0).toNat % 2 ^ 32
  let n := tyBytes ty
  if s.blocked o p then s
  else if off % n ≠ 0 ∨ !i.spadHas off n then s.partWrites o.id p.tid (o.dst i p.tid ty.wide d 0) 0
  else if !(s.absentLines i [(off, n)]).isEmpty then s
  else s.partWrites o.id p.tid (o.dst i p.tid ty.wide d (extendLoad ty (natOf (s.spadBytes i off n)))) 0

def State.stsStep (s : State) (o : PendOp) (p : Part) (ty : Ty) : State :=
  let i := s.inst o.iid
  let off := (p.arg 0).toNat % 2 ^ 32
  let n := tyBytes ty
  if s.muted o.iid p.tid o.id then s.partDone o.id p.tid
  else if s.blocked o p then s
  else if off % n ≠ 0 ∨ !i.spadHas off n then s.failWith o p.tid (spadFaultVa off) 1 n fun s => s.partDone o.id p.tid
  else match s.regionLog o.iid p.tid o.id (s.spadUndo i off n) with
    | (some d, s) => (s.consume o.iid p.tid 5 (spadFaultVa off) o.hdr (some d)).partDone o.id p.tid
    | (none, s) => ((s.spadPut i off (bytesOf n (p.arg 1).toNat)).sibling o.iid p.tid).partDone o.id p.tid

/-- LDT (R141): element k = 4c + q of the destination is element c of row q. -/
def ldtWords (n : Nat) (rows : List Nat) : List Nat :=
  let per := 32 / n
  (List.range (2 * n)).map fun r => joinElems n ((List.range per).map fun j =>
    let k := r * per + j
    rows.getD (k % 4) 0 / 2 ^ (n * (k / 4)) % 2 ^ n)
def State.ldtStep (s : State) (o : PendOp) (p : Part) (w d : Nat) : State :=
  let i := s.inst o.iid
  let ps := spadPieces o.ins p
  if s.blocked o p || !(s.absentLines i ps).isEmpty then s
  else
    let rows := ps.map fun a => natOf (s.spadBytes i a.1 a.2)
    let ws := ldtWords (4 * 2 ^ w) rows
    s.partWrites o.id p.tid ((List.range ws.length).map fun k => (.v p.tid (d + k), BitVec.ofNat 64 (ws.getD k 0))) 0

/-- SPRES reads one presence bit (R140). -/
def execSpres (c : Ctl) (o : O2) (s : State) :=
  pureFixed (.spres c o) c 3 (fun s is r =>
    let i := s.inst is.iid
    let off := (s.spadOff is r o.a o.b).toNat
    [putPred r.t.tid o.d (i.spadHas off 1 && !(s.core i.core).absent.contains (i.spadLine off))]) s

/-! ### PREF, DRAINST, SFQPOP -/

def execPref (c : Ctl) (h : Hint) (a : VSrc) (b : BSrc) (s : State) :=
  flagged (.pref c h a b) c noMore (partPer fun s is r => [s.ea is r a b]) noAfter s

/-- PREF (R142): the four sectors of the line are filled; a sector that cannot be has no effect. -/
def prefSectors (who : Asker) (q : Req) : State → List Nat → Bool × State
  | s, [] => (true, s)
  | s, va :: r =>
    match s.accCheck who q va 32 with
    | (.wait, s) => (match s.want? who with
      | some w => if w.st == .service then prefSectors who q s r else (false, s)
      | none => (false, s))
    | (.ok, s) => prefSectors who q s r
    -- of a line that cannot be translated no sector can be
    | (.refuse c _, s) => if c = 5 then prefSectors who q s r else (true, s)
def State.prefStep (s : State) (o : PendOp) (p : Part) : State :=
  let va := (p.arg 0).toNat / 128 * 128
  let who : Asker := .op o.id p.tid
  if aperOf va != .mem || decide (2 ^ 57 ≤ va) then s.partDone o.id p.tid
  else
    let (ok, s) := prefSectors who (s.req o.iid p.tid 0) s ((List.range 4).map fun k => va + 32 * k)
    if ok then (s.dropWant who).partDone o.id p.tid else s

/-- The lane bits of the threads of a home warp that a per-home-warp operation acts for. -/
def hwMask (s : State) (is : Issue) (c : Ctl) (hw : Nat) : DWord :=
  let i := s.inst is.iid
  (laneMask ((s.runs is c).filterMap fun r => if i.hwOf r.t.tid == hw then some r.t else none)).setWidth 64
/-- The threads that the mask names. -/
def Inst.maskTids (i : Inst) (hw : Nat) (m : DWord) : List Nat :=
  (i.ths.filter fun p => i.hwOf p.1 == hw && m.getLsbD (i.laneOf p.1)).map (·.1)

def execDrainst (c : Ctl) (s : State) :=
  flagged (.drainst c) c noMore
    (fun s is rs => partHw (fun s is r => [hwMask s is c ((s.inst is.iid).hwOf r.t.tid)]) s is rs) noAfter s
/-- DRAINST (R143). -/
def State.drainstStep (s : State) (o : PendOp) (p : Part) : State :=
  let i := s.inst o.iid
  let ts := i.maskTids (i.hwOf p.tid) (p.arg 0)
  let open_ := s.ops.any fun (q : PendOp) => q.iid == o.iid && decide (q.id < o.id) &&
    (accKind q.ins == some .store || accKind q.ins == some .atomic) &&
    ((q.parts.any fun (r : Part) => ts.contains r.tid) || q.sf.any fun (r : SfRec) => ts.contains r.tid)
  let wait := i.kind == .stage && (s.core i.core).sfWait.any fun (r : SfRec) => r.iid == o.iid && ts.contains r.tid
  let known := s.freqs.any fun (f : FReq) => match f.kind with
    | .mcast id t _ r c => r.iid == o.iid && ts.contains t && c != 0 && decide (id < o.id)
    | _ => false
  if open_ || wait || known then s else s.partDone o.id p.tid

def execSfqpop (c : Ctl) (pp d : Nat) (s : State) :=
  flagged (.sfqpop c pp d) c noMore (partPer fun _ _ _ => []) noAfter s
/-- SFQPOP (R144): threads are served in ascending lane position. -/
def State.sfqpopStep (s : State) (o : PendOp) (p : Part) (pp d : Nat) : State :=
  let i := s.inst o.iid
  if o.parts.any fun (q : Part) => decide (q.lane < p.lane) then s
  else match (s.core i.core).sfq.find? fun (r : SfRec) => r.iid == o.iid with
    | none => s.partWrites o.id p.tid [(.p p.tid pp, 0)] 0
    | some r =>
      let bs := r.bytes
      let s := s.modCore i.core fun k => { k with sfq := k.sfq.filter (· != r) }
      let s := s.settleSf i.core (s.core i.core).sfWait.length
      s.partWrites o.id p.tid ((.p p.tid pp, 1) :: (List.range 8).map fun k =>
        (.v p.tid (d + k), BitVec.ofNat 64 (natOf ((bs.drop (4 * k)).take 4)))) 0

end Sys2Proof.Machine
end

