-- ==== Sys2Proof/Machine/Atomics.lean ====
section
/-! DEFINITION. Group 0x9, atomics and fences (R145 to R148, R253, R263, R339). -/
namespace Sys2Proof.Machine

/-! ### The value of an atomic (R145) -/

/-- The type in which operand B of an atomic is read. -/
def atomTy (op : AOp) (ty : ATy) : Ty :=
  match ty with
  | .b64 => .n64
  | .f16 => .f16
  | .bf16 => .bf16
  | .b32 => match op with
    | .fadd | .fmin | .fmax => .f32
    | _ => .n32

/-- One floating-point element. -/
def atomFloat (op : AOp) (f : Fmt) (m b : Nat) : Nat :=
  match op with
  | .fadd => (fpAdd f RMode.rne false m b).bits
  | .fmin => (fpMinMax f false false m b).bits
  | _ => (fpMinMax f false true m b).bits

/-- The new value at the location, from the old value m and operand b of w bits. -/
def atomInt (w : Nat) (op : AOp) (m b : Nat) : Nat :=
  match op with
  | .add => (m + b) % 2 ^ w
  | .mini => if valI w true m ≤ valI w true b then m else b
  | .maxi => if valI w true m ≥ valI w true b then m else b
  | .minn => min m b
  | .maxn => max m b
  | .and => m &&& b
  | .or => m ||| b
  | .xor => m ^^^ b
  | .exch => b
  | .inc => if b ≤ m then 0 else m + 1
  | .dec => if m = 0 ∨ b < m then b else m - 1
  | .fadd | .fmin | .fmax => m

def atomNew (op : AOp) (ty : ATy) (m b : Nat) : Nat :=
  match ty with
  | .f16 | .bf16 =>
    let f := if ty == .f16 then Fmt.f16 else Fmt.bf16
    joinElems 16 [atomFloat op f (m % 2 ^ 16) (b % 2 ^ 16), atomFloat op f (m / 2 ^ 16) (b / 2 ^ 16)]
  | .b64 => atomInt 64 op m b
  | .b32 => match op with
    | .fadd | .fmin | .fmax => atomFloat op Fmt.f32 m b
    | _ => atomInt 32 op m b

/-- The value that an atomic instruction writes, or none where a compare fails (R145). -/
def atomWrite (ins : Instr) (m b c : Nat) : Option Nat :=
  match ins with
  | .atom _ op ty _ | .atoms _ op ty _ | .red _ op ty _ _ => some (atomNew op ty m b)
  | .atomcas .. | .atomscas .. => if m = b ∧ c ≠ m then some c else none
  | _ => none

/-- Its destination: whether it is wide, and the register. -/
def atomDst : Instr → Option (Bool × Nat)
  | .atom _ _ ty o | .atoms _ _ ty o => some (ty == .b64, o.d)
  | .atomcas _ ty o | .atomscas _ ty o => some (ty == .b64, o.d)
  | _ => none

/-! ### Issue -/

def execAtom (c : Ctl) (op : AOp) (ty : ATy) (o : O2) (s : State) :=
  storeOp (.atom c op ty o) c true (fun s is r => (s.srcV is r true o.a, [s.srcB is r (atomTy op ty) o.b, 0])) s
def execAtomcas (c : Ctl) (ty : ATy) (o : O3) (s : State) :=
  storeOp (.atomcas c ty o) c true (fun s is r =>
    (s.srcV is r true o.a, [s.srcB is r (atomTy .add ty) o.b, s.srcV is r (ty == .b64) o.c])) s
def execRed (c : Ctl) (op : AOp) (ty : ATy) (a : VSrc) (b : BSrc) (s : State) :=
  storeOp (.red c op ty a b) c true (fun s is r => (s.srcV is r true a, [s.srcB is r (atomTy op ty) b, 0])) s
def execAtoms (c : Ctl) (op : AOp) (ty : ATy) (o : O2) (s : State) :=
  spadOp (.atoms c op ty o) c true (fun s is r => [lo32 (s.srcV is r false o.a), s.srcB is r (atomTy op ty) o.b, 0]) s
def execAtomscas (c : Ctl) (ty : ATy) (o : O3) (s : State) :=
  spadOp (.atomscas c ty o) c true (fun s is r =>
    [lo32 (s.srcV is r false o.a), s.srcB is r (atomTy .add ty) o.b, s.srcV is r (ty == .b64) o.c]) s

/-! ### Completion -/

/-- A part ends with the old value in its destination, or without one where the atomic was not performed. -/
def State.atomOut (s : State) (o : PendOp) (p : Part) (old : Option DWord) : State :=
  let s := s.dropWant (.op o.id p.tid)
  match old, atomDst o.ins with
  | some v, some (wide, d) => s.partWrites o.id p.tid (o.dst (s.inst o.iid) p.tid wide d v) 0
  | _, _ => s.partDone o.id p.tid

/-- The end of an atomic of an unpaired instance or of a leading copy, whose trailing thread receives the old value: in a
pair region at its own atomic, else under the number of the atomic (R263). -/
def State.atomEnd (s : State) (o : PendOp) (p : Part) (old : Option DWord) : State :=
  let i := s.inst o.iid
  let s :=
    if p.seqNo ≠ 0 then match s.partnerPart o.iid p.tid (p.seqNo - 1) with
      | some (o', p') => s.atomOut o' p' old
      | none => s
    else if i.paired then s.modTh o.iid p.tid fun t => { t with olds := sput t.olds (p.arg 5).toNat old }
    else s
  s.atomOut o p old

/-- The migration that holds atomics of an address (R215, step 3). -/
def State.migAt (s : State) (c va : Nat) : Option Mig :=
  s.migs.find? fun (m : Mig) => m.st == .copied && m.ctrl == ctrlOf (s.ctx c).ccb va && (s.tags c).contains m.asid &&
    (if m.big then m.page / 2 ^ 21 == va / 2 ^ 21 else m.page / 2 ^ 12 == va / 2 ^ 12)
/-- The source of an atomic's record: the slice that holds its line (R316, type 0x01). -/
def State.atomSrc (s : State) (q : Req) (va : Nat) : Nat := logSrc (s.home q.ctx va) 0 (keySlice (secKey (s.tagAt q va) va))
/-- The payload of its record. -/
def atomRec (i : Inst) (p : Part) (va : Nat) : List Byte :=
  bytesOf 8 va ++ bytesOf 2 i.core ++ bytesOf 1 (if i.isGuide p.tid then 0xFF else i.hwOf p.tid) ++ bytesOf 1 p.lane
/-- The payload of a scratchpad atomic's record (type 0x02). -/
def atomsRec (i : Inst) (p : Part) (off : Nat) : List Byte :=
  bytesOf 4 off ++ bytesOf 1 (i.hwOf p.tid) ++ bytesOf 1 p.lane ++ bytesOf 4 i.no
/-- The read-modify-write at the home slice, or at a window or physical address; the answer says whether the part is
over. The touched sector of the own L1 is written back and dropped first (R146). -/
def State.atomPerform (s : State) (o : PendOp) (p : Part) : Bool × State :=
  let i := s.inst o.iid
  let q := s.req o.iid p.tid 2
  let va := (p.arg 0).toNat
  match s.accCheck (.op o.id p.tid) q va ((accPieces o.ins p).headD (0, 0)).2 with
  | (.wait, s) => (false, s)
  | (.refuse c _, s') => if c = 5 then (true, s'.parkFailing o p.tid 2)
    else (true, s'.failWith o p.tid (BitVec.ofNat 64 va) c ((accPieces o.ins p).headD (0, 0)).2 fun s => s.atomEnd o p none)
  | (.ok, s) =>
    let n := ((accPieces o.ins p).headD (0, 0)).2
    let (ok, s) := s.gate i.ctx (s.atomSrc q va) 0x01 (atomRec i p va)
    if !ok then (false, s)
    else
      let mem := aperOf va == .mem
      let old := natOf (if mem then s.homeBytes q va n else s.loadBytes q va n)
      let s := match atomWrite o.ins old (p.data 0).toNat (p.data 1).toNat with
        | none => s
        | some x => if mem then s.homePut q va (bytesOf n x) else s.storeBytes q va (bytesOf n x)
      (true, ((s.countRegion o.iid p.tid o.id 1 0).sibling o.iid p.tid).atomEnd o p (some (BitVec.ofNat 64 old)))

/-- The own L1 gives up the sector of an atomic. -/
def State.dropL1 (s : State) (iid ctx va : Nat) : State :=
  match (s.inst iid).l1Find (s.tags ctx) va with
  | none => s
  | some (a, _) => (s.writeback iid (secKey a va)).modInst iid fun i => { i with l1 := sdel i.l1 (secKey a va) }

/-- What a remote atomic asks of its target (R339). -/
def atomAsk (ins : Instr) (p : Part) : SKind :=
  match ins with
  | .atom _ op ty _ | .red _ op ty _ _ => .atomic op ty false (p.data 0) 0
  | .atomcas _ ty _ => .atomic .add ty true (p.data 0) (p.data 1)
  | _ => .load
/-- A memory atomic's first action: alignment, a peer, rights; then it is performed, in its order. A refusal of a peer stands in the
part's count as its cause and 8. -/
def State.atomPerf (s : State) (o : PendOp) (p : Part) : State :=
  let i := s.inst o.iid
  let (va, n) := (accPieces o.ins p).headD (0, 0)
  let core := i.bank o.iid
  let asid := (s.ctx i.ctx).ccb.asid
  let mark (s : State) : State := s.modOp o.id fun o => o.modPart p.tid fun p => { p with arrived := true }
  let fail (s : State) (cause : Nat) : State := s.failWith o p.tid (BitVec.ofNat 64 va) cause n fun s => s.atomEnd o p none
  if va % n ≠ 0 then fail s 5
  else match i.strictDepth p.tid o.id with
  | some d => (s.consume o.iid p.tid 6 (BitVec.ofNat 64 va) o.hdr (some d)).atomEnd o p none
  | none =>
    if !spanOk va n then fail s 1
    else if aperOf va == .peer then
      if 8 ≤ p.done then fail s (p.done - 8)
      else if s.freqs.any fun (f : FReq) => f.kind == .atomic o.id p.tid then s
      else if s.down.contains (s.peerId va) then fail s 1
      else if s.blocked o p then mark s
      else (mark ((s.drainWhere core fun e => e.holds asid va n).countRegion o.iid p.tid o.id 1 0)).sendReq core asid i.ctx
        (s.peerId va) (packetOf 0 (peerOff va) n []) (atomAsk o.ins p) (.atomic o.id p.tid)
    else if s.blocked o p then
      if p.arrived then s
      else match s.accCheck (.op o.id p.tid) (s.req o.iid p.tid 2) va n with
        | (.ok, s) => mark s
        | (.wait, s) => s
        | (.refuse c _, s') => if c = 5 then s'.parkFailing o p.tid 2 else fail s' c
    else
      let s := if aperOf va == .mem then s.dropL1 o.iid i.ctx va else s
      match s.migAt i.ctx va with
      | some m => ((mark s).holdIn m (.op o.id p.tid)).2
      | none => (s.atomPerform o p).2

/-- The atomic of a trailing thread waits for the leading one's old value (R263). -/
def State.trailAtom (s : State) (o : PendOp) (p : Part) : State :=
  if p.seqNo ≠ 0 then s
  else
    let s := s.modOp o.id fun o => o.modPart p.tid fun p => { p with arrived := true }
    let n := (p.arg 5).toNat
    match (s.inst o.iid).partner.bind s.inst? with
    | none => s.atomOut o p (some 0)
    | some j =>
      let t := j.th p.tid
      match find? t.olds n with
      | some v => (s.modInst ((s.inst o.iid).partner.getD 0) fun j => j.modTh p.tid fun t => { t with olds := sdel t.olds n }).atomOut o p v
      | none => if t.status == .exited && decide (t.atomN ≤ n) then s.atomOut o p (some 0) else s

/-- Whether an earlier numbered access of the home warp of a leading thread has not matched yet (R274). -/
def State.unmatched (s : State) (o : PendOp) (tid : Nat) : Bool :=
  let i := s.inst o.iid
  (s.die (i.die o.iid)).cmp.any fun (e : CmpEntry) => e.iid == o.iid && i.hwOf e.tid == i.hwOf tid && decide (e.op < o.id)
/-- Before its match an atomic of a pair region is only checked, so that its thread may go on; a failure shows again when it is
performed. -/
def State.atomCheck (s : State) (o : PendOp) (p : Part) : State :=
  let (va, n) := (accPieces o.ins p).headD (0, 0)
  let mark (s : State) : State := s.modOp o.id fun o => o.modPart p.tid fun p => { p with arrived := true }
  if p.arrived then s
  else if va % n ≠ 0 || !spanOk va n || aperOf va == .peer then mark s
  else match s.accCheck (.op o.id p.tid) (s.req o.iid p.tid 2) va n with
    | (.wait, s) => s
    | (.refuse c _, s') => if c = 5 then s'.parkFailing o p.tid 2 else mark s'
    | (.ok, s) => mark s

/-- The next action of a memory atomic's part. -/
def State.atomStep (s : State) (o : PendOp) (p : Part) : State :=
  let i := s.inst o.iid
  if s.muted o.iid p.tid o.id then (if i.trailing then s.atomOut o p none else s.atomEnd o p none)
  else if i.trailing then s.trailAtom o p
  else if p.seqNo ≠ 0 && (p.done == 0 || s.unmatched o p.tid) then s.atomCheck o p
  else s.atomPerf o p

/-- A scratchpad atomic at the banked store (R145, R146). -/
def State.atomsStep (s : State) (o : PendOp) (p : Part) : State :=
  let i := s.inst o.iid
  let (off, n) := (spadPieces o.ins p).headD (0, 0)
  if s.muted o.iid p.tid o.id then s.partDone o.id p.tid
  else if s.blocked o p then s
  else if off % n ≠ 0 ∨ !i.spadHas off n then s.failWith o p.tid (spadFaultVa off) 1 n fun s => s.partDone o.id p.tid
  else if !(s.absentLines i [(off, n)]).isEmpty then s
  else
    let (ok, s) := s.gate i.ctx (logSrc (i.die o.iid) 4 (i.core % 128)) 0x02 (atomsRec i p off)
    if !ok then s
    else
      let old := natOf (s.spadBytes i off n)
      let s := match atomWrite o.ins old (p.arg 1).toNat (p.arg 2).toNat with
        | none => s
        | some x => s.spadPut i off (bytesOf n x)
      ((s.countRegion o.iid p.tid o.id 1 0).sibling o.iid p.tid).atomOut o p (some (BitVec.ofNat 64 old))

/-! ### The tenant's scope limit (R252, R253, R257) -/

/-- The policy of a context's virtual function. -/
def State.scopeVf (s : State) (is : Issue) : Option (Nat × Vf) :=
  let i := s.inst is.iid
  let n := (s.ctx i.ctx).ccb.vf
  if i.kind == .stage && (s.vf n).scopeLim then some (n, s.vf n) else none

/-- The scope-policy trap of the guard-true threads: they park, and a kind-4 record goes to the supervisor. -/
def State.scopeTrap (s : State) (is : Issue) (tids : List Nat) (scope opc : Nat) : State :=
  let i := s.inst is.iid
  let vf := (s.ctx i.ctx).ccb.vf
  let ls := is.lanes.filter fun l => tids.contains l.tid
  let s := (s.traceEvent is 3 tids 0).leaveIssue is.iid tids
  (byHw i ls).foldl (fun s g =>
    let s := (s.newSub is.iid g.1 (g.2.map (·.tid)) [] is.hdrAt is.hdrAt 0 (.trap 4)).2
    s.pushTrap (i.die is.iid) (qrecOf (bytesOf 8 is.hdrAt.toNat ++ bytesOf 1 is.idx ++ bytesOf 1 scope ++ bytesOf 2 opc ++
      bytesOf 2 i.ctx ++ bytesOf 1 vf ++ bytesOf 1 (if g.1 = guideHw then 0xFF else g.1) ++ bytesOf 4 (laneMask g.2).toNat ++
      bytesOf 12 0) 4 (i.core % Config.coresPerDie))) s

/-- What a limited event does: nothing special, the performance at .tn with its count, or the trap. -/
inductive Limit
  | free
  | demoted (s : State)
  | trapped (s : State)
deriving DecidableEq, Repr, Inhabited
def State.limit (s : State) (is : Issue) (tids : List Nat) (scope opc : Nat) : Limit :=
  match s.scopeVf is with
  | none => .free
  | some (n, v) =>
    if tids.isEmpty then .free
    else if v.trapDemote then .trapped (s.scopeTrap is tids scope opc)
    else .demoted (s.setVf n { v with demoteCnt := (v.demoteCnt + tids.length) % 2 ^ 64 })

/-! ### FENCE, REL, ACQ -/

/-- Issues an ordering instruction: a part per thread with its scope, and for a release of .cl or wider in a pair region
its number plus one. -/
def orderOp (ins : Instr) (c : Ctl) (sc : Scope) (s : State) : Host.Outcome State Fault Refusal :=
  inClause s fun is => s.issueIns is ins c [] fun s is =>
    let rs := s.runs is c
    let go (s : State) (sc : Scope) : Did :=
      let i := s.inst is.iid
      let wide := isRel ins && decide (4 ≤ sc.code)
      let parts : List Part := rs.map fun r =>
        let n : Nat := if wide && i.inPair r.t.tid then (i.th r.t.tid).relN + 1 else 0
        { tid := r.t.tid, lane := r.t.lane, args := [BitVec.ofNat 64 sc.code, BitVec.ofNat 64 n, 0], done := 0, arrived := false }
      let s := if !wide then s else s.modInst is.iid fun i => rs.foldl (fun i r =>
        if i.inPair r.t.tid then i.modTh r.t.tid (fun t => { t with relN := t.relN + 1 }) else i) i
      .go (s.startOp is ins c parts [])
    if sc == .sy then match s.limit is (rs.map (·.t.tid)) 8 (ins.opc.getD 0) with
      | .free => go s sc
      | .demoted s => go s .tn
      | .trapped s => .stay s
    else go s sc
def execFence (c : Ctl) (sc : Scope) (s : State) := orderOp (.fence c sc) c sc s
def execRel (c : Ctl) (sc : Scope) (s : State) := orderOp (.rel c sc) c sc s
def execAcq (c : Ctl) (sc : Scope) (s : State) := orderOp (.acq c sc) c sc s

/-- Whether the leading copy's matching release has completed. -/
def State.leadReleased (s : State) (iid tid n : Nat) : Bool :=
  match (s.inst iid).partner with
  | none => true
  | some j => match s.inst? j with
    | none => true
    | some l => ((l.th tid).status == .exited || decide (n ≤ (l.th tid).relN)) &&
      !(s.ops.any fun (o : PendOp) => o.iid == j && isRel o.ins && o.parts.any fun (p : Part) =>
        p.tid == tid && (p.arg 1).toNat == n)

/-- The release of a part at a scope (R147, R148): every earlier access of the thread is performed, then the scope's release
action; the answer says whether it is complete. The part's third operand keeps the clock of the last write pushed. -/
def State.releaseAt (s : State) (o : PendOp) (p : Part) (sc : Nat) : Bool × State :=
  let i := s.inst o.iid
  let d := i.die o.iid
  if s.accessesBefore o.iid p.tid o.id true then (false, s)
  else if sc < 4 then (true, s)
  else if i.trailing then ((p.arg 1).toNat == 0 || s.leadReleased o.iid p.tid (p.arg 1).toNat, s)
  else if !p.arrived then
    let s := s.writebackAll o.iid
    let s := if sc = 8 then s.drainWhere (i.bank o.iid) fun e => e.asid == (s.ctx i.ctx).ccb.asid else s
    if s.l1Dirty o.iid then (false, s)
    else if sc ≤ 5 && !(s.d2d.any fun (m : D2d) => m.src == d && m.dst == d) then (true, s)
    else
      let n := vcGet (s.die d).vc d
      (false, s.modOp o.id fun o => o.modPart p.tid fun p =>
        { p with arrived := true, args := [p.arg 0, p.arg 1, BitVec.ofNat 64 n] ++ p.args.drop 3 })
  else
    let before (m : D2d) : Bool := vcLe (vcGet m.vc d) (p.arg 2).toNat
    if sc ≤ 5 then (!(s.d2d.any fun (m : D2d) => m.src == d && m.dst == d && before m), s)
    else if s.underway d (fun m => m.vc.isEmpty || before m) then (false, s)
    else (!(sc == 8 && s.unacked (i.bank o.iid) (s.ctx i.ctx).ccb.asid), s)

/-- The acquire action of a scope (R148). -/
def State.acquireAt (s : State) (iid sc : Nat) : State := if 4 ≤ sc then s.modInst iid Inst.invalidate else s

/-- The next action of an ordering instruction's part. -/
def State.orderStep (s : State) (o : PendOp) (p : Part) : State :=
  let sc := (p.arg 0).toNat
  let (ok, s) := if isRel o.ins then s.releaseAt o p sc else (!s.accessesBefore o.iid p.tid o.id false, s)
  if ok then (if isAcq o.ins then s.acquireAt o.iid sc else s).partDone o.id p.tid else s

end Sys2Proof.Machine
end

