-- ==== Sys2Proof/Machine/Fifo.lean ====
section
/-! DEFINITION. The operand FIFOs of a cluster (R174, R176). -/
namespace Sys2Proof.Machine

def Fifo.empty : Fifo := { head := 0, bytes := [], tail := 0, resv := 0, comm := 0 }
def State.fifo (s : State) (cluster n : Nat) : Fifo := sget Fifo.empty (s.cluster cluster).fifos n
def State.setFifo (s : State) (cluster n : Nat) (f : Fifo) : State :=
  s.modCluster cluster fun c => { c with fifos := sset Fifo.empty c.fifos n f }

/-- How many positions from one on have arrived without a gap; the table lists positions in rising order. -/
def arrivedFrom (p : Nat) : SMap Byte → Nat
  | [] => 0
  | (k, _) :: r => if k = p then arrivedFrom (p + 1) r + 1 else if k < p then arrivedFrom p r else 0
/-- Nothing is committed behind a position that has not arrived, consumed or not. -/
def Fifo.settle (f : Fifo) : Fifo := { f with comm := if f.gaps.isEmpty then arrivedFrom f.head f.bytes else 0 }

/-- A byte arrives at a position; for a position already consumed it is discarded (R176). -/
def Fifo.arrive (f : Fifo) (pos : Nat) (b : Byte) : Fifo :=
  if pos < f.head then ({ f with gaps := f.gaps.filter (· != pos) } : Fifo).settle else ({ f with bytes := sput f.bytes pos b } : Fifo).settle
/-- The bytes that a pass consumes; a position that has not been committed gives none. -/
def Fifo.peek (f : Fifo) (n : Nat) : List (Option Byte) :=
  (List.range n).map fun k => if k < f.comm then find? f.bytes (f.head + k) else none
def Fifo.consume (f : Fifo) (n : Nat) : Fifo :=
  ({ f with head := f.head + n, bytes := f.bytes.filter fun p => decide (f.head + n ≤ p.1)
            gaps := f.gaps ++ ((List.range n).map (f.head + ·)).filter fun p => (find? f.bytes p).isNone } : Fifo).settle
/-- Room for reservations. -/
def Fifo.room (f : Fifo) : Nat := Config.fifoBytes - (f.tail - f.head) - f.resv
/-- Bytes reserved by claims or taken by flows and not committed. -/
def Fifo.waiting (f : Fifo) : Nat := f.resv + (f.tail - f.head - f.comm)

end Sys2Proof.Machine
end

