-- ==== Sys2Proof/Machine/Claims.lean ====
section
/-! DEFINITION. Group 0xD, claims and flows (R121, R223 to R234, R253, R256, R269, R343). -/
namespace Sys2Proof.Machine

/-! ### The claim table (R225) -/

/-- An entry is named die × 256 + entry. -/
def State.claim (s : State) (g : Nat) : Claim := sget {} (s.die (g / 256)).claims (g % 256)
def State.setClaim (s : State) (g : Nat) (c : Claim) : State :=
  s.modDie (g / 256) fun d => { d with claims := sset {} d.claims (g % 256) c }
def State.modClaim (s : State) (g : Nat) (f : Claim → Claim) : State := s.setClaim g (f (s.claim g))
/-- The entry that a handle of a context names. -/
def State.handle (s : State) (ctx k : Nat) : Option Nat := find? (s.ctx ctx).handles k
/-- Every listed entry of the module. -/
def State.claimList (s : State) : List (Nat × Claim) :=
  s.dies.flatMap fun d => d.2.claims.map fun c => (d.1 * 256 + c.1, c.2)
def Claim.live (c : Claim) : Bool := c.st == .walking || c.st == .held

/-- The peer that a side names (R343): pod 0xFF is the module's own. -/
def State.sidePeer (s : State) (c : Claim) (dst : Bool) : Nat :=
  (if c.pod = 0xFF then s.modId / 4096 else c.pod) * 4096 + peerOf (if dst then c.dst else c.src).toNat
def Claim.hasPeer (c : Claim) : Bool := c.sk == .peer || c.dk == .peer
/-- The peers of a claim. -/
def State.claimPeers (s : State) (c : Claim) : List Nat :=
  (if c.sk == .peer then [s.sidePeer c false] else []) ++ (if c.dk == .peer then [s.sidePeer c true] else [])

/-- The FIFO of a claim: the cluster's while its context holds the cluster, else the one that was saved (R181). -/
def State.claimFifo (s : State) (c : Claim) : Fifo :=
  if (s.cluster c.cluster).owner == some c.ctx then s.fifo c.cluster c.fifo
  else sget Fifo.empty (sget [] (s.ctx c.ctx).fifos c.cluster) c.fifo
def State.setClaimFifo (s : State) (c : Claim) (f : Fifo) : State :=
  if (s.cluster c.cluster).owner == some c.ctx then s.setFifo c.cluster c.fifo f
  else s.modCtx c.ctx fun x => { x with fifos := sset [] x.fifos c.cluster (sset Fifo.empty (sget [] x.fifos c.cluster) c.fifo f) }
/-- FIFO bytes that the claim has reserved return. -/
def State.returnFifo (s : State) (g : Nat) : State :=
  let c := s.claim g
  if c.dk == .fifo && c.left != 0 then
    let f := s.claimFifo c
    (s.setClaimFifo c { f with resv := f.resv - c.left }).setClaim g { c with left := 0 }
  else s
/-- A grant request of an entry that is outstanding asks for nothing any more (R227). -/
def State.dropGrant (s : State) (g : Nat) : State :=
  { s with freqs := s.freqs.filter fun (f : FReq) => (match f.kind with
    | .grant d e _ => d * 256 + e != g
    | _ => true) }
/-- The entry is Free: its handle names nothing, its fields stay until it next leaves Free (R269). -/
def State.freeClaim (s : State) (g : Nat) : State :=
  let s := s.returnFifo g
  let c := s.claim g
  let s := s.modCtx c.ctx fun x => { x with handles := x.handles.filter fun p => p.2 != g }
  let s := s.setClaim g { c with st := .free, flows := 0, pages := [], walked := 0, checked := false, granted := [], refused := 0 }
  (s.dropGrant g).dropWant (.claim (g / 256) (g % 256))

/-! ### Claim faults (R228) -/

/-- The handle that a command names. -/
def claimCmd : Instr → Option Nat
  | .claimNew _ k .. | .claimUse _ k | .clrel _ k => some k
  | _ => none

/-- The cause of R210 for a fault cause. -/
def claimCause (f : Nat) : Nat := if f = 5 ∨ f = 12 then 6 else if f ≤ 4 then f else 1

/-- Whether the threads of a part can park now: they stand at a clause boundary, or in the clause of the command behind it. -/
def State.canPark (s : State) (o : PendOp) (tid : Nat) : Bool :=
  let i := s.inst o.iid
  let ts := if o.once then (o.lanes.filter fun l => i.hwOf l.tid == i.hwOf tid).map (·.tid) else [tid]
  i.kind != .stage || ts.all fun t =>
    ((i.th t).status == .ready || (i.th t).status == .held || (i.th t).status == .exited) && (i.th t).susp.isNone &&
      s.issues.all fun (x : Issue) => x.iid != o.iid || !(x.lanes.any fun l => l.tid == t) || (x.hdrAt == o.hdr && decide (o.idx ≤ x.idx))

/-- A command's fault is taken: the threads of its home warp whose commands have failed park as one sub-group, once none of the
home warp's can still fail, with the cause of the lowest lane (R209); the fault of a thread that has exited is dropped. -/
def State.takeClaimFault (s : State) (o : PendOp) (p : Part) : State :=
  let i := s.inst o.iid
  if (i.th p.tid).status == .exited && !o.once then s.partDone o.id p.tid
  else
    let mine := (o.parts.filter fun q => i.hwOf q.tid == i.hwOf p.tid).insertionSort fun a b => a.lane ≤ b.lane
    let fails := mine.filter fun q => q.done != 0 && ((i.th q.tid).status != .exited || o.once)
    if mine.any (fun q => q.done == 0 && s.claimOpen o q) || !(fails.all fun q => s.canPark o q.tid) then s
    else s.parkParts o (fails.map (·.tid)) (claimCause (fails.headD p).done) fun t => (((o.part? t).getD p).arg 0).toNat
/-- A command fails: the part keeps the fault, its context keeps it for the handle, and the entry, where there is one, names it. -/
def State.claimFault (s : State) (o : PendOp) (tid cause : Nat) (va : DWord) (g : Option Nat) : State :=
  let s := match g with
    | none => s
    | some g => s.modClaim g fun c => { c with fault := cause, faultVa := va }
  let s := match claimCmd o.ins with
    | none => s
    | some k => s.modCtx (s.inst o.iid).ctx fun x => { x with faults := sput x.faults k (cause, va) }
  let s := s.modOp o.id fun o => o.modPart tid fun p => { p with done := cause, args := [va] }
  match s.op? o.id with
  | none => s
  | some o => s.takeClaimFault o ((o.part? tid).getD default)

/-! ### The walk (R227, R343) -/

/-- What the walk takes, in its order: a page of a side, or a peer side. -/
inductive WalkItem
  | page (dst : Bool) (kind : SideK) (va : Nat)
  | peer (dst : Bool)
deriving DecidableEq, Repr, Inhabited

def sideItems (dst : Bool) (k : SideK) (va len : Nat) : List WalkItem :=
  match k with
  | .fifo => []
  | .peer => [.peer dst]
  | _ => (List.range ((va + len - 1) / 4096 + 1 - va / 4096)).map fun j => .page dst k ((va / 4096 + j) * 4096)
def Claim.items (c : Claim) : List WalkItem :=
  sideItems false c.sk c.src.toNat c.len ++ sideItems true c.dk c.dst.toNat c.len

/-- Whether a page of a core window maps a region of a live stage instance (R120). -/
def State.regionLive (s : State) (kind : SideK) (pa : Nat) : Bool :=
  let lo := paOff pa
  let cut (a n : Nat) : Bool := n != 0 && decide (a < lo + 4096) && decide (lo < a + n)
  s.insts.any fun x => x.2.kind == .stage && x.2.core == paCore pa &&
    (match kind with
      | .reg => paRegion pa == 0 && x.2.hws.any fun w => w.1 != guideHw && cut (w.2.vb * 128) (w.2.n * 128)
      | .spad => paRegion pa == 1 && cut x.2.spadBase x.2.spadSize
      | .acc => paRegion pa == 2 && cut (x.2.accBase * 16384) (x.2.accTiles * 16384)
      | _ => false)

inductive WStep
  | next
  | wait
  | fail (cause : Nat) (va : Nat)
deriving DecidableEq, Repr, Inhabited

/-- Whether a page is under migration (R215, step 1) until its acknowledgement. -/
def State.migrating (s : State) (c va : Nat) : Bool :=
  s.migs.any fun (m : Mig) => m.ctrl == ctrlOf (s.ctx c).ccb va && (s.tags c).contains m.asid &&
    (if m.big then m.page / 2 ^ 21 == va / 2 ^ 21 else m.page / 2 ^ 12 == va / 2 ^ 12)

/-- One page: items 2 and 3. -/
def State.walkPage (s : State) (g : Nat) (dst : Bool) (kind : SideK) (page : Nat) : WStep × State :=
  let c := s.claim g
  let d := g / 256
  let low := max page (if dst then c.dst else c.src).toNat
  let who : Asker := .claim d (g % 256)
  let q : Req := { iid := c.iid, ctx := c.ctx, priv := ((s.inst c.iid).th c.tid).level, world := (s.die d).world, die := d
                   kind := if dst then 5 else 4 }
  if !spanOk low 1 || (kind == .mem && aperOf low != .mem) then (.fail 1 low, s)
  else if kind != .mem && aperOf low != .win then (.fail 7 low, s)
  else match s.xlat q page with
    | .refuse e => (.fail e low, s)
    | .miss ctrl => match s.want? who with
      | none => (.wait, s.addWant who q ctrl page)
      | some w => match w.st with
        | .denied e => (.fail (if e ≤ 4 then e else 5) low, s.dropWant who)
        | _ => (.wait, s)
    | .hit l pa =>
      if l.mig || (kind == .mem && s.migrating c.ctx page) then (.fail 12 low, s)
      else if l.tag = 0 then (.fail 1 low, s)
      else if kind != .mem && !s.regionLive kind pa then (.fail 7 low, s)
      else (.next, s.setClaim g { c with pages := c.pages ++ [⟨dst, page, pa, l.tag, l.rights, l.big⟩] })

/-- Item 4: the peer's grant. A peer side whose base is no address of the peer window has no route either (log entry 47). -/
def State.walkPeer (s : State) (g : Nat) (dst : Bool) : WStep × State :=
  let c := s.claim g
  let va := (if dst then c.dst else c.src).toNat
  let peer := s.sidePeer c dst
  if (decide (127 < c.pod) && c.pod != 0xFF) || !spanOk va 1 || aperOf va != .peer || s.down.contains peer then (.fail 8 va, s)
  else if c.granted.contains dst then (.next, s)
  else if c.refused ≠ 0 then (.fail c.refused va, s)
  else if s.freqs.any fun (f : FReq) => f.kind == .grant (g / 256) (g % 256) dst then (.wait, s)
  else (.wait, s.sendReq ((s.inst c.iid).bank c.iid) (s.ctx c.ctx).ccb.asid c.ctx peer (packetOf 2 (peerOff va) 0 [])
    (.grant (g / 256) c.len dst) (.grant (g / 256) (g % 256) dst))

/-- The items one after the other, as far as the walk gets. -/
def walkItems (g : Nat) : State → List WalkItem → WStep × State
  | s, [] => (.next, s)
  | s, it :: r =>
    let (w, s) := match it with
      | .page dst k va => s.walkPage g dst k va
      | .peer dst => s.walkPeer g dst
    match w with
    | .next => walkItems g (s.modClaim g fun c => { c with walked := c.walked + 1 }) r
    | w => (w, s)

/-- A walk that fails: the entry is Free, and the claimer takes the fault. -/
def State.walkFail (s : State) (g cause va : Nat) : State :=
  let c := s.claim g
  let s := s.freeClaim g
  match s.op? c.op with
  | none => s.modClaim g fun c => { c with fault := cause, faultVa := BitVec.ofNat 64 va }
  | some o => s.claimFault o c.tid cause (BitVec.ofNat 64 va) (some g)

/-- The walk of an entry goes on: it waits, fails, or ends Held with its reservations (R226, R227). No flow writes a FIFO from an ACC
window or from a peer (R174), and the spec gives no fault for such a claim: its source fails as a window of no region or a peer without a
route (log entry 81). -/
def State.claimWalk (s : State) (g : Nat) : State :=
  let c := s.claim g
  if c.st != .walking then s
  else if c.len = 0 ∨ Config.claimBytes < c.len ∨ (c.dk = .fifo ∧ Config.fifoBytes < c.len) then s.walkFail g 6 0
  else if c.dk == .fifo && (c.sk == .acc || c.sk == .peer) then s.walkFail g (if c.sk == .acc then 7 else 8) c.src.toNat
  else match walkItems g s (c.items.drop c.walked) with
    | (.wait, s) => s
    | (.fail e va, s) => s.walkFail g e va
    | (.next, s) =>
      let c := s.claim g
      let held (s : State) : State := (s.modClaim g fun c => { c with st := .held }).partDone c.op c.tid
      if c.dk != .fifo then held s
      else if (s.inst c.iid).kind != .stage then s.walkFail g 7 0
      else
        let f := s.claimFifo c
        if f.room < c.len then s.setClaim g { c with checked := true }
        else held ((s.setClaimFifo c { f with resv := f.resv + c.len }).modClaim g fun c => { c with left := c.len })

/-- CLAIM_WALK_END (R227): the copy engines of a die take a walk as far as it gets. -/
def execClaimWalkEnd (die entry : Nat) (s : State) : Host.Outcome State Fault Refusal :=
  .next (s.claimWalk (die * 256 + entry))

/-! ### Revocation (R231, R232) -/

/-- A cause of revocation reaches an entry. -/
def State.revokeClaim (s : State) (g cause : Nat) : State :=
  let c := s.claim g
  let stop (s : State) (st : ClaimSt) (rev : Nat) : State :=
    ((s.setClaim g { c with st, rev, pages := [], walked := 0, checked := false, granted := [], refused := 0 }).dropGrant g).dropWant
      (.claim (g / 256) (g % 256))
  match c.st with
  | .held => s.setClaim g { c with st := if c.flows = 0 then .revoked else .revoking, rev := cause }
  | .walking =>
    if cause ≤ 2 then stop s .walking c.rev
    else
      let s := stop s .revoked cause
      match s.op? c.op with
      | none => s
      | some o => s.claimFault o c.tid 9 0 (some g)
  | _ => s
/-- Whether a page that a claim has walked is the one that a VA names: 4 KiB, or 2 MiB where its leaf is (R256). -/
def ClaimPg.names (p : ClaimPg) (tag va : Nat) : Bool :=
  p.tag == tag && (p.va / 4096 == va / 4096 || (p.big && p.va / 2 ^ 21 == va / 2 ^ 21))
/-- Whether a claim has walked a page under a tag ASID. -/
def Claim.covers (c : Claim) (tag page : Nat) : Bool := c.pages.any fun (p : ClaimPg) => p.names tag page
/-- Revokes the live claims that satisfy a condition; the answer names those whose flows are still in flight. -/
def State.revokeWhere (s : State) (f : Claim → Bool) (cause : Nat) : List Nat × State :=
  let gs := (s.claimList.filter fun p => p.2.live && f p.2).map (·.1)
  let s := gs.foldl (fun s g => s.revokeClaim g cause) s
  (gs.filter fun g => (s.claim g).st == .revoking, s)

/-! ### Commands (R226, R256) -/

/-- Whether a command on a handle that was issued before an operation has not acted yet. -/
def State.cmdPending (s : State) (ctx k id : Nat) : Bool :=
  s.ops.any fun (q : PendOp) => claimCmd q.ins == some k && (s.inst q.iid).ctx == ctx && decide (q.id < id) &&
    q.parts.any fun (r : Part) => !r.arrived && r.done == 0
/-- Whether an earlier command on the handle has not acted yet. -/
def State.cmdBehind (s : State) (o : PendOp) (p : Part) : Bool :=
  let c := (s.inst o.iid).ctx
  s.ops.any fun (q : PendOp) => claimCmd q.ins == claimCmd o.ins && (s.inst q.iid).ctx == c &&
    q.parts.any fun (r : Part) => !r.arrived && r.done == 0 && (decide (q.id < o.id) || (q.id == o.id && decide (r.lane < p.lane)))

/-- A revocation reaches the CLAIM commands that wait in the Walking state for an entry: they take the fault with cause 9 (R225, R231). -/
def State.revokeWaiting (s : State) (f : PendOp → Part → Bool) : State :=
  let free (q : PendOp) : Bool := match claimCmd q.ins with
    | none => false
    | some k => (s.handle (s.inst q.iid).ctx k).elim true fun g => (s.claim g).st == .free
  let waits (q : PendOp) (r : Part) : Bool :=
    (match q.ins with | .claimNew .. => true | _ => false) && !r.arrived && r.done == 0 && free q && !(s.inst q.iid).trailing && f q r
  (s.ops.flatMap fun q => (q.parts.filter fun r => waits q r).map fun r => (q.id, r.tid)).foldl (fun s x => match s.op? x.1 with
    | none => s
    | some o => s.claimFault o x.2 9 0 none) s
/-- CLAIM.NEW takes a Free entry of its die, or stays in the Revoked entry of its handle; with no Free entry it waits (R225). Which Free
entry it takes the implementation chooses (R269): the model takes the lowest. Of two peer sides bytes [51:48] name the source's (log entry
47). -/
def State.startWalk (s : State) (o : PendOp) (p : Part) (k : Nat) (sk dk : SideK) (fifo : Nat) (same : Option Nat) : State :=
  let i := s.inst o.iid
  let d := i.die o.iid
  let free := (List.range Config.claimSize).find? fun e => (s.claim (d * 256 + e)).st == .free
  match same.orElse fun _ => free.map fun e => d * 256 + e with
  | none => s
  | some g =>
    let old := s.claim g
    let last := (find? (s.ctx i.ctx).faults k).getD (0, 0)
    let c : Claim :=
      { st := .walking, k, ctx := i.ctx, sk, dk, fifo := if dk == .fifo then fifo else 0
        cluster := if dk == .fifo then i.core / 4 else 0, src := p.arg 0, dst := if dk == .fifo then 0 else p.arg 1
        len := (p.arg 2).toNat, gen := if same.isSome then old.gen else (old.gen + 1) % 2 ^ 32
        fault := last.1, faultVa := last.2
        pod := (p.arg 3).toNat, iid := o.iid, op := o.id, tid := p.tid }
    let c := { c with peer := (s.claimPeers c).headD 0 }
    let s := s.setClaim g c
    let s := s.modCtx i.ctx fun x => { x with handles := sput x.handles k g }
    s.modOp o.id fun o => o.modPart p.tid fun p => { p with arrived := true }

def State.newCmd (s : State) (o : PendOp) (p : Part) (k : Nat) (sk dk : SideK) (fifo : Nat) : State :=
  let i := s.inst o.iid
  match s.handle i.ctx k with
  | none => s.startWalk o p k sk dk fifo none
  | some g =>
    let c := s.claim g
    match c.st with
    | .walking | .revoking => s
    | .free => s.startWalk o p k sk dk fifo none
    | .held => if c.flows = 0 then (s.freeClaim g).startWalk o p k sk dk fifo none else s
    | .revoked =>
      if c.flows ≠ 0 then s
      else if g / 256 = i.die o.iid then (s.returnFifo g).startWalk o p k sk dk fifo (some g)
      else (s.freeClaim g).startWalk o p k sk dk fifo none

/-- Whether a page of a claim is under migration. -/
def State.claimMigrates (s : State) (p : ClaimPg) : Bool :=
  s.migs.any fun (m : Mig) => m.ctrl == paCtrl p.pa && !paWindow p.pa &&
    (if m.big then m.page / 2 ^ 21 == p.va / 2 ^ 21 else m.page / 2 ^ 12 == p.va / 2 ^ 12) &&
    (p.tag == m.asid || (s.tlbFind m.ctrl m.asid m.page).elim false fun l => l.tag == p.tag)
/-- CLAIM.USE (R230). -/
def State.useCmd (s : State) (o : PendOp) (p : Part) (k : Nat) : State :=
  match s.handle (s.inst o.iid).ctx k with
  | none => s.claimFault o p.tid 10 0 none
  | some g =>
    let c := s.claim g
    match c.st with
    | .free => s.claimFault o p.tid 10 0 none
    | .walking => s
    | .revoking | .revoked =>
      -- until the migration that has revoked it is acknowledged, the fault is that of R215, step 1
      match c.pages.find? fun x => s.claimMigrates x with
      | some x => s.claimFault o p.tid 12 (BitVec.ofNat 64 (max x.va (if x.dst then c.dst else c.src).toNat)) (some g)
      | none => s.claimFault o p.tid 9 0 (some g)
    | .held =>
      if c.dk != .fifo then s.partDone o.id p.tid
      else
        let s := if p.args.isEmpty then
            (s.returnFifo g).modOp o.id fun o => o.modPart p.tid fun p => { p with args := [1] } else s
        let f := s.claimFifo c
        if f.room < c.len then s
        else ((s.setClaimFifo c { f with resv := f.resv + c.len }).modClaim g fun c => { c with left := c.len }).partDone
          o.id p.tid

/-- CLREL: complete when the entry is Free. -/
def State.relCmd (s : State) (o : PendOp) (p : Part) (k : Nat) : State :=
  match s.handle (s.inst o.iid).ctx k with
  | none => s.partDone o.id p.tid
  | some g =>
    let c := s.claim g
    match c.st with
    | .free => s.partDone o.id p.tid
    | .walking => s
    | _ => if c.flows = 0 then (s.freeClaim g).partDone o.id p.tid else s

/-- The next action of a command's part: a trailing copy's has no effect (R268), a fault waits for its threads' boundary, the
others act in the order in which they reach the entry. -/
def State.claimStep (s : State) (o : PendOp) (p : Part) : State :=
  if (s.inst o.iid).trailing then s.partDone o.id p.tid
  else if p.done ≠ 0 then s.takeClaimFault o p
  else if p.arrived || s.cmdBehind o p then s
  else match o.ins with
    | .claimNew _ k sk dk _ f => s.newCmd o p k sk dk f
    | .claimUse _ k => s.useCmd o p k
    | .clrel _ k => s.relCmd o p k
    | _ => s

/-- The commands of an instruction reach their entries in ascending lane position. -/
def claimReach (s : State) (_ : Issue) (id : Nat) : State :=
  (((s.op? id).map (·.parts)).getD []).foldl (fun s p => match s.op? id with
    | none => s
    | some o => s.claimStep o ((o.part? p.tid).getD p)) s

/-- The descriptor of CLAIM.NEW: source, destination, length, pod. -/
def State.descriptor (s : State) (is : Issue) (r : Run) (peer : Bool) (a : Nat) : List DWord :=
  if is.guide then
    let x := s.ownReg is r (a + 2)
    [s.ownReg is r a, s.ownReg is r (a + 1), lo32 x, if peer then x >>> 32 else 0xFF]
  else
    let w (k : Nat) : DWord := s.ownReg is r (a + k)
    [pairOf (w 0) (w 1), pairOf (w 2) (w 3), lo32 (w 4), if peer then lo32 (w 5) else 0xFF]

def execClaimNew (c : Ctl) (k : Nat) (sk dk : SideK) (a fifo : Nat) (s : State) :=
  flagged (.claimNew c k sk dk a fifo) c noMore
    (partPer fun s is r => s.descriptor is r (sk == .peer || dk == .peer) a) claimReach s
def execClaimUse (c : Ctl) (k : Nat) (s : State) := flagged (.claimUse c k) c noMore (partPer fun _ _ _ => []) claimReach s
def execClrel (c : Ctl) (k : Nat) (s : State) := flagged (.clrel c k) c noMore (partPer fun _ _ _ => []) claimReach s

/-! ### Flows (R229, R233, R234, R247) -/

/-- The page that a claim holds for an address, and the byte's physical address. -/
def Claim.at (c : Claim) (dst : Bool) (va : Nat) : Option (ClaimPg × Nat) :=
  (c.pages.find? fun (p : ClaimPg) => p.dst == dst && p.va == va / 4096 * 4096).map fun p => (p, p.pa + va % 4096)

/-- A byte as a copy engine of a die reads it where it lives: at its home slice, or in a core's banked store; of a poisoned sector
nothing is known. -/
def State.liveByte (s : State) (mem : Bool) (die tag va pa : Nat) (open_ : Byte) : Byte × State :=
  if mem then
    let h := paDie pa
    match find? (s.die h).l2 (secKey tag va) with
    | some x => (s.loaded pa (nthByte (s.plainL2 x) (va % 32)), s.vcLearn die h)
    | none => match s.fillPoison (pa / 32 * 32) with
      | (some _, s) => (open_, s.vcLearn die h)
      | (none, s) => (s.loaded pa (nthByte (s.readSector pa) (pa % 32)), s.vcLearn die h)
  else (s.paByte pa, s.accTouch pa 1)
/-- A byte as a copy engine writes it. -/
def State.livePut (s : State) (mem : Bool) (ctx : Nat) (p : ClaimPg) (va pa : Nat) (b : Byte) : State :=
  if mem then s.putL2 (paDie pa) (secKey p.tag va) (pa / 32 * 32) ctx p.rights (List.replicate (va % 32) 0 ++ [b]) (byteMask (va % 32) 1)
  else (s.winTouch pa 1).setPhysBytes pa [b]

/-- A source byte; of a peer that has vanished nothing is known (R233). -/
def State.flowRead (s : State) (c : Claim) (f : Flow) (k : Nat) : Byte × State :=
  let va := (c.src.toNat + f.s + k) % 2 ^ 64
  let open_ : Byte := (Config.openRead s.fresh (16 * k + 11)).setWidth 8
  if c.sk == .peer then ((find? f.got k).getD open_, s)
  else match c.at false va with
  | none => (open_, s)
  | some (p, pa) => s.liveByte (c.sk == .mem) f.die p.tag va pa open_

/-- The bytes of a flow that lie in one line of its destination. -/
def Flow.lineDone (f : Flow) (base line : Nat) : Bool :=
  (List.range 128).all fun j => let a := line * 128 + j
    decide (a < base + f.d) || decide (base + f.d + f.n ≤ a) || f.moved.contains (a - (base + f.d))

/-- Writes a destination byte. -/
def State.flowWrite (s : State) (c : Claim) (f : Flow) (k : Nat) (b : Byte) : State :=
  let va := (c.dst.toNat + f.d + k) % 2 ^ 64
  match c.dk with
  | .fifo => s.setClaimFifo c ((s.claimFifo c).arrive (f.p0 + k) b)
  | .peer => { s with flows := s.flows.map fun (x : Flow) => if x.id == f.id then { x with sent := sput x.sent k b } else x }
  | dk => match c.at true va with
    | none => s
    | some (p, pa) =>
      let s := s.livePut (dk == .mem) c.ctx p va pa b
      if dk == .spad && ({ f with moved := k :: f.moved } : Flow).lineDone c.dst.toNat (va / 128) then
        s.modCore (paCore pa) fun y => { y with absent := y.absent.filter (· != paOff pa / 128) }
      else s

/-- Whether a byte of a flow can move: the releases of .cl and wider that its thread has issued before it are complete (R234, R247), and
every write that its die knows of has reached the slices that the byte is read and written at (R244). -/
def State.flowReady (s : State) (c : Claim) (f : Flow) (k : Nat) : Bool :=
  let v := (s.die f.die).vc
  let slice (dst : Bool) (kind : SideK) (off : Nat) : Bool :=
    kind != .mem || ((c.at dst (((if dst then c.dst else c.src).toNat + off + k) % 2 ^ 64)).elim true fun p => s.vcReady (paDie p.2) v)
  slice false c.sk f.s && slice true c.dk f.d
/-- Whether the thread or Guide that issued a flow has an earlier access that is not performed, or an earlier release at .cl or wider
that is not complete, an SQPUSH among them: the flow reads and writes after them (R242, R247). -/
def State.flowWaits (s : State) (f : Flow) : Bool :=
  (s.op? f.op).elim false fun o => s.accessesBefore o.iid f.tid o.id true || s.ops.any fun (q : PendOp) =>
    q.iid == o.iid && decide (q.id < o.id) && (isRel q.ins || (match q.ins with | .sqpush .. => true | _ => false)) &&
      q.parts.any fun (r : Part) => r.tid == f.tid && decide (4 ≤ (r.arg 0).toNat)
/-- Earlier bytes of the issuing instance for a destination byte come before the flow's (R242): dirty bytes of its L1 are written back
and arrive, a Hamper entry drains in its own time and is acknowledged. The answer is the state in which the flow waits. -/
def State.flowOlder (s : State) (c : Claim) (f : Flow) (k : Nat) : Option State :=
  let va := (c.dst.toNat + f.d + k) % 2 ^ 64
  (s.op? f.op).bind fun o =>
    let i := s.inst o.iid
    match c.dk with
    | .mem => (c.at true va).bind fun p =>
      let key := secKey p.1.tag va
      if (find? i.l1 key).elim false fun x => x.dirty.getLsbD (va % 32) then some (s.writeback o.iid key)
      else if s.underway (i.die o.iid) fun m => m.iid == o.iid && m.key == key && m.mask.getLsbD (va % 32) then some s
      else none
    | .peer =>
      let here (e : HEntry) : Bool := e.asid == (s.ctx i.ctx).ccb.asid && e.line == va / 128 * 128 && (find? e.data (va % 128)).isSome
      if (s.core (i.bank o.iid)).hamper.any here || s.freqs.any fun (q : FReq) => (match q.kind with | .write e => here e | _ => false)
      then some s else none
    | _ => none
/-- Whether one of the 12 copy engines of its die serves a flow, or is free to take it (R1, R223). -/
def State.engineFor (s : State) (f : Flow) : Bool :=
  !f.moved.isEmpty || decide ((s.flows.filter fun (x : Flow) => x.die == f.die && !x.moved.isEmpty && decide (x.moved.length < x.n)).length
    < Config.copyEngines)
/-- A request of a claim to the peer of a side. -/
def State.claimReq (s : State) (c : Claim) (dst : Bool) (p : Packet) (ask : SKind) (kind : FKind) : State :=
  s.sendReq ((s.inst c.iid).bank c.iid) (s.ctx c.ctx).ccb.asid c.ctx (s.sidePeer c dst) p ask kind
/-- One byte of a flow moves; a byte of a peer is asked for first. -/
def State.flowByte (s : State) (id k : Nat) : State :=
  match s.flows.find? fun (f : Flow) => f.id == id with
  | none => s
  | some f =>
    let c := s.claim (f.die * 256 + f.entry)
    if decide (f.n ≤ k) || f.moved.contains k || !s.engineFor f || s.flowWaits f then s
    else
    -- what the issuer's releases have sent since the FLOW's issue, the flow's die learns before the first byte (R234)
    let s := if f.moved.isEmpty then (s.op? f.op).elim s fun o => s.vcLearn f.die ((s.inst o.iid).die o.iid) else s
    if !s.flowReady c f k then s
    else match s.flowOlder c f k with
    | some s => s
    | none =>
    if c.sk == .peer && !f.lost && (find? f.got k).isNone then
      if s.freqs.any fun (q : FReq) => q.kind == .fetch id k then s
      else s.claimReq c false (packetOf 2 (peerOff ((c.src.toNat + f.s + k) % 2 ^ 64)) 1 []) .load (.fetch id k)
    else
      let at_ := if c.dk == .mem then c.at true ((c.dst.toNat + f.d + k) % 2 ^ 64) else none
      if at_.elim false fun p => s.fillsPoison (paDie p.2) (secKey p.1.tag ((c.dst.toNat + f.d + k) % 2 ^ 64)) p.2 && !s.undoOk p.2 0 then s
      else
      let full := at_.filter fun p => s.l2Full (paDie p.2) (secKey p.1.tag ((c.dst.toNat + f.d + k) % 2 ^ 64))
      match full with
      | some p => s.l2Evict (paDie p.2) (secKey p.1.tag ((c.dst.toNat + f.d + k) % 2 ^ 64))
      | none =>
      let (b, s) := s.flowRead c f k
      let s := s.flowWrite c f k b
      { s with flows := s.flows.map fun (x : Flow) => if x.id == id then { x with moved := k :: x.moved } else x }

/-- What a FLOW meets: it starts, is refused, completes without effect, or waits at issue: as the ninth on its claim, behind a command on
its handle that has not acted yet (R226), or for a FIFO of a cluster that its context does not hold at present (log entry 47). -/
inductive FlowTry
  | ok (s : State)
  | refused (cause : Nat) (g : Option Nat)
  | full
deriving DecidableEq, Repr, Inhabited

def State.flowStart (s : State) (o : PendOp) (p : Part) (k : Nat) (demoted : Bool) : FlowTry :=
  let i := s.inst o.iid
  if i.trailing || s.muted o.iid p.tid o.id then .ok (s.partDone o.id p.tid)
  else match i.strictDepth p.tid o.id with
  | some d => .ok ((s.consume o.iid p.tid 6 0 o.hdr (some d)).partDone o.id p.tid)
  | none => match s.handle i.ctx k with
    | none => .refused 10 none
    | some g =>
      let c := s.claim g
      if s.cmdPending i.ctx k o.id && c.st != .walking && c.st != .free then .full else
      let n := (p.arg 2).toNat
      let fs := (p.arg 0).toNat
      let fd := if c.dk == .fifo then 0 else (p.arg 1).toNat
      match c.st with
      | .free | .walking => .refused 10 (some g)
      | .revoking | .revoked => .refused 9 (some g)
      | .held =>
        if c.len < fs + n ∨ c.len < fd + n then .refused 10 (some g)
        else if c.dk = .fifo ∧ c.left < n then .refused 11 (some g)
        else if Config.flowsPerClaim ≤ c.flows ∨ (c.dk = .fifo ∧ (s.cluster c.cluster).owner ≠ some i.ctx) then .full
        else
          let (id, s) := s.newId
          let q := s.claimFifo c
          let sc : Scope := (scopeOf (p.arg 3).toNat).getD .co
          let f : Flow :=
            { id, die := g / 256, entry := g % 256, op := o.id, tid := p.tid, s := fs, d := fd, n, p0 := q.tail
              scope := if demoted then .tn else if c.dk == .peer then .sy else sc, moved := [], sent := [], acked := false
              lost := false }
          let s := (if c.dk == .fifo then s.setClaimFifo c { q with tail := q.tail + n, resv := q.resv - n } else s).vcLearn (g / 256) (i.die o.iid)
          let s := s.setClaim g { c with flows := c.flows + 1, left := if c.dk == .fifo then c.left - n else c.left }
          let lines := if c.dk != .spad || n = 0 then [] else
            (List.range ((c.dst.toNat + fd + n + 127) / 128 - (c.dst.toNat + fd) / 128)).filterMap fun j =>
              (c.at true (((c.dst.toNat + fd) / 128 + j) * 128)).map fun x => x.2
          let s := lines.foldl (fun s pa => s.modCore (paCore pa) fun y =>
            { y with absent := if y.absent.contains (paOff pa / 128) then y.absent else y.absent ++ [paOff pa / 128] }) s
          let s := (s.countRegion o.iid p.tid o.id 0 1).modOp o.id fun o => o.modPart p.tid fun p => { p with arrived := true }
          .ok { s with flows := s.flows ++ [f] }

/-- The flows of an instruction's parts in lane order, up to one that waits; the refused parts with their causes. -/
def flowParts (id k : Nat) (demoted : Bool) : State → List Part → Bool × List (Nat × Nat) × State
  | s, [] => (true, [], s)
  | s, p :: r => match s.op? id with
    | none => (true, [], s)
    | some o => match s.flowStart o p k demoted with
      | .ok s => flowParts id k demoted s r
      | .full => (false, [], s)
      | .refused c g =>
        let s := match g with
          | none => s
          | some g => s.modClaim g fun x => { x with fault := c, faultVa := 0 }
        let s := s.modCtx (s.inst o.iid).ctx fun x => { x with faults := sput x.faults k (c, 0) }
        let s := s.modOp id fun o => o.modPart p.tid fun p => { p with arrived := true }
        let (b, rs, s) := flowParts id k demoted s r
        (b, (p.tid, c) :: rs, s)

/-- The refused threads park, one sub-group per home warp, with the cause of its lowest lane (R209). -/
def State.parkFlows (s : State) (id : Nat) (rs : List (Nat × Nat)) : State :=
  match s.op? id with
  | none => s
  | some o =>
    let hw (t : Nat) : Nat := (s.inst o.iid).hwOf t
    (((rs.map fun r => hw r.1).eraseDups).insertionSort (· ≤ ·)).foldl (fun s h => match s.op? id with
      | none => s
      | some o =>
        let mine := rs.filter fun r => hw r.1 == h
        s.parkParts o (mine.map (·.1)) (claimCause ((mine.map (·.2)).headD 0)) fun _ => 0) s

/-- The issue of a FLOW: the tenant's limit, then a flow per thread; the clause is held while one of them waits. -/
def flowOp (ins : Instr) (c : Ctl) (k : Nat) (sc : Scope) (f : State → Issue → Run → List DWord) (s : State) :
    Host.Outcome State Fault Refusal :=
  inClause s fun is => s.issueIns is ins c [] fun s is =>
    let go (s : State) (id : Nat) (demoted : Bool) : Did :=
      let ps := (((s.op? id).map (·.parts)).getD []).filter fun (p : Part) => !p.arrived
      let (fin, rs, s) := flowParts id k demoted s ps
      let s := s.parkFlows id rs
      let keep : Option Nat := if fin then none else some id
      let s : State := { s with issues := s.issues.map fun (x : Issue) => if x.q == is.q then { x with part := keep } else x }
      if fin then .go s else .stay s
    match is.part with
    | some id => go s id ((((s.op? id).map (·.parts)).getD []).any fun (p : Part) => p.arg 4 == 1)
    | none =>
      let rs := s.runs is c
      let peer := ((s.handle (s.inst is.iid).ctx k).map fun g => (s.claim g).dk == .peer).getD false
      let start (s : State) (demoted : Bool) : Did :=
        let (s, ps) := partPer (fun s is r => f s is r ++ [BitVec.ofNat 64 sc.code, if demoted then 1 else 0]) s is rs
        let id := s.nextId
        go (s.startOp is ins c ps []) id demoted
      if sc == .sy || peer then match s.limit is (rs.map (·.t.tid)) (if sc == .sy then 8 else 0xFF) (ins.opc.getD 0) with
        | .free => start s false
        | .demoted s => start s true
        | .trapped s => .stay s
      else start s false

def execFlowReg (c : Ctl) (k : Nat) (sc : Scope) (a : Nat) (s : State) :=
  flowOp (.flowReg c k sc a) c k sc (fun s is r =>
    if is.guide then
      let x := s.ownReg is r a
      [lo32 x, x >>> 32, lo32 (s.ownReg is r (a + 1))]
    else [lo32 (s.ownReg is r a), lo32 (s.ownReg is r (a + 1)), lo32 (s.ownReg is r (a + 2))]) s
def execFlowImm (c : Ctl) (k : Nat) (sc : Scope) (so d n : Nat) (s : State) :=
  flowOp (.flowImm c k sc so d n) c k sc (fun _ _ _ =>
    [BitVec.ofNat 64 (256 * so), BitVec.ofNat 64 (256 * d), BitVec.ofNat 64 n]) s

/-- Whether a thread of a home warp waits on a flag: its next header names it. -/
def State.waitsOn (s : State) (iid tid f : Nat) : Bool :=
  let t := (s.inst iid).th tid
  t.status == .ready && !s.issuing iid tid && (match (s.fetch (.fetch iid tid) iid tid t.header.toNat 8).1 with
    | .bytes b => match decodeHeader (natOf b) with
      | .ok h => h.wait.getLsbD f
      | .error _ => false
    | _ => false)

/-- The containment error of a flow that lost bytes (R233): the threads that wait on its flag consume it, or the whole
context. -/
def State.flowLost (s : State) (f : Flow) (c : Claim) : State :=
  let va := if c.dk == .peer then c.dst + BitVec.ofNat 64 f.d else c.src + BitVec.ofNat 64 f.s
  match s.op? f.op with
  | none => s.modCtx c.ctx fun x => { x with cerr := some { cause := 4, va, hdr := 0 } }
  | some o =>
    let i := s.inst o.iid
    let hw := i.hwOf f.tid
    let ts := match o.flag with
      | none => []
      | some n => (i.hwTids hw).filter fun t => s.waitsOn o.iid t n
    if ts.isEmpty then s.modCtx c.ctx fun x => { x with cerr := some { cause := 4, va, hdr := 0 } }
    else ts.foldl (fun s t => s.consume o.iid t 4 va o.hdr none) s

/-- The lines of 128 bytes that a range touches, each with the bytes of the range in it. -/
def linesOf (va n : Nat) : List (Nat × Nat) :=
  (List.range ((va + n + 127) / 128 - va / 128)).map fun j =>
    let a := max va ((va / 128 + j) * 128)
    (a, min (va + n) ((va / 128 + j + 1) * 128) - a)
/-- Whether lines of a flow to a peer wait for their acknowledgement. -/
def State.flowSent (s : State) (id : Nat) : Bool := s.freqs.any fun (q : FReq) => q.kind == .flow id
/-- A flow's bytes leave for the peer, a packet of class 2 for each line. -/
def State.sendFlow (s : State) (c : Claim) (f : Flow) : State :=
  let va := (c.dst.toNat + f.d) % 2 ^ 64
  (linesOf va f.n).foldl (fun s l =>
    let bs := (List.range l.2).map fun k => (find? f.sent (l.1 - va + k)).getD 0
    s.claimReq c true (packetOf 2 (peerOff l.1) l.2 ((s.vfOf c.ctx).padBytes (peerOff l.1) bs)) .write (.flow f.id)) s

/-- FLOW_COMPLETE (R229): every byte has moved and is released at the flow's scope; a peer's destination has acknowledged,
unless the flow is demoted. Then the flag clears. -/
def State.flowEnd (s : State) (id : Nat) : State :=
  match s.flows.find? fun (f : Flow) => f.id == id with
  | none => s
  | some f0 =>
    let s := (List.range f0.n).foldl (fun s k => s.flowByte id k) s
    match s.flows.find? fun (f : Flow) => f.id == id with
    | none => s
    | some f =>
      if f.moved.length < f.n then s else
      let g := f.die * 256 + f.entry
      let c := s.claim g
      let s := if c.dk == .peer && !f.acked && !f.lost && !s.flowSent id then s.sendFlow c f else s
      if c.dk == .peer && !f.acked && !f.lost && f.scope != .tn then s
      else
        let s := if f.lost then s.flowLost f c else s
        let s : State := { s with flows := s.flows.filter fun (x : Flow) => x.id != id }
        let s := s.modClaim g fun c =>
          { c with flows := c.flows - 1, st := if c.st == .revoking && c.flows == 1 then .revoked else c.st }
        s.partDone f.op f.tid
def execFlowComplete (flow : Nat) (s : State) : Host.Outcome State Fault Refusal := .next (s.flowEnd flow)

/-! ### FLWAIT, CLREVOKE -/

def execFlwait (c : Ctl) (k : Nat) (sc : Scope) (s : State) : Host.Outcome State Fault Refusal :=
  inClause s fun is => s.issueIns is (.flwait c k sc) c [] fun s is =>
    let rs := s.runs is c
    let g : Nat := ((s.handle (s.inst is.iid).ctx k).map (· + 1)).getD 0
    let go (s : State) (sc : Scope) : Did :=
      let (s, ps) := partPer (fun _ _ _ => [BitVec.ofNat 64 sc.code, BitVec.ofNat 64 g]) s is rs
      .go (s.startOp is (.flwait c k sc) c ps [])
    if sc == .sy then match s.limit is (rs.map (·.t.tid)) 8 0x342 with
      | .free => go s sc
      | .demoted s => go s .tn
      | .trapped s => .stay s
    else go s sc
/-- FLWAIT (R234): every flow on the handle that was issued before it has completed; then it acquires. In a trailing copy it completes
without effect (R268). -/
def State.flwaitStep (s : State) (o : PendOp) (p : Part) : State :=
  let g := (p.arg 1).toNat
  if (s.inst o.iid).trailing then s.partDone o.id p.tid
  else if s.flows.any fun (f : Flow) => f.die * 256 + f.entry + 1 == g && decide (f.op < o.id) then s
  else (s.acquireAt o.iid (p.arg 0).toNat).partDone o.id p.tid

def execClrevokePg (c : Ctl) (a : VSrc) (b : BSrc) (s : State) :=
  flagged (.clrevokePg c a b) c noMore (partPer fun s is r => [s.srcV is r true a, s.srcB is r .n32 b &&& 0xFFFF]) noAfter s
def execClrevokeK (c : Ctl) (a : VSrc) (k : Nat) (s : State) :=
  flagged (.clrevokeK c a k) c noMore (partPer fun s is r => [s.srcV is r false a &&& 0xFFFF]) noAfter s

/-- A revoking agent waits: the entries it has put into Revoking, with the operation of their claims, and the grants that
name it. -/
def State.revokeDone (s : State) (gs : List DWord) (agent : Nat) : Bool :=
  gs.all (fun x => !((s.claim (x.toNat % 2048)).st == .revoking && (s.claim (x.toNat % 2048)).op == x.toNat / 2048)) &&
    s.dies.all fun d => d.2.grants.all fun r => !r.2.revoking.contains agent
def State.revokeArgs (s : State) (gs : List Nat) : List DWord := gs.map fun g => BitVec.ofNat 64 (g + 2048 * (s.claim g).op)
/-- Whether a claim of the module is the one that one of its own grants stands for (R331). -/
def State.ownGrant (s : State) (g : Grant) (c : Claim) : Bool :=
  g.src == s.modId && c.len == g.len && (if g.isDst then c.dk else c.sk) == .peer && s.sidePeer c g.isDst == s.modId &&
    peerOff (if g.isDst then c.dst else c.src).toNat == g.off
/-- A revocation at this module of the claims that modules hold on pages (R343): their holders are told, and those of the module itself
are revoked. -/
def State.revokeGrants (s : State) (hit : ClaimPg → Bool) (cause agent : Nat) : State :=
  let own := (s.dies.flatMap fun d => svals d.2.grants).filter fun (r : Grant) => r.pages.any hit
  let s : State := { s with dies := s.dies.map fun d => (d.1, { d.2 with grants := d.2.grants.map fun r =>
      if (r.2.pages.any hit) then (r.1, { r.2 with revoking := agent :: r.2.revoking.filter (· != agent) }) else r }) }
  (s.revokeWhere (fun c => own.any fun r => s.ownGrant r c) cause).2

/-- CLREVOKE (R231, R232, R256): it revokes, then waits until every revocation it started has taken effect. -/
def State.clrevokeStep (s : State) (o : PendOp) (p : Part) : State :=
  if !p.arrived then
    let (gs, s) := match o.ins with
      | .clrevokePg .. =>
        let tag := (p.arg 1).toNat
        let (gs, s) := s.revokeWhere (fun c => c.covers tag (p.arg 0).toNat) 1
        (gs, s.revokeGrants (fun x => x.names tag (p.arg 0).toNat) 1 o.id)
      | .clrevokeK _ _ k =>
        let (gs, s) := s.revokeWhere (fun c => c.ctx == (p.arg 0).toNat && c.k == k) 4
        (gs, s.revokeWaiting (fun q _ => (s.inst q.iid).ctx == (p.arg 0).toNat && claimCmd q.ins == some k))
      | _ => ([], s)
    let args := s.revokeArgs gs
    let s := s.modOp o.id fun o => o.modPart p.tid fun p => { p with arrived := true, args := args }
    if s.revokeDone args o.id then s.partDone o.id p.tid else s
  else if s.revokeDone p.args o.id then s.partDone o.id p.tid
  else s

end Sys2Proof.Machine
end

