-- ==== Sys2Proof/Machine/Collective.lean ====
section
/-! DEFINITION. Group 0xA, thread groups and collectives (R14 to R16, R149 to R153). -/
namespace Sys2Proof.Machine

/-- The group name of a run (R149). -/
def State.groupName (s : State) (is : Issue) (r : Run) (b : BSrc) : DWord := s.srcB is r .b32 b &&& 0xFFF

/-! ### Memberships (R150) -/

def execJoin (c : Ctl) (pd : Nat) (b : BSrc) (s : State) :=
  flagged (.join c pd b) c noMore (partPer fun s is r => [s.groupName is r b]) noAfter s
def execLeave (c : Ctl) (pd : Nat) (b : BSrc) (s : State) :=
  flagged (.leave c pd b) c noMore (partPer fun s is r => [s.groupName is r b]) noAfter s

/-- JOIN takes effect at its completion, in the lowest free slot. -/
def State.joinStep (s : State) (o : PendOp) (p : Part) (pd : Nat) : State :=
  let name := (p.arg 0).toNat
  let dead := ((s.inst o.iid).th p.tid).status == .exited
  if !dead && s.canJoin o.iid p.tid name then
    (s.modTh o.iid p.tid fun t => { t with slots := putSlot name t.slots }).partWrites o.id p.tid [(.p p.tid pd, 1)] 0
  else s.partWrites o.id p.tid [(.p p.tid pd, 0)] 0
def State.leaveStep (s : State) (o : PendOp) (p : Part) (pd : Nat) : State :=
  let name := (p.arg 0).toNat
  if ((s.inst o.iid).th p.tid).member name then
    (s.leaveGroup o.iid p.tid name).partWrites o.id p.tid [(.p p.tid pd, 1)] 0
  else s.partWrites o.id p.tid [(.p p.tid pd, 0)] 0

/-! ### Group operations (R151, R152) -/

/-- A run arrives: a thread that is no member of a named group has its result at once, a member sleeps. -/
def State.groupArrive (s : State) (iid opc id : Nat) (p : Part) (fail : List (Loc × DWord)) : State :=
  let name := (p.arg 0).toNat
  if ((s.inst iid).th p.tid).member name then (s.sleep iid p.tid (.group name)).arriveOne iid name opc p.tid id
  else s.partWrites id p.tid fail 0

/-- The issue of a group operation: its threads arrive in lane order, and each named group whose members are all there
releases. -/
def groupOp (ins : Instr) (c : Ctl) (b : BSrc) (val : State → Issue → Run → DWord) (fail : Nat → List (Loc × DWord))
    (s : State) : Host.Outcome State Fault Refusal :=
  flagged ins c noMore (partPer fun s is r => [s.groupName is r b, val s is r]) (fun s is id =>
    let ps := ((s.op? id).map (·.parts)).getD []
    let s := ps.foldl (fun s p => s.groupArrive is.iid ((groupOpc ins).getD 0) id p (fail p.tid)) s
    let names := ((ps.map fun p => (p.arg 0).toNat).eraseDups).insertionSort (· ≤ ·)
    names.foldl (fun s n => s.tryRelease is.iid n) s) s

def execBar (c : Ctl) (pd : Nat) (b : BSrc) (s : State) :=
  groupOp (.bar c pd b) c b (fun _ _ _ => 0) (fun t => [(.p t pd, 0)]) s
def execElect (c : Ctl) (pd : Nat) (b : BSrc) (s : State) :=
  groupOp (.elect c pd b) c b (fun _ _ _ => 0) (fun t => [(.p t pd, 0)]) s
def execGred (c : Ctl) (ty : Ty) (op : GOp) (o : O2) (s : State) :=
  groupOp (.gred c ty op o) c o.b (fun s is r => s.srcV is r ty.wide o.a) (fun _ => []) s
def execGbcast (c : Ctl) (ty : Ty) (o : O2) (s : State) :=
  groupOp (.gbcast c ty o) c o.b (fun s is r => s.srcV is r ty.wide o.a) (fun _ => []) s

/-- A group operation goes on: a release that waited for its log record is tried again. -/
def State.groupStep (s : State) (o : PendOp) (p : Part) : State := s.tryRelease o.iid (p.arg 0).toNat

/-- Whether a thread is the current leader of a group (R152). -/
def Inst.leads (i : Inst) (tid name : Nat) : Bool := i.elects.any fun (e : Election) => e.name == name && e.leader == tid

/-- ELECT.rel (R152): a part keeps whether its thread led the group when it executed. -/
def execElectRel (c : Ctl) (b : BSrc) (s : State) :=
  flagged (.electRel c b) c noMore (partPer fun s is r =>
    let name := s.groupName is r b
    [name, if (s.inst is.iid).leads r.t.tid name.toNat then 1 else 0]) noAfter s
/-- The current leader releases its sleepers, as a release at .gr (R241): its earlier accesses are performed first. It has no effect for
another thread. -/
def State.electRelStep (s : State) (o : PendOp) (p : Part) : State :=
  let name := (p.arg 0).toNat
  if p.arg 1 == 0 || !(s.inst o.iid).leads p.tid name then s.partDone o.id p.tid
  else if s.accessesBefore o.iid p.tid o.id true then s
  else (s.endElection o.iid name).partDone o.id p.tid

/-- GKILL (R153): the named groups in ascending order, the members of each in ascending sr.tid. -/
def execGkill (c : Ctl) (b : BSrc) (s : State) :=
  flagged (.gkill c b) c noMore (partPer fun s is r => [s.groupName is r b]) (fun s is id =>
    let names := (((((s.op? id).map (·.parts)).getD []).map fun p => (p.arg 0).toNat).eraseDups).insertionSort (· ≤ ·)
    names.foldl (fun s n => s.exitThreads is.iid ((s.inst is.iid).members n)) s) s

end Sys2Proof.Machine
end

