-- ==== Sys2Proof/Machine/Float.lean ====
section
/-!
DEFINITION. Groups 0x2 and 0x3, floating point (R68 to R75, R92 to R95). Each instruction gives one function of its
element values; the shared code reads the operands, draws the mode of each rounding (R69, R71), and delivers the result
with its flags.
-/
namespace Sys2Proof.Machine

/-- Computes elements 0, 1, … of a result: each draws its own mode; the flags are ORed. -/
def fpElems (is : Issue) (r : Run) (m : Mods) (f : RMode → Nat → FRes) : State → List Nat → State × List Nat × BitVec 5
  | s, [] => (s, [], 0)
  | s, k :: ks =>
    let (md, s) := s.rmode is r m.rnd m.sat m.ftz
    let x := f md k
    let (s, xs, fl) := fpElems is r m f s ks
    (s, x.bits :: xs, x.flags ||| fl)

/-- The result of one run of 32 bits: elements by the type. -/
def fpRun (s : State) (is : Issue) (r : Run) (m : Mods) (f : RMode → Nat → FRes) : State × DWord × BitVec 5 :=
  let (s, xs, fl) := fpElems is r m f s (List.range (Ty.elemCount m.ty))
  (s, BitVec.ofNat 64 (joinElems (Ty.elemBits m.ty) xs), fl)

/-- Fixed-latency delivery of a run that computes a 32-bit result with flags. -/
def fpFixed (ins : Instr) (c : Ctl) (lat : Nat) (d : Nat)
    (run : State → Issue → Run → State × DWord × BitVec 5) (s : State) :=
  fixed ins c lat (fun s is r =>
    let (s, x, fl) := run s is r
    (s, s.dst is r false d x ++ raises r fl)) s

/-- The operand shapes: one, two and three operands of the type, as functions of a mode and element patterns. -/
def fpRun1 (m : Mods) (o : O1) (f : Fmt → RMode → Nat → FRes) (s : State) (is : Issue) (r : Run) :
    State × DWord × BitVec 5 :=
  let a := s.srcV is r false o.a
  let w := Ty.elemBits m.ty
  fpRun s is r m fun md k => f (tyFmt m.ty) md (elemAt w a k)
def fpRun2 (m : Mods) (o : O2) (f : Fmt → RMode → Nat → Nat → FRes) (s : State) (is : Issue) (r : Run) :
    State × DWord × BitVec 5 :=
  let a := s.srcV is r false o.a
  let b := s.srcB is r m.ty o.b
  let w := Ty.elemBits m.ty
  fpRun s is r m fun md k => f (tyFmt m.ty) md (elemAt w a k) (elemAt w b k)
def fpRun3 (m : Mods) (o : O3) (f : Fmt → RMode → Nat → Nat → Nat → FRes) (s : State) (is : Issue) (r : Run) :
    State × DWord × BitVec 5 :=
  let a := s.srcV is r false o.a
  let b := s.srcB is r m.ty o.b
  let c := s.srcV is r false o.c
  let w := Ty.elemBits m.ty
  fpRun s is r m fun md k => f (tyFmt m.ty) md (elemAt w a k) (elemAt w b k) (elemAt w c k)

/-! The functions of R92 and R93. -/
def fnAdd (f : Fmt) (md : RMode) (a b : Nat) : FRes := fpAdd f md false a b
def fnSub (f : Fmt) (md : RMode) (a b : Nat) : FRes := fpAdd f md true a b
def fnMin (f : Fmt) (md : RMode) (a b : Nat) : FRes := fpMinMax f md.ftz false a b
def fnMax (f : Fmt) (md : RMode) (a b : Nat) : FRes := fpMinMax f md.ftz true a b
def fnClamp (f : Fmt) (md : RMode) (a b c : Nat) : FRes := fpClamp f md.ftz a b c
def fnAbs (f : Fmt) (_ : RMode) (a : Nat) : FRes := ⟨fpAbs f a, 0⟩
def fnNeg (f : Fmt) (_ : RMode) (a : Nat) : FRes := ⟨fpNeg f a, 0⟩

/-! ### Group 0x2 -/

def execFadd (c : Ctl) (m : Mods) (o : O2) (s : State) := fpFixed (.fadd c m o) c 5 o.d (fpRun2 m o fnAdd) s
def execFsub (c : Ctl) (m : Mods) (o : O2) (s : State) := fpFixed (.fsub c m o) c 5 o.d (fpRun2 m o fnSub) s
def execFmul (c : Ctl) (m : Mods) (o : O2) (s : State) := fpFixed (.fmul c m o) c 5 o.d (fpRun2 m o fpMul) s
def execFfma (c : Ctl) (m : Mods) (o : O3) (s : State) := fpFixed (.ffma c m o) c 5 o.d (fpRun3 m o fpFma) s
def execFmin (c : Ctl) (m : Mods) (o : O2) (s : State) := fpFixed (.fmin c m o) c 3 o.d (fpRun2 m o fnMin) s
def execFmax (c : Ctl) (m : Mods) (o : O2) (s : State) := fpFixed (.fmax c m o) c 3 o.d (fpRun2 m o fnMax) s
def execFclamp (c : Ctl) (m : Mods) (o : O3) (s : State) := fpFixed (.fclamp c m o) c 3 o.d (fpRun3 m o fnClamp) s
def execFabs (c : Ctl) (m : Mods) (o : O1) (s : State) := fpFixed (.fabs c m o) c 3 o.d (fpRun1 m o fnAbs) s
def execFneg (c : Ctl) (m : Mods) (o : O1) (s : State) := fpFixed (.fneg c m o) c 3 o.d (fpRun1 m o fnNeg) s
def execFround (c : Ctl) (m : Mods) (o : O1) (s : State) := fpFixed (.fround c m o) c 5 o.d (fpRun1 m o fpIntegral) s
def execFdiv (c : Ctl) (m : Mods) (o : O2) (s : State) := computeV (.fdiv c m o) c (fpRun2 m o fpDiv) s
def execFsqrt (c : Ctl) (m : Mods) (o : O1) (s : State) := computeV (.fsqrt c m o) c (fpRun1 m o fpSqrt) s

/-- The transcendental functions (R94): the opcode names the function. They draw no rounding. -/
def fnTrans (opc : Nat) (m : Mods) (_ : Fmt) (md : RMode) (a : Nat) : FRes := fpTrans opc m.ty md.ftz a
def execFrcp (c : Ctl) (m : Mods) (o : O1) (s : State) := computeV (.frcp c m o) c (fpRun1 m o (fnTrans 0x08C m)) s
def execFrsq (c : Ctl) (m : Mods) (o : O1) (s : State) := computeV (.frsq c m o) c (fpRun1 m o (fnTrans 0x08D m)) s
def execFexp2 (c : Ctl) (m : Mods) (o : O1) (s : State) := computeV (.fexp2 c m o) c (fpRun1 m o (fnTrans 0x08E m)) s
def execFlog2 (c : Ctl) (m : Mods) (o : O1) (s : State) := computeV (.flog2 c m o) c (fpRun1 m o (fnTrans 0x08F m)) s
def execFsin (c : Ctl) (m : Mods) (o : O1) (s : State) := computeV (.fsin c m o) c (fpRun1 m o (fnTrans 0x090 m)) s
def execFcos (c : Ctl) (m : Mods) (o : O1) (s : State) := computeV (.fcos c m o) c (fpRun1 m o (fnTrans 0x091 m)) s
def execFtanh (c : Ctl) (m : Mods) (o : O1) (s : State) := computeV (.ftanh c m o) c (fpRun1 m o (fnTrans 0x092 m)) s

/-! ### Group 0x3 -/

def execHadd (c : Ctl) (m : Mods) (o : O2) (s : State) := fpFixed (.hadd c m o) c 5 o.d (fpRun2 m o fnAdd) s
def execHsub (c : Ctl) (m : Mods) (o : O2) (s : State) := fpFixed (.hsub c m o) c 5 o.d (fpRun2 m o fnSub) s
def execHmul (c : Ctl) (m : Mods) (o : O2) (s : State) := fpFixed (.hmul c m o) c 5 o.d (fpRun2 m o fpMul) s
def execHfma (c : Ctl) (m : Mods) (o : O3) (s : State) := fpFixed (.hfma c m o) c 5 o.d (fpRun3 m o fpFma) s
def execHmin (c : Ctl) (m : Mods) (o : O2) (s : State) := fpFixed (.hmin c m o) c 3 o.d (fpRun2 m o fnMin) s
def execHmax (c : Ctl) (m : Mods) (o : O2) (s : State) := fpFixed (.hmax c m o) c 3 o.d (fpRun2 m o fnMax) s
def execHclamp (c : Ctl) (m : Mods) (o : O3) (s : State) := fpFixed (.hclamp c m o) c 3 o.d (fpRun3 m o fnClamp) s
def execHabs (c : Ctl) (m : Mods) (o : O1) (s : State) := fpFixed (.habs c m o) c 3 o.d (fpRun1 m o fnAbs) s
def execHneg (c : Ctl) (m : Mods) (o : O1) (s : State) := fpFixed (.hneg c m o) c 3 o.d (fpRun1 m o fnNeg) s

/-- HDOT2: one rounding to FP32. -/
def dotRun (m : Mods) (o : O3) (s : State) (is : Issue) (r : Run) : State × DWord × BitVec 5 :=
  let a := s.srcV is r false o.a
  let b := s.srcB is r m.ty o.b
  let c := s.srcV is r false o.c
  fpRun s is r { m with ty := .f32 } fun md _ => fpDot2 (tyFmt m.ty) md a.toNat b.toNat c.toNat
def execHdot2 (c : Ctl) (m : Mods) (o : O3) (s : State) := fpFixed (.hdot2 c m o) c 5 o.d (dotRun m o) s
def execHexp2 (c : Ctl) (m : Mods) (o : O1) (s : State) := computeV (.hexp2 c m o) c (fpRun1 m o (fnTrans 0x0CA m)) s
def execHrcp (c : Ctl) (m : Mods) (o : O1) (s : State) := computeV (.hrcp c m o) c (fpRun1 m o (fnTrans 0x0CB m)) s

end Sys2Proof.Machine
end

