-- ==== Sys2Proof/Machine/Compare.lean ====
section
/-! DEFINITION. Group 0x5, compares and predicates (R100 to R102). -/
namespace Sys2Proof.Machine

/-- The two predicate results of a compare: pT is written first, then pF (R101). -/
def comparePuts (s : State) (is : Issue) (r : Run) (f : CmpF) (c d : Bool) : List Put :=
  let old (n : Nat) : Bool := s.predAt is r.t.tid n
  let mix (o x : Bool) : Bool := match f.cmb with
    | .set => x
    | .and => o && x
    | .or => o || x
  [putPred r.t.tid f.pt (mix (old f.pt) c), putPred r.t.tid f.pf (mix (old f.pf) d)]

/-- A condition on an exact difference. -/
def Cond.holds (cd : Cond) (x y : Int) : Bool :=
  match cd with
  | .eq => x == y
  | .ne => x != y
  | .lt => decide (x < y)
  | .le => decide (x ≤ y)
  | .gt => decide (x > y)
  | .ge => decide (x ≥ y)

/-- A compare instruction: condition, complement and flags of one run. -/
def compareIns (ins : Instr) (c : Ctl) (f : CmpF) (g : State → Issue → Run → Bool × Bool × BitVec 5) (s : State) :=
  pureFixed ins c 3 (fun s is r =>
    let (x, y, fl) := g s is r
    comparePuts s is r f x y ++ raises r fl) s

/-- ICMP compares element 0. -/
def execIcmp (c : Ctl) (ty : Ty) (cnd : Cond) (f : CmpF) (s : State) :=
  compareIns (.icmp c ty cnd f) c f (fun s is r =>
    let x := Cond.holds cnd (intElem ty (s.srcV is r ty.wide f.a) 0) (intElem ty (s.srcB is r ty f.b) 0)
    (x, !x, 0)) s
def execFcmp (c : Ctl) (ftz : Bool) (cnd : Cond) (f : CmpF) (s : State) :=
  compareIns (.fcmp c ftz cnd f) c f (fun s is r =>
    fpCompare Fmt.f32 ftz cnd (s.srcV is r false f.a).toNat (s.srcB is r .f32 f.b).toNat) s

/-- HCMP on one half or on both. -/
def halfCompare (ty : Ty) (ftz : Bool) (cnd : Cond) (h : Half) (a b : DWord) : Bool × Bool × BitVec 5 :=
  let one (k : Nat) := fpCompare (tyFmt ty) ftz cnd (elemAt 16 a k) (elemAt 16 b k)
  match h with
  | .lo => one 0
  | .hi => one 1
  | .all => ((one 0).1 && (one 1).1, (one 0).2.1 && (one 1).2.1, (one 0).2.2 ||| (one 1).2.2)
def execHcmp (c : Ctl) (ty : Ty) (ftz : Bool) (cnd : Cond) (h : Half) (f : CmpF) (s : State) :=
  compareIns (.hcmp c ty ftz cnd h f) c f (fun s is r =>
    halfCompare ty ftz cnd h (s.srcV is r false f.a) (s.srcB is r ty f.b)) s

/-- FCLASS: the operand is element 0; the mask is read as an integer. -/
def execFclass (c : Ctl) (ty : Ty) (f : CmpF) (s : State) :=
  compareIns (.fclass c ty f) c f (fun s is r =>
    let x := (s.srcB is r .b32 f.b).getLsbD
      (fpClass (tyFmt ty) (elemAt (Ty.elemBits ty) (s.srcV is r false f.a) 0))
    (x, !x, 0)) s

def POp.apply (op : POp) (a b : Bool) : Bool :=
  match op with
  | .and => a && b
  | .or => a || b
  | .xor => a != b
def execPlogic (c : Ctl) (op : POp) (pd pa : Nat) (na : Bool) (pb : Nat) (nb : Bool) (s : State) :=
  pureFixed (.plogic c op pd pa na pb nb) c 3 (fun s is r =>
    [putPred r.t.tid pd (POp.apply op (s.predAt is r.t.tid pa != na) (s.predAt is r.t.tid pb != nb))]) s

/-- PSETV and PGETV move 32 or 16 predicates at a time; p0 reads true and keeps its value (R8, R102). -/
def execPsetv (c : Ctl) (a : VSrc) (sel : Bool) (s : State) :=
  pureFixed (.psetv c a sel) c 3 (fun s is r =>
    let x := s.srcV is r false a
    if sel then (List.range 16).map fun i => putPred r.t.tid (32 + i) (x.getLsbD i)
    else (List.range 31).map fun i => putPred r.t.tid (i + 1) (x.getLsbD (i + 1))) s
def execPgetv (c : Ctl) (d : Nat) (sel : Bool) (s : State) :=
  pureFixed (.pgetv c d sel) c 3 (fun s is r =>
    let first := if sel then 32 else 0
    let n := if sel then 16 else 32
    s.dst is r false d ((List.range n).foldl (fun acc i =>
      if s.predAt is r.t.tid (first + i) then acc ||| BitVec.twoPow 64 i else acc) 0)) s

end Sys2Proof.Machine
end

