-- ==== Sys2Proof/Machine/Control.lean ====
section
/-! DEFINITION. Group 0x7, control flow (R44, R105 to R107). -/
namespace Sys2Proof.Machine

/-- NOP only counts its flag. -/
def execNop (c : Ctl) (s : State) := pureFixed (.nop c) c 3 (fun _ _ _ => []) s

/-- A direct target: 8-byte units from the clause header. -/
def Issue.direct (is : Issue) (off : BitVec 32) : DWord := is.hdrAt + 8 * off.signExtend 64
def execBra (c : Ctl) (off : BitVec 32) (s : State) :=
  transfer (.bra c off) c (fun s is rs => .go (s.take is (rs.map fun r => (r.t.tid, is.direct off)) true)) s
/-- The results of a transfer are in place when its clause ends. -/
def Issue.link (is : Issue) (s : State) (rs : List Run) (d : Nat) : Issue :=
  is.record 3 (rs.flatMap fun r => s.dst is r true d is.follow)
def execCall (c : Ctl) (d : Nat) (off : BitVec 32) (s : State) :=
  transfer (.call c d off) c (fun s is rs =>
    .go (s.take (is.link s rs d) (rs.map fun r => (r.t.tid, is.direct off)))) s

/-- What the checks of R106 find for one thread's target. -/
inductive TargetRes
  | ok
  | wait
  | bad (sub : Nat)
  | fault (cause : Nat)
deriving DecidableEq, Repr, Inhabited

def State.checkTarget (s : State) (is : Issue) (land : Bool) (tid : Nat) (t : DWord) : TargetRes × State :=
  if t.toNat / 2 ^ 57 ≠ 0 ∨ t.toNat % 8 ≠ 0 ∨ aperOf t.toNat = .peer then (.bad 13, s)
  else match s.fetch (.target is.iid tid) is.iid tid t.toNat 8 with
    | (.wait, s) => (.wait, s)
    | (.fault c, s) => (.fault c, s)
    | (.bytes b, s) =>
      let w := natOf b
      if w % 4 ≠ 0 then (.bad 11, s)
      else if land && field w 34 1 = 0 then (.bad 14, s)
      else (.ok, s)

def checkTargets (is : Issue) (land : Bool) : State → List (Nat × DWord) → List (Nat × DWord × TargetRes) × State
  | s, [] => ([], s)
  | s, (tid, t) :: r =>
    let (x, s) := s.checkTarget is land tid t
    let (xs, s) := checkTargets is land s r
    ((tid, t, x) :: xs, s)

/-- Threads whose target is not legal take the trap, one delivery per sub-cause and target, ascending; threads whose
target does not translate park, one sub-group per home warp, whose record names the lowest lane's target (R106, R209). -/
def State.badTargets (s : State) (is : Issue) (opc : Nat) (flag : Option Nat) (res : List (Nat × DWord × TargetRes)) : State :=
  let i := s.inst is.iid
  let bads := res.filterMap fun x => match x.2.2 with | .bad b => some (b, x.2.1.toNat, x.1) | _ => none
  let keys := ((bads.map fun b => (b.1, b.2.1)).eraseDups).insertionSort fun a b => decide (a.1 < b.1 ∨ (a.1 = b.1 ∧ a.2 ≤ b.2))
  let s := keys.foldl (fun s k => s.trapThreads is ((bads.filter fun b => (b.1, b.2.1) == k).map (·.2.2)) 1 k.1
    (BitVec.ofNat 64 k.2) is.hdrAt opc) s
  let flts := res.filterMap fun x => match x.2.2 with | .fault c => some (x.1, c, x.2.1) | _ => none
  (((flts.map fun f => i.hwOf f.1).eraseDups).insertionSort (· ≤ ·)).foldl (fun s h =>
    let mine := flts.filter fun f => i.hwOf f.1 == h
    match mine with
    | [] => s
    | f :: _ =>
      let s := s.leaveIssue is.iid (mine.map (·.1))
      s.memFault is.iid h (mine.map (·.1)) f.2.1 5 f.2.2 is.hdrAt flag) s

/-- An indirect transfer: when every thread's target passes, the threads go there; failing threads split off first. -/
def indirect (ins : Instr) (c : Ctl) (land : Bool) (a : VSrc) (link : Option Nat) (s : State) :=
  transfer ins c (fun s is rs =>
    let (res, s) := checkTargets is land s (rs.map fun r => (r.t.tid, s.srcV is r true a))
    let fails := res.any fun x => match x.2.2 with | .bad _ | .fault _ => true | _ => false
    if fails then .stay (s.badTargets is (ins.opc.getD 0) (is.flagOf c.fsel) res)
    else if res.any fun x => x.2.2 == .wait then .stay s
    else
      let is := match link with
        | none => is
        | some d => is.link s rs d
      .go (s.take is (res.map fun x => (x.1, x.2.1)) true)) s
def execJmp (c : Ctl) (a : VSrc) (s : State) := indirect (.jmp c a) c true a none s
def execCalli (c : Ctl) (o : O1) (s : State) := indirect (.calli c o) c true o.a (some o.d) s
def execRet (c : Ctl) (a : VSrc) (s : State) := indirect (.ret c a) c false a none s

/-- EXIT; in generator mode it is a misuse of the Basket, sub-cause 16 (R123). -/
def execExit (c : Ctl) (s : State) :=
  transfer (.exit c) c (fun s is rs =>
    let i := s.inst is.iid
    let tids := rs.map (·.t.tid)
    if tids.any fun t => (i.hw (i.hwOf t)).basket.isSome then .stay (s.trapAll is 16 0x1C6 0)
    else .go ((s.traceEvent is 2 tids 0).exitThreads is.iid tids)) s

def execMeet (c : Ctl) (off : BitVec 32) (s : State) :=
  pureFixed (.meet c off) c 3 (fun _ is r => [⟨.meet r.t.tid, is.direct off, false⟩]) s
def execMeetNone (c : Ctl) (s : State) :=
  pureFixed (.meetNone c) c 3 (fun _ _ r => [⟨.meet r.t.tid, noMeeting, false⟩]) s

/-- TRAP: one delivery per distinct code, ascending (R107). -/
def execTrap (c : Ctl) (b : BSrc) (s : State) :=
  transfer (.trap c b) c (fun s is rs =>
    let cs := rs.map fun r => ((s.srcB is r .b32 b).toNat % 256, r.t.tid)
    let codes := ((cs.map (·.1)).eraseDups).insertionSort (· ≤ ·)
    .go (codes.foldl (fun s k =>
      s.trapThreads is ((cs.filter fun p => p.1 == k).map (·.2)) 5 k 0 is.follow 0x1C8) s)) s

end Sys2Proof.Machine
end

