-- ==== Sys2Proof/Machine/Convert.lean ====
section
/-! DEFINITION. Group 0x4, conversions (R76, R96 to R99). -/
namespace Sys2Proof.Machine

/-- The operand type that a conversion type names, for reading an immediate. -/
def ctyOperand : CTy → Ty
  | .i32 => .i32 | .n32 => .n32 | .i16 => .i16 | .n16 => .n16 | .i8 => .i8 | .n8 => .n8 | .i64 => .i64 | .n64 => .n64
  | .f32 => .f32 | .f16 => .f16 | .bf16 => .bf16 | .e4m3 | .e5m2 => .b32

/-- A unary conversion of the selected source element; the other bits of D are zero. -/
def cvtRun (f : Cvt) (o : O1) (g : RMode → Nat → FRes) (s : State) (is : Issue) (r : Run) : State × DWord × BitVec 5 :=
  let w := ctyWidth f.src
  let a := elemAt w (s.srcV is r f.src.wide o.a) f.el
  let (md, s) := s.rmode is r f.rnd f.sat f.ftz
  let x := g md a
  (s, BitVec.ofNat 64 x.bits, x.flags)
def cvtFixed (ins : Instr) (c : Ctl) (lat : Nat) (f : Cvt) (o : O1) (g : RMode → Nat → FRes) (s : State) :=
  fixed ins c lat (fun s is r =>
    let (s, x, fl) := cvtRun f o g s is r
    (s, s.dst is r f.dst.wide o.d x ++ raises r fl)) s

def execCvtf (c : Ctl) (f : Cvt) (o : O1) (s : State) :=
  cvtFixed (.cvtf c f o) c 5 f o (cvtFF (ctyFmt f.dst) (ctyFmt f.src)) s
def execCvtfi (c : Ctl) (f : Cvt) (o : O1) (s : State) :=
  cvtFixed (.cvtfi c f o) c 5 f o (cvtFI (ctyWidth f.dst) (ctySigned f.dst) (ctyFmt f.src)) s
def execCvtif (c : Ctl) (f : Cvt) (o : O1) (s : State) :=
  cvtFixed (.cvtif c f o) c 5 f o (cvtIF (ctyWidth f.src) (ctySigned f.src) (ctyFmt f.dst)) s
/-- Integer to integer: Wrap or Sat. -/
def cvtII (dst src : CTy) (md : RMode) (a : Nat) : FRes :=
  let x := valI (ctyWidth src) (ctySigned src) a
  ⟨if md.sat then satI (ctyWidth dst) (ctySigned dst) x else wrapI (ctyWidth dst) x, 0⟩
def execCvtii (c : Ctl) (f : Cvt) (o : O1) (s : State) := cvtFixed (.cvtii c f o) c 3 f o (cvtII f.dst f.src) s
/-- UNPACK widens exactly. -/
def execUnpack (c : Ctl) (f : Cvt) (o : O1) (s : State) :=
  cvtFixed (.unpack c f o) c 3 f o (cvtFF (ctyFmt f.dst) (ctyFmt f.src)) s

/-- PACK2 (R98): the narrowed elements of A, then those of B, from element 0 upward. -/
def packElems (is : Issue) (r : Run) (f : Cvt) : State → List Nat → State × List Nat × BitVec 5
  | s, [] => (s, [], 0)
  | s, a :: as =>
    let (md, s) := s.rmode is r f.rnd f.sat f.ftz
    let x := if f.dst.isInt then cvtII f.dst f.src md a else cvtFF (ctyFmt f.dst) (ctyFmt f.src) md a
    let (s, xs, fl) := packElems is r f s as
    (s, x.bits :: xs, x.flags ||| fl)
def packRun (f : Cvt) (o : O2) (s : State) (is : Issue) (r : Run) : State × DWord × BitVec 5 :=
  let a := s.srcV is r false o.a
  let b := s.srcB is r (ctyOperand f.src) o.b
  let w := ctyWidth f.src
  let es := (List.range (32 / w)).map (elemAt w a) ++ (List.range (32 / w)).map (elemAt w b)
  let (s, xs, fl) := packElems is r f s es
  (s, BitVec.ofNat 64 (joinElems (ctyWidth f.dst) xs), fl)
def execPack2 (c : Ctl) (f : Cvt) (o : O2) (s : State) := fpFixed (.pack2 c f o) c 5 o.d (packRun f o) s

/-- CVTBLK (R99). -/
def blkCodes (is : Issue) (r : Run) (rnd : Rnd) : State → List FVal → State × List Nat × BitVec 5
  | s, [] => (s, [], 0)
  | s, y :: ys =>
    let (md, s) := s.rmode is r rnd false false
    let x := e2m1Code md y
    let (s, xs, fl) := blkCodes is r rnd s ys
    (s, x.bits :: xs, x.flags ||| fl)
def blkPairs : List FVal → List Nat × BitVec 5
  | a :: b :: r =>
    let (p, q, fl) := i4oPair a b
    let (xs, gl) := blkPairs r
    (p :: q :: xs, fl ||| gl)
  | _ => ([], 0)
def blkRun (i4o : Bool) (rnd : Rnd) (o : O3) (s : State) (is : Issue) (r : Run) : State × DWord × BitVec 5 :=
  let e := (s.srcB is r .n32 o.b).toNat % 256
  if e = 0xFF then (s, 0, flInvalid)
  else
    let reg (v : VSrc) (k : Nat) : FVal := scaleDown e (lo32 (s.srcReg is r (v.reg + k) v.perm)).toNat
    let ys := (List.range 4).map (reg o.a) ++ (List.range 4).map (reg o.c)
    if i4o then
      let (xs, fl) := blkPairs ys
      (s, BitVec.ofNat 64 (joinElems 4 xs), fl)
    else
      let (s, xs, fl) := blkCodes is r rnd s ys
      (s, BitVec.ofNat 64 (joinElems 4 xs), fl)
def execCvtblk (c : Ctl) (i4o : Bool) (rnd : Rnd) (o : O3) (s : State) :=
  fpFixed (.cvtblk c i4o rnd o) c 5 o.d (blkRun i4o rnd o) s

end Sys2Proof.Machine
end

