-- ==== Sys2Proof/Machine/Generator.lean ====
section
/-! DEFINITION. Group 0xA, generator mode (R123 to R126, R154, R155, R167). -/
namespace Sys2Proof.Machine

/-- The home warp of a formed warp in generator mode, with its Basket. -/
def State.basketOf (s : State) (is : Issue) : Nat × Option Basket :=
  let i := s.inst is.iid
  let h := i.hwOf (lowest is.lanes).tid
  (h, (i.hw h).basket)

/-- A label of GEN.OPEN: 8-byte units from the clause header. -/
def Issue.label (is : Issue) (off : BitVec 16) : DWord := is.hdrAt + 8 * off.signExtend 64

/-- GEN.OPEN (R123): the mode starts at the end of its clause. -/
def execGenOpen (c : Ctl) (w t : Nat) (cons exit : BitVec 16) (s : State) :=
  inClause s fun is => s.issueIns is (.genOpen c w t cons exit) c [] fun s is =>
    let rs := s.runs is c
    let i := s.inst is.iid
    let (h, b) := s.basketOf is
    let whole := is.lanes.length == 32 && rs.length == 32 && is.lanes.all fun l => i.hwOf l.tid == h
    if rs.isEmpty then .go (s.startOp is (.genOpen c w t cons exit) c [] [])
    else if b.isSome || is.gopen.isSome || !whole then .stay (s.trapAll is 16 0x287 0)
    else
      let k : Basket := { w, t, f0 := Frame.empty, f1 := Frame.empty, filling := false, consEntry := is.label cons
                          exitHdr := is.label exit, yielded := false, consuming := none, draining := false, nexted := []
                          ages := 0 }
      let (s, ps) := partPer (fun _ _ _ => []) s is rs
      .go ((s.startOp is (.genOpen c w t cons exit) c ps []).setIssue { is with gopen := some k })

/-- A switch point (R125): its decision is logged before it takes effect at the clause's end. `pending` are the lanes whose
producer role ends here. -/
def switchOp (ins : Instr) (c : Ctl) (pends : Bool) (s : State) : Host.Outcome State Fault Refusal :=
  inClause s fun is => s.issueIns is ins c [] fun s is =>
    let i := s.inst is.iid
    let (h, b) := s.basketOf is
    match b with
    | none => .stay (s.trapAll is 16 0x287 0)
    | some k =>
      if k.consuming.isSome then .stay (s.trapAll is 16 0x287 0)
      else
        let pending := if pends then (s.runs is c).map (·.t.tid) else []
        let (ok, s) := s.gate i.ctx (logSrc (i.core / 128) 1 ((i.core % 128) * 2 + h % 2)) 0x05 (switchRec i h k pending is.hdrAt)
        if !ok then .stay s
        else
          let s := s.modInst is.iid fun i => pending.foldl (fun i t => i.modTh t fun th => { th with pended := true }) i
          let (s, is) := s.fixedFlag is c 1
          .go (s.setIssue { is with gend := some .point })
def execGenPoint (c : Ctl) (s : State) := switchOp (.genPoint c) c false s
def execGenPend (c : Ctl) (s : State) := switchOp (.genPend c) c true s

/-- GEN.NEXT ends the consumer for its lanes at the end of the clause. -/
def execGenNext (c : Ctl) (s : State) :=
  inClause s fun is => s.issueIns is (.genNext c) c [] fun s is =>
    match (s.basketOf is).2 with
    | some k =>
      if k.consuming.isNone then .stay (s.trapAll is 16 0x287 0)
      else
        let tids := (s.runs is c).map (·.t.tid)
        let (s, is) := s.fixedFlag is c 1
        .go (s.setIssue { is with gend := some (.next tids) })
    | none => .stay (s.trapAll is 16 0x287 0)

/-- The registers of a Basket entry from a first one. -/
def entryRegs (r : Nat) (s : State) (is : Issue) : List RU :=
  match (s.basketOf is).2 with
  | some k => [⟨r, k.w, false⟩]
  | none => []

/-- GEN.TAKE (R154): lane i receives entry i of the frame being consumed. -/
def execGenTake (c : Ctl) (d : Nat) (s : State) :=
  inClause s fun is => s.issueIns is (.genTake c d) c (entryRegs d s is) fun s is =>
    let rs := s.runs is c
    match (s.basketOf is).2 with
    | some k =>
      (match k.consuming with
        | none => if rs.isEmpty then .go (s.startOp is (.genTake c d) c [] []) else .stay (s.trapAll is 16 0x287 0)
        | some f =>
          let (s, ps) := partPer (fun s is r =>
            let e := (k.frame f).entries.getD ((s.inst is.iid).laneOf r.t.tid) []
            (List.range k.w).map fun j => (e.getD j 0).setWidth 64) s is rs
          .go (s.startOp is (.genTake c d) c ps (entryRegs d s is)))
    | none => if rs.isEmpty then .go (s.startOp is (.genTake c d) c [] []) else .stay (s.trapAll is 16 0x287 0)
def State.takeStep (s : State) (o : PendOp) (p : Part) (d : Nat) : State :=
  s.partWrites o.id p.tid ((List.range p.args.length).map fun k => (.v p.tid (d + k), p.arg k)) 0

/-- YIELD (R124, R155): one entry per guard-true producer lane, in lane order. -/
def execYield (c : Ctl) (a : Nat) (s : State) :=
  inClause s fun is => s.issueIns is (.yield c a) c (entryRegs a s is) fun s is =>
    let rs := s.runs is c
    let (h, b) := s.basketOf is
    if rs.isEmpty then .go (s.startOp is (.yield c a) c [] [])
    else match b with
      | none => .stay (s.trapAll is 16 0x288 0)
      | some k =>
        if k.consuming.isSome then .stay (s.trapAll is 16 0x288 0)
        else if k.yielded then .stay (s.trapAll is 15 0x288 0)
        else
          let k := rs.foldl (fun (k : Basket) r => k.push ((s.ownRange is r a k.w).map fun x => x.setWidth 32)) k
          let s := s.modHw is.iid h fun w => { w with basket := some { k with yielded := true } }
          let (s, ps) := partPer (fun _ _ _ => []) s is rs
          .go (s.startOp is (.yield c a) c ps [])

end Sys2Proof.Machine
end

