-- ==== Sys2Proof/Machine/Growth.lean ====
section
/-! DEFINITION. Group 0xA, register growth (R13, R127, R156, R157). -/
namespace Sys2Proof.Machine

/-! ### The rows of a core (R120) -/

/-- The row ranges that home warps of a core hold, those of one home warp apart. -/
def State.rowsHeld (s : State) (core iid hw : Nat) : List (Nat × Nat) :=
  (s.insts.filter fun p => p.2.kind == .stage && p.2.core == core).flatMap fun p =>
    (p.2.hws.filter fun h => h.1 != guideHw && !(p.1 == iid && h.1 == hw)).flatMap fun h =>
      (h.2.vb, h.2.n) :: h.2.moveTo.map (·.2)
def rowsFree (held : List (Nat × Nat)) (base n : Nat) : Bool :=
  decide (base + n ≤ Config.bankBytes / 128) && held.all fun r => decide (base + n ≤ r.1) || decide (r.1 + r.2 ≤ base)

/-- In replay, what the core's next record answers to the home warp's request: a failed grant, or the base of its rows (R318). -/
def State.growLogged (s : State) (iid hw : Nat) : Option (Option Nat) :=
  let i := s.inst iid
  if !(s.ctx i.ctx).ccb.rplB then none
  else (find? (s.ctx i.ctx).log.next (logSrc (i.core / 128) 4 (i.core % 128))).bind fun n =>
    if (nthByte n.2 0).toNat == 0x0B && (nthByte n.2 4).toNat == hw && bytesNat n.2 9 4 == i.no then
      some (if (nthByte n.2 5).toNat == 0 then some (bytesNat n.2 7 2) else none)
    else none

/-- A base for n rows of a home warp, if there is room: in replay the recorded one, else any that the core likes, else the
lowest that fits (log entry 24). -/
def State.growBase (s : State) (iid hw n : Nat) : Option Nat :=
  let i := s.inst iid
  let held := s.rowsHeld i.core iid hw
  if Config.regionMax < s.regionBytes i.core iid hw + 128 * n then none
  else if (s.ctx i.ctx).ccb.rplB then ((s.growLogged iid hw).bind id).filter fun b => rowsFree held b n
  else
    let like := (Config.openRead s.fresh 9).toNat % 512 * 8
    ((like :: 0 :: held.map fun r => r.1 + r.2).insertionSort fun a b => a == like || (b != like && decide (a ≤ b))).find? fun b =>
      rowsFree held b n

/-! ### Requests -/

/-- What a request meets at its issue. -/
inductive GrowAns
  | fail
  | grant (base n : Nat)
  | wait
  /-- in replay, the recorded grant cannot be made yet -/
  | held
deriving DecidableEq, Repr, Inhabited

/-- The answer to a request: a grant where it fits; under replay the recorded one (R318). -/
def State.growAsk (s : State) (iid hw g : Nat) (wait : Bool) : GrowAns :=
  let w := (s.inst iid).hw hw
  let n := w.count + 8 * g
  if 256 < n ∨ w.grow.isSome ∨ s.growLogged iid hw = some none then .fail
  else match s.growBase iid hw n with
    | some b => .grant b n
    | none => if wait then .wait else if (s.ctx (s.inst iid).ctx).ccb.rplB then .held else .fail

/-- The payload of a type-0x0B record. -/
def growRec (i : Inst) (hw g : Nat) (a : GrowAns) : List Byte :=
  let (bad, vb) := match a with
    | .grant b _ => (0, b)
    | _ => (1, (i.hw hw).vb)
  bytesOf 1 hw ++ bytesOf 1 bad ++ bytesOf 1 g ++ bytesOf 2 vb ++ bytesOf 4 i.no
def State.growSrc (s : State) (iid : Nat) : Nat := logSrc ((s.inst iid).core / 128) 4 ((s.inst iid).core % 128)

/-- The answers to the home warps of a formed warp, one after the other, with what the grants take. -/
def growAll (iid : Nat) (wait : Bool) : State → List (Nat × Nat) → List (Nat × Nat × GrowAns) × State
  | s, [] => ([], s)
  | s, (hw, g) :: r =>
    let a := s.growAsk iid hw g wait
    let s := match a with
      | .grant b n => s.modHw iid hw fun w => { w with moveTo := w.moveTo ++ [(s.nextId, b, n)] }
      | _ => s
    let (xs, s) := growAll iid wait s r
    ((hw, g, a) :: xs, s)

/-- The pending requests of a core that fit. -/
def State.growFits (s : State) (core : Nat) : List (Nat × Nat × Grow × GrowAns) :=
  (s.insts.filter fun p => p.2.kind == .stage && p.2.core == core).flatMap fun p =>
    p.2.hws.filterMap fun h => h.2.grow.bind fun g =>
      (s.growBase p.1 h.1 (h.2.count + 8 * g.granules)).map fun b => (p.1, h.1, g, .grant b (h.2.count + 8 * g.granules))

/-- REGGROW (R156): each represented home warp makes its own request; an answer at once is logged before it takes
effect. While an older request fits the free rows and has not been granted yet the instruction waits at its issue (R127). -/
def execReggrow (c : Ctl) (wait : Bool) (pd : Nat) (b : BSrc) (s : State) :=
  inClause s fun is => s.issueIns is (.reggrow c wait pd b) c [] fun s is =>
    let i := s.inst is.iid
    let rs := s.runs is c
    if !rs.isEmpty && !(s.growFits i.core).isEmpty then .stay s else
    let (s, ps) := partHw (fun s is r => [s.srcB is r .b32 b]) s is rs
    let asks := ps.map fun p => (i.hwOf p.tid, (p.arg 0).toNat % 2 ^ 32)
    let (ans, t) := growAll is.iid wait s asks
    if ans.any fun a => a.2.2 == .held then .stay s else
    let now := ans.filter fun a => a.2.2 != .wait
    let recs := now.map fun a => growRec i a.1 a.2.1 a.2.2
    let (ok, s') := s.gateAll i.ctx (s.growSrc is.iid) 0x0B recs
    if !ok then .stay s'
    else
      let s : State := { t with ctxs := s'.ctxs, mem := s'.mem, dies := s'.dies, poisonM := s'.poisonM, cores := s'.cores }
      let code (a : GrowAns) : DWord := match a with | .fail => 0 | .grant .. => 1 | .wait | .held => 2
      let id := s.nextId
      let parts := ps.map fun p => { p with args := (ans.filter fun a => a.1 == i.hwOf p.tid).map fun a => code a.2.2 }
      let s := s.startOp is (.reggrow c wait pd b) c parts []
      .go (ans.foldl (fun s a => if a.2.2 != .wait then s
        else
          let s := s.modHw is.iid a.1 fun w => { w with grow := some ⟨a.2.1, pd, id⟩ }
          (rs.filter fun r => i.hwOf r.t.tid == a.1).foldl (fun s r => s.sleep is.iid r.t.tid .grow) s) s)

/-- The predicate of a request reaches every thread of its home warp, and its flag clears. -/
def State.growOut (s : State) (o : PendOp) (p : Part) (pd : Nat) (ok : Bool) : State :=
  let i := s.inst o.iid
  let ts := (i.hwTids (i.hwOf p.tid)).filter fun t => (i.th t).status != .exited
  let s := s.partWrites o.id p.tid (ts.map fun t => (.p t pd, if ok then 1 else 0)) 0
  ts.foldl (fun s t => s.wake o.iid t .grow) s
/-- A request that was answered at its issue completes; the others wait. -/
def State.growStep (s : State) (o : PendOp) (p : Part) (pd : Nat) : State :=
  if p.arg 0 = 2 then s else s.growOut o p pd (p.arg 0 == 1)

/-- A pending request is answered: it is logged, then takes effect. -/
def State.growAnswer (s : State) (iid hw : Nat) (g : Grow) (a : GrowAns) : State :=
  let i := s.inst iid
  let (ok, s) := s.gate i.ctx (s.growSrc iid) 0x0B (growRec i hw g.granules a)
  if !ok then s
  else
    let s := s.modHw iid hw fun w => { w with grow := none, moveTo := match a with
      | .grant b n => w.moveTo ++ [(g.op, b, n)]
      | _ => w.moveTo }
    let s := s.l1Trim i.core
    match s.op? g.op with
    | none => s
    | some o => match o.parts.find? fun p => i.hwOf p.tid == hw with
      | none => s
      | some p => s.growOut o p g.pd (a != .fail)

/-- REGGROW_GRANT: the oldest pending request that fits is granted (R127). -/
def execReggrowGrant (iid hw : Nat) (s : State) : Host.Outcome State Fault Refusal :=
  let fits := s.growFits (s.inst iid).core
  match fits.find? fun f => f.1 == iid && f.2.1 == hw with
  | some (_, _, g, a) =>
    if fits.any fun f => decide (f.2.2.1.op < g.op) then .next s else .next (s.growAnswer iid hw g a)
  | none => .next s

/-- The operations whose threads sleep until the operation ends; they do not count as outstanding (log entry 25). -/
def sleeps : Instr → Bool
  | .reggrow .. | .bar .. | .elect .. | .gred .. | .gbcast .. | .dqpop .. => true
  | _ => false

/-- GROWTH_DEADLOCK (R127): the youngest waiting home warp receives a failed grant. In replay the home warp of the recorded failed
grant does (R318). -/
def execGrowthDeadlock (core : Nat) (s : State) : Host.Outcome State Fault Refusal :=
  let is := s.insts.filter fun p => p.2.kind == .stage && p.2.core == core
  let asleep := is.all fun p => p.2.ths.all fun t => match t.2.status with
    | .exited | .sleeping _ => true
    | _ => false
  let waits := is.flatMap fun p => p.2.hws.filterMap fun h => h.2.grow.map fun g => (p.2.born, p.1, h.1, g)
  let busy := s.ops.any fun (o : PendOp) => is.any (fun p => p.1 == o.iid) && o.flag.isSome && !sleeps o.ins
  match waits.find? fun w => s.growLogged w.2.1 w.2.2.1 == some none with
  | some (_, iid, hw, g) => .next (s.growAnswer iid hw g .fail)
  | none =>
  if (waits.any fun w => (s.ctx (s.inst w.2.1).ctx).ccb.rplB) then .next s
  else if !asleep || waits.isEmpty || !(s.growFits core).isEmpty || busy then .next s
  else match (waits.insertionSort fun a b => decide (a.1 > b.1 ∨ (a.1 = b.1 ∧ (a.2.1 > b.2.1 ∨ (a.2.1 = b.2.1 ∧ a.2.2.1 ≥ b.2.2.1))))) with
    | [] => .next s
    | (_, iid, hw, g) :: _ => .next (s.growAnswer iid hw g .fail)

/-- REGSHRINK (R157): the highest-numbered registers of each represented home warp go. -/
def execRegshrink (c : Ctl) (b : BSrc) (s : State) :=
  flagged (.regshrink c b) c noMore
    (partHw fun s is r => [s.srcB is r .b32 b]) (fun s is id =>
      let i := s.inst is.iid
      (((s.op? id).map (·.parts)).getD []).foldl (fun s p =>
        let cut (n : Nat) : Nat := max 8 (n - 8 * ((p.arg 0).toNat % 2 ^ 32))
        s.modHw is.iid (i.hwOf p.tid) fun w =>
          let n := cut w.count
          { w with n := min w.n n, moveTo := w.moveTo.map fun m => (m.1, m.2.1, min m.2.2 n) }) s) s

end Sys2Proof.Machine
end

