-- ==== Sys2Proof/Machine/GuideQueues.lean ====
section
/-! DEFINITION. Group 0xB, the Guide's loops, the decision queue and the stage queues (R118, R119, R158 to R162). -/
namespace Sys2Proof.Machine

/-! ### Loops (R118, R159) -/

def execLoopn (c : Ctl) (b : BSrc) (off : BitVec 32) (s : State) :=
  transfer (.loopn c b off) c (fun s is rs =>
    match rs with
    | [] => .go s
    | r :: _ =>
      let n := (s.srcB is r .n32 b).toNat % 2 ^ 32
      let i := s.inst is.iid
      if 4 ≤ i.loops.length then .stay (s.trapAll is 17 0x2C0 0)
      else if n = 0 then .go (s.take is [(r.t.tid, is.direct off)])
      else .go (s.modInst is.iid fun i => { i with loops := ⟨is.follow, is.direct off, n⟩ :: i.loops })) s
def execLoopend (c : Ctl) (s : State) :=
  transfer (.loopend c) c (fun s is rs =>
    match rs, (s.inst is.iid).loops with
    | r :: _, l :: ls => .go ((s.modInst is.iid fun i => { i with loops := ls }).take is [(r.t.tid, l.stop)])
    | _, _ => .go s) s

/-! ### The decision queue (R119, R160) -/

/-- DQPUSH waits at issue for a permit; its record joins the queue once the thread's earlier accesses are performed. -/
def execDqpush (c : Ctl) (a : Nat) (s : State) :=
  inClause s fun is => s.issueIns is (.dqpush c a) c [] fun s is =>
    let rs := s.runs is c
    let core := (s.inst is.iid).core
    if !rs.isEmpty && (s.core core).permits == 0 then .stay s
    else
      let s := if rs.isEmpty then s else s.modCore core fun k => { k with permits := k.permits - 1 }
      let (s, ps) := partPer (fun s is r => [s.ownReg is r a, s.ownReg is r (a + 1)]) s is rs
      .go (s.startOp is (.dqpush c a) c ps [])
def State.dqpushStep (s : State) (o : PendOp) (p : Part) : State :=
  let i := s.inst o.iid
  let older := s.ops.any fun (q : PendOp) => q.iid == o.iid && decide (q.id < o.id) &&
    (match q.ins with | .dqpush .. => true | _ => false)
  if s.accessesBefore o.iid p.tid o.id true || older then s
  else
    let x := p.arg 0
    let y := p.arg 1
    (s.modCore i.core fun k =>
      { k with dq := k.dq ++ [⟨x.setWidth 32, (x >>> 32).setWidth 32, y.setWidth 32, (y >>> 32).setWidth 32, k.dqSeq⟩]
               dqSeq := (k.dqSeq + 1) % 2 ^ 32 }).partDone o.id p.tid

/-- DQDONE of a home warp. -/
def State.dqDone (s : State) (iid hw : Nat) : State :=
  let i := s.inst iid
  if ((i.hw hw).dq).isSome then
    (s.modCore i.core fun k => { k with permits := k.permits + 1 }).modHw iid hw fun w => { w with dq := none }
  else s

/-- DQPOP: each represented home warp gives up its current record and asks for the next one; where none is left for it,
its threads sleep. -/
def execDqpop (c : Ctl) (d : Nat) (s : State) :=
  flagged (.dqpop c d) c noMore (partHw fun _ _ _ => []) (fun s is id =>
    let i := s.inst is.iid
    let rs := s.runs is c
    (((s.op? id).map (·.parts)).getD []).foldl (fun s p =>
      let h := i.hwOf p.tid
      let s := s.dqDone is.iid h
      let k := s.core i.core
      let empty := decide (k.dq.length ≤ k.dqWait.length)
      let s := s.modCore i.core fun k => { k with dqWait := k.dqWait ++ [(id, h)] }
      if empty then (rs.filter fun r => i.hwOf r.t.tid == h).foldl (fun s r => s.sleep is.iid r.t.tid .decision) s else s) s) s
/-- The oldest record goes to the home warp that has waited longest, in replay to the one that the log names. -/
def State.dqpopStep (s : State) (o : PendOp) (p : Part) (d : Nat) : State :=
  let i := s.inst o.iid
  let h := i.hwOf p.tid
  let k := s.core i.core
  match k.dq with
  | [] => s
  | r :: rest =>
    if k.dqWait.head? != some (o.id, h) && !(s.ctx i.ctx).ccb.rplB then s
    else
      let (ok, s) := s.gate i.ctx (logSrc (i.core / 128) 4 (i.core % 128)) 0x09
        (bytesOf 4 r.seqNo ++ bytesOf 1 h ++ bytesOf 4 i.no)
      if !ok then s
      else
        let s := s.modCore i.core fun k => { k with dq := rest, dqWait := k.dqWait.filter (· != (o.id, h)) }
        let s := s.modHw o.iid h fun w => { w with dq := some r }
        let s := s.partWrites o.id p.tid [(.s h d, r.w0.setWidth 64), (.s h (d + 1), r.w1.setWidth 64),
          (.s h (d + 2), r.w2.setWidth 64), (.s h (d + 3), r.w3.setWidth 64)] 0
        (i.hwTids h).foldl (fun s t => s.wake o.iid t .decision) s

def execDqdone (c : Ctl) (s : State) :=
  flagged (.dqdone c) c noMore (partHw fun _ _ _ => []) (fun s is id =>
    (((s.op? id).map (·.parts)).getD []).foldl (fun s p => s.dqDone is.iid ((s.inst is.iid).hwOf p.tid)) s) s

/-- DQBR tests a bit of the current record of each thread's home warp. -/
def execDqbr (c : Ctl) (f : Bool) (b : BSrc) (off : BitVec 32) (s : State) :=
  transfer (.dqbr c f b off) c (fun s is rs =>
    let i := s.inst is.iid
    .go (s.take is (rs.filterMap fun r =>
      let w0 : Word := ((i.hw (i.hwOf r.t.tid)).dq).elim 0 (·.w0)
      if w0.getLsbD ((s.srcB is r .b32 b).toNat % 32) != f then some (r.t.tid, is.direct off) else none))) s

/-! ### Stage queues (R161) -/

/-- A queue of a launch changes. -/
def State.modQueue (s : State) (launch q : Nat) (f : StageQ → StageQ) : State :=
  { s with launches := s.launches.map fun (l : Launch) => if l.id == launch then
      { l with queues := (List.range l.queues.length).map (fun k =>
          let x := l.queues.getD k default
          if k = q then f x else x) } else l }

/-- The checks of R161: the queue with the sub-cause that the Guide's use of it raises. -/
def State.sqCheck (s : State) (i : Inst) (q first : Nat) (push : Bool) : Except Nat StageQ :=
  match (s.launchOf i).bind fun l => l.queues[q]? with
  | none => .error 5
  | some x =>
    if (if push then x.producer else x.consumer) ≠ i.stage then .error 5
    else if 64 < first + x.recSize / 8 then .error 6
    else .ok x
/-- The registers of a queue record from a first one, for the flag hazard of R40. -/
def State.sqRegs (s : State) (i : Inst) (q first : Nat) (push : Bool) : List RU :=
  match s.sqCheck i q first push with
  | .ok x => [⟨first, x.recSize / 8, false⟩]
  | .error _ => []

/-- The pushes to a queue that are under way on the side of an instance. -/
def State.sqGoing (s : State) (i : Inst) (q : Nat) : Nat :=
  (s.ops.filter fun (o : PendOp) => (s.inst o.iid).launch == i.launch && (s.inst o.iid).trailing == i.trailing &&
    (match o.ins with | .sqpush _ _ q' => q' == q | _ => false)).length

/-- The queue index of an encoded queue instruction stands in its `q`. SQPUSH holds the Guide while the queue is full. -/
def execSqpush (c : Ctl) (a q : Nat) (s : State) :=
  inClause s fun is => s.issueIns is (.sqpush c a q) c (s.sqRegs (s.inst is.iid) q a true) fun s is =>
    let rs := s.runs is c
    let i := s.inst is.iid
    if rs.isEmpty then .go (s.startOp is (.sqpush c a q) c [] [])
    else match s.sqCheck i q a true with
      | .error e => .stay (s.trapAll is e 0x2C6 0)
      | .ok x =>
        if ((i.sides (s.pairedStage i x.consumer)).any fun t => decide (x.cap ≤ (x.held t).length + s.sqGoing i q)) then .stay s
        else
          let (s, ps) := partPer (fun s is r =>
            [7, 0, 0] ++ (List.range (x.recSize / 8)).map fun k => s.ownReg is r (a + k)) s is rs
          .go (s.startOp is (.sqpush c a q) c ps [])
/-- The record joins its queue with the release at package scope. -/
def State.sqpushStep (s : State) (o : PendOp) (p : Part) (q : Nat) : State :=
  let i := s.inst o.iid
  let older := s.ops.any fun (x : PendOp) => x.iid == o.iid && decide (x.id < o.id) &&
    (match x.ins with | .sqpush _ _ q' => q' == q | _ => false)
  if older then s
  else
    let (ok, s) := s.releaseAt o p 7
    if !ok then s
    else
      let both := s.pairedStage i
      (s.modQueue i.launch q fun x => (i.sides (both x.consumer)).foldl (fun (x : StageQ) t => x.put t (x.held t ++ [p.args.drop 3])) x).partDone
        o.id p.tid

/-- Whether no instance of a stage can start or run any more: a queue-driven one, once its queue is empty and the queue's
producer is over. There are at most 16 stages. -/
def stageOverN (s : State) (l : Launch) : Nat → Nat → Bool
  | 0, _ => true
  | n + 1, st =>
    (l.dead || match l.stages[st]? with
      | none => true
      | some x => x.placed == x.total && x.pendGang.isEmpty && (!x.queued ||
          match l.queues.find? fun (q : StageQ) => q.consumer == st with
          | none => true
          | some q => q.recs.isEmpty && stageOverN s l n q.producer)) &&
    s.insts.all (fun p => p.2.kind != .stage || p.2.launch != l.id || p.2.stage != st || p.2.ths.all fun t => t.2.status == .exited) &&
    s.saved.all (fun (v : Saved) => v.inst.launch != l.id || v.inst.stage != st || v.inst.ths.all fun t => t.2.status == .exited)
def State.stageOver (s : State) (l : Launch) (st : Nat) : Bool := stageOverN s l 16 st

/-- SQPOP holds the Guide on an empty queue until a record comes or none can come; the choice of the consumer is
logged. -/
def execSqpop (c : Ctl) (pp d q : Nat) (s : State) :=
  inClause s fun is =>
    let regs := s.sqRegs (s.inst is.iid) q d false
    s.issueIns is (.sqpop c pp d q) c regs fun s is =>
      let rs := s.runs is c
      let i := s.inst is.iid
      if rs.isEmpty then .go (s.startOp is (.sqpop c pp d q) c [] [])
      else match s.sqCheck i q d false, s.launchOf i with
        | .error e, _ => .stay (s.trapAll is e 0x2C7 0)
        | .ok _, none => .stay s
        | .ok x, some l =>
          (match x.held i.trailing with
            | [] =>
              if !s.stageOver l x.producer then .stay s
              else
                let (s, ps) := partPer (fun _ _ _ => []) s is rs
                .go (s.startOp is (.sqpop c pp d q) c ps [])
            | r :: rest =>
              let (ok, s) := s.gate i.ctx (logSrc l.die 3 0) 0x0A (bytesOf 4 (x.num i.trailing) ++ bytesOf 1 q ++ bytesOf 4 i.no)
              if !ok then .stay s
              else
                let s := s.modQueue i.launch q fun x => (x.put i.trailing rest).count i.trailing
                let (s, ps) := partPer (fun _ _ _ => r) s is rs
                .go (s.startOp is (.sqpop c pp d q) c ps regs))
def State.sqpopStep (s : State) (o : PendOp) (p : Part) (pp d : Nat) : State :=
  let s := s.acquireAt o.iid 7
  if p.args.isEmpty then s.partWrites o.id p.tid [(.p p.tid pp, 0)] 0
  else s.partWrites o.id p.tid ((.p p.tid pp, 1) :: (List.range p.args.length).map fun k => (.g (d + k), p.arg k)) 0

/-! ### GMOV (R162) -/

def execGmov (c : Ctl) (g : GPart) (d : Nat) (b : BSrc) (s : State) :=
  pureFixed (.gmov c g d b) c 3 (fun s is r =>
    let x := s.srcB is r .n64 b
    let old := s.latest is (.g d)
    let y := match g with
      | .full => x
      | .lo => pairOf x (old >>> 32)
      | .hi => pairOf old x
    [⟨.g d, y, false⟩]) s

end Sys2Proof.Machine
end

