-- ==== Sys2Proof/Machine/Pass.lean ====
section
/-! DEFINITION. The arithmetic of a pass (R77 to R80, R169, R175, R178, R184, R185). -/
namespace Sys2Proof.Machine

/-! ### Shapes (R169) -/

def shapeM (shape : Nat) : Nat := if shape = 7 then 16 else if shapeTall shape then 64 else 32
def shapeN (shape : Nat) : Nat := if shapeWide shape then 64 else 32
/-- Bits of an element, and K. -/
def elemWidth (t : MTy) : Nat :=
  match t with
  | .mxf4 | .i4o => 4
  | .e4m3 | .e5m2 | .i8 => 8
  | .f16 | .bf16 => 16
def shapeK (t : MTy) (shape : Nat) : Nat := 32 * shapeBlocks shape * 4 / elemWidth t
def bytesA (shape : Nat) : Nat := shapeM shape * (16 * shapeBlocks shape)
def bytesB (shape : Nat) : Nat := shapeN shape * (16 * shapeBlocks shape)
/-- Engine cycles. -/
def shapeCycles (shape : Nat) : Nat := shapeM shape * shapeN shape * shapeBlocks shape / 512

/-! ### Operand streams (R175, R185) -/

def elemIndex (k r c : Nat) : Nat := ((r / 4) * (k / 16) + c / 16) * 64 + (c % 16) * 4 + r % 4
/-- The w bits of an element of a stream with K columns. -/
def elemBits (bs : List Byte) (w k r c : Nat) : Nat :=
  let bit := elemIndex k r c * w
  if w = 16 then (nthByte bs (bit / 8)).toNat + 256 * (nthByte bs (bit / 8 + 1)).toNat
  else (nthByte bs (bit / 8)).toNat / 2 ^ (bit % 8) % 2 ^ w
/-- Elem of R184. -/
def elemVal (bs : List Byte) (t : MTy) (k r c : Nat) : FVal :=
  let x := elemBits bs (elemWidth t) k r c
  match t with
  | .mxf4 => let h := e2m1Half x; .num (decide (h < 0)) h.natAbs (-1)
  | .i4o =>
    let p := i4oDecode (elemBits bs 4 k r (c / 2 * 2) + 16 * elemBits bs 4 k r (c / 2 * 2 + 1))
    if c % 2 = 0 then p.1 else p.2
  | .e4m3 => Fmt.e4m3.value false x
  | .e5m2 => Fmt.e5m2.value false x
  | .i8 => let v := valI 8 true x; .num (decide (v < 0)) v.natAbs 0
  | .f16 => Fmt.f16.value false x
  | .bf16 => Fmt.bf16.value false x

/-! ### One element (R78 to R80) -/

/-- The value of a block after its scales. -/
def BlockVal.scale (v : BlockVal) (e : Int) : BlockVal :=
  match v with
  | .num s q => .num s (q + e)
  | v => v

/-- One block: the element pairs, the scale codes of its row and column. -/
def passBlock (f : MmaF) (c : Nat) (ab : List (FVal × FVal)) (sa sb : Nat) : Nat × PassEv :=
  if f.ta == .i8 then
    match blockSum false false ab with
    | .num s e => accumI c (s * (2 ^ e.toNat : Nat))
    | _ => (c, ⟨false, false, false⟩)
  else
    let bad := f.ta.fourBit && (sa == 255 || sb == 255)
    let v : BlockVal :=
      if bad then (if f.nz then .num 0 0 else .nan)
      else (blockSum (f.ta == .bf16) f.nz ab).scale (if f.ta.fourBit then (sa : Int) - 127 + ((sb : Int) - 127) else 0)
    accumF c v

def PassEv.or (a b : PassEv) : PassEv := ⟨a.inv || b.inv, a.sat || b.sat, a.ovf || b.ovf⟩

/-- PassElement: the blocks in ascending order; `a` and `b` give the elements of the row and of the column, `sa` and `sb`
the scale codes by block. -/
def passElement (f : MmaF) (c : Nat) (a b : List FVal) (sa sb : List Nat) : Nat × PassEv :=
  (List.range (shapeK f.ta f.shape / 32)).foldl (fun acc k =>
    let (x, e) := passBlock f acc.1 (List.zip ((a.drop (32 * k)).take 32) ((b.drop (32 * k)).take 32)) (sa.getD k 0) (sb.getD k 0)
    (x, acc.2.or e)) (c, ⟨false, false, false⟩)

/-- What the NaN count gains in NZ mode: the NaN elements and the 0xFF scale codes of the operand data. -/
def nanCount (f : MmaF) (as bs : List (List FVal)) (sas sbs : List (List Nat)) : Nat :=
  if f.nz then
    (as.flatten.filter FVal.isNan).length + (bs.flatten.filter FVal.isNan).length +
      (if f.ta.fourBit then (sas.flatten.filter (· == 255)).length + (sbs.flatten.filter (· == 255)).length else 0)
  else 0

/-- A status word with a pass's events (R180). -/
def statusOr (w : Word) (e : PassEv) (n : Nat) : Word :=
  let count := min 65535 (w.toNat / 65536 + n)
  let bits := (if e.ovf then 1 else 0) ||| (if e.sat then 2 else 0) ||| (if e.inv then 4 else 0)
  BitVec.ofNat 32 (count * 65536) ||| ((w ||| bits) &&& 7)

end Sys2Proof.Machine
end

