-- ==== Sys2Proof/Machine/Hash.lean ====
section
/-!
DEFINITION. SHAKE256 as FIPS 202 and Ed448 as RFC 8032 define them, which R292, R294 and R320 name, on lists of bytes. Byte 0 of a
string is its first, and bit 0 of a byte is its least significant (log entry 21).
-/
namespace Sys2Proof.Machine

/-! ### SHAKE256 -/

def rotl64 (x n : Nat) : Nat := x * 2 ^ n % 2 ^ 64 + x / 2 ^ (64 - n)

/-- The rotation of lane x + 5y, and the constants of the rounds. -/
def keccakRot : List Nat := [0, 1, 62, 28, 27, 36, 44, 6, 55, 20, 3, 10, 43, 25, 39, 41, 45, 15, 21, 8, 18, 2, 61, 56, 14]
def keccakRc : List Nat :=
  [0x0000000000000001, 0x0000000000008082, 0x800000000000808A, 0x8000000080008000, 0x000000000000808B, 0x0000000080000001,
   0x8000000080008081, 0x8000000000008009, 0x000000000000008A, 0x0000000000000088, 0x0000000080008009, 0x000000008000000A] ++
  [0x000000008000808B, 0x800000000000008B, 0x8000000000008089, 0x8000000000008003, 0x8000000000008002, 0x8000000000000080,
   0x000000000000800A, 0x800000008000000A, 0x8000000080008081, 0x8000000000008080, 0x0000000080000001, 0x8000000080008008]

/-- One round of the permutation: theta, then rho and pi, then chi, then iota. -/
def keccakRound (a : List Nat) (rc : Nat) : List Nat :=
  let at_ (l : List Nat) (x y : Nat) : Nat := l.getD (x % 5 + 5 * (y % 5)) 0
  let c := (List.range 5).map fun x => (List.range 5).foldl (fun v y => v ^^^ at_ a x y) 0
  let d := (List.range 5).map fun x => at_ c (x + 4) 0 ^^^ rotl64 (at_ c (x + 1) 0) 1
  let b := (List.range 25).map fun k =>
    let x := k % 5 + 3 * (k / 5)
    rotl64 (at_ a x k ^^^ at_ d x 0) (at_ keccakRot x k)
  let e := (List.range 25).map fun k => at_ b k (k / 5) ^^^ ((2 ^ 64 - 1 - at_ b (k + 1) (k / 5)) &&& at_ b (k + 2) (k / 5))
  (e.headD 0 ^^^ rc) :: e.drop 1
def keccak (a : List Nat) : List Nat := keccakRc.foldl keccakRound a

/-- The message with its suffix and its padding, a whole number of blocks of 136 bytes. -/
def shakePad (bs : List Byte) : List Byte :=
  let n := 136 - bs.length % 136
  bs ++ (if n = 1 then [0x9F] else 0x1F :: List.replicate (n - 2) 0 ++ [0x80])

/-- The first n bytes squeezed. -/
def shake256 (n : Nat) (bs : List Byte) : List Byte :=
  let m := shakePad bs
  let a := (List.range (m.length / 136)).foldl (fun (a : List Nat) k =>
    keccak (a.mapIdx fun j v => if j < 17 then v ^^^ leNat ((m.drop (136 * k + 8 * j)).take 8) else v)) (List.replicate 25 0)
  let out (a : List Nat) : List Byte := (a.take 17).flatMap (leBytes 8)
  (((List.range ((n + 135) / 136)).foldl (fun (z : List Byte × List Nat) _ => (z.1 ++ out z.2, keccak z.2)) ([], a)).1).take n

/-! ### Ed448 -/

/-- The field, the curve constant, the order of the base point and the base point. -/
def edP : Nat := 2 ^ 448 - 2 ^ 224 - 1
def edD : Nat := edP - 39081
def edL : Nat := 2 ^ 446 - 13818066809895115352007386748515426880336692474882178609894547503885
def edBx : Nat :=
  224580040295924300187604334099896036246789641632564134246125461686950415467406032909029192869357953282578032075146446173674602635247710
def edBy : Nat :=
  298819210078481492676017930443930673437544040154080242095928241372331506189835876003536878655418784733982303233503462500531545062832660

/-- The sum of two points in projective coordinates. -/
def edAdd (p q : Nat × Nat × Nat) : Nat × Nat × Nat :=
  let neg (x y : Nat) : Nat := (x + edP - y % edP) % edP
  let a := p.2.2 * q.2.2 % edP
  let b := a * a % edP
  let c := p.1 * q.1 % edP
  let d := p.2.1 * q.2.1 % edP
  let e := edD * c % edP * d % edP
  let h := (p.1 + p.2.1) * (q.1 + q.2.1) % edP
  (a * neg b e % edP * neg (neg h c) d % edP, a * (b + e) % edP * neg d c % edP, neg b e * (b + e) % edP)

/-- A multiple of the base point. -/
def edMul (s : Nat) : Nat × Nat × Nat :=
  (List.range 448).reverse.foldl (fun q k => let q := edAdd q q; if s.testBit k then edAdd q (edBx, edBy, 1) else q) (0, 1, 1)

def edInv (z : Nat) : Nat :=
  (List.range 448).reverse.foldl (fun v k => let v := v * v % edP; if (edP - 2).testBit k then v * z % edP else v) 1

/-- A point as 57 bytes: y, and the lowest bit of x as the highest bit of the last byte. -/
def edEncode (q : Nat × Nat × Nat) : List Byte :=
  let z := edInv q.2.2
  leBytes 57 (q.2.1 * z % edP + q.1 * z % edP % 2 * 2 ^ 455)

/-- The secret scalar of a seed of 57 bytes, and its prefix. -/
def edSecret (seed : List Byte) : Nat × List Byte :=
  let h := shake256 114 seed
  (leNat (h.take 56) / 4 * 4 % 2 ^ 447 + 2 ^ 447, h.drop 57)

def ed448Public (seed : List Byte) : List Byte := edEncode (edMul (edSecret seed).1)

/-- A signature of 114 bytes with an empty context string. -/
def ed448Sign (seed msg : List Byte) : List Byte :=
  let (s, pre) := edSecret seed
  let dom : List Byte := [0x53, 0x69, 0x67, 0x45, 0x64, 0x34, 0x34, 0x38, 0, 0]
  let r := leNat (shake256 114 (dom ++ pre ++ msg)) % edL
  let rb := edEncode (edMul r)
  let k := leNat (shake256 114 (dom ++ rb ++ ed448Public seed ++ msg)) % edL
  rb ++ leBytes 57 ((r + k * s) % edL)

end Sys2Proof.Machine
end

