-- ==== Sys2Proof/Machine/Matrix.lean ====
section
/-! DEFINITION. Group 0xC, the matrix engine (R169 to R193). -/
namespace Sys2Proof.Machine

/-! ### Posting (R170, R171, R177, R184, R186) -/

/-- The cluster that serves an instance. -/
def Inst.engine (i : Inst) : Nat := i.cluster
def lowestFree (m : SMap Rsv) : Option Nat := (List.range Config.rsvSize).find? fun k => (find? m k).isNone

/-- The rows that a part's threads own: half h of a joint request, both halves of a single one. -/
def State.rowMask (s : State) (is : Issue) (c : Ctl) (f : MmaF) (half : Option Nat) : BitVec 64 :=
  let ls := (s.runs is c).map (·.t.lane)
  (List.range (shapeM f.shape)).foldl (fun m i =>
    if ls.contains (i % 32) && (half.elim true fun h => i / 32 == h) then m ||| BitVec.twoPow 64 i else m) 0

/-- The scale registers of the lanes as the request reads them at its nominal slot (R39, R178). A result of its clause that is readable
only later is a write in the pending interval. -/
def State.scaleSeen (s : State) (is : Issue) (f : MmaF) : List (Loc × DWord) :=
  let i := s.inst is.iid
  (f.scales.flatMap fun r => (List.range r.n).map (r.first + ·)).flatMap fun n =>
    (is.reach.filter fun l => decide (n < (i.hw (i.hwOf l.tid)).n)).map fun l => (.v l.tid n, s.readFixed is (.v l.tid n) 0)

/-- An MLD on its way when a request on its tile is posted lies in the pending interval too (R179, R190): what it reads is
unspecified, and so is what the pass leaves. -/
def State.mldAhead (s : State) (iid tile : Nat) : Bool :=
  s.ops.any fun (o : PendOp) => o.iid == iid && !o.parts.isEmpty && (match o.ins with | .mld _ f => f.tile == tile | _ => false)
def State.markMld (s : State) (iid tile : Nat) : State :=
  { s with ops := s.ops.map fun (o : PendOp) =>
      if o.iid == iid && (match o.ins with | .mld _ f => f.tile == tile | _ => false) then
        { o with parts := o.parts.map fun (p : Part) => { p with done := 1 } } else o }

/-- The operation of a request: a part per home warp represented, which completes with the pass. -/
def State.startMma (s : State) (is : Issue) (ins : Instr) (c : Ctl) : State :=
  let parts : List Part := (byHw (s.inst is.iid) is.lanes).map fun g =>
    { tid := (lowest g.2).tid, lane := (lowest g.2).lane, args := [], done := 0, arrived := false }
  s.startOp is ins c parts []

/-- A new entry for a formed warp. DESIGN CHOICE (log entry 82): the first home warp by which R172 breaks a tie is that of the formed
warp's lowest lane position. -/
def State.newRsv (s : State) (is : Issue) (c : Ctl) (f : MmaF) (half : Option Nat) (op : Nat) : Rsv :=
  let i := s.inst is.iid
  { iid := is.iid, core := i.core % 4, part := match is.q with | .part _ p => p | _ => 0
    hw := i.hwOf (lowest is.lanes).tid, f, joint := half.isSome, half, posted := s.now, ops := [op]
    mask := s.rowMask is c f half, lanes0 := if half == some 1 then [] else is.reach
    lanes1 := if half == some 1 then is.reach else [], prio := f.pri, granted := none, timeout := false
    seen := s.scaleSeen is f, opA := [], opB := [], spoilTile := s.mldAhead is.iid f.tile, spoilRows := 0, spoilCols := 0
    posts := [(is.uid, is.slot)] }

def execMma (c : Ctl) (f : MmaF) (s : State) :=
  inClause s fun is => s.issueIns is (.mma c f) c [] fun s is =>
    let i := s.inst is.iid
    match lowestFree (s.cluster i.engine).resv with
    | none => .stay s
    | some k =>
      let r := s.newRsv is c f none s.nextId
      .go (((s.markMld is.iid f.tile).startMma is (.mma c f) c).modCluster i.engine fun x => { x with resv := sput x.resv k r })

/-- An entry that is still incomplete 2^20 cycles after its posting becomes complete as it stands (R186). -/
def Rsv.expire (r : Rsv) (now : Nat) : Rsv :=
  if r.half.isSome && decide (r.posted + 2 ^ 20 ≤ now) then { r with half := none, timeout := true } else r
def Cluster.expire (c : Cluster) (now : Nat) : Cluster := { c with resv := c.resv.map fun p => (p.1, p.2.expire now) }
/-- The time by which a context's incomplete entries expire: in replay the log says which do (R318). -/
def State.jointNow (s : State) (ctx : Nat) : Nat := if (s.ctx ctx).ccb.rplB then 0 else s.now
/-- The incomplete joint entry of an instance's tile that a part arriving now meets. -/
def State.jointOf (s : State) (iid : Nat) (f : MmaF) : Option (Nat × Rsv) :=
  (s.cluster (s.inst iid).engine).resv.find? fun p => p.2.iid == iid && p.2.f.tile == f.tile &&
    (p.2.expire (s.jointNow (s.inst iid).ctx)).half.isSome
/-- The rows of the second part are rows of the pass too: what the instructions on the tile that were issued since the first part leave
in them is unspecified (R179). -/
def Part.joinRows (p : Part) (ins : Instr) (tile : Nat) (m : BitVec 64) : Part :=
  match ins with
  | .mld .. | .mst .. | .mclr .. => { p with done := p.done ||| 2 * m.toNat }
  | .mswap _ t u =>
    { p with done := if t = tile then p.done ||| 2 * m.toNat else p.done
             args := if u = tile then [p.arg 0, p.arg 1 ||| m, 1] else p.args }
  | _ => p
def State.joinRows (s : State) (iid first tile : Nat) (m : BitVec 64) : State :=
  { s with ops := s.ops.map fun (o : PendOp) =>
      if o.iid == iid && decide (first < o.id) && (tilesOf o.ins).contains tile then
        { o with parts := o.parts.map fun (p : Part) => p.joinRows o.ins tile m } else o }

def execMmaj (c : Ctl) (f : MmaF) (h1 : Bool) (s : State) :=
  inClause s fun is => s.issueIns is (.mmaj c f h1) c [] fun s is =>
    let i := s.inst is.iid
    let h := h1.toNat
    match s.jointOf is.iid f with
    | some (k, r) =>
      if r.half == some h || r.f != f then .stay (s.trapAll is 5 0x301 0)
      else
        let m := s.rowMask is c f (some h)
        let q := { r with half := none, ops := r.ops ++ [s.nextId], mask := r.mask ||| m
                          lanes0 := if h1 then r.lanes0 else is.reach, lanes1 := if h1 then is.reach else r.lanes1
                          seen := r.seen ++ s.scaleSeen is f, posts := r.posts ++ [(is.uid, is.slot)] }
        .go (((s.joinRows is.iid (r.ops.headD 0) f.tile m).startMma is (.mmaj c f h1) c).modCluster i.engine fun x =>
          { x with resv := sput x.resv k q })
    | none =>
      match lowestFree (s.cluster i.engine).resv with
      | none => .stay s
      | some k =>
        let r := s.newRsv is c f (some h) s.nextId
        .go (((s.markMld is.iid f.tile).startMma is (.mmaj c f h1) c).modCluster i.engine fun x =>
          { x.expire (s.jointNow i.ctx) with resv := sput (x.expire (s.jointNow i.ctx)).resv k r })

/-- JOINT_ENTRY_TIMEOUT (R186): an entry incomplete for 2^20 cycles becomes complete as it stands. -/
def execJointEntryTimeout (cluster entry : Nat) (s : State) : Host.Outcome State Fault Refusal :=
  .next (s.modCluster cluster fun c => { c with resv := smod c.resv entry (fun (r : Rsv) => r.expire (s.jointNow (s.inst r.iid).ctx)) })

/-! ### The arbiter (R172, R176) -/

/-- The level of an ungranted entry at a time. -/
def Rsv.level (r : Rsv) (now : Nat) : Nat := min 3 (max r.prio (r.f.pri + (now - r.posted) / 4096))

/-- PRIORITY_PROMOTION: an entry rises one level after each 4096 cycles that it has waited. -/
def execPriorityPromotion (cluster entry : Nat) (s : State) : Host.Outcome State Fault Refusal :=
  .next (s.modCluster cluster fun c => { c with resv := smod c.resv entry (fun (r : Rsv) =>
    if r.granted.isNone && decide (r.prio < r.level s.now) then { r with prio := r.prio + 1 } else r) })

/-- Whether an entry may be granted: complete, the oldest of its tile, no earlier write of the tile outstanding (R190). -/
def State.eligible (s : State) (c : Cluster) (r : Rsv) : Bool :=
  let first := r.ops.headD 0
  r.granted.isNone && r.half.isNone &&
    !(c.resv.any fun p => p.2.granted.isNone && p.2.iid == r.iid && p.2.f.tile == r.f.tile && decide (p.2.ops.headD 0 < first)) &&
    !(s.ops.any fun (o : PendOp) => o.iid == r.iid && decide (o.id < first) && (match o.ins with
      | .mst .. | .mclr .. | .mswap .. => (tilesOf o.ins).contains r.f.tile
      | _ => false))

/-- The order of rules 2 to 4. -/
def Rsv.before (now : Nat) (a b : Rsv) : Bool :=
  let x := [3 - a.level now, a.posted, a.core, a.part, a.hw, a.ops.headD 0]
  let y := [3 - b.level now, b.posted, b.core, b.part, b.hw, b.ops.headD 0]
  decide (x ≤ y)

/-- The record of a grant (R316, type 0x06). -/
def State.grantRec (s : State) (entry : Nat) (r : Rsv) : List Byte :=
  bytesOf 1 entry ++ bytesOf 1 (r.core + 4 * r.part) ++ bytesOf 1 r.f.tile ++ bytesOf 1 r.hw ++ bytesOf 4 (s.inst r.iid).no ++
    bytesOf 1 r.timeout.toNat

/-- The rows of an operand of R rows that lie on bytes that were not committed. -/
def openRows (t : MTy) (shape rows : Nat) (bs : List (Option Byte)) : BitVec 64 :=
  let k := shapeK t shape
  let w := elemWidth t
  (List.range rows).foldl (fun m r =>
    if (List.range k).any fun c =>
      let bit := elemIndex k r c * w
      (bs.getD (bit / 8) none).isNone || (w == 16 && (bs.getD (bit / 8 + 1) none).isNone)
    then m ||| BitVec.twoPow 64 r else m) 0

/-- Ends a request: its flags clear. -/
def State.rsvEnd (s : State) (cluster entry : Nat) (r : Rsv) : State :=
  let s := s.modCluster cluster fun c => { c with resv := sdel c.resv entry }
  r.ops.foldl (fun s id => match s.op? id with
    | none => s
    | some o => o.parts.foldl (fun s p => s.partDone id p.tid) s) s

/-- The grant of an entry: its bytes leave the FIFOs, and the engine is busy; a request without rows completes. -/
def State.grant (s : State) (cluster entry : Nat) (r : Rsv) : State :=
  let na := bytesA r.f.shape
  let nb := bytesB r.f.shape
  let a := (s.fifo cluster r.f.fa).peek na
  let s := s.setFifo cluster r.f.fa ((s.fifo cluster r.f.fa).consume na)
  let b := (s.fifo cluster r.f.fb).peek nb
  let s := s.setFifo cluster r.f.fb ((s.fifo cluster r.f.fb).consume nb)
  if r.mask = 0 then s.rsvEnd cluster entry r
  else
    let val (base : Nat) (xs : List (Option Byte)) : List Byte :=
      (List.range xs.length).map fun k => (xs.getD k none).getD ((Config.openRead s.fresh (8 * (base + k) + 6)).setWidth 8)
    let r := { r with granted := some s.now, opA := val 0 a, opB := val na b
                      spoilRows := openRows r.f.ta r.f.shape (shapeM r.f.shape) a
                      spoilCols := openRows r.f.tb r.f.shape (shapeN r.f.shape) b }
    s.modCluster cluster fun c => { c with busy := s.now + shapeCycles r.f.shape, resv := sput c.resv entry r }

/-- In replay, an incomplete entry that the log's next grant says has timed out becomes complete as it stands (R186, R318). -/
def State.followTimeout (s : State) (cluster : Nat) : State :=
  let src := logSrc (cluster / Config.clustersPerDie) 2 (cluster % Config.clustersPerDie)
  let meant (p : Nat × Rsv) : Bool :=
    let ctx := s.ctx (s.inst p.2.iid).ctx
    p.2.half.isSome && ctx.ccb.rplB && (find? ctx.log.next src).elim false fun n =>
      logChosen n.2 == logChosen (s.logRec 0 src 0x06 (s.grantRec p.1 { p.2 with timeout := true }))
  let ended (p : Nat × Rsv) : Nat × Rsv := if meant p then (p.1, { p.2 with half := none, timeout := true }) else p
  if (s.cluster cluster).resv.any meant then s.modCluster cluster fun c => { c with resv := c.resv.map ended } else s

/-- ARBITER_GRANT: when the engine can start a pass, the arbiter grants an entry by the rules of R172, in replay the one
that the log names. -/
def execArbiterGrant (cluster : Nat) (s : State) : Host.Outcome State Fault Refusal :=
  let s := s.followTimeout cluster
  let c := s.cluster cluster
  if s.now < c.busy then .next s
  else
    let es := (c.resv.filter fun p => s.eligible c p.2).insertionSort fun a b => a.2.before s.now b.2
    let src := logSrc (cluster / Config.clustersPerDie) 2 (cluster % Config.clustersPerDie)
    -- in replay the request of the next record, else the oldest one of its identity
    let agrees (f : List Byte → List Byte) (p : Nat × Rsv) : Bool :=
      let ctx := s.ctx (s.inst p.2.iid).ctx
      !ctx.ccb.rplB || (find? ctx.log.next src).elim false fun n => f n.2 == f (s.logRec 0 src 0x06 (s.grantRec p.1 p.2))
    match (es.find? (agrees logChosen)).orElse fun _ => es.find? (agrees logIdent) with
    | none => .next s
    | some (k, r) =>
      let (ok, s) := s.gate (s.inst r.iid).ctx src 0x06 (s.grantRec k r)
      if ok then .next (s.grant cluster k r) else .next s

/-! ### The pass (R173, R178, R184) -/

/-- The register of a lane that holds the scale of a row or column in a block (R178). -/
def scaleAt (ls : List LaneT) (reg sel row blk : Nat) : Option Loc :=
  (ls.find? fun l => l.lane == row % 32).map fun l => .v l.tid (reg + 2 * (row / 32) + (sel + blk) / 4)
/-- The scale code of a row or column in a block: a byte of the lane's register as the request has read it, 0 where the lane holds no
thread. -/
def Rsv.scaleCode (r : Rsv) (ls : List LaneT) (reg sel row blk : Nat) : Nat :=
  match (scaleAt ls reg sel row blk).bind fun l => r.seen.find? fun p => p.1 == l with
  | none => 0
  | some p => p.2.toNat / 2 ^ (8 * ((sel + blk) % 4)) % 256

/-- The lanes whose registers hold the scales of row i, and those of the columns (R186). -/
def Rsv.rowLanes (r : Rsv) (i : Nat) : List LaneT :=
  if r.joint && decide (32 ≤ i) then r.lanes1 else if r.lanes0.isEmpty && !r.joint then r.lanes1 else r.lanes0
def Rsv.colLanes (r : Rsv) : List LaneT := if r.lanes0.isEmpty then r.lanes1 else r.lanes0

/-- Whether a register that holds a scale of a row or column has been written since the posting (R179). -/
def Rsv.scaleWritten (r : Rsv) (ls : List LaneT) (reg sel row : Nat) : Bool :=
  r.f.ta.fourBit && (List.range (shapeK r.f.ta r.f.shape / 32)).any fun b =>
    (scaleAt ls reg sel row b).elim false r.wrote.contains

def accKey (tile i j : Nat) : Nat := tile * 4096 + 64 * i + j

/-- The results of a pass: the new elements of its rows, its events and its NaN count. -/
def State.passRun (s : State) (r : Rsv) : SMap Word × PassEv × Nat :=
  let f := r.f
  let m := shapeM f.shape
  let n := shapeN f.shape
  let k := shapeK f.ta f.shape
  let nb := k / 32
  let as := (List.range m).map fun i => (List.range k).map fun c => elemVal r.opA f.ta k i c
  let bs := (List.range n).map fun j => (List.range k).map fun c => elemVal r.opB f.tb k j c
  let sas := (List.range m).map fun i => (List.range nb).map fun b => r.scaleCode (r.rowLanes i) f.sa f.selA i b
  let sbs := (List.range n).map fun j => (List.range nb).map fun b => r.scaleCode r.colLanes f.sb f.selB j b
  let core := (s.inst r.iid).core
  let tile := s.rsvTile r
  let open_ (i j : Nat) : Word := (Config.openRead s.fresh (8 * (64 * i + j) + 7)).setWidth 32
  let rowBad (i : Nat) : Bool := r.spoilRows.getLsbD i || r.scaleWritten (r.rowLanes i) f.sa f.selA i
  let colBad (j : Nat) : Bool := r.spoilCols.getLsbD j || r.scaleWritten r.colLanes f.sb f.selB j
  let (acc, ev) := (List.range m).foldl (fun (st : SMap Word × PassEv) i =>
    if !r.mask.getLsbD i then st
    else (List.range 64).foldl (fun (st : SMap Word × PassEv) j =>
      if n ≤ j then (if r.spoilTile then (sset 0 st.1 (accKey tile i j) (open_ i j), st.2) else st)
      else
        let c : Word := sget 0 (s.core core).acc (accKey tile i j)
        let (x, e) := passElement f c.toNat (as.getD i []) (bs.getD j []) (sas.getD i []) (sbs.getD j [])
        let y : Word := if r.spoilTile || rowBad i || colBad j then open_ i j else BitVec.ofNat 32 x
        (sset 0 st.1 (accKey tile i j) y, st.2.or e)) st) ((s.core core).acc, ⟨false, false, false⟩)
  (acc, ev, nanCount f as bs sas sbs)

/-- A failed pass writes nothing (R258): each thread that owns one of its rows will consume the error at the first clause that waits
on the flag of its request. -/
def State.failPass (s : State) (r : Rsv) : State :=
  let owns (l : LaneT) : Bool := (List.range 64).any fun k => r.mask.getLsbD k && (r.rowLanes k).any fun x => x.tid == l.tid && x.lane == k % 32
  r.ops.foldl (fun s id => match (s.op? id).bind fun o => o.flag.map fun f => (o, f) with
    | none => s
    | some (o, f) => (o.lanes.filter owns).foldl (fun s l =>
        s.modTh r.iid l.tid fun t => { t with perr := (f :: t.perr).eraseDups }) s) s

/-- PASS_COMPLETE: the pass that was granted first writes its rows and its tile's status word, and its flags clear. -/
def execPassComplete (cluster entry : Nat) (s : State) : Host.Outcome State Fault Refusal :=
  let c := s.cluster cluster
  match find? c.resv entry with
  | none => .next s
  | some r =>
    match r.granted with
    | none => .next s
    | some t =>
      let first := c.resv.all fun p => p.1 == entry || p.2.granted.elim true fun u => decide (t ≤ u)
      if !first || decide (s.now < t + shapeCycles r.f.shape) then .next s
      else if r.failed then .next ((s.failPass r).rsvEnd cluster entry r)
      else
        let (acc, ev, n) := s.passRun r
        let core := (s.inst r.iid).core
        let tile := s.rsvTile r
        .next ((s.modCore core fun k =>
          { k with acc, tstat := sset 0 k.tstat tile (statusOr (sget 0 k.tstat tile) ev n) }).rsvEnd cluster entry r)

/-! ### MRDY, MWAIT (R187, R188) -/

/-- One part per home warp that has an active guard-true thread: for operations of a whole formed warp. -/
def partWarp (s : State) (is : Issue) (rs : List Run) : State × List Part := partHw (fun _ _ _ => []) s is rs

def execMrdy (c : Ctl) (fa fb shape : Nat) (s : State) := flagged (.mrdy c fa fb shape) c noMore partWarp noAfter s
/-- What posted, ungranted entries will consume of a FIFO. -/
def Cluster.claimed (c : Cluster) (ff : Nat) : Nat :=
  (c.resv.map fun p => if p.2.granted.isSome then 0
    else (if p.2.f.fa = ff then bytesA p.2.f.shape else 0) + (if p.2.f.fb = ff then bytesB p.2.f.shape else 0)).sum
def State.ready (s : State) (cluster fa fb shape : Nat) : Bool :=
  let c := s.cluster cluster
  let has (ff need : Nat) : Bool := decide (c.claimed ff + need ≤ (s.fifo cluster ff).comm)
  if fa = fb then has fa (bytesA shape + bytesB shape) else has fa (bytesA shape) && has fb (bytesB shape)
def State.allParts (s : State) (o : PendOp) : State := o.parts.foldl (fun s p => s.partDone o.id p.tid) s
def State.mrdyStep (s : State) (o : PendOp) (fa fb shape : Nat) : State :=
  if s.ready (s.inst o.iid).engine fa fb shape then s.allParts o else s
/-- MRDY_READY: the condition of an MRDY holds. -/
def execMrdyReady (op : Nat) (s : State) : Host.Outcome State Fault Refusal :=
  match s.op? op with
  | none => .next s
  | some o => match o.ins with
    | .mrdy _ fa fb shape => .next (s.mrdyStep o fa fb shape)
    | _ => .next s

def execMwait (c : Ctl) (t : Nat) (s : State) := flagged (.mwait c t) c noMore partWarp noAfter s
def execMwaitAll (c : Ctl) (s : State) := flagged (.mwaitAll c) c noMore partWarp noAfter s
/-- MWAIT completes when the entries posted before it on its tile, or on every tile, have. -/
def State.mwaitStep (s : State) (o : PendOp) (t : Option Nat) : State :=
  if (s.cluster (s.inst o.iid).engine).resv.any fun p => p.2.iid == o.iid && decide (p.2.ops.headD 0 < o.id) &&
      t.elim true (· == p.2.f.tile) then s
  else s.allParts o

/-! ### Tile data (R189 to R191) -/

/-- An earlier instruction on a tile of the same instance has not completed (R190). -/
def State.tileBusy (s : State) (o : PendOp) : Bool :=
  s.ops.any fun (q : PendOp) => q.iid == o.iid && decide (q.id < o.id) && (match q.ins with
    | .mld .. | .mst .. | .mclr .. | .mswap .. => (tilesOf q.ins).any fun t => (tilesOf o.ins).contains t
    | _ => false)
/-- What a tile instruction overlaps at its issue (R179, R190): 0 where no request on the tile is pending, else one more than twice
the mask of the rows that the pending passes update. A request posted later waits for the writers of its tile. -/
def State.tileMark (s : State) (i : Inst) (tile : Nat) : Nat :=
  let rs := (s.cluster i.engine).resv.filter fun p => p.2.core == i.core % 4 && s.rsvTile p.2 == i.accBase + tile
  if rs.isEmpty then 0 else 1 + 2 * (rs.foldl (fun (m : BitVec 64) p => m ||| p.2.mask) 0).toNat
/-- Whether a mark holds a row. -/
def markRow (mark row : Nat) : Bool := mark.testBit (row + 1)
/-- Whether an operation has a thread that acts: without one it has no effect on a tile (R191, R193). -/
def State.acts (s : State) (id : Nat) : Bool := (s.op? id).elim false fun o => !o.parts.isEmpty
/-- At its issue an overlapping instruction makes the rows of the pending passes unspecified; its parts keep the mark. -/
def tileIssue (tile : Nat) (s : State) (is : Issue) (id : Nat) : State :=
  let i := s.inst is.iid
  let m := s.tileMark i tile
  if m = 0 || !s.acts id then s
  else (s.accSpoil i.core (i.accBase + tile)).modOp id fun o => { o with parts := o.parts.map fun (p : Part) => { p with done := m } }
/-- An element whose value is unspecified. -/
def State.openElem (s : State) (row col : Nat) : Word := (Config.openRead s.fresh (8 * (64 * row + col) + 7)).setWidth 32

def execMld (c : Ctl) (f : MTile) (s : State) :=
  flagged (.mld c f) c noMore (partPer fun _ _ _ => []) (tileIssue f.tile) s
def State.mldStep (s : State) (o : PendOp) (p : Part) (f : MTile) : State :=
  let i := s.inst o.iid
  if s.tileBusy o then s
  else
    let row := p.lane + (if f.hi then 32 else 0)
    let vals := (List.range f.n).map fun k =>
      if p.done ≠ 0 then (s.openElem row k).setWidth 64
      else ((sget 0 (s.core i.core).acc (accKey (i.accBase + f.tile) row (f.col + k)) : Word)).setWidth 64
    s.partWrites o.id p.tid ((List.range f.n).map fun k => (.v p.tid (f.d + k), vals.getD k 0)) 0

def execMst (c : Ctl) (f : MTile) (s : State) :=
  flagged (.mst c f) c noMore (partPer fun s is r => s.ownRange is r f.d f.n) (tileIssue f.tile) s
def State.mstStep (s : State) (o : PendOp) (p : Part) (f : MTile) : State :=
  let i := s.inst o.iid
  if s.tileBusy o then s
  else
    let row := p.lane + (if f.hi then 32 else 0)
    let val (j : Nat) : Word := if markRow p.done row then s.openElem row (f.col + j) else (p.arg j).setWidth 32
    (s.modCore i.core fun k => { k with acc := (List.range f.n).foldl (fun m j =>
      sset 0 m (accKey (i.accBase + f.tile) row (f.col + j)) (val j)) k.acc }).partDone o.id p.tid

/-- A part per home warp that acts; the first of them does it, the others complete after it. -/
def partOnce (s : State) (is : Issue) (rs : List Run) : State × List Part :=
  let (s, ps) := partWarp s is rs
  (s, (List.range ps.length).map fun k => { ps.getD k default with args := [if k = 0 then 1 else 0] })
def Part.actor (p : Part) : Bool := p.arg 0 == 1
/-- Completes a part of an operation that acts once. -/
def State.onceStep (s : State) (o : PendOp) (p : Part) (act : State → State) : State :=
  if p.actor then (act s).partDone o.id p.tid
  else if o.parts.any Part.actor then s else s.partDone o.id p.tid

/-- The rows of a tile that a mark holds get unspecified elements. -/
def State.openTile (s : State) (core tile mark : Nat) : State :=
  if mark = 0 then s
  else s.modCore core fun k => { k with acc := (List.range 4096).foldl (fun m j =>
    if markRow mark (j / 64) then sset 0 m (tile * 4096 + j) (s.openElem (j / 64) (j % 64)) else m) k.acc }

def execMclr (c : Ctl) (w : ClrPart) (t : Nat) (s : State) := flagged (.mclr c w t) c noMore partOnce (tileIssue t) s
def State.mclrStep (s : State) (o : PendOp) (p : Part) (w : ClrPart) (t : Nat) : State :=
  let i := s.inst o.iid
  if s.tileBusy o then s
  else s.onceStep o p fun s =>
    let tile := i.accBase + t
    let s := s.modCore i.core fun k => { k with
      acc := if w == .st then k.acc else k.acc.filter fun e => e.1 / 4096 != tile
      tstat := if w == .dat then k.tstat else sdel k.tstat tile }
    if w == .st then s else s.openTile i.core tile p.done

/-- The marks of both tiles of an MSWAP: what it overlaps of the second one stands in its parts' second operand. One of a tile with
itself has no effect (R191). -/
def swapIssue (t u : Nat) (s : State) (is : Issue) (id : Nat) : State :=
  if t = u || !s.acts id then s
  else
  let m := s.tileMark (s.inst is.iid) u
  let s := tileIssue t s is id
  if m = 0 then s
  else (s.accSpoil (s.inst is.iid).core ((s.inst is.iid).accBase + u)).modOp id fun o =>
    { o with parts := o.parts.map fun (p : Part) => { p with args := [p.arg 0, BitVec.ofNat 64 (m / 2), 1] } }
def execMswap (c : Ctl) (t u : Nat) (s : State) := flagged (.mswap c t u) c noMore partOnce (swapIssue t u) s
/-- The words of two tiles exchanged; what is read of a tile under a pending request is unspecified. -/
def State.swapTiles (s : State) (m : SMap Word) (t u : Nat) (badT badU : Bool) : SMap Word :=
  (List.range 4096).foldl (fun m k =>
    let a := if badT then s.openElem (k / 64) (k % 64) else sget 0 m (t * 4096 + k)
    let b := if badU then s.openElem (64 + k / 64) (k % 64) else sget 0 m (u * 4096 + k)
    sset 0 (sset 0 m (t * 4096 + k) b) (u * 4096 + k) a) m
def State.mswapStep (s : State) (o : PendOp) (p : Part) (t u : Nat) : State :=
  let i := s.inst o.iid
  if s.tileBusy o then s
  else s.onceStep o p fun s =>
    let x := i.accBase + t
    let y := i.accBase + u
    let bad := p.arg 2 == 1
    if t = u then s
    else ((s.modCore i.core fun k => { k with
      acc := s.swapTiles k.acc x y (p.done != 0) bad
      tstat := sset 0 (sset 0 k.tstat x (sget 0 k.tstat y)) y (sget 0 k.tstat x) }).openTile i.core x p.done).openTile i.core y
        (if bad then 2 * (p.arg 1).toNat + 1 else 0)

def execMstat (c : Ctl) (d t : Nat) (s : State) := flagged (.mstat c d t) c noMore (partPer fun _ _ _ => []) noAfter s
/-- MSTAT acts once: every thread gets the word that its first part reads, with or without a pending pass's contributions, as the
pass completes before it or after (R179, R191). -/
def State.mstatStep (s : State) (o : PendOp) (p : Part) (d t : Nat) : State :=
  let i := s.inst o.iid
  let w : DWord := if p.args.isEmpty then ((sget 0 (s.core i.core).tstat (i.accBase + t) : Word)).setWidth 64 else p.arg 0
  let s := s.modOp o.id fun o => { o with parts := o.parts.map fun (q : Part) => { q with args := [w] } }
  s.partWrites o.id p.tid [(.v p.tid d, w)] 0

/-- FFSTAT (R192). -/
def execFfstat (c : Ctl) (d f : Nat) (s : State) :=
  pureFixed (.ffstat c d f) c 3 (fun s is r =>
    let q := s.fifo (s.inst is.iid).engine f
    [⟨.v r.t.tid d, BitVec.ofNat 64 q.comm, false⟩, ⟨.v r.t.tid (d + 1), BitVec.ofNat 64 q.waiting, false⟩]) s

end Sys2Proof.Machine
end

