-- ==== Sys2Proof/Machine/Resume.lean ====
section
/-! DEFINITION. Resuming parked threads (R131, R209, R267, R308). -/
namespace Sys2Proof.Machine

/-- A parked thread of a sub-group goes on at a header; one that a Consume has suspended does so at the return (R126). -/
def Thread.unpark (t : Thread) (sub : Nat) (h : DWord) : Thread :=
  let parked (x : Status) : Bool := match x with | .parked _ => true | _ => false
  if t.sub == sub && parked t.status then ({ t with status := .ready }).arriveAt h
  else match t.susp with
    | some u => if u.sub == sub && parked u.status then
        { t with susp := some { u with pc := h + 8, status := if t.meet == h then .held else .ready } } else t
    | none => t

/-- Whether a thread is parked in a sub-group, here or behind a Consume. -/
def Thread.parkedIn (t : Thread) (sub : Nat) : Bool :=
  let parked (x : Status) : Bool := match x with | .parked _ => true | _ => false
  (t.sub == sub && parked t.status) || (match t.susp with | some u => u.sub == sub && parked u.status | none => false)

/-- The cause of the park of a thread. -/
def Thread.parkCause (t : Thread) (sub : Nat) : Option ParkCause :=
  match t.status, t.susp with
  | .parked c, _ => if t.sub == sub then some c else none
  | _, some u => match u.status with
    | .parked c => if u.sub == sub then some c else none
    | _ => none
  | _, none => none

/-- Threads of a sub-group go on at a header: the sub-group's own flags are cleared, and those that stay parked keep it. -/
def State.resumeSub (s : State) (iid : Nat) (g : SubGroup) (tids : List Nat) (h : DWord) : State :=
  let i := s.inst iid
  let s := s.modInst iid fun i => { i with subs := i.subs.map fun (x : SubGroup) => if x.id == g.id then { x with flags := [] } else x }
  let s := tids.foldl (fun s t => s.modTh iid t fun th => th.unpark g.id h) s
  let held := tids.filter fun t => ((s.inst iid).th t).status == .held && (i.th t).status != .held
  (held.foldl (fun s t => s.sibling iid t) s).meetings iid g.hw

/-- A sub-group that no thread is in any more is gone. -/
def Inst.reapSubs (i : Inst) : Inst :=
  { i with subs := i.subs.filter fun (g : SubGroup) => i.ths.any fun p =>
      p.2.sub == g.id || (match p.2.susp with | some u => u.sub == g.id | none => false) }

end Sys2Proof.Machine
end

