-- ==== Sys2Proof/Machine/Reliability.lean ====
section
/-!
DEFINITION. Group 0xE without the trace: containment and pair regions and their unwinding (R259 to R263, R273), error
injection (R264), repair (R213, R267), and the steps in which errors arise and compared accesses match.
-/
namespace Sys2Proof.Machine

/-! ### Opening a region (R261) -/

def State.snapOf (s : State) (is : Issue) (n tid : Nat) : Snap :=
  let t := (s.inst is.iid).th tid
  { tid, regs := (List.range n).map fun r => (s.latest is (.v tid r)).setWidth 32
    preds := (List.range 48).foldl (fun m k => if k != 0 && (s.latest is (.p tid k)).getLsbD 0 then m ||| BitVec.twoPow 48 k else m) 0
    meet := s.latest is (.meet tid), fp := (s.latest is (.fp tid)).setWidth 5, rsc := t.rsc, slots := t.slots, pended := t.pended }

/-- The scalar registers of a home warp after the instructions that have issued. -/
def scalNow (is : Issue) (hw : Nat) (m : SMap Word) : SMap Word :=
  is.writes.reverse.foldl (fun m w => match w.loc with
    | .s h n => if h = hw && !w.done then sset 0 m n (w.val.setWidth 32) else m
    | _ => m) m

def State.newRegion (s : State) (is : Issue) (id hw : Nat) (mask : DWord) (strict pair : Bool) (slack : Nat) (handler : DWord)
    (rec : Nat) : Region :=
  let i := s.inst is.iid
  let w := i.hw hw
  let members := i.maskTids hw mask
  { id, since := s.nextId, members, strict, pair, slack, handler, recReg := rec, count := w.n, snaps := members.map fun t => s.snapOf is w.n t
    scal := scalNow is hw w.scal, basket := w.basket, undo := [], atomics := 0, remotes := 0, closed := [] }

/-- The containment slots that the regions of a context hold, those of its saved instances among them (R278). -/
def State.slotsHeld (s : State) (c : Nat) : List Nat :=
  (svals s.insts ++ s.saved.map (·.inst)).flatMap fun (j : Inst) => if j.kind == .stage && j.ctx == c then
    (svals j.hws).flatMap fun w => w.regions.map (·.slot) else []
/-- A region opens unless the home warp has four, or the context has fewer free containment slots than it takes (R278). -/
def State.canOpen (s : State) (iid hw : Nat) (n : Nat := 1) : Bool :=
  let i := s.inst iid
  decide ((i.hw hw).regions.length < 4) && decide ((s.slotsHeld i.ctx).length + n ≤ (s.ctx i.ctx).ccb.slots)
/-- The region takes the lowest free slot and writes its snapshot there. -/
def State.openRegion (s : State) (iid hw : Nat) (r : Region) : State :=
  let c := (s.inst iid).ctx
  let held := s.slotsHeld c
  let slot := ((List.range (held.length + 1)).find? fun k => !held.contains k).getD 0
  let r := { r with since := s.nextId, slot }
  let s := (s.spoilSlot c r).modHw iid hw fun w => { w with regions := w.regions ++ [r] }
  if r.pair then r.members.foldl (fun s t => s.modTh iid t fun th => { th with pairN := 0, relN := 0 }) s else s

/-- The region of one home warp opens, or does not; its part keeps the mask of the members and which it was. -/
def State.openAt (s : State) (is : Issue) (id : Nat) (strict : Bool) (handler : DWord) (a : Nat) (p : Part) : State :=
  let hw := (s.inst is.iid).hwOf p.tid
  let r := s.newRegion is id hw (p.arg 0) strict false 0 handler a
  let ok := s.canOpen is.iid hw
  let s := s.modOp id fun o => o.modPart p.tid fun p => { p with args := [p.arg 0, if ok then 1 else 0] }
  if ok then s.openRegion is.iid hw r else s
/-- CREG.OPEN: a part per home warp with the mask of its members. -/
def execCregOpen (c : Ctl) (strict : Bool) (pd a : Nat) (off : BitVec 32) (s : State) :=
  flagged (.cregOpen c strict pd a off) c noMore
    (partHw fun s is r => [hwMask s is c ((s.inst is.iid).hwOf r.t.tid)])
    (fun s is id => (((s.op? id).map (·.parts)).getD []).foldl (fun s p => s.openAt is id strict (is.direct off) a p) s) s
/-- pD of the members. -/
def State.openOut (s : State) (o : PendOp) (p : Part) (pd : Nat) (ok : Bool) : State :=
  let i := s.inst o.iid
  let ts := (i.maskTids (i.hwOf p.tid) (p.arg 0)).filter fun t => (i.th t).status != .exited
  (s.asyncWrites o.iid (ts.map fun t => (.p t pd, if ok then 1 else 0))).partDone o.id p.tid
def State.cregOpenStep (s : State) (o : PendOp) (p : Part) (pd : Nat) : State := s.openOut o p pd (p.arg 1 == 1)

/-- PAIR.OPEN (R263): in a paired stage the region waits for the other copy, elsewhere it is CREG.OPEN. -/
def execPairOpen (c : Ctl) (pd a : Nat) (off : BitVec 16) (slack : Nat) (s : State) : Host.Outcome State Fault Refusal :=
  flagged (.pairOpen c pd a off slack) c noMore
    (fun s is rs => partHw (fun s is r =>
      hwMask s is c ((s.inst is.iid).hwOf r.t.tid) :: if (s.inst is.iid).paired then [2] else []) s is rs)
    (fun s is id => (((s.op? id).map (·.parts)).getD []).foldl (fun s p =>
      let h := is.hdrAt + 8 * off.signExtend 64
      let hw := (s.inst is.iid).hwOf p.tid
      if (s.inst is.iid).paired then
        let r := s.newRegion is id hw (p.arg 0) false true slack h a
        s.modHw is.iid hw fun w => { w with opening := some r }
      else s.openAt is id false h a p) s) s
/-- The part of one copy: with the other copy's part there too, both regions open, or neither. -/
def State.pairOpenStep (s : State) (o : PendOp) (p : Part) (pd : Nat) : State :=
  let i := s.inst o.iid
  let hw := i.hwOf p.tid
  if p.arg 1 != 2 then s.openOut o p pd (p.arg 1 == 1)
  else match i.partner with
    | none => s
    | some j =>
      match (i.hw hw).opening, ((s.inst j).hw hw).opening with
      | some r, some r' =>
        let ok := s.canOpen o.iid hw 2 && s.canOpen j hw 2
        let go (s : State) (iid : Nat) (r : Region) : State :=
          let s := s.modHw iid hw fun w => { w with opening := none }
          let s := if ok then s.openRegion iid hw r else s
          let set (p : Part) : Part :=
            if (s.inst iid).hwOf p.tid == hw then { p with args := [p.arg 0, if ok then 1 else 0] } else p
          s.modOp r.id fun o => { o with parts := o.parts.map set }
        go (go s o.iid r) j r'
      | _, _ => s

/-! ### Closing a region -/

/-- CREG.CLOSE and PAIR.CLOSE: the threads of each home warp arrive at the end of its innermost region. -/
def closeOp (ins : Instr) (c : Ctl) (s : State) : Host.Outcome State Fault Refusal :=
  flagged ins c noMore (fun s is rs => partHw (fun s is r =>
      let i := s.inst is.iid
      let hw := i.hwOf r.t.tid
      [hwMask s is c hw, BitVec.ofNat 64 (((i.hw hw).regions.getLast?).elim 0 (·.id + 1))]) s is rs)
    (fun s is id => (((s.op? id).map (·.parts)).getD []).foldl (fun s p =>
      let i := s.inst is.iid
      let hw := i.hwOf p.tid
      let ts := i.maskTids hw (p.arg 0)
      s.modHw is.iid hw fun w => { w with regions := w.regions.map fun (r : Region) =>
        if r.id + 1 == (p.arg 1).toNat then { r with closed := (r.closed ++ ts).eraseDups } else r }) s) s
def execCregClose (c : Ctl) (s : State) := closeOp (.cregClose c) c s
def execPairClose (c : Ctl) (s : State) := closeOp (.pairClose c) c s

def Region.over (r : Region) (i : Inst) : Bool :=
  r.members.all fun t => r.closed.contains t || (i.th t).status == .exited
/-- Whether accesses of a pair region still wait for their match or their performance. -/
def State.pairBusy (s : State) (iid hw : Nat) (r : Region) : Bool :=
  let i := s.inst iid
  (s.die (i.die iid)).cmp.any (fun (e : CmpEntry) => e.iid == iid && i.hwOf e.tid == hw && decide (r.since ≤ e.op)) ||
    s.ops.any fun (o : PendOp) => o.iid == iid && decide (r.since ≤ o.id) && (accKind o.ins).isSome && (spadPieces o.ins default).isEmpty &&
      o.parts.any fun (p : Part) => r.members.contains p.tid && accKind o.ins != some .load && p.seqNo != 0
/-- The dirty bytes that a region has put into the L1 of a trailing copy are dropped (R263). -/
def Inst.dropTrailing (i : Inst) (r : Region) : Inst :=
  if i.trailing then { i with l1 := i.l1.filter fun p => !(r.undo.any fun (u : UndoSec) => !u.spad && u.key == p.1) } else i

/-- The commit: once every live member has arrived, in a pair region in both copies with every access performed. -/
def State.closeStep (s : State) (o : PendOp) (p : Part) : State :=
  let i := s.inst o.iid
  let hw := i.hwOf p.tid
  match (i.hw hw).regions.getLast? with
  | none => s.partDone o.id p.tid
  | some r =>
    if !((i.hw hw).regions.any fun (x : Region) => x.id + 1 == (p.arg 1).toNat) then s.partDone o.id p.tid
    else if r.id + 1 != (p.arg 1).toNat || !r.over i || r.members.any (fun t => i.unwinding t) then s
    else
      let pop (s : State) (iid : Nat) (r : Region) : State := s.modInst iid fun i =>
        (i.modHw hw fun w => { w with regions := w.regions.filter fun (x : Region) => x.id != r.id }).dropTrailing r
      if !r.pair then (pop s o.iid r).partDone o.id p.tid
      else match i.partner with
        | none => (pop s o.iid r).partDone o.id p.tid
        | some j => match s.inst? j with
          | none => if s.pairBusy o.iid hw r then s else (pop s o.iid r).partDone o.id p.tid
          | some x => match (x.hw hw).regions.getLast? with
            | none => (pop s o.iid r).partDone o.id p.tid
            | some r' =>
              if !r'.pair then (pop s o.iid r).partDone o.id p.tid
              else if !r'.over x || s.pairBusy o.iid hw r || s.pairBusy j hw r' then s
              else (pop (pop s o.iid r) j r').partDone o.id p.tid

/-! ### The unwinding (R262) -/

/-- Logged sectors go back in the reverse order of logging. -/
def State.restoreSec (s : State) (iid : Nat) (u : UndoSec) : State :=
  let i := s.inst iid
  if u.spad then s.modCore i.core fun k =>
    { k with spad := (List.range 32).foldl (fun m j => sset 0 m (u.addr + j) (nthByte u.old j)) k.spad }
  else if i.trailing then s.modInst iid fun i => { i with l1 := sdel i.l1 u.key }
  else if u.key = 0 then s.setPaBytes u.addr u.old
  else
    let s := s.modInst iid fun i => { i with l1 := sdel i.l1 u.key }
    let c := s.ctrs u.addr
    s.sendHome iid u.key u.addr u.rights (s.crypt u.addr c.1 c.2 u.old) (BitVec.allOnes 32) c.1 c.2

/-- What goes on after an unwinding: commands on claims, flows, passes and requests that have no destination. -/
def outlives : Instr → Bool
  | .claimNew .. | .claimUse .. | .clrel .. | .flowReg .. | .flowImm .. | .flwait .. | .mma .. | .mmaj .. | .launch .. | .hdrain ..
  | .gkill .. | .electRel .. | .dqdone .. | .regshrink .. | .genOpen .. | .yield .. | .sample .. | .cntcapStart .. | .mst .. | .mclr ..
  | .mswap .. => true
  | _ => false
/-- What waits for an event that need not come: of members that unwind it ends, whenever it was issued. -/
def waitsOnly (ins : Instr) : Bool :=
  match ins with
  | .dqpop .. | .reggrow .. | .mrdy .. | .mwait .. | .mwaitAll .. => true
  | i => (groupOpc i).isSome

/-- The operations that threads have issued from a number on and have in flight end without effect; of sleeping threads the group
operations too. -/
def State.cancelOps (s : State) (iid since : Nat) (tids : List Nat) : State :=
  let i := s.inst iid
  let s := (s.ops.filter fun (o : PendOp) => o.iid == iid && !outlives o.ins &&
      (decide (since ≤ o.id) || waitsOnly o.ins)).foldl (fun s o =>
    (o.parts.filter fun (p : Part) => tids.contains p.tid).foldl (fun s p =>
      match o.ins with
      | .fred .. => if p.arrived then
          s.modOp o.id fun o => o.modPart p.tid fun p => { p with args := p.args.take 2 ++ [0] ++ p.args.drop 3 }
        else s.partDone o.id p.tid
      | .dqpop .. => (s.modCore i.core fun k =>
          { k with dqWait := k.dqWait.filter (· != (o.id, i.hwOf p.tid)) }).partDone o.id p.tid
      | .reggrow .. => (s.modHw iid (i.hwOf p.tid) fun w =>
          { w with grow := if (w.grow.map (·.op)) == some o.id then none else w.grow }).partDone o.id p.tid
      | _ => (s.dropWant (.op o.id p.tid)).partDone o.id p.tid) s) s
  s.modInst iid fun i => { i with
    gops := i.gops.map (fun (g : GroupOp) => { g with arrive := g.arrive.filter fun a => !tids.contains a.1 })
    elects := i.elects.map (fun (e : Election) => { e with sleep := e.sleep.filter fun a => !tids.contains a.1 }) }

/-- What goes on after an unwinding names no flag of the members any more (R274): the flags of a home warp's operations that none
but members have issued are counted down. -/
def State.freeFlags (s : State) (iid hw : Nat) (members : List Nat) : State :=
  let i := s.inst iid
  (s.ops.filter fun (o : PendOp) => o.iid == iid && (o.shares.any fun (x : Share) => x.hw == hw) &&
    o.lanes.all fun l => i.hwOf l.tid != hw || !l.active || members.contains l.tid).foldl (fun s o => s.closeShare o hw) s

/-- The restoring of one member (R157, R262 step 3). -/
def State.restoreMember (s : State) (iid hw : Nat) (r : Region) (x : Snap) : State :=
  let n := ((s.inst iid).hw hw).n
  let ws : List (Loc × DWord) := (List.range n).filterMap fun k =>
    if r.recReg ≤ k ∧ k < r.recReg + 8 then none
    else some (.v x.tid k, ((if k < r.count then x.regs.getD k 0 else (0 : Word))).setWidth 64)
  let s := s.asyncWrites iid ws
  let gone := (((s.inst iid).th x.tid).slots.filter fun g => g != 0 && !x.slots.contains g)
  let s := gone.foldl (fun s g => s.leaveGroup iid x.tid g) s
  s.modTh iid x.tid fun t => { t with preds := x.preds, meet := x.meet, fp := x.fp, rsc := x.rsc, slots := x.slots, pended := x.pended }

/-- The members of a region that have not exited. -/
def State.liveIn (s : State) (iid : Nat) (r : Region) : List Nat := r.members.filter fun t => ((s.inst iid).th t).status != .exited

/-- One region unwinds; its record names these lanes. -/
def State.unwindOne (s : State) (iid hw depth : Nat) (u : Uncorr) (mask : BitVec 32) (r : Region) : State :=
  let i := s.inst iid
  let live := s.liveIn iid r
  let s := r.undo.reverse.foldl (fun s x => s.restoreSec iid x) s
  let s := ((s.cancelOps iid r.since r.members).freeFlags iid hw r.members).reapOps
  let s := s.modDie (i.die iid) fun d =>
    { d with cmp := d.cmp.filter fun (e : CmpEntry) => !(e.iid == iid && r.members.contains e.tid && decide (r.since ≤ e.op)) }
  let s := (r.snaps.filter fun x => live.contains x.tid).foldl (fun s x => s.restoreMember iid hw r x) s
  let scal := ((List.range 64).map fun k => ((Loc.s hw k), (sget (0 : Word) r.scal k).setWidth 64))
  let s := s.asyncWrites iid scal
  -- generator mode as it was
  let s := s.modInst iid fun i =>
    let cons := (r.basket.map fun b => b.consuming.isSome).getD false
    let i := i.modHw hw fun w => { w with basket := r.basket, opening := none }
    if cons then i else (i.hwTids hw).foldl (fun i t => i.modTh t Thread.unsuspend) i
  let words : List DWord := [BitVec.ofNat 64 u.cause, BitVec.ofNat 64 depth, BitVec.ofNat 64 r.atomics, BitVec.ofNat 64 r.remotes,
    lo32 u.va, u.va >>> 32, lo32 u.hdr, mask.setWidth 64]
  let s := live.foldl (fun s t => s.asyncWrites iid ((List.range 8).map fun k => (.v t (r.recReg + k), words.getD k 0))) s
  let without (c : Issue) : Option Issue :=
    let ls := c.lanes.filter fun (l : LaneT) => !live.contains l.tid
    if ls.isEmpty then none else some { c with lanes := ls }
  let s := s.modInst iid fun i =>
    let i := { i with subs := i.subs.map fun (g : SubGroup) => ({ g with cont := g.cont.bind without } : SubGroup) }
    let i := r.members.foldl (fun i t => i.modTh t fun th => { th with uncorr := none, perr := [] }) i
    let i := live.foldl (fun i t => (i.modTh t fun th =>
      ({ th with uncorr := none, sub := 0, pend := [], susp := none, status := .ready } : Thread).arriveAt r.handler).unwarp t) i
    ((i.modHw hw fun w => { w with regions := w.regions.filter fun (x : Region) => x.id != r.id }).dropTrailing r).reapSubs
  (live.foldl (fun s t => s.sibling iid t) s).meetings iid hw

/-- The error that a home warp unwinds: of its members' errors the one whose region is outermost; under replay an unwinding
that the log places here without an error (R262). -/
def State.unwindCause (s : State) (iid hw : Nat) : Option (Nat × Uncorr) × State :=
  let i := s.inst iid
  let w := i.hw hw
  let idx (r : Region) : Nat := w.regions.findIdx fun (x : Region) => x.id == r.id
  let mine := (i.ths.filter fun p => i.hwOf p.1 == hw).filterMap fun p =>
    p.2.uncorr.bind fun u => (w.target p.1 u).map fun r => (idx r, u)
  match mine.insertionSort fun a b => a.1 ≤ b.1 with
  | x :: _ => (some x, s)
  | [] =>
    if !(s.ctx i.ctx).ccb.rplB then (none, s)
    else
      let src := s.growSrc iid
      let s := s.applyNext i.ctx src
      match find? (s.ctx i.ctx).log.next src with
      | none => (none, s)
      | some (_, n) =>
        let b (k : Nat) : Nat := (nthByte n k).toNat
        let d := b 6
        match w.regions[d - 1]? with
        | none => (none, s)
        | some r =>
          let at_ := r.members.find? fun t => (i.th t).lastHdr.toNat / 8 % 2 ^ 32 == natOf ((n.drop 8).take 4)
          if b 0 = 0x0C ∧ b 4 = hw ∧ natOf ((n.drop 12).take 4) = i.no ∧ d ≠ 0 then
            (at_.map fun t => (d - 1, { cause := b 5, va := 0, hdr := (i.th t).lastHdr }), s)
          else (none, s)

/-- Whether a store or atomic that a member has issued in a region before an error is still to be performed: the unwinding comes
after it. Of a pair region those that have not been performed are discarded, but for an atomic that is on its way to a peer or waits
in a migration's queue. The unwinding also comes after what members have issued before the region and completes by itself, whose
flags are then zero (R274). -/
def State.unwindWaits (s : State) (iid : Nat) (r : Region) : Bool :=
  let away (o : PendOp) (p : Part) : Bool := (s.freqs.any fun (f : FReq) => f.kind == .atomic o.id p.tid) ||
    s.migs.any fun (g : Mig) => g.held.any fun x => x == .op o.id p.tid
  s.ops.any fun (o : PendOp) => o.iid == iid && o.parts.any fun (p : Part) =>
    if r.holds p.tid o.id then !s.muted iid p.tid o.id &&
      (match accKind o.ins with
        | some .store => p.seqNo == 0
        | some .atomic => p.seqNo == 0 || away o p
        | _ => false)
    else r.members.contains p.tid && !outlives o.ins && !waitsOnly o.ins

/-- The copies of an instance that unwind with it: a pair region spans both (R263). -/
def State.unwindCopies (s : State) (iid hw k : Nat) : List Nat :=
  let i := s.inst iid
  let pairAt (i : Inst) : Bool := ((i.hw hw).regions[k]?).elim false (·.pair)
  match i.partner with
  | some j => if i.paired && pairAt i && pairAt (s.inst j) then [iid, j] else [iid]
  | none => [iid]
/-- Whether the regions of a home warp beyond the first k can unwind: their members stand at a boundary, and what they wait for is over. -/
def State.canUnwind (s : State) (iid hw k : Nat) : Bool :=
  let rs := ((s.inst iid).hw hw).regions.drop k
  s.vcRoom ((s.inst iid).die iid) (rs.map fun (r : Region) => r.undo.length).sum &&
    rs.all fun r => !s.unwindWaits iid r && r.members.all fun t => !s.issuing iid t
/-- The log records of an unwinding, those of each copy at its core's source. -/
def State.unwindLogged (hw k : Nat) (u : Uncorr) : State → List Nat → Bool × State
  | s, [] => (true, s)
  | s, iid :: r =>
    let i := s.inst iid
    let order := (List.range ((i.hw hw).regions.drop k).length).reverse
    let recs := order.map fun j => bytesOf 1 hw ++ bytesOf 1 u.cause ++ bytesOf 1 (k + j + 1) ++ bytesOf 1 0 ++
      bytesOf 4 (u.hdr.toNat / 8 % 2 ^ 32) ++ bytesOf 4 i.no
    let src := s.growSrc iid
    match (if (s.ctx i.ctx).ccb.rplB then s.applyNext i.ctx src else s).gateAll i.ctx src 0x0C recs with
    | (false, t) => (false, t)
    | (true, t) => match State.unwindLogged hw k u t r with
      | (true, t) => (true, t)
      -- one copy's records alone are not written: what the other waits for stands in its own rings
      | (false, t) => (false, s.modCtx i.ctx fun x => { x with log := { x.log with waits := (t.ctx i.ctx).log.waits, diverge := (t.ctx i.ctx).log.diverge } })
/-- The regions of one copy beyond the first k unwind, the innermost first. The record's mask names the members of any copy that go on. -/
def State.unwindAll (s : State) (copies : List Nat) (hw k : Nat) (u : Uncorr) : State :=
  let mask (j : Nat) : BitVec 32 := copies.foldl (fun m iid => (((s.inst iid).hw hw).regions[k + j]?).elim m fun r =>
    (s.liveIn iid r).foldl (fun m t => m ||| BitVec.twoPow 32 ((s.inst iid).laneOf t)) m) 0
  copies.foldl (fun s iid =>
    let rs := ((s.inst iid).hw hw).regions.drop k
    (List.range rs.length).reverse.foldl (fun s j => match rs[j]? with
      | none => s
      | some r => s.unwindOne iid hw (k + j + 1) u (mask j) r) s) s

/-- REGION_UNWIND: at the clause boundary of every member the region unwinds, its nested regions first, the innermost first;
each unwinding is logged. Both copies of a pair region unwind together, so that their records are the same (R274). -/
def State.regionUnwind (s : State) (iid hw : Nat) : State :=
  match (s.inst iid).kind with
  | .stage =>
    let (c, s) := s.unwindCause iid hw
    match c with
    | none => s
    | some (k, u) =>
      let copies := s.unwindCopies iid hw k
      if !(copies.all fun j => s.canUnwind j hw k) then s
      else match State.unwindLogged hw k u s copies with
        | (false, s) => s
        | (true, s) => s.unwindAll copies hw k u
  | _ => s
def execRegionUnwind (iid hw : Nat) (s : State) : Host.Outcome State Fault Refusal := .next (s.regionUnwind iid hw)

/-! ### Errors (R83, R258, R259) -/

/-- The results that the thread's last instruction has produced are gone. -/
def Issue.dropResult (is : Issue) (i : Inst) (tid : Nat) : Issue :=
  match is.writes.find? fun w => is.produced i tid w with
  | none => is
  | some x => { is with writes := is.writes.filter fun w => !(is.produced i tid w && w.slot == x.slot) }
/-- Class V computations, whose result comes at their completion. -/
def computes : Instr → Bool
  | .idiv .. | .irem .. | .fdiv .. | .fsqrt .. | .frcp .. | .frsq .. | .fexp2 .. | .flog2 .. | .fsin .. | .fcos .. | .ftanh ..
  | .hexp2 .. | .hrcp .. => true
  | _ => false
/-- A pipeline error in an operation in flight: a computation completes without its result, a granted pass fails. -/
def State.failOp (s : State) (iid tid id : Nat) : State :=
  match s.op? id with
  | none => s
  | some o =>
    if o.iid != iid then s
    else match o.ins with
      | .mma .. | .mmaj .. =>
        let fail (p : Nat × Rsv) : Nat × Rsv :=
          if p.2.ops.contains id && p.2.granted.isSome then (p.1, { p.2 with failed := true }) else p
        s.modCluster (s.inst iid).cluster fun c => { c with resv := c.resv.map fail }
      | _ =>
        if !computes o.ins || (o.part? tid).isNone then s
        else (s.pipeError iid tid o.hdr).partDone id tid
/-- UNCORRECTABLE_ERROR: the checks of R258 report an error to a thread. The result of a pipeline error is not written (R83): with an
address of 0 it is that of the thread's last instruction in the clause in flight, with one of all ones that of the next instruction
that it issues, else that of the operation one below the address. A thread of a steward core takes it as a trap at its boundary, in a walker slot it ends the walk (log entry 77). -/
def execUncorrectableError (iid tid cause : Nat) (va : DWord) (s : State) : Host.Outcome State Fault Refusal :=
  .next (match find? s.insts iid with
    | none => s
    | some i => match i.th? tid with
      | none => s
      | some t =>
        let mine (x : Issue) : Bool := x.iid == iid && x.lanes.any fun l => l.tid == tid
        if !(cause == 1 || cause == 2) || t.status == .exited then s
        else
          let drop (s : State) : State := if cause = 1 then
              { s with issues := s.issues.map fun (x : Issue) => if mine x then x.dropResult i tid else x } else s
          match i.kind with
          | .walker => s.walkerTrap iid
          | k =>
            if cause = 1 && va == BitVec.allOnes 64 then s.modTh iid tid fun t => { t with failNext := true }
            else if cause = 1 && va != 0 then s.failOp iid tid (va.toNat - 1)
            else if k == .steward then (drop s).modTh iid tid fun t => { t with pend := t.pend ++ [⟨8, cause, 0, 0, 0, 1, 0, 0, false⟩] }
            else (drop s).consume iid tid cause va ((s.issues.find? mine).elim t.lastHdr (·.hdrAt)) none)

/-- A sector of memory goes bad: its ECC is uncorrectable (1), or in a sealed world its tag (2) or that of its counter block (3) is
not the one that its contents have (R213, R217, R222). -/
def State.spoilSector (s : State) (pa cause : Nat) : State :=
  let bend (s : State) (a : Nat) : State := { s with stags := sput s.stags (a / 32) (~~~s.goodTag a) }
  match cause with
  | 1 => s.setPoison pa (some 1)
  | 2 => if s.plainAt pa then s else bend s pa
  | 3 => if s.plainAt pa then s else bend s (ctrBlock pa)
  | _ => s
/-- The memory sectors that a load or atomic of a thread, or a thread's next fetch, fills. -/
def State.fills (s : State) (op tid : Nat) : Option (Req × List Nat) :=
  match s.op? op with
  | some o =>
    let kind := if loadClass o.ins then 0 else 2
    let q := s.req o.iid tid kind
    let ok := (loadClass o.ins || (accKind o.ins == some .atomic && (spadPieces o.ins default).isEmpty)) && !(s.inst o.iid).trailing
    if !ok then none
    else (o.part? tid).map fun p =>
      (q, (((accPieces o.ins p).flatMap fun x => sectorsOf x.1 x.2).filter fun x => !(kind == 0 && s.l1Has q x.1 x.2)).map (·.1))
  | none =>
    (s.inst? op).map fun i =>
      let at_ : Nat := ((s.issues.find? fun (x : Issue) => x.iid == op && x.lanes.any fun l => l.tid == tid).map fun x => x.addr.toNat).getD
        (i.th tid).header.toNat
      (s.req op tid 3, if ((s.tags i.ctx).findSome? fun a => find? (s.core (i.bank op)).icache (secKey a at_)).isSome then [] else [at_])
/-- POISONED_FILL: the sector that a load or an atomic fills, or, where `op` names an instance, that a thread of it fetches next, goes
bad; the access meets it. -/
def execPoisonedFill (op tid cause : Nat) (s : State) : Host.Outcome State Fault Refusal :=
  .next (match s.fills op tid with
    | none => s
    | some (q, vas) =>
      match vas.filterMap (fun va => s.sectorAt q va) |>.filter fun pa => !paWindow pa &&
          !(s.dies.any fun d => d.2.l2.any fun x => x.2.pa == pa) with
      | [] => s
      | pa :: _ =>
        let s := s.spoilSector pa cause
        match s.op? op with
        | some o => s.parkFailing o tid (if loadClass o.ins then 0 else 2)
        | none => s)


/-! ### Injection (R264) -/

/-- EINJ: with the context's injection bit set, each injection of a home warp is logged, and under replay takes place only
where the log has it. -/
def einjOp (ins : Instr) (c : Ctl) (kind : Nat) (act : State → Issue → Run → State) (s : State) :
    Host.Outcome State Fault Refusal :=
  inClause s fun is => s.issueIns is ins c [] fun s is =>
    let i := s.inst is.iid
    let rs := (s.runs is c).filter fun r => !s.muted is.iid r.t.tid s.nextId
    let x := s.ctx i.ctx
    let start (s : State) (ts : List Run) : Did :=
      let s := ts.foldl (fun s r => act s is r) s
      let (s, ps) := partPer (fun _ _ _ => []) s is (s.runs is c)
      .go (s.startOp is ins c ps [])
    if !x.ccb.inj || i.kind != .stage then start s []
    else
      let recOf (h : Nat) : List Byte := bytesOf 1 h ++ bytesOf 1 kind ++
        bytesOf 4 (laneMask ((rs.filter fun r => i.hwOf r.t.tid == h).map (·.t))).toNat ++ bytesOf 4 i.no
      let src := s.growSrc is.iid
      let hs := ((rs.map fun r => i.hwOf r.t.tid).eraseDups).insertionSort (· ≤ ·)
      if x.ccb.rplB then
        let (go, s) := hs.foldl (fun (acc : List Nat × State) h =>
          let s := acc.2.applyNext i.ctx src
          match find? (s.ctx i.ctx).log.next src with
          | some (k, n) => if n = s.logRec i.ctx src 0x0D (recOf h) then
              (acc.1 ++ [h], s.modCtx i.ctx fun x => { x with log := x.log.consume k src }) else (acc.1, s)
          | none => (acc.1, s)) ([], s)
        start s (rs.filter fun r => go.contains (i.hwOf r.t.tid))
      else
        let (ok, s) := s.gateAll i.ctx src 0x0D (hs.map recOf)
        if ok then start s rs else .stay s
def execEinjPerr (c : Ctl) (s : State) :=
  einjOp (.einjPerr c) c 0 (fun s is r => s.consume is.iid r.t.tid 8 0 is.hdrAt none) s
def execEinjPoison (c : Ctl) (s : State) :=
  einjOp (.einjPoison c) c 1 (fun s is r => s.modTh is.iid r.t.tid fun t => { t with poison := true }) s
def execEinjPmis (c : Ctl) (b : BSrc) (s : State) :=
  einjOp (.einjPmis c b) c 2 (fun s is r =>
    if (s.inst is.iid).trailing then
      let x : Word := (s.srcB is r .b32 b).setWidth 32
      s.modTh is.iid r.t.tid fun t => { t with pmis := some x }
    else s) s
def execEinjCerr (c : Ctl) (s : State) :=
  einjOp (.einjCerr c) c 3 (fun s is r => s.consume is.iid r.t.tid 8 0 is.hdrAt none) s

/-! ### Repair (R213, R267) -/

def execPrepair (c : Ctl) (d : Nat) (a : VSrc) (s : State) :=
  storeOp (.prepair c d a) c false (fun s is r => (s.srcV is r true a, s.ownRange is r d 8)) s

/-- PREPAIR writes its sector whole at the controller: the poison is gone, and what caches hold of the sector with it. -/
def State.prepairStep (s : State) (o : PendOp) (p : Part) : State :=
  let i := s.inst o.iid
  let va := (p.arg 0).toNat / 32 * 32
  let q := s.req o.iid p.tid 1
  let bs := (List.range 8).flatMap fun k => bytesOf 4 (p.data k).toNat
  let fail (s : State) (c : Nat) : State := s.failWith o p.tid (BitVec.ofNat 64 va) c 32 fun s => s.partDone o.id p.tid
  -- an error in a region does not keep it from being performed (R268)
  if i.trailing then s.partDone o.id p.tid
  else if s.blocked o p then s
  else if !spanOk va 32 || aperOf va == .peer then fail s 1
  else if aperOf va != .mem then
    match s.accCheck (.op o.id p.tid) q va 32 with
    | (.wait, s) => s
    | (.refuse c _, s) => fail s c
    | (.ok, s) => ((s.storeBytes q va bs).sibling o.iid p.tid).partDone o.id p.tid
  else match s.rights q va with
    | .full => s
    | .refuse c => fail s c
    | .miss ctrl => match s.missed (.op o.id p.tid) q ctrl va with
      | (.refuse c _, s) => fail s c
      | (_, s) => s
    | .ok a pa _ =>
      match s.migAt i.ctx va with
      | some m => (s.holdIn m (.op o.id p.tid)).2
      | none =>
        if !s.undoOk pa 0 then s
        else
        let key := secKey a va
        let s := s.modInst o.iid fun i => { i with l1 := sdel i.l1 key }
        let s := s.modDie (s.home i.ctx va) fun d => { d with l2 := sdel d.l2 key }
        let s := s.writeSector pa va 0 bs (BitVec.allOnes 32)
        ((s.sibling o.iid p.tid).dropWant (.op o.id p.tid)).partDone o.id p.tid

def execPresume (c : Ctl) (a : VSrc) (s : State) :=
  flagged (.presume c a) c noMore (partPer fun s is r => [s.srcV is r true a]) noAfter s
def execPresumeFail (c : Ctl) (a : VSrc) (s : State) :=
  flagged (.presumeFail c a) c noMore (partPer fun s is r => [s.srcV is r true a]) noAfter s

/-- The sub-groups of an instance that are parked with cause 5 on the sector that a thread names. The repair stage names one of its
own context's addresses; the supervisor, which belongs to no context, names the sector by its physical address or by the
address at which a context met it (log entry 78). -/
def Inst.poisonSubs (i : Inst) (ctx va pa : Nat) : List SubGroup :=
  if i.kind != .stage || (ctx != noCtx && i.ctx != ctx) then []
  else i.subs.filter fun (g : SubGroup) => (g.va.toNat / 32 == va / 32 || (pa != 0 && g.pa == pa)) && i.ths.any fun t =>
    match t.2.parkCause g.id with
    | some (.mem 5 _) => true
    | _ => false
/-- What PRESUME does to a saved sub-group: marked in the saved state, it takes effect after the restore. -/
def Inst.presumeSaved (i : Inst) (g : SubGroup) (fails : Bool) (since : Nat) : Inst :=
  let ts := (i.ths.filter fun t => t.2.parkedIn g.id).map (·.1)
  let i := { i with subs := i.subs.map fun (x : SubGroup) => if x.id == g.id then { x with flags := [] } else x }
  let i := ts.foldl (fun i t => i.modTh t fun th => th.unpark g.id g.resume) i
  if fails then ts.foldl (fun i t => i.takeError t { cause := 3, va := g.va, hdr := g.hdr, since }) i else i
/-- PRESUME: the sub-groups parked on the sector, saved ones among them, re-execute their clauses, or under .fail consume an error
with cause 3. -/
def State.presumeStep (s : State) (o : PendOp) (p : Part) (fails : Bool) : State :=
  let va := (p.arg 0).toNat
  let ctx := (s.inst o.iid).ctx
  let pa := match s.aperPa (s.req o.iid p.tid 0) va with
    | .ok pa => if aperOf va == .phys then pa / 32 * 32 else 0
    | .error _ => 0
  let found := s.insts.flatMap fun x => (x.2.poisonSubs ctx va pa).map fun g => (x.1, g)
  let s := found.foldl (fun s x =>
    let ts := (((s.inst x.1).ths.filter fun t => t.2.parkedIn x.2.id)).map (·.1)
    let s := s.resumeSub x.1 x.2 ts x.2.resume
    if fails then ts.foldl (fun s t => s.consume x.1 t 3 x.2.va x.2.hdr none) s else s) s
  let s : State := { s with saved := s.saved.map fun (v : Saved) =>
    { v with inst := (v.inst.poisonSubs ctx va pa).foldl (fun i g => i.presumeSaved g fails s.nextId) v.inst } }
  s.partDone o.id p.tid

/-! ### Comparison (R263, R273) -/

/-- COMPARE_MATCH: the oldest unmatched access of a leading thread meets the trailing thread's access of the same number. A mismatched
entry stays until the unwinding discards it: what R274 orders behind its match is not performed. -/
def execCompareMatch (die iid tid : Nat) (s : State) : Host.Outcome State Fault Refusal :=
  .next (match ((s.die die).cmp.filter fun (e : CmpEntry) => e.iid == iid && e.tid == tid).insertionSort fun a b => a.seqNo ≤ b.seqNo with
    | [] => s
    | e :: _ => match s.partnerPart iid tid e.seqNo with
      | none => s
      | some (o', p') =>
        let k := e.seqNo + 1 - p'.seqNo
        if p'.arrived || p'.done != k then s
        else
          if sigOf o'.ins p' k = e.sig then
            let s := s.modDie die fun d => { d with cmp := d.cmp.filter (· != e) }
            let step (s : State) (id : Nat) : State := s.modOp id fun o => o.modPart tid fun p =>
              if accKind o.ins == some .atomic then { p with done := 1 }
              else if p.done + 1 < numWords o.ins then { p with done := p.done + 1 } else { p with done := 0, arrived := true }
            step (step s e.op) o'.id
          else
            let i := s.inst iid
            let d := (i.hw (i.hwOf tid)).regions.findIdx? fun (r : Region) => r.pair && r.members.contains tid
            s.consume iid tid 7 (BitVec.ofNat 64 (e.sig.getD 1 0)) ((s.op? e.op).elim 0 (·.hdr)) (d.map (· + 1)))

end Sys2Proof.Machine
end

