-- ==== Sys2Proof/Machine/Walkers.lean ====
section
/-!
DEFINITION. Walks and what changes translations (R204 to R208, R212, R265, R266, R309): the rows TLB_MISS and
WALKER_DISPATCH, TLBFILL, WRET, TLBINV and CINV, the writing of L2 sectors to memory (R221, R289), and writes between dies (R244).
-/
namespace Sys2Proof.Machine

/-! ### Walks (R207) -/

/-- TLB_MISS: a request joins the walk of its page at its controller, or starts one; with 64 walks pending it waits. -/
def State.tlbMiss (s : State) (want : Nat) : State :=
  match s.wants.find? fun (w : Want) => w.id == want && w.st == .missed with
  | none => s
  | some w =>
    let join (s : State) : State := { s with wants := s.wants.map fun (x : Want) => if x.id == want then { x with st := .walking } else x }
    if s.walks.any fun (k : Walk) => k.ctrl == w.ctrl && k.asid == w.asid && k.page == w.page then join s
    else if Config.walkMax ≤ (s.walks.filter fun (k : Walk) => k.ctrl == w.ctrl).length then s
    else join { s with walks := s.walks ++ [({ ctrl := w.ctrl, asid := w.asid, page := w.page, kind := w.kind, priv := w.priv
                                               world := w.world, ctx := w.ctx, cluster := none, filled := false
                                               stale := false } : Walk)] }
def execTlbMiss (want : Nat) (s : State) : Host.Outcome State Fault Refusal := .next (s.tlbMiss want)

/-- The die of a controller, or of a window TLB. -/
def ctrlDie (ctrl : Nat) : Nat := if 64 ≤ ctrl then ctrl - 64 else ctrl / 8

/-- The walker thread at its dispatch: s0 to s9 hold the values of R207, its other registers are zero. Of a window TLB the spec
gives no controller number for s3. -/
def State.walkerInst (s : State) (w : Walk) : Inst :=
  let b := (s.ctx w.ctx).ccb
  let d := ctrlDie w.ctrl
  let s3 : Word := if 64 ≤ w.ctrl then (Config.openRead s.fresh 3).setWidth 32 else BitVec.ofNat 32 w.ctrl
  let vals : List Word := [BitVec.ofNat 32 w.page, BitVec.ofNat 32 (w.page / 2 ^ 32), BitVec.ofNat 32 w.asid, s3,
    BitVec.ofNat 32 w.kind, BitVec.ofNat 32 w.priv, BitVec.ofNat 32 b.root, BitVec.ofNat 32 (b.root / 2 ^ 32),
    BitVec.ofNat 32 (b.ibase % 64 + 64 * (b.ik % 8)), BitVec.ofNat 32 b.world]
  { kind := .walker, ctx := noCtx, launch := 0, stage := 0, core := 0, no := 0, gang := 1, threads := 1
    ths := [(0, { pc := (s.die d).walkerEntry + 8, level := if (s.die d).world = 0 then 1 else 2 })]
    hws := [(0, { n := 256, vb := 0, scal := (List.range 10).foldl (fun m k => sset 0 m k (vals.getD k 0)) [] })] }

/-- WALKER_DISPATCH: the oldest walk of a controller without a slot gets that of a cluster on the controller's die. -/
def State.walkerDispatch (s : State) (ctrl cluster : Nat) : State :=
  match s.walks.findIdx? fun (k : Walk) => k.ctrl == ctrl && k.cluster.isNone with
  | none => s
  | some k =>
    let w := s.walks.getD k default
    if cluster / Config.clustersPerDie ≠ ctrlDie ctrl ∨ (s.cluster cluster).walk.isSome then s
    else
      let iid := walkerId cluster
      let s := (s.setInst iid (s.walkerInst w)).setCore (1024 + iid) {}
      let s := s.modCluster cluster fun c => { c with walk := some k }
      { s with walks := s.walks.set k { w with cluster := some cluster, filled := false } }
def execWalkerDispatch (ctrl cluster : Nat) (s : State) : Host.Outcome State Fault Refusal :=
  .next (s.walkerDispatch ctrl cluster)

/-- A stale walk starts again: its walker leaves the slot, and its requests go on waiting (R309). -/
def State.restartWalk (s : State) (cluster : Nat) : State :=
  let iid := walkerId cluster
  match (s.cluster cluster).walk with
  | none => s
  | some k =>
    let w := s.walks.getD k default
    ({ s with
        walks := s.walks.set k { w with cluster := none, filled := false, stale := false, staleBig := false, again := false }
        insts := sdel s.insts iid
        issues := s.issues.filter fun (x : Issue) => x.iid != iid
        ops := s.ops.filter fun (o : PendOp) => o.iid != iid } : State).modCluster cluster fun c => { c with walk := none }

/-! ### TLBFILL (R265) -/

/-- Whether a leaf is accepted: its format (R205), its type for the access kind, its level, its frame. -/
def leafOk (leaf : Nat) (lvl : Bool) (kind ik : Nat) (sealed : Bool) : Bool :=
  let bit (k : Nat) : Bool := leaf / 2 ^ k % 2 == 1
  let win := kind == 6
  let far := bit 8
  let f := leaf / 2 ^ 12 % 2 ^ 24
  let len := if lvl then 2 ^ 21 / 2 ^ ik else 4096
  bit 0 && bit 4 && leaf / 2 ^ 48 % 2 ^ 16 == 0 && !bit 11 && (win || leaf / 2 ^ 36 % 2 ^ 12 == 0) &&
    leaf / 2 ^ 6 % 4 == (if win then 1 else 0) && !(win && lvl) && !(bit 2 && !bit 1) && !(lvl && f % 2 ^ (9 - ik) != 0) &&
    (win || (decide (f * 4096 + len ≤ localLimit far) && !(sealed && inCtrArea far (f * 4096 + len - 1)) &&
      !(far && (ckptArea (f * 4096) || ckptArea (f * 4096 + len - 1)) && Config.ckptMem)))

def leafOf (leaf : Nat) (lvl : Bool) (asid sasid : Nat) : Leaf :=
  let bit (k : Nat) : Bool := leaf / 2 ^ k % 2 == 1
  { tag := if bit 5 then sasid else asid, frame := if bit 6 then leaf / 2 ^ 12 % 2 ^ 36 else leaf / 2 ^ 12 % 2 ^ 24, big := lvl
    far := bit 8, win := bit 6, r := bit 1, w := bit 2, x := bit 3, u := bit 10, pin := false, mig := bit 9 }

/-- Makes room for an entry in a TLB that is full (R194, R197): one that no migration pins leaves, and the spec does not say which (log
entry 22). -/
def State.tlbRoom (s : State) (ctrl : Nat) : State :=
  let mine := s.tlb.filter fun p => tlbCtrl p.1 == ctrl
  if mine.length < (if 64 ≤ ctrl then Config.winTlbSize else Config.tlbSize) then s
  else
    let free := mine.filter fun p => !p.2.pin
    match free[(Config.openRead s.fresh (ctrl + 700)).toNat % free.length]? with
    | none => s
    | some p => { s with tlb := sdel s.tlb p.1 }
/-! ### Broken rules of mapping (R199, R203, R212, R315, R353) -/

/-- A memory leaf as a mapping of its controller; a page of 2 MiB has a local frame in every controller of its set (R202). -/
def State.mappedOf (s : State) (ctrl asid va : Nat) (l : Leaf) : Mapped :=
  let ik := ((s.ctxs.find? fun p => p.2.ccb.asid == asid).map fun p => p.2.ccb.ik).getD 0
  let vn := if l.big then 2 ^ 21 else 2 ^ 12
  { asid, tag := l.tag, va := va / vn * vn, vn, pa := mkPa ctrl l.far (l.frame * 4096), n := if l.big then 2 ^ (21 - ik) else 2 ^ 12
    rights := l.rights }
def Mapped.hasVa (m : Mapped) (tag va : Nat) : Bool := m.tag == tag && decide (m.va ≤ va) && decide (va < m.va + m.vn)
def Mapped.hasPa (m : Mapped) (pa : Nat) : Bool := decide (m.pa ≤ pa) && decide (pa < m.pa + m.n)
/-- Whether two mappings share a frame under different (tag ASID, VA), one of them writable (R199). -/
def Mapped.aliases (m k : Mapped) : Bool :=
  overlaps (m.pa, m.n) (k.pa, k.n) && (m.tag != k.tag || !overlaps (m.va, m.vn) (k.va, k.vn)) && (m.rights.w || k.rights.w)
/-- Whether rights hold what others lack. -/
def Rights.exceeds (t u : Rights) : Bool := (t.r && !u.r) || (t.w && !u.w) || (t.x && !u.x) || (t.u && !u.u)
/-- What caches, writes in flight and claims hold: tag ASID, VA, physical address and rights. -/
def State.holdings (s : State) : List (Nat × Nat × Nat × Rights) :=
  (s.insts.flatMap fun p => p.2.l1.map fun e => (keyAsid e.1, keyVa e.1, e.2.pa, e.2.rights)) ++
    (s.dies.flatMap fun p => p.2.l2.map fun e => (keyAsid e.1, keyVa e.1, e.2.pa, e.2.rights)) ++
    (s.d2d.map fun m => (keyAsid m.key, keyVa m.key, m.pa, m.rights)) ++
    s.dies.flatMap fun d => d.2.claims.flatMap fun c =>
      if c.2.st != .free && c.2.st != .revoked then c.2.pages.map fun p => (p.tag, p.va, p.pa, p.rights) else []
/-- The frames that a new mapping leaves undefined: those it shares with another one, and, where the steps of R212 were out of order, its
own and those that something still holds of the page through a translation that TLBINV has ended. -/
def State.newlySpoiled (s : State) (m : Mapped) : List (Nat × Nat) :=
  let shared := s.mapped.filter fun k => m.aliases k
  let old := s.holdings.filter fun h => m.hasVa h.1 h.2.1 && paCtrl h.2.2.1 == paCtrl m.pa && (!m.hasPa h.2.2.1 || h.2.2.2.exceeds m.rights) &&
    !s.mapped.any fun k => k.hasVa h.1 h.2.1 && k.hasPa h.2.2.1
  if shared.isEmpty && old.isEmpty then []
  else (m.pa, m.n) :: (shared.map fun k => (k.pa, k.n)) ++ old.map fun h => (h.2.2.1 / 4096 * 4096, 4096)
/-- The log rings that their own contexts map writable (R315). -/
def State.openRings (s : State) : List (Nat × Nat) :=
  s.ctxs.filterMap fun p =>
    let x := p.2
    let r := (x.log.base, 16 * x.log.size)
    if (x.ccb.recB || x.ccb.rplB) && s.mapped.any fun m => m.rights.w && (m.tag == x.ccb.asid || m.tag == x.ccb.sasid) && overlaps (m.pa, m.n) r
    then some r else none
def State.spoil (s : State) (rs : List (Nat × Nat)) : State := { s with spoiled := (s.spoiled ++ rs).eraseDups }
/-- A memory page is mapped by a leaf. -/
def State.mapPage (s : State) (ctrl asid va : Nat) (l : Leaf) : State :=
  if l.win then s
  else
    let m := s.mappedOf ctrl asid va l
    let s := s.spoil (s.newlySpoiled m)
    let s : State := { s with mapped := m :: s.mapped.filter (· != m) }
    s.spoil s.openRings

/-- Installs a leaf for a page; an entry that a migration pins stays pinned. -/
def State.installLeaf (s : State) (ctrl asid va : Nat) (l : Leaf) : State :=
  let s := s.mapPage ctrl asid va l
  let pin := (s.tlbFind ctrl asid va).elim false (·.pin)
  let s : State := { s with tlb := sdel (sdel s.tlb (tlbKey ctrl asid false va)) (tlbKey ctrl asid true va) }
  let s := s.tlbRoom ctrl
  { s with tlb := sput s.tlb (tlbKey ctrl asid l.big va) { l with pin := pin } }

def execTlbfill (c : Ctl) (pd : Nat) (a : VSrc) (lvl : Bool) (s : State) :=
  flagged (.tlbfill c pd a lvl) c noMore (partPer fun s is r =>
    [s.srcV is r true a, s.srcS is r true 0, s.srcS is r false 2, s.srcS is r false 3, s.srcS is r false 4,
     s.srcS is r false 8]) noAfter s

/-- The walk of a walker's thread. -/
def State.walkOf (s : State) (iid : Nat) : Option (Nat × Walk) :=
  ((s.cluster (iid - 64)).walk).bind fun k => s.walks[k]?.map fun w => (k, w)

def State.tlbfillStep (s : State) (o : PendOp) (p : Part) (pd : Nat) (lvl : Bool) : State :=
  let out (s : State) (ok : Bool) : State := s.partWrites o.id p.tid [(.p p.tid pd, if ok then 1 else 0)] 0
  match s.walkOf o.iid with
  | none => out s false
  | some (k, w) =>
    let d := (o.iid - 64) / Config.clustersPerDie
    let kind := (p.arg 4).toNat
    let ctrl := if kind = 6 then 64 + d else (p.arg 3).toNat
    let asid := (p.arg 2).toNat % 65536
    let ik := (p.arg 5).toNat / 64 % 8
    if w.stale || (w.staleBig && lvl) then out ({ s with walks := s.walks.set k ({ w with again := true } : Walk) } : State) false
    else if kind ≤ 6 ∧ leafOk (p.arg 0).toNat lvl kind ik ((s.die d).world != 0) = true then
      let l := leafOf (p.arg 0).toNat lvl asid (s.ctx w.ctx).ccb.sasid
      out (({ s with walks := s.walks.set k ({ w with filled := true } : Walk) } : State).installLeaf ctrl asid (p.arg 1).toNat l) true
    else out s false

/-! ### WRET (R266) -/

/-- The end of the walk of the issuing walker. -/
def wretOp (ins : Instr) (c : Ctl) (e : Walk → WalkEnd) (s : State) :=
  transfer ins c (fun s is rs =>
    if rs.isEmpty then .go s
    else match s.walkOf is.iid with
      | none => .go s
      | some (_, w) => .go (if w.again then s.restartWalk (is.iid - 64) else s.endWalk (is.iid - 64) (e w))) s
def execWretFill (c : Ctl) (s : State) := wretOp (.wretFill c) c (fun w => if w.filled then .fill else .deny 1) s
def execWretServ (c : Ctl) (s : State) := wretOp (.wretServ c) c (fun _ => .serv) s
def execWretDeny (c : Ctl) (cause : Nat) (s : State) := wretOp (.wretDeny c cause) c (fun _ => .deny cause) s

/-! ### TLBINV (R309) -/

/-- Whether an entry is that of a page under a tag ASID, of an ASID, or any. -/
def tlbHit (form : Nat) (asid va : Nat) (p : Nat × Leaf) : Bool :=
  let mine := p.1 / 2 ^ 46 % 65536 == asid || p.2.tag == asid
  let page := if tlbBig p.1 then va / 2 ^ 21 * 2 ^ 21 else va / 2 ^ 12 * 2 ^ 12
  form == 2 || (mine && (form == 1 || tlbPage p.1 == page))

/-- The entries go, pinned ones at their unpinning; dispatched walks of the pages are overtaken. -/
def State.tlbInv (s : State) (form asid va : Nat) : State :=
  let hit := tlbHit form asid va
  { s with
    tlb := (s.tlb.filter fun p => !hit p || p.2.pin).map fun p => if hit p then (p.1, { p.2 with gone := true }) else p
    mapped := s.mapped.filter fun m => !(form == 2 || ((m.asid == asid || m.tag == asid) &&
      (form == 1 || (decide (m.va ≤ va) && decide (va < m.va + m.vn)))))
    walks := s.walks.map fun (w : Walk) =>
      let mine := w.asid == asid || (s.ctx w.ctx).ccb.sasid == asid
      if w.cluster.isNone || !(form == 2 || mine) then w
      else if form != 0 || w.page / 4096 == va / 4096 then { w with stale := true }
      else if w.page / 2 ^ 21 == va / 2 ^ 21 then { w with staleBig := true }
      else w }

def tlbinvOp (ins : Instr) (c : Ctl) (f : State → Issue → Run → List DWord) (s : State) :=
  flagged ins c noMore (partPer f) noAfter s
def execTlbinvPg (c : Ctl) (a : VSrc) (b : BSrc) (s : State) :=
  tlbinvOp (.tlbinvPg c a b) c (fun s is r => [0, s.srcV is r true a, s.srcB is r .n32 b &&& 0xFFFF]) s
def execTlbinvAsid (c : Ctl) (b : BSrc) (s : State) :=
  tlbinvOp (.tlbinvAsid c b) c (fun s is r => [1, 0, s.srcB is r .n32 b &&& 0xFFFF]) s
def execTlbinvAll (c : Ctl) (s : State) := tlbinvOp (.tlbinvAll c) c (fun _ _ _ => [2, 0, 0]) s
/-! ### Sectors of L2 on their way to memory (R221, R289, R215) -/

/-- SECTOR_WRITE: a sector leaves L2, its dirty bytes through memory. -/
def execSectorWrite (die key : Nat) (s : State) : Host.Outcome State Fault Refusal := .next (s.dropL2 die key).2

/-! ### CINV (R309) -/

/-- Whether a cached line is one that CINV names. Of a page in a TLB as 2 MiB, .pg takes 2 MiB. -/
def cinvHit (form asid va : Nat) (big : Bool) (key : Nat) : Bool :=
  let size := if big then 2 ^ 21 else 2 ^ 12
  form == 2 || (keyAsid key == asid && (form == 1 || keyVa key / size == va / size))

/-- One pass over the caches of the module: L1 and Hamper bytes go home, clean lines are dropped, sectors of L2 are written and
dropped. The answer says whether all are gone; `keep` leaves a trailing copy the bytes of its own that never go home. After steps of R212 out
of their order what loads return is unconstrained (`State.newlySpoiled`, log entry 22). -/
def State.cinv (s : State) (form asid va : Nat) (keep : Bool := false) : Bool × State :=
  let big := s.tlb.any fun p => tlbBig p.1 && tlbHit 0 asid va p
  let hit := cinvHit form asid va big
  let s := s.insts.foldl (fun s x =>
    let ks := (skeys x.2.l1).filter hit
    (ks.foldl (fun s k => s.writeback x.1 k) s).modInst x.1 fun i =>
      { i with l1 := i.l1.filter fun p => !hit p.1 || (p.2.dirty != 0 && (keep || !i.trailing)) }) s
  let s : State := { s with cores := s.cores.map fun p => (p.1, { p.2 with icache := p.2.icache.filter fun e => !hit e.1 }) }
  let s := (skeys s.cores).foldl (fun s k => s.drainWhere k fun e => hit (secKey e.asid e.line)) s
  (skeys s.dies).foldl (fun (acc : Bool × State) d =>
    ((skeys (acc.2.die d).l2).filter hit).foldl (fun (acc : Bool × State) key =>
      let (ok, s) := acc.2.dropL2 d key
      (acc.1 && ok, s)) acc) (!(s.insts.any fun x => s.l1Dirty x.1 && x.2.l1.any fun p => hit p.1 && p.2.dirty != 0), s)

def cinvOp (ins : Instr) (c : Ctl) (f : State → Issue → Run → List DWord) (s : State) :=
  flagged ins c noMore (partPer f) noAfter s
def execCinvPg (c : Ctl) (a : VSrc) (b : BSrc) (s : State) :=
  cinvOp (.cinvPg c a b) c (fun s is r => [0, s.srcV is r true a, s.srcB is r .n32 b &&& 0xFFFF]) s
def execCinvAsid (c : Ctl) (b : BSrc) (s : State) :=
  cinvOp (.cinvAsid c b) c (fun s is r => [1, 0, s.srcB is r .n32 b &&& 0xFFFF]) s
def execCinvAll (c : Ctl) (s : State) := cinvOp (.cinvAll c) c (fun _ _ _ => [2, 0, 0]) s
/-- CINV ends once its lines are gone: bytes on their way between dies have arrived first. -/
def State.cinvStep (s : State) (o : PendOp) (p : Part) : State :=
  let (form, asid, va) := ((p.arg 0).toNat, (p.arg 2).toNat, (p.arg 1).toNat)
  let (ok, s) := s.cinv form asid va
  let far := s.d2d.any fun (m : D2d) => cinvHit form asid va true m.key
  if ok && !far then s.partDone o.id p.tid else s

/-- TLBINV: what caches have filled through the old entries since the CINV of R212 goes before them, so that every later access uses
the new ones; then the entries go. -/
def State.tlbinvStep (s : State) (o : PendOp) (p : Part) : State :=
  let (form, asid, va) := ((p.arg 0).toNat, (p.arg 2).toNat, (p.arg 1).toNat)
  let (ok, s) := s.cinv form asid va true
  let far := s.d2d.any fun (m : D2d) => cinvHit form asid va true m.key
  if ok && !far then (s.tlbInv form asid va).partDone o.id p.tid else s

/-! ### Writes between dies (R244) -/

/-- DIE_TO_DIE_WRITE_ARRIVAL: a write is applied once every write that is cause-before it and bound for the same die has been; one that
has to wait at its slice stays. -/
def State.d2dArrive (s : State) (id : Nat) : State :=
  match s.d2d.find? fun (m : D2d) => m.id == id with
  | none => s
  | some m =>
    let early := s.d2d.any fun (x : D2d) => x.id != id && x.dst == m.dst && vcLe (vcGet x.vc x.src) (vcGet m.vc x.src)
    if early then s
    else
      let (ok, t) := ({ s with d2d := s.d2d.filter fun (x : D2d) => x.id != id } : State).arriveL2 m
      if ok then t.modDie m.dst fun d => { d with vc := vcMax d.vc m.vc } else { t with d2d := s.d2d }
def execDieToDieWriteArrival (id : Nat) (s : State) : Host.Outcome State Fault Refusal := .next (s.d2dArrive id)

end Sys2Proof.Machine
end

