-- ==== Sys2Proof/Machine/Saves.lean ====
section
/-!
DEFINITION. Pre-emption, saves and restores (R132, R181, R251, R286, R312), intervals and rollback (R289, R290, R320),
CKPT and RECCTL (R291, R310, R311), and the ending of a context.
-/
namespace Sys2Proof.Machine

/-! ### Pre-emption (R132) -/

/-- The resident instances of a context. -/
def State.resident (s : State) (c : Nat) : List Nat :=
  (s.insts.filter fun p => p.2.kind == .stage && p.2.ctx == c).map (·.1)

/-- Whether a CLAIM command waits in the Walking state for FIFO space or for a free entry, or behind such a command on its handle. -/
def State.claimWaits (s : State) (o : PendOp) (p : Part) : Bool :=
  let i := s.inst o.iid
  let full := (List.range Config.claimSize).all fun e => (s.claim (i.die o.iid * 256 + e)).st != .free
  p.done == 0 && !i.trailing &&
    if p.arrived then s.claimList.any fun c => c.2.op == o.id && c.2.tid == p.tid && c.2.st == .walking && c.2.checked
    else !p.args.isEmpty && (match o.ins with | .claimUse .. => true | _ => false) || s.cmdBehind o p ||
      ((claimCmd o.ins).bind fun k => s.handle i.ctx k).elim full fun g =>
        (s.claim g).st == .walking && (s.claim g).checked || (s.claim g).st == .free && full

/-- The waiting operations of R132, which a save keeps pending. A diverged context is saved as it stands (R319). -/
def State.keeps (s : State) (o : PendOp) : Bool :=
  let i := s.inst o.iid
  (s.ctx i.ctx).log.diverged || (o.shares.all fun x => !x.left.isEmpty) && match o.ins with
  | .bar .. | .elect .. | .gred .. | .gbcast .. => true
  | .dqpop .. => (s.core i.core).dq.isEmpty
  | .reggrow .. => o.parts.all fun p => p.arg 0 == 2
  | .mrdy _ fa fb shape => !s.ready i.engine fa fb shape
  | .claimNew .. | .claimUse .. => o.parts.all fun p => s.claimWaits o p
  | _ => false

/-- A clause held at issue by a condition of R132. SQPOP on an empty queue holds the Guide in the same way. -/
def State.heldIssue (s : State) (is : Issue) : Bool :=
  let i := s.inst is.iid
  let queue (q : Nat) (f : StageQ → Bool) : Bool :=
    ((s.launchOf i).bind fun (l : Launch) => l.queues[q]?).elim false f
  let held (ins : Instr) : Bool := match ins.ctl with
    | none => false
    | some c => s.storeHeld is (s.runs is c) (numWords ins)
  match (s.readIns is).1 with
  | .ins ins => (match ins with
    | .dqpush .. => (s.core i.core).permits == 0
    | .sqpush _ _ q => queue q fun x => (i.sides (s.pairedStage i x.consumer)).any fun t => decide (x.cap ≤ (x.held t).length)
    | .sqpop _ _ _ q => queue q fun x => (x.held i.trailing).isEmpty
    | .st .. | .stm .. | .atom .. | .atomcas .. | .red .. | .mcast .. => held ins
    | .sts .. | .atoms .. | .atomscas .. => (ins.ctl.map fun c => s.fullHeld is (s.runs is c)).getD false
    | _ => false)
  | _ => false

/-- Whether an instance has come to rest at clause boundaries: every clause in flight is held, every operation waits. -/
def State.atRest (s : State) (iid : Nat) : Bool :=
  (s.issues.all fun (x : Issue) => x.iid != iid || s.heldIssue x || (s.ctx (s.inst iid).ctx).log.stopped) &&
    (s.ops.all fun (o : PendOp) => o.iid != iid || s.keeps o) &&
    (s.clusters.all fun c => c.2.resv.all fun r => r.2.iid != iid)

/-- The instances stop issuing clauses, or go on. -/
def State.hold (s : State) (iids : List Nat) (on : Bool) : State :=
  iids.foldl (fun s k => s.modInst k fun i =>
    { i with st := if i.st == .ending then .ending else if on then .hold else .run }) s

/-- Walking claims of an instance go back to their commands (R132). -/
def State.unwalk (s : State) (iid : Nat) : State :=
  let gs := (s.claimList.filter fun p => p.2.st == .walking && p.2.iid == iid).map (·.1)
  let s := gs.foldl (fun s g => s.freeClaim g) s
  { s with ops := s.ops.map fun (o : PendOp) =>
      if o.iid == iid && (claimCmd o.ins).isSome then
        { o with parts := o.parts.map fun (p : Part) => { p with arrived := false } }
      else o }

/-- An instance at rest releases: its L1 is written back, the remote writes it has begun leave; the answer says that all of
it has arrived (R251, R337). A trailing copy's dirty bytes stay (R263). -/
def State.release (s : State) (iid : Nat) : Bool × State :=
  let i := s.inst iid
  let s := if i.trailing then s else s.writebackAll iid
  let s := s.drainWhere i.core fun e => e.iid == iid
  let mine (f : FReq) : Bool := match f.kind with
    | .write e => e.iid == iid
    | .mcast _ _ _ r _ => r.iid == iid
    | _ => false
  (!s.underway (i.core / Config.coresPerDie) (fun m => m.ctx == i.ctx) && !(s.freqs.any mine) && !s.l1Dirty iid, s)

/-! ### Capturing an instance -/

/-- The entries of a table in a range of keys, by their distance from its start. -/
def rangeOf (m : SMap β) (base n : Nat) : SMap β :=
  m.filterMap fun p => if base ≤ p.1 ∧ p.1 < base + n then some (p.1 - base, p.2) else none
def dropRange (m : SMap β) (base n : Nat) : SMap β := m.filter fun p => !(decide (base ≤ p.1) && decide (p.1 < base + n))
def putRange [DecidableEq β] (d : β) (m : SMap β) (base : Nat) (xs : SMap β) : SMap β :=
  xs.foldl (fun m p => sset d m (base + p.1) p.2) m

/-- The rows of an instance: home warp h, register n, lane l stand at (h × 256 + n) × 32 + l. -/
def Core.rowsOf (k : Core) (i : Inst) : SMap Word :=
  (i.hws.filter fun h => h.1 != guideHw).flatMap fun h =>
    (rangeOf k.reg (h.2.vb * 32) (h.2.n * 32)).map fun p => (h.1 * 8192 + p.1, p.2)

/-- The memory cells of a record's 1 MiB. -/
def State.slotCells (s : State) (area : Nat) : List Host.Cell :=
  s.mem.filter fun p => decide (area ≤ p.1) && decide (p.1 < area + 2 ^ 20)
/-- Whether a range lies in one tier of the controllers of a context, and for a sealed one on its world's dies (R278). -/
def State.ownArea (s : State) (b : Ccb) (pa n : Nat) : Bool :=
  validPa pa && !paWindow pa && decide (b.ibase ≤ paCtrl pa) && decide (paCtrl pa < b.ibase + 2 ^ b.ik) &&
    decide (paLocal pa + n ≤ localLimit (paFar pa)) && (b.world == 0 || (s.die (paDie pa)).world == b.world)

/-- The first n slots of a context's save area beside those used, as far as the context's controllers reach. -/
def State.slotsBeside (s : State) (c : Nat) (used : List Nat) (n : Nat) : List Nat :=
  (((List.range (used.length + n)).map fun k => (s.ctx c).ccb.saveArea + k * 2 ^ 20).filter fun a =>
    !used.contains a && s.ownArea (s.ctx c).ccb a (2 ^ 20)).take n
/-- The slots that hold records of saved instances. -/
def State.savedSlots (s : State) (c : Nat) : List Nat := (s.saved.filter fun (v : Saved) => v.inst.ctx == c).map (·.area)
/-- Slots of the save area in which no saved record and no part of the interval's snapshot lies. -/
def State.freeSlots (s : State) (c n : Nat) : List Nat :=
  s.slotsBeside c (s.savedSlots c ++ ((s.ctx c).snap ++ (s.ctx c).snapSaved).map (·.area)) n

/-- What a save keeps of an instance at rest (R132). -/
def State.capture (s : State) (iid area : Nat) : Saved :=
  let i := s.inst iid
  let k := s.core i.core
  { iid, inst := { i with l1 := if i.trailing then i.l1 else [], st := .run }
    reg := k.rowsOf i
    spad := rangeOf k.spad i.spadBase i.spadSize
    acc := rangeOf k.acc (i.accBase * 4096) (i.accTiles * 4096)
    tstat := rangeOf k.tstat i.accBase i.accTiles
    absent := ((k.absent.filter fun a => decide (i.spadBase / 128 ≤ a) && decide (a < (i.spadBase + i.spadSize) / 128)).map
      (· - i.spadBase / 128))
    dq := if i.guide then k.dq else []
    permits := k.permits
    dqWait := k.dqWait.filter fun w => s.ops.any fun (o : PendOp) => o.iid == iid && o.id == w.1
    sfq := (k.sfq ++ k.sfWait).filter fun (r : SfRec) => r.iid == iid
    conts := s.issues.filter fun (x : Issue) => x.iid == iid
    ops := s.ops.filter fun (o : PendOp) => o.iid == iid
    vc := (s.die (i.core / Config.coresPerDie)).vc
    dqSeq := k.dqSeq
    fset := i.cluster
    area, cells := s.slotCells area }

/-- What a core loses with an instance. -/
def Core.strip (k : Core) (iid : Nat) (i : Inst) (ops : List Nat) : Core :=
  { k with
    reg := (i.hws.filter fun h => h.1 != guideHw).foldl (fun m h => dropRange m (h.2.vb * 32) (h.2.n * 32)) k.reg
    spad := dropRange k.spad i.spadBase i.spadSize
    acc := dropRange k.acc (i.accBase * 4096) (i.accTiles * 4096)
    tstat := dropRange k.tstat i.accBase i.accTiles
    absent := k.absent.filter fun a => !(decide (i.spadBase / 128 ≤ a) && decide (a < (i.spadBase + i.spadSize) / 128))
    dq := if i.guide then [] else k.dq
    dqWait := k.dqWait.filter fun w => !ops.contains w.1
    sfq := k.sfq.filter fun (r : SfRec) => r.iid != iid
    sfWait := k.sfWait.filter fun (r : SfRec) => r.iid != iid }

/-- An instance is gone from its core, with everything that names it there. -/
def State.dropInst (s : State) (iid : Nat) : State :=
  let i := s.inst iid
  let own (w : Want) : Bool := match w.who with
    | .fetch k _ | .target k _ => k == iid
    | .op o _ => s.ops.any fun (x : PendOp) => x.id == o && x.iid == iid
    | _ => false
  let ops := (s.ops.filter fun (o : PendOp) => o.iid == iid).map (·.id)
  let s : State := { s with
    wants := s.wants.filter fun w => !own w
    issues := s.issues.filter fun (x : Issue) => x.iid != iid
    ops := s.ops.filter fun (o : PendOp) => o.iid != iid
    insts := sdel s.insts iid }
  (s.modCore i.core fun k => k.strip iid i ops).settleSf i.core ((s.core i.core).sfWait.length)

/-! ### Clusters (R181) -/

/-- Whether other instances than these are resident on a cluster. -/
def State.othersOn (s : State) (cl : Nat) (but : List Nat) : Bool :=
  s.insts.any fun p => p.2.kind == .stage && p.2.cluster == cl && !but.contains p.1
/-- Flows on their way into the FIFOs of a cluster. -/
def State.flowsInto (s : State) (cl : Nat) : Bool :=
  s.flows.any fun (f : Flow) =>
    let c := s.claim (f.die * 256 + f.entry)
    c.dk == .fifo && c.cluster == cl
/-- The context gives up a cluster: its FIFOs are saved. -/
def State.giveUp (s : State) (cl : Nat) : State :=
  match (s.cluster cl).owner with
  | none => s
  | some c =>
    let fs := (s.cluster cl).fifos
    let s := if fs.isEmpty then s else s.modCtx c fun x => { x with fifos := sput x.fifos cl fs }
    s.modCluster cl fun k => { k with owner := none, fifos := [], resv := [] }
/-- A set of FIFOs that a context keeps saved takes another name, and the claims and the saved instances that belong to it with it. -/
def State.renameFifos (s : State) (c old new : Nat) : State :=
  let s := (s.claimList.filter fun p => p.2.ctx == c && p.2.dk == .fifo && p.2.cluster == old).foldl (fun s p =>
    s.modClaim p.1 fun k => { k with cluster := new }) s
  let s : State := { s with saved := s.saved.map fun (v : Saved) => if v.inst.ctx == c && v.fset == old then { v with fset := new } else v }
  match find? (s.ctx c).fifos old with
  | none => s
  | some fs => s.modCtx c fun x => { x with fifos := sput (sdel x.fifos old) new fs }
/-- A context takes a cluster for an instance whose FIFOs it keeps under a name: they come back, and the claims on them with them
(R181); a first hold finds them empty (R271). A set that was saved from this cluster and belongs to other instances stays saved,
under a name that is no cluster's. -/
def State.takeCluster (s : State) (c cl name : Nat) : State :=
  if (s.cluster cl).owner == some c then s
  else
    let s := if cl = name then s else s.renameFifos c cl (Config.dies * Config.clustersPerDie + s.nextId)
    let s : State := if cl = name then s else { s with nextId := s.nextId + 1 }
    let s := if cl = name || (s.cluster name).owner == some c then s else s.renameFifos c name cl
    (s.modCluster cl fun k => { k with owner := some c, fifos := sget [] (s.ctx c).fifos cl }).modCtx c fun x =>
      { x with fifos := sdel x.fifos cl }

/-! ### Where an instance fits (R11, R13, R56, R117, R120, R181, R282, R283) -/

/-- What an instance needs of a core: its home warps with their registers and the base they would like, whether it has a
Guide, scratchpad and tiles with the bases they would like. -/
structure Need where
  hws   : List (Nat × Nat × Nat)
  guide : Bool
  spad  : Nat
  spadLike : Nat
  acc   : Nat
  accLike : Nat
deriving DecidableEq, Repr, Inhabited

/-- Where its regions lie. -/
structure Bases where
  rows : List (Nat × Nat)
  spad : Nat
  acc  : Nat
deriving DecidableEq, Repr, Inhabited

/-- A base for n units beside ranges that are held: the one that is liked where it is free, else the lowest. -/
def rangeBase (held : List (Nat × Nat)) (limit like n : Nat) : Option Nat :=
  let free (b : Nat) : Bool := decide (b + n ≤ limit) && held.all fun r => decide (b + n ≤ r.1) || decide (r.1 + r.2 ≤ b) || decide (r.2 = 0)
  if free like then some like else ((0 :: held.map fun r => r.1 + r.2).insertionSort (· ≤ ·)).find? free
def rowBases (held : List (Nat × Nat)) : List (Nat × Nat × Nat) → Option (List (Nat × Nat))
  | [] => some []
  | (h, n, like) :: r => (rangeBase held (Config.bankBytes / 128) like n).bind fun b =>
      (rowBases ((b, n) :: held) r).map fun bs => (h, b) :: bs

def Need.bytes (n : Need) : Nat := (n.hws.map fun h => 128 * h.2.1).sum + (n.spad + 127) / 128 * 128 + 16384 * n.acc

/-- Whether the mask of a context's virtual function holds a cluster, and no lower-numbered function's mask does (R279). -/
def State.vfHas (s : State) (c cl : Nat) : Bool :=
  let v := (s.ctx c).ccb.vf
  (s.vf v).clusters.testBit cl && !((List.range v).any fun u => (s.vf u).clusters.testBit cl)

/-- An instance fits a core (R283). -/
def State.fits (s : State) (c core : Nat) (n : Need) : Option Bases :=
  let here := s.insts.filter fun p => p.2.kind == .stage && p.2.core == core
  let k := s.cluster (core / 4)
  let slots (par : Nat) : Nat := (here.map fun p => (p.2.hws.filter fun h => h.1 != guideHw && h.1 % 2 == par).length).sum +
    (n.hws.filter fun h => h.1 % 2 == par).length
  if s.halted || k.fenced || k.test != .idle || !(k.owner.isNone || k.owner == some c) ||
      (s.die (core / Config.coresPerDie)).world != (s.ctx c).ccb.world || decide (Config.warpsPerPart < slots 0) ||
      decide (Config.warpsPerPart < slots 1) || (n.guide && here.any fun p => p.2.guide) ||
      decide (Config.regionMax < s.regionBytes core noCtx 0 + n.bytes) then none
  else do
    let held := s.rowsHeld core noCtx 0
    -- where the liked places leave an own home warp none, they go from the lowest row upward
    let rows ← (rowBases held n.hws).orElse fun _ => rowBases held (n.hws.map fun x => (x.1, x.2.1, Config.bankBytes))
    let spad ← rangeBase (here.map fun p => (p.2.spadBase, (p.2.spadSize + 127) / 128 * 128)) Config.bankBytes n.spadLike
      ((n.spad + 127) / 128 * 128)
    let acc ← rangeBase (here.map fun p => (p.2.accBase, p.2.accTiles)) (Config.bankBytes / 16384) n.accLike n.acc
    return { rows, spad, acc }

def Inst.need (i : Inst) : Need :=
  { hws := (i.hws.filter fun h => h.1 != guideHw).map fun h => (h.1, h.2.n, h.2.vb)
    guide := i.guide, spad := i.spadSize, spadLike := i.spadBase, acc := i.accTiles, accLike := i.accBase }

/-! ### Saving one instance -/

/-- The record of a save or a restore (R316, type 0x08). -/
def saveRec (i : Inst) (restore : Bool) (core : Nat) : List Byte :=
  bytesOf 4 i.no ++ bytesOf 1 i.stage ++ bytesOf 1 restore.toNat ++ bytesOf 2 core ++ bytesOf 4 0

/-- A save fell inside the counter sets that are open (R313). -/
def Inst.cutCounters (i : Inst) : Inst :=
  { i with hws := i.hws.map fun h => (h.1, { h.2 with counters := h.2.counters.map fun c =>
      (c.1, if c.2.on then { c.2 with cut := true } else c.2) }) }

/-- Row moves that are due take place (R13). -/
def State.moveAll (s : State) (iid : Nat) : State := (skeys (s.inst iid).hws).foldl (fun s h => s.moveRows iid h) s

/-- Saves an instance that is at rest, once its release is over and its record is logged; the answer says whether it is
saved. Where the context gives up the cluster with it, the flows into its FIFOs are over first (R181). -/
def State.saveOne (s : State) (iid : Nat) : Bool × State :=
  let i := s.inst iid
  let last := !s.othersOn i.cluster [iid]
  match s.freeSlots i.ctx 1 with
  | [] => (false, s)
  | area :: _ =>
  if !s.atRest iid || (last && s.flowsInto i.cluster) then (false, s)
  else
    let (ok, s) := s.release iid
    if !ok then (false, s)
    else
      let g := (s.ctx i.ctx).log
      let (ok, s) := if g.diverged || g.stopped then (true, s)
        else s.gate i.ctx (logSrc (i.core / Config.coresPerDie) 3 0) 0x08 (saveRec i false i.core)
      if !ok then (false, s)
      else
        let s := (s.unwalk iid).moveAll iid
        let s := s.modInst iid Inst.cutCounters
        let s := s.scribble area (2 ^ 20)
        let v := s.capture iid area
        let s := s.dropInst iid
        let s : State := { s with saved := s.saved ++ [v] }
        (true, if last then s.giveUp i.cluster else s)

/-- Saves instances: they hold, all come to rest, then each is saved. The answer says that none is left. -/
def State.saveAll (s : State) (iids : List Nat) : Bool × State :=
  let here := iids.filter fun k => (s.inst? k).isSome
  let s := s.hold here true
  if !(here.all fun k => s.atRest k) then (false, s)
  else here.foldl (fun (r : Bool × State) k => let (ok, s) := r.2.saveOne k; (r.1 && ok, s)) (true, s)

/-! ### A replay that diverges (R319, R321) -/

/-- The fault: the context stops, the supervisor receives event 8, and the context is saved. -/
def State.diverge (s : State) (c kind index : Nat) : State :=
  let s := if (s.ctx c).log.diverged then s
    else (s.modCtx c fun x => { x with log := { x.log with diverged := true, diverge := none } }).pushEvent 0 8 kind c 0 index
  (s.saveAll (s.resident c)).2

/-- Whether a context and the one that its PARTNER register names are paired: each names the other. -/
def State.mates (s : State) (c : Nat) : Bool :=
  let g := (s.ctx c).log
  let h := (s.ctx g.partner).log
  g.pvalid && h.pvalid && h.partner == c
/-- The signatures of two partners' interval ends are compared as soon as both exist. -/
def State.comparePair (s : State) (c : Nat) : State :=
  let p := (s.ctx c).log.partner
  if !s.mates c then s
  else match (s.ctx c).sigs, (s.ctx p).sigs with
    | a :: _, b :: _ =>
      let s := (s.modCtx c fun x => { x with sigs := x.sigs.drop 1 }).modCtx p fun x => { x with sigs := x.sigs.drop 1 }
      if a = b then s else (s.diverge c 6 0).diverge p 6 0
    | _, _ => s

/-! ### Restoring -/

/-- Claims on the regions of an instance move with it (R231): each page of theirs that lies in one of its regions. -/
def State.moveClaims (s : State) (i : Inst) (core : Nat) (b : Bases) : State :=
  let cut (lo x n : Nat) : Bool := decide (x < lo + 4096) && decide (lo < x + n)
  let win (c r : Nat) : Nat := 2 ^ 47 + c / Config.coresPerDie * 2 ^ 44 + c % Config.coresPerDie * 2 ^ 37 + r * 2 ^ 35
  let move (pa : Nat) : Nat :=
    if !paWindow pa || paCore pa != i.core then pa
    else
      let o := paOff pa
      match paRegion pa with
      | 0 => match (i.hws.filter fun h => h.1 != guideHw).find? fun h => cut o (h.2.vb * 128) (h.2.n * 128) with
        | some h => win core 0 + o + (((b.rows.find? fun r => r.1 == h.1).map (·.2)).getD h.2.vb) * 128 - h.2.vb * 128
        | none => pa
      | 1 => if cut o i.spadBase i.spadSize then win core 1 + o + b.spad - i.spadBase else pa
      | _ => if cut o (i.accBase * 16384) (i.accTiles * 16384) then win core 2 + o + b.acc * 16384 - i.accBase * 16384 else pa
  (s.claimList.filter fun p => p.2.st == .held || p.2.st == .revoking || p.2.st == .walking).foldl (fun s p =>
    s.modClaim p.1 fun c => { c with pages := c.pages.map fun (g : ClaimPg) => { g with pa := move g.pa } }) s

/-- An undo entry of the scratchpad moves with the region (R163, R262). -/
def Region.respad (r : Region) (old new : Nat) : Region :=
  { r with undo := r.undo.map fun u => if u.spad then { u with addr := u.addr - old + new } else u }
/-- An instance whose home warps have these bases. -/
def Inst.rebase (i : Inst) (core : Nat) (b : Bases) : Inst :=
  { i with core, spadBase := b.spad, accBase := b.acc
           hws := i.hws.map fun h =>
             let w := { h.2 with regions := h.2.regions.map fun r => r.respad i.spadBase b.spad
                                 opening := h.2.opening.map fun r => r.respad i.spadBase b.spad }
             (h.1, match b.rows.find? fun r => r.1 == h.1 with
               | some r => { w with vb := r.2 }
               | none => w)
           subs := i.subs.map fun g => { g with lines := g.lines.map fun l => l - i.spadBase / 128 + b.spad / 128 } }

/-- Puts a saved instance on a core (R132, R286): everything is as it was, its threads issue from new formations. -/
def State.install (s : State) (v : Saved) (core : Nat) (b : Bases) : State :=
  let old := v.inst
  let j := (old.rebase core b)
  let j := { j with st := .run, ths := j.ths.map fun t => (t.1, { t.2 with restored := true }) }
  let s := s.takeCluster old.ctx (core / 4) v.fset
  let s := s.moveClaims old core b
  let s : State := { s with insts := sput s.insts v.iid j }
  let s := s.modCore core fun k =>
    { k with
      reg := (j.hws.filter fun h => h.1 != guideHw).foldl (fun m h =>
        putRange 0 m (h.2.vb * 32) (rangeOf v.reg (h.1 * 8192) 8192)) k.reg
      spad := putRange 0 k.spad b.spad v.spad
      acc := putRange 0 k.acc (b.acc * 4096) v.acc
      tstat := putRange 0 k.tstat b.acc v.tstat
      absent := k.absent ++ v.absent.map (· + b.spad / 128)
      dq := if old.guide then v.dq else k.dq
      permits := if old.guide then v.permits else k.permits
      dqSeq := if old.guide then v.dqSeq else k.dqSeq
      dqWait := k.dqWait ++ v.dqWait
      sfWait := k.sfWait ++ v.sfq }
  let s := s.settleSf core (s.core core).sfWait.length
  let s := s.modDie (core / Config.coresPerDie) fun d => { d with vc := vcMax d.vc v.vc }
  let seqOf (q : Seq) : Seq := match q with
    | .part _ p => .part core p
    | .guide _ => .guide core
    | q => q
  let s : State := { s.l1Trim core with
    issues := s.issues ++ v.conts.map fun (x : Issue) => { x with q := seqOf x.q }
    ops := s.ops ++ v.ops }
  -- an exit that was asked for takes place now
  s.exitThreads v.iid ((j.ths.filter fun t => t.2.dying && t.2.susp.isNone).map (·.1))

/-- The record's tag: the save area holds what the save wrote. -/
def State.tagOk (s : State) (v : Saved) : Bool := s.slotCells v.area == v.cells

/-- The cores a restore may use: of those of a cluster, or of all, the ones in the virtual function's mask. -/
def State.loadCores (s : State) (c cl : Nat) : List Nat :=
  (List.range (Config.dies * Config.coresPerDie)).filter fun k => (cl == 0xFFFF || k / 4 == cl) && s.vfHas c (k / 4)

/-- The other cores of a core's die. -/
def otherCores (core : Nat) : List Nat :=
  ((List.range Config.coresPerDie).map (core / Config.coresPerDie * Config.coresPerDie + ·)).filter (· != core)

/-- A core among some where a saved instance fits (R283): which one is the implementation's (R286). A trailing copy takes another
core of its leading copy's die, and a leading copy leaves it one. -/
def State.loadFit (s : State) (v : Saved) (cl : Nat) : Option (Nat × Bases) :=
  let i := v.inst
  let c := i.ctx
  let mate := i.partner.bind fun p => (s.inst? p).map (·.core)
  let waits := i.partner.bind fun p => s.saved.find? fun (w : Saved) => w.iid == p
  -- in replay the core is the recorded one (R318)
  let logged := if !(s.ctx c).ccb.rplB then none else (List.range Config.dies).findSome? fun d =>
    (s.logNext c (logSrc d 3 0)).bind fun n => if logIdent n.2 == logIdent (s.logRec c (logSrc d 3 0) 0x08 (saveRec i true 0)) then
      some (bytesNat n.2 10 2) else none
  let own := (s.loadCores c (if i.trailing then 0xFFFF else cl)).filter fun k => logged.elim true (· == k)
  let cores := match mate with
    | some m => (otherCores m).filter own.contains
    | none => own
  let leaves (k : Nat) : Bool := match mate, waits with
    | none, some w => (otherCores k).any fun y => s.vfHas c (y / 4) && (s.fits c y w.inst.need).isSome
    | _, _ => true
  let ok := cores.filterMap fun k => if leaves k then (s.fits c k i.need).map fun b => (k, b) else none
  ok[(Config.openRead s.fresh 12).toNat % ok.length]?

/-- Restores one saved instance: logged, then placed. -/
def State.loadOne (s : State) (v : Saved) (cl : Nat) : Option (Bool × State) :=
  (s.loadFit v cl).map fun (core, b) =>
    let i := v.inst
    let g := (s.ctx i.ctx).log
    let (ok, s) := if g.diverged || g.stopped then (true, s)
      else s.gate i.ctx (logSrc (core / Config.coresPerDie) 3 0) 0x08 (saveRec i true core)
    if !ok then (false, s)
    else
      let s : State := { s with saved := s.saved.filter fun (x : Saved) => x.iid != v.iid }
      (true, s.install v core b)

/-- Restores several, one after the other; none where one of them does not fit. The answer is none where something does not fit. -/
def loadAll (cl : Nat) : State → List Saved → Option (Bool × State)
  | s, [] => some (true, s)
  | s, v :: r => (s.loadOne v cl).bind fun (ok, s) => if ok then loadAll cl s r else some (false, s)

/-! ### Intervals (R289, R320) -/

/-- The store signature: the sum over the sectors that the undo log holds; one that only a physical address has written
has no VA and is no part of it (log entry 34). -/
def State.signature (s : State) (c : Nat) : Nat :=
  ((((s.ctx c).undo.filter fun (u : UndoRec) => u.va != noVa).map fun (u : UndoRec) =>
    natOf (shake256 8 (bytesOf 8 u.va ++ s.readSector u.pa))).sum) % 2 ^ 64

/-- The keys of a context's dirty sectors in the L2 of a die. -/
def State.dirtyOf (s : State) (c d : Nat) : List Nat :=
  ((s.die d).l2.filter fun p => p.2.ctx == c && p.2.dirty != 0).map (·.1)
/-- Writes them to memory, where the undo areas of other contexts have room. Its own area takes what comes: the log that it holds
is over with the interval (log entry 34). -/
def State.flushCtx (s : State) (c : Nat) : Bool × State :=
  let step (d : Nat) (r : Bool × State) (key : Nat) : Bool × State :=
    match find? (r.2.die d).l2 key with
    | none => r
    | some x =>
      if (r.2.migOf x.pa key).elim false (·.st == .copied) || (skeys r.2.ctxs).any fun k => k != c && !r.2.undoOkOf k x.pa x.minor then
        (false, r.2)
      else (r.1, r.2.cleanSec d key x)
  (List.range Config.dies).foldl (fun r d => (r.2.dirtyOf c d).foldl (step d) r) (true, s)

/-- The live ring registers of a context with REC or RPL set are written back to the control block (R314). -/
def State.ringBack (s : State) (c : Nat) : State :=
  let x := s.ctx c
  let a := x.ccb.logPa
  if !x.ccb.recB && !x.ccb.rplB then s
  else ((s.setPaBytes (a + 16) (bytesOf 8 x.log.producer)).setPaBytes (a + 32) (bytesOf 8 x.log.replay)).setPaBytes (a + 40)
    (bytesOf 8 x.ivlNo)

/-- The log of an interval's end and start (types 0x0F and 0x0E): both, or neither. A signature that differs from the
recorded one is a divergence (R319). -/
def State.logInterval (s : State) (c sig : Nat) (ends : Bool) : Bool × State :=
  let x := s.ctx c
  let src := logSrc 0 5 0
  let fin := bytesOf 8 sig ++ bytesOf 4 (x.ivlNo % 2 ^ 32)
  let start := bytesOf 8 (x.ivlNo + 1) ++ bytesOf 4 0
  if x.ccb.recB && decide (x.log.size < x.log.producer - x.log.consumer + 2) then
    (false, s.modCtx c fun x => { x with log := { x.log with waits := sput x.log.waits src 2 } })
  else
    let s0 := s
    let (ok, s) := if ends then
        let s := if x.ccb.rplB then s.applyNext c src else s
        (match find? (s.ctx c).log.next src with
          | some (_, r) =>
            if x.ccb.rplB && (nthByte r 0).toNat == 0x0F && (r.drop 12).take 4 == bytesOf 4 (x.ivlNo % 2 ^ 32) &&
                (r.drop 4).take 8 != bytesOf 8 sig then
              (false, s.modCtx c fun x => { x with log := { x.log with diverge := some (5, 0) } })
            else s.gate c src 0x0F fin
          | none => s.gate c src 0x0F fin)
      else (true, s)
    if !ok then (false, s)
    else
      let s := if x.ccb.rplB then s.applyNext c src else s
      let (ok, s) := s.gate c src 0x0E start
      if ok then (true, s) else (false, s0.modCtx c fun x => { x with log := { x.log with diverge := (s.ctx c).log.diverge } })

/-- Records of resident instances in slots of the save area of their own. -/
def State.recordAll (s : State) (iids areas : List Nat) : List Saved × State :=
  let s := areas.foldl (fun s a => s.scribble a (2 ^ 20)) s
  ((List.range iids.length).map fun k => s.capture (iids.getD k 0) (areas.getD k 0), s)

/-- What the snapshot keeps, with the saved instances, clusters, handles and launches of the context. -/
def State.snapshot (s : State) (c : Nat) : State :=
  let (snap, s) := s.recordAll (s.resident c) (s.slotsBeside c (s.savedSlots c) (s.resident c).length)
  let cls := (s.clusters.filter fun k => k.2.owner == some c).map fun k => (k.1, k.2.fifos)
  let gens := (s.ctx c).handles.map fun h => (h.1, h.2 + 2048 * (s.claim h.2).gen)
  let old := s.saved.filter fun (v : Saved) => v.inst.ctx == c
  let s := s.modCtx c fun x => { x with snap, snapSaved := old, snapHandles := gens
                                        snapClusters := cls ++ (x.fifos.filter fun f => !(skeys cls).contains f.1)
                                        ivlNo := x.ivlNo + 1, ivlOn := true, ivlAt := s.now, undo := [], undoWant := 0, unlogged := false }
  { s with snapLaunches := sput s.snapLaunches c (s.launches.filter fun (l : Launch) => l.ctx == c) }

/-- The instructions of an instance's threads are counted anew from an interval's start (R322); the threads of a resident one, which is
pre-empted and resumed there, issue from new formations (R289, R316). -/
def Inst.startIvl (i : Inst) (resumed : Bool) : Inst :=
  { i.cutCounters with ths := i.ths.map fun t => (t.1, { t.2 with retired := 0, restored := t.2.restored || resumed }) }

/-- An interval starts: the context comes to rest, its dirty bytes reach memory in the interval that ends, the snapshot is
taken, and it goes on. With `rec` the new interval is the first that is recorded (R311). -/
def State.beginInterval (s : State) (c : Nat) (rec : Bool) : Bool × State :=
  let iids := s.resident c
  let s := s.hold iids true
  if !(iids.all fun k => s.atRest k) || decide ((s.slotsBeside c (s.savedSlots c) iids.length).length < iids.length) then (false, s)
  else
    let (ok, s) := iids.foldl (fun (r : Bool × State) k => let (ok, s) := r.2.release k; (r.1 && ok, s)) (true, s)
    if !ok then (false, s)
    else
      let (ok, t) := s.flushCtx c
      if !ok then (false, s)
      else
        let x := t.ctx c
        let sig := t.signature c
        let u := if rec then t.modCtx c fun x => { x with ccb := { x.ccb with recB := true } } else t
        let (ok, u) := u.logInterval c sig (x.ivlOn && !rec)
        let g := (u.ctx c).log
        if !ok then (false, s.modCtx c fun y => { y with log := { y.log with waits := g.waits, held := g.held, next := g.next, diverge := g.diverge } })
        else
          let s := if x.ivlOn && u.mates c then u.modCtx c fun x => { x with sigs := x.sigs ++ [sig] } else u
          let s := iids.foldl (fun s k => ((s.unwalk k).moveAll k).modInst k fun i => i.startIvl true) s
          let s : State := { s with saved := s.saved.map fun (v : Saved) =>
            if v.inst.ctx == c then { v with inst := v.inst.startIvl false } else v }
          let s := s.snapshot c
          let s := s.ringBack c
          (true, (s.hold iids false).comparePair c)

/-- Whether a write waits for room in the undo area of a context. -/
def State.undoFull (s : State) (c : Nat) : Bool :=
  !(s.ctx c).undoRoom || (s.ctx c).undoWant != 0 || s.dies.any fun d => d.2.l2.any fun p => p.2.dirty != 0 && !s.undoOkOf c p.2.pa p.2.minor

/-- INTERVAL_START: with CKI set, when the interval's length has elapsed, or the undo area has no room. -/
def execIntervalStart (ctx : Nat) (s : State) : Host.Outcome State Fault Refusal :=
  .next (
    let x := s.ctx ctx
    if x.ccb.cki && x.ivlOn && !x.fatal && !x.log.stopped && !x.log.diverged &&
        (x.ccb.ivl != 0 && decide (x.ivlAt + x.ccb.ivl ≤ s.now) || s.undoFull ctx) then (s.beginInterval ctx false).2
    else s)

/-! ### The ending of a context (R290) -/

/-- A context becomes fatal: its threads exit, its saved instances are gone, its window claims are revoked, its launches
start nothing more, and the supervisor is told. -/
def State.fatalCtx (s : State) (c : Nat) : State :=
  if (s.ctx c).fatal then s
  else
    let win (k : SideK) : Bool := match k with
      | .reg | .spad | .acc => true
      | _ => false
    let s := s.modCtx c fun x => { x with fatal := true, ivlOn := false, undo := [], cerr := none, armed := false, stopOn := false, sigs := []
                                          log := x.log.fresh }
    let s := (s.revokeWhere (fun k => k.ctx == c && (win k.sk || win k.dk)) 5).2
    let s : State := { s with
      saved := s.saved.filter fun (v : Saved) => v.inst.ctx != c
      launches := s.launches.map fun (l : Launch) => if l.ctx == c then { l with dead := true } else l }
    let s := (s.resident c).foldl (fun s k => s.exitThreads k ((s.inst k).ths.map (·.1))) s
    s.pushEvent 0 6 0 c 0 0

/-! ### Rollback (R290) -/

/-- The undo area goes back, the last append first. -/
def State.undoAll (s : State) : List UndoRec → State
  | [] => s
  | u :: r => ((s.writeSector u.pa u.va 0 u.old (BitVec.allOnes 32)).setPoison u.pa u.oldPoison).undoAll r

/-- The handles of the snapshot whose entries are still theirs are all that the context holds. -/
def State.handlesBack (s : State) (c : Nat) : State :=
  let keep := (s.ctx c).snapHandles
  ((s.ctx c).handles.filter fun h =>
    find? keep h.1 != some (h.2 + 2048 * (s.claim h.2).gen) && (s.claim h.2).flows == 0).foldl (fun s h => s.freeClaim h.2) s

/-- Rolls a context back once its clauses, its flows and its writes in flight have ended; the answer says that it has. -/
def State.rollBack (s : State) (c : Nat) : Bool × State :=
  let x := s.ctx c
  let iids := s.resident c
  let mine (iid : Nat) : Bool := iids.contains iid
  if (s.issues.any fun (k : Issue) => mine k.iid && !s.heldIssue k && !x.log.stopped && !x.log.diverged) ||
      (s.flows.any fun (f : Flow) => (s.claim (f.die * 256 + f.entry)).ctx == c) || (s.d2d.any fun (m : D2d) => m.ctx == c) then
    (false, s.hold iids true)
  else
    let told := s.ctx c
    let s := iids.foldl (fun s k => s.unwalk k) s
    let s := s.modCtx c fun x => { x with ivlOn := false }
    let s := (List.range Config.dies).foldl (fun s d => s.modDie d fun y =>
      { y with l2 := y.l2.filter (fun p => p.2.ctx != c), cmp := y.cmp.filter fun (e : CmpEntry) => !mine e.iid }) s
    let s := s.undoAll x.undo.reverse
    let cls := s.clusters.map fun (k : Nat × Cluster) => if k.2.owner == some c then
        (k.1, { k.2 with owner := none, fifos := [], resv := k.2.resv.filter fun r => !mine r.2.iid }) else k
    let s : State := { s with clusters := cls }
    let s := iids.foldl (fun s k => s.dropInst k) s
    let s : State := { s with saved := (s.saved.filter fun (v : Saved) => v.inst.ctx != c) ++ x.snapSaved }
    -- launches that another agent has issued since start anew; the context's own are issued again by its threads
    let old := (find? s.snapLaunches c).getD []
    let anew := (s.launches.filter fun (l : Launch) => l.ctx == c && l.by_ != c && !(old.any fun (m : Launch) => m.id == l.id)).map
      fun (l : Launch) => { l with started := false, stages := l.stages.map fun (t : StageSt) => { t with placed := 0, pendGang := [] }
                                   queues := l.queues.map fun (q : StageQ) => { q with recs := [], seqNo := 0, trail := [], trailNo := 0 } }
    let s : State := { s with launches := (s.launches.filter fun (l : Launch) => l.ctx != c) ++ old ++ anew }
    let s := s.handlesBack c
    let s := s.modCtx c fun x => { x with fifos := x.snapClusters, cerr := none, sigs := [] }
    -- each resumes on its core, else on one that fits, else the Trailhead restores it when one does
    let s := x.snap.foldl (fun s v =>
      match s.fits c v.inst.core v.inst.need with
      | some b => s.install v v.inst.core b
      | none => match s.loadFit v 0xFFFF with
        | some (core, b) => s.install v core b
        | none => { s with saved := s.saved ++ [{ v with auto := true }] }) s
    let s := s.modCtx c fun y =>
      { y with ivlOn := true, ivlAt := s.now, undo := [], unlogged := false, stopOn := false, log := y.log.fresh }
    (true, s.pushEvent 0 5 told.unlogged.toNat c 0 0)

/-- Whether a context rolls back: a thread has consumed an error that no region holds, or a containment error names the whole
context (R233, R259). -/
def State.mustRoll (s : State) (c : Nat) : Bool :=
  (s.ctx c).cerr.isSome || s.insts.any fun p => p.2.kind == .stage && p.2.ctx == c && p.2.ths.any fun t =>
    match t.2.uncorr with
    | none => false
    | some u => t.2.status != .exited && ((p.2.hw (p.2.hwOf t.1)).target t.1 u).isNone

/-- A context without an interval, or whose snapshot fails its tag, is fatal. -/
def State.rollOrEnd (s : State) (c : Nat) : Bool × State :=
  let x := s.ctx c
  if !x.ccb.cki || !x.ivlOn || !((x.snap ++ x.snapSaved).all fun v => s.tagOk v) then (true, s.fatalCtx c) else s.rollBack c

/-! ### CTXSAVE and CTXLOAD (R312) -/

/-- Status D of a part. -/
def State.status (s : State) (o : PendOp) (p : Part) (d x : Nat) : State :=
  s.partWrites o.id p.tid (o.dst (s.inst o.iid) p.tid false d (BitVec.ofNat 64 x)) 0

/-- The instances that a number names in a context: which of several stages or launches is meant, the spec leaves open
(log entry 35). With a copy its partner goes along. -/
def pickInst (n : Nat) (xs : List (Nat × Inst)) (no : Nat) : List Nat :=
  let ys := xs.filter fun p => p.2.no == no && p.2.leading
  match ys[n % ys.length]? with
  | none => []
  | some (k, i) => k :: i.partner.toList

def ctxsaveOp (ins : Instr) (c : Ctl) (o : O2) (all : Bool) (s : State) : Host.Outcome State Fault Refusal :=
  flagged ins c noMore (partPer fun s is r =>
    let x := s.srcV is r false o.a &&& 0xFFFF
    let mine := s.insts.filter fun p => p.2.kind == .stage && p.2.ctx == x.toNat
    let ks := if all then skeys mine else pickInst (Config.openRead s.fresh 11).toNat mine (s.srcB is r .n32 o.b).toNat
    x :: ks.map (BitVec.ofNat 64)) noAfter s
def execCtxsaveInst (c : Ctl) (o : O2) (s : State) := ctxsaveOp (.ctxsaveInst c o) c o false s
def execCtxsaveCtx (c : Ctl) (o : O2) (s : State) := ctxsaveOp (.ctxsaveCtx c o) c o true s
def execCtxsaveEnd (c : Ctl) (o : O2) (s : State) := ctxsaveOp (.ctxsaveEnd c o) c o true s

/-- Whether an instance may be pre-empted: its stage allows it, or its cluster's test is overdue (R286, R296). -/
def State.mayMove (s : State) (iid : Nat) : Bool :=
  let i := s.inst iid
  i.preemptible || (s.cluster i.cluster).test == .overdue

/-- The next action of CTXSAVE.inst and .ctx. -/
def State.ctxsaveStep (s : State) (o : PendOp) (p : Part) (d : Nat) : State :=
  let ks := (p.args.drop 1).map (·.toNat)
  let here := ks.filter fun k => (s.inst? k).isSome
  if ks.isEmpty then s.status o p d 4
  else if p.done = 0 ∧ !(here.all fun k => s.mayMove k) then s.status o p d 1
  else
    let s := s.modOp o.id fun o => o.modPart p.tid fun p => { p with done := 1 }
    let (ok, s) := s.saveAll ks
    if ok then s.status o p d 0 else s

/-- The next action of CTXSAVE.end. -/
def State.ctxendStep (s : State) (o : PendOp) (p : Part) (d : Nat) : State :=
  let c := (p.arg 0).toNat
  let left := !(s.resident c).isEmpty || s.launches.any fun (l : Launch) => l.ctx == c
  if p.done = 0 then
    if !left && !(s.saved.any fun (v : Saved) => v.inst.ctx == c) then s.status o p d 4
    else (s.modOp o.id fun o => o.modPart p.tid fun p => { p with done := 1 }).fatalCtx c
  else if left then s else s.status o p d 0

/-- Operands: context, cluster, then the saved instances. -/
def ctxloadOp (ins : Instr) (c : Ctl) (o : O2) (all : Bool) (s : State) : Host.Outcome State Fault Refusal :=
  flagged ins c noMore (partPer fun s is r =>
    let x := s.srcV is r false o.a &&& 0xFFFF
    let b := s.srcB is r .n32 o.b
    let mine := (s.saved.filter fun (v : Saved) => v.inst.ctx == x.toNat).map fun v => (v.iid, v.inst)
    let ks := if all then mine.map (·.1) else pickInst (Config.openRead s.fresh 11).toNat mine (b.toNat % 2 ^ 16)
    x :: BitVec.ofNat 64 (b.toNat / 2 ^ 16 % 2 ^ 16) :: ks.map (BitVec.ofNat 64)) noAfter s
def execCtxload (c : Ctl) (o : O2) (s : State) := ctxloadOp (.ctxload c o) c o false s
def execCtxloadCtx (c : Ctl) (o : O2) (s : State) := ctxloadOp (.ctxloadCtx c o) c o true s

/-- The next action of CTXLOAD: every instance named, or none. A context that has diverged stays saved (R319; log entry 37). -/
def State.ctxloadStep (s : State) (o : PendOp) (p : Part) (d : Nat) : State :=
  let ks := (p.args.drop 2).map (·.toNat)
  let vs := s.saved.filter fun (v : Saved) => ks.contains v.iid
  if ks.isEmpty then s.status o p d 4
  else if vs.any fun v => (s.ctx v.inst.ctx).log.diverged then s.status o p d 1
  else if !(vs.all fun v => s.tagOk v) then s.status o p d 2
  else match loadAll (p.arg 1).toNat s (vs.filter (fun v => !v.inst.trailing) ++ vs.filter fun v => v.inst.trailing) with
    | none => s.status o p d 3
    | some (ok, t) => if ok then t.status o p d 0 else t

/-! ### CKPT (R291, R310) -/

def execCkptIvl (c : Ctl) (d : Nat) (b : BSrc) (s : State) :=
  flagged (.ckptIvl c d b) c noMore (partPer fun s is r => [s.srcB is r .n32 b &&& 0xFFFF]) noAfter s
def execCkptMem (c : Ctl) (d : Nat) (s : State) := flagged (.ckptMem c d) c noMore (partPer fun _ _ _ => []) noAfter s
def execCkptMemrst (c : Ctl) (d : Nat) (s : State) := flagged (.ckptMemrst c d) c noMore (partPer fun _ _ _ => []) noAfter s

/-- The contexts that CKPT.ivl of one names: its partner too (R321). -/
def State.pairCtx (s : State) (c : Nat) : List Nat :=
  if s.mates c then [c, (s.ctx c).log.partner] else [c]

/-- The stage instances of the module. -/
def State.allStages (s : State) : List Nat := (s.insts.filter fun p => p.2.kind == .stage).map (·.1)

/-- What every CKPT does to every context (R310): as a save and a restore at .pk would, all instances stand at clause boundaries,
their writes have arrived, and what their L1 holds clean is gone. The answer says that it is done; they stay held. -/
def State.ckptSync (s : State) : Bool × State :=
  let iids := s.allStages
  let s := s.hold iids true
  let (ok, s) := if iids.all fun k => s.atRest k then
      iids.foldl (fun (r : Bool × State) k => let (ok, s) := r.2.release k; (r.1 && ok, s)) (true, s) else (false, s)
  if ok && s.d2d.isEmpty then (true, iids.foldl (fun s k => s.acquireAt k 7) s) else (false, s)

/-- The next action of CKPT.ivl. -/
def State.ckptIvlStep (s : State) (o : PendOp) (p : Part) (d : Nat) : State :=
  let c := (p.arg 0).toNat
  if !(s.ctx c).ccb.cki then s.status o p d 2
  else
    let done := (p.args.drop 1).map (·.toNat)
    let todo := (s.pairCtx c).filter fun k => !done.contains k
    let (ok, s) := s.ckptSync
    if !ok then s
    else
      let s := todo.foldl (fun s k =>
        let (ok, s) := s.beginInterval k false
        if ok then s.modOp o.id fun o => o.modPart p.tid fun p => { p with args := p.args ++ [BitVec.ofNat 64 k] } else s) s
      let now := ((s.op? o.id).bind fun o => o.part? p.tid).elim done fun p => (p.args.drop 1).map (·.toNat)
      if (s.pairCtx c).all fun k => now.contains k then (s.hold s.allStages false).status o p d 0 else s

/-- The near tier's cells and side band of every controller in the far checkpoint area, or back (R291). -/
def nearCell (a : Nat) : Bool := !paWindow a && !paFar a
def farCell (a : Nat) : Bool := !paWindow a && paFar a && ckptArea (paLocal a)
def toFar (a : Nat) : Nat := mkPa (paCtrl a) true (paLocal a + ckptBase)
def toNear (a : Nat) : Nat := mkPa (paCtrl a) false (paLocal a - ckptBase)
def copyCells (pick clear : Nat → Bool) (move : Nat → Nat) (m : List Host.Cell) : List Host.Cell :=
  (m.filter fun p => pick p.1).foldl (fun k p => sset unlistedByte k (move p.1) p.2) (m.filter fun p => !clear p.1)
def copyBand (pick clear : Nat → Bool) (move : Nat → Nat) (m : SMap β) : SMap β :=
  (m.filter fun p => pick (p.1 * 32)).foldl (fun k p => sput k (move (p.1 * 32) / 32) p.2) (m.filter fun p => !clear (p.1 * 32))
def State.copyTier (s : State) (pick clear : Nat → Bool) (move : Nat → Nat) : State :=
  { s with mem := copyCells pick clear move s.mem, poisonM := copyBand pick clear move s.poisonM, stags := copyBand pick clear move s.stags }

/-- The records of all instances, saved and resident, with their contexts and launches. -/
def State.takeCkpt (s : State) : State :=
  let cs := (s.allStages.map fun k => (s.inst k).ctx).eraseDups
  let (recs, s) := cs.foldl (fun (r : List Saved × State) c => let (xs, s) := r.2.recordAll (r.2.resident c) (r.2.freeSlots c (r.2.resident c).length); (r.1 ++ xs, s)) ([], s)
  let held (c : Nat) : SMap (SMap Fifo) := (s.clusters.filter fun k => k.2.owner == some c).map fun k => (k.1, k.2.fifos)
  { s with ckpt := some { saved := s.saved ++ recs, launches := s.launches
                          ctxs := s.ctxs.map fun x => (x.1, { x.2 with fifos := held x.1 ++ x.2.fifos }) } }

/-- The next action of CKPT.mem: one at a time; every context comes to rest, flows and passes end, cached bytes reach memory
(log entry 36), the instances' records stand in their save areas, then the copy is made and the contexts go on. -/
def State.ckptMemStep (s : State) (o : PendOp) (p : Part) (d : Nat) : State :=
  if s.ckptOp.isSome && s.ckptOp != some o.id then s.status o p d 1
  else
    let s : State := { s with ckptOp := some o.id }
    let iids := s.allStages
    let s := s.hold iids true
    if !(iids.all fun k => s.atRest k) || !s.flows.isEmpty ||
        (s.clusters.any fun c => c.2.resv.any fun r => r.2.granted.isSome) then s
    else
      let (ok, s) := s.ckptSync
      let cs := ((s.dies.flatMap fun d => d.2.l2.map fun p => p.2.ctx).eraseDups)
      let (ok, s) := if ok then cs.foldl (fun (r : Bool × State) c => let (ok, s) := r.2.flushCtx c; (r.1 && ok, s)) (true, s) else (ok, s)
      if !ok then s
      else
        let s := (s.takeCkpt).copyTier nearCell farCell toFar
        (({ s with ckptOp := none } : State).hold iids false).status o p d 0

/-- The records that the restored near tier holds are what can be loaded, of the contexts and launches as they were; what a context
has of on-die state since, its handles, stays. -/
def State.putCkpt (s : State) : State :=
  match s.ckpt with
  | none => s
  | some k =>
    let mine (v : Saved) : Bool := k.saved.any fun (w : Saved) => w.iid == v.iid
    let s := k.ctxs.foldl (fun s x => s.modCtx x.1 fun y => { x.2 with handles := y.handles, faults := y.faults }) s
    { s with saved := (s.saved.filter fun v => !mine v) ++ k.saved
             launches := k.launches ++ s.launches.filter fun (l : Launch) => !(k.launches.any fun (m : Launch) => m.id == l.id) }

/-- The next action of CKPT.memrst: every context is saved; what caches hold of the near tier is gone (log entry 36). -/
def State.ckptRstStep (s : State) (o : PendOp) (p : Part) (d : Nat) : State :=
  if s.ckptOp.isSome then s.status o p d 1
  else if !s.allStages.isEmpty then s.status o p d 2
  else
    let s := (skeys s.dies).foldl (fun s k => s.modDie k fun y => { y with l2 := y.l2.filter fun p => !nearCell p.2.pa }) s
    let s : State := { s with cores := s.cores.map fun k => (k.1, { k.2 with icache := k.2.icache.filter fun p => !nearCell p.2.pa }) }
    ((s.copyTier farCell nearCell toNear).putCkpt).status o p d 0

/-! ### RECCTL (R311, R314) -/

def recctlOp (ins : Instr) (c : Ctl) (b : BSrc) (s : State) : Host.Outcome State Fault Refusal :=
  flagged ins c noMore (partPer fun s is r => [s.srcB is r .n32 b &&& 0xFFFF]) noAfter s
def execRecctlOff (c : Ctl) (d : Nat) (b : BSrc) (s : State) := recctlOp (.recctlOff c d b) c b s
def execRecctlRec (c : Ctl) (d : Nat) (b : BSrc) (s : State) := recctlOp (.recctlRec c d b) c b s
def execRecctlRpl (c : Ctl) (d : Nat) (b : BSrc) (s : State) := recctlOp (.recctlRpl c d b) c b s

/-- The ring that the control block in memory describes, if it is valid, and its INTERVAL (R314). -/
def State.loadRing (s : State) (b : Ccb) : Option (LogRing × Nat) :=
  let a := b.logPa
  let base := s.paNat a 8
  let size := s.paNat (a + 8) 4
  let thresh := s.paNat (a + 12) 4
  if base % 4096 = 0 ∧ 256 ≤ size ∧ size ≤ 2 ^ 28 ∧ 2 ^ Nat.log2 size = size ∧ thresh ≤ size ∧ s.paNat (a + 48) 16 = 0 ∧
      s.ownArea b base (16 * size) then
    some ({ base, size, thresh, producer := s.paNat (a + 16) 8, consumer := s.paNat (a + 24) 8, replay := s.paNat (a + 32) 8 },
      s.paNat (a + 40) 8)
  else none

/-- The live registers take the block's place; the partner stays, and so do the sources' sequence numbers (R316). -/
def State.putRing (s : State) (c : Nat) (g : LogRing × Nat) : State :=
  let s := s.modCtx c fun x => { x with log := { g.1 with partner := x.log.partner, pvalid := x.log.pvalid, seqs := x.log.seqs }, ivlNo := g.2 }
  s.spoil s.openRings

/-- The next action of RECCTL.off: each thread stops at its next clause boundary; when all stand there, or are held at issue, the bits
are clear for every one of them, and the context goes on (log entry 37). -/
def State.recOffStep (s : State) (o : PendOp) (p : Part) (d : Nat) : State :=
  let c := (p.arg 0).toNat
  let x := s.ctx c
  if !x.ccb.cki || (s.loadRing x.ccb).isNone ||
      s.launches.any (fun (l : Launch) => l.ctx == c && l.stages.any fun (t : StageSt) => t.record) then s.status o p d 2
  else
    let iids := s.resident c
    let s := s.hold iids true
    let clauses := if x.log.stopped then [] else s.issues.filter fun (k : Issue) => iids.contains k.iid
    -- a clause held at issue is recorded to its end, for which its context goes on
    if clauses.any fun k => !s.heldIssue k then s
    else if !clauses.isEmpty then s.hold iids false
    else
      let s := s.ringBack c
      ((s.modCtx c fun x => { x with ccb := { x.ccb with recB := false, rplB := false } }).hold iids false).status o p d 0

/-- The next action of RECCTL.rec: a new interval starts, which is recorded. -/
def State.recRecStep (s : State) (o : PendOp) (p : Part) (d : Nat) : State :=
  let c := (p.arg 0).toNat
  let x := s.ctx c
  match s.loadRing x.ccb with
  | none => s.status o p d 2
  | some g =>
    if p.done = 0 ∧ (!x.ccb.cki ∨ x.ccb.rplB) then s.status o p d 2
    else
      let s := if p.done = 0 then (s.putRing c g).modOp o.id fun o => o.modPart p.tid fun p => { p with done := 1 } else s
      let (ok, s) := s.beginInterval c true
      if ok then s.status o p d 0 else s

/-- Whether a precise stop is armed for an interval that is not the one whose snapshot the context holds (R323). -/
def Ctx.stopGone (x : Ctx) : Bool := x.armed && x.stop0.toNat % 2 ^ 48 != x.ivlNo % 2 ^ 48

/-- The next action of RECCTL.rpl: the context rolls back, and replay follows the log, up to the stop that is armed for it (R323). -/
def State.recRplStep (s : State) (o : PendOp) (p : Part) (d : Nat) : State :=
  let c := (p.arg 0).toNat
  let x := s.ctx c
  match s.loadRing x.ccb with
  | none => s.status o p d 2
  | some g =>
    if p.done = 0 ∧ (!x.ccb.cki ∨ x.ccb.recB ∨ x.stopGone) then s.status o p d 2
    else
      let s := s.modOp o.id fun o => o.modPart p.tid fun p => { p with done := 1 }
      let (ok, s) := if x.ivlOn then s.rollOrEnd c else (true, s)
      if ok then ((s.putRing c g).modCtx c fun x => { x with ccb := { x.ccb with rplB := true }, stopOn := x.armed, armed := false }).status o p d 0 else s

end Sys2Proof.Machine
end

