-- ==== Sys2Proof/Machine/Placement.lean ====
section
/-!
DEFINITION. LAUNCH and the Trailhead (R19, R54 to R60, R117, R214, R278, R280 to R285, R305): the context control block, the
checks of a launch, the placing of gangs, the start and the end of instances, and the end of a launch.
-/
namespace Sys2Proof.Machine

/-! ### The context control block (R278) -/

/-- The fields of a block of 128 bytes. -/
def ccbOf (b : List Byte) : Ccb :=
  let f := bytesNat b
  { asid := f 0 2, sasid := f 2 2, root := f 4 6, ibase := f 10 1 % 64, ik := f 11 1 % 8, world := f 12 1, vf := f 13 1
    prio := f 14 1, weight := f 15 1, fhtrap := (f 16 1).testBit 0, inj := (f 16 1).testBit 1, cki := (f 16 1).testBit 2
    recB := (f 16 1).testBit 3, rplB := (f 16 1).testBit 4, repair := f 17 1, slots := f 18 2, contArea := f 24 8
    saveArea := f 32 8, undoArea := f 40 8, undoSize := f 48 8, ivl := f 56 8, logPa := f 64 8, poison := f 72 8
    repairLaunch := f 80 4 }

/-- Whether a block is valid: no reserved bit or value (those of R201 too), not both REC and RPL, its areas on the context's controllers.
An area of no bytes, and a ring's block that nothing names, lies nowhere (log entry 60). -/
def State.ccbOk (s : State) (b : List Byte) : Bool :=
  let f := bytesNat b
  let x := ccbOf b
  f 10 1 / 64 == 0 && f 11 1 / 8 == 0 && f 16 1 / 32 == 0 && f 20 4 == 0 && f 84 44 == 0 && decide (x.vf < 16) &&
    decide (x.prio < 4) && x.weight != 0 && (x.repair == 0xFF || decide (x.repair < 16)) && decide (x.slots ≤ 4096) &&
    !(x.recB && x.rplB) && x.saveArea % 4096 == 0 && x.contArea % 4096 == 0 && x.undoSize % 4096 == 0 && x.poison % 4096 == 0 &&
    x.ik != 7 && x.ibase % 2 ^ x.ik == 0 && x.root % 4096 == 0 &&
    s.ownArea x x.saveArea (2 ^ 20) && (x.slots == 0 || s.ownArea x x.contArea (96 * 1024 * x.slots)) &&
    ((x.undoSize == 0 && !x.cki) || (paFar x.undoArea && s.ownArea x x.undoArea x.undoSize)) &&
    ((x.logPa == 0 && !(x.recB || x.rplB)) || s.ownArea x x.logPa 64)

/-- The block of a context in memory (log entry 8). -/
def State.ccbBytes (s : State) (c : Nat) : List Byte := s.paBytes (Config.ccbAddress c) 128
/-- A sealed context's block is the monitor's copy, which the monitor has checked. -/
def State.monitorHas (s : State) (c : Nat) : Bool := (find? s.monitor.blocks c).isSome
/-- Whether a context has nothing left of earlier launches, so that a LAUNCH is its first one. -/
def State.firstLaunch (s : State) (c : Nat) : Bool :=
  (s.resident c).isEmpty && !(s.saved.any fun (v : Saved) => v.inst.ctx == c) && !(s.launches.any fun (l : Launch) => l.ctx == c)
/-- The block that a first LAUNCH reads: of a sealed context the monitor's copy. -/
def State.blockOf (s : State) (c : Nat) : List Byte := (find? s.monitor.blocks c).getD (s.ccbBytes c)
/-- A first LAUNCH reads the block anew. -/
def State.readCcb (s : State) (c : Nat) : State :=
  if !s.firstLaunch c then s
  else s.modCtx c fun x => { x with ccb := ccbOf (s.blockOf c), known := true }
def State.ccbValid (s : State) (c : Nat) : Bool :=
  !s.firstLaunch c || (s.ccbOk (s.blockOf c) && (s.monitorHas c || (ccbOf (s.blockOf c)).world == 0))

/-! ### Reading what a LAUNCH names -/

inductive Rd
  | got (bs : List Byte) (s : State)
  | wait (s : State)
  | bad (s : State)

/-- Bytes as the Trailhead reads them, at their homes. -/
def State.readAt (s : State) (who : Asker) (q : Req) (va n : Nat) : Rd :=
  match s.accCheck who q va n with
  | (.wait, s) => .wait s
  | (.refuse .., s) => .bad s
  | (.ok, s) => if (sectorsOf va n).any (fun p => aperOf p.1 == .peer) then .bad s else .got (s.homeBytes q va n) s

/-- Several reads, one after the other, each as a request of its own. -/
def readParts (who : Asker) : State → List (Req × Nat × Nat) → State ⊕ (Option (List (List Byte)) × State)
  | s, [] => .inr (some [], s)
  | s, (q, va, n) :: r =>
    if n = 0 then match readParts who s r with
      | .inr (some bs, s) => .inr (some ([] :: bs), s)
      | x => x
    else match s.readAt who q va n with
      | .wait s => .inl s
      | .bad s => .inr (none, s)
      | .got b s => match readParts who s r with
        | .inr (some bs, s) => .inr (some (b :: bs), s)
        | x => x
def readMany (who : Asker) (q : Req) (s : State) (xs : List (Nat × Nat)) : State ⊕ (Option (List (List Byte)) × State) :=
  readParts who s (xs.map fun x => (q, x.1, x.2))

/-! ### The records of an itinerary (R54, R56, R59) -/

def stageOf (b : List Byte) (seed : Word) (param image : List Byte) (handler : DWord) (now : Nat) : StageSt :=
  let f := bytesNat b
  let fl := f 23 1
  { entry := BitVec.ofNat 64 (f 0 8), guide := BitVec.ofNat 64 (f 8 8), threads := f 16 4, regs := f 20 2, acc := f 22 1
    preemptible := fl.testBit 0, paired := fl.testBit 1, record := fl.testBit 2, queued := fl.testBit 3, spad := f 24 4
    pref := f 28 1, fall := f 29 1, prio := f 30 1, param, seed, image, handler, total := f 32 4, placed := 0, pendGang := []
    waitFrom := now }
def queueOf (b : List Byte) : StageQ :=
  let f := bytesNat b
  { producer := f 0 1, consumer := f 1 1, recSize := f 2 2, cap := f 4 4, high := f 8 4, low := f 12 4, recs := [], seqNo := 0 }

/-- Reserved bits of a stage record. -/
def stageResv (b : List Byte) : Bool := bytesNat b 23 1 / 16 == 0 && bytesNat b 60 4 == 0
/-- Code 3: the limits of R54 and R56. -/
def stageOk (b : List Byte) : Bool :=
  let f := bytesNat b
  let t := f 16 4
  let queued := (f 23 1).testBit 3
  decide (1 ≤ t) && decide (t ≤ 1536) && f 20 2 % 8 == 0 && decide (8 ≤ f 20 2) && decide (f 20 2 ≤ 256) && decide (f 22 1 ≤ 8) &&
    f 24 4 % 128 == 0 && decide (f 28 1 ≤ 4) && decide (f 29 1 ≤ f 28 1) && decide (f 30 1 ≤ 3) && decide (f 31 1 ≤ 128) &&
    (if queued then f 32 4 == 0 else f 32 4 != 0) && (f 40 8 == 0 || decide (f 48 4 ≤ f 24 4)) &&
    decide ((t + 31) / 32 * f 20 2 * 128 + f 24 4 + 16384 * f 22 1 ≤ Config.regionMax)
/-- Code 4: the limits of a queue record. -/
def queueOk (stages : Nat) (b : List Byte) : Bool :=
  let q := queueOf b
  decide (q.producer < stages) && decide (q.consumer < stages) && q.producer != q.consumer && q.recSize % 16 == 0 &&
    decide (16 ≤ q.recSize) && decide (q.recSize ≤ 256) && decide (1 ≤ q.cap) && decide (q.high ≤ q.cap) && decide (q.low < q.high)

/-! ### Blocks of cores (R280, R282) -/

/-- Aligned blocks of g cores of a die whose clusters all lie in the mask. -/
def State.blocks (s : State) (c die g : Nat) : List Nat :=
  ((List.range (Config.coresPerDie / g)).map fun m => die * Config.coresPerDie + m * g).filter fun b =>
    (List.range g).all fun k => s.vfHas c ((b + k) / 4) && !(s.cluster ((b + k) / 4)).fenced
def State.maskCores (s : State) (c die : Nat) : Nat := (s.blocks c die 1).length

/-! ### LAUNCH (R305) -/

/-- The checks of R280 in their order, for a descriptor that could be read: a code, or the launch to come. An itinerary that does not begin
8-byte aligned (R59) is read where it stands and refused for nothing: the model's choice, as is the code of a misaligned completion word
(log entry 59). -/
def State.launchCheck (s : State) (o : PendOp) (p : Part) (desc : List Byte) : State ⊕ ((Nat ⊕ Launch) × State) :=
  let i := s.inst o.iid
  let who : Asker := .op o.id p.tid
  let f := bytesNat desc
  let c := f 24 2
  let prio := f 26 1
  let q (kind : Nat) : Req := { s.req o.iid p.tid kind with ctx := c }
  let itin := f 0 8
  let table := f 8 8
  let bad (n : Nat) (s : State) : State ⊕ ((Nat ⊕ Launch) × State) := .inr (.inl n, s)
  if f 27 5 ≠ 0 ∨ (4 ≤ prio ∧ prio ≠ 0xFF) ∨ f 16 8 % 8 ≠ 0 then bad 1 s
  else match readMany who (q 4) s [(itin, 16), (table, if table = 0 then 0 else 128)] with
  | .inl s => .inl s
  | .inr (none, s) => bad 1 s
  | .inr (some hs, s) =>
    let h := hs.getD 0 []
    let tb := hs.getD 1 []
    let ns := bytesNat h 2 2
    let nq := bytesNat h 4 2
    let inRange := decide (1 ≤ ns) && decide (ns ≤ 16) && decide (nq ≤ 32)
    if bytesNat h 6 10 ≠ 0 then bad 1 s
    else if !inRange then bad 2 s
    else match readMany who (q 4) s ((List.range ns).map (fun k => (itin + 16 + 64 * k, 64)) ++
        (List.range nq).map fun k => (itin + 16 + 64 * ns + 16 * k, 16)) with
    | .inl s => .inl s
    | .inr (none, s) => bad 1 s
    | .inr (some rs, s) =>
      let ss := rs.take ns
      let qs := rs.drop ns
      let blocks := ss.flatMap fun b => [(bytesNat b 52 8, bytesNat b 31 1), (bytesNat b 40 8, if bytesNat b 40 8 = 0 then 0 else bytesNat b 48 4)]
      match readMany who (q 4) s blocks with
      | .inl s => .inl s
      | .inr (none, s) => bad 1 s
      | .inr (some ds, s) =>
        if !(ss.all stageResv) then bad 1 s
        else if bytesNat h 0 2 ≠ 1 then bad 2 s
        else if !(ss.all stageOk) then bad 3 s
        else
          let handler (k : Nat) : Nat := bytesNat tb (8 * k) 8
          let queued (k : Nat) : Bool := (bytesNat (ss.getD k []) 23 1).testBit 3
          if !(qs.all (queueOk ns)) || (List.range ns).any (fun k => queued k && !(qs.any fun b => bytesNat b 1 1 == k)) then bad 4 s
          else
            let heads := (List.range ns).flatMap fun k =>
              let b := ss.getD k []
              [bytesNat b 0 8] ++ (if bytesNat b 8 8 = 0 then [] else [bytesNat b 8 8]) ++ (if handler k = 0 then [] else [handler k])
            match readMany who { q 3 with priv := 0 } s (heads.map fun a => (a, 8)) with
            | .inl s => .inl s
            | .inr (none, s) => bad 5 s
            | .inr (some bs, s) =>
              let isHeader (b : List Byte) : Bool := match decodeHeader (natOf b) with
                | .ok _ => true
                | .error _ => false
              let die := i.die o.iid
              let dies := List.range Config.dies
              if !(bs.all isHeader) || heads.any (fun a => a % 8 != 0) then bad 5 s
              else if !(ss.all fun b => dies.any fun d => !(s.blocks c d (2 ^ bytesNat b 29 1)).isEmpty) then bad 6 s
              else if ss.any (fun b => (bytesNat b 23 1).testBit 1) && !(dies.any fun d => decide (2 ≤ s.maskCores c d)) then bad 7 s
              else if Config.launchSize ≤ (s.launches.filter fun (l : Launch) => l.die == die).length then bad 8 s
              else if !s.ccbValid c then bad 9 s
              else if ss.any (fun b => (bytesNat b 23 1).testBit 2) && !((s.ctx c).ccb.recB || (s.ctx c).ccb.rplB) then bad 10 s
              else if (s.ctx c).fatal && !s.firstLaunch c then bad 11 s
              else
                let stages := (List.range ns).map fun k =>
                  let b := ss.getD k []
                  stageOf b (BitVec.ofNat 32 (bytesNat b 36 4)) (ds.getD (2 * k) []) (ds.getD (2 * k + 1) []) (BitVec.ofNat 64 (handler k)) s.now
                .inr (.inr { id := die * 2 ^ 29 + (s.die die).launchSeq, die, ctx := c, prio, completion := BitVec.ofNat 64 (f 16 8)
                             stages, queues := qs.map queueOf, by_ := i.ctx, started := false }, s)

/-- LAUNCH: the release, then the descriptor; until the descriptor has been read its clause is held, so that the privilege trap
is precise. Operands of a part: address, none, the release's clock, what is known (1 released, 2 read, 3 unreadable), the
number by which the value is forwarded, and the descriptor. The third operand is 3 where the descriptor cannot be read, and 4 where the
thread is muted. -/
def execLaunch (c : Ctl) (o : O1) (s : State) : Host.Outcome State Fault Refusal :=
  inClause s fun is => s.issueIns is (.launch c o) c [] fun s is =>
    let (s, id) := match is.part with
      | some id => (s, id)
      | none =>
        let (s, ps) := partFold (fun s is r =>
          let n := ((s.inst is.iid).th r.t.tid).atomN
          let s := if (s.inst is.iid).paired then s.modTh is.iid r.t.tid fun t => { t with atomN := t.atomN + 1 } else s
          (s, [s.srcV is r true o.a, 0, 0, 0, BitVec.ofNat 64 n])) s is (s.runs is c)
        let id := s.nextId
        (s.startOp is (.launch c o) c ps [⟨o.d, 2, false⟩], id)
    let one (s : State) (tid : Nat) : State :=
      match (s.op? id).bind fun x => (x.part? tid).map fun p => (x, p) with
      | none => s
      | some (x, p) =>
        let set (s : State) (k : Nat) (more : List DWord) : State := s.modOp id fun x => x.modPart tid fun p =>
          { p with args := [p.arg 0, 0, p.arg 2, BitVec.ofNat 64 k, p.arg 4] ++ more }
        if decide (p.arg 3 ≤ 1) && s.muted is.iid tid id then set s 4 []
        else if p.arg 3 = 0 then
          let (ok, s) := s.releaseAt x p 7
          if ok then set s 1 [] else s
        else if p.arg 3 = 1 then
          (match s.readAt (.op id tid) (s.req is.iid tid 4) (p.arg 0).toNat 32 with
            | .wait s => s
            | .bad s => set s 3 []
            | .got b s => set s 2 ((List.range 4).map fun k => BitVec.ofNat 64 (bytesNat b (8 * k) 8)))
        else s
    let parts (s : State) : List Part := (((s.op? id).map (·.parts)).getD [])
    let s := (parts s).foldl (fun s p => one s p.tid) s
    if (parts s).any fun p => decide (p.arg 3 ≤ 1) then
      .stay { s with issues := s.issues.map fun (x : Issue) => if x.q == is.q then { x with part := some id } else x }
    else
      let i := s.inst is.iid
      let s : State := { s with issues := s.issues.map fun (x : Issue) => if x.q == is.q then { x with part := none } else x }
      let bad := (parts s).filter fun p => p.arg 3 == 2 && (i.th p.tid).level == 0 && (p.arg 8).toNat % 2 ^ 16 != i.ctx
      if bad.isEmpty then .go s
      else
        let ts := bad.map (·.tid)
        let s := ts.foldl (fun s t => s.partDone id t) s
        let s := s.trapThreads is ts 2 0 0 is.hdrAt 0x3C0
        if is.lanes.any fun l => l.active && !ts.contains l.tid then .go s else .stay s

/-- The result of one launch, which a trailing copy takes from its leading thread. -/
def State.launchOut (s : State) (o : PendOp) (p : Part) (d : Nat) (x : DWord) : State :=
  let i := s.inst o.iid
  let s := if i.paired && i.leading then s.modTh o.iid p.tid fun t => { t with olds := sput t.olds (p.arg 4).toNat (some x) } else s
  s.partWrites o.id p.tid (o.dst i p.tid true d x) 0

/-- A launch enters the table: a context's first LAUNCH makes it fresh, and its ring is loaded where it is recorded or replayed. Its FIFOs
start empty: the contents that it saved when its last launch completed are gone, the model's choice (log entry 87). -/
def State.addLaunch (s : State) (l : Launch) : State :=
  let s := if !s.firstLaunch l.ctx then s
    else
      let s := s.modCtx l.ctx fun x => { x with fatal := false, known := true, fifos := [], ivlOn := false, undo := [], snap := [], snapSaved := [] }
      let b := (s.ctx l.ctx).ccb
      if b.recB || b.rplB then (s.loadRing b).elim s fun g => s.putRing l.ctx g else s
  let s := s.modDie l.die fun x => { x with launchSeq := (x.launchSeq + 1) % 2 ^ 29 }
  { s with launches := s.launches ++ [l] }

/-- A LAUNCH that a member of a region issues after an error is not performed (R262); a trailing copy finds nothing to take. -/
def State.launchMuted (s : State) (o : PendOp) (p : Part) : State :=
  let i := s.inst o.iid
  let s := if i.paired && i.leading then s.modTh o.iid p.tid fun t => { t with olds := sput t.olds (p.arg 4).toNat none } else s
  (s.dropWant (.op o.id p.tid)).partDone o.id p.tid

/-- The next action of a launch's part. -/
def State.launchStep (s : State) (o : PendOp) (p : Part) (d : Nat) : State :=
  let i := s.inst o.iid
  if p.arg 3 = 4 || s.muted o.iid p.tid o.id then s.launchMuted o p
  else if i.trailing then
    let n := (p.arg 4).toNat
    match i.partner.bind s.inst? with
    | none => s.launchOut o p d 0
    | some j =>
      match find? (j.th p.tid).olds n with
      | some v => (s.modInst (i.partner.getD 0) fun j => j.modTh p.tid fun t => { t with olds := sdel t.olds n }).launchOut o p d
          (v.getD 0)
      | none => if (j.th p.tid).status == .exited && decide ((j.th p.tid).atomN ≤ n) then s.launchOut o p d 0 else s
  else if p.arg 3 = 3 then s.launchOut o p d 1
  else if p.arg 3 ≠ 2 then s
  -- launches take place in ascending lane position
  else if o.parts.any fun q => decide (q.lane < p.lane) then s
  else
    let desc := (List.range 4).flatMap fun k => bytesOf 8 (p.arg (5 + k)).toNat
    let s := s.readCcb (bytesNat desc 24 2)
    match s.launchCheck o p desc with
    | .inl s => s
    | .inr (.inl code, s) => s.launchOut o p d (BitVec.ofNat 64 code)
    | .inr (.inr l, s) => (s.addLaunch l).launchOut o p d (BitVec.ofNat 64 (l.id * 2 ^ 32))

/-! ### The start of an instance (R9, R13, R19, R55, R60, R117) -/

/-- The words and doublewords of a parameter block. -/
def paramWords (b : List Byte) : SMap Word :=
  ((List.range 32).map fun k => (k, (BitVec.ofNat 32 (bytesNat b (4 * k) 4) : Word))).filter fun p => p.2 != 0
def paramDwords (b : List Byte) : SMap DWord :=
  ((List.range 16).map fun k => (k, (BitVec.ofNat 64 (bytesNat b (8 * k) 8) : DWord))).filter fun p => p.2 != 0

/-- Home warps of a stage with their register count. -/
def StageSt.warps (t : StageSt) : Nat := (t.threads + 31) / 32

/-- What an instance of a stage needs; where it likes to lie is unconstrained (log entry 24). -/
def State.stageNeed (s : State) (t : StageSt) : Need :=
  let like (k : Nat) : Nat := (Config.openRead s.fresh (20 + k)).toNat
  { hws := (List.range t.warps).map fun h => (h, t.regs, like h % 512 * 8), guide := t.guide != 0, spad := t.spad
    spadLike := like 100 % 4096 * 128, acc := t.acc, accLike := like 101 % 32 }

/-- A new instance of a stage. -/
def newInst (l : Launch) (k : Nat) (t : StageSt) (core no gang : Nat) (leading : Bool) (b : Bases) (now : Nat) : Inst :=
  let th : Thread := { pc := t.entry + 8, seed := t.seed }
  let params := paramWords t.param
  let ws := (List.range t.warps).map fun h => (h, ({ n := t.regs, vb := ((b.rows.find? fun r => r.1 == h).map (·.2)).getD 0, scal := params } : HWarp))
  let g := t.guide != 0
  { kind := .stage, ctx := l.ctx, launch := l.id, stage := k, core, no, gang, threads := t.threads, handler := t.handler
    preemptible := t.preemptible, paired := t.paired, leading, spadBase := b.spad, spadSize := t.spad, accBase := b.acc
    accTiles := t.acc, guide := g, born := now
    ths := ((List.range t.threads).map fun tid => (tid, th)) ++
      (if g then [(t.threads, { th with pc := t.guide + 8 })] else [])
    hws := ws ++ (if g then [(guideHw, { n := 64, vb := 0 })] else [])
    gregs := if g then paramDwords t.param else [] }

/-- Tiles and status words of a new instance, whose contents the spec does not give (log entry 4). -/
def freeTiles (n core base tiles : Nat) : SMap Word :=
  (List.range (tiles * 4096)).map fun k => (base * 4096 + k, (Config.openRead n (2 ^ 20 * (core + 1) + base * 4096 + k)).setWidth 32)
def freeStatus (n core base tiles : Nat) : SMap Word :=
  (List.range tiles).map fun k => (base + k, (Config.openRead n (2 ^ 20 * (core + 1) + 2 ^ 19 + base + k)).setWidth 32 &&& 0xFFFF0007)

/-- Starts an instance on a core: an acquire that pairs with its LAUNCH's release. The answer names it. -/
def State.startInst (s : State) (l : Launch) (k : Nat) (t : StageSt) (core no gang : Nat) (leading : Bool) (b : Bases) : Nat × State :=
  let (iid, s) := s.newId
  let s := s.takeCluster l.ctx (core / 4) (core / 4)
  let i := newInst l k t core no gang leading b s.now
  let s : State := { s with insts := sput s.insts iid i }
  let image : SMap Byte := ((List.range t.image.length).map fun j => (j, nthByte t.image j)).filter fun p => p.2 != 0
  let s := s.modCore core fun y =>
    { y with
      reg := (i.hws.filter fun h => h.1 != guideHw).foldl (fun m h => dropRange m (h.2.vb * 32) (h.2.n * 32)) y.reg
      spad := putRange 0 (dropRange y.spad b.spad t.spad) b.spad image
      acc := putRange 0 (dropRange y.acc (b.acc * 4096) (t.acc * 4096)) 0 (freeTiles s.fresh core b.acc t.acc)
      tstat := putRange 0 (dropRange y.tstat b.acc t.acc) 0 (freeStatus s.fresh core b.acc t.acc)
      absent := y.absent.filter fun a => !(decide (b.spad / 128 ≤ a) && decide (a < (b.spad + t.spad) / 128))
      dq := if i.guide then [] else y.dq
      dqSeq := if i.guide then 0 else y.dqSeq
      permits := if i.guide then Config.dqSize else y.permits }
  (iid, (s.l1Trim core).vcLearn (core / Config.coresPerDie) l.die)

/-- Starts an instance of a gang where it fits, a leading copy where its stage is paired. -/
def State.startLead (s : State) (l : Launch) (k : Nat) (t : StageSt) (core no gang : Nat) : Option (Nat × State) :=
  (s.fits l.ctx core (s.stageNeed t)).map fun b => s.startInst l k t core no gang true b
/-- How many trailing copies of a stage a core takes after what it holds, up to n. -/
def State.trailRoom (l : Launch) (k : Nat) (t : StageSt) (core : Nat) : Nat → State → Nat
  | 0, _ => 0
  | n + 1, s =>
    match s.fits l.ctx core (s.stageNeed t) with
    | none => 0
    | some b => State.trailRoom l k t core n (s.startInst l k t core 0 0 false b).2 + 1
/-- Whether the trailing copies of leading copies on different cores can all be placed, given the room of each core: they only
have to stand away from their own leading copy, so the room must be enough in all and none may find it on its own core alone. -/
def trailsFit (rooms : List (Nat × Nat)) (cores : List Nat) : Bool :=
  decide (cores.length ≤ (rooms.map Prod.snd).sum) && cores.all fun a => rooms.any fun p => p.1 != a && decide (0 < p.2)
def takeRoom (rooms : List (Nat × Nat)) (y : Nat) : List (Nat × Nat) := rooms.map fun p => if p.1 == y then (p.1, p.2 - 1) else p
/-- Trailing copies for leading copies (instance, core, number): each on another core of its die where it fits, which one
is the implementation's as long as the rest can still be placed. -/
def startTrails (l : Launch) (k : Nat) (t : StageSt) (gang : Nat) :
    State → List (Nat × Nat) → List (Nat × Nat × Nat) → Option State
  | s, _, [] => some s
  | s, rooms, (a, core, no) :: r =>
    let turn := (Config.openRead s.fresh 13).toNat % rooms.length
    let pick := (rooms.drop turn ++ rooms.take turn).find? fun p =>
      p.1 != core && decide (0 < p.2) && trailsFit (takeRoom rooms p.1) (r.map fun x => x.2.1)
    pick.bind fun p => (s.fits l.ctx p.1 (s.stageNeed t)).bind fun b =>
      let (z, s) := s.startInst l k t p.1 no gang false b
      startTrails l k t gang ((s.modInst a fun i => { i with partner := some z }).modInst z fun i => { i with partner := some a })
        (takeRoom rooms p.1) r
/-- The room the cores of a die have for g trailing copies of a stage. -/
def State.trailRooms (s : State) (l : Launch) (k : Nat) (t : StageSt) (die g : Nat) : List (Nat × Nat) :=
  (((List.range Config.coresPerDie).map (die * Config.coresPerDie + ·)).filter fun y => s.vfHas l.ctx (y / 4)).map fun y =>
    (y, State.trailRoom l k t y g s)

/-- A gang on the aligned block of g cores from `base` on (R282): the instances on the block, then the trailing copies of a paired
stage, which may stand on other cores of the block too (R283). -/
def State.startGang (s : State) (l : Launch) (k : Nat) (t : StageSt) (base g : Nat) : Option State :=
  let r := (List.range g).foldl (fun (r : Option (List (Nat × Nat × Nat) × State)) j => r.bind fun x =>
    (x.2.startLead l k t (base + j) (t.placed + j) g).map fun y => (x.1 ++ [(y.1, base + j, t.placed + j)], y.2)) (some ([], s))
  r.bind fun x =>
    if t.paired then startTrails l k t g x.2 (x.2.trailRooms l k t (base / Config.coresPerDie) g) x.1 else some x.2

/-! ### Which gang is placed (R282 to R285) -/

def Launch.setStage (l : Launch) (k : Nat) (f : StageSt → StageSt) : Launch :=
  { l with stages := (List.range l.stages.length).map fun j => let t := l.stages.getD j default; if j = k then f t else t }
def State.modLaunch (s : State) (id : Nat) (f : Launch → Launch) : State :=
  { s with launches := s.launches.map fun (l : Launch) => if l.id == id then f l else l }
def State.launch? (s : State) (id : Nat) : Option Launch := s.launches.find? fun (l : Launch) => l.id == id

/-- Whether a stage is its context's repair stage, which poison alone starts (R214). -/
def State.isRepair (s : State) (l : Launch) (k : Nat) : Bool :=
  let b := (s.ctx l.ctx).ccb
  b.repair == k && b.repairLaunch == l.id

/-- Instances of a stage still to place now. -/
def State.toPlace (s : State) (l : Launch) (k : Nat) : Nat :=
  let t := l.stages.getD k default
  if k ≥ l.stages.length ∨ l.dead ∨ s.isRepair l k then 0
  else if t.queued then t.pendGang.headD 0 else t.total - t.placed

/-- The size of the gang that is placed next, if one can be placed: the preferred one where a block exists on any die, else the
fallback's. -/
def State.gangSize (s : State) (l : Launch) (k : Nat) : Option Nat :=
  let t := l.stages.getD k default
  let r := s.toPlace l k
  if r = 0 then none
  else
    let p := 2 ^ min (Nat.log2 r) t.pref
    let f := min (2 ^ t.fall) p
    let can (g : Nat) : Bool := (List.range Config.dies).any fun d => (s.blocks l.ctx d g).any fun b => (s.startGang l k t b g).isSome
    if can p then some p else if can f then some f else none

/-- The priority class of a stage's gangs: the launch's override or its own, one higher once aged (R285). -/
def stageClass (l : Launch) (t : StageSt) : Nat := min 3 ((if l.prio = 0xFF then t.prio else l.prio) + t.aged.toNat)

/-- The rank of a stage among the pending gangs of its launch (R284). -/
def Launch.rank (l : Launch) (k : Nat) : Nat :=
  if l.queues.any fun q => q.consumer == k && decide (q.high ≤ q.recs.length) then 0
  else if l.queues.any fun q => q.producer == k && decide (q.recs.length < q.low) then 1
  else 2 + k

/-- Whether a context's Trailhead may place at all. -/
def State.mayPlace (s : State) (c : Nat) : Bool :=
  let x := s.ctx c
  !s.halted && !x.fatal && !x.log.stopped && !x.log.diverged

/-- Whether poison records wait for a repair instance and none is live (R214). -/
def State.repairDue (s : State) (c : Nat) : Bool :=
  let b := (s.ctx c).ccb
  let q := s.hwReq c 2
  s.repairLive c && !(s.insts.any fun p => p.2.kind == .stage && p.2.ctx == c && p.2.repair) &&
    !(s.saved.any fun (v : Saved) => v.inst.ctx == c && v.inst.repair) &&
    (match (s.accCheck (.ring c) q b.poison 4096).1 with
      | .ok => decide (natOf (s.homeBytes q (b.poison + 8) 8) < natOf (s.homeBytes q b.poison 8))
      | _ => false)

/-- The gangs that the Trailhead of a die can place on it: launch, stage, class. -/
def State.placeable (s : State) (die : Nat) : List (Launch × Nat × Nat) :=
  s.launches.flatMap fun (l : Launch) => (List.range l.stages.length).filterMap fun k =>
    if !s.mayPlace l.ctx || s.repairDue l.ctx then none
    else match s.gangSize l k with
      | none => none
      | some g =>
        if (s.blocks l.ctx die g).any fun b => (s.startGang l k (l.stages.getD k default) b g).isSome then
          some (l, k, stageClass l (l.stages.getD k default)) else none

/-- The contexts whose repair stage is due and has a fitting core of a die: it goes before every other gang of its context, at class 3
(R214). -/
def State.repairsDue (s : State) (die : Nat) : List Nat :=
  (skeys s.ctxs).filter fun c => s.mayPlace c && s.repairDue c && (match s.launch? (s.ctx c).ccb.repairLaunch with
    | none => false
    | some l => !l.dead && decide ((s.ctx c).ccb.repair < l.stages.length) && (List.range Config.coresPerDie).any fun k =>
      let core := die * Config.coresPerDie + k
      s.vfHas c (core / 4) && (s.fits c core (s.stageNeed { l.stages.getD (s.ctx c).ccb.repair default with paired := false })).isSome)
/-- Whether a repair stage is next on a die: no other gang of class 3 goes before it in the weighted round robin. -/
def State.repairNext (s : State) (die c : Nat) : Bool :=
  let left (c : Nat) : Bool := decide (sget 0 (s.die die).rr c < (s.ctx c).ccb.weight)
  left c || ((s.placeable die).all (fun x => x.2.2 != 3 || !left x.1.ctx) && (s.repairsDue die).all fun x => !left x)
/-- Whether a gang is next on a die: the first of its launch by rank (R284), and among those of all launches of the highest class, of
a context that the weighted round robin still serves (R285). -/
def State.isNext (s : State) (die : Nat) (l : Launch) (k : Nat) : Bool :=
  let all := s.placeable die
  let heads := all.filter fun x => all.all fun y => y.1.id != x.1.id || decide (x.1.rank x.2.1 ≤ x.1.rank y.2.1)
  let cls := stageClass l (l.stages.getD k default)
  let left (c : Nat) : Bool := decide (sget 0 (s.die die).rr c < (s.ctx c).ccb.weight)
  heads.any (fun x => x.1.id == l.id && x.2.1 == k) && heads.all (fun x => decide (x.2.2 ≤ cls)) &&
    (left l.ctx || heads.all fun x => x.2.2 != cls || !left x.1.ctx) &&
    (s.repairsDue die).all fun c => decide (3 ≤ cls) && (left l.ctx || !left c)
/-- The round robin counts a service; where every context has had its weight, a new round begins. -/
def State.countServe (s : State) (die c : Nat) : State :=
  let again := decide ((s.ctx c).ccb.weight ≤ sget 0 (s.die die).rr c)
  s.modDie die fun x => let m := if again then [] else x.rr; { x with rr := sset 0 m c (sget 0 m c + 1) }

/-- The record of a gang placement (R316, type 0x07). -/
def placeRec (l : Launch) (k g no core : Nat) : List Byte :=
  bytesOf 4 l.id ++ bytesOf 1 k ++ bytesOf 1 (Nat.log2 g) ++ bytesOf 4 no ++ bytesOf 2 core

/-- GANG_PLACEMENT: the gang that is next on a die goes to a block of fitting cores; with a context's first gang an interval
starts (R289). -/
def State.placeGang (s : State) (die launch stage base : Nat) : State :=
  match s.launch? launch with
  | none => s
  | some l =>
    let t := l.stages.getD stage default
    let base := die * Config.coresPerDie + base
    match s.gangSize l stage with
    | none => s
    | some g =>
      if !s.isNext die l stage || !(s.blocks l.ctx die g).contains base then s
      else
        let x := s.ctx l.ctx
        let (ok, s) := if x.ccb.cki && !x.ivlOn then s.beginInterval l.ctx false else (true, s)
        if !ok then s
        else if (s.startGang l stage t base g).isNone then s
        else
          let (ok, s) := s.gate l.ctx (logSrc die 3 0) 0x07 (placeRec l stage g t.placed base)
          if !ok then s
          else match s.startGang l stage t base g with
            | none => s
            | some s =>
              (s.modLaunch launch fun l => { l with started := true }.setStage stage fun t =>
                { t with placed := t.placed + g, pendGang := t.pendGang.drop 1, waitFrom := s.now, aged := false }).countServe die l.ctx
def execGangPlacement (die launch stage base : Nat) (s : State) : Host.Outcome State Fault Refusal :=
  .next (s.placeGang die launch stage base)

/-- GANG_AGEING: a gang that has waited 2^24 cycles counts one class higher. -/
def execGangAgeing (_die launch stage : Nat) (s : State) : Host.Outcome State Fault Refusal :=
  .next (match s.launch? launch with
    | none => s
    | some l =>
      let t := l.stages.getD stage default
      if s.toPlace l stage ≠ 0 ∧ t.waitFrom + 2 ^ 24 ≤ s.now then
        s.modLaunch launch fun l => l.setStage stage fun t => { t with aged := true }
      else s)

/-- Whether an instance of a stage is live; that a saved one counts is the model's choice (log entry 88). -/
def State.stageRuns (s : State) (l : Launch) (k : Nat) : Bool :=
  s.insts.any (fun p => p.2.kind == .stage && p.2.launch == l.id && p.2.stage == k) ||
    s.saved.any fun (v : Saved) => v.inst.launch == l.id && v.inst.stage == k

/-- QUEUE_DRIVEN_START (R284): a gang of a queue-driven stage is started when its queue reaches the high watermark, or holds a
record while no instance of the stage runs. -/
def execQueueDrivenStart (die launch stage : Nat) (s : State) : Host.Outcome State Fault Refusal :=
  .next (match s.launch? launch with
    | none => s
    | some l =>
      let t := l.stages.getD stage default
      match l.queues.find? fun (q : StageQ) => q.consumer == stage with
      | none => s
      | some q =>
        if l.die = die ∧ t.queued ∧ !s.isRepair l stage ∧ !l.dead ∧ t.pendGang.isEmpty ∧ !(q.recs.length < q.low ∧ s.stageRuns l stage) ∧
            (q.high ≤ q.recs.length ∨ (!q.recs.isEmpty ∧ !s.stageRuns l stage)) then
          s.modLaunch launch fun l => l.setStage stage fun t => { t with pendGang := [2 ^ t.pref], waitFrom := s.now, aged := false }
        else s)

/-- REPAIR_STAGE_START (R214): poison records wait, and no instance of the repair stage is live. -/
def execRepairStageStart (ctx core : Nat) (s : State) : Host.Outcome State Fault Refusal :=
  .next (
    let b := (s.ctx ctx).ccb
    match s.launch? b.repairLaunch with
    | none => s
    | some l =>
      let t := { (l.stages.getD b.repair default) with paired := false }
      let need := s.stageNeed t
      let s := ((s.accCheck (.ring ctx) (s.hwReq ctx 2) b.poison 4096)).2
      if !s.mayPlace ctx || l.dead || decide (l.stages.length ≤ b.repair) || !s.repairDue ctx || !s.vfHas ctx (core / 4) ||
          !s.repairNext (core / Config.coresPerDie) ctx then s
      else match s.fits ctx core need with
        | none => s
        | some bs =>
          let no := (s.ctx ctx).repairNo
          let (ok, s) := s.gate ctx (logSrc (core / Config.coresPerDie) 3 0) 0x07 (placeRec l b.repair 1 no core)
          if !ok then s
          else
            let (iid, s) := s.startInst l b.repair t core no 1 true bs
            let s := s.vcLearn (core / Config.coresPerDie) (b.ibase / 8)
            ((s.modInst iid fun i => { i with repair := true }).modCtx ctx fun x =>
              { x with repairNo := x.repairNo + 1 }).countServe (core / Config.coresPerDie) ctx)

/-! ### The end of an instance and of a launch (R19, R281, R290) -/

/-- Whether a launch has nothing left: nothing runs or is saved, and nothing can start. -/
def State.launchOver (s : State) (l : Launch) : Bool :=
  !(s.insts.any fun p => p.2.kind == .stage && p.2.launch == l.id) && !(s.saved.any fun (v : Saved) => v.inst.launch == l.id) &&
    (l.dead || (List.range l.stages.length).all fun k => s.isRepair l k || s.stageOver l k)

/-- Ends a launch: its completion word is written as a release at .pk, where its page can be. -/
def State.endLaunch (s : State) (l : Launch) : State :=
  if !s.launchOver l then s
  else
    let q := s.hwReq l.ctx 2
    let va := l.completion.toNat
    let word := bytesOf 8 ((if l.dead then 2 else 1) + l.id * 2 ^ 32)
    let gone (s : State) : State := { s with launches := s.launches.filter fun (m : Launch) => m.id != l.id }
    match s.accCheck (.word l.id) q va 8 with
    | (.ok, s) => gone (s.homePut q va word)
    | (.wait, s) => s
    | (.refuse c _, s) => if c = 6 then s else gone s
/-- The launches of a context that are over end. -/
def State.endLaunches (s : State) (c : Nat) : State :=
  (s.launches.filter fun (l : Launch) => l.ctx == c).foldl (fun s l => s.endLaunch l) s

/-- The window offsets of a claim's own bytes in a page that it has walked: first and past the last. -/
def Claim.span (c : Claim) (p : ClaimPg) : Nat × Nat :=
  let base := (if p.dst then c.dst else c.src).toNat
  (paOff p.pa + (max p.va base - p.va), paOff p.pa + (min (p.va + 4096) (base + c.len) - p.va))
/-- Whether a byte of a window side of a claim lies in the regions of an instance. -/
def Claim.inRegions (c : Claim) (i : Inst) : Bool :=
  c.pages.any fun (p : ClaimPg) => paWindow p.pa && paCore p.pa == i.core &&
    (let cut (x n : Nat) : Bool := n != 0 && decide (x < (c.span p).2) && decide ((c.span p).1 < x + n)
     match paRegion p.pa with
      | 0 => i.hws.any fun h => h.1 != guideHw && cut (h.2.vb * 128) (h.2.n * 128)
      | 1 => cut i.spadBase i.spadSize
      | _ => cut (i.accBase * 16384) (i.accTiles * 16384))

/-- Its L1 bytes are home and, as a release at .pk, have arrived everywhere. -/
def State.endRelease (s : State) (iid : Nat) : Bool × State :=
  let i := s.inst iid
  let s := if i.trailing then s else s.writebackAll iid
  (!s.underway (i.core / Config.coresPerDie) (fun m => m.ctx == i.ctx) && !s.l1Dirty iid, s)

/-- Whether what an ended instance has begun is over: what can complete has completed. -/
def State.spent (s : State) (iid : Nat) : Bool :=
  (s.ops.all fun (o : PendOp) => o.iid != iid || (claimCmd o.ins).isNone && (s.keeps o || o.waitsOthers)) &&
    (s.clusters.all fun c => c.2.resv.all fun r => r.2.iid != iid)

/-- INSTANCE_END: the last thread has exited. The release, then the revocation of the claims on its regions, then the regions
are free; with the last instance of its launch the launch ends, at a later such event where its completion word
waits for a translation. A leading copy stays until its trailing copy has ended. -/
def State.instEnd (s : State) (iid : Nat) : State :=
  match s.inst? iid with
  | none => ((s.launches.map (·.ctx)).eraseDups).foldl (fun s c => s.endLaunches c) s
  | some i =>
    if i.kind != .stage || !(i.ths.all fun t => t.2.status == .exited) || !s.spent iid ||
        (i.paired && i.leading && i.partner.elim false fun p => (s.inst? p).isSome) then s
    else
      let s := s.modInst iid fun i => { i with st := .ending }
      let (ok, s) := s.endRelease iid
      if !ok then s
      else
        let s := (s.revokeWhere (fun c => c.inRegions i) 5).2
        let last := !s.othersOn i.cluster [iid]
        if s.claimList.any (fun p => (p.2.st == .held || p.2.st == .revoking || p.2.st == .walking) && p.2.inRegions i) ||
            (last && s.flowsInto i.cluster) then s
        else
          let s := s.dropInst iid
          let s := if last then s.giveUp i.cluster else s
          s.endLaunches i.ctx
def execInstanceEnd (iid : Nat) (s : State) : Host.Outcome State Fault Refusal := .next (s.instEnd iid)

/-- ROLLBACK (R290): the context rolls back, or becomes fatal; of a fatal context the launches that nothing runs of any more end. -/
def execRollback (ctx : Nat) (s : State) : Host.Outcome State Fault Refusal :=
  .next (if (s.ctx ctx).fatal then s.endLaunches ctx else if s.mustRoll ctx then (s.rollOrEnd ctx).2 else s)

end Sys2Proof.Machine
end

