-- ==== Sys2Proof/Machine/Fabric.lean ====
section
/-! DEFINITION. HDRAIN, MCAST and FRED, and the steps of the module's fabric ports (R330 to R350). -/
namespace Sys2Proof.Machine

/-! ### HDRAIN (R346) -/

def execHdrain (c : Ctl) (s : State) := flagged (.hdrain c) c noMore (partHw fun _ _ _ => []) noAfter s
def State.hdrainStep (s : State) (o : PendOp) (p : Part) : State :=
  let i := s.inst o.iid
  (s.drainWhere (i.bank o.iid) fun e => e.asid == (s.ctx i.ctx).ccb.asid).partDone o.id p.tid

/-! ### MCAST (R347) -/

/-- Address, data registers, bit-string registers. -/
def execMcast (c : Ctl) (n d a x : Nat) (s : State) :=
  storeOp (.mcast c n d a x) c false (fun s is r =>
    (s.srcV is r true ⟨a, .id⟩, s.ownRange is r d n ++ s.ownRange is r x 8)) s

/-- The destinations of an MCAST. -/
def mcastMembers (p : Part) (va n : Nat) : List Nat :=
  (List.range 256).filterMap fun j =>
    if (p.data (n + j / 32)).getLsbD (j % 32) then some (256 * (va / 2 ^ 48 % 16) + j) else none
/-- The peer-window address of a member's bytes. -/
def memberVa (va m : Nat) : Nat := va / 2 ^ 52 * 2 ^ 52 + m * 2 ^ 40 + va % 2 ^ 40

/-- Once every destination of every thread of an MCAST has answered, the lowest one that refused adds its record for each thread, in
ascending lane position (R164, R347). -/
def State.mcastSettle (s : State) (core op : Nat) : State :=
  let mine := s.freqs.filter fun (f : FReq) => match f.kind with | .mcast q _ _ _ _ => q == op | _ => false
  if (s.op? op).isSome || mine.any fun (f : FReq) => match f.kind with | .mcast _ _ _ _ 0 => true | _ => false then s
  else
    let recs := mine.filterMap fun (f : FReq) => match f.kind with
      | .mcast _ _ m r c => some (m, { r with cause := c })
      | _ => none
    let low := recs.filter fun x => recs.all fun y => y.2.tid != x.2.tid || decide (x.1 ≤ y.1)
    (low.insertionSort fun a b => (s.inst a.2.iid).laneOf a.2.tid ≤ (s.inst b.2.iid).laneOf b.2.tid).foldl (fun s x => s.pushSf core x.2)
      { s with freqs := s.freqs.filter fun (f : FReq) => !mine.contains f }

/-- The packet of an MCAST (R340, R347). -/
def State.mcastPacket (s : State) (ctx : Nat) (p : Part) (va n : Nat) : Packet :=
  let bs := (List.range n).flatMap fun k => bytesOf 4 (p.data k).toNat
  { packetOf 3 (peerOff va) (4 * n) ((s.vfOf ctx).padBytes (peerOff va) bs) with
    seg := va / 2 ^ 48 % 16
    str := BitVec.ofNat 256 (((List.range 8).map fun w => (p.data (n + w)).toNat % 2 ^ 32 * 2 ^ (32 * w)).sum) }
/-- MCAST: one packet leaves. A destination that is unreachable refuses at once; a thread whose access fails keeps its record beside
those of its instruction's other threads. -/
def State.mcastStep (s : State) (o : PendOp) (p : Part) (n : Nat) : State :=
  let i := s.inst o.iid
  let va := (p.arg 0).toNat
  let core := i.bank o.iid
  let asid := (s.ctx i.ctx).ccb.asid
  let record (at_ : Nat) : SfRec :=
    { va := BitVec.ofNat 64 at_, hdr := o.hdr, tid := p.tid, inst := i.no, cause := 0, idx := o.idx, size := 4 * n, stage := i.stage
      seqNo := 0, iid := o.iid }
  let send (s : State) (m at_ cause : Nat) : State :=
    if cause = 0 then s.sendReq core asid i.ctx (s.peerId at_) (s.mcastPacket i.ctx p va n) .write (.mcast o.id p.tid m (record at_) 0)
    else
      let (id, s) := s.newId
      { s with freqs := s.freqs ++ [{ id, core, asid, ctx := i.ctx, peer := s.peerId at_, off := peerOff at_, sent := s.now
                                      pkt := packetOf 3 0 0 [], ask := .write, kind := .mcast o.id p.tid m (record at_) cause }] }
  let done (s : State) : State := (s.partDone o.id p.tid).mcastSettle core o.id
  let fail (cause : Nat) : State :=
    if i.kind != .stage then s.failWith o p.tid (p.arg 0) cause (4 * n) fun s => s.partDone o.id p.tid
    else if s.faultsBefore o p.tid then s else done (send s 0 va cause)
  if s.muted o.iid p.tid o.id || (i.trailing && (p.seqNo == 0 || p.arrived)) then done s
  else if s.blocked o p || (p.seqNo != 0 && !p.arrived) then s
  else match i.strictDepth p.tid o.id with
  | some d => done (s.consume o.iid p.tid 6 (p.arg 0) o.hdr (some d))
  | none =>
    if !spanOk va (4 * n) || aperOf va != .peer || va / 2 ^ 40 % 256 != 0 then fail 1
    else if va % 4 ≠ 0 ∨ va / 128 ≠ (va + 4 * n - 1) / 128 then fail 5
    else
      let ms := mcastMembers p va n
      let s := ms.foldl (fun s m => s.drainWhere core fun e => e.holds asid (memberVa va m) (4 * n)) s
      let s := ms.foldl (fun s m => send s m (memberVa va m) (if s.down.contains (s.peerId (memberVa va m)) then 1 else 0)) s
      let s := if ms.isEmpty then s else s.countRegion o.iid p.tid o.id 0 1
      done (s.sibling o.iid p.tid)

/-! ### FRED (R349) -/

/-- The identity of an operation, a word of one element or of two. -/
def fredIdentity (bf : Bool) (op : FrOp) : Nat :=
  match bf, op with
  | false, .add => 0x80000000
  | false, _ => 0x7FC00000
  | true, .add => 0x80008000
  | true, _ => 0x7FC07FC0

/-- One contribution per represented home warp: group, round, the lanes that receive the result, the 32 words. -/
def execFred (c : Ctl) (bf : Bool) (op : FrOp) (o : O2) (s : State) :=
  flagged (.fred c bf op o) c noMore
    (fun s is rs =>
      let i := s.inst is.iid
      (s, (byHw i is.lanes).map fun g =>
        let rep := lowest g.2
        let b := (s.srcB is ⟨rep, c.once⟩ .n32 o.b).toNat
        let mine := rs.filter fun r => i.hwOf r.t.tid == g.1
        let w (l : Nat) : DWord := match mine.find? fun r => i.laneOf r.t.tid == l with
          | some r => lo32 (s.srcV is r false o.a)
          | none => BitVec.ofNat 64 (fredIdentity bf op)
        let mask : BitVec 32 := mine.foldl (fun m r => m ||| BitVec.twoPow 32 (i.laneOf r.t.tid)) 0
        ({ tid := rep.tid, lane := rep.lane, done := 0, arrived := false
           args := [BitVec.ofNat 64 (b % 2 ^ 16), BitVec.ofNat 64 (b / 2 ^ 16 % 256), mask.setWidth 64] ++
             (List.range 32).map w } : Part)))
    noAfter s

/-- The end of a contribution's part with the words of a result. -/
def State.fredOut (s : State) (o : PendOp) (p : Part) (d : Nat) (res : List Word) : State :=
  let i := s.inst o.iid
  let ts := (i.maskTids (i.hwOf p.tid) (p.arg 2)).filter fun t => (i.th t).status != .exited
  let ws : List (Loc × DWord) := ts.map fun t => (.v t d, ((res.getD (i.laneOf t) 0).setWidth 64))
  (s.asyncWrites o.iid ws).partDone o.id p.tid

/-- FRED's next action: the leading or only copy sends its contribution once; a trailing copy waits for the leading one's
result of the same group and round (R351). -/
def State.fredStep (s : State) (o : PendOp) (p : Part) (bf : Bool) (op : FrOp) (d : Nat) : State :=
  let i := s.inst o.iid
  let hw := i.hwOf p.tid
  let key := (p.arg 0).toNat * 256 + (p.arg 1).toNat
  if i.trailing then
    match i.partner with
    | none => s.fredOut o p d []
    | some j => match s.inst? j with
      | none => s.fredOut o p d ((List.range 32).map fun l => (Config.openRead s.fresh (8 * l + 1)).setWidth 32)
      | some x => match find? (x.hw hw).freds key with
        | none => s
        | some res => (s.modHw j hw fun w => { w with freds := sdel w.freds key }).fredOut o p d res
  else if p.arrived then s
  else
    let (id, s) := s.newId
    let s := s.modOp o.id fun o => o.modPart p.tid fun p => { p with arrived := true }
    { s with contribs := s.contribs ++ [{ id, op := o.id, tid := p.tid, group := (p.arg 0).toNat, round := (p.arg 1).toNat
                                          bf, fop := op, elems := (p.args.drop 3).map (·.toNat) }] }

/-- The elements of a word, and the reduction of one element position (R350). -/
def fredElem (bf : Bool) (op : FrOp) (xs : List Nat) : Nat :=
  let f := if bf then Fmt.bf16 else Fmt.f32
  match op with
  | .add => fredAdd f xs
  | .max => fredMinMax f true xs
  | .min => fredMinMax f false xs
def fredWord (bf : Bool) (op : FrOp) (ws : List Nat) : Word :=
  if bf then BitVec.ofNat 32 (fredElem true op (ws.map (· % 2 ^ 16)) + 2 ^ 16 * fredElem true op (ws.map (· / 2 ^ 16)))
  else BitVec.ofNat 32 (fredElem false op ws)

/-- FRED_ROUND_COMPLETE: the K contributions of a round are this module's and `others`; every contributor of this module
receives the result. -/
def execFredRoundComplete (group round : Nat) (others : List (List Word)) (s : State) : Host.Outcome State Fault Refusal :=
  let mine := s.contribs.filter fun (c : Contrib) => c.group == group && c.round == round
  .next (match mine with
    | [] => s
    | c0 :: _ =>
      let all := mine.map (·.elems) ++ others.map fun ws => ws.map (·.toNat)
      let res := (List.range 32).map fun l => fredWord c0.bf c0.fop (all.map fun ws => ws.getD l 0)
      let s : State := { s with contribs := s.contribs.filter fun (c : Contrib) => !mine.contains c }
      mine.foldl (fun s c => match s.op? c.op with
        | none => s
        | some o =>
          let i := s.inst o.iid
          let s := if i.paired then s.modHw o.iid (i.hwOf c.tid) fun w =>
              { w with freds := sput w.freds (group * 256 + round) res } else s
          match o.ins with
          | .fred _ _ _ x => s.fredOut o ((o.part? c.tid).getD default) x.d res
          | _ => s) s)

/-- FRED_REFUSAL: a refused contribution, or one of a failed round, parks its threads with cause 1 and VA 0; the access
byte of their record is not given. -/
def execFredRefusal (req : Nat) (s : State) : Host.Outcome State Fault Refusal :=
  .next (match s.contribs.find? fun (c : Contrib) => c.id == req with
    | none => s
    | some c =>
      let drop (s : State) : State := { s with contribs := s.contribs.filter fun (x : Contrib) => x.id != req }
      match s.op? c.op with
      | none => drop s
      | some o =>
        let i := s.inst o.iid
        let p := (o.part? c.tid).getD default
        let ts := i.maskTids (i.hwOf c.tid) (p.arg 2)
        if ts.all fun t => s.canPark o t then
          let access := [0, 1, 3, 4, 5, 6, 7].getD ((Config.openRead s.fresh 13).toNat % 7) 0
          ((drop s).partDone o.id c.tid).threadFault o.iid (i.hwOf c.tid) ts 1 access 0 o.hdr o.flag
        else s)

/-! ### Answers to this module's requests (R334, R337 to R339, R342, R343) -/

def State.freq? (s : State) (id : Nat) : Option FReq := s.freqs.find? fun (f : FReq) => f.id == id
def State.dropReq (s : State) (id : Nat) : State := { s with freqs := s.freqs.filter fun (f : FReq) => f.id != id }
def State.withPart (s : State) (op tid : Nat) (f : State → PendOp → Part → State) : State :=
  match s.op? op with
  | none => s
  | some o => match o.part? tid with
    | none => s
    | some p => f s o p
def State.setFreqKind (s : State) (id : Nat) (k : FKind) : State :=
  { s with freqs := s.freqs.map fun (f : FReq) => if f.id == id then { f with kind := k } else f }

/-- The bytes of an atomic's old value. -/
def oldOf (o : PendOp) (data : DWord) : DWord :=
  match o.ins with
  | .atom _ _ ty _ | .red _ _ ty _ _ | .atomcas _ ty _ => if ty == .b64 then data else lo32 data
  | _ => data

def State.modFlow (s : State) (id : Nat) (g : Flow → Flow) : State :=
  { s with flows := s.flows.map fun (x : Flow) => if x.id == id then g x else x }
/-- A line of a flow is acknowledged: with the last one the flow's bytes are at the peer. -/
def State.flowAcked (s : State) (id : Nat) : State :=
  if s.flowSent id then s else s.modFlow id fun x => { x with acked := true }
/-- A word of a remote load arrives. -/
def State.loadAnswer (s : State) (o : PendOp) (p : Part) (word : Nat) (own : SMap Byte) (data : DWord) : State :=
  let n := ((accPieces o.ins p).getD word (0, 0)).2
  let bs := bytesOf n data.toNat
  let bs := (List.range n).map fun k => (find? own k).getD (nthByte bs k)
  let dead := ((s.inst o.iid).th p.tid).status == .exited && !o.once
  let s := if dead then s else s.asyncWrites o.iid (s.loadWrites o p.tid word bs)
  let s := s.modOp o.id fun o => o.modPart p.tid fun p => { p with done := word + 1 }
  if (accPieces o.ins p).length ≤ word + 1 then (s.dropWant (.op o.id p.tid)).partDone o.id p.tid else s

/-- A request has been applied: the answer's word is what the packet carries (R345). -/
def State.ackReq (s : State) (f : FReq) (word : DWord) : State :=
  let s' := s.dropReq f.id
  let data := (s.vfOf f.ctx).padWord f.off word
  match f.kind with
  | .write _ => s'
  | .load op tid w own => s'.withPart op tid fun s o p => s.loadAnswer o p w own data
  | .atomic op tid => s'.withPart op tid fun s o p => (s.sibling o.iid tid).atomEnd o p (some (oldOf o data))
  | .mcast op _ _ _ _ => s'.mcastSettle f.core op
  | .grant d e dst => s'.modClaim (d * 256 + e) fun c => { c with granted := c.granted ++ [dst] }
  | .flow id => s'.flowAcked id
  | .fetch id k => s'.modFlow id fun x => { x with got := sput x.got k (data.setWidth 8) }

/-- A peer refuses with cause 1, 2 or 3, or answers 5 for a read of poison, which the issuing threads consume (R334). Of a flow, which no
peer refuses, nothing is known of the bytes. -/
def State.refuse (s : State) (f : FReq) (cause : Nat) : State :=
  let s' := s.dropReq f.id
  match f.kind with
  | .write e => s'.pushSf f.core (e.record e.low cause e.data.length)
  | .load op tid w _ => s'.withPart op tid fun s o p =>
    let va := ((accPieces o.ins p).getD w (0, 0)).1
    if cause = 5 then (s.consume o.iid tid 2 (BitVec.ofNat 64 va) o.hdr none).partDone o.id tid
    else s.loadFails o tid cause va
  | .atomic op tid => s'.withPart op tid fun s o p =>
    if cause = 5 then (s.consume o.iid tid 2 (p.arg 0) o.hdr none).atomEnd o p none
    else
      let s := s.modOp o.id fun o => o.modPart tid fun p => { p with done := 8 + cause }
      s.withPart op tid fun s o p => s.atomPerf o p
  | .mcast op t m r _ => (s.setFreqKind f.id (.mcast op t m r cause)).mcastSettle f.core op
  | .grant d e _ => s'.modClaim (d * 256 + e) fun c => { c with refused := if cause = 2 ∨ cause = 3 then cause else 1 }
  | .flow id => s'.flowAcked id
  | .fetch id k => s'.modFlow id fun x => { x with got := sput x.got k ((Config.openRead s.fresh (16 * k + 11)).setWidth 8) }

/-- A containment error (R233): the waiting threads of an operation's home warp consume it, or the whole context. -/
def State.containment (s : State) (ctx : Nat) (wait : Option (Nat × Nat)) (va : DWord) : State :=
  let whole (s : State) : State := s.modCtx ctx fun x => { x with cerr := some { cause := 4, va, hdr := 0 } }
  match wait.bind fun w => (s.op? w.1).map fun o => (o, w.2) with
  | none => whole s
  | some (o, tid) =>
    let i := s.inst o.iid
    let ts := match o.flag with
      | none => []
      | some n => (i.hwTids (i.hwOf tid)).filter fun t => s.waitsOn o.iid t n
    if ts.isEmpty then whole s else ts.foldl (fun s t => s.consume o.iid t 4 va o.hdr none) s

/-- One pending request of a peer that has become unreachable (R342). -/
def State.lostReq (s : State) (f : FReq) : State :=
  let va : DWord := BitVec.ofNat 64 (31 * 2 ^ 52 + f.peer % 4096 * 2 ^ 40 + f.off)
  match f.kind with
  | .load .. => s.refuse f 1
  | .write _ => (s.dropReq f.id).containment f.ctx none va
  | .mcast op _ _ _ 0 => ((s.dropReq f.id).mcastSettle f.core op).containment f.ctx none va
  | .mcast .. => s
  | .atomic op tid =>
    let s := (s.dropReq f.id).containment f.ctx (some (op, tid)) va
    s.withPart op tid fun s o p => s.atomEnd o p (some (oldOf o (Config.openRead s.fresh (8 * tid + 3))))
  | .grant .. | .flow .. | .fetch .. => s.dropReq f.id

/-- A peer becomes unreachable: its claims are revoked with cause 3, its flows have lost their bytes, what waits for it
is answered. A probe that it does not answer counts it again. -/
def State.peerDown (s : State) (peer : Nat) : State :=
  let count (s : State) : State :=
    (List.range Config.dies).foldl (fun s d => s.modDie d fun x => { x with unreach := (x.unreach + 1) % 2 ^ 64 }) s
  if s.probing.contains peer then count { s with probing := s.probing.filter (· != peer) }
  else if s.down.contains peer then s
  else
    let s := count { s with down := s.down ++ [peer] }
    let hit (c : Claim) : Bool := (s.claimPeers c).contains peer
    let lose (f : Flow) : Flow :=
      let c := s.claim (f.die * 256 + f.entry)
      if (hit c && !f.acked) then { f with lost := true } else f
    let s : State := { s with flows := s.flows.map lose }
    let asks (o : PendOp) (p : Part) : Bool := match o.ins with
      | .claimNew _ _ sk dk _ _ => hit { sk, dk, src := p.arg 0, dst := p.arg 1, pod := (p.arg 3).toNat }
      | _ => false
    let s := (s.revokeWhere hit 3).2.revokeWaiting asks
    (s.freqs.filter fun (f : FReq) => f.peer == peer).foldl (fun s f => s.lostReq f) s
def execDestinationUnreachable (peer : Nat) (s : State) : Host.Outcome State Fault Refusal := .next (s.peerDown peer)
/-- ACK_TIMEOUT: no acknowledgement within 2 ms. -/
def execAckTimeout (req : Nat) (s : State) : Host.Outcome State Fault Refusal :=
  .next (match s.freq? req with
    | none => s
    | some f => if f.sent + Config.ackCycles ≤ s.now then s.peerDown f.peer else s)

/-- UNREACH_CLEAR: the write of 0 re-probes every peer. -/
def State.unreachClear (s : State) (die : Nat) : State :=
  let s : State := { s with probing := s.down }
  s.modDie die fun x => { x with unreach := 0 }
def execUnreachClear (die : Nat) (s : State) : Host.Outcome State Fault Refusal := .next (s.unreachClear die)
/-- PROBE_ANSWER: the peer is reachable again. -/
def execProbeAnswer (peer : Nat) (s : State) : Host.Outcome State Fault Refusal :=
  .next (if s.probing.contains peer then
    { s with probing := s.probing.filter (· != peer), down := s.down.filter (· != peer) } else s)

/-- LINK_DOWN and LINK_UP: the packets take another link (R342); LINKS shows the link. -/
def setLink (x : Die) (link : Nat) (up : Bool) : Die :=
  if 2 ≤ link then x
  else { x with links := if x.links / 2 ^ link % 2 = up.toNat then x.links
                         else if up then x.links + 2 ^ link else x.links - 2 ^ link }
def execLinkDown (die link : Nat) (s : State) : Host.Outcome State Fault Refusal :=
  .next (s.modDie die fun x => setLink x link false)
def execLinkUp (die link : Nat) (s : State) : Host.Outcome State Fault Refusal :=
  .next (s.modDie die fun x => setLink x link true)

/-- HAMPER_AGE_EXPIRY: entries of a line that have been open for their time drain (R336). -/
def execHamperAgeExpiry (core line : Nat) (s : State) : Host.Outcome State Fault Refusal :=
  .next (s.drainWhere core fun e => e.line == line && decide (e.opened + e.limit ≤ s.now))

/-- MODULE_ID_ASSIGN (R330): before the supervisor starts. -/
def execModuleIdAssign (id : BitVec 19) (s : State) : Host.Outcome State Fault Refusal :=
  .next (if s.booted then s else { s with modId := id.toNat })

/-! ### Requests of other modules (R332, R337 to R340, R343) -/

/-- The export that a packet names, or the cause of its refusal; a packet of a sealed world whose tag fails is refused (R345). -/
def State.exportOf (s : State) (p : Packet) (k : SKind) : Except Nat Vf :=
  let live := (svals s.vfs).filter fun v => v.live && v.fpid == p.fpid
  match live.find? fun v => v.world == p.world with
  | none => .error (if live.isEmpty then 1 else 3)
  | some v => if p.tag != v.tagOf p k && p.world != 0 then .error 3 else if v.len ≤ p.off then .error 1 else .ok v

def State.remoteReq (s : State) (v : Vf) (kind : Nat) : Req :=
  { iid := 0, ctx := v.ectx, priv := 0, world := v.world, die := (s.ctx v.ectx).ccb.ibase / 8, kind }

/-- The cause of R338 for a refusal of the translation. -/
def remoteCause (c : Nat) : Nat := match c with | 2 | 4 => 2 | 3 => 3 | 5 => 5 | _ => 1

/-- The rights of one piece at its home, for a write. -/
def State.remoteRights (s : State) (who : Asker) (q : Req) (va : Nat) : Chk × State :=
  match aperOf va with
  | .mem => match s.rights q va with
    | .ok a _ _ => if s.l2Full (s.home q.ctx va) (secKey a va) then (.wait, s.l2Evict (s.home q.ctx va) (secKey a va)) else (.ok, s)
    | .full => (.wait, s)
    | .miss c => s.missed who q c va
    | .refuse c => (.refuse c va, s)
  | _ => s.chkPiece who q va 1
/-- Bytes one after the other; an export that reaches into the peer window has no page there (log entry 48). -/
def remoteChecks (who : Asker) (q : Req) : State → List (Nat × Nat) → Chk × State
  | s, [] => (.ok, s)
  | s, (va, n) :: r =>
    match (if aperOf va == .peer then (.refuse 1 va, s) else if q.kind == 1 || q.kind == 5 then s.remoteRights who q va else s.chkPiece who q va n) with
    | (.ok, s) => remoteChecks who q s r
    | x => x

/-- The check of a served request; one that the supervisor has released comes in its order (R211). -/
def State.remoteCheck (s : State) (v : Served) (q : Req) (ps : List (Nat × Nat)) : Chk × State :=
  if s.behind (.remote v.id) then (.wait, s) else remoteChecks (.remote v.id) q s ps

/-- Bytes at their homes. -/
def State.remotePut (s : State) (q : Req) (va : Nat) (b : Byte) : State :=
  if aperOf va == .mem then s.homePut q va [b] else s.storeBytes q va [b]
def State.remoteGet (s : State) (q : Req) (va n : Nat) : List Byte :=
  if aperOf va == .mem then s.homeBytes q va n else s.loadBytes q va n

/-- A request is answered, and leaves: the answer's bytes are ciphertext in a sealed world (R340, R345). -/
def State.answer (s : State) (v : Served) (cause : Nat) (data : List Byte) : State :=
  let s := s.dropWant (.remote v.id)
  let x := (svals s.vfs).find? fun (x : Vf) => x.world == v.pkt.world && x.fpid == v.pkt.fpid
  let p : Packet := { v.pkt with cls := 1, src := s.modId, dst := v.pkt.src, data := x.elim data fun x => x.padBytes v.pkt.off data }
  { s with served := s.served.filter (fun (x : Served) => x.id != v.id)
           answers := s.answers ++ [{ pkt := { p with tag := x.elim 0 fun x => x.tagOf p .load }, cause }] }

/-- The positions of a packet's bytes. -/
def packetOnes (p : Packet) : List Nat := (List.range p.mask.length).filter fun k => p.mask.getD k false

/-- Whether a write or atomic is held by a migration (R215, step 3). -/
def State.servedHold (s : State) (v : Vf) (id va : Nat) : Option State :=
  (s.migAt v.ectx va).map fun m => (s.holdIn m (.served id)).2

/-- A masked write or a multicast copy: all of its bytes or none. -/
def State.serveWrite (s : State) (v : Served) (x : Vf) : State :=
  let q := s.remoteReq x 1
  let base := x.base.toNat + v.pkt.off
  let ks := packetOnes v.pkt
  if !x.w then s.answer v 2 []
  else if (ks.any fun k => decide (x.len ≤ v.pkt.off + k)) then s.answer v 1 []
  else match s.remoteCheck v q (ks.map fun k => (base + k, 1)) with
    | (.wait, s) => s
    | (.refuse c _, s) => s.answer v (remoteCause c) []
    | (.ok, s) =>
      match s.servedHold x v.id base with
      | some s => s
      | none => (ks.foldl (fun s k => s.remotePut q (base + k) (x.pad (v.pkt.off + k) (nthByte v.pkt.data k))) s).answer v 0 []

/-- A load: the bytes that the mask names, as an access of kind 0 at their home slices. -/
def State.serveLoad (s : State) (v : Served) (x : Vf) : State :=
  let q := { s.remoteReq x 0 with home := true }
  let base := x.base.toNat + v.pkt.off
  let ks := packetOnes v.pkt
  if !x.r then s.answer v 2 []
  else if (ks.any fun k => decide (x.len ≤ v.pkt.off + k)) then s.answer v 1 []
  else match s.remoteCheck v q (ks.map fun k => (base + k, 1)) with
    | (.wait, s) => s
    | (.refuse c _, s) => s.answer v (remoteCause c) []
    | (.ok, s) => s.answer v 0 (ks.flatMap fun k => s.remoteGet q (base + k) 1)

/-- An atomic at its home slice, logged there with the fabric bit (R316, R351). -/
def State.serveAtomic (s : State) (v : Served) (x : Vf) (op : AOp) (ty : ATy) (cas : Bool) (b c : DWord) : State :=
  let (b, c) := (x.padWord v.pkt.off b, x.padWord (v.pkt.off + 8) c)
  let q := s.remoteReq x 2
  let va := x.base.toNat + v.pkt.off
  let n := atyBytes ty
  if !x.w then s.answer v 2 []
  else if x.len < v.pkt.off + n then s.answer v 1 []
  else match s.remoteCheck v q (sectorsOf va n) with
    | (.wait, s) => s
    | (.refuse e _, s) => s.answer v (remoteCause e) []
    | (.ok, s) =>
      match s.servedHold x v.id va with
      | some s => s
      | none =>
        let (ok, s) := if (s.ctx x.ectx).ccb.recB then
            s.gate x.ectx (s.atomSrc q va) 0x01
              (bytesOf 8 va ++ bytesOf 2 0x8000 ++ bytesOf 2 0)
          else (true, s)
        if !ok then s
        else
          let old := natOf (s.remoteGet q va n)
          let new : Option Nat := if cas then (if old = b.toNat ∧ c.toNat ≠ old then some c.toNat else none)
            else some (atomNew op ty old b.toNat)
          let s := match new with
            | none => s
            | some y => (List.range n).foldl (fun s k => s.remotePut q (va + k) (nthByte (bytesOf n y) k)) s
          s.answer v 0 (bytesOf n old)

/-- The pages of a grant, one after the other. -/
def grantPages (id : Nat) (q : Req) (isDst : Bool) : State → List Nat → List ClaimPg → Option (Except Nat (List ClaimPg)) × State
  | s, [], ps => (some (.ok ps), s)
  | s, page :: r, ps =>
    if aperOf page == .peer then (some (.error 1), s)
    else match s.xlat q page with
    | .refuse c => (some (.error (remoteCause c)), s)
    | .miss ctrl => match s.missed (.remote id) q ctrl page with
      | (.refuse c _, s) => (some (.error (remoteCause c)), s)
      | (_, s) => (none, s)
    | .hit l pa =>
      if l.mig || s.migrating q.ctx page then (none, s)
      else if l.tag = 0 then (some (.error 1), s)
      else grantPages id q isDst s r (ps ++ [⟨isDst, page, pa, l.tag, l.rights, l.big⟩])

/-- A grant request (R343): every page of the range, then an entry of the die's table. -/
def State.serveGrant (s : State) (v : Served) (x : Vf) (n die len : Nat) (isDst : Bool) : State :=
  let q := s.remoteReq x (if isDst then 5 else 4)
  let base := x.base.toNat + v.pkt.off
  if !(if isDst then x.w else x.r) then s.answer v 2 []
  else if x.len < v.pkt.off + len then s.answer v 1 []
  else
    let pages := (List.range ((base + len - 1) / 4096 + 1 - base / 4096)).map fun j => (base / 4096 + j) * 4096
    match grantPages v.id q isDst s pages [] with
    | (none, s) => s
    | (some (.error c), s) => s.answer v c []
    | (some (.ok ps), s) =>
      match (List.range Config.grantSize).find? fun e => (find? (s.die die).grants e).isNone with
      | none => s
      | some e =>
        let g : Grant := { src := v.pkt.src, srcDie := v.pkt.srcDie, vf := n, off := v.pkt.off, len, isDst, pages := ps }
        (s.modDie die fun d => { d with grants := sput d.grants e g }).answer v 0 []

/-- The grant on which a flow's packet of class 2 runs (R343). -/
def State.grantOf (s : State) (p : Packet) (isDst : Bool) : Option Grant :=
  (s.dies.flatMap fun d => svals d.2.grants).find? fun (g : Grant) => g.src == p.src && g.isDst == isDst && g.space != 0 &&
    (s.vf g.vf).world == p.world && (s.vf g.vf).fpid == p.fpid && decide (g.off ≤ p.off) && decide (p.off + p.mask.length ≤ g.off + g.len)
/-- A byte of a granted range: its page as the peer has walked it, its address and its physical address. -/
def Grant.at (g : Grant) (off : Nat) : Option (ClaimPg × Nat × Nat) :=
  (g.pages[off / 4096 - g.off / 4096]?).map fun p => (p, p.va + off % 4096, p.pa + off % 4096)
/-- Bytes of a flow of a granted claim: the held translations serve it, and it cannot fault (R229, R343). -/
def State.serveFlow (s : State) (v : Served) : State :=
  match s.grantOf v.pkt (v.kind == .write) with
  | none => s.answer v 1 []
  | some g =>
    let x := s.vf g.vf
    let die := (s.ctx x.ectx).ccb.ibase / 8
    let ks := packetOnes v.pkt
    if v.pkt.world != 0 && v.pkt.tag != x.tagOf v.pkt v.kind then s.answer v 3 []
    else match (ks.filterMap fun k => g.at (v.pkt.off + k)).find? fun p => g.isDst && aperOf p.2.1 == .mem &&
        s.l2Full (paDie p.2.2) (secKey p.1.tag p.2.1) with
    | some (p, va, pa) => s.l2Evict (paDie pa) (secKey p.tag va)
    | none =>
    if g.isDst then
      (ks.foldl (fun s k => match g.at (v.pkt.off + k) with
        | none => s
        | some (p, va, pa) => s.livePut (aperOf va == .mem) x.ectx p va pa (x.pad (v.pkt.off + k) (nthByte v.pkt.data k))) s).answer v 0 []
    else
      let (bs, s) := ks.foldl (fun (r : List Byte × State) k => match g.at (v.pkt.off + k) with
        | none => r
        | some (p, va, pa) =>
          let (b, s) := r.2.liveByte (aperOf va == .mem) die p.tag va pa ((Config.openRead r.2.fresh (16 * k + 11)).setWidth 8)
          (r.1 ++ [b], s)) ([], s)
      s.answer v 0 bs

/-- A request in service goes on: it waits for a translation, a migration or a free entry, or is answered. -/
def State.serve (s : State) (v : Served) : State :=
  if v.pkt.cls == 2 && (v.kind == .write || v.kind == .load) then s.serveFlow v
  else match s.exportOf v.pkt v.kind with
  | .error c => s.answer v c []
  | .ok x => match v.kind with
    | .write => s.serveWrite v x
    | .load => s.serveLoad v x
    | .atomic op ty cas b c => s.serveAtomic v x op ty cas b c
    | .grant die len isDst => s.serveGrant v x (((s.vfs.find? fun p => p.2 == x).map (·.1)).getD 0) die len isDst

/-- Whether requests come in the order of one source, source die and class; a grant request names no slice, and holds nothing back. -/
def Served.before (v : Served) (p : Packet) : Bool :=
  v.pkt.src == p.src && v.pkt.srcDie == p.srcDie && v.pkt.cls == p.cls && (match v.kind with | .grant .. => false | _ => true)
/-- A packet reaches the receive port: it is taken in the order of its source, source die and class (R340), once those before
it have been answered; of a packet in service the event is its next action. -/
def State.receive (s : State) (p : Packet) (cls : Nat) (kind : SKind) : State :=
  let p := { p with cls }
  match s.served.find? fun (v : Served) => v.pkt == p && v.kind == kind with
  | some v => s.serve v
  | none =>
    let key := (p.src * 8 + p.srcDie) * 4 + cls
    if p.seqNo ≠ sget 0 s.rxSeq key ∨ s.served.any (fun (v : Served) => v.before p) ∨ p.src = s.modId then s
    else
      let (id, s) := s.newId
      let v : Served := { id, pkt := p, kind }
      ({ s with rxSeq := sset 0 s.rxSeq key (p.seqNo + 1), served := s.served ++ [v] } : State).serve v

/-- The class of a masked write or a load: a request, or a line of a flow. -/
def reqClass (p : Packet) : Nat := if p.cls = 2 then 2 else 0
def execRemoteMaskedWrite (p : Packet) (s : State) : Host.Outcome State Fault Refusal := .next (s.receive p (reqClass p) .write)
def execRemoteLoadRequest (p : Packet) (s : State) : Host.Outcome State Fault Refusal := .next (s.receive p (reqClass p) .load)
def execRemoteAtomicRequest (r : AtomReq) (s : State) : Host.Outcome State Fault Refusal :=
  .next (s.receive r.pkt 0 (.atomic r.op r.ty r.cas r.b r.c))
def execMulticastCopy (p : Packet) (s : State) : Host.Outcome State Fault Refusal := .next (s.receive p 3 .write)
def execGrantRequest (die : Nat) (p : Packet) (len : Nat) (isDst : Bool) (s : State) : Host.Outcome State Fault Refusal :=
  .next (if die < Config.dies ∧ len ≠ 0 then s.receive p 2 (.grant die len isDst) else s)

/-! ### Answers, those of the module to itself among them (R331) -/

/-- The next action of a request of the module to itself: its own receive port serves it in its order, then its answer comes back. -/
def State.loopStep (s : State) (f : FReq) : State :=
  match s.answers.find? fun (a : Answer) => a.pkt.dst == s.modId && a.pkt.seqNo == f.id with
  | some a =>
    let s : State := { s with answers := s.answers.filter (· != a) }
    if a.cause = 0 then s.ackReq f (BitVec.ofNat 64 (natOf a.pkt.data)) else s.refuse f a.cause
  | none => match s.served.find? fun (v : Served) => v.id == f.id with
    | none => s
    | some v => if (s.served.takeWhile fun (u : Served) => u.id != f.id).any fun u => u.before v.pkt then s else s.serve v

/-- REMOTE_ACK: a request has been applied. -/
def execRemoteAck (req : Nat) (data : DWord) (s : State) : Host.Outcome State Fault Refusal :=
  .next (match s.freq? req with
    | none => s
    | some f => if f.peer = s.modId then s.loopStep f else s.ackReq f data)
/-- REMOTE_REFUSAL: the target refuses it. -/
def execRemoteRefusal (req cause : Nat) (s : State) : Host.Outcome State Fault Refusal :=
  .next (match s.freq? req with
    | none => s
    | some f =>
      if f.peer = s.modId then s.loopStep f
      else if cause = 1 ∨ cause = 2 ∨ cause = 3 ∨ cause = 5 then s.refuse f cause else s)

/-! ### Revocations across modules (R343) -/

/-- PEER_REVOKE_MESSAGE: the peer revokes the claims whose peer side covers an address. -/
def execPeerRevokeMessage (peer : Nat) (va : DWord) (cause : Nat) (s : State) : Host.Outcome State Fault Refusal :=
  let hit (c : Claim) : Bool :=
    (c.sk == .peer && s.sidePeer c false == peer && decide (c.src.toNat ≤ va.toNat) && decide (va.toNat < c.src.toNat + c.len)) ||
    (c.dk == .peer && s.sidePeer c true == peer && decide (c.dst.toNat ≤ va.toNat) && decide (va.toNat < c.dst.toNat + c.len))
  .next (if cause = 1 ∨ cause = 2 then (s.revokeWhere hit cause).2 else s)

/-- FLOWS_DRAINED_REPORT: the holder's flows have ended; its grant is gone, and the revoking agents go on. Of a claim of the module
itself the flows are known. -/
def execFlowsDrainedReport (die entry : Nat) (s : State) : Host.Outcome State Fault Refusal :=
  let runs := (find? (s.die die).grants entry).elim false fun g =>
    (svals (s.claimList)).any fun (c : Claim) => s.ownGrant g c && (c.flows != 0 || c.st == .held)
  .next (if runs then s else s.modDie die fun d => { d with grants := sdel d.grants entry })

end Sys2Proof.Machine
end

