-- ==== Sys2Proof/Machine/System.lean ====
section
/-!
DEFINITION. Supervisor calls, the trap registers and the status space (R301 to R308): SCALL, MCALL, ERET, MOVPS, INTCTL, the entries
of a steward's thread into a level, and the supervisor's queues.
-/
namespace Sys2Proof.Machine

/-! ### SCALL and MCALL (R306, R307) -/

/-- SCALL: a record of kind 1 for each distinct code and home warp; the threads park. It is an instruction of compute threads:
elsewhere sub-cause 12. -/
def execScall (c : Ctl) (b : BSrc) (s : State) :=
  transfer (.scall c b) c (fun s is rs =>
    let i := s.inst is.iid
    if rs.isEmpty then .go s
    else if i.kind != .stage then .stay (s.trapAll is 12 0x3C1 0)
    else
      let cs := rs.map fun r => ((s.srcB is r .b32 b).toNat % 256, r.t)
      let codes := ((cs.map (·.1)).eraseDups).insertionSort (· ≤ ·)
      .go (codes.foldl (fun s k => (byHw i ((cs.filter fun p => p.1 == k).map (·.2))).foldl (fun s g =>
        let tids := g.2.map (·.tid)
        let t : TrapRec := ⟨k, 0, 0, is.follow, is.hdrAt, laneMask g.2, is.idx, 0x3C1, false⟩
        (s.leaveIssue is.iid tids).toSupervisor is.iid g.1 tids 1 k t false) s) s)) s

/-- v0 and v1 of a caller. -/
def State.mcallOut (s : State) (iid tid : Nat) (v0 : Nat) (v1 : Option DWord) : State :=
  s.asyncWrites iid ((.v tid 0, BitVec.ofNat 64 v0) :: (match v1 with
    | some x => [(.v tid 1, x)]
    | none => []))

/-- MCALL: compute threads park until the monitor has served them, a thread at S enters M, at M and for an unallocated function
the answer is 2. A walker's thread would enter M by a trap, which ends its walk. -/
def execMcall (c : Ctl) (fn : BitVec 8) (s : State) :=
  transfer (.mcall c fn) c (fun s is rs =>
    let i := s.inst is.iid
    let tids := rs.map (·.t.tid)
    if rs.isEmpty then .go s
    else match i.kind with
      | .stage =>
        if 8 ≤ fn.toNat then .go (tids.foldl (fun s t => s.mcallOut is.iid t 2 (some (Config.openRead s.fresh (8 * t + 1)))) s)
        else .go ((byHw i (rs.map (·.t))).foldl (fun s g =>
          let ts := g.2.map (·.tid)
          ((s.leaveIssue is.iid ts).newSub is.iid g.1 ts [] is.follow is.hdrAt 0 (.monitor fn.toNat)).2) s)
      | .steward =>
        if (i.th 0).level = 2 then .go (s.mcallOut is.iid 0 2 none)
        else .go ((s.leaveIssue is.iid [0]).stewardTrapAt is.iid 2 ⟨4, fn.toNat, 0⟩ is.follow)
      | .walker => if (i.th 0).level = 2 then .go (s.mcallOut is.iid 0 2 none) else .go (s.walkerTrap is.iid)) s

/-- ERET: back to the level EPRIV of the thread's level holds, at the header that the entry saved; IE is set again. DESIGN CHOICE (log 60):
a value of EPRIV other than 1 and 2 returns to S. Only a steward's thread has trap registers: elsewhere sub-cause 12. -/
def execEret (c : Ctl) (s : State) :=
  transfer (.eret c) c (fun s is rs =>
    let i := s.inst is.iid
    if rs.isEmpty then .go s
    else if i.kind != .steward then .stay (s.trapAll is 12 0x3C3 0)
    else
      let x := s.steward is.iid
      let l := (i.th 0).level
      let r := x.regs l
      let back := if r.epriv.toNat % 4 = 2 then 2 else 1
      .go (((s.setSteward is.iid (x.setRegs l { r with ie := true })).modTh is.iid 0 fun t => { t with level := back }).take is
        [(0, r.epc)])) s

/-! ### Interrupts (R302) -/

/-- Every entry of the die's claim table carries a claim (R225). -/
def claimsFull (s : State) (d : Nat) : Bool := (s.die d).claims.countP (fun x => x.2.st != .free) == 256
/-- The classes that are pending for a die. -/
def State.diePend (s : State) (d : Nat) : Nat :=
  let x := s.die d
  (if x.memq.isEmpty then 0 else 1) + (if x.trapq.isEmpty then 0 else 2) +
    (if s.cores.any fun k => k.1 / Config.coresPerDie == d && decide (Config.sfqSize ≤ k.2.sfq.length) then 4 else 0) +
    (if claimsFull s d then 8 else 0)
/-- The classes that are pending at a steward: on steward 1 of a world-0 die those of the die, on die 0 those of the sealed dies too. -/
def State.pendAt (s : State) (k : Nat) : Nat :=
  let d := k / Config.stewardsPerDie
  if k % Config.stewardsPerDie ≠ 1 ∨ (s.die d).world ≠ 0 then 0
  else if d = 0 then
    ((List.range Config.dies).filter fun e => (s.die e).world != 0).foldl (fun m e => m ||| s.diePend e) (s.diePend 0)
  else s.diePend d
/-- The classes that are pending and not masked at S. -/
def State.unmasked (s : State) (k : Nat) : Nat := s.pendAt k &&& (~~~(s.steward k).s.mask).toNat

/-- INTERRUPT_ENTRY: at a clause boundary a steward's thread, at S or at M, enters S with cause 3. -/
def State.interrupt (s : State) (k : Nat) : State :=
  let t := (s.inst k).th 0
  let m := s.unmasked k
  if (s.inst k).kind != .steward || !(s.steward k).s.ie || m = 0 || s.issuing k 0 then s
  else s.enterLevel k 1 ⟨3, m, 0⟩ t.header
def execInterruptEntry (die n : Nat) (s : State) : Host.Outcome State Fault Refusal := .next (s.interrupt (stewardId die n))

/-- STEWARD_TRAP_ENTRY: at its clause boundary a steward's thread takes the memory fault or the pipeline error that waits. -/
def State.stewardBoundary (s : State) (k : Nat) (t : TrapInfo) : State :=
  let th := (s.inst k).th 0
  match th.pend with
  | [] => s
  | r :: rest =>
    if (s.inst k).kind != .steward || s.issuing k 0 || !(t == ⟨r.code, r.detail, r.addr⟩) then s
    else if r.code = 8 then (s.modTh k 0 fun x => { x with pend := rest }).stewardOther k r.detail th.header
    else (s.modTh k 0 fun x => { x with pend := rest }).stewardTrap k t th.header
def execStewardTrapEntry (die n : Nat) (t : TrapInfo) (s : State) : Host.Outcome State Fault Refusal :=
  .next (s.stewardBoundary (stewardId die n) t)

/-! ### Status words (R303) -/

/-- A word of the trap registers of a level. -/
def TrapRegs.word (r : TrapRegs) (pend k : Nat) : DWord :=
  match k with
  | 0 => r.epc
  | 1 => r.ecause
  | 2 => r.epriv
  | 3 => r.vec
  | 4 => (if r.ie then 1 else 0) ||| ((r.mask.setWidth 64) <<< 16) ||| (BitVec.ofNat 64 pend <<< 32)
  | _ => r.eaddr
def TrapRegs.put (r : TrapRegs) (k : Nat) (x : DWord) : TrapRegs :=
  match k with
  | 0 => { r with epc := x }
  | 1 => { r with ecause := x &&& 0xFFFFFFFF000000FF }
  | 2 => { r with epriv := x &&& 3 }
  | 3 => { r with vec := x }
  | 4 => { r with ie := x.getLsbD 0, mask := (x >>> 16).setWidth 16 }
  | _ => { r with eaddr := x }

def ClaimSt.code : ClaimSt → Nat
  | .free => 0 | .walking => 1 | .held => 2 | .revoking => 3 | .revoked => 4
/-- A word of a claim-table entry (R225); of a sealed context it shows pages alone (R287). -/
def State.claimWord (s : State) (d e k : Nat) : DWord :=
  let c := s.claim (d * 256 + e)
  let page (x : DWord) : DWord := if s.sealed c.ctx then x &&& ~~~0xFFF else x
  match k with
  | 0 => BitVec.ofNat 64 (c.st.code + 2 ^ 8 * c.k + 2 ^ 16 * c.ctx + 2 ^ 32 * c.sk.code + 2 ^ 40 * c.dk.code + 2 ^ 48 * c.fifo +
      2 ^ 56 * (if c.dk == .fifo then c.cluster % Config.clustersPerDie else 0))
  | 1 => page c.src
  | 2 => page c.dst
  | 3 => BitVec.ofNat 64 (c.len + 2 ^ 32 * c.left)
  | 4 => BitVec.ofNat 64 (c.flows + 2 ^ 8 * c.rev + 2 ^ 16 * c.fault + 2 ^ 32 * c.gen)
  | 5 => page c.faultVa
  | 6 => BitVec.ofNat 64 (c.peer % 2 ^ 19)
  | _ => 0

/-- A word of a virtual function's control block (R279). -/
def Vf.word (v : Vf) (n k : Nat) : DWord :=
  match k with
  | 0 => BitVec.ofNat 64 (n + 2 ^ 8 * v.world + 2 ^ 16 * (v.scopeLim.toNat + 2 * v.trapDemote.toNat))
  | 1 => BitVec.ofNat 64 v.demoteCnt
  | 6 => BitVec.ofNat 64 v.ctrls
  | 7 => BitVec.ofNat 64 v.diesM
  | k => BitVec.ofNat 64 (v.clusters / 2 ^ (64 * (k - 2)))
/-- The dies of a mask, and their clusters and controllers as masks. -/
def maskDies (m : Nat) : List Nat := (List.range Config.dies).filter fun d => m.testBit d
def diesClusters (m : Nat) : Nat := ((maskDies m).map fun d => (2 ^ Config.clustersPerDie - 1) * 2 ^ (Config.clustersPerDie * d)).sum
def diesCtrls (m : Nat) : Nat := ((maskDies m).map fun d => 0xFF * 2 ^ (8 * d)).sum
/-- A cluster mask without the clusters that are fenced (R297). -/
def State.unfenced (s : State) (m : Nat) : Nat :=
  s.clusters.foldl (fun m k => if k.2.fenced && m.testBit k.1 then m - 2 ^ k.1 else m) m
/-- A control block takes new contents (R279, R297): the masks of a sealed function are those of the dies of its die mask, which
are its world's; any other die mask is refused, and nothing changes. -/
def State.vfWrite (s : State) (v : Nat) (g : Vf) : State :=
  if g.world = 0 then s.setVf v { g with clusters := s.unfenced g.clusters }
  else if g.diesM % 2 = 0 ∧ (maskDies g.diesM).all (fun d => (s.die d).world == g.world) then
    s.setVf v { g with clusters := s.unfenced (diesClusters g.diesM), ctrls := diesCtrls g.diesM }
  else s

/-- A die latches a world (R216, R277): its keys are the world's, which another die of it may hold already, and its stewards 1 to 7 but one,
which writes the latch itself, belong to the monitor or to the supervisor from then on, and start at headers that the spec does not
give (log entry 39). -/
def State.latchWorld (s : State) (d w but : Nat) : State :=
  let mate := ((List.range Config.dies).filter fun e => e != d && (s.die e).world == w).head?
  let key (f : Die → BitVec 256) (new : Nat → BitVec 256) : BitVec 256 :=
    if w = 0 then 0 else mate.elim (new s.fresh) fun e => f (s.die e)
  let (a, b) := (key (·.worldKey) Config.worldKey, key (·.tagKey) Config.tagKey)
  let s := s.modDie d fun x => { x with world := w, worldKey := a, tagKey := b }
  (((List.range 7).map fun n => stewardId d (n + 1)).filter (· != but)).foldl (fun s k =>
    let s : State := { s with issues := s.issues.filter (fun (x : Issue) => x.iid != k), ops := s.ops.filter fun (o : PendOp) => o.iid != k }
    s.modTh k 0 fun t => { t with level := if w = 0 then 1 else 2, pend := [], sfPend := 0
                                  pc := (Config.openRead s.fresh (400 + k)) &&& ~~~7 }) s

/-- A word of it is written: the world and the die mask at M alone. -/
def Vf.put (v : Vf) (k : Nat) (x : DWord) (level : Nat) : Vf :=
  match k with
  | 0 =>
    let v := { v with scopeLim := x.getLsbD 16, trapDemote := x.getLsbD 17 }
    if level = 2 then { v with world := x.toNat / 2 ^ 8 % 2 ^ 8 } else v
  | 1 => { v with demoteCnt := x.toNat }
  | 6 => { v with ctrls := x.toNat }
  | 7 => { v with diesM := x.toNat % 2 ^ 8 }
  | k =>
    let sh := 64 * (k - 2)
    { v with clusters := v.clusters - v.clusters / 2 ^ sh % 2 ^ 64 * 2 ^ sh + x.toNat * 2 ^ sh }
/-- The level at which a write of a word is a write of M's fields alone: the masks of a sealed world, the die mask, a changed world. -/
def Vf.needsM (v : Vf) (k : Nat) (x : DWord) : Bool :=
  match k with
  | 0 => x.toNat / 2 ^ 8 % 2 ^ 8 != v.world
  | 1 => false
  | 7 => true
  | _ => v.world != 0

def Vf.exportWord (v : Vf) (k : Nat) : DWord :=
  match k with
  | 0 => BitVec.ofNat 64 (v.fpid + 2 ^ 12 * v.world + 2 ^ 20 * v.live.toNat + 2 ^ 21 * v.r.toNat + 2 ^ 22 * v.w.toNat)
  | 1 => BitVec.ofNat 64 v.ectx
  | 2 => v.base
  | _ => BitVec.ofNat 64 v.len
def Vf.putExport (v : Vf) (k : Nat) (x : DWord) : Vf :=
  match k with
  | 0 => { v with fpid := x.toNat % 2 ^ 12, live := x.getLsbD 20, r := x.getLsbD 21, w := x.getLsbD 22 }
  | 1 => { v with ectx := x.toNat % 2 ^ 16 }
  | 2 => { v with base := x &&& 0x1FFFFFFFFFFF000 }
  | _ => { v with len := x.toNat % 2 ^ 41 / 4096 * 4096 }

/-- A word of an export is written; the monitor installs the fabric key of a sealed function's world with the export, as it goes live: the
key that another live export of the world has (R345; log entry 22). -/
def State.writeExport (s : State) (n k : Nat) (x : DWord) : State :=
  let v := (s.vf n).putExport k x
  let mate := (svals s.vfs).find? fun y => y.world == v.world && y.live
  s.setVf n (if k = 0 && v.live && v.world != 0 && !(s.vf n).live then { v with fkey := mate.elim (Config.fabricKey s.fresh) (·.fkey) } else v)

def LogRing.word (g : LogRing) (ivl k : Nat) : DWord :=
  match k with
  | 0 => BitVec.ofNat 64 g.producer
  | 1 => BitVec.ofNat 64 g.consumer
  | 2 => BitVec.ofNat 64 g.replay
  | 3 => BitVec.ofNat 64 (g.stalled.toNat + 2 * g.diverged.toNat + 4 * g.stopped.toNat)
  | 4 => BitVec.ofNat 64 ivl
  | _ => BitVec.ofNat 64 (g.partner + 2 ^ 16 * g.pvalid.toNat)
/-- CONSUMER in record mode and PRODUCER in replay mode are the supervisor's (R314, R317, R318). -/
def LogRing.setConsumer (g : LogRing) (v : Nat) : LogRing :=
  let g := { g with consumer := v }
  { g.unwait with above := decide (g.thresh ≤ g.producer - v) }
def LogRing.setProducer (g : LogRing) (v : Nat) : LogRing :=
  { g with producer := v, waits := g.waits.map fun w => (w.1, 1) }

/-- LOG_RING_CONSUMER_WRITE and LOG_RING_PRODUCER_WRITE. -/
def State.consumerWrite (s : State) (c : Nat) (v : DWord) : State :=
  if (s.ctx c).ccb.recB then s.modCtx c fun x => { x with log := x.log.setConsumer v.toNat } else s
def State.producerWrite (s : State) (c : Nat) (v : DWord) : State :=
  if (s.ctx c).ccb.rplB then s.modCtx c fun x => { x with log := x.log.setProducer v.toNat } else s
def execLogRingConsumerWrite (ctx : Nat) (v : DWord) (s : State) : Host.Outcome State Fault Refusal := .next (s.consumerWrite ctx v)
def execLogRingProducerWrite (ctx : Nat) (v : DWord) (s : State) : Host.Outcome State Fault Refusal := .next (s.producerWrite ctx v)

def Trace.word (t : Trace) (k : Nat) : DWord :=
  match k with
  | 0 => t.base
  | 1 => t.size
  | 2 => BitVec.ofNat 64 t.write
  | 3 => BitVec.ofNat 64 t.read
  | 4 => t.ctl
  | _ => BitVec.ofNat 64 t.lost
def Trace.put (t : Trace) (k : Nat) (x : DWord) : Trace :=
  match k with
  | 0 => { t with base := x }
  | 1 => { t with size := x }
  | 3 => { t with read := x.toNat }
  | _ => { t with ctl := x &&& 0xFFFF0F }

def Bin.word (b : Bin) (k : Nat) : DWord :=
  match k with
  | 0 => b.base
  | 1 => b.limit
  | 2 => b.ctl
  | k => BitVec.ofNat 64 (b.cnt.getD (k - 3) 0)
def noBin : Bin := ⟨0, 0, 0, [0, 0, 0, 0, 0]⟩
/-- LANE_BIN_CTL_WRITE: a write of CTL clears the counts. -/
def State.binWrite (s : State) (core bin k : Nat) (v : DWord) : State :=
  s.modCore core fun x =>
    let b := (find? x.bins bin).getD noBin
    let b := match k with
      | 0 => { b with base := v }
      | 1 => { b with limit := v }
      | _ => { b with ctl := v &&& 0xFFFF0001, cnt := [0, 0, 0, 0, 0] }
    { x with bins := sset noBin x.bins bin b }
def execLaneBinCtlWrite (core bin : Nat) (v : DWord) (s : State) : Host.Outcome State Fault Refusal :=
  .next (s.binWrite core bin 2 v)
/-- VF_BLOCK_WRITE: a write of a control-block word takes effect. -/
def execVfBlockWrite (vf k : Nat) (v : DWord) (s : State) : Host.Outcome State Fault Refusal :=
  .next (s.vfWrite vf ((s.vf vf).put k v 2))
def execMemoryEventPop (die : Nat) (s : State) : Host.Outcome State Fault Refusal := .next (s.popMem die)
def execTrapQueuePop (die : Nat) (s : State) : Host.Outcome State Fault Refusal := .next (s.popTrap die)

/-- A word of the record at the head of a queue; of an empty queue nothing is known. -/
def QRec.word (r : QRec) (k : Nat) : DWord := match k with | 0 => r.w0 | 1 => r.w1 | 2 => r.w2 | _ => r.w3
def headWord (n : Nat) (q : List QRec) (k : Nat) : DWord :=
  match q with
  | [] => Config.openRead n (303 + k)
  | r :: _ => r.word k

/-- The space, die and offset of a status index. -/
structure PsIdx where
  space : Nat
  die   : Nat
  off   : Nat
deriving DecidableEq, Repr, Inhabited
def psIdx (w : Nat) : PsIdx := ⟨w / 2 ^ 24 % 256, w / 2 ^ 21 % 8, w % 2 ^ 21⟩

/-- Whether an index is allocated for the issuer: the die field names its die but for the queues. -/
def State.psOk (s : State) (iid : Nat) (x : PsIdx) : Bool :=
  let i := s.inst iid
  let o := x.off
  (x.space == 0x03 || x.space == 0x04 || x.die == i.die iid) && (match x.space with
    | 0x00 => i.kind == .steward && (decide (o ≤ 5) || (decide (8 ≤ o) && decide (o ≤ 13)))
    | 0x01 => decide (o < 2048)
    | 0x02 => decide (o < 128)
    | 0x03 | 0x04 => decide (o ≤ 4)
    | 0x05 => decide (o ≤ 1)
    | 0x10 => decide (o < 2 ^ 19) && decide (o % 8 ≤ 5)
    | 0x11 => decide (o ≤ 5)
    | 0x12 => decide (o < 512 * Config.coresPerDie)
    | 0x13 => decide (o < 2 ^ 20)
    | 0x14 => decide (o < 2 ^ 19) && decide (o % 8 ≤ 2)
    | 0x15 => decide (o ≤ 3)
    | 0x16 => decide (o < 128) && decide (o % 8 ≤ 3)
    | _ => false)

/-- The value of an allocated index. -/
def State.psRead (s : State) (iid : Nat) (x : PsIdx) : DWord :=
  let d := x.die
  let o := x.off
  match x.space with
  | 0x00 => if 8 ≤ o then (s.steward iid).m.word (s.pendAt iid) (o - 8) else (s.steward iid).s.word (s.pendAt iid) o
  | 0x01 => s.claimWord d (o / 8) (o % 8)
  | 0x02 => (s.vf (o / 8)).word (o / 8) (o % 8)
  | 0x03 => if o = 4 then (if (s.die d).memq.isEmpty then 0 else 1) else headWord s.fresh (s.die d).memq o
  | 0x04 => if o = 4 then (match (s.die d).trapq with
      | [] => 0
      | r :: _ => BitVec.ofNat 64 (r.kind + 2 ^ 8 * r.core)) else headWord s.fresh (s.die d).trapq o
  | 0x05 => if o = 0 then BitVec.ofNat 64 (s.die d).world else (s.die d).walkerEntry
  | 0x10 => (s.ctx (o / 8)).log.word (s.ctx (o / 8)).ivlNo (o % 8)
  | 0x11 => (s.die d).trace.word o
  | 0x12 => ((find? (s.core (d * Config.coresPerDie + o / 512)).bins (o / 8 % 64)).getD noBin).word (o % 8)
  | 0x13 => BitVec.ofNat 64 (sget 0 (s.ctx (o / 16)).events (o % 16))
  | 0x14 => match o % 8 with
    | 0 => (s.ctx (o / 8)).stop0
    | 1 => (s.ctx (o / 8)).stop1
    | _ => (s.ctx (o / 8)).stop2
  | 0x15 => match o with
    | 0 => BitVec.ofNat 64 s.modId
    | 1 => BitVec.ofNat 64 (s.die d).hage
    | 2 => BitVec.ofNat 64 (s.die d).links
    | _ => BitVec.ofNat 64 (s.die d).unreach
  | _ => (s.vf (o / 8)).exportWord (o % 8)

/-- What a write of an index meets. -/
inductive PsWrite
  | done (s : State)
  | readOnly
  | privilege
deriving DecidableEq, Repr, Inhabited

/-- A write of an allocated index at a level (1 S, 2 M). -/
def State.psWrite (s : State) (iid level : Nat) (x : PsIdx) (v : DWord) : PsWrite :=
  let d := x.die
  let o := x.off
  match x.space with
  | 0x00 =>
    let k := s.steward iid
    if 8 ≤ o then (if level = 2 then .done (s.setSteward iid { k with m := k.m.put (o - 8) v }) else .privilege)
    else if o = 3 ∧ level = 2 then .readOnly
    else .done (s.setSteward iid { k with s := k.s.put o v })
  | 0x02 =>
    let f := s.vf (o / 8)
    if level < 2 && f.needsM (o % 8) v then .privilege else .done (s.vfWrite (o / 8) (f.put (o % 8) v level))
  | 0x03 => if o = 0 then .done (s.popMem d) else .readOnly
  | 0x04 => if o = 0 then .done (s.popTrap d) else .readOnly
  | 0x05 =>
    if level < 2 then .privilege
    else if o = 0 then
      let w := v.toNat % 256
      .done (if w = (s.die d).world ∨ (d = 0 ∧ w ≠ 0) then s else s.latchWorld d w iid)
    else .done (s.modDie d fun y => { y with walkerEntry := v })
  | 0x10 =>
    let c := o / 8
    (match o % 8 with
    | 0 => if (s.ctx c).ccb.rplB then .done (s.producerWrite c v) else .readOnly
    | 1 => if (s.ctx c).ccb.recB then .done (s.consumerWrite c v) else .readOnly
    | 5 => .done (s.modCtx c fun y => { y with log := { y.log with partner := v.toNat % 2 ^ 16, pvalid := v.getLsbD 16 } })
    | _ => .readOnly)
  | 0x11 => if o = 2 ∨ o = 5 then .readOnly else .done (s.modDie d fun y => { y with trace := y.trace.put o v })
  | 0x12 => if 3 ≤ o % 8 then .readOnly else .done (s.binWrite (d * Config.coresPerDie + o / 512) (o / 8 % 64) (o % 8) v)
  | 0x13 => .done (s.modCtx (o / 16) fun y => { y with events := sset 0 y.events (o % 16) v.toNat })
  | 0x14 => .done (s.modCtx (o / 8) fun y => match o % 8 with
    | 0 => { y with stop0 := v, armed := true }
    | 1 => { y with stop1 := v, armed := true }
    | _ => { y with stop2 := v, armed := true })
  | 0x15 =>
    (match o with
    | 1 => .done (s.modDie d fun y => { y with hage := v.toNat % 256 })
    | 3 => if v = 0 then .done (s.unreachClear d) else .readOnly
    | _ => .readOnly)
  | 0x16 =>
    let f := s.vf (o / 8)
    if f.world ≠ 0 ∧ level < 2 then .privilege else .done (s.writeExport (o / 8) (o % 8) v)
  | _ => .readOnly

/-- MOVPS: the one thread of a steward or walker reads an index at the nominal slot. -/
def execMovps (c : Ctl) (d : Nat) (b : BSrc) (s : State) : Host.Outcome State Fault Refusal :=
  inClause s fun is => s.issueIns is (.movps c d b) c [] fun s is =>
    let rs := s.runs is c
    let idx (r : Run) : PsIdx := psIdx (s.srcB is r .n32 b).toNat
    if rs.any fun r => !s.psOk is.iid (idx r) then .stay (s.trapAll is 10 0x3C9 0)
    else
      let ps := rs.flatMap fun r => s.dst is r true d (s.psRead is.iid (idx r))
      let (s, is) := s.fixedFlag is c 3
      .go (s.setIssue (is.record 3 ps))
def execMovpsW (c : Ctl) (a : VSrc) (b : BSrc) (s : State) : Host.Outcome State Fault Refusal :=
  inClause s fun is => s.issueIns is (.movpsW c a b) c [] fun s is =>
    let rs := s.runs is c
    let level := ((s.inst is.iid).th (lowest is.lanes).tid).level
    let go (s : State) : Did :=
      let (s, is) := s.fixedFlag is c 3
      .go (s.setIssue is)
    match rs with
    | [] => go s
    | r :: _ =>
      let x := psIdx (s.srcB is r .n32 b).toNat
      if !s.psOk is.iid x then .stay (s.trapAll is 10 0x3C9 0)
      else match s.psWrite is.iid level x (s.srcV is r true a) with
        | .done s => go s
        | .readOnly => .stay (s.trapAll is 10 0x3C9 0)
        | .privilege => .stay (s.trapThreads is [r.t.tid] 2 0x3C9 0 is.hdrAt 0x3C9)

/-! ### INTCTL (R308) -/

def execIntctlMask (c : Ctl) (b : BSrc) (s : State) :=
  flagged (.intctlMask c b) c noMore (partPer fun s is r => [s.srcB is r .n32 b]) noAfter s
def State.intmaskStep (s : State) (o : PendOp) (p : Part) : State :=
  let x := s.steward o.iid
  (if (s.inst o.iid).kind == .steward then s.setSteward o.iid { x with s := { x.s with mask := (p.arg 0).setWidth 16 } } else s).partDone
    o.id p.tid

def execIntctlWait (c : Ctl) (s : State) := flagged (.intctlWait c) c noMore (partPer fun _ _ _ => []) noAfter s
def State.intwaitStep (s : State) (o : PendOp) (p : Part) : State :=
  if (s.inst o.iid).kind == .steward && s.unmasked o.iid = 0 then s else s.partDone o.id p.tid

def execIntctlResume (c : Ctl) (a : VSrc) (act : BitVec 8) (s : State) :=
  flagged (.intctlResume c a act) c noMore
    (partPer fun s is r => [s.srcV is r false a, s.srcV is r false ⟨a.reg + 1, a.perm⟩, act.setWidth 64]) noAfter s

/-- What a resume does to a parked thread: nothing, a header to go on at, or an exit. -/
inductive ResumeDo
  | nothing
  | at_ (h : DWord)
  | exit
deriving DecidableEq, Repr, Inhabited
def resumeDo (g : SubGroup) (c : Option ParkCause) (act : Nat) : ResumeDo :=
  match c with
  | some (.mem 5 _) => .nothing
  | some (.mem _ _) => .at_ g.hdr
  | some (.trap _) => match act with
    | 0 => .at_ g.resume
    | 1 => .at_ g.hdr
    | _ => .exit
  | _ => .nothing

/-- The parked threads of a sub-group that a target's lane mask names: of the Guide whatever the mask. -/
def Inst.resumable (i : Inst) (g : SubGroup) (mask : Nat) : List (Nat × Thread) :=
  i.ths.filter fun p => p.2.parkedIn g.id && (g.hw == guideHw || mask / 2 ^ i.laneOf p.1 % 2 == 1)

/-- A resume of one sub-group of a resident instance. -/
def State.resumeOne (s : State) (iid : Nat) (g : SubGroup) (mask act : Nat) : State :=
  let ts := (s.inst iid).resumable g mask
  let does (p : Nat × Thread) : ResumeDo := resumeDo g (p.2.parkCause g.id) act
  let hs := ((ts.filterMap fun p => match does p with | .at_ h => some h | _ => none).eraseDups)
  let s := hs.foldl (fun s h => s.resumeSub iid g ((ts.filter fun p => does p == .at_ h).map (·.1)) h) s
  let out := ts.filter fun p => does p == .exit
  let s := (out.filter fun p => p.2.susp.isSome).foldl (fun s p =>
    s.modTh iid p.1 fun t => { t.unpark g.id g.hdr with dying := true }) s
  (s.exitThreads iid ((out.filter fun p => p.2.susp.isNone).map (·.1))).modInst iid Inst.reapSubs
/-- The same for a saved instance: it is marked in the saved state, and takes effect after CTXLOAD. -/
def Inst.resumeSaved (i : Inst) (g : SubGroup) (mask act : Nat) : Inst :=
  let i := { i with subs := i.subs.map fun (x : SubGroup) => if x.id == g.id then { x with flags := [] } else x }
  ((i.resumable g mask).foldl (fun i p => match resumeDo g (p.2.parkCause g.id) act with
    | .nothing => i
    | .at_ h => i.modTh p.1 fun t => t.unpark g.id h
    | .exit => i.modTh p.1 fun t => { t.unpark g.id g.hdr with dying := true }) i).reapSubs

/-- INTCTL.resume. -/
def State.intctlResume (s : State) (target mask act : Nat) : State :=
  let core := target % 8 * Config.coresPerDie + target / 8 % 128
  let hw := target / 2 ^ 10 % 64
  let ctx := target / 2 ^ 16 % 2 ^ 16
  let mine (i : Inst) : Bool := i.kind == .stage && i.core == core && i.ctx == ctx
  let s := (s.insts.filter fun x => mine x.2).foldl (fun s x =>
    (x.2.subs.filter fun (g : SubGroup) => g.hw == hw).foldl (fun s g => s.resumeOne x.1 g mask act) s) s
  { s with saved := s.saved.map fun (v : Saved) =>
      if mine v.inst then
        { v with inst := (v.inst.subs.filter fun (g : SubGroup) => g.hw == hw).foldl (fun i g => i.resumeSaved g mask act) v.inst }
      else v }
def State.resumeStep (s : State) (o : PendOp) (p : Part) : State :=
  (s.intctlResume (p.arg 0).toNat (p.arg 1).toNat (p.arg 2).toNat).partDone o.id p.tid

def execIntctlRespg (c : Ctl) (a : VSrc) (b : BSrc) (s : State) :=
  flagged (.intctlRespg c a b) c noMore (partPer fun s is r => [s.srcV is r true a, s.srcB is r .n32 b &&& 0xFFFF]) noAfter s

/-- INTCTL.respg: held requests translate again, in arrival order; the threads that a Service has parked on the page go on. -/
def State.intctlRespg (s : State) (va asid : Nat) : State :=
  let page := va / 4096 * 4096
  let own (c : Nat) : Bool := (s.ctx c).ccb.asid == asid || (s.ctx c).ccb.sasid == asid
  let held := s.wants.filter fun (w : Want) => w.st == .service && w.page == page && own w.ctx
  let s : State := { s with
    wants := s.wants.map fun (w : Want) => if w.st == .service && w.page == page && own w.ctx then { w with st := .missed } else w
    resumed := s.resumed.filter (fun (r : Asker × Nat) => held.all fun w => w.who != r.1) ++ held.map fun w => (w.who, page) }
  let on (i : Inst) (g : SubGroup) : Bool := g.va.toNat / 4096 * 4096 == page && i.ths.any fun t =>
    match t.2.parkCause g.id with
    | some (.mem 6 _) => true
    | _ => false
  let s := (s.insts.filter fun x => x.2.kind == .stage && own x.2.ctx).foldl (fun s x =>
    (x.2.subs.filter (on x.2)).foldl (fun s g => s.resumeOne x.1 g (2 ^ 32 - 1) 0) s) s
  { s with saved := s.saved.map fun (v : Saved) =>
      if own v.inst.ctx then
        { v with inst := (v.inst.subs.filter (on v.inst)).foldl (fun i g => i.resumeSaved g (2 ^ 32 - 1) 0) v.inst }
      else v }
def State.respgStep (s : State) (o : PendOp) (p : Part) : State :=
  (s.intctlRespg (p.arg 0).toNat (p.arg 1).toNat).partDone o.id p.tid

/-! ### Counting and tracing instructions (R313) -/

/-- TRMARK: the tag joins the control-flow trace; R326 gives it no kind. -/
def execTrmark (c : Ctl) (b : BSrc) (s : State) : Host.Outcome State Fault Refusal :=
  inClause s fun is => s.issueIns is (.trmark c b) c [] fun s is =>
    let ts := (s.runs is c).map fun r => ((s.srcB is r .n32 b &&& 0xFFFF), r.t.tid)
    let s := ((ts.map (·.1)).eraseDups).foldl (fun s x =>
      s.traceEvent is ((Config.openRead s.fresh 326).toNat % 256) ((ts.filter fun t => t.1 == x).map (·.2)) x) s
    let (s, is) := s.fixedFlag is c 3
    .go (s.setIssue is)

def execCntcapStart (c : Ctl) (n : Nat) (s : State) :=
  flagged (.cntcapStart c n) c noMore (partHw fun _ _ _ => []) (fun s is id =>
    (((s.op? id).map (·.parts)).getD []).foldl (fun s p => s.modHw is.iid ((s.inst is.iid).hwOf p.tid) fun w =>
      { w with counters := sput w.counters n ⟨true, 0, false⟩ }) s) s
/-- CNTCAP.stop: the count as it stands, with its pre-empted flag; the set closes. -/
def execCntcapStop (c : Ctl) (d n : Nat) (s : State) :=
  flagged (.cntcapStop c d n) c noMore (partPer fun s is r =>
    match find? ((s.inst is.iid).hw ((s.inst is.iid).hwOf r.t.tid)).counters n with
    | some x => [BitVec.ofNat 64 (if x.on then x.count % 2 ^ 63 + (if x.cut then 2 ^ 63 else 0) else 0)]
    | none => [0]) (fun s is id =>
    (((s.op? id).map (·.parts)).getD []).foldl (fun s p => s.modHw is.iid ((s.inst is.iid).hwOf p.tid) fun w =>
      { w with counters := sdel w.counters n }) s) s
def State.cntStopStep (s : State) (o : PendOp) (p : Part) (d : Nat) : State :=
  s.partWrites o.id p.tid (o.dst (s.inst o.iid) p.tid true d (p.arg 0)) 0

/-- SAMPLE: a record with the thread's work name and the tag (R322, R325). -/
def execSample (c : Ctl) (b : BSrc) (s : State) :=
  flagged (.sample c b) c noMore (partPer fun s is r => [s.srcB is r .n32 b]) (fun s is id =>
    let i := s.inst is.iid
    let d := i.die is.iid
    if !(s.die d).trace.ctl.getLsbD 0 then s
    else (((s.op? id).map (·.parts)).getD []).foldl (fun s p => s.traceQueue d i.core
      (bytesOf 1 1 ++ bytesOf 1 d ++ bytesOf 2 i.core ++ bytesOf 2 i.ctx ++ bytesOf 1 i.stage ++ bytesOf 1 0 ++ bytesOf 4 i.no ++
        bytesOf 4 (i.srTid p.tid) ++ bytesOf 6 (s.ctx i.ctx).ivlNo ++ bytesOf 6 (i.th p.tid).retired ++ bytesOf 4 (p.arg 0).toNat)) s) s

end Sys2Proof.Machine
end

