-- ==== Sys2Proof/Machine/Events.lean ====
section
/-!
DEFINITION. The rows of issue and completion: a clause starts (R45), spinning paths (R115, R116), flagged operations go
on and complete (R37), store faults (R128), deliveries at a boundary (R129, R131), and the end of a park on an absent
scratchpad line (R355).
-/
namespace Sys2Proof.Machine

def execClauseIssue (q : Seq) (iid : Nat) (tids : List Nat) (s : State) : Host.Outcome State Fault Refusal :=
  .next (s.clauseIssue q iid tids)

/-! ### Spinning paths -/

/-- SPIN_DEMOTION: eight equal iterations of one target header make a spinning path, which is demoted. -/
def execSpinDemotion (iid warp : Nat) (s : State) : Host.Outcome State Fault Refusal :=
  .next (match (s.inst iid).warps.find? fun (w : Warp) => w.id == warp with
    | none => s
    | some w =>
      if !w.demoted && w.spins.any fun (p : Spin) => decide (Config.spinLimit ≤ p.run) then
        match s.gateWarp iid w 2 with
        | (true, s) => s.modWarp iid warp fun w => { w with demoted := true, sibs := 0 }
        | (false, s) => s
      else s)

/-- DEMOTION_END: the demoted paths of a home warp whose demotion is over become Ready again. -/
def execDemotionEnd (iid hw : Nat) (s : State) : Host.Outcome State Fault Refusal :=
  let i := s.inst iid
  let ws := i.warps.filter fun (w : Warp) => w.demoted && w.tids.any (fun t => i.hwOf t == hw) && i.demotionOver w
  .next (ws.foldl (fun s w => match s.gateWarp iid w 4 with
    | (true, s) => s.modWarp iid w.id Warp.promote
    | (false, s) => s) s)

/-! ### Flagged operations -/

/-- The next action of a part of an operation in flight. Operations without an arm of their own are complete: all they
do, they did at issue. A flow and a pass end by events of their own. -/
def State.partStep (s : State) (o : PendOp) (p : Part) : State :=
  match o.ins with
  | .idiv _ m x | .irem _ m x => s.computeDone o p m.ty.wide x.d
  | .fdiv _ _ x => s.computeDone o p false x.d
  | .fsqrt _ _ x | .frcp _ _ x | .frsq _ _ x | .fexp2 _ _ x | .flog2 _ _ x | .fsin _ _ x | .fcos _ _ x | .ftanh _ _ x
  | .hexp2 _ _ x | .hrcp _ _ x => s.computeDone o p false x.d
  | .ld .. | .ldm .. => s.loadStep o p
  | .st .. | .stm .. => s.storeStep o p
  | .lds _ ty x => s.ldsStep o p ty x.d
  | .sts _ ty _ => s.stsStep o p ty
  | .ldt _ w x => s.ldtStep o p w x.d
  | .pref .. => s.prefStep o p
  | .drainst .. => s.drainstStep o p
  | .sfqpop _ pp d => s.sfqpopStep o p pp d
  | .atom .. | .atomcas .. | .red .. => s.atomStep o p
  | .atoms .. | .atomscas .. => s.atomsStep o p
  | .fence .. | .rel .. | .acq .. => s.orderStep o p
  | .join _ pd _ => s.joinStep o p pd
  | .leave _ pd _ => s.leaveStep o p pd
  | .bar .. | .elect .. | .gred .. | .gbcast .. => s.groupStep o p
  | .electRel .. => s.electRelStep o p
  | .genTake _ d => s.takeStep o p d
  | .reggrow _ _ pd _ => s.growStep o p pd
  | .dqpush .. => s.dqpushStep o p
  | .dqpop _ d => s.dqpopStep o p d
  | .sqpush _ _ q => s.sqpushStep o p q
  | .sqpop _ pp d _ => s.sqpopStep o p pp d
  | .mma .. | .mmaj .. | .flowReg .. | .flowImm .. => s
  | .mrdy _ fa fb shape => s.mrdyStep o fa fb shape
  | .mwait _ t => s.mwaitStep o (some t)
  | .mwaitAll _ => s.mwaitStep o none
  | .mld _ f => s.mldStep o p f
  | .mst _ f => s.mstStep o p f
  | .mclr _ w t => s.mclrStep o p w t
  | .mswap _ t u => s.mswapStep o p t u
  | .mstat _ d t => s.mstatStep o p d t
  | .claimNew .. | .claimUse .. | .clrel .. => s.claimStep o p
  | .flwait .. => s.flwaitStep o p
  | .clrevokePg .. | .clrevokeK .. => s.clrevokeStep o p
  | .hdrain .. => s.hdrainStep o p
  | .mcast _ n _ _ _ => s.mcastStep o p n
  | .fred _ bf op x => s.fredStep o p bf op x.d
  | .cregOpen _ _ pd _ _ => s.cregOpenStep o p pd
  | .pairOpen _ pd _ _ _ => s.pairOpenStep o p pd
  | .cregClose .. | .pairClose .. => s.closeStep o p
  | .prepair .. => s.prepairStep o p
  | .presume .. => s.presumeStep o p false
  | .presumeFail .. => s.presumeStep o p true
  | .cntcapStop _ d _ => s.cntStopStep o p d
  | .launch _ x => s.launchStep o p x.d
  | .tlbfill _ pd _ lvl => s.tlbfillStep o p pd lvl
  | .tlbinvPg .. | .tlbinvAsid .. | .tlbinvAll .. => s.tlbinvStep o p
  | .cinvPg .. | .cinvAsid .. | .cinvAll .. => s.cinvStep o p
  | .ckptIvl _ d _ => s.ckptIvlStep o p d
  | .ckptMem _ d => s.ckptMemStep o p d
  | .ckptMemrst _ d => s.ckptRstStep o p d
  | .recctlOff _ d _ => s.recOffStep o p d
  | .recctlRec _ d _ => s.recRecStep o p d
  | .recctlRpl _ d _ => s.recRplStep o p d
  | .intctlMask .. => s.intmaskStep o p
  | .intctlWait .. => s.intwaitStep o p
  | .intctlResume .. => s.resumeStep o p
  | .intctlRespg .. => s.respgStep o p
  | .ctxsaveInst _ x | .ctxsaveCtx _ x => s.ctxsaveStep o p x.d
  | .ctxsaveEnd _ x => s.ctxendStep o p x.d
  | .ctxload _ x | .ctxloadCtx _ x => s.ctxloadStep o p x.d
  | _ => s.partDone o.id p.tid

/-- FLAG_COMPLETION: an operation in flight takes the next action of one of its parts; with a home warp's last part its
flag is decremented. -/
def execFlagCompletion (op tid : Nat) (s : State) : Host.Outcome State Fault Refusal :=
  .next (match s.op? op with
    | none => s
    | some o => match o.part? tid with
      | none => s
      | some p => s.partStep o p)

/-- FALSE_GUARD_COMPLETION: a home warp whose threads all had false guards or were inactive completes without effect. -/
def execFalseGuardCompletion (op hw : Nat) (s : State) : Host.Outcome State Fault Refusal :=
  .next (match s.op? op with
    | none => s
    | some o =>
      if o.shares.any fun (x : Share) => x.hw == hw && x.left.isEmpty then (s.closeShare o hw).reapOps else s)

/-- Whether an instruction writes memory, the scratchpad or a peer, so that a check of it can fail after issue. -/
def storing (ins : Instr) : Bool :=
  match accKind ins with
  | some .store | some .atomic => true
  | _ => match ins with
    | .mst .. => true
    | _ => false

/-- STORE_FAULT: the access that a part makes next fails its checks: a record joins the core's queue. A part whose access
does not fail is not touched. -/
def execStoreFault (op tid : Nat) (s : State) : Host.Outcome State Fault Refusal :=
  .next (match s.op? op with
    | none => s
    | some o => match o.part? tid with
      | none => s
      | some p =>
        if !storing o.ins then s
        else
          let k := (s.inst o.iid).core
          let t := s.partStep o p
          let n (s : State) : Nat := (s.core k).sfSeq + (s.core k).sfWait.length + (s.ops.map fun (o : PendOp) => o.sf.length).sum
          if n t = n s then s else t)

/-! ### At a boundary -/

/-- STAGE_HANDLER_DELIVERY: the threads of a home warp that stand at a clause boundary take what waits for them; a walker
with a trap ends its walk (R266). -/
def execStageHandlerDelivery (iid hw : Nat) (s : State) : Host.Outcome State Fault Refusal :=
  .next (if (s.inst iid).kind == .walker then
      if (s.inst iid).ths.any fun p => !p.2.pend.isEmpty || p.2.sfPend != 0 then s.walkerTrap iid else s
    else s.deliverHw iid hw)

/-- A thread of a sub-group whose lines are there is Ready inside its clause again; behind a Consume at the return. -/
def Thread.unline (t : Thread) (sub : Nat) : Thread :=
  if t.sub == sub && t.status == .parked .line then { t with status := .ready }
  else match t.susp with
    | some u => if u.sub == sub && u.status == .parked .line then { t with susp := some { u with status := .ready } } else t
    | none => t

/-- SPAD_PARK_RESUME: when every line of its instruction is present the sub-group resumes at it. The instruction issues
again and names its flag again. -/
def execSpadParkResume (iid sub : Nat) (s : State) : Host.Outcome State Fault Refusal :=
  let i := s.inst iid
  .next (match i.subs.find? fun (g : SubGroup) => g.id == sub && g.cont.isSome with
    | none => s
    | some g =>
      if g.lines.any fun l => (s.core i.core).absent.contains l then s
      else s.modInst iid fun i =>
        { i with subs := i.subs.map (fun (x : SubGroup) => if x.id == sub then { x with flags := [], lines := [] } else x)
                 ths := i.ths.map fun p => (p.1, p.2.unline sub) })

end Sys2Proof.Machine
end

