-- ==== Sys2Proof/Machine/Logic.lean ====
section
/-! DEFINITION. Group 0x1, logic and bit fields (R88 to R91). -/
namespace Sys2Proof.Machine

/-- The low w bits of a value, w being 32 or 64 by type. -/
def logicBits (ty : Ty) (x : DWord) : DWord := if ty.wide then x else lo32 x
def logicWidth (ty : Ty) : Nat := if ty.wide then 64 else 32

def logUn (ins : Instr) (c : Ctl) (ty : Ty) (wd : Bool) (o : O1) (f : DWord → DWord) (s : State) :=
  pureFixed ins c 3 (fun s is r => s.dst is r wd o.d (logicBits ty (f (s.srcV is r ty.wide o.a)))) s
def logBin (ins : Instr) (c : Ctl) (ty : Ty) (o : O2) (f : DWord → DWord → DWord) (s : State) :=
  pureFixed ins c 3 (fun s is r =>
    s.dst is r ty.wide o.d (logicBits ty (f (s.srcV is r ty.wide o.a) (s.srcB is r ty o.b)))) s
/-- A shift: the amount is one unsigned 32-bit operand. -/
def logShift (ins : Instr) (c : Ctl) (ty : Ty) (o : O2) (f : DWord → Nat → DWord) (s : State) :=
  pureFixed ins c 3 (fun s is r =>
    s.dst is r ty.wide o.d (logicBits ty (f (s.srcV is r ty.wide o.a) (s.srcB is r .b32 o.b).toNat))) s
def logTer (ins : Instr) (c : Ctl) (ty : Ty) (o : O3) (f : DWord → DWord → DWord → DWord) (s : State) :=
  pureFixed ins c 3 (fun s is r =>
    s.dst is r ty.wide o.d
      (logicBits ty (f (s.srcV is r ty.wide o.a) (s.srcB is r ty o.b) (s.srcV is r ty.wide o.c)))) s

def execAnd (c : Ctl) (ty : Ty) (o : O2) (s : State) := logBin (.and c ty o) c ty o (fun a b => a &&& b) s
def execOr (c : Ctl) (ty : Ty) (o : O2) (s : State) := logBin (.or c ty o) c ty o (fun a b => a ||| b) s
def execXor (c : Ctl) (ty : Ty) (o : O2) (s : State) := logBin (.xor c ty o) c ty o (fun a b => a ^^^ b) s
def execNot (c : Ctl) (ty : Ty) (o : O1) (s : State) := logUn (.not c ty o) c ty ty.wide o (fun a => ~~~a) s
def execAndn (c : Ctl) (ty : Ty) (o : O2) (s : State) := logBin (.andn c ty o) c ty o (fun a b => a &&& ~~~b) s

/-- LOGIC3 (R89): bit i of the result is the table's bit 4a + 2b + c. -/
def logic3 (tbl : BitVec 8) (a b c : DWord) : DWord :=
  (List.range 8).foldl (fun acc k =>
    if tbl.getLsbD k then
      acc ||| ((if k / 4 % 2 = 1 then a else ~~~a) &&& (if k / 2 % 2 = 1 then b else ~~~b) &&&
        (if k % 2 = 1 then c else ~~~c))
    else acc) 0
def execLogic3 (c : Ctl) (ty : Ty) (o : O3) (tbl : BitVec 8) (s : State) :=
  logTer (.logic3 c ty o tbl) c ty o (logic3 tbl) s

/-- Shifts by an amount that may reach or pass the width (R88). -/
def shiftL (w : Nat) (x : DWord) (n : Nat) : DWord := if w ≤ n then 0 else x <<< n
def shiftR (w : Nat) (x : DWord) (n : Nat) : DWord := if w ≤ n then 0 else x >>> n
def shiftA (w : Nat) (x : DWord) (n : Nat) : DWord :=
  let y : DWord := if w = 64 then x else (x.setWidth 32).signExtend 64
  y.sshiftRight (min n 63)
def rotL (w : Nat) (x : DWord) (n : Nat) : DWord :=
  if w = 64 then x.rotateLeft (n % 64) else ((x.setWidth 32).rotateLeft (n % 32)).setWidth 64
def rotR (w : Nat) (x : DWord) (n : Nat) : DWord :=
  if w = 64 then x.rotateRight (n % 64) else ((x.setWidth 32).rotateRight (n % 32)).setWidth 64

def execShl (c : Ctl) (ty : Ty) (o : O2) (s : State) := logShift (.shl c ty o) c ty o (shiftL (logicWidth ty)) s
def execShr (c : Ctl) (ty : Ty) (o : O2) (s : State) := logShift (.shr c ty o) c ty o (shiftR (logicWidth ty)) s
def execSar (c : Ctl) (ty : Ty) (o : O2) (s : State) := logShift (.sar c ty o) c ty o (shiftA (logicWidth ty)) s
def execRotl (c : Ctl) (ty : Ty) (o : O2) (s : State) := logShift (.rotl c ty o) c ty o (rotL (logicWidth ty)) s
def execRotr (c : Ctl) (ty : Ty) (o : O2) (s : State) := logShift (.rotr c ty o) c ty o (rotR (logicWidth ty)) s

/-- SHF (R90): the funnel shift of C:A. -/
def funnel (right : Bool) (a b c : DWord) : DWord :=
  let n := min (b.toNat % 2 ^ 32) 32
  let x := pairOf a c
  if right then lo32 (x >>> n) else (x <<< n) >>> 32
def execShf (c : Ctl) (r : Bool) (o : O3) (s : State) := logTer (.shf c r o) c .b32 o (funnel r) s

/-- Counting (R88). -/
def popCount (w : Nat) (x : DWord) : DWord := BitVec.ofNat 64 ((List.range w).filter fun k => x.getLsbD k).length
def leadZeros (w : Nat) (x : DWord) : DWord :=
  BitVec.ofNat 64 (((List.range w).find? fun k => x.getLsbD (w - 1 - k)).getD w)
def trailZeros (w : Nat) (x : DWord) : DWord := BitVec.ofNat 64 (((List.range w).find? fun k => x.getLsbD k).getD w)
def bitReverse (w : Nat) (x : DWord) : DWord :=
  (List.range w).foldl (fun acc k => if x.getLsbD k then acc ||| BitVec.twoPow 64 (w - 1 - k) else acc) 0

def execPopc (c : Ctl) (ty : Ty) (o : O1) (s : State) := logUn (.popc c ty o) c ty false o (popCount (logicWidth ty)) s
def execClz (c : Ctl) (ty : Ty) (o : O1) (s : State) := logUn (.clz c ty o) c ty false o (leadZeros (logicWidth ty)) s
def execCtz (c : Ctl) (ty : Ty) (o : O1) (s : State) := logUn (.ctz c ty o) c ty false o (trailZeros (logicWidth ty)) s
def execBrev (c : Ctl) (ty : Ty) (o : O1) (s : State) :=
  logUn (.brev c ty o) c ty ty.wide o (bitReverse (logicWidth ty)) s

/-- Position and length of a bit field (R90). -/
def fieldPos (x : Nat) : Nat := if 31 < x then 32 else x
def bfExtract (signed : Bool) (a b c : DWord) : DWord :=
  let pos := fieldPos (b.toNat % 256)
  let len := min (c.toNat % 256) (32 - pos)
  let f := lo32 a >>> pos &&& BitVec.ofNat 64 (2 ^ len - 1)
  if signed && decide (0 < len) && f.getLsbD (len - 1) then lo32 (f ||| ~~~(BitVec.ofNat 64 (2 ^ len - 1))) else f
def bfInsert (a b c : DWord) : DWord :=
  let pos := fieldPos (b.toNat % 256)
  let len := min (b.toNat / 256 % 256) (32 - pos)
  let m : DWord := BitVec.ofNat 64 (2 ^ len - 1) <<< pos
  lo32 ((c &&& ~~~m) ||| ((a <<< pos) &&& m))
def execBfx (c : Ctl) (ty : Ty) (o : O3) (s : State) := logTer (.bfx c ty o) c ty o (bfExtract ty.signed) s
def execBfi (c : Ctl) (o : O3) (s : State) := logTer (.bfi c o) c .b32 o bfInsert s

/-- BPERM (R91). -/
def bpermByte (a : DWord) (v : Nat) : Nat :=
  if v < 4 then elemAt 8 a v
  else if v < 8 then (if 128 ≤ elemAt 8 a (v - 4) then 0xFF else 0)
  else 0
def bytePermute (a b : DWord) : DWord :=
  BitVec.ofNat 64 (joinElems 8 ((List.range 4).map fun i => bpermByte a (elemAt 4 b i)))
def execBperm (c : Ctl) (o : O2) (s : State) := logBin (.bperm c o) c .b32 o bytePermute s

end Sys2Proof.Machine
end

