-- ==== Sys2Proof/Machine/Migration.lean ====
section
/-! DEFINITION. Migration of a page between the tiers behind its controller (R215). -/
namespace Sys2Proof.Machine

/-- Whether two addresses lie in one page. -/
def samePage (big : Bool) (a b : Nat) : Bool := if big then a / 2 ^ 21 == b / 2 ^ 21 else a / 2 ^ 12 == b / 2 ^ 12
def State.mig? (s : State) (ctrl asid va : Nat) : Option Mig :=
  s.migs.find? fun (m : Mig) => m.ctrl == ctrl && m.asid == asid && samePage m.big m.page va
def State.modMig (s : State) (m : Mig) (f : Mig → Mig) : State :=
  { s with migs := s.migs.map fun (x : Mig) => if x.ctrl == m.ctrl && x.asid == m.asid && x.page == m.page then f x else x }
/-- The controller's TLB entries for the page of a migration. -/
def migLeaf (ctrl asid va : Nat) (p : Nat × Leaf) : Bool := tlbCtrl p.1 == ctrl && tlbHit 0 asid va p
def State.modLeaves (s : State) (ctrl asid va : Nat) (f : Leaf → Leaf) : State :=
  { s with tlb := s.tlb.map fun p => if migLeaf ctrl asid va p then (p.1, f p.2) else p }

/-- MIGRATION_REQUEST: steps 1 and 2 begin. The page's entry is pinned and marked, and every claim on the page is revoked with
cause 2, those that other modules hold too. Of a page whose leaf no TLB entry of the controller holds nothing is pinned, and the request
has no effect: the model's choice (log entry 86). -/
def State.migRequest (s : State) (ctrl asid va : Nat) (big far : Bool) (frame : Nat) : State :=
  let page := if big then va / 2 ^ 21 * 2 ^ 21 else va / 2 ^ 12 * 2 ^ 12
  if (s.mig? ctrl asid va).isSome || !(s.tlb.any fun p => migLeaf ctrl asid va p && p.2.big == big && !p.2.win) then s
  else
    let s := s.modLeaves ctrl asid va fun l => { l with pin := true, mig := true }
    let (agent, s) := s.newId
    let s := (s.revokeWhere (fun c => c.pages.any fun (p : ClaimPg) => p.tag == asid && samePage big p.va page) 2).2
    let s := s.revokeGrants (fun p => p.tag == asid && samePage big p.va page) 2 agent
    { s with migs := s.migs ++ [{ ctrl, asid, page, big, far, frame, st := .draining, held := [] }] }
def execMigrationRequest (ctrl asid : Nat) (va : DWord) (big far : Bool) (frame : Nat) (s : State) :
    Host.Outcome State Fault Refusal :=
  .next (s.migRequest ctrl asid va.toNat big far frame)

/-- Whether no claim on the page is left whose flows could move. -/
def State.migDrained (s : State) (m : Mig) : Bool :=
  let on (ps : List ClaimPg) : Bool := ps.any fun (p : ClaimPg) => p.tag == m.asid && samePage m.big p.va m.page
  s.claimList.all (fun c => !((c.2.live || c.2.st == .revoking) && on c.2.pages)) &&
    s.dies.all fun d => d.2.grants.all fun r => !on r.2.pages

/-- The frame of a migrating page: its first local byte in each tier, and its length at this controller. -/
def State.migFrames (s : State) (m : Mig) : Option (Nat × Nat × Nat) :=
  (s.tlb.find? fun p => migLeaf m.ctrl m.asid m.page p).map fun p =>
    let k := ((s.ctxs.find? fun c => c.2.ccb.asid == m.asid || c.2.ccb.sasid == m.asid).map (·.2.ccb.ik)).getD 0
    (mkPa m.ctrl p.2.far (p.2.frame * 4096), mkPa m.ctrl m.far (m.frame * 4096), if m.big then 2 ^ 21 / 2 ^ k else 4096)

/-- The copy of one sector (R215, R221): in a sealed world under the destination's address, the source's major plus one and minor 0; its
poison goes with it. A wrong tag is found as by any other fill. The copy writes no context's memory, and no interval logs it. -/
def State.migSector (s : State) (src dst major : Nat) : State :=
  let (bad, s) := s.fillPoison src
  let plain := s.readSector src
  let s := if s.plainAt dst then s.setBytes dst plain
    else ((s.setBytes dst (s.crypt dst (major + 1) 0 plain)).setCtr dst (major + 1) 0).retag dst
  s.setPoison dst bad
/-- MIGRATION_COPY: step 3, once step 2 is complete. -/
def State.migCopy (s : State) (ctrl asid va : Nat) : State :=
  match s.mig? ctrl asid va with
  | none => s
  | some m => match s.migFrames m with
    | none => s
    | some (src, dst, n) =>
      if m.st != .draining || !s.migDrained m then s
      else
        let s := (List.range (n / 32)).foldl (fun s k => s.migSector (src + 32 * k) (dst + 32 * k) (s.major (src + 32 * k))) s
        s.modMig m fun x => { x with st := .copied }
def execMigrationCopy (ctrl asid : Nat) (va : DWord) (s : State) : Host.Outcome State Fault Refusal :=
  .next (s.migCopy ctrl asid va.toNat)

/-- A physical address in one frame, in the other. -/
def moveFrame (src dst n pa : Nat) : Nat := if src ≤ pa ∧ pa < src + n then dst + (pa - src) else pa

/-- What caches, writes in flight and undo logs hold of a frame now belongs to the other. In a sealed world their bytes stand under the
counters of the copy, a dirty sector's under the next minor (log entry 22). -/
def State.remap (s : State) (src dst n : Nat) : State :=
  let f := moveFrame src dst n
  let hit (pa : Nat) : Bool := f pa != pa && !s.plainAt pa
  let conv (pa major minor : Nat) (dirty : Bool) (data : List Byte) : List Byte × Nat × Nat :=
    if hit pa then
      let m := if dirty then 1 else 0
      (s.crypt (f pa) (s.major (f pa)) m (s.crypt pa major minor data), s.major (f pa), m)
    else (data, major, minor)
  let l1 (x : L1Sec) : L1Sec :=
    let y := conv x.pa x.major x.minor (x.dirty != 0) x.data
    { x with pa := f x.pa, data := y.1, major := y.2.1, minor := y.2.2 }
  let l2 (x : L2Sec) : L2Sec :=
    let y := conv x.pa x.major x.minor (x.dirty != 0) x.data
    { x with pa := f x.pa, data := y.1, major := y.2.1, minor := y.2.2 }
  let msg (m : D2d) : D2d :=
    let y := conv m.pa m.major m.minor true m.data
    { m with pa := f m.pa, data := y.1, major := y.2.1, minor := y.2.2 }
  let held (x : Held) : Held := match x with
    | .store m => .store (msg m)
    | x => x
  { s with
    insts := s.insts.map fun p => (p.1, { p.2 with l1 := p.2.l1.map fun e => (e.1, l1 e.2) })
    cores := s.cores.map fun p => (p.1, { p.2 with icache := p.2.icache.map fun e => (e.1, l1 e.2) })
    dies := s.dies.map fun p => (p.1, { p.2 with l2 := p.2.l2.map fun e => (e.1, l2 e.2) })
    ctxs := s.ctxs.map fun p => (p.1, { p.2 with undo := p.2.undo.map fun (u : UndoRec) => { u with pa := f u.pa } })
    mapped := s.mapped.map fun (m : Mapped) => { m with pa := f m.pa }
    d2d := s.d2d.map msg
    migs := s.migs.map fun (m : Mig) => { m with held := m.held.map held } }

/-- The held requests are applied in arrival order, up to one that has still to wait; while they are, the hold does not meet
them. -/
def State.applyHeld (s : State) (m : Mig) : List Held → Bool × State
  | [] => (true, s)
  | x :: r =>
    let t := s.modMig m fun y => { y with st := .done }
    let again (ok : Bool) (t : State) : Bool × State :=
      (ok, t.modMig m fun y => { y with st := .copied, held := if ok then r else x :: r })
    let res : Bool × State := match x with
      | .op id tid => match t.op? id with
        | none => (true, t)
        | some o => match o.part? tid with
          | none => (true, t)
          | some p => match o.ins with
            | .prepair .. =>
              let t := t.prepairStep o p
              (!((t.op? id).elim false fun o => (o.part? tid).isSome), t)
            | _ => t.atomPerform o p
      | .served id => match t.served.find? fun (v : Served) => v.id == id with
        | none => (true, t)
        | some v =>
          let t := t.serve v
          (!(t.served.any fun (y : Served) => y.id == id), t)
      | .store d => t.arriveL2 d
    match again res.1 res.2 with
    | (true, t) => t.applyHeld m r
    | (false, t) => (false, t)

/-- MIGRATION_COMPLETE: step 4, then event 4 to the supervisor. -/
def State.migComplete (s : State) (ctrl asid va : Nat) : State :=
  match s.mig? ctrl asid va with
  | none => s
  | some m => match s.migFrames m with
    | none => s
    | some (src, dst, n) =>
      if m.st != .copied then s
      else
        let s := (s.remap src dst n).modLeaves ctrl asid va fun l => { l with frame := m.frame, far := m.far }
        let (ok, s) := s.applyHeld m ((s.mig? ctrl asid va).elim [] (·.held))
        if ok then (s.modMig m fun x => { x with st := .done, held := [] }).pushEvent (ctrl / 8) 4 0 0xFFFF ctrl m.page
        else s
def execMigrationComplete (ctrl asid : Nat) (va : DWord) (s : State) : Host.Outcome State Fault Refusal :=
  .next (s.migComplete ctrl asid va.toNat)

/-- MIGRATION_ACK: step 5. The entry is unpinned, and goes where a TLBINV has named it meanwhile (R309). -/
def State.migAck (s : State) (ctrl asid va : Nat) : State :=
  match s.mig? ctrl asid va with
  | none => s
  | some m =>
    if m.st != .done then s
    else
      let tlb := (s.tlb.filter fun p => !(migLeaf ctrl asid va p && p.2.gone)).map fun p =>
        if migLeaf ctrl asid va p then (p.1, { p.2 with pin := false, mig := false }) else p
      { s with tlb, migs := s.migs.filter fun (x : Mig) => x != m }
def execMigrationAck (ctrl asid : Nat) (va : DWord) (s : State) : Host.Outcome State Fault Refusal :=
  .next (s.migAck ctrl asid va.toNat)

end Sys2Proof.Machine
end

