-- ==== Sys2Proof/Machine/Monitor.lean ====
section
/-!
DEFINITION. The monitor (R216, R287 to R295, R298, R299, R307): its services, boot, activation and attestation; and the package's
own events (R296, R297, R300).
-/
namespace Sys2Proof.Machine

/-! ### Callers (R307) -/

/-- A caller of a function that waits for the monitor: a steward's thread that has entered M with cause 4, or a parked thread. -/
def State.caller (s : State) (who : Caller) (fn : Nat) : Option (Nat × Nat) :=
  match who with
  | .steward d n =>
    let k := stewardId d n
    let r := (s.steward k).m
    if decide (d < Config.dies) && decide (n < Config.stewardsPerDie) && ((s.inst k).th 0).level == 2 && !s.issuing k 0 &&
        r.ecause.toNat % 256 == 4 && r.ecause.toNat / 2 ^ 32 == fn && !r.ie && ((s.inst k).th 0).pc == r.vec + 8 then some (k, 0) else none
  | .thread iid tid =>
    match s.inst? iid with
    | none => none
    | some i => if i.kind == .stage && (i.th tid).status == .parked (.monitor fn) then some (iid, tid) else none

/-- A caller's registers. -/
def State.argW (s : State) (c : Nat × Nat) (k : Nat) : Nat := (s.readLoc c.1 (.v c.2 k)).toNat
def State.argP (s : State) (c : Nat × Nat) (k : Nat) : Nat := s.argW c k + 2 ^ 32 * s.argW c (k + 1)

/-- The answer: v0, and v1 where the function gives one; then a steward's thread returns with ERET, a parked one resumes at the next
clause. -/
def State.reply (s : State) (who : Caller) (c : Nat × Nat) (v0 : Nat) (v1 : Option DWord) : State :=
  let s := s.mcallOut c.1 c.2 v0 v1
  match who with
  | .steward .. =>
    let x := s.steward c.1
    let back := if x.m.epriv.toNat % 4 = 2 then 2 else 1
    (s.setSteward c.1 (x.setRegs 2 { x.m with ie := true })).modTh c.1 0 fun t => { t with pc := x.m.epc + 8, level := back }
  | .thread .. =>
    match (s.inst c.1).subs.find? fun (g : SubGroup) => g.id == ((s.inst c.1).th c.2).sub with
    | none => s
    | some g => (s.resumeSub c.1 g [c.2] g.resume).modInst c.1 Inst.reapSubs

/-- A service: at U only REPORT is allowed; a service that waits keeps its caller waiting. -/
def service (fn : Nat) (who : Caller) (body : State → Nat × Nat → State) (s : State) : Host.Outcome State Fault Refusal :=
  .next (match s.caller who fn with
    | none => s
    | some c => match who with
      | .thread .. => if fn = 3 then body s c else s.reply who c 2 none
      | .steward .. => body s c)

/-- The monitor's own reads and writes for a caller. -/
def State.monReq (s : State) (c : Nat × Nat) (kind : Nat) : Req := { s.req c.1 c.2 kind with priv := if (s.inst c.1).kind == .stage then 0 else 1 }
def monWho (c : Nat × Nat) : Asker := .monitor (c.1 * 65536 + c.2)

/-! ### The copy of a sealed context's control block (R278) -/

/-- The dies of a world. -/
def State.worldDies (s : State) (w : Nat) : List Nat := (List.range Config.dies).filter fun d => (s.die d).world == w

/-- The monitor copies a sealed context's block at the first MCALL that names it, and again at LOAD; an invalid block is not copied. -/
def State.monCopy (s : State) (c : Nat) (again : Bool) : Bool × State :=
  if s.monitorHas c && !again then (true, s)
  else
    let b := s.ccbBytes c
    let x := ccbOf b
    if s.ccbOk b && x.world != 0 && !(s.worldDies x.world).isEmpty then
      (true, ({ s with monitor := { s.monitor with blocks := sput s.monitor.blocks c b } } : State).modCtx
        c fun y => { y with ccb := x, known := true })
    else (false, s)

/-! ### MAP and UNMAP (R204, R205, R212, R288) -/

/-- A write of the monitor to a page table, after its sectors' old contents have been logged (R289). -/
def State.monPut (s : State) (pa : Nat) (bs : List Byte) : State :=
  ((sectorsOf pa bs.length).foldl (fun s p => s.undoAppend p.1 noVa) s).setPaBytes pa bs
/-- What the monitor has written, or the state in which it waits because an append has overflowed an undo area that holds something
already: the interval starts first (R289). -/
def State.undoFits (s t : State) : State ⊕ State :=
  let grown (c : Nat) : Nat := (t.ctx c).undo.length - (s.ctx c).undo.length
  let full := (skeys s.ctxs).filter fun c => grown c != 0 && !(s.ctx c).undo.isEmpty &&
    decide ((s.ctx c).ccb.undoSize < (t.ctx c).undo.length * Config.undoEntryBytes)
  if full.isEmpty then .inr t else .inl (full.foldl (fun s c => s.modCtx c fun x => { x with undoWant := grown c }) s)

/-- The entry of a level of a table. -/
def pteAt (table level va : Nat) : Nat := table + 8 * (va / 2 ^ (12 + 9 * level) % 512)
/-- The address of the entry that holds or would hold a page's leaf; with `make` missing tables are made, in frames that
the spec leaves to the monitor (log entry 38). The answer says at which level it stands. -/
def State.pteOf (s : State) (make : Bool) (va : Nat) : Nat → Nat → Option (Nat × Nat) × State
  | 0, table => (some (pteAt table 0 va, 0), s)
  | l + 1, table =>
    let a := pteAt table (l + 1) va
    let e := s.paNat a 8
    if e % 2 = 1 then (if e.testBit 4 then (some (a, l + 1), s) else s.pteOf make va l (e / 4096 % 2 ^ 36 * 4096))
    else if !make then (none, s)
    else
      let t := mkPa (paCtrl table) false ((Config.openRead s.fresh (200 + l)).toNat % 0x2E8000 * 4096)
      let s := s.monPut t (List.replicate 4096 0)
      (s.monPut a (bytesOf 8 (t + 1))).pteOf make va l t

/-- A leaf of R205 for a memory page, from MAP's bits and its frame. -/
def leafBits (bits frame : Nat) : Nat := bits % 2 ^ 11 / 512 * 512 + (paFar frame).toNat * 256 + bits % 256 + paLocal frame / 4096 * 4096

/-- The first failing check of R288, or 0. -/
def State.mapCheck (s : State) (c frame va bits tag : Nat) : Nat :=
  let b := (s.ctx c).ccb
  let w := bits.testBit 2
  let code := (find? s.monitor.code c).getD []
  if !validPa frame || paWindow frame || frame % 4096 != 0 || (s.die (paDie frame)).world != b.world || paCtrl frame != ctrlOf b va then 1
  else if sget 0 s.monitor.owner (frame / 4096) != 0 && sget 0 s.monitor.owner (frame / 4096) != b.world then 2
  else if inCtrArea (paFar frame) (paLocal frame) || (paFar frame && ckptArea (paLocal frame) && Config.ckptMem) then 3
  else if code.any (fun r => decide (r.1 < va / 4096 * 4096 + 4096) && decide (va / 4096 * 4096 < r.1 + r.2)) && (bits.testBit 1 || w || !bits.testBit 3) then 4
  else if s.monitor.maps.any fun (m : MapRec) => m.frame == frame && (m.tag != tag || m.va != va / 4096 * 4096) && (m.w || w) then 5
  else 0

/-- A frame is written as zero under a fresh major counter (R288). -/
def State.zeroFrame (s : State) (frame page : Nat) : State :=
  let ks := (List.range 128).map (32 * ·)
  let s := ks.foldl (fun s k => s.undoAppend (frame + k) (page + k)) s
  let maj := s.major frame + 1
  ks.foldl (fun s k =>
    ((((s.setBytes (frame + k) (s.crypt (frame + k) maj 0 (List.replicate 32 0))).setCtr (frame + k) maj 0).setPoison (frame + k) none).retag
      (frame + k))) s

/-- MAP. The leaf bits must form a leaf of R205 for a memory page. -/
def execMcallMap (who : Caller) (s : State) : Host.Outcome State Fault Refusal :=
  service 0 who (fun s c =>
    let va := s.argP c 2
    let frame := s.argP c 4
    let bits := s.argW c 6
    let x := s.argW c 7 % 65536
    let (ok, s) := s.monCopy x false
    let b := (s.ctx x).ccb
    let tag := if bits.testBit 5 then b.sasid else b.asid
    let page := va / 4096 * 4096
    let leafOk := bits % 2 == 1 && bits.testBit 4 && bits / 64 % 4 == 0 && !(bits.testBit 2 && !bits.testBit 1) && decide (bits < 2 ^ 11)
    if !ok || !leafOk || aperOf va != .mem || s.monitor.maps.any (fun (m : MapRec) => m.ctx == x && m.va == page) then s.reply who c 2 none
    else
      let n := s.mapCheck x frame va bits tag
      if n ≠ 0 then s.reply who c (16 + n) none
      else
        match s.pteOf true va 4 b.root with
        | (some (a, 0), t) =>
          match s.undoFits ((t.zeroFrame frame page).monPut a (bytesOf 8 (leafBits bits frame))) with
          | .inl s => s
          | .inr s =>
          let m : MapRec := { ctx := x, frame, tag, va := page, w := bits.testBit 2 }
          ({ s with monitor := { s.monitor with owner := sset 0 s.monitor.owner (frame / 4096) b.world, maps := s.monitor.maps ++ [m] } } : State).reply who c 0 none
        | (_, s) => s.reply who c 2 none) s

/-- Whether a claim of this module or of another one stands on a page. -/
def State.pageClaimed (s : State) (tag page : Nat) : Bool :=
  let on (ps : List ClaimPg) : Bool := ps.any fun (p : ClaimPg) => p.names tag page
  s.claimList.any (fun p => (p.2.live || p.2.st == .revoking) && on p.2.pages) || s.dies.any fun d => d.2.grants.any fun g => on g.2.pages
/-- The steps of R212 after the change of a leaf; the answer says that they are over. -/
def State.shootDown (s : State) (tag page : Nat) : Bool × State :=
  let s := (s.revokeWhere (fun k => k.covers tag page) 1).2
  let s := s.revokeGrants (fun x => x.names tag page) 1 0
  if s.pageClaimed tag page then (false, s)
  else
    let (ok, s) := s.cinv 0 tag page
    if !ok || s.d2d.any (fun (d : D2d) => cinvHit 0 tag page true d.key) then (false, s)
    else (true, s.tlbInv 0 tag page)

/-- UNMAP: the monitor performs R212 itself; it waits for the claims and the caches. -/
def execMcallUnmap (who : Caller) (s : State) : Host.Outcome State Fault Refusal :=
  service 1 who (fun s c =>
    let va := s.argP c 2
    let x := s.argW c 7 % 65536
    let page := va / 4096 * 4096
    if !s.monitorHas x then s.reply who c 2 none
    else match s.monitor.maps.find? fun (m : MapRec) => m.ctx == x && m.va == page with
      | none => s.reply who c 2 none
      | some m =>
        let (e, s) := s.pteOf false va 4 (s.ctx x).ccb.root
        match s.undoFits (e.elim s fun x => s.monPut x.1 (List.replicate 8 0)) with
        | .inl s => s
        | .inr s =>
        let (ok, s) := s.shootDown m.tag page
        if !ok then s
        else ({ s with monitor := { s.monitor with maps := s.monitor.maps.filter (· != m) } } : State).reply who c 0 none) s

/-! ### LOAD and REPORT (R292 to R294) -/

/-- The bytes that R292 absorbs. The 16 bytes are "GALOSKOL-MEAS-01". -/
def measBytes (heads : List Byte) (regions : List (Nat × Nat × Nat)) (contents : List (List Byte)) : List Byte :=
  [0x47, 0x41, 0x4C, 0x4F, 0x53, 0x4B, 0x4F, 0x4C, 0x2D, 0x4D, 0x45, 0x41, 0x53, 0x2D, 0x30, 0x31] ++ heads ++
    (List.range regions.length).flatMap fun k =>
      let r := regions.getD k (0, 0, 0)
      bytesOf 8 r.1 ++ bytesOf 8 r.2.1 ++ bytesOf 1 r.2.2 ++ contents.getD k []

/-- The mappings of a context that lie in regions. -/
def State.mapsIn (s : State) (x : Nat) (regions : List (Nat × Nat)) : List MapRec :=
  s.monitor.maps.filter fun (m : MapRec) => m.ctx == x && regions.any fun r => decide (r.1 < m.va + 4096) && decide (m.va < r.1 + r.2)
/-- Whether a leaf, a TLB entry, a cached sector or a claim still gives more than the execution of a page. -/
def State.notExecOnly (s : State) (m : MapRec) : Bool :=
  let on := cinvHit 0 m.tag m.va false
  let rw (t : Rights) : Bool := t.r || t.w
  (match (s.pteOf false m.va 4 (s.ctx m.ctx).ccb.root).1 with
    | some (a, _) => s.paNat a 8 / 2 % 8 != 4
    | none => false) ||
    (s.tlb.any fun p => tlbHit 0 m.tag m.va p && rw p.2.rights) || (s.dies.any fun d => d.2.l2.any fun p => on p.1 && rw p.2.rights) ||
    (s.insts.any fun i => i.2.l1.any fun p => on p.1 && rw p.2.rights) || s.pageClaimed m.tag m.va
/-- The leaf of a page allows its execution alone (R293), with the steps of R212. -/
def State.makeExecOnly (s : State) (m : MapRec) : State :=
  match s.undoFits (((s.pteOf false m.va 4 (s.ctx m.ctx).ccb.root).1).elim s fun x =>
    let e := s.paNat x.1 8; s.monPut x.1 (bytesOf 8 (e - e / 2 % 8 * 2 + 8))) with
  | .inl s => s
  | .inr s =>
  let maps := s.monitor.maps.map fun (n : MapRec) => if n == m then { n with w := false } else n
  (({ s with monitor := { s.monitor with maps := maps } } : State).shootDown m.tag m.va).2

/-- The launch descriptors that a LOAD's list names, then the itinerary descriptor that they name, once (R59, R280, R292). -/
def State.readHeads (s : State) (who : Asker) (q : Req) (vas : List Nat) : State ⊕ (Option (List Byte) × State) :=
  match readMany who q s (vas.map fun a => (a, 32)) with
  | .inl s => .inl s
  | .inr (none, s) => .inr (none, s)
  | .inr (some ds, s) =>
    let its := (ds.map fun d => bytesNat d 0 8).eraseDups
    match readMany who q s (its.map fun a => (a, 16)) with
    | .inl s => .inl s
    | .inr (none, s) => .inr (none, s)
    | .inr (some hs, s) =>
      match readMany who q s ((its.zip hs).map fun x => (x.1 + 16, 64 * bytesNat x.2 2 2 + 16 * bytesNat x.2 4 2)) with
      | .inl s => .inl s
      | .inr (none, s) => .inr (none, s)
      | .inr (some rs, s) => .inr (some (ds.flatten ++ (hs.zip rs).flatMap fun x => x.1 ++ x.2), s)

/-- LOAD makes the measured code of a sealed context execute-only (R293) and measures it (R292). How its list names the regions and
the launch descriptors is software's (log entry 38). -/
def execMcallLoad (who : Caller) (s : State) : Host.Outcome State Fault Refusal :=
  service 2 who (fun s c =>
    if s.monitor.activating then s.reply who c 1 (some (BitVec.ofNat 64 (1 + Config.retryHint s.fresh % 65535)))
    else
      let x := s.argW c 7 % 65536
      let list := BitVec.ofNat 64 (s.argP c 2)
      let (ok, s) := s.monCopy x true
      let all := (Config.loadRegions x list).insertionSort fun a b => a.1 ≤ b.1
      let ms := (all.filter fun r => r.2.2.2).map fun r => (r.1, r.2.1, r.2.2.1)
      let us := (all.filter fun r => !r.2.2.2).map fun r => (r.1, r.2.1)
      let code := (ms.filter fun r => r.2.2.testBit 2).map fun r => (r.1, r.2.1)
      if !ok || decide (16 < us.length) then s.reply who c 2 none
      else
        let open_ := (s.mapsIn x code).filter s.notExecOnly
        if !open_.isEmpty then open_.foldl (fun s m => s.makeExecOnly m) s
        else match s.readHeads (monWho c) (s.hwReq x 4) ((Config.loadDescs x list).map (·.toNat)) with
          | .inl s => s
          | .inr (none, s) => s.reply who c 2 none
          | .inr (some heads, s) =>
            match readParts (monWho c) s (ms.map fun r => (s.hwReq x (if r.2.2.testBit 2 then 3 else 4), r.1, r.2.1)) with
            | .inl s => s
            | .inr (none, s) => s.reply who c 2 none
            | .inr (some bs, s) =>
              let m := shake256 64 (measBytes heads ms bs)
              ({ s with monitor := { s.monitor with meas := sput s.monitor.meas x m, unmeas := sput s.monitor.unmeas x us, code := sput s.monitor.code x code } } :
                State).reply who c 0 none) s

/-- The device identity key's seed (R294). -/
def Monitor.seed (m : Monitor) : List Byte := shake256 57 (Config.deviceSecret ++ m.chain)
/-- A report (R294) without and with its signature. -/
def Monitor.report (m : Monitor) (world vf : Nat) (inj rec : Bool) (meas : List Byte) (us : List (Nat × Nat)) (nonce : List Byte) : List Byte :=
  let body := bytesOf 2 1 ++ bytesOf 1 world ++ bytesOf 1 vf ++
    bytesOf 4 ((!us.isEmpty).toNat + 2 * inj.toNat + 4 * rec.toNat) ++ m.chain ++ meas ++ nonce ++ bytesOf 2 us.length ++ bytesOf 6 0 ++
    us.flatMap (fun r => bytesOf 8 r.1 ++ bytesOf 8 r.2) ++ ed448Public m.seed
  body ++ ed448Sign m.seed body

/-- A measurement of which the spec says nothing: that of a caller without a measured context (log entry 4). -/
def State.openMeas (s : State) : List Byte := (List.range 64).map fun k => (Config.openRead s.fresh (300 + k)).setWidth 8

/-- REPORT: an attestation report for the caller's nonce goes to its buffer; v1 is its size. -/
def execMcallReport (who : Caller) (s : State) : Host.Outcome State Fault Refusal :=
  service 3 who (fun s c =>
    if s.monitor.activating then s.reply who c 1 (some (BitVec.ofNat 64 (1 + Config.retryHint s.fresh % 65535)))
    else
      let x := (s.inst c.1).ctx
      let y := s.ctx x
      match s.readAt (monWho c) (s.monReq c 4) (s.argP c 2) 64 with
      | .wait s => s
      | .bad s => s.reply who c 2 none
      | .got nonce s =>
        let us := (find? s.monitor.unmeas x).getD []
        let r := s.monitor.report y.ccb.world y.ccb.vf y.ccb.inj (y.ccb.recB || y.ccb.rplB) ((find? s.monitor.meas x).getD s.openMeas) us nonce
        let q := s.monReq c 5
        match s.accCheck (monWho c) q (s.argP c 4) r.length with
        | (.wait, s) => s
        | (.refuse .., s) => s.reply who c 2 none
        | (.ok, s) => (s.homePut q (s.argP c 4) r).reply who c 0 (some (BitVec.ofNat 64 r.length))) s

/-! ### ASSIGN, VFSET, RELEASE (R216, R279) -/

/-- The scrub of a die (R216), which no instance is resident on. -/
def State.scrub (s : State) (d : Nat) : State :=
  let onDie (core : Nat) : Bool := core / Config.coresPerDie == d
  let ctrl (k : Nat) : Bool := (tlbCtrl k < 64 && tlbCtrl k / 8 == d) || tlbCtrl k == 64 + d
  let s := ((s.die d).claims.filter fun p => p.2.st != .free).foldl (fun s p => s.freeClaim (d * 256 + p.1)) s
  let cores := s.cores.map fun p => if onDie p.1 then
    (p.1, ({ p.2 with reg := [], spad := [], acc := [], tstat := [], absent := [], dq := [], hamper := [], icache := [], sfq := [], sfWait := [] } : Core)) else p
  let cls := s.clusters.map fun p => if p.1 / Config.clustersPerDie == d then (p.1, { p.2 with fifos := [], resv := [] }) else p
  let ls := s.launches.map fun (l : Launch) => if l.die == d then { l with queues := l.queues.map fun (q : StageQ) => { q with recs := [], trail := [] } } else l
  let s : State := { s with cores := cores, clusters := cls, launches := ls, tlb := s.tlb.filter fun p => !ctrl p.1, mapped := s.mapped.filter fun m => paDie m.pa != d, flows := s.flows.filter fun (f : Flow) => f.die != d }
  s.modDie d fun x => { x with l2 := [], claims := [], grants := [], cmp := [] }

/-- A die changes its world, once it is scrubbed. -/
def State.setWorld (s : State) (d w : Nat) : State := (s.scrub d).latchWorld d w (stewardId Config.dies 0)

/-- Whether a mask names dies, none of them die 0, with nothing resident, whose world satisfies a condition. -/
def State.diesOk (s : State) (m : Nat) (f : Nat → Bool) : Bool :=
  m % 2 == 0 && m != 0 && decide (m < 2 ^ Config.dies) && (maskDies m).all fun d => f (s.die d).world &&
    !(s.insts.any fun p => p.2.kind == .stage && p.2.core / Config.coresPerDie == d)

/-- ASSIGN: dies of world 0 become those of a sealed world and of its virtual function. -/
def execMcallAssign (who : Caller) (s : State) : Host.Outcome State Fault Refusal :=
  service 4 who (fun s c =>
    let m := s.argW c 2
    let w := s.argW c 3
    let v := s.argW c 4
    if w = 0 ∨ 256 ≤ w ∨ 16 ≤ v ∨ !s.diesOk m (· == 0) then s.reply who c 2 none
    else
      let s := s.reply who c 0 none
      let s := (maskDies m).foldl (fun s d => s.setWorld d w) s
      let f := s.vf v
      let dm := if f.world = w then f.diesM ||| m else m
      s.vfWrite v { f with world := w, diesM := dm }) s

/-- VFSET: the monitor's fields of a virtual function's block, read in the layout of R279; a sealed function's masks must hold all
of its dies' clusters and controllers. -/
def execMcallVfset (who : Caller) (s : State) : Host.Outcome State Fault Refusal :=
  service 5 who (fun s c =>
    let v := s.argW c 2
    match s.readAt (monWho c) (s.monReq c 4) (s.argP c 4) 64 with
    | .wait s => s
    | .bad s => s.reply who c 2 none
    | .got b s =>
      let w := bytesNat b 1 1
      let dm := bytesNat b 56 1
      let f := s.vf v
      let sealedOk := s.unfenced (bytesNat b 16 32) == s.unfenced (diesClusters dm) && bytesNat b 48 8 == diesCtrls dm && dm % 2 == 0 &&
        (maskDies dm).all fun d => (s.die d).world == w
      if 16 ≤ v ∨ (w ≠ 0 ∧ !sealedOk) then s.reply who c 2 none
      else (s.vfWrite v { f with world := w, diesM := dm }).reply who c 0 none) s

/-- RELEASE: sealed dies return to world 0 after a scrub; what the monitor keeps of a world without dies is gone. -/
def execMcallRelease (who : Caller) (s : State) : Host.Outcome State Fault Refusal :=
  service 7 who (fun s c =>
    let m := s.argW c 2
    if !s.diesOk m (· != 0) then s.reply who c 2 none
    else
      let s := s.reply who c 0 none
      let s := (maskDies m).foldl (fun s d => s.setWorld d 0) s
      let vfs := s.vfs.map fun p =>
        let dm := p.2.diesM &&& (255 - m)
        if p.2.world = 0 ∨ p.2.diesM &&& m = 0 then p
        else (p.1, { p.2 with diesM := dm, world := if dm = 0 then 0 else p.2.world, clusters := s.unfenced (diesClusters dm), ctrls := diesCtrls dm })
      let stale (x : Nat) : Bool := (s.worldDies (s.ctx x).ccb.world).isEmpty
      let mon := { s.monitor with
        owner := s.monitor.owner.filter fun p => !m.testBit (paDie (p.1 * 4096))
        blocks := s.monitor.blocks.filter fun x => !stale x.1
        maps := s.monitor.maps.filter fun (r : MapRec) => !m.testBit (paDie r.frame)
        meas := s.monitor.meas.filter fun p => !stale p.1
        unmeas := s.monitor.unmeas.filter fun p => !stale p.1
        code := s.monitor.code.filter fun p => !stale p.1 }
      { s with vfs := vfs, monitor := mon }) s

/-! ### ACTIVATE and boot (R294, R295, R298, R299) -/

def State.extend (s : State) (img : BootImage) : State :=
  { s with monitor := { s.monitor with chain := shake256 64 (s.monitor.chain ++ img.meas) } }
/-- A new monitor image is verified, and its activation begins. -/
def State.activate (s : State) (img : BootImage) : State :=
  { s with monitor := { s.monitor with activating := true, next := some img } }

/-- ACTIVATE: the image is verified under R294, then its activation is in progress. -/
def execMcallActivate (who : Caller) (s : State) : Host.Outcome State Fault Refusal :=
  service 6 who (fun s c =>
    let img := Config.imageAt s.fresh (BitVec.ofNat 64 (s.argP c 2))
    if s.monitor.activating || !img.sigOk then s.reply who c 2 none else (s.activate img).reply who c 0 none) s

/-- ACTIVATION_END: chain and identity key change together. -/
def execActivationEnd (s : State) : Host.Outcome State Fault Refusal :=
  .next (match s.monitor.next with
    | some img => if s.monitor.activating then
        let s := s.extend img
        { s with monitor := { s.monitor with activating := false, next := none } }
      else s
    | none => s)

/-- The boot chain: each image is verified, then measured. -/
def bootChain : State → List BootImage → Bool × State
  | s, [] => (true, s)
  | s, img :: r => if img.sigOk then bootChain (s.extend img) r else (false, s)

/-- POWER_ON_BOOT: the first firmware stage, the monitor, the supervisor. A signature that fails halts the module. -/
def execPowerOnBoot (imgs : List BootImage) (s : State) : Host.Outcome State Fault Refusal :=
  .next (if s.booted || s.halted || decide (imgs.length < 3) then s
    else match bootChain s imgs with
      | (true, s) => { s with booted := true }
      | (false, s) => { s with halted := true })

/-- Sends bytes over the management port. -/
def State.portSend (s : State) (bs : List Byte) : State := { s with monitor := { s.monitor with sent := s.monitor.sent ++ [bs] } }

/-- MANAGEMENT_PORT_REQUEST: firmware images, attestation requests, telemetry, whose contents the spec does not give. -/
def execManagementPortRequest (r : MgmtReq) (s : State) : Host.Outcome State Fault Refusal :=
  .next (if !s.booted then s
    else match r with
      | .image img => if s.monitor.activating || !img.sigOk then s else s.activate img
      | .attest nonce =>
        if s.monitor.activating then s.portSend (bytesOf 1 1 ++ bytesOf 2 (1 + Config.retryHint s.fresh % 65535))
        else s.portSend (s.monitor.report 0 0 false false s.openMeas [] ((List.range 64).map fun k => nthByte nonce k))
      | .telemetry => s.portSend (bytesOf 8 (Config.openRead s.fresh s.monitor.telemetry).toNat))

/-! ### The package (R291, R296, R297, R300) -/

/-- COOLANT_LOSS_TRIP: compute halts at clause boundaries. -/
def execCoolantLossTrip (s : State) : Host.Outcome State Fault Refusal := .next { s with halted := true }

/-- COMPUTE_SIDE_RESET: the compute side starts again; the far tier, in its own power domain, keeps its contents, and a fenced
cluster stays fenced (R297). -/
def execComputeSideReset (s : State) : Host.Outcome State Fault Refusal :=
  let r := State.reset
  let far (k : Nat) : Bool := paFar (k * 32)
  .next { r with
    mem := s.mem.filter (fun p => paFar p.1), poisonM := s.poisonM.filter fun p => far p.1, stags := s.stags.filter fun p => far p.1
    clusters := (s.clusters.filter fun k => k.2.fenced).map fun k => (k.1, { fenced := true })
    ckpt := s.ckpt, now := s.now, fresh := s.fresh, nextId := s.nextId, agenda := s.agenda }

/-- THERMAL_LIMIT_REACHED: schedulers insert idle cycles between clauses, which changes no value. -/
def execThermalLimitReached (on : Bool) (s : State) : Host.Outcome State Fault Refusal := .next { s with throttled := on }

/-- The instances on a cluster. -/
def State.onCluster (s : State) (cl : Nat) : List Nat := (s.insts.filter fun p => p.2.kind == .stage && p.2.cluster == cl).map (·.1)

/-- CLUSTER_TEST_DUE: the interval has elapsed, and from then on nothing new is placed; preemptible instances are
pre-empted, and restored on any fitting core. The supervisor may have set the interval before, to 1 to 24 hours. -/
def execClusterTestDue (cluster : Nat) (s : State) : Host.Outcome State Fault Refusal :=
  .next (
    let s := match Config.testHours cluster s.now with
      | some h => s.modCluster cluster fun k => { k with testIvl := 1 + h % 24 }
      | none => s
    let k := s.cluster cluster
    let s := if k.test == .idle && !k.fenced && decide (k.testAt + k.testIvl * Config.hourCycles ≤ s.now) then
        s.modCluster cluster fun k => { k with test := .due s.now } else s
    let s := if (s.cluster cluster).test == .idle then s
      else
        let ks := (s.onCluster cluster).filter fun i => (s.inst i).preemptible
        let s := (s.saveAll ks).2
        { s with saved := s.saved.map fun (v : Saved) => if ks.contains v.iid then { v with auto := true } else v }
    match s.saved.find? fun (v : Saved) => v.auto && s.tagOk v with
    | none => s
    | some v => ((s.loadOne v 0xFFFF).map (·.2)).getD s)

/-- TEST_OVERDUE: after 50 ms of waiting for an instance the supervisor is told. -/
def execTestOverdue (cluster : Nat) (s : State) : Host.Outcome State Fault Refusal :=
  .next (match (s.cluster cluster).test with
    | .due t =>
      if t + Config.testWaitCycles ≤ s.now ∧ !(s.onCluster cluster).isEmpty then
        (s.modCluster cluster fun k => { k with test := .overdue }).pushEvent (cluster / Config.clustersPerDie) 2 0 0xFFFF cluster 0
      else s
    | _ => s)

/-- CLUSTER_TEST: the idle cluster is tested; one that fails is fenced for good, and its bit leaves every mask (R297). -/
def execClusterTest (cluster : Nat) (pass : Bool) (s : State) : Host.Outcome State Fault Refusal :=
  .next (
    let k := s.cluster cluster
    if k.test == .idle || !(s.onCluster cluster).isEmpty then s
    else
      let s := s.modCluster cluster fun k => { k with test := .idle, testAt := s.now, fenced := k.fenced || !pass }
      if pass then s
      else
        let s : State := { s with vfs := s.vfs.map fun p => (p.1, { p.2 with clusters := s.unfenced p.2.clusters }) }
        s.pushEvent (cluster / Config.clustersPerDie) 3 0 0xFFFF cluster 0)

end Sys2Proof.Machine
end

