-- ==== Sys2Proof/Machine/Move.lean ====
section
/-! DEFINITION. Group 0x6, moves, selects, special registers and gathers (R9, R35, R103, R104). -/
namespace Sys2Proof.Machine

def execMov (c : Ctl) (d : Nat) (b : BSrc) (s : State) :=
  pureFixed (.mov c d b) c 3 (fun s is r => s.dst is r false d (s.srcB is r .b32 b)) s
def execSel (c : Ctl) (o : O2) (ps : Nat) (s : State) :=
  pureFixed (.sel c o ps) c 3 (fun s is r =>
    s.dst is r false o.d (if s.predAt is r.t.tid ps then s.srcV is r false o.a else s.srcB is r .b32 o.b)) s

/-- The value of a special register (R9, R17, R158); sr.rsc is read at its nominal slot (R71). -/
def State.specialReg (s : State) (is : Issue) (tid sr : Nat) : DWord :=
  let i := s.inst is.iid
  let g := i.isGuide tid
  let stage := i.kind == .stage
  match sr with
  | 0 => BitVec.ofNat 64 (i.srTid tid)
  | 1 => if g then 0xFFFFFFFF else BitVec.ofNat 64 (i.laneOf tid)
  | 2 => if g then 0xFFFFFFFF else BitVec.ofNat 64 (i.hwOf tid)
  | 3 => if stage then BitVec.ofNat 64 i.no else 0
  | 4 => if stage then BitVec.ofNat 64 i.gang else 1
  | 5 => s.readFixed is (.meet tid) 0
  | 6 => s.readFixed is (.fp tid) 0
  | 7 => s.readFixed is (.seed tid) 0
  | 8 => (i.th tid).rsc.setWidth 64
  | 9 => if g then 0 else BitVec.ofNat 64 (i.hw (i.hwOf tid)).vb
  | _ => s.readFixed is (.hnd tid) 0
def execMovsr (c : Ctl) (d : Nat) (sr : Nat) (s : State) :=
  pureFixed (.movsr c d sr) c 3 (fun s is r => s.dst is r (sr == 5) d (s.specialReg is r.t.tid sr)) s

/-- MOVSR.w: the counter takes its value at once, the others under the latency of R39. -/
def execMovsrW (c : Ctl) (sr : Nat) (b : BSrc) (s : State) :=
  fixed (.movsrW c sr b) c 3 (fun s is r =>
    let t := r.t.tid
    let x := s.srcB is r (if sr = 5 then .n64 else .b32) b
    match sr with
    | 5 => (s, [⟨.meet t, x, false⟩])
    | 6 => (s, [⟨.fp t, x &&& 0x1F, false⟩])
    | 7 => (s, [⟨.seed t, lo32 x, false⟩])
    | 8 => (s.modTh is.iid t fun th => { th with rsc := x.setWidth 32 }, [])
    | _ => (s, [⟨.hnd t, x &&& 1, false⟩])) s

/-- PERM and LANEGET read through the crossbar at a lane that B names, as a permuted read (R35, R39; log entry 17). -/
def laneGather (ins : Instr) (c : Ctl) (o : O2) (s : State) :=
  pureFixed ins c 3 (fun s is r =>
    s.dst is r false o.d (lo32 (s.laneReg is ((s.srcB is r .b32 o.b).toNat % 32) o.a.reg 1))) s
def execPerm (c : Ctl) (o : O2) (s : State) := laneGather (.perm c o) c o s
def execLaneget (c : Ctl) (o : O2) (s : State) := laneGather (.laneget c o) c o s

/-- The voters (R104). -/
def State.voters (s : State) (is : Issue) (c : Ctl) : List LaneT := is.lanes.filter fun l => l.active && s.guardAt is c l.tid
def execBallot (c : Ctl) (d : Nat) (ps : Nat) (s : State) :=
  pureFixed (.ballot c d ps) c 3 (fun s is r =>
    s.dst is r false d ((laneMask ((s.voters is c).filter fun l => s.predAt is l.tid ps)).setWidth 64)) s
def execVote (c : Ctl) (m : VoteM) (pd ps : Nat) (s : State) :=
  pureFixed (.vote c m pd ps) c 3 (fun s is r =>
    let vs := (s.voters is c).map fun l => s.predAt is l.tid ps
    [putPred r.t.tid pd (match m with
      | .any => vs.any id
      | .all => vs.all id
      | .uni => vs.all id || !vs.any id)]) s

end Sys2Proof.Machine
end

