-- ==== Sys2Proof/Machine/Replay.lean ====
section
/-!
DEFINITION. Record and replay (R317 to R319, R321, R323) and the trace (R324 to R328) as steps of the machine.
-/
namespace Sys2Proof.Machine

open Host (Outcome)

/-! ### The log (R317, R318) -/

/-- LOG_RECORD_WRITE: the oldest record that waits is written once the ring has room; its source may then decide. -/
def State.logHeld (s : State) (c : Nat) : State :=
  let g := (s.ctx c).log
  if g.full then s
  else match g.held with
    | [] => s.modCtx c fun x => { x with log := x.log.unwait }
    | (src, r) :: rest =>
      let s := s.logWrite c src r
      s.modCtx c fun x => { x with log := { x.log with held := rest, ready := x.log.ready ++ [(src, r)] }.unwait }
def execLogRecordWrite (ctx : Nat) (s : State) : Outcome State Fault Refusal :=
  .next (if (s.ctx ctx).ccb.recB then s.logHeld ctx else s)

/-- Record k of a ring. -/
def State.ringRec (s : State) (g : LogRing) (k : Nat) : List Byte := s.paBytes (g.base + 16 * (k % g.size)) 16
/-- An atomic that another module has performed; replay skips it. -/
def fabricRec (r : List Byte) : Bool := (nthByte r 0).toNat == 1 && (nthByte r 13).getLsbD 7
/-- The records that replay passes over as it stands. -/
def State.skipFabric (s : State) (c : Nat) : State :=
  let g := (s.ctx c).log
  let ks := ((List.range (min g.size (g.producer - g.replay))).map (g.replay + ·)).filter fun k =>
    !g.taken.contains k && fabricRec (s.ringRec g k)
  if ks.isEmpty then s
  else s.modCtx c fun x => { x with log := LogRing.settle { x.log with taken := ks ++ x.log.taken } (ks.length + x.log.taken.length + 1) }

/-- REPLAY_RECORD_APPLY: a source takes its next record; where there is none below PRODUCER it waits, and the supervisor is told, again
when PRODUCER has moved and there is still none. -/
def State.replayApply (s : State) (c src : Nat) : State :=
  let s := s.skipFabric c
  let g := (s.ctx c).log
  match find? g.next src, s.logNext c src with
  | some _, _ => s
  | none, some _ => (s.applyNext c src).modCtx c fun x => { x with log := { x.log with waits := sdel x.log.waits src } }
  | none, none =>
    if find? g.waits src == some 0 then s
    else (s.modCtx c fun x => { x with log := { x.log with waits := sput x.log.waits src 0 } }).pushEvent 0 7 1 c 0 g.producer
def execReplayRecordApply (ctx src : Nat) (s : State) : Outcome State Fault Refusal :=
  .next (if (s.ctx ctx).ccb.rplB then s.replayApply ctx src else s)

/-! ### Divergence (R319, R321) -/

/-- The first record of a reserved type that its source would take next. -/
def State.reservedRec (s : State) (c : Nat) : Option Nat :=
  let g := (s.ctx c).log
  ((List.range (min g.size (g.producer - g.replay))).map (g.replay + ·)).find? fun k =>
    let r := s.ringRec g k
    let ty := (nthByte r 0).toNat
    (ty == 0 || decide (0x10 ≤ ty)) && !g.taken.contains k && (s.logNext c (bytesNat r 1 2)).map (·.1) == some k

/-- Whether the threads of a formed warp can issue as it stands, which is no decision of formation. -/
def Inst.goesOn (i : Inst) (tid : Nat) : Bool :=
  let t := i.th tid
  t.warp != 0 && !t.restored && i.warps.any fun (w : Warp) => w.id == t.warp && w.tids.all fun u =>
    (i.th u).status == .ready && (i.th u).pc == t.pc && !(i.th u).restored
/-- Whether a Ready thread is held at its scheduler: it needs a formation, and the scheduler's next record is none of a warp that its
home warp can form with it. -/
def State.heldBack (s : State) (i : Inst) (tid : Nat) : Bool :=
  let hw := i.hwOf tid
  !i.isGuide tid && !i.goesOn tid && (match s.logNext i.ctx (logSrc (i.core / Config.coresPerDie) 1 (i.core % Config.coresPerDie * 2 + hw % 2)) with
    | none => false
    | some (_, r) => !((nthByte r 0).toNat == 4 && (nthByte r 12).toNat == hw && (bytesNat r 4 4).testBit (i.laneOf tid) &&
        (List.range 32).all fun l => !(bytesNat r 4 4).testBit l || (i.th? (hw * 32 + l)).elim false fun t =>
          t.status == .ready && t.header.toNat / 8 % 2 ^ 32 == bytesNat r 8 4))
/-- Whether an atomic in flight is held at its source: the source's next record is that of another request (R318). -/
def State.atomHeld (s : State) (o : PendOp) : Bool :=
  let i := s.inst o.iid
  let other (src typ : Nat) (payload : List Byte) : Bool := match s.logNext i.ctx src with
    | none => false
    | some (_, n) => logIdent n != logIdent (s.logRec i.ctx src typ payload)
  !o.parts.isEmpty && o.parts.all fun p =>
    if (spadPieces o.ins p).isEmpty then other (s.atomSrc (s.req o.iid p.tid 2) (p.arg 0).toNat) 0x01 (atomRec i p (p.arg 0).toNat)
    else other (logSrc (i.die o.iid) 4 (i.core % Config.coresPerDie)) 0x02 (atomsRec i p ((spadPieces o.ins p).headD (0, 0)).1)

/-- Case 4: nothing of the context can go on. -/
def State.stuck (s : State) (c : Nat) : Bool :=
  let mine := s.insts.filter fun p => p.2.kind == .stage && p.2.ctx == c
  let ids := mine.map (·.1)
  !mine.isEmpty && mine.all (fun p => p.2.ths.all fun t => t.2.status != .ready || s.heldBack p.2 t.1) &&
    mine.any (fun p => p.2.ths.any fun t => t.2.status != .exited) &&
    (s.issues.all fun (x : Issue) => !ids.contains x.iid || s.heldIssue x) &&
    (s.ops.all fun (o : PendOp) => !ids.contains o.iid || s.keeps o || o.waitsOthers ||
      (accKind o.ins == some .atomic && s.atomHeld o)) &&
    (s.flows.all fun (f : Flow) => (s.claim (f.die * 256 + f.entry)).ctx != c) &&
    s.clusters.all fun k => k.2.resv.all fun r => !ids.contains r.2.iid

/-- REPLAY_DIVERGENCE with a case of R319; of a context that has diverged the save goes on. -/
def execReplayDivergence (ctx kind : Nat) (s : State) : Outcome State Fault Refusal :=
  .next (
    let x := s.ctx ctx
    if x.log.diverged then s.diverge ctx kind 0
    else if !x.ccb.rplB then s
    else match kind with
      | 2 => (match s.reservedRec ctx with
        | some k => s.diverge ctx 2 k
        | none => s)
      | 4 => if s.stuck ctx then s.diverge ctx 4 x.log.replay else s
      | _ => match x.log.diverge with
        | some (k, n) => if k = kind then s.diverge ctx k n else s
        | none => s)

/-- PAIRED_PARTITION_COMPARE: the signatures of two partners are compared once both exist. -/
def execPairedPartitionCompare (ctx : Nat) (s : State) : Outcome State Fault Refusal := .next (s.comparePair ctx)

/-! ### The precise stop (R323) -/

/-- PRECISE_STOP: the clause of the named thread has issued its last instruction and its results are complete; the context stops. -/
def execPreciseStop (ctx : Nat) (s : State) : Outcome State Fault Refusal :=
  .next (match s.issues.find? fun (x : Issue) => (s.inst x.iid).kind == .stage && (s.inst x.iid).ctx == ctx && x.stopAt == some x.idx with
    | none => s
    | some is =>
      let mine (o : PendOp) : Bool := o.iid == is.iid && o.hdr == is.hdrAt && o.parts.any fun p => is.lanes.any fun l => l.tid == p.tid
      if (s.ctx ctx).log.stopped || s.ops.any (fun o => mine o && !s.keeps o && !o.waitsOthers) then s
      else
        let s := (is.writes.reverse).foldl (fun s w => if w.done then s else s.apply is.iid w) s
        let settled (x : Issue) : Issue := { x with writes := x.writes.map fun (w : FWrite) => { w with done := true } }
        let s : State := { s with issues := s.issues.map fun (x : Issue) => if x.q == is.q && x.iid == is.iid then settled x else x }
        (s.modCtx ctx fun x => { x with log := { x.log with stopped := true } }).pushEvent 0 9 0 ctx 0 (s.ctx ctx).ivlNo)

/-! ### The trace (R325, R327, R328) -/

/-- The loss-count packet of a source. -/
def lossPacket (die core n first : Nat) : List Byte :=
  bytesOf 1 3 ++ bytesOf 1 die ++ bytesOf 2 core ++ bytesOf 4 n ++ bytesOf 8 first ++ bytesOf 16 0

/-- The oldest record that a source has handed over enters the ring, or is dropped and counted. -/
def State.traceRecord (s : State) (d : Nat) : State :=
  let t := (s.die d).trace
  match t.queue with
  | [] => s
  | (core, bs) :: rest =>
    let s := s.modDie d fun x => { x with trace := { x.trace with queue := rest } }
    match find? t.losses core with
    | none =>
      if 1 ≤ t.room then s.ringPut d bs
      else s.modDie d fun x => { x with trace := { x.trace with losses := sput t.losses core (1, t.write), lost := t.lost + 1 } }
    | some (n, k) =>
      if 2 ≤ t.room then
        (s.ringPut d (lossPacket d core n k ++ bs)).modDie d fun x => { x with trace := { x.trace with losses := sdel x.trace.losses core } }
      else s.modDie d fun x => { x with trace := { x.trace with losses := sput t.losses core (n + 1, k), lost := t.lost + 1 } }
/-- A closed frame enters the ring whole. -/
def State.traceFrame (s : State) (d : Nat) : State :=
  let t := (s.die d).trace
  match t.closed with
  | [] => s
  | f :: rest => if f.length / 32 ≤ t.room then (s.ringPut d f).modDie d fun x => { x with trace := { x.trace with closed := rest } } else s
/-- TRACE_RECORD_WRITE: records and frames interleave in any order (log entry 3). -/
def execTraceRecordWrite (die : Nat) (s : State) : Outcome State Fault Refusal :=
  .next (if (s.die die).trace.queue.isEmpty || (!(s.die die).trace.closed.isEmpty && (Config.openRead s.fresh 14).getLsbD 0) then
      s.traceFrame die else s.traceRecord die)

/-- TRACE_FRAME_CLOSE: 2^16 cycles after it opened. -/
def execTraceFrameClose (die : Nat) (s : State) : Outcome State Fault Refusal :=
  .next (match (s.die die).trace.frame with
    | some f => if f.opened + 2 ^ 16 ≤ s.now then s.closeFrame die else s
    | none => s)

/-- A lane-cycle record. -/
def binRecord (die core bin cls ctx n : Nat) : List Byte :=
  bytesOf 1 2 ++ bytesOf 1 die ++ bytesOf 2 core ++ bytesOf 1 bin ++ bytesOf 1 cls ++ bytesOf 2 ctx ++ bytesOf 8 n ++ bytesOf 16 0

/-- LANE_CYCLE_EMIT: at each lane-cycle period a core emits the non-zero counts of its enabled bins and clears them. -/
def execLaneCycleEmit (core : Nat) (s : State) : Outcome State Fault Refusal :=
  .next (
    let d := core / Config.coresPerDie
    let ctl := (s.die d).trace.ctl
    let period := ctl.toNat / 2 ^ 8 % 2 ^ 16 * 2 ^ 12
    let k := s.core core
    if !ctl.getLsbD 1 || period == 0 || k.laneAt / period == s.now / period then s
    else
      let on := k.bins.filter fun b => b.2.ctl.getLsbD 0
      let recs := on.flatMap fun b => (List.range 5).filterMap fun c =>
        let n := b.2.cnt.getD c 0
        if n = 0 then none else some (binRecord d core b.1 c (b.2.ctl.toNat / 2 ^ 16 % 2 ^ 16) n)
      let s := recs.foldl (fun s r => s.traceQueue d core r) s
      let clear (b : Nat × Bin) : Nat × Bin := if b.2.ctl.getLsbD 0 then (b.1, { b.2 with cnt := [0, 0, 0, 0, 0] }) else b
      s.modCore core fun k => { k with laneAt := s.now, bins := k.bins.map clear })

end Sys2Proof.Machine
end

