-- ==== Sys2Proof/Machine/Dispatch.lean ====
section
/-! DEFINITION. The dispatch: one arm per row of the opcode table. -/
namespace Sys2Proof.Machine

def exec (i : Instr) (s : State) : Host.Outcome State Fault Refusal :=
  match i with
  | .iadd c m o => Sys2Proof.Machine.execIadd c m o s
  | .isub c m o => Sys2Proof.Machine.execIsub c m o s
  | .imul c m o => Sys2Proof.Machine.execImul c m o s
  | .imulhi c m o => Sys2Proof.Machine.execImulhi c m o s
  | .imad c m o => Sys2Proof.Machine.execImad c m o s
  | .imin c m o => Sys2Proof.Machine.execImin c m o s
  | .imax c m o => Sys2Proof.Machine.execImax c m o s
  | .iclamp c m o => Sys2Proof.Machine.execIclamp c m o s
  | .iabs c m o => Sys2Proof.Machine.execIabs c m o s
  | .ineg c m o => Sys2Proof.Machine.execIneg c m o s
  | .isad c m o => Sys2Proof.Machine.execIsad c m o s
  | .lea c m o => Sys2Proof.Machine.execLea c m o s
  | .idiv c m o => Sys2Proof.Machine.execIdiv c m o s
  | .irem c m o => Sys2Proof.Machine.execIrem c m o s
  | .and c ty o => Sys2Proof.Machine.execAnd c ty o s
  | .or c ty o => Sys2Proof.Machine.execOr c ty o s
  | .xor c ty o => Sys2Proof.Machine.execXor c ty o s
  | .not c ty o => Sys2Proof.Machine.execNot c ty o s
  | .andn c ty o => Sys2Proof.Machine.execAndn c ty o s
  | .logic3 c ty o tbl => Sys2Proof.Machine.execLogic3 c ty o tbl s
  | .shl c ty o => Sys2Proof.Machine.execShl c ty o s
  | .shr c ty o => Sys2Proof.Machine.execShr c ty o s
  | .sar c ty o => Sys2Proof.Machine.execSar c ty o s
  | .rotl c ty o => Sys2Proof.Machine.execRotl c ty o s
  | .rotr c ty o => Sys2Proof.Machine.execRotr c ty o s
  | .shf c r o => Sys2Proof.Machine.execShf c r o s
  | .popc c ty o => Sys2Proof.Machine.execPopc c ty o s
  | .clz c ty o => Sys2Proof.Machine.execClz c ty o s
  | .ctz c ty o => Sys2Proof.Machine.execCtz c ty o s
  | .brev c ty o => Sys2Proof.Machine.execBrev c ty o s
  | .bfx c ty o => Sys2Proof.Machine.execBfx c ty o s
  | .bfi c o => Sys2Proof.Machine.execBfi c o s
  | .bperm c o => Sys2Proof.Machine.execBperm c o s
  | .fadd c m o => Sys2Proof.Machine.execFadd c m o s
  | .fsub c m o => Sys2Proof.Machine.execFsub c m o s
  | .fmul c m o => Sys2Proof.Machine.execFmul c m o s
  | .ffma c m o => Sys2Proof.Machine.execFfma c m o s
  | .fmin c m o => Sys2Proof.Machine.execFmin c m o s
  | .fmax c m o => Sys2Proof.Machine.execFmax c m o s
  | .fclamp c m o => Sys2Proof.Machine.execFclamp c m o s
  | .fabs c m o => Sys2Proof.Machine.execFabs c m o s
  | .fneg c m o => Sys2Proof.Machine.execFneg c m o s
  | .fround c m o => Sys2Proof.Machine.execFround c m o s
  | .fdiv c m o => Sys2Proof.Machine.execFdiv c m o s
  | .fsqrt c m o => Sys2Proof.Machine.execFsqrt c m o s
  | .frcp c m o => Sys2Proof.Machine.execFrcp c m o s
  | .frsq c m o => Sys2Proof.Machine.execFrsq c m o s
  | .fexp2 c m o => Sys2Proof.Machine.execFexp2 c m o s
  | .flog2 c m o => Sys2Proof.Machine.execFlog2 c m o s
  | .fsin c m o => Sys2Proof.Machine.execFsin c m o s
  | .fcos c m o => Sys2Proof.Machine.execFcos c m o s
  | .ftanh c m o => Sys2Proof.Machine.execFtanh c m o s
  | .hadd c m o => Sys2Proof.Machine.execHadd c m o s
  | .hsub c m o => Sys2Proof.Machine.execHsub c m o s
  | .hmul c m o => Sys2Proof.Machine.execHmul c m o s
  | .hfma c m o => Sys2Proof.Machine.execHfma c m o s
  | .hmin c m o => Sys2Proof.Machine.execHmin c m o s
  | .hmax c m o => Sys2Proof.Machine.execHmax c m o s
  | .hclamp c m o => Sys2Proof.Machine.execHclamp c m o s
  | .habs c m o => Sys2Proof.Machine.execHabs c m o s
  | .hneg c m o => Sys2Proof.Machine.execHneg c m o s
  | .hdot2 c m o => Sys2Proof.Machine.execHdot2 c m o s
  | .hexp2 c m o => Sys2Proof.Machine.execHexp2 c m o s
  | .hrcp c m o => Sys2Proof.Machine.execHrcp c m o s
  | .cvtf c f o => Sys2Proof.Machine.execCvtf c f o s
  | .cvtfi c f o => Sys2Proof.Machine.execCvtfi c f o s
  | .cvtif c f o => Sys2Proof.Machine.execCvtif c f o s
  | .cvtii c f o => Sys2Proof.Machine.execCvtii c f o s
  | .pack2 c f o => Sys2Proof.Machine.execPack2 c f o s
  | .unpack c f o => Sys2Proof.Machine.execUnpack c f o s
  | .cvtblk c i4o rnd o => Sys2Proof.Machine.execCvtblk c i4o rnd o s
  | .icmp c ty cnd f => Sys2Proof.Machine.execIcmp c ty cnd f s
  | .fcmp c ftz cnd f => Sys2Proof.Machine.execFcmp c ftz cnd f s
  | .hcmp c ty ftz cnd h f => Sys2Proof.Machine.execHcmp c ty ftz cnd h f s
  | .plogic c op pd pa na pb nb => Sys2Proof.Machine.execPlogic c op pd pa na pb nb s
  | .fclass c ty f => Sys2Proof.Machine.execFclass c ty f s
  | .psetv c a sel => Sys2Proof.Machine.execPsetv c a sel s
  | .pgetv c d sel => Sys2Proof.Machine.execPgetv c d sel s
  | .mov c d b => Sys2Proof.Machine.execMov c d b s
  | .sel c o ps => Sys2Proof.Machine.execSel c o ps s
  | .movsr c d sr => Sys2Proof.Machine.execMovsr c d sr s
  | .movsrW c sr b => Sys2Proof.Machine.execMovsrW c sr b s
  | .perm c o => Sys2Proof.Machine.execPerm c o s
  | .ballot c d ps => Sys2Proof.Machine.execBallot c d ps s
  | .vote c m pd ps => Sys2Proof.Machine.execVote c m pd ps s
  | .laneget c o => Sys2Proof.Machine.execLaneget c o s
  | .nop c => Sys2Proof.Machine.execNop c s
  | .bra c off => Sys2Proof.Machine.execBra c off s
  | .jmp c a => Sys2Proof.Machine.execJmp c a s
  | .call c d off => Sys2Proof.Machine.execCall c d off s
  | .calli c o => Sys2Proof.Machine.execCalli c o s
  | .ret c a => Sys2Proof.Machine.execRet c a s
  | .exit c => Sys2Proof.Machine.execExit c s
  | .meet c off => Sys2Proof.Machine.execMeet c off s
  | .meetNone c => Sys2Proof.Machine.execMeetNone c s
  | .trap c b => Sys2Proof.Machine.execTrap c b s
  | .ld c ty h o => Sys2Proof.Machine.execLd c ty h o s
  | .st c ty h o => Sys2Proof.Machine.execSt c ty h o s
  | .ldm c n s128 o => Sys2Proof.Machine.execLdm c n s128 o s
  | .stm c n s128 o => Sys2Proof.Machine.execStm c n s128 o s
  | .lds c ty o => Sys2Proof.Machine.execLds c ty o s
  | .sts c ty o => Sys2Proof.Machine.execSts c ty o s
  | .ldt c w o => Sys2Proof.Machine.execLdt c w o s
  | .spres c o => Sys2Proof.Machine.execSpres c o s
  | .pref c h a b => Sys2Proof.Machine.execPref c h a b s
  | .drainst c => Sys2Proof.Machine.execDrainst c s
  | .sfqpop c pp d => Sys2Proof.Machine.execSfqpop c pp d s
  | .atom c op ty o => Sys2Proof.Machine.execAtom c op ty o s
  | .atomcas c ty o => Sys2Proof.Machine.execAtomcas c ty o s
  | .atoms c op ty o => Sys2Proof.Machine.execAtoms c op ty o s
  | .atomscas c ty o => Sys2Proof.Machine.execAtomscas c ty o s
  | .red c op ty a b => Sys2Proof.Machine.execRed c op ty a b s
  | .fence c x => Sys2Proof.Machine.execFence c x s
  | .rel c x => Sys2Proof.Machine.execRel c x s
  | .acq c x => Sys2Proof.Machine.execAcq c x s
  | .join c pd b => Sys2Proof.Machine.execJoin c pd b s
  | .leave c pd b => Sys2Proof.Machine.execLeave c pd b s
  | .bar c pd b => Sys2Proof.Machine.execBar c pd b s
  | .elect c pd b => Sys2Proof.Machine.execElect c pd b s
  | .electRel c b => Sys2Proof.Machine.execElectRel c b s
  | .gkill c b => Sys2Proof.Machine.execGkill c b s
  | .gred c ty op o => Sys2Proof.Machine.execGred c ty op o s
  | .gbcast c ty o => Sys2Proof.Machine.execGbcast c ty o s
  | .genOpen c w t cons exit => Sys2Proof.Machine.execGenOpen c w t cons exit s
  | .genPoint c => Sys2Proof.Machine.execGenPoint c s
  | .genTake c d => Sys2Proof.Machine.execGenTake c d s
  | .genNext c => Sys2Proof.Machine.execGenNext c s
  | .genPend c => Sys2Proof.Machine.execGenPend c s
  | .yield c a => Sys2Proof.Machine.execYield c a s
  | .reggrow c wait pd b => Sys2Proof.Machine.execReggrow c wait pd b s
  | .regshrink c b => Sys2Proof.Machine.execRegshrink c b s
  | .loopn c b off => Sys2Proof.Machine.execLoopn c b off s
  | .loopend c => Sys2Proof.Machine.execLoopend c s
  | .dqpush c a => Sys2Proof.Machine.execDqpush c a s
  | .dqpop c d => Sys2Proof.Machine.execDqpop c d s
  | .dqdone c => Sys2Proof.Machine.execDqdone c s
  | .dqbr c f b off => Sys2Proof.Machine.execDqbr c f b off s
  | .sqpush c a q => Sys2Proof.Machine.execSqpush c a q s
  | .sqpop c pp d q => Sys2Proof.Machine.execSqpop c pp d q s
  | .gmov c p d b => Sys2Proof.Machine.execGmov c p d b s
  | .mma c f => Sys2Proof.Machine.execMma c f s
  | .mmaj c f h1 => Sys2Proof.Machine.execMmaj c f h1 s
  | .mrdy c fa fb shape => Sys2Proof.Machine.execMrdy c fa fb shape s
  | .mwait c t => Sys2Proof.Machine.execMwait c t s
  | .mwaitAll c => Sys2Proof.Machine.execMwaitAll c s
  | .mld c f => Sys2Proof.Machine.execMld c f s
  | .mst c f => Sys2Proof.Machine.execMst c f s
  | .mclr c p t => Sys2Proof.Machine.execMclr c p t s
  | .mswap c t u => Sys2Proof.Machine.execMswap c t u s
  | .mstat c d t => Sys2Proof.Machine.execMstat c d t s
  | .ffstat c d f => Sys2Proof.Machine.execFfstat c d f s
  | .claimNew c k sk dk a fifo => Sys2Proof.Machine.execClaimNew c k sk dk a fifo s
  | .claimUse c k => Sys2Proof.Machine.execClaimUse c k s
  | .flowReg c k x a => Sys2Proof.Machine.execFlowReg c k x a s
  | .flowImm c k x so d n => Sys2Proof.Machine.execFlowImm c k x so d n s
  | .flwait c k x => Sys2Proof.Machine.execFlwait c k x s
  | .clrel c k => Sys2Proof.Machine.execClrel c k s
  | .clrevokePg c a b => Sys2Proof.Machine.execClrevokePg c a b s
  | .clrevokeK c a k => Sys2Proof.Machine.execClrevokeK c a k s
  | .hdrain c => Sys2Proof.Machine.execHdrain c s
  | .mcast c n d a x => Sys2Proof.Machine.execMcast c n d a x s
  | .fred c bf op o => Sys2Proof.Machine.execFred c bf op o s
  | .cregOpen c strict pd a off => Sys2Proof.Machine.execCregOpen c strict pd a off s
  | .cregClose c => Sys2Proof.Machine.execCregClose c s
  | .pairOpen c pd a off slack => Sys2Proof.Machine.execPairOpen c pd a off slack s
  | .pairClose c => Sys2Proof.Machine.execPairClose c s
  | .einjPerr c => Sys2Proof.Machine.execEinjPerr c s
  | .einjPoison c => Sys2Proof.Machine.execEinjPoison c s
  | .einjPmis c b => Sys2Proof.Machine.execEinjPmis c b s
  | .einjCerr c => Sys2Proof.Machine.execEinjCerr c s
  | .prepair c d a => Sys2Proof.Machine.execPrepair c d a s
  | .presume c a => Sys2Proof.Machine.execPresume c a s
  | .presumeFail c a => Sys2Proof.Machine.execPresumeFail c a s
  | .trmark c b => Sys2Proof.Machine.execTrmark c b s
  | .cntcapStart c n => Sys2Proof.Machine.execCntcapStart c n s
  | .cntcapStop c d n => Sys2Proof.Machine.execCntcapStop c d n s
  | .sample c b => Sys2Proof.Machine.execSample c b s
  | .launch c o => Sys2Proof.Machine.execLaunch c o s
  | .scall c b => Sys2Proof.Machine.execScall c b s
  | .mcall c fn => Sys2Proof.Machine.execMcall c fn s
  | .eret c => Sys2Proof.Machine.execEret c s
  | .tlbfill c pd a lvl => Sys2Proof.Machine.execTlbfill c pd a lvl s
  | .tlbinvPg c a b => Sys2Proof.Machine.execTlbinvPg c a b s
  | .tlbinvAsid c b => Sys2Proof.Machine.execTlbinvAsid c b s
  | .tlbinvAll c => Sys2Proof.Machine.execTlbinvAll c s
  | .cinvPg c a b => Sys2Proof.Machine.execCinvPg c a b s
  | .cinvAsid c b => Sys2Proof.Machine.execCinvAsid c b s
  | .cinvAll c => Sys2Proof.Machine.execCinvAll c s
  | .ckptIvl c d b => Sys2Proof.Machine.execCkptIvl c d b s
  | .ckptMem c d => Sys2Proof.Machine.execCkptMem c d s
  | .ckptMemrst c d => Sys2Proof.Machine.execCkptMemrst c d s
  | .recctlOff c d b => Sys2Proof.Machine.execRecctlOff c d b s
  | .recctlRec c d b => Sys2Proof.Machine.execRecctlRec c d b s
  | .recctlRpl c d b => Sys2Proof.Machine.execRecctlRpl c d b s
  | .movps c d b => Sys2Proof.Machine.execMovps c d b s
  | .movpsW c a b => Sys2Proof.Machine.execMovpsW c a b s
  | .intctlMask c b => Sys2Proof.Machine.execIntctlMask c b s
  | .intctlWait c => Sys2Proof.Machine.execIntctlWait c s
  | .intctlResume c a act => Sys2Proof.Machine.execIntctlResume c a act s
  | .intctlRespg c a b => Sys2Proof.Machine.execIntctlRespg c a b s
  | .ctxsaveInst c o => Sys2Proof.Machine.execCtxsaveInst c o s
  | .ctxsaveCtx c o => Sys2Proof.Machine.execCtxsaveCtx c o s
  | .ctxsaveEnd c o => Sys2Proof.Machine.execCtxsaveEnd c o s
  | .ctxload c o => Sys2Proof.Machine.execCtxload c o s
  | .ctxloadCtx c o => Sys2Proof.Machine.execCtxloadCtx c o s
  | .wretFill c => Sys2Proof.Machine.execWretFill c s
  | .wretServ c => Sys2Proof.Machine.execWretServ c s
  | .wretDeny c cause => Sys2Proof.Machine.execWretDeny c cause s
  | .mcallMap who => Sys2Proof.Machine.execMcallMap who s
  | .mcallUnmap who => Sys2Proof.Machine.execMcallUnmap who s
  | .mcallLoad who => Sys2Proof.Machine.execMcallLoad who s
  | .mcallReport who => Sys2Proof.Machine.execMcallReport who s
  | .mcallAssign who => Sys2Proof.Machine.execMcallAssign who s
  | .mcallVfset who => Sys2Proof.Machine.execMcallVfset who s
  | .mcallActivate who => Sys2Proof.Machine.execMcallActivate who s
  | .mcallRelease who => Sys2Proof.Machine.execMcallRelease who s
  | .memoryEventPop die => Sys2Proof.Machine.execMemoryEventPop die s
  | .trapQueuePop die => Sys2Proof.Machine.execTrapQueuePop die s
  | .unreachClear die => Sys2Proof.Machine.execUnreachClear die s
  | .laneBinCtlWrite core bin v => Sys2Proof.Machine.execLaneBinCtlWrite core bin v s
  | .vfBlockWrite vf k v => Sys2Proof.Machine.execVfBlockWrite vf k v s
  | .clauseIssue q iid tids => Sys2Proof.Machine.execClauseIssue q iid tids s
  | .spinDemotion iid warp => Sys2Proof.Machine.execSpinDemotion iid warp s
  | .demotionEnd iid hw => Sys2Proof.Machine.execDemotionEnd iid hw s
  | .flagCompletion op tid => Sys2Proof.Machine.execFlagCompletion op tid s
  | .falseGuardCompletion op hw => Sys2Proof.Machine.execFalseGuardCompletion op hw s
  | .storeFault op tid => Sys2Proof.Machine.execStoreFault op tid s
  | .stageHandlerDelivery iid hw => Sys2Proof.Machine.execStageHandlerDelivery iid hw s
  | .stewardTrapEntry die n t => Sys2Proof.Machine.execStewardTrapEntry die n t s
  | .interruptEntry die n => Sys2Proof.Machine.execInterruptEntry die n s
  | .spadParkResume iid sub => Sys2Proof.Machine.execSpadParkResume iid sub s
  | .tlbMiss want => Sys2Proof.Machine.execTlbMiss want s
  | .walkerDispatch ctrl cluster => Sys2Proof.Machine.execWalkerDispatch ctrl cluster s
  | .poisonedFill op tid cause => Sys2Proof.Machine.execPoisonedFill op tid cause s
  | .repairStageStart ctx core => Sys2Proof.Machine.execRepairStageStart ctx core s
  | .migrationRequest ctrl asid va big far frame => Sys2Proof.Machine.execMigrationRequest ctrl asid va big far frame s
  | .migrationCopy ctrl asid va => Sys2Proof.Machine.execMigrationCopy ctrl asid va s
  | .migrationComplete ctrl asid va => Sys2Proof.Machine.execMigrationComplete ctrl asid va s
  | .migrationAck ctrl asid va => Sys2Proof.Machine.execMigrationAck ctrl asid va s
  | .sectorWrite die key => Sys2Proof.Machine.execSectorWrite die key s
  | .claimWalkEnd die entry => Sys2Proof.Machine.execClaimWalkEnd die entry s
  | .flowComplete flow => Sys2Proof.Machine.execFlowComplete flow s
  | .arbiterGrant cluster => Sys2Proof.Machine.execArbiterGrant cluster s
  | .priorityPromotion cluster entry => Sys2Proof.Machine.execPriorityPromotion cluster entry s
  | .passComplete cluster entry => Sys2Proof.Machine.execPassComplete cluster entry s
  | .jointEntryTimeout cluster entry => Sys2Proof.Machine.execJointEntryTimeout cluster entry s
  | .mrdyReady op => Sys2Proof.Machine.execMrdyReady op s
  | .reggrowGrant iid hw => Sys2Proof.Machine.execReggrowGrant iid hw s
  | .growthDeadlock core => Sys2Proof.Machine.execGrowthDeadlock core s
  | .instanceEnd iid => Sys2Proof.Machine.execInstanceEnd iid s
  | .gangPlacement die launch stage base => Sys2Proof.Machine.execGangPlacement die launch stage base s
  | .queueDrivenStart die launch stage => Sys2Proof.Machine.execQueueDrivenStart die launch stage s
  | .gangAgeing die launch stage => Sys2Proof.Machine.execGangAgeing die launch stage s
  | .intervalStart ctx => Sys2Proof.Machine.execIntervalStart ctx s
  | .uncorrectableError iid tid cause va => Sys2Proof.Machine.execUncorrectableError iid tid cause va s
  | .regionUnwind iid hw => Sys2Proof.Machine.execRegionUnwind iid hw s
  | .rollback ctx => Sys2Proof.Machine.execRollback ctx s
  | .compareMatch die iid tid => Sys2Proof.Machine.execCompareMatch die iid tid s
  | .logRecordWrite ctx => Sys2Proof.Machine.execLogRecordWrite ctx s
  | .replayRecordApply ctx src => Sys2Proof.Machine.execReplayRecordApply ctx src s
  | .replayDivergence ctx kind => Sys2Proof.Machine.execReplayDivergence ctx kind s
  | .pairedPartitionCompare ctx => Sys2Proof.Machine.execPairedPartitionCompare ctx s
  | .preciseStop ctx => Sys2Proof.Machine.execPreciseStop ctx s
  | .traceRecordWrite die => Sys2Proof.Machine.execTraceRecordWrite die s
  | .traceFrameClose die => Sys2Proof.Machine.execTraceFrameClose die s
  | .laneCycleEmit core => Sys2Proof.Machine.execLaneCycleEmit core s
  | .clusterTestDue cluster => Sys2Proof.Machine.execClusterTestDue cluster s
  | .testOverdue cluster => Sys2Proof.Machine.execTestOverdue cluster s
  | .clusterTest cluster pass => Sys2Proof.Machine.execClusterTest cluster pass s
  | .powerOnBoot imgs => Sys2Proof.Machine.execPowerOnBoot imgs s
  | .coolantLossTrip => Sys2Proof.Machine.execCoolantLossTrip s
  | .managementPortRequest r => Sys2Proof.Machine.execManagementPortRequest r s
  | .moduleIdAssign id => Sys2Proof.Machine.execModuleIdAssign id s
  | .hamperAgeExpiry core line => Sys2Proof.Machine.execHamperAgeExpiry core line s
  | .remoteMaskedWrite p => Sys2Proof.Machine.execRemoteMaskedWrite p s
  | .remoteLoadRequest p => Sys2Proof.Machine.execRemoteLoadRequest p s
  | .remoteAtomicRequest r => Sys2Proof.Machine.execRemoteAtomicRequest r s
  | .remoteAck req data => Sys2Proof.Machine.execRemoteAck req data s
  | .remoteRefusal req cause => Sys2Proof.Machine.execRemoteRefusal req cause s
  | .destinationUnreachable peer => Sys2Proof.Machine.execDestinationUnreachable peer s
  | .ackTimeout req => Sys2Proof.Machine.execAckTimeout req s
  | .linkDown die link => Sys2Proof.Machine.execLinkDown die link s
  | .grantRequest die p len isDst => Sys2Proof.Machine.execGrantRequest die p len isDst s
  | .multicastCopy p => Sys2Proof.Machine.execMulticastCopy p s
  | .fredRoundComplete group round others => Sys2Proof.Machine.execFredRoundComplete group round others s
  | .fredRefusal req => Sys2Proof.Machine.execFredRefusal req s
  | .logRingConsumerWrite ctx v => Sys2Proof.Machine.execLogRingConsumerWrite ctx v s
  | .logRingProducerWrite ctx v => Sys2Proof.Machine.execLogRingProducerWrite ctx v s
  | .linkUp die link => Sys2Proof.Machine.execLinkUp die link s
  | .probeAnswer peer => Sys2Proof.Machine.execProbeAnswer peer s
  | .computeSideReset => Sys2Proof.Machine.execComputeSideReset s
  | .thermalLimitReached on => Sys2Proof.Machine.execThermalLimitReached on s
  | .activationEnd => Sys2Proof.Machine.execActivationEnd s
  | .dieToDieWriteArrival id => Sys2Proof.Machine.execDieToDieWriteArrival id s
  | .peerRevokeMessage peer va cause => Sys2Proof.Machine.execPeerRevokeMessage peer va cause s
  | .flowsDrainedReport die entry => Sys2Proof.Machine.execFlowsDrainedReport die entry s

end Sys2Proof.Machine
end

