-- ==== Sys2Proof/Machine/Turns.lean ====
section
/-!
DEFINITION. What a step does around `exec`: which turn comes next, what a turn that runs no instruction does, and the
placing of one instruction where the machine fetches next.
-/
namespace Sys2Proof.Machine

/-- What a turn asks for: an instruction to run in a state, or a state that is the next one. -/
inductive TurnDo
  | run (i : Instr) (s : State)
  | done (s : State)
deriving DecidableEq, Repr, Inhabited

/-- The turn of a step and the state it starts from: the head of the agenda, else the unconstrained choice of
Config.turn (log entry 3). Every step takes a number of its own for the values that are free in it (log entry 4). -/
def State.takeTurn (s : State) : Turn × State :=
  let s : State := ({ s with fresh := s.fresh + 1 } : State).latchDemotions
  match s.agenda with
  | t :: r => (t, { s with agenda := r })
  | [] => (Config.turn s.fresh, s)

/-- A dirty sector of L2 holds an uncorrectable error: it is written back poisoned (R258). -/
def State.badL2 (s : State) (d key : Nat) : State :=
  match find? (s.die d).l2 key with
  | none => s
  | some x =>
    if x.dirty = 0 then s
    else
      let (ok, t) := s.dropL2 d key
      if ok then t.setPoison x.pa (some 1) else s
/-- So is one of L1, through its home slice. -/
def State.badL1 (s : State) (iid key : Nat) : State :=
  match find? (s.inst iid).l1 key with
  | none => s
  | some x =>
    let t := (s.writeback iid key).modInst iid fun i => { i with l1 := i.l1.filter fun p => p.1 != key || p.2.dirty != 0 }
    if x.dirty = 0 || (find? (t.inst iid).l1 key).isSome || s.underway (paDie x.pa) (fun m => m.key == key) then s
    else match find? (t.die (paDie x.pa)).l2 key with
      | some _ => t.badL2 (paDie x.pa) key
      | none => t.setPoison x.pa (some 1)

/-- A turn. An event is one that no word encodes; of an encoded instruction asked for as an event nothing comes. -/
def State.turnDo (s : State) : Turn → TurnDo
  | .seq q =>
    let s : State := { s with focus := some q }
    match s.nextIns q with
    | (some i, s) => .run i s
    | (none, s) => .done s
  | .ev i => if i.ctl.isNone then .run i s else .done s
  | .idle n => .done (({ s with now := s.now + n } : State).idleLanes n).flushRings
  | .evictL1 iid key => .done ((s.writeback iid key).modInst iid fun i =>
      { i with l1 := i.l1.filter fun p => p.1 != key || p.2.dirty != 0 })
  | .flowByte f k => .done (s.flowByte f k)
  | .badL1 iid key => .done (s.badL1 iid key)
  | .badL2 d key => .done (s.badL2 d key)

/-- The header of a clause of one instruction of a length, whose flags A and B are f0 and f1. -/
def oneHeader (len : Len) : Header :=
  { yld := false, land := false, seta := some 0, setb := some 1, wait := 0, size := 1 + (len.bytes + 7) / 8, ni := 1 }

/-- Where `withFetch` puts its clause header. -/
def fetchBase : Nat := 0x1000

/-- Places one instruction: a one-thread compute instance on core 0 in the middle of a clause whose next instruction is
it, its sector in the core's instruction cache, and partition 0 of core 0 as the next to issue (log entry 6). -/
def State.withFetch (s : State) (w : Nat) : State :=
  let len := (lenOf w).getD .l64
  let h := oneHeader len
  let iid := s.nextId
  let hdrAt : DWord := BitVec.ofNat 64 fetchBase
  let th : Thread := { pc := hdrAt + 8, warp := s.nextId + 1 }
  let inst : Inst :=
    { kind := .stage, ctx := 1, launch := 0, stage := 0, core := 0, no := 0, gang := 1, threads := 1
      ths := [(0, th)], hws := [(0, { n := 256, vb := 0 })]
      warps := [{ id := s.nextId + 1, tids := [0], passed := 0, demoted := false, sibs := 0, spins := [] }] }
  let issue : Issue :=
    { q := .part 0 0, iid, hdrAt, hdr := h, addr := hdrAt + 8, idx := 0, slot := 0, lanes := [⟨0, 0, true⟩] }
  let sec : L1Sec :=
    { data := leBytes 8 h.encode ++ leBytes 16 w ++ leBytes 8 0, have_ := BitVec.allOnes 32, dirty := 0
      rights := ⟨true, false, true, true⟩, pa := fetchBase, major := 0, minor := 0 }
  let s := s.modCtx 1 fun c => { c with ccb := { c.ccb with asid := 1, sasid := 0 } }
  let s := s.modCluster 0 fun k => { k with owner := some 1 }
  let s := s.modCore 0 fun k => { k with icache := sput k.icache (secKey 1 fetchBase) sec }
  { s with
    nextId := s.nextId + 2
    insts := sput s.insts iid inst
    issues := (s.issues.filter fun (x : Issue) => x.q != .part 0 0) ++ [issue]
    agenda := [.seq (.part 0 0)] }

end Sys2Proof.Machine
end

