-- ==== Sys2Proof/Machine/Step.lean ====
section
/-! DEFINITION. One step of the module, and the placing of an instruction that the next step fetches and runs. -/
namespace Sys2Proof.Machine

/-- One step: a turn is chosen, and the instruction it asks for runs. -/
def step (s : State) : Host.Outcome State Fault Refusal :=
  match s.takeTurn with
  | (t, s) =>
    match s.turnDo t with
    | .run i s => exec i s
    | .done s => .next s

/-- The state with one instruction placed where the next step fetches (log entry 6). -/
def State.withFetchWord (s : State) (nbits w : Nat) : State := s.withFetch (w % 2 ^ nbits)

end Sys2Proof.Machine
end

