-- ==== Sys2Proof/Machine/Ordering.lean ====
section
/-!
DEFINITION. The ordering model of R235 to R251: executions of finitely many events, the relations between the events, and the axioms
that decide which outcomes are allowed. The machine of the other files takes one step after another, so its runs are some of these
executions; what a run of it does not show, this file says (log entry 40).
-/
namespace Sys2Proof.Machine

/-! ### Relations over numbered events -/

/-- A relation over the events 0, 1, …: for each event the set of the events that it relates to, as the bits of a number. -/
abbrev ERel := List Nat

def ERel.has (m : ERel) (a b : Nat) : Bool := (m.getD a 0).testBit b

/-- The relation on n events that holds where `f` says. -/
def ERel.of (n : Nat) (f : Nat → Nat → Bool) : ERel :=
  (List.range n).map fun a => (List.range n).foldl (fun acc b => if f a b then acc ||| 2 ^ b else acc) 0

def ERel.or (m k : ERel) : ERel := List.zipWith (· ||| ·) m k

/-- The transitive closure: paths through event 0, then through 1 as well, and so on. -/
def ERel.closure (m : ERel) : ERel :=
  (List.range m.length).foldl (fun m k => m.map fun row => if row.testBit k then row ||| m.getD k 0 else row) m

def ERel.acyclic (m : ERel) : Bool := (List.range m.length).all fun a => !m.closure.has a a

/-! ### Agents and scopes -/

/-- What an agent is (R235): a thread, a Guide, the thread of a steward core, a copy engine with whether its flow's destination is
a store location of the issuing instance, or a matrix engine. -/
inductive AgentKind
  | thread
  | guide
  | steward
  | flow (local_ : Bool)
  | pass
deriving DecidableEq, Repr, Inhabited

/-- Whether an agent is an engine, whose events have no program order. -/
def AgentKind.engine : AgentKind → Bool
  | .flow _ | .pass => true
  | _ => false

/-- Where an agent stands; a flow and a pass stand where the thread stands that issued them (R237, R239). Clusters, instances and threads have
numbers of their own in the module, flows and passes too; `tenant` names the virtual function's instance of .tn; `issuer` the thread
of a flow, or the Guide where `byGuide` holds, `claim` its claim; `peer` says that a flow's destination is a peer (R234), `limited` that
the agent's virtual function performs a .sy event at .tn (R253). -/
structure Agent where
  kind    : AgentKind
  id      : Nat
  modNo   : Nat := 0
  die     : Nat := 0
  cluster : Nat := 0
  inst    : Nat := 0
  hw      : Nat := 0
  tenant  : Nat := 0
  groups  : List Nat := [0]
  issuer  : Nat := 0
  claim   : Nat := 0
  byGuide : Bool := false
  peer    : Bool := false
  limited : Bool := false
deriving DecidableEq, Repr, Inhabited

/-- Whether b lies in a's scope instance at a scope (R237, R239). Group 0 stands for the instance group, of which the Guide is a
member too (R151). -/
def Agent.covers (s : Scope) (a b : Agent) : Bool :=
  let here := a.modNo == b.modNo
  let same := here && a.inst == b.inst
  match s with
  | .sy => true
  | .pk => here
  | .tn => here && a.tenant == b.tenant
  | .di => here && a.die == b.die
  | .cl =>
    match a.kind, b.kind with
    | .steward, _ | _, .steward => a == b
    | _, _ => here && a.cluster == b.cluster
  | .co =>
    match a.kind, b.kind with
    | .steward, _ | _, .steward => a == b
    | .flow x, .flow y => same && x && y
    | .flow x, _ | _, .flow x => same && x
    | _, _ => same
  | .gr =>
    match a.kind, b.kind with
    | .steward, _ | _, .steward => a == b
    | .flow x, _ | _, .flow x => same && x
    | .pass, _ | _, .pass => same
    | _, _ => same && a.groups.any b.groups.contains
  | .wp =>
    match a.kind, b.kind with
    | .thread, .thread => same && a.hw == b.hw
    | .flow x, _ | _, .flow x => same && x
    | .pass, _ | _, .pass => same
    | _, _ => a == b
  | .th =>
    match a.kind, b.kind with
    | .flow x, _ | _, .flow x => same && x
    | .pass, _ | _, .pass => same
    | _, _ => a == b

/-! ### Events (R235, R236) -/

/-- A location is one byte (R236): of memory, by tag ASID and VA; of a store region of a core; or a stream position of a FIFO. -/
inductive Place
  | mem (tag va : Nat)
  | store (core region off : Nat)
  | fifo (cluster ff pos : Nat)
deriving DecidableEq, Repr, Inhabited

def Place.isStore : Place → Bool
  | .mem .. => false
  | _ => true

/-- How two events of the table of R241 belong together; and that of a LAUNCH and the start of its instances (R305). -/
inductive Meet
  | group
  | electRel
  | decision
  | stageQueue
  | launch
  | flag
  | flwait (s : Scope)
  | mwait
deriving DecidableEq, Repr, Inhabited

/-- The kinds of R235. `init` is the initial value of the bytes it covers (R240). `post` and `take` are the releases and the acquires of the
pairs of R241, `save` and `restore` those of a moved instance (R251). -/
inductive EvKind
  | init
  | read
  | write
  | rmw
  | rel (s : Scope)
  | acq (s : Scope)
  | fence (s : Scope)
  | issue
  | completion
  | post (m : Meet)
  | take (m : Meet)
  | save (s : Scope)
  | restore (s : Scope)
deriving DecidableEq, Repr, Inhabited

/-- The events that an instruction makes in its own thread where its guard is true (R235, R241): their kinds, each with how many there are,
or none where that depends on the run. -/
def evKinds : Instr → List (EvKind × Option Nat)
  | .ld .. | .lds .. | .ldt .. => [(.read, some 1)]
  | .ldm _ n _ _ => [(.read, some n)]
  | .st .. | .sts .. => [(.write, some 1)]
  | .stm _ n _ _ => [(.write, some n)]
  | .mst .. | .mcast .. => [(.write, none)]
  | .atom .. | .atomcas .. | .atoms .. | .atomscas .. | .red .. => [(.rmw, some 1)]
  | .rel _ s => [(.rel s, some 1)]
  | .acq _ s => [(.acq s, some 1)]
  | .fence _ s => [(.fence s, some 1)]
  | .claimNew .. | .claimUse .. | .flowReg .. | .flowImm .. | .mma .. | .mmaj .. => [(.issue, some 1)]
  | .bar .. | .gred .. | .gbcast .. => [(.post .group, some 1), (.take .group, some 1)]
  | .elect .. => [(.post .group, some 1), (.take .group, some 1), (.take .electRel, none)]
  | .electRel .. => [(.post .electRel, some 1)]
  | .dqpush .. => [(.post .decision, some 1)]
  | .dqpop .. => [(.take .decision, none)]
  | .sqpush .. => [(.post .stageQueue, some 1)]
  | .sqpop .. => [(.take .stageQueue, none)]
  | .flwait _ _ s => [(.take (.flwait s), some 1)]
  | .mwait .. | .mwaitAll .. => [(.take .mwait, some 1)]
  | .launch .. => [(.rel .pk, some 1), (.post .launch, some 1)]
  | _ => []

/-- The bytes of the one access of an instruction, or of each of its accesses. -/
def evBytes : Instr → Option Nat
  | .ld _ ty _ _ | .st _ ty _ _ | .lds _ ty _ | .sts _ ty _ => some (match ty with
      | .i8 | .n8 => 1
      | .i16 | .n16 | .f16 | .bf16 => 2
      | .i64 | .n64 => 8
      | _ => 4)
  | .ldm .. | .stm .. => some 4
  | .atom _ _ ty _ | .atomcas _ ty _ | .atoms _ _ ty _ | .atomscas _ ty _ | .red _ _ ty _ _ => some (atyBytes ty)
  | _ => none

def isClaimIns : Instr → Bool
  | .claimNew .. | .claimUse .. => true
  | _ => false
def isMmaIns : Instr → Bool
  | .mma .. | .mmaj .. => true
  | _ => false
/-- The scope that a FLOW names. -/
def flowScopeOf : Instr → Option Scope
  | .flowReg _ _ s _ | .flowImm _ _ s _ _ _ => some s
  | _ => none

/-- What a party does, in the order of its slots: an instruction, with whether its guard is true and the thread active, the start
of a clause that waits on a flag, or the start of a launched instance. -/
inductive Act
  | ins (i : Instr) (on : Bool)
  | wait
  | begins
deriving DecidableEq, Repr, Inhabited

structure Party where
  agent : Agent
  acts  : List Act
deriving DecidableEq, Repr, Inhabited

/-- An event: its agent, the bytes it touches, and the place of its act among its party's. `links` holds what it belongs to: for an issue the
claim, or the flow or pass that it starts; for a wait the flows and passes whose flag it waits on; for a `post` and a `take` the
operation, record or launch. `ready` holds the flows whose committed positions the MRDY counted that a wait waits for; `epoch` says how often
its instance has moved. -/
structure Event where
  agent : Agent
  kind  : EvKind
  locs  : List Place := []
  slot  : Nat := 0
  links : List Nat := []
  ready : List Nat := []
  epoch : Nat := 0
deriving DecidableEq, Repr, Inhabited

def Event.reads (e : Event) : Bool := e.kind == .read || e.kind == .rmw
def Event.writes (e : Event) : Bool := e.kind == .init || e.kind == .write || e.kind == .rmw
def Event.accesses (e : Event) : Bool := e.kind == .read || e.kind == .write || e.kind == .rmw
/-- The save or the restore of an instance. -/
def Event.moves (e : Event) : Bool := match e.kind with | .save _ | .restore _ => true | _ => false

/-- The scope at which an event that names a scope is performed: .tn for .sy where its virtual function is limited (R253). -/
def Event.effective (e : Event) (s : Scope) : Scope := if e.agent.limited && s == .sy then .tn else s
/-- The scope at which an event is a release, or an acquire (R147, R241). -/
def Event.relAt (e : Event) : Option Scope := match e.kind with | .rel s | .fence s => some (e.effective s) | _ => none
def Event.acqAt (e : Event) : Option Scope := match e.kind with | .acq s | .fence s => some (e.effective s) | _ => none

/-- Whether an agent is the thread, or the Guide, that issued a flow. -/
def Agent.issued (a f : Agent) : Bool := a.kind == (if f.byGuide then .guide else .thread) && a.id == f.issuer

/-- A release at .cl or wider: a REL or FENCE that names one, or an SQPUSH, which is a release at package scope (R161). -/
def Event.wideRelease (e : Event) : Bool :=
  (e.relAt.map [Scope.cl, .di, .tn, .pk, .sy].contains).getD false || e.kind == .post .stageQueue

/-- An execution (R235, R240): its parties, its events, numbered by their places, reads-from as (byte, write, read), and coherence as
each byte's writes from the first to the last. -/
structure Execution where
  parties : List Party := []
  evs   : List Event
  rf    : List (Place × Nat × Nat)
  co    : List (Place × List Nat)
deriving DecidableEq, Repr, Inhabited

namespace Ordering

def ev (x : Execution) (a : Nat) : Event := x.evs.getD a default
def size (x : Execution) : Nat := x.evs.length

/-- The party of an event, and its act. -/
def partyOf (x : Execution) (e : Event) : Option Party := x.parties.find? fun p => p.agent.kind == e.agent.kind && p.agent.id == e.agent.id
def actOf (x : Execution) (e : Event) : Option Act := (partyOf x e).bind fun p => p.acts[e.slot]?
def insOf (x : Execution) (e : Event) : Option Instr := match actOf x e with
  | some (.ins i _) => some i
  | _ => none
/-- The instruction that started a flow or a pass. -/
def startOf (x : Execution) (g : Agent) : Option Instr :=
  (x.evs.find? fun e => e.kind == .issue && e.links.contains g.id && (match insOf x e with
    | some i => !isClaimIns i
    | none => false)).bind (insOf x)

/-- Single-copy atomic accesses (R236): a naturally aligned load or store of 1, 2, 4 or 8 bytes, a word of an LDM or STM, an atomic. -/
def single (x : Execution) (e : Event) : Bool :=
  e.kind == .rmw || match insOf x e with
    | some i => (match i with
      | .ldm .. | .stm .. => true
      | .ld .. | .st .. | .lds .. | .sts .. =>
        let n := e.locs.length
        let first := match e.locs.head? with
          | some (.mem _ va) => va
          | some (.store _ _ o) => o
          | _ => 0
        (n == 1 || n == 2 || n == 4 || n == 8) && first % n == 0
      | _ => false) && e.accesses && !e.agent.kind.engine
    | none => false

/-! ### The relations (R240) -/

def sameParty (a b : Event) : Bool := a.agent.kind == b.agent.kind && a.agent.id == b.agent.id && !a.agent.kind.engine && !a.moves && !b.moves
/-- Program order: the slots of one thread, an arrival before the release of its own operation; a move of an instance stands between
what its threads and its Guide do before it and after it (R251). -/
def poRel (x : Execution) : ERel :=
  let own (a b : Event) : Bool := a.agent.modNo == b.agent.modNo && a.agent.inst == b.agent.inst
  (ERel.of (size x) fun a b =>
    let e := ev x a
    let f := ev x b
    let pt := match e.kind, f.kind with
      | .post _, .take _ => true
      | _, _ => false
    e.kind != .init && f.kind != .init &&
      ((sameParty e f && (decide (e.slot < f.slot) || (e.slot == f.slot && pt))) ||
        (own e f && f.moves && !e.moves && !e.agent.kind.engine && decide (e.epoch ≤ f.epoch)) ||
        (own e f && e.moves && !f.agent.kind.engine && decide (e.epoch < f.epoch)))).closure
/-- Engine order. -/
def eoRel (x : Execution) : ERel :=
  ERel.of (size x) fun a b =>
    let e := ev x a
    let f := ev x b
    let claim := ((insOf x e).map isClaimIns).getD false
    (e.kind == .issue && f.agent.kind.engine && f.accesses &&
        (if claim then f.agent.kind != .pass && e.links.contains f.agent.claim else e.links.contains f.agent.id)) ||
      (e.agent.kind.engine && e.accesses && f.kind == .completion && f.agent == e.agent)

/-- The registers and predicates that an instruction reads and writes, its guard among them: vector registers, scalar ones from 256 on,
predicates from 512 on. Predicate 0 carries nothing (R8). -/
def regsRead (g : Bool) (i : Instr) : List Nat :=
  let u := i.uses g
  let base := if (i.ctl.map (·.once)).getD false then 256 else 0
  let all (b : Nat) (r : RU) : List Nat := (List.range r.n).map (b + r.first + ·)
  (u.src ++ u.vs.map (·.2)).flatMap (all base) ++
    (match u.bs with
      | some (.vec _ _, r) => all base r
      | some (.sca _, r) => all 256 r
      | _ => []) ++
    ((u.ps ++ (i.ctl.map (·.gp)).toList).filter (· != 0)).map (512 + ·)
def regsWritten (g : Bool) (i : Instr) : List Nat :=
  let u := i.uses g
  let base := if (i.ctl.map (·.once)).getD false then 256 else 0
  u.dst.flatMap (fun r => (List.range r.n).map (base + r.first + ·)) ++ (u.pd.filter (· != 0)).map (512 + ·)
/-- Whether the act n places on takes an input, its guard, a branch or an indirect target before it from one of these registers. -/
def depends (g : Bool) : List Nat → Bool → List Act → Nat → Bool
  | _, _, [], _ => false
  | from_, branch, act :: r, n =>
    match act with
    | .ins i on =>
      let hit := branch || (regsRead g i).any from_.contains
      if n = 0 then hit
      else
        let to_ := if !on then from_ else if hit then from_ ++ regsWritten g i else from_.filter fun k => !(regsWritten g i).contains k
        depends g to_ (branch || (hit && i.cls == .x)) r (n - 1)
    | _ => if n = 0 then branch else depends g from_ branch r (n - 1)
/-- Dependencies: a later event of the thread whose address, data, guard, or a branch before it, is computed from what the read wrote. -/
def depRel (x : Execution) : ERel :=
  ERel.of (size x) fun a b =>
    let e := ev x a
    let f := ev x b
    e.reads && sameParty e f && decide (e.slot < f.slot) && (match partyOf x e, insOf x e with
      | some p, some i => let g := p.agent.kind == .guide; depends g (regsWritten g i) false (p.acts.drop (e.slot + 1)) (f.slot - e.slot - 1)
      | _, _ => false)

def rfRel (x : Execution) : ERel := ERel.of (size x) fun a b => x.rf.any fun e => e.2 == (a, b)
def coOf (x : Execution) (l : Place) : List Nat := ((x.co.find? fun e => e.1 == l).map (·.2)).getD []
/-- Whether write a comes before write b in the coherence order of a byte. -/
def coBefore (x : Execution) (l : Place) (a b : Nat) : Bool :=
  let ws := coOf x l
  ws.contains a && ws.contains b && decide (ws.idxOf a < ws.idxOf b)
def coRel (x : Execution) : ERel := ERel.of (size x) fun a b => x.co.any fun e => coBefore x e.1 a b
/-- Read a is before write w when it reads from a write that is co-before w. -/
def frRel (x : Execution) : ERel :=
  ERel.of (size x) fun a w => a != w && x.rf.any fun e => e.2.2 == a && coBefore x e.1 e.2.1 w

/-! ### Synchronisation (R238, R241) -/

/-- Each event's agent lies within the other event's scope instance (R238). -/
def compatible (x : Execution) (a : Nat) (s : Scope) (b : Nat) (t : Scope) : Bool :=
  (ev x a).agent.covers s (ev x b).agent && (ev x b).agent.covers t (ev x a).agent

/-- The scope at which a flow's writes are released: the one that its FLOW names, .sy whatever it names where the destination is a peer,
and for both what the virtual function's policy makes of it (R234, R253). -/
def flowScope (x : Execution) (e : Event) : Scope :=
  e.effective (if e.agent.peer then .sy else ((startOf x e.agent).bind flowScopeOf).getD .th)

/-- The pairs of the table of R241 that two events form: the scopes of the release and of the acquire. -/
def meets (x : Execution) (a b : Nat) : List (Scope × Scope) :=
  let e := ev x a
  let f := ev x b
  let linked := e.links.any f.links.contains
  let named := f.links.contains e.agent.id
  let scope := flowScope x e
  match e.kind, f.kind with
  | .post m, .take n =>
    if m != n || !linked then []
    else match m with
      | .group | .electRel => [(.gr, .gr)]
      | .decision => [(.co, .co)]
      | .stageQueue | .launch => [(.pk, .pk)]
      | _ => []
  | .save s, .restore t => if s == t && linked then [(s, t)] else []
  | .completion, .take m =>
    if e.agent.kind == .pass then (if named && (m == .flag || m == .mwait) then [(.co, .co)] else [])
    else (match m with
      | .flag => if named then [(scope, .co)] else []
      | .flwait t => if named then [(scope, f.effective t)] else []
      | _ => []) ++ if m == .flag && f.ready.contains e.agent.id then [(.cl, .cl)] else []
  | .completion, .read =>
    if e.agent.kind != .pass && f.agent.kind == .pass &&
        x.rf.any (fun r => r.2.2 == b && (ev x r.2.1).agent == e.agent && (match r.1 with | .fifo .. => true | _ => false))
    then [(.cl, .cl)] else []
  | _, _ => []

/-- The writes that read c takes its value from: directly, or through a chain of read-modify-writes (R241). -/
def chained (x : Execution) (w c : Nat) : Bool :=
  (rfRel x).has w c ||
    (List.range (size x)).any fun u => (ev x u).kind == .rmw &&
      (ERel.of (size x) fun a b => (ev x b).kind == .rmw && (rfRel x).has a b).closure.has w u && (rfRel x).has u c

/-- The fence pattern of R241 for a release a, an acquire b, a write w and the pairing read c. -/
def fencePattern (x : Execution) (a b w c : Nat) : Bool :=
  match (ev x a).relAt, (ev x b).acqAt with
  | some s, some t =>
    compatible x a s b t && (ev x w).writes && (ev x c).reads && (a == w || (poRel x).has a w) && (b == c || (poRel x).has c b) &&
      chained x w c
  | _, _ => false

/-- Synchronises-with (R241). -/
def sw (x : Execution) : ERel :=
  let evs := List.range (size x)
  ERel.of (size x) fun a b =>
    ((meets x a b).any fun p => compatible x a p.1 b p.2) || (evs.any fun w => evs.any fun c => fencePattern x a b w c)

/-- Happens-before, causal order and extended coherence (R240). The edges that causal order adds are those from a write to an acquire's
pairing read. -/
def hb (x : Execution) : ERel := (((poRel x).or (eoRel x)).or (sw x)).closure
def pairing (x : Execution) : ERel :=
  let evs := List.range (size x)
  ERel.of (size x) fun w c => (rfRel x).has w c && evs.any fun a => evs.any fun b => evs.any fun v => fencePattern x a b v c
def cause (x : Execution) : ERel := ((hb x).or (pairing x)).closure
def eco (x : Execution) : ERel := (((rfRel x).or (coRel x)).or (frRel x)).closure

/-! ### Which lists are executions -/

/-- Whether an event is one that its act makes (R235, R32): an engine reads, writes and completes, and some instruction started it. -/
def made (x : Execution) (e : Event) : Bool :=
  if e.kind == .init || e.moves then true
  else if e.agent.kind.engine then
    (e.kind == .read || e.kind == .write || e.kind == .completion) && (match startOf x e.agent with
      | some i => if e.agent.kind == .pass then isMmaIns i else (flowScopeOf i).isSome
      | none => false)
  else match actOf x e with
    | some (.ins i on) => on && ((evKinds i).any fun k => k.1 == e.kind) && (!e.accesses || (evBytes i).all fun n => e.locs.length == n)
    | some .wait => e.kind == .take .flag
    | some .begins => e.kind == .take .launch
    | none => false
/-- Whether every act has made its events. -/
def complete (x : Execution) : Bool :=
  x.parties.all fun p => (List.range p.acts.length).all fun k => match p.acts[k]? with
    | some (.ins i true) => (evKinds i).all fun d => d.2.all fun n =>
        (x.evs.filter fun e => e.agent.kind == p.agent.kind && e.agent.id == p.agent.id && e.slot == k && e.kind == d.1).length == n
    | _ => true

/-- The execution is one: every byte that an event reads takes its value from exactly one write to that byte; the coherence order of a byte lists its writes
once each, the initial one first; its events are those that its parties' acts and its engines make. -/
def formed (x : Execution) : Bool :=
  let n := size x
  let evs := List.range n
  let locs := (x.evs.flatMap (·.locs)).eraseDups
  (evs.all fun a => !(ev x a).reads || (ev x a).locs.all fun l =>
    (x.rf.filter fun e => e.1 == l && e.2.2 == a).length == 1) &&
  (x.rf.all fun e => (ev x e.2.1).writes && (ev x e.2.1).locs.contains e.1 && (ev x e.2.2).reads && (ev x e.2.2).locs.contains e.1 &&
    decide (e.2.1 < n) && decide (e.2.2 < n) && e.2.1 != e.2.2) &&
  (locs.all fun l =>
    let ws := evs.filter fun a => (ev x a).writes && (ev x a).locs.contains l
    decide ((coOf x l).Nodup) && (coOf x l).all ws.contains && ws.all (coOf x l).contains &&
      (ws.all fun a => (ev x a).kind != .init || (coOf x l).head? == some a)) &&
  (x.co.map (·.1)).all locs.contains && x.evs.all (made x) && complete x

/-! ### The axioms -/

/-- R236: two single-copy atomic writes stand in one order on all the bytes that both touch, and a single-copy atomic read that takes one
byte from a single-copy atomic write takes no other byte that both touch from an older write. -/
def singleCopy (x : Execution) : Bool :=
  (x.rf.all fun e => !(single x (ev x e.2.1) && single x (ev x e.2.2)) || x.rf.all fun f => f.2.2 != e.2.2 ||
    !((ev x e.2.1).locs.contains f.1) || !coBefore x f.1 f.2.1 e.2.1) &&
  x.co.all fun p => x.co.all fun q => p.2.all fun a => p.2.all fun b =>
    !(single x (ev x a) && single x (ev x b) && coBefore x p.1 a b) || !coBefore x q.1 b a

/-- A store of the thread or Guide that issued flow read c which no release at .cl or wider separates from the FLOW: the flow may not see
it, since it reads a memory byte at its home slice (R247). An atomic is performed at the slice. -/
def unseenStore (x : Execution) (w c : Nat) : Bool :=
  let e := ev x w
  let f := ev x c
  (match f.agent.kind with | .flow _ => true | _ => false) && f.reads && !(f.locs.any Place.isStore) && e.kind == .write &&
    e.agent.issued f.agent &&
    !((List.range (size x)).any fun r => (ev x r).wideRelease && (poRel x).has w r &&
      (List.range (size x)).any fun i => (eoRel x).has i c && (poRel x).has r i)
/-- Such a store, or a read of the issuing thread that takes its value from such a store, in the thread's own L1. -/
def unseen (x : Execution) (w c : Nat) : Bool :=
  unseenStore x w c || (x.rf.any fun e => e.2.2 == w && (ev x w).agent.issued (ev x c).agent && unseenStore x e.2.1 c)

/-- Two reads on different dies of which the first takes its value from a write that is not cause-before it: R254's chain across dies
without a release of the writer is allowed, because the rf edge is not in cause (log entry 41). -/
def uncaused (x : Execution) (a b : Nat) : Bool :=
  (ev x a).kind == .read && (ev x b).kind == .read && ((ev x a).agent.modNo, (ev x a).agent.die) != ((ev x b).agent.modNo, (ev x b).agent.die) &&
    x.rf.all fun e => e.2.2 != a || !((eco x).has b e.2.1) || !(cause x).has e.2.1 a

/-- R242: no event happens before an event that is eco-before it. -/
def coherent (x : Execution) : Bool :=
  (List.range (size x)).all fun a => (List.range (size x)).all fun b => !((hb x).has a b && (eco x).has b a) || unseen x a b || uncaused x a b

/-- R243: a read-modify-write follows the write that it reads from at once. -/
def atomic (x : Execution) : Bool :=
  x.rf.all fun e => (ev x e.2.2).kind != .rmw || (coOf x e.1).idxOf e.2.2 == (coOf x e.1).idxOf e.2.1 + 1

/-- R244: cause is acyclic, and no read takes its value from a write that is co-before some write that is cause-before the read. -/
def causal (x : Execution) : Bool :=
  (cause x).acyclic && x.rf.all fun e => (coOf x e.1).all fun w => !(coBefore x e.1 e.2.1 w && (cause x).has w e.2.2) || unseen x w e.2.2

/-- R245: the union of dependencies and reads-from is acyclic. -/
def noThinAir (x : Execution) : Bool := ((depRel x).or (rfRel x)).acyclic

/-- An execution that the axioms allow; an outcome is allowed exactly when one of these produces it (R246). -/
def allowed (x : Execution) : Bool := formed x && singleCopy x && coherent x && atomic x && causal x && noThinAir x

end Ordering
end Sys2Proof.Machine
end

