-- ==== Sys2Proof/Safety.lean ====
section
/-!
DEFINITION. What claims call a safe run, the invariant of the machine's tables, and the words in which claims say that an
instruction issues and what its issue leaves.
-/
namespace Sys2Proof.Machine

/-- A step that neither faults nor refuses. -/
def StepSafe (s : State) : Prop := ∃ t, step s = .next t

/-- The threads that an instruction acts for at its issue: active, with a true guard (R32), under ONCE that of their home warp's
representative (R33). -/
def State.acting (s : State) (is : Issue) (c : Ctl) (l : LaneT) : Prop :=
  l ∈ is.lanes ∧ l.active = true ∧ s.guardAt is c (is.speaker (s.inst is.iid) c l.tid) = true

/-- The sequencer in focus has the clause `is`, and its next instruction `ins` with the fields `c` issues for the whole
formed warp: it is legal there, no acting thread fails check 6 of R41, no flag hazard of R40 is trapped (`unread`: nor that of
a guard predicate in a thread whose guard reads false), and the flag that FSEL names has room (R37). `more` are the registers that the encoding does not name. -/
structure Issues (s : State) (is : Issue) (ins : Instr) (c : Ctl) (more : List RU) : Prop where
  focus : s.issue? = some is
  legal : check5 (s.inst is.iid) is ins = .ok
  names : ∀ l, s.acting is c l → check6 (s.inst is.iid) is ins c more l.tid = none ∧ s.zeroName is ins l.tid = none
  quiet : (s.ctx (s.inst is.iid).ctx).ccb.fhtrap = true → ∀ l, s.acting is c l →
    s.hazardReg (s.inst is.iid) is ins c more l.tid = none ∧ s.scaleReg (s.inst is.iid) is ins c more l.tid = none
  unread : (s.ctx (s.inst is.iid).ctx).ccb.fhtrap = true → ∀ l ∈ is.lanes, l.active = true → c.gp ≠ 0 →
    (s.inst is.iid).hazard (.p (is.speaker (s.inst is.iid) c l.tid) c.gp) = false
  room  : ∀ f, is.flagOf c.fsel = some f → (s.inst is.iid).flagFull ((s.inst is.iid).sets is.lanes) f = false

/-- The step past an issued instruction: it is counted, and the next nominal slot, or the clause's end, follows. -/
def State.past (s : State) (is : Issue) (c : Ctl) : State := (s.account is c).advance c is.q

/-- The issue of a fixed-latency instruction with its results: recorded with their latency, the named flag's count raised. -/
def State.settle (s : State) (is : Issue) (c : Ctl) (lat : Nat) (ps : List Put) : State :=
  match s.fixedFlag is c lat with
  | (t, is') => (t.setIssue (is'.record lat ps)).past is c

/-- The issue of a control transfer: what is left of its clause goes on with the flag of the transfer, which clears at the
clause's end. -/
def State.settleAt (s : State) (is : Issue) (c : Ctl) : State :=
  match s.issues.find? fun (x : Issue) => x.q == is.q with
  | none => s.past is c
  | some is' => match s.fixedFlag is' c 1 with
    | (t, is'') => (t.setIssue is'').past is c

/-- The issue of a variable-latency instruction: its operation is in flight with these parts. -/
def State.inFlight (s : State) (is : Issue) (ins : Instr) (c : Ctl) (parts : List Part) (more : List RU) : State :=
  (s.startOp is ins c parts more).past is c

/-- The locations that a fixed-latency instruction names for its results: the destinations of its encoding in each thread of the
formed warp, or under ONCE in their home warps, and the threads' arithmetic flags; MEET and MOVSR name a special register. -/
def State.named (s : State) (is : Issue) (ins : Instr) (l : Loc) : Bool :=
  let u := ins.uses is.guide
  let i := s.inst is.iid
  let dst (n : Nat) : Bool := u.dst.any fun r => decide (r.first ≤ n) && decide (n < r.first + r.n)
  let mine (t : Nat) : Bool := is.lanes.any fun x => x.tid == t
  match l with
  | .v t n => mine t && dst n
  | .p t n => mine t && u.pd.contains n
  | .s h n => (is.lanes.any fun x => i.hwOf x.tid == h) && dst n
  | .g n => is.guide && dst n
  | .fp t => mine t
  | .seed t | .meet t | .hnd t => mine t && match ins with
    | .meet .. | .meetNone .. | .movsrW .. => true
    | _ => false

/-- Whether an instance has a location: its thread, its home warp; a predicate number is below 48 (R7, R8). -/
def Inst.hasLoc (i : Inst) : Loc → Bool
  | .v t _ => (i.th? t).isSome && (find? i.hws (i.hwOf t)).isSome
  | .p t n => (i.th? t).isSome && decide (n < 48)
  | .seed t | .fp t | .meet t | .hnd t => (i.th? t).isSome
  | .s h _ => (find? i.hws h).isSome
  | .g _ => true

/-- Whether two names are, or may be, of one location: vector registers of one row and lane are (R7). -/
def Inst.sameLoc (i : Inst) : Loc → Loc → Bool
  | .v t n, .v u k => regKey ((i.hw (i.hwOf t)).vb + n) (i.laneOf t) == regKey ((i.hw (i.hwOf u)).vb + k) (i.laneOf u)
  | .p t n, .p u k => t == u && (n == k || decide (48 ≤ n))
  | l, m => l == m

/-- A context that neither records nor replays: its decisions go unlogged (R315). -/
def State.plain (s : State) (ctx : Nat) : Prop := (s.ctx ctx).ccb.recB = false ∧ (s.ctx ctx).ccb.rplB = false

/-- The part of a run with operands read at issue. -/
def partOf (r : Run) (args : List DWord) : Part := { tid := r.t.tid, lane := r.t.lane, args, done := 0, arrived := false }

end Sys2Proof.Machine
end

