-- ==== Sys2Proof/Certificates/Slice0/Obligations.lean ====
section
/-!
DEFINITION. The statements for the provers. `Issues`, `settle`, `settleAt`, `inFlight` and `past` are the words of
Sys2Proof/Safety.lean. Each statement says where its instructions complete and what they leave.
-/
section Statements
open Sys2Proof Sys2Proof.Machine

/-! ### Words, steps, reset -/

/-- R28 to R31: the words of an instruction give the instruction back, with every operand at every value that its encoding
admits, in vector code and in Guide code. -/
def Obligations.DecodeOfEncode : Prop :=
  ∀ (i : Instr) (g : Bool) (len : Len) (w : Nat), i.wf g = true → encode i = some (len, w) →
    decodeNat ⟨true, true, g⟩ w = .ok i

/-- R25, R41: the word of a clause header gives the header back, for every header the encoding admits. -/
def Obligations.HeaderOfEncode : Prop :=
  ∀ h : Header, 1 ≤ h.ni → h.ni < 16 → 2 ≤ h.size → h.size < 64 → (∀ f, h.seta = some f → f < 12) →
    (∀ f, h.setb = some f → f < 12) → decodeHeader h.encode = .ok h

/-- R44: the words of NOP, its effect, and the refusal of its 128-bit form. -/
def Obligations.NopEncodingAndEffect : Prop :=
  (∀ x : DecCtx, decodeNat x 0x0000000000070001 = .ok (.nop { len := .l64, gp := 0, gn := false, once := false, fsel := .none, dly := 0 })) ∧
  (∀ x : DecCtx, decodeNat x 0x0000000000070002 = .ok (.nop { len := .l96, gp := 0, gn := false, once := false, fsel := .none, dly := 0 })) ∧
  (∀ (x : DecCtx) (c : Ctl), c.len = .l128 → c.gp < 48 → c.dly < 4 → c.once = false → (c.fsel = .a → x.sav = true) →
    (c.fsel = .b → x.sbv = true) → (c.raw 0x1C0).decode x = .error 6) ∧
  (∀ (s : State) (is : Issue) (c : Ctl), Issues s is (.nop c) c [] → exec (.nop c) s = .next (s.settle is c 3 []))

/-- The words that R39, R44, R49, R101, R105, R137, R301, R346, R347 and R349 and the program chapters write out decode to what they
stand for, in vector code and in the Guide's; LEN 00 is refused. -/
def Obligations.SpecWordsDecode : Prop :=
  let k (len : Len) (gp : Nat) (gn : Bool) (fsel : FSel) (dly : Nat) : Ctl := { len, gp, gn, once := false, fsel, dly }
  let n64 : Ctl := k .l64 0 false .none 0
  let a64 : Ctl := k .l64 0 false .a 0
  let v (n : Nat) : VSrc := ⟨n, .id⟩
  (∀ x ∈ ([(0x0020050000100001, .iadd n64 ⟨.i32, .rne, false, false⟩ ⟨1, v 0, .imm8 5⟩),
      (0x2400040030220C02 + 0x00000005 * 2 ^ 64, .ffma (k .l96 0 false .none 0) ⟨.f32, .rne, false, false⟩ ⟨2, v 3, .vec 4 .id, v 5⟩),
      (0x24200230B0A2010E + 0x10003000 * 2 ^ 64, .fadd (k .l96 3 true .none 0) ⟨.f32, .rtz, false, false⟩ ⟨10, ⟨11, .dn 3⟩, .imm8 2⟩),
      (0x0020000040150002 + 0x00000202 * 2 ^ 64, .icmp (k .l96 0 false .none 0) .i32 .lt ⟨.set, 1, 2, v 4, .imm8 0⟩),
      (0x0510000011450002 + 0x00000215 * 2 ^ 64, .icmp (k .l96 0 false .none 1) .n32 .lt ⟨.set, 20, 21, v 1, .sca 0⟩),
      (0x28000B00A0150802 + 0x00000400 * 2 ^ 64, .hcmp (k .l96 0 false .none 0) .f16 false .gt .lo ⟨.set, 1, 0, v 10, .vec 11 .id⟩),
      (0x00000B0000D6011D, .mov (k .l64 7 true .none 0) 13 (.vec 11 .id)),
      (0x0000000000070403 + 0x00000008 * 2 ^ 96, .bra (k .l128 0 false .none 0) 8),
      (0x0000000000070407 + 0x00000029 * 2 ^ 96, .bra (k .l128 1 false .none 0) 0x29),
      (0x0000000000071801, .exit n64)] : List (Nat × Instr)), decodeNat ⟨true, true, false⟩ x.1 = .ok x.2) ∧
  (∀ x ∈ ([(0x0C60000040A80051, .ld (k .l64 20 false .a 0) .n16 .none ⟨10, v 4, .imm8 0⟩),
      (0x2440120022680401, .st a64 .f32 .none ⟨38, v 2, .vec 18 .id⟩),
      (0x0C60000061080C51, .stm (k .l64 20 false .a 0) 4 false ⟨16, v 6, .imm8 0⟩),
      (0x0040000000082401, .drainst a64),
      (0x00401A00A1B90059, .atom (k .l64 22 false .a 0) .add .b32 ⟨27, v 10, .vec 26 .id⟩),
      (0x00401A01B1C90801, .atoms a64 .add .b32 ⟨28, v 27, .vec 26 .id⟩),
      (0x00600000004A0801, .bar a64 4 (.imm8 0)),
      (0x0060000181AA1401, .gred a64 .i32 .add ⟨26, v 24, .imm8 0⟩),
      (0x20400000008A1C03 + 0x001A000E * 2 ^ 96, .genOpen (k .l128 0 false .a 0) 2 8 14 26),
      (0x00400000A00A200D, .yield (k .l64 3 false .a 0) 10),
      (0x00400000008C0801, .mrdy a64 0 1 0),
      (0x48402C02800C0002 + 0x00000108 * 2 ^ 64, .mma (k .l96 0 false .a 0) ⟨0, .mxf4, .mxf4, true, 0, 0, 1, 0, 40, 0, 44, 0⟩),
      (0x0C600000114C1001, .mld a64 ⟨20, 4, 1, false, 0⟩)] : List (Nat × Instr)), decodeNat ⟨true, true, false⟩ x.1 = .ok x.2) ∧
  (∀ x ∈ ([(false, 0x00400000200D0001, .claimNew a64 0 .mem .mem 2 0), (true, 0xA0600001400D0001, .claimNew a64 0 .mem .fifo 20 0),
      (false, 0x50700000000D0403 + 0x00000040 * 2 ^ 96, .flowImm (k .l128 0 false .a 0) 0 .cl 0 0 64),
      (true, 0x10400001500D0401, .flowReg a64 0 .cl 21), (false, 0x10400000000D0801, .flwait a64 0 .cl),
      (false, 0x00400000000D0C01, .clrel a64 0), (false, 0x00400000000D1401, .hdrain a64),
      (false, 0x0C400000214D1802 + 0x00000028 * 2 ^ 64, .mcast (k .l96 0 false .a 0) 4 20 2 40),
      (false, 0x00500400A0CD1C01, .fred a64 false .add ⟨12, v 10, .sca 4⟩),
      (false, 0x00400003801E0403 + 0x0040001C * 2 ^ 96, .pairOpen (k .l128 0 false .a 0) 1 56 28 64),
      (false, 0x08600100000E0855, .einjPmis (k .l64 21 false .a 0) (.imm8 1)), (false, 0x04400000000E0401, .pairClose a64),
      (false, 0x0040000020AF0001, .launch a64 ⟨10, v 2⟩), (false, 0x00000000000F0C01, .eret n64),
      (false, 0x08600001400F2801, .intctlResume a64 (v 20) 0)] : List (Bool × Nat × Instr)),
    decodeNat ⟨true, true, x.1⟩ x.2.1 = .ok x.2.2) ∧
  decodeHeader 0x0000000000000004 = .error 2 ∧
  decodeNat ⟨true, true, false⟩ 0x0000000000000004 = .error 2

/-- R23, R24, R41, R45: when the bytes that the sequencer of the next turn fetches decode to an instruction, the step is
`exec` of that instruction, in the state the turn and the fetch leave. The turn takes its number, sets the focus, and keeps for each
demoted path whether its demotion is over (R116); a fetch that is answered leaves what it filled.
Choices: The agenda that names the next turn is the model's own (log 3). -/
def Obligations.StepRunsDecodedInstruction : Prop :=
  ∀ (s t u : State) (q : Seq) (rest : List Turn) (is : Issue) (len : Len) (i : Instr) (b b' : List Byte),
    s.agenda = .seq q :: rest →
    (s.issues.find? fun x => x.q == q) = some is →
    is.stopAt ≠ some is.idx →
    ({ ({ s with fresh := s.fresh + 1 } : State).latchDemotions with agenda := rest, focus := some q } : State).fetch (.fetch is.iid (lowest is.lanes).tid)
      is.iid (lowest is.lanes).tid is.addr.toNat 8 = (.bytes b, t) →
    lenOf (natOf b) = some len →
    is.addr.toNat % 32 + len.bytes ≤ 32 →
    (opcX (field (natOf b) 10 10) (field (natOf b) 58 6) = true → is.hdr.ni ≤ is.idx + 1) →
    (if len.bytes = 8 then (.bytes [], t) else
      t.fetch (.fetch is.iid (lowest is.lanes).tid) is.iid (lowest is.lanes).tid (is.addr.toNat + 8) (len.bytes - 8)) =
      (.bytes b', u) →
    decodeNat (is.hdr.ctx is.guide) (natOf b + natOf b' * 2 ^ 64) = .ok i →
    step s = exec i u

/-- R276, R298: after power-on nothing is placed on any core or saved, no launch, context or claim lives, every die is in world 0, the
boot steward runs at M and the others at S, and no byte of memory is listed.
Choices: The contents of unlisted memory are the model's choice (log 1), as is what every register without a reset value holds (log 2). -/
def Obligations.ResetState : Prop :=
  State.reset.issues = [] ∧ State.reset.ops = [] ∧ State.reset.launches = [] ∧ State.reset.booted = false ∧
  (∀ d, (State.reset.die d).world = 0) ∧ (∀ a, State.reset.byteAt a = unlistedByte) ∧
  State.reset.ctxs = [] ∧ State.reset.saved = [] ∧
  State.reset.claimList = [] ∧ (∀ d, (State.reset.die d).memq = [] ∧ (State.reset.die d).trapq = []) ∧
  (∀ d n, d < 8 → n < 8 → ∃ i, State.reset.inst? (stewardId d n) = some i ∧ i.kind = .steward ∧
    (i.th 0).level = if n = 0 then 2 else 1) ∧
  (∀ k i, State.reset.inst? k = some i → i.kind = .steward ∧ k < 64)

/-- The memory list has its canonical form after reset.
Choices: The form of the memory list is the model's own (log 1). -/
def Obligations.ResetMemoryCanonical : Prop := Memory.wf State.reset.mem = true

/-- Whatever a step does, the memory list keeps its canonical form: rising addresses, no byte that an unlisted address reads
as. So equal memories are equal data in every state that is reached from one with this form.
Choices: The form of the memory list is the model's own (log 1). -/
def Obligations.StepKeepsMemoryCanonical : Prop :=
  ∀ s t : State, Memory.wf s.mem = true → step s = .next t → Memory.wf t.mem = true

/-! ### Registers and memory -/

/-- R7, R8, R9: a register reads the value that was last written to it, cut to its width; p0 reads true whatever is written
to it. Writing one register of an instance leaves every other register of that instance as it was: vector registers whose rows
and lanes differ, and every location of another kind, thread or number. -/
def Obligations.RegisterReadsBack : Prop :=
  ∀ (s : State) (iid : Nat) (x : DWord),
    (∀ t n, (s.writeLoc iid (.v t n) x).readLoc iid (.v t n) = (x.setWidth 32).setWidth 64) ∧
    (∀ t n i th, s.inst? iid = some i → i.th? t = some th → n < 48 →
      (s.writeLoc iid (.p t n) x).readLoc iid (.p t n) = if n = 0 then 1 else if x.getLsbD 0 then 1 else 0) ∧
    (∀ h n i w, s.inst? iid = some i → find? i.hws h = some w →
      (s.writeLoc iid (.s h n) x).readLoc iid (.s h n) = (x.setWidth 32).setWidth 64) ∧
    (∀ n i, s.inst? iid = some i → (s.writeLoc iid (.g n) x).readLoc iid (.g n) = x) ∧
    (∀ t i th, s.inst? iid = some i → i.th? t = some th →
      (s.writeLoc iid (.seed t) x).readLoc iid (.seed t) = (x.setWidth 32).setWidth 64 ∧
      (s.writeLoc iid (.fp t) x).readLoc iid (.fp t) = (x.setWidth 5).setWidth 64 ∧
      (s.writeLoc iid (.meet t) x).readLoc iid (.meet t) = x ∧
      (s.writeLoc iid (.hnd t) x).readLoc iid (.hnd t) = if x.getLsbD 0 then 1 else 0) ∧
    (∀ l m : Loc, l ≠ m →
      (∀ t n u k, l = .v t n → m = .v u k →
        regKey (((s.inst iid).hw ((s.inst iid).hwOf t)).vb + n) ((s.inst iid).laneOf t) ≠
          regKey (((s.inst iid).hw ((s.inst iid).hwOf u)).vb + k) ((s.inst iid).laneOf u)) →
      (∀ t n k, l = .p t n → m = .p t k → n < 48 ∧ k < 48) →
      (s.writeLoc iid l x).readLoc iid m = s.readLoc iid m)

/-- R2: bytes read back as they were written, and a write changes no byte outside those it writes. -/
def Obligations.MemoryReadsBack : Prop :=
  ∀ (s : State) (pa : Nat) (bs : List Byte),
    (s.setBytes pa bs).bytesAt pa bs.length = bs ∧
    ∀ a, a < pa ∨ pa + bs.length ≤ a → (s.setBytes pa bs).byteAt a = s.byteAt a

/-- R39: within a clause a fixed-latency result is read from the nominal slot on at which it is readable, one slot later
through a permutation; before that the location reads as it did, and a later writer's readable result comes before an
earlier one's. -/
def Obligations.ReadOldRule : Prop :=
  ∀ (s : State) (is : Issue) (l : Loc) (need lat : Nat) (w : FWrite),
    (s.inst is.iid).hazard l = false → w.loc = l → w.raise = false →
    (w.slot + w.lat + need ≤ is.slot → s.readFixed { is with writes := w :: is.writes } l need = w.val) ∧
    (is.slot < w.slot + w.lat + need →
      s.readFixed { is with writes := w :: is.writes } l need = s.readFixed is l need) ∧
    (∀ ps : List Put, (∀ p ∈ ps, p.loc ≠ l) → s.readFixed (is.record lat ps) l need = s.readFixed is l need)

/-! ### Integer, logic and address arithmetic -/

/-- R61, R85, R86: every fixed-latency integer instruction settles with the exact result of each element, wrapped or
saturated once, in the destination of every run. -/
def Obligations.IntegerResults : Prop :=
  ∀ (s : State) (is : Issue) (c : Ctl) (m : Mods) (o1 : O1) (o2 : O2) (o3 : O3),
    (∀ x ∈ ([(.iabs c m o1, fun a => (a.natAbs : Int)), (.ineg c m o1, fun a => -a)] : List (Instr × (Int → Int))),
      Issues s is x.1 c [] → exec x.1 s = .next (s.settle is c 3 ((s.runs is c).flatMap fun r =>
        s.dst is r m.ty.wide o1.d (intOp m.ty m.sat (fun a _ _ => x.2 a) (s.srcV is r m.ty.wide o1.a) 0 0)))) ∧
    (∀ x ∈ ([(.iadd c m o2, 3, fun a b => a + b), (.isub c m o2, 3, fun a b => a - b), (.imul c m o2, 5, fun a b => a * b),
        (.imulhi c m o2, 5, fun a b => a * b / (2 ^ Ty.elemBits m.ty : Nat)), (.imin c m o2, 3, min), (.imax c m o2, 3, max)] :
        List (Instr × Nat × (Int → Int → Int))),
      Issues s is x.1 c [] → exec x.1 s = .next (s.settle is c x.2.1 ((s.runs is c).flatMap fun r =>
        s.dst is r m.ty.wide o2.d (intOp m.ty m.sat (fun a b _ => x.2.2 a b) (s.srcV is r m.ty.wide o2.a)
          (s.srcB is r m.ty o2.b) 0)))) ∧
    (∀ x ∈ ([(.imad c m o3, 5, fun a b c => a * b + c), (.iclamp c m o3, 3, fun a b c => min (max a b) c),
        (.isad c m o3, 3, fun a b c => ((a - b).natAbs : Int) + c)] : List (Instr × Nat × (Int → Int → Int → Int))),
      Issues s is x.1 c [] → exec x.1 s = .next (s.settle is c x.2.1 ((s.runs is c).flatMap fun r =>
        s.dst is r m.ty.wide o3.d (intOp m.ty m.sat x.2.2 (s.srcV is r m.ty.wide o3.a)
          (s.srcB is r m.ty o3.b) (s.srcV is r m.ty.wide o3.c)))))

/-- R61, R62, R86: what the element functions above give. Of 32-bit and 64-bit words, addition, subtraction and multiplication are
those of bit vectors; of packed halves and bytes each element wraps by itself; saturation clamps the exact sum. Quotients truncate toward zero, remainders
take the sign of the dividend; a division by zero gives all ones and leaves the dividend as the remainder; the most negative number
over -1 wraps. -/
def Obligations.IntegerArithmetic : Prop :=
  (∀ a b : DWord,
    (∀ ty, ty = Ty.i32 ∨ ty = Ty.n32 →
      intOp ty false (fun a b _ => a + b) a b 0 = (a.setWidth 32 + b.setWidth 32).setWidth 64 ∧
      intOp ty false (fun a b _ => a - b) a b 0 = (a.setWidth 32 - b.setWidth 32).setWidth 64 ∧
      intOp ty false (fun a b _ => a * b) a b 0 = (a.setWidth 32 * b.setWidth 32).setWidth 64) ∧
    (∀ ty, ty = Ty.i64 ∨ ty = Ty.n64 →
      intOp ty false (fun a b _ => a + b) a b 0 = a + b ∧ intOp ty false (fun a b _ => a - b) a b 0 = a - b ∧
      intOp ty false (fun a b _ => a * b) a b 0 = a * b) ∧
    (∀ k, k < 2 → elemAt 16 (intOp .n16 false (fun a b _ => a + b) a b 0) k = (elemAt 16 a k + elemAt 16 b k) % 2 ^ 16) ∧
    (∀ k, k < 4 → elemAt 8 (intOp .n8 false (fun a b _ => a + b) a b 0) k = (elemAt 8 a k + elemAt 8 b k) % 2 ^ 8) ∧
    (intOp .i32 true (fun a b _ => a + b) a b 0).toNat =
      (max (-2 ^ 31) (min (2 ^ 31 - 1) ((a.setWidth 32).toInt + (b.setWidth 32).toInt)) % 2 ^ 32).toNat ∧
    (intOp .n32 true (fun a b _ => a - b) a b 0).toNat = a.toNat % 2 ^ 32 - b.toNat % 2 ^ 32) ∧
  (∀ a b : BitVec 32,
    (intQuot .i32 false (a.setWidth 64) (b.setWidth 64)).setWidth 32 = (if b = 0 then BitVec.allOnes 32 else a.sdiv b) ∧
    (intRem .i32 (a.setWidth 64) (b.setWidth 64)).setWidth 32 = a.srem b ∧
    (intQuot .n32 false (a.setWidth 64) (b.setWidth 64)).setWidth 32 = (if b = 0 then BitVec.allOnes 32 else a / b) ∧
    (intRem .n32 (a.setWidth 64) (b.setWidth 64)).setWidth 32 = a % b)

/-- R87: LEA settles, and never faults, with the wrapped sum of the pair A and the index, extended by the type's signedness
and scaled by its element size. -/
def Obligations.LeaForms : Prop :=
  ∀ (s : State) (is : Issue) (c : Ctl) (m : Mods) (o : O2) (size : Nat), Issues s is (.lea c m o) c [] →
    (m.ty, size) ∈ [(Ty.i8, 1), (.n8, 1), (.i16, 2), (.n16, 2), (.i32, 4), (.n32, 4), (.i64, 8), (.n64, 8)] →
    exec (.lea c m o) s = .next (s.settle is c 3 ((s.runs is c).flatMap fun r =>
      s.dst is r true o.d (s.srcV is r true o.a +
        (if m.ty ∈ [Ty.i8, .i16, .i32, .i64] then ((s.srcB is r .i32 o.b).setWidth 32).signExtend 64
         else ((s.srcB is r .i32 o.b).setWidth 32).setWidth 64) * BitVec.ofNat 64 size)))

/-- R88 to R91: every logic instruction settles with its function of the operands, cut to the type's width. -/
def Obligations.LogicResults : Prop :=
  ∀ (s : State) (is : Issue) (c : Ctl) (ty : Ty) (o1 : O1) (o2 : O2) (o3 : O3) (tbl : BitVec 8) (right : Bool),
    (∀ x ∈ ([(.not c ty o1, ty.wide, fun a => ~~~a), (.popc c ty o1, false, popCount (logicWidth ty)),
        (.clz c ty o1, false, leadZeros (logicWidth ty)), (.ctz c ty o1, false, trailZeros (logicWidth ty)),
        (.brev c ty o1, ty.wide, bitReverse (logicWidth ty))] : List (Instr × Bool × (DWord → DWord))),
      Issues s is x.1 c [] → exec x.1 s = .next (s.settle is c 3 ((s.runs is c).flatMap fun r =>
        s.dst is r x.2.1 o1.d (logicBits ty (x.2.2 (s.srcV is r ty.wide o1.a)))))) ∧
    (∀ x ∈ ([(.and c ty o2, fun a b => a &&& b), (.or c ty o2, fun a b => a ||| b), (.xor c ty o2, fun a b => a ^^^ b),
        (.andn c ty o2, fun a b => a &&& ~~~b)] : List (Instr × (DWord → DWord → DWord))),
      Issues s is x.1 c [] → exec x.1 s = .next (s.settle is c 3 ((s.runs is c).flatMap fun r =>
        s.dst is r ty.wide o2.d (logicBits ty (x.2 (s.srcV is r ty.wide o2.a) (s.srcB is r ty o2.b)))))) ∧
    (∀ x ∈ ([(.shl c ty o2, shiftL (logicWidth ty)), (.shr c ty o2, shiftR (logicWidth ty)),
        (.sar c ty o2, shiftA (logicWidth ty)), (.rotl c ty o2, rotL (logicWidth ty)),
        (.rotr c ty o2, rotR (logicWidth ty))] : List (Instr × (DWord → Nat → DWord))),
      Issues s is x.1 c [] → exec x.1 s = .next (s.settle is c 3 ((s.runs is c).flatMap fun r =>
        s.dst is r ty.wide o2.d (logicBits ty (x.2 (s.srcV is r ty.wide o2.a) (s.srcB is r .b32 o2.b).toNat))))) ∧
    (∀ x ∈ ([(.logic3 c ty o3 tbl, ty, logic3 tbl), (.shf c right o3, .b32, funnel right), (.bfx c ty o3, ty, bfExtract ty.signed),
        (.bfi c o3, .b32, bfInsert)] : List (Instr × Ty × (DWord → DWord → DWord → DWord))),
      Issues s is x.1 c [] → exec x.1 s = .next (s.settle is c 3 ((s.runs is c).flatMap fun r =>
        s.dst is r x.2.1.wide o3.d (logicBits x.2.1 (x.2.2 (s.srcV is r x.2.1.wide o3.a) (s.srcB is r x.2.1 o3.b)
          (s.srcV is r x.2.1.wide o3.c))))))

/-- R88, R89: shifts by any amount, the width and beyond included, are those of bit vectors of the type's width; rotations
turn by the amount modulo the width; LOGIC3 looks each bit up in its table. -/
def Obligations.ShiftsAndTables : Prop :=
  ∀ (x a b d : DWord) (n : Nat) (tbl : BitVec 8),
    lo32 (shiftL 32 (lo32 x) n) = ((x.setWidth 32) <<< n).setWidth 64 ∧ shiftL 64 x n = x <<< n ∧
    lo32 (shiftR 32 (lo32 x) n) = ((x.setWidth 32) >>> n).setWidth 64 ∧ shiftR 64 x n = x >>> n ∧
    lo32 (shiftA 32 (lo32 x) n) = ((x.setWidth 32).sshiftRight n).setWidth 64 ∧ shiftA 64 x n = x.sshiftRight n ∧
    rotL 32 x n = ((x.setWidth 32).rotateLeft n).setWidth 64 ∧ rotR 64 x n = x.rotateRight n ∧
    ∀ k, k < 64 → (logic3 tbl a b d).getLsbD k =
      tbl.getLsbD (4 * (a.getLsbD k).toNat + 2 * (b.getLsbD k).toNat + (d.getLsbD k).toNat)

/-- R90: SHF, BFX and BFI settle with the funnel shift, the extraction and the insertion as the rule computes them on numbers; they
have no 64-bit form. -/
def Obligations.FunnelAndBitFields : Prop :=
  (∀ (s : State) (is : Issue) (cl : Ctl) (right signed : Bool) (o : O3),
    let bty : Ty := if signed then .i32 else .n32
    ∀ x ∈ ([(.shf cl right o, .b32, funnel right), (.bfx cl bty o, bty, bfExtract signed), (.bfi cl o, .b32, bfInsert)] :
        List (Instr × Ty × (DWord → DWord → DWord → DWord))),
      Issues s is x.1 cl [] → exec x.1 s = .next (s.settle is cl 3 ((s.runs is cl).flatMap fun r =>
        s.dst is r false o.d (lo32 (x.2.2 (s.srcV is r false o.a) (s.srcB is r x.2.1 o.b) (s.srcV is r false o.c)))))) ∧
  ∀ (cl : Ctl) (o : O3) (ty : Ty) (a b c : DWord),
    let A := a.toNat % 2 ^ 32; let B := b.toNat % 2 ^ 32; let C := c.toNat % 2 ^ 32
    let n := min B 32
    let pos := if 31 < B % 256 then 32 else B % 256
    let xl := min (C % 256) (32 - pos)
    let f := A / 2 ^ pos % 2 ^ xl
    let il := min (B / 256 % 256) (32 - pos)
    (∀ r, (Instr.shf cl r o).lenOk .l64 = false) ∧ (Instr.bfx cl ty o).lenOk .l64 = false ∧ (Instr.bfi cl o).lenOk .l64 = false ∧
    (lo32 (funnel true a b c)).toNat = (C * 2 ^ 32 + A) / 2 ^ n % 2 ^ 32 ∧
    (lo32 (funnel false a b c)).toNat = (C * 2 ^ 32 + A) * 2 ^ n / 2 ^ 32 % 2 ^ 32 ∧
    (bfExtract false a b c).toNat = f ∧
    (bfExtract true a b c).toNat = (if 0 < xl ∧ 2 ^ (xl - 1) ≤ f then f + 2 ^ 32 - 2 ^ xl else f) ∧
    ∀ k, k < 32 → (bfInsert a b c).getLsbD k =
      if pos ≤ k ∧ k < pos + il then a.getLsbD (k - pos) else c.getLsbD k

/-- R91: BPERM settles with four bytes, each chosen by its selector in B: a byte of A, the sign of a byte of A, or zero. -/
def Obligations.BytePermutation : Prop :=
  (∀ (s : State) (is : Issue) (c : Ctl) (o : O2), Issues s is (.bperm c o) c [] →
    exec (.bperm c o) s = .next (s.settle is c 3 ((s.runs is c).flatMap fun r =>
      s.dst is r false o.d (lo32 (bytePermute (s.srcV is r false o.a) (s.srcB is r .b32 o.b)))))) ∧
  ∀ (a b : DWord) (i : Nat), i < 4 → elemAt 8 (bytePermute a b) i =
    let v := elemAt 4 b i
    if v ≤ 3 then elemAt 8 a v else if v ≤ 7 then (if elemAt 8 a (v - 4) / 128 % 2 = 0 then 0x00 else 0xFF) else 0x00

/-! ### Floating point, conversions, compares, moves -/

/-- R68 to R75, R92, R93: every fixed-latency floating-point instruction settles with its function of the element values and
with the flags that it raises; under .rsd the rounding counter of the run's thread has moved on. R73, R75, R101: FABS and FNEG change the
sign bit alone and raise no flag; a compare with a NaN has neither its condition nor its complement. -/
def Obligations.FloatResults : Prop :=
  (∀ (s : State) (is : Issue) (c : Ctl) (m : Mods) (o1 : O1) (o2 : O2) (o3 : O3),
    ∀ x ∈ ([(.fadd c m o2, 5, o2.d, fpRun2 m o2 fnAdd), (.fsub c m o2, 5, o2.d, fpRun2 m o2 fnSub),
        (.fmul c m o2, 5, o2.d, fpRun2 m o2 fpMul), (.ffma c m o3, 5, o3.d, fpRun3 m o3 fpFma),
        (.fmin c m o2, 3, o2.d, fpRun2 m o2 fnMin), (.fmax c m o2, 3, o2.d, fpRun2 m o2 fnMax),
        (.fclamp c m o3, 3, o3.d, fpRun3 m o3 fnClamp), (.fabs c m o1, 3, o1.d, fpRun1 m o1 fnAbs),
        (.fneg c m o1, 3, o1.d, fpRun1 m o1 fnNeg), (.fround c m o1, 5, o1.d, fpRun1 m o1 fpIntegral),
        (.hadd c m o2, 5, o2.d, fpRun2 m o2 fnAdd), (.hsub c m o2, 5, o2.d, fpRun2 m o2 fnSub),
        (.hmul c m o2, 5, o2.d, fpRun2 m o2 fpMul), (.hfma c m o3, 5, o3.d, fpRun3 m o3 fpFma),
        (.hmin c m o2, 3, o2.d, fpRun2 m o2 fnMin), (.hmax c m o2, 3, o2.d, fpRun2 m o2 fnMax),
        (.hclamp c m o3, 3, o3.d, fpRun3 m o3 fnClamp), (.habs c m o1, 3, o1.d, fpRun1 m o1 fnAbs),
        (.hneg c m o1, 3, o1.d, fpRun1 m o1 fnNeg), (.hdot2 c m o3, 5, o3.d, dotRun m o3)] :
        List (Instr × Nat × Nat × (State → Issue → Run → State × DWord × BitVec 5))),
      Issues s is x.1 c [] → exec x.1 s = .next
        (let z := foldRuns (fun s r => ((x.2.2.2 s is r).1,
            (x.2.2.2 s is r).1.dst is r false x.2.2.1 (x.2.2.2 s is r).2.1 ++ raises r (x.2.2.2 s is r).2.2)) s (s.runs is c)
         z.1.settle is c x.2.1 z.2)) ∧
  (∀ (md : RMode) (a : Nat), a < 2 ^ 32 →
    (fnNeg Fmt.f32 md a).bits = a ^^^ 0x80000000 ∧ (fnNeg Fmt.f32 md a).flags = 0 ∧
    (fnAbs Fmt.f32 md a).bits = a &&& 0x7FFFFFFF ∧ (fnAbs Fmt.f32 md a).flags = 0) ∧
  (∀ (f : Fmt) (ftz : Bool) (cd : Cond) (a b : Nat), (f.value ftz a).isNan = true ∨ (f.value ftz b).isNan = true →
    (fpCompare f ftz cd a b).1 = false ∧ (fpCompare f ftz cd a b).2.1 = false)

/-- R96 to R99: every conversion settles with its function of the selected element, its flags with it.
Between integer types that function is the value modulo the width, or under .sat the nearest value of the type. -/
def Obligations.ConversionResults : Prop :=
  (∀ (s : State) (is : Issue) (c : Ctl) (f : Cvt) (o1 : O1) (o2 : O2) (o3 : O3) (i4o : Bool) (rnd : Rnd),
    (∀ x ∈ ([(.cvtf c f o1, 5, cvtFF (ctyFmt f.dst) (ctyFmt f.src)),
        (.cvtfi c f o1, 5, cvtFI (ctyWidth f.dst) (ctySigned f.dst) (ctyFmt f.src)),
        (.cvtif c f o1, 5, cvtIF (ctyWidth f.src) (ctySigned f.src) (ctyFmt f.dst)), (.cvtii c f o1, 3, cvtII f.dst f.src),
        (.unpack c f o1, 3, cvtFF (ctyFmt f.dst) (ctyFmt f.src))] : List (Instr × Nat × (RMode → Nat → FRes))),
      Issues s is x.1 c [] → exec x.1 s = .next
        (let z := foldRuns (fun s r => ((cvtRun f o1 x.2.2 s is r).1,
            (cvtRun f o1 x.2.2 s is r).1.dst is r f.dst.wide o1.d (cvtRun f o1 x.2.2 s is r).2.1 ++ raises r (cvtRun f o1 x.2.2 s is r).2.2)) s (s.runs is c)
         z.1.settle is c x.2.1 z.2)) ∧
    (∀ x ∈ ([(.pack2 c f o2, o2.d, packRun f o2), (.cvtblk c i4o rnd o3, o3.d, blkRun i4o rnd o3)] :
        List (Instr × Nat × (State → Issue → Run → State × DWord × BitVec 5))),
      Issues s is x.1 c [] → exec x.1 s = .next
        (let z := foldRuns (fun s r => ((x.2.2 s is r).1, (x.2.2 s is r).1.dst is r false x.2.1 (x.2.2 s is r).2.1 ++ raises r (x.2.2 s is r).2.2)) s
            (s.runs is c)
         z.1.settle is c 5 z.2))) ∧
  (∀ (md : RMode) (a : Nat), a < 2 ^ 32 →
    (md.sat = false → (cvtII .i64 .i32 md a).bits = ((BitVec.ofNat 32 a).signExtend 64).toNat ∧
      (cvtII .n64 .n32 md a).bits = a ∧ (cvtII .n8 .n32 md a).bits = a % 256) ∧
    (md.sat = true → (cvtII .n8 .n32 md a).bits = min a 255 ∧ (cvtII .i32 .n32 md a).bits = min a (2 ^ 31 - 1) ∧
      (cvtII .n32 .i32 md a).bits = if a < 2 ^ 31 then a else 0) ∧
    (cvtII .i64 .i32 md a).flags = 0)

/-- R100, R101: a compare settles with pT and pF: the condition and its complement, combined with the old values, and with
its flags.
Choices: That FCLASS reads its mask as an integer is the model's reading (log 11). -/
def Obligations.CompareResults : Prop :=
  ∀ (s : State) (is : Issue) (c : Ctl) (ty : Ty) (ftz : Bool) (cnd : Cond) (h : Half) (f : CmpF),
    ∀ x ∈ ([(.icmp c ty cnd f, fun r =>
          let y := Cond.holds cnd (intElem ty (s.srcV is r ty.wide f.a) 0) (intElem ty (s.srcB is r ty f.b) 0)
          (y, !y, 0)),
        (.fcmp c ftz cnd f, fun r => fpCompare Fmt.f32 ftz cnd (s.srcV is r false f.a).toNat (s.srcB is r .f32 f.b).toNat),
        (.hcmp c ty ftz cnd h f, fun r => halfCompare ty ftz cnd h (s.srcV is r false f.a) (s.srcB is r ty f.b)),
        (.fclass c ty f, fun r =>
          let y := (s.srcB is r .b32 f.b).getLsbD (fpClass (tyFmt ty) (elemAt (Ty.elemBits ty) (s.srcV is r false f.a) 0))
          (y, !y, 0))] : List (Instr × (Run → Bool × Bool × BitVec 5))),
      Issues s is x.1 c [] → exec x.1 s = .next (s.settle is c 3 ((s.runs is c).flatMap fun r =>
        comparePuts s is r f (x.2 r).1 (x.2 r).2.1 ++ raises r (x.2 r).2.2))

/-- R102, R104: the predicate instructions, BALLOT and VOTE settle with their predicates or masks. -/
def Obligations.PredicateResults : Prop :=
  ∀ (s : State) (is : Issue) (c : Ctl) (op : POp) (pd pa pb d : Nat) (na nb sel : Bool) (a : VSrc) (m : VoteM),
    (Issues s is (.plogic c op pd pa na pb nb) c [] → exec (.plogic c op pd pa na pb nb) s = .next (s.settle is c 3
      ((s.runs is c).flatMap fun r =>
        [putPred r.t.tid pd (POp.apply op (s.predAt is r.t.tid pa != na) (s.predAt is r.t.tid pb != nb))]))) ∧
    (Issues s is (.psetv c a sel) c [] → exec (.psetv c a sel) s = .next (s.settle is c 3
      ((s.runs is c).flatMap fun r => if sel then (List.range 16).map fun i => putPred r.t.tid (32 + i) ((s.srcV is r false a).getLsbD i)
        else (List.range 31).map fun i => putPred r.t.tid (i + 1) ((s.srcV is r false a).getLsbD (i + 1))))) ∧
    (Issues s is (.pgetv c d sel) c [] → ∃ f : Run → DWord, exec (.pgetv c d sel) s = .next (s.settle is c 3
        ((s.runs is c).flatMap fun r => s.dst is r false d (f r))) ∧
      ∀ r k, k < 64 → (f r).getLsbD k = (decide (k < if sel then 16 else 32) && s.predAt is r.t.tid ((if sel then 32 else 0) + k))) ∧
    (Issues s is (.ballot c d pa) c [] → exec (.ballot c d pa) s = .next (s.settle is c 3
      ((s.runs is c).flatMap fun r => s.dst is r false d
        ((laneMask (is.lanes.filter fun l => (l.active && s.guardAt is c l.tid) && s.predAt is l.tid pa)).setWidth 64)))) ∧
    (Issues s is (.vote c m pd pa) c [] → exec (.vote c m pd pa) s = .next (s.settle is c 3
      ((s.runs is c).flatMap fun r => [putPred r.t.tid pd (match m with
        | .any => (s.voters is c).any fun l => s.predAt is l.tid pa
        | .all => (s.voters is c).all fun l => s.predAt is l.tid pa
        | .uni => (s.voters is c).all (fun l => s.predAt is l.tid pa) || (s.voters is c).all fun l => !s.predAt is l.tid pa)])))

/-- R34, R35, R103, R140, R162, R192: moves, selects, special-register reads, lane gathers, SPRES, FFSTAT and the Guide's move settle with the
value they name.
Choices: That PERM and LANEGET read as permuted operands is the model's reading (log 17). -/
def Obligations.MoveResults : Prop :=
  ∀ (s : State) (is : Issue) (c : Ctl) (d f ps sr : Nat) (o : O2) (b : BSrc) (g : GPart),
    (Issues s is (.mov c d b) c [] → exec (.mov c d b) s =
      .next (s.settle is c 3 ((s.runs is c).flatMap fun r => s.dst is r false d (s.srcB is r .b32 b)))) ∧
    (Issues s is (.sel c o ps) c [] → exec (.sel c o ps) s = .next (s.settle is c 3 ((s.runs is c).flatMap fun r =>
      s.dst is r false o.d (if s.predAt is r.t.tid ps then s.srcV is r false o.a else s.srcB is r .b32 o.b)))) ∧
    (Issues s is (.movsr c d sr) c [] → exec (.movsr c d sr) s = .next (s.settle is c 3 ((s.runs is c).flatMap fun r =>
      s.dst is r (sr == 5) d (s.specialReg is r.t.tid sr)))) ∧
    (∀ x ∈ [Instr.perm c o, .laneget c o], Issues s is x c [] → exec x s = .next (s.settle is c 3 ((s.runs is c).flatMap fun r =>
      s.dst is r false o.d (lo32 (s.laneReg is ((s.srcB is r .b32 o.b).toNat % 32) o.a.reg 1))))) ∧
    (Issues s is (.spres c o) c [] → exec (.spres c o) s = .next (s.settle is c 3 ((s.runs is c).flatMap fun r =>
      let off := (lo32 (s.srcV is r false o.a + s.srcB is r .i32 o.b)).toNat
      [putPred r.t.tid o.d ((s.inst is.iid).spadHas off 1 &&
        !(s.core (s.inst is.iid).core).absent.contains ((s.inst is.iid).spadLine off))]))) ∧
    (Issues s is (.ffstat c d f) c [] → exec (.ffstat c d f) s = .next (s.settle is c 3 ((s.runs is c).flatMap fun r =>
      let q := s.fifo (s.inst is.iid).engine f
      [⟨.v r.t.tid d, BitVec.ofNat 64 q.comm, false⟩, ⟨.v r.t.tid (d + 1), BitVec.ofNat 64 q.waiting, false⟩]))) ∧
    (Issues s is (.gmov c g d b) c [] → exec (.gmov c g d b) s = .next (s.settle is c 3 ((s.runs is c).flatMap fun r =>
      let x := s.srcB is r .n64 b
      let old := s.latest is (.g d)
      [⟨.g d, match g with | .full => x | .lo => pairOf x (old >>> 32) | .hi => pairOf old x, false⟩])))

/-- R9, R103, R105: writes of the special registers by MOVSR and MEET. sr.rsc changes at once, the others settle; the reserved
numbers do not get this far. -/
def Obligations.SpecialRegisterWrites : Prop :=
  ∀ (s : State) (is : Issue) (c : Ctl) (b : BSrc) (off : BitVec 32),
    (∀ x ∈ ([(5, fun r => (⟨.meet r.t.tid, s.srcB is r .n64 b, false⟩ : Put)), (6, fun r => ⟨.fp r.t.tid, s.srcB is r .b32 b &&& 0x1F, false⟩),
        (7, fun r => ⟨.seed r.t.tid, lo32 (s.srcB is r .b32 b), false⟩), (10, fun r => ⟨.hnd r.t.tid, s.srcB is r .b32 b &&& 1, false⟩)] :
        List (Nat × (Run → Put))),
      Issues s is (.movsrW c x.1 b) c [] → exec (.movsrW c x.1 b) s = .next (s.settle is c 3 ((s.runs is c).map x.2))) ∧
    (∀ r, Issues s is (.movsrW c 8 b) c [] → s.runs is c = [r] → exec (.movsrW c 8 b) s =
      .next ((s.modTh is.iid r.t.tid fun th => { th with rsc := (s.srcB is r .b32 b).setWidth 32 }).settle is c 3 [])) ∧
    (Issues s is (.meet c off) c [] → exec (.meet c off) s = .next (s.settle is c 3 ((s.runs is c).map fun r =>
      ⟨.meet r.t.tid, is.hdrAt + 8 * off.signExtend 64, false⟩))) ∧
    (Issues s is (.meetNone c) c [] → exec (.meetNone c) s = .next (s.settle is c 3 ((s.runs is c).map fun r =>
      ⟨.meet r.t.tid, 0xFFFFFFFFFFFFFFFF, false⟩)))

/-! ### Control flow -/

/-- R105, R160: BRA and CALL go to the header at H + 8 times the signed offset in every run, CALL leaves the header that follows
in D; DQBR goes there in the runs whose decision bit has the value it names. -/
def Obligations.DirectTransfers : Prop :=
  ∀ (s : State) (is : Issue) (c : Ctl) (d : Nat) (off : BitVec 32) (f : Bool) (b : BSrc),
    (Issues s is (.bra c off) c [] → exec (.bra c off) s =
      .next ((s.take is ((s.runs is c).map fun r => (r.t.tid, is.hdrAt + 8 * off.signExtend 64)) true).settleAt is c)) ∧
    (Issues s is (.call c d off) c [] → exec (.call c d off) s =
      .next ((s.take (is.record 3 ((s.runs is c).flatMap fun r => s.dst is r true d (is.hdrAt + BitVec.ofNat 64 (8 * is.hdr.size))))
        ((s.runs is c).map fun r => (r.t.tid, is.hdrAt + 8 * off.signExtend 64))).settleAt is c)) ∧
    (Issues s is (.dqbr c f b off) c [] → exec (.dqbr c f b off) s =
      .next ((s.take is ((s.runs is c).filterMap fun r =>
        if (((((s.inst is.iid).hw ((s.inst is.iid).hwOf r.t.tid)).dq).elim (0 : Word) (·.w0)).getLsbD
            ((s.srcB is r .b32 b).toNat % 32) != f) = true
        then some (r.t.tid, is.hdrAt + 8 * off.signExtend 64) else none)).settleAt is c))

/-- R106: when the target of every run is legal and translated, JMP, CALLI and RET go there; CALLI leaves the header that follows
in D. -/
def Obligations.IndirectTransfers : Prop :=
  ∀ (s t : State) (is : Issue) (c : Ctl) (a : VSrc) (o : O1) (res : List (Nat × DWord × TargetRes)),
    (∀ x ∈ res, x.2.2 = .ok) →
    (∀ x ∈ [(Instr.jmp c a, true), (.ret c a, false)], Issues s is x.1 c [] →
      checkTargets is x.2 s ((s.runs is c).map fun r => (r.t.tid, s.srcV is r true a)) = (res, t) →
      exec x.1 s = .next ((t.take is (res.map fun x => (x.1, x.2.1)) true).settleAt is c)) ∧
    (Issues s is (.calli c o) c [] →
      checkTargets is true s ((s.runs is c).map fun r => (r.t.tid, s.srcV is r true o.a)) = (res, t) →
      exec (.calli c o) s = .next ((t.take (is.record 3 ((s.runs is c).flatMap fun r =>
        t.dst is r true o.d (is.hdrAt + BitVec.ofNat 64 (8 * is.hdr.size)))) (res.map fun x => (x.1, x.2.1)) true).settleAt is c))

/-- R18, R20: EXIT outside generator mode takes every thread of a run out of the machine; what remains of the clause goes on. -/
def Obligations.ExitEndsThreads : Prop :=
  ∀ (s : State) (is : Issue) (c : Ctl), Issues s is (.exit c) c [] →
    (∀ r ∈ s.runs is c, ((s.inst is.iid).hw ((s.inst is.iid).hwOf r.t.tid)).basket = none) →
    exec (.exit c) s = .next (((s.traceEvent is 2 ((s.runs is c).map (·.t.tid)) 0).exitThreads is.iid
      ((s.runs is c).map (·.t.tid))).settleAt is c)

/-- R118, R159: LOOPN with fewer than four levels in use pushes a level, or with a count of 0 leaves the loop; with four it raises
sub-cause 17, whatever the count; LOOPEND pops the level and goes to its
end; with no level it does nothing. -/
def Obligations.GuideLoops : Prop :=
  ∀ (s : State) (is : Issue) (c : Ctl) (b : BSrc) (off : BitVec 32) (r : Run) (rs : List Run), s.runs is c = r :: rs →
    (Issues s is (.loopn c b off) c [] → (s.srcB is r .n32 b).toNat % 2 ^ 32 = 0 → (s.inst is.iid).loops.length < 4 →
      exec (.loopn c b off) s = .next ((s.take is [(r.t.tid, is.hdrAt + 8 * off.signExtend 64)]).settleAt is c)) ∧
    (Issues s is (.loopn c b off) c [] → (s.srcB is r .n32 b).toNat % 2 ^ 32 ≠ 0 → (s.inst is.iid).loops.length < 4 →
      exec (.loopn c b off) s = .next ((s.modInst is.iid fun i =>
        { i with loops := ⟨is.hdrAt + BitVec.ofNat 64 (8 * is.hdr.size), is.hdrAt + 8 * off.signExtend 64,
            (s.srcB is r .n32 b).toNat % 2 ^ 32⟩ :: i.loops }).settleAt is c)) ∧
    (Issues s is (.loopn c b off) c [] → 4 ≤ (s.inst is.iid).loops.length → exec (.loopn c b off) s = .next (s.trapAll is 17 0x2C0 0)) ∧
    (∀ l ls, Issues s is (.loopend c) c [] → (s.inst is.iid).loops = l :: ls →
      exec (.loopend c) s = .next (((s.modInst is.iid fun i => { i with loops := ls }).take is [(r.t.tid, l.stop)]).settleAt is c)) ∧
    (Issues s is (.loopend c) c [] → (s.inst is.iid).loops = [] → exec (.loopend c) s = .next (s.settleAt is c))

/-- R107, R130: TRAP with one code in every run takes the user trap of that code, precise at the header that follows. -/
def Obligations.UserTrapTaken : Prop :=
  ∀ (s : State) (is : Issue) (c : Ctl) (b : BSrc) (k : Nat), Issues s is (.trap c b) c [] → s.runs is c ≠ [] →
    (∀ r ∈ s.runs is c, (s.srcB is r .b32 b).toNat % 256 = k) →
    exec (.trap c b) s = .next ((s.trapThreads is ((s.runs is c).map (·.t.tid)) 5 k 0
      (is.hdrAt + BitVec.ofNat 64 (8 * is.hdr.size)) 0x1C8).settleAt is c)

/-- R131: a delivery to the stage handler: each delivered thread stands with its PC at the handler and sr.hnd set, Ready unless the
handler is its meeting (R113); s56 to s63 of the
home warp hold the cause, the detail, the address, the resume header, the mask and the count that has risen by one.
Choices: Which lanes and which address stand for several threads is the model's reading (log 18, 19). -/
def Obligations.HandlerDelivery : Prop :=
  ∀ (s : State) (iid hw tid : Nat) (t : TrapRec) (i : Inst) (th : Thread) (w : HWarp),
    s.inst? iid = some i → i.th? tid = some th → find? i.hws hw = some w →
    let u := s.deliver iid hw [tid] t
    ((u.inst iid).th tid).pc = i.handler + 8 ∧ ((u.inst iid).th tid).hnd = true ∧
    (((u.inst iid).th tid).status = .ready ∨ th.meet = i.handler ∧ ((u.inst iid).th tid).status = .held) ∧
    u.readLoc iid (.s hw 56) = (BitVec.ofNat 32 t.code).setWidth 64 ∧ u.readLoc iid (.s hw 57) = (BitVec.ofNat 32 t.detail).setWidth 64 ∧
    u.readLoc iid (.s hw 58) = lo32 t.addr ∧ u.readLoc iid (.s hw 59) = t.addr >>> 32 ∧
    u.readLoc iid (.s hw 60) = lo32 t.resume ∧ u.readLoc iid (.s hw 61) = t.resume >>> 32 ∧
    u.readLoc iid (.s hw 62) = t.mask.setWidth 64 ∧
    u.readLoc iid (.s hw 63) = ((sget (0 : Word) w.scal 63) + 1).setWidth 64 ∧ u.mem = s.mem

/-! ### The supervisor and the monitor -/

/-- R306: SCALL with one code in every run of one home warp parks them as a sub-group that resumes at the next clause, and one
record of kind 1 with that code goes to the supervisor. R307: MCALL parks compute threads for the monitor; of a steward thread
at S it enters M, of a steward or walker thread at M it answers 2.
Choices: The answer to a function number of 8 or above at U is the model's choice (log 38). -/
def Obligations.CallsForService : Prop :=
  (∀ (s : State) (is : Issue) (c : Ctl) (b : BSrc) (k h : Nat), Issues s is (.scall c b) c [] → s.runs is c ≠ [] →
    (s.inst is.iid).kind = .stage → (∀ r ∈ s.runs is c, (s.srcB is r .b32 b).toNat % 256 = k) →
    (∀ r ∈ s.runs is c, (s.inst is.iid).hwOf r.t.tid = h) →
    exec (.scall c b) s = .next (((s.leaveIssue is.iid ((s.runs is c).map (·.t.tid))).toSupervisor is.iid h
      ((s.runs is c).map (·.t.tid)) 1 k
      ⟨k, 0, 0, is.hdrAt + BitVec.ofNat 64 (8 * is.hdr.size), is.hdrAt, laneMask ((s.runs is c).map (·.t)), is.idx, 0x3C1, false⟩
      false).settleAt is c)) ∧
  (∀ (s : State) (is : Issue) (c : Ctl) (fn : BitVec 8) (h : Nat), Issues s is (.mcall c fn) c [] → s.runs is c ≠ [] →
    ((s.inst is.iid).kind = .stage → fn.toNat < 8 → (∀ r ∈ s.runs is c, (s.inst is.iid).hwOf r.t.tid = h) →
      exec (.mcall c fn) s = .next (((s.leaveIssue is.iid ((s.runs is c).map (·.t.tid))).newSub is.iid h
        ((s.runs is c).map (·.t.tid)) [] (is.hdrAt + BitVec.ofNat 64 (8 * is.hdr.size)) is.hdrAt 0 (.monitor fn.toNat)).2.settleAt is c)) ∧
    ((s.inst is.iid).kind = .steward → ((s.inst is.iid).th 0).level = 1 →
      exec (.mcall c fn) s = .next (((s.leaveIssue is.iid [0]).stewardTrapAt is.iid 2 ⟨4, fn.toNat, 0⟩
        (is.hdrAt + BitVec.ofNat 64 (8 * is.hdr.size))).settleAt is c)) ∧
    ((s.inst is.iid).kind ≠ .stage → ((s.inst is.iid).th 0).level = 2 →
      exec (.mcall c fn) s = .next ((s.asyncWrites is.iid [(.v 0 0, 2)]).settleAt is c)))

/-- R302: entry of a steward thread into level X, with IE of X set: EPC, ECAUSE, EADDR and EPRIV of X hold what the rule says, IE is
clear, the thread runs at X with its PC at the vector; the other level's registers, and memory, are as they were. A trap into S
whose IE is clear enters M with cause 7; where IE of M is clear too, the module's compute halts and the management port reports it.
Choices: The cause of a trap that R302 does not list is open (log 16). -/
def Obligations.StewardEntry : Prop :=
  (∀ (s : State) (k : Nat) (t : TrapInfo) (resume : DWord) (i : Inst) (th : Thread), s.inst? k = some i → i.th? 0 = some th →
    ∀ level, level = 1 ∨ level = 2 → ((s.steward k).regs level).ie = true →
      let u := s.stewardTrapAt k level t resume
      let r := (u.steward k).regs level
      r.epc = resume ∧ r.eaddr = t.addr ∧ r.ie = false ∧ r.epriv = (if th.level = 2 then 2 else 1) ∧
      r.ecause = (BitVec.ofNat 64 (t.cause % 256) ||| (BitVec.ofNat 64 t.detail <<< 32)) ∧
      ((u.inst k).th 0).pc = ((s.steward k).regs level).vec + 8 ∧ ((u.inst k).th 0).level = level ∧
      (u.steward k).regs (3 - level) = (s.steward k).regs (3 - level) ∧ u.mem = s.mem) ∧
  (∀ (s : State) (k : Nat) (t : TrapInfo) (resume : DWord), ((s.steward k).regs 1).ie = false →
    (((s.steward k).regs 2).ie = true → s.stewardTrapAt k 1 t resume = s.stewardTrapAt k 2 { t with cause := 7 } resume) ∧
    (((s.steward k).regs 2).ie = false → (s.stewardTrapAt k 1 t resume).halted = true ∧
      (s.stewardTrapAt k 1 t resume).monitor.telemetry = s.monitor.telemetry + 1 ∧ (s.stewardTrapAt k 1 t resume).insts = s.insts))

/-- R301, R302: ERET on a steward core sets IE of the thread's level, returns to the level of EPRIV, and goes to EPC.
Choices: A value of EPRIV that is neither S nor M returns to S by the model's choice (log 50). -/
def Obligations.ExceptionReturn : Prop :=
  ∀ (s : State) (is : Issue) (c : Ctl), Issues s is (.eret c) c [] → s.runs is c ≠ [] → (s.inst is.iid).kind = .steward →
    let l := ((s.inst is.iid).th 0).level
    let r := (s.steward is.iid).regs l
    exec (.eret c) s = .next ((((s.setSteward is.iid ((s.steward is.iid).setRegs l { r with ie := true })).modTh is.iid 0 fun t =>
      { t with level := if r.epriv.toNat % 4 = 2 then 2 else 1 }).take is [(0, r.epc)]).settleAt is c)

/-! ### Operations in flight -/

/-- R37, R86, R92 to R94: divisions, remainders, roots and the transcendental functions go in flight with the values computed at
issue; the completion of a part that is neither ONCE nor of a thread gone writes them and raises their flags.
Choices: What a transcendental function gives inside its bound is open (log 65). -/
def Obligations.ComputeOperations : Prop :=
  ∀ (s : State) (is : Issue) (c : Ctl) (m : Mods) (o1 : O1) (o2 : O2),
    (∀ x ∈ ([(.idiv c m o2, fun s is r => (s, intQuot m.ty m.sat (s.srcV is r m.ty.wide o2.a) (s.srcB is r m.ty o2.b), 0)),
        (.irem c m o2, fun s is r => (s, intRem m.ty (s.srcV is r m.ty.wide o2.a) (s.srcB is r m.ty o2.b), 0)),
        (.fdiv c m o2, fpRun2 m o2 fpDiv), (.fsqrt c m o1, fpRun1 m o1 fpSqrt), (.frcp c m o1, fpRun1 m o1 (fnTrans 0x08C m)),
        (.frsq c m o1, fpRun1 m o1 (fnTrans 0x08D m)), (.fexp2 c m o1, fpRun1 m o1 (fnTrans 0x08E m)),
        (.flog2 c m o1, fpRun1 m o1 (fnTrans 0x08F m)), (.fsin c m o1, fpRun1 m o1 (fnTrans 0x090 m)),
        (.fcos c m o1, fpRun1 m o1 (fnTrans 0x091 m)), (.ftanh c m o1, fpRun1 m o1 (fnTrans 0x092 m)),
        (.hexp2 c m o1, fpRun1 m o1 (fnTrans 0x0CA m)), (.hrcp c m o1, fpRun1 m o1 (fnTrans 0x0CB m))] :
        List (Instr × (State → Issue → Run → State × DWord × BitVec 5))),
      Issues s is x.1 c [] → exec x.1 s = .next
        (let z := partFold (fun s is r => ((x.2 s is r).1, [(x.2 s is r).2.1, (x.2 s is r).2.2.setWidth 64])) s is (s.runs is c)
         z.1.inFlight is x.1 c z.2 [])) ∧
    (∀ (id tid : Nat) (o : PendOp) (p : Part), s.op? id = some o → o.part? tid = some p →
      ((s.inst o.iid).th tid).status ≠ .exited →
      ∀ x ∈ ([(.idiv c m o2, o2.d, m.ty.wide), (.irem c m o2, o2.d, m.ty.wide), (.fdiv c m o2, o2.d, false),
        (.fsqrt c m o1, o1.d, false), (.frcp c m o1, o1.d, false), (.hrcp c m o1, o1.d, false)] : List (Instr × Nat × Bool)),
      o.ins = x.1 → exec (.flagCompletion id tid) s = .next
        (((s.asyncWrites o.iid (o.dst (s.inst o.iid) tid x.2.2 x.2.1 (p.arg 0))).raiseFp o.iid tid ((p.arg 1).setWidth 5)).partDone
          id tid))

/-- R37: every operation that does nothing but start at its issue goes in flight with the operands that it names, one part for each
run: loads and prefetches, group membership, tile moves, translation and cache maintenance, saves and loads of contexts, checkpoint
and record control, interrupt control. A load through memory of a thread with an injected poison carries it (R264); a matrix
instruction on a tile of a pending pass marks its parts and the pass (R190). CTXSAVE and CTXLOAD name the context of A and the instances that they act on: all of the
context, or the one that B names. DRAINST, HDRAIN, the matrix instructions that act once for the formed warp, MRDY and the waits have
one part for each home warp.
Choices: Which instances CTXSAVE and CTXLOAD find among several stages is open (log 35). -/
def Obligations.OperationsStart : Prop :=
  (∀ (s : State) (is : Issue) (c : Ctl) (ty : Ty) (h : Hint) (o2 : O2) (a : VSrc) (b : BSrc) (d pp n : Nat) (lvl s128 : Bool)
    (act : BitVec 8) (f : MTile),
    let lo (x : DWord) : DWord := x &&& 0xFFFF
    let ea (r : Run) (a : VSrc) (b : BSrc) : List DWord := [s.ea is r a b]
    let va (r : Run) : DWord := s.srcV is r true a
    let bn (r : Run) : DWord := s.srcB is r .n32 b
    (∀ x ∈ [Instr.ld c ty h o2, .ldm c n s128 o2], Issues s is x c [] →
      ((∀ r ∈ s.runs is c, ((s.inst is.iid).th r.t.tid).poison = false) → exec x s = .next
        (s.inFlight is x c ((s.runs is c).map fun r => partOf r (ea r o2.a o2.b)) [])) ∧
      (∀ r, s.runs is c = [r] → ((s.inst is.iid).th r.t.tid).poison = true →
        aperOf (s.ea is r o2.a o2.b).toNat = .mem ∨ aperOf (s.ea is r o2.a o2.b).toNat = .phys → exec x s = .next
        ((s.modTh is.iid r.t.tid fun t => { t with poison := false }).inFlight is x c [partOf r (ea r o2.a o2.b ++ [1])] []))) ∧
    (∀ x ∈ ([(.mld c f, fun _ => []), (.mst c f, fun r => s.ownRange is r f.d f.n)] : List (Instr × (Run → List DWord))),
      Issues s is x.1 c [] → exec x.1 s = .next ((tileIssue f.tile (s.startOp is x.1 c ((s.runs is c).map fun r =>
        partOf r (x.2 r)) []) is s.nextId).past is c)) ∧
    ∀ x ∈ ([(.pref c h a b, fun r => ea r a b),
        (.sfqpop c pp d, fun _ => []), (.join c d b, fun r => [s.groupName is r b]), (.leave c d b, fun r => [s.groupName is r b]),
        (.mstat c d n, fun _ => []),
        (.presume c a, fun r => [va r]), (.presumeFail c a, fun r => [va r]),
        (.clrevokePg c a b, fun r => [va r, lo (bn r)]), (.clrevokeK c a n, fun r => [lo (s.srcV is r false a)]),
        (.tlbfill c d a lvl, fun r => [va r, s.srcS is r true 0, s.srcS is r false 2, s.srcS is r false 3, s.srcS is r false 4,
          s.srcS is r false 8]),
        (.tlbinvPg c a b, fun r => [0, va r, lo (bn r)]), (.tlbinvAsid c b, fun r => [1, 0, lo (bn r)]),
        (.tlbinvAll c, fun _ => [2, 0, 0]), (.cinvPg c a b, fun r => [0, va r, lo (bn r)]),
        (.cinvAsid c b, fun r => [1, 0, lo (bn r)]), (.cinvAll c, fun _ => [2, 0, 0]),
        (.ckptIvl c d b, fun r => [lo (bn r)]), (.ckptMem c d, fun _ => []), (.ckptMemrst c d, fun _ => []),
        (.recctlOff c d b, fun r => [lo (bn r)]), (.recctlRec c d b, fun r => [lo (bn r)]), (.recctlRpl c d b, fun r => [lo (bn r)]),
        (.intctlMask c b, fun r => [bn r]), (.intctlWait c, fun _ => []),
        (.intctlResume c a act, fun r => [s.srcV is r false a, s.srcV is r false ⟨a.reg + 1, a.perm⟩, act.setWidth 64]),
        (.intctlRespg c a b, fun r => [va r, lo (bn r)])] : List (Instr × (Run → List DWord))),
      Issues s is x.1 c [] → exec x.1 s = .next (s.inFlight is x.1 c ((s.runs is c).map fun r => partOf r (x.2 r)) [])) ∧
  (∀ (s : State) (is : Issue) (c : Ctl) (o : O2),
    let x (r : Run) : DWord := s.srcV is r false o.a &&& 0xFFFF
    let b (r : Run) : Nat := (s.srcB is r .n32 o.b).toNat
    let live (r : Run) := s.insts.filter fun p => p.2.kind == .stage && p.2.ctx == (x r).toNat
    let kept (r : Run) := (s.saved.filter fun (v : Saved) => v.inst.ctx == (x r).toNat).map fun v => (v.iid, v.inst)
    let pick := (Config.openRead s.fresh 11).toNat
    ∀ y ∈ ([(.ctxsaveInst c o, fun r => x r :: (pickInst pick (live r) (b r)).map (BitVec.ofNat 64)),
        (.ctxsaveCtx c o, fun r => x r :: (live r).map fun p => BitVec.ofNat 64 p.1),
        (.ctxsaveEnd c o, fun r => x r :: (live r).map fun p => BitVec.ofNat 64 p.1),
        (.ctxload c o, fun r => x r :: BitVec.ofNat 64 (b r / 2 ^ 16 % 2 ^ 16) ::
          (pickInst pick (kept r) (b r % 2 ^ 16)).map (BitVec.ofNat 64)),
        (.ctxloadCtx c o, fun r => x r :: BitVec.ofNat 64 (b r / 2 ^ 16 % 2 ^ 16) :: (kept r).map fun p => BitVec.ofNat 64 p.1)] :
        List (Instr × (Run → List DWord))),
      Issues s is y.1 c [] → exec y.1 s = .next (s.inFlight is y.1 c ((s.runs is c).map fun r => partOf r (y.2 r)) [])) ∧
  (∀ (s : State) (is : Issue) (c : Ctl) (a b n : Nat) (w : ClrPart),
    let i := s.inst is.iid
    let firsts := ((s.runs is c).filter fun r => !((s.runs is c).any fun q =>
      i.hwOf q.t.tid == i.hwOf r.t.tid && decide (q.t.lane < r.t.lane))).insertionSort fun p q => i.hwOf p.t.tid ≤ i.hwOf q.t.tid
    (Issues s is (.drainst c) c [] → exec (.drainst c) s = .next
      (s.inFlight is (.drainst c) c (firsts.map fun r => partOf r [hwMask s is c (i.hwOf r.t.tid)]) [])) ∧
    (∀ x ∈ [Instr.hdrain c, .mrdy c a b n, .mwait c a, .mwaitAll c], Issues s is x c [] → exec x s = .next
      (s.inFlight is x c (firsts.map fun r => partOf r []) [])) ∧
    (∀ x ∈ ([(.mclr c w a, tileIssue a), (.mswap c a b, swapIssue a b)] : List (Instr × (State → Issue → Nat → State))),
      Issues s is x.1 c [] → exec x.1 s = .next
      ((x.2 (s.startOp is x.1 c (firsts.mapIdx fun k r => partOf r [if k = 0 then 1 else 0]) []) is s.nextId).past is c)) ∧
    (s.tileMark i a = 0 → s.tileMark i b = 0 → ∀ id, tileIssue a s is id = s ∧ swapIssue a b s is id = s))

/-- R128, R137, R138, R145, R263, R267, R273, R347: when the store-fault queue has a free slot and no comparison buffer is full, stores, memory atomics, PREPAIR and
MCAST go in flight with their address and data, numbered by thread.
Choices: That each word of a MCAST is numbered as a remote store is the model's reading (log 29). -/
def Obligations.StoresStart : Prop :=
  ∀ (s : State) (is : Issue) (c : Ctl) (ty : Ty) (h : Hint) (op : AOp) (aty : ATy) (o2 : O2) (o3 : O3) (a : VSrc) (b : BSrc)
    (d n x k : Nat) (s128 : Bool),
    ∀ y ∈ ([(.st c ty h o2, false, fun s r => (s.ea is r o2.a o2.b, [s.own is r ty.wide o2.d])),
        (.stm c n s128 o2, false, fun s r => (s.ea is r o2.a o2.b, s.ownRange is r o2.d n)),
        (.atom c op aty o2, true, fun s r => (s.srcV is r true o2.a, [s.srcB is r (atomTy op aty) o2.b, 0])),
        (.atomcas c aty o3, true, fun s r => (s.srcV is r true o3.a, [s.srcB is r (atomTy .add aty) o3.b, s.srcV is r (aty == .b64) o3.c])),
        (.red c op aty a b, true, fun s r => (s.srcV is r true a, [s.srcB is r (atomTy op aty) b, 0])),
        (.prepair c d a, false, fun s r => (s.srcV is r true a, s.ownRange is r d 8)),
        (.mcast c n d k x, false, fun s r => (s.srcV is r true ⟨k, .id⟩, s.ownRange is r d n ++ s.ownRange is r x 8))] :
        List (Instr × Bool × (State → Run → DWord × List DWord))),
      Issues s is y.1 c [] → s.storeHeld is (s.runs is c) (numWords y.1) = false → exec y.1 s = .next
        (let z := (s.runs is c).foldl (fun (acc : List Part × State) r =>
            let w := acc.2.number is y.1 r.t.tid r.t.lane (y.2.2 acc.2 r).1 (y.2.2 acc.2 r).2 y.2.1
            (acc.1 ++ [w.1], w.2)) ([], s)
         (z.2.feedStores is y.1 z.1).inFlight is y.1 c z.1 [])

/-- R128, R140, R141, R146, R355: when no line that they touch is absent, and for the storing ones the store-fault queue has a free slot,
scratchpad accesses go in flight with their offsets and data.
Choices: That presence is checked at issue is the model's reading (log 30). -/
def Obligations.ScratchpadOperations : Prop :=
  ∀ (s : State) (is : Issue) (c : Ctl) (ty : Ty) (op : AOp) (aty : ATy) (w : Nat) (o2 : O2) (o3 : O3),
    ∀ y ∈ ([(.lds c ty o2, true, true, fun r => [s.spadOff is r o2.a o2.b]),
        (.ldt c w o2, true, true, fun r => [s.srcV is r false o2.a, s.srcB is r .n32 o2.b]),
        (.sts c ty o2, false, false, fun r => [s.spadOff is r o2.a o2.b, s.own is r ty.wide o2.d]),
        (.atoms c op aty o2, false, true, fun r => [lo32 (s.srcV is r false o2.a), s.srcB is r (atomTy op aty) o2.b, 0]),
        (.atomscas c aty o3, false, true, fun r =>
          [lo32 (s.srcV is r false o3.a), s.srcB is r (atomTy .add aty) o3.b, s.srcV is r (aty == .b64) o3.c])] :
        List (Instr × Bool × Bool × (Run → List DWord))),
      Issues s is y.1 c [] → (y.2.2.1 = true → s.lineWaits is y.1 ((s.runs is c).map fun r => (r, y.2.2.2 r)) = []) →
      (y.2.1 = true ∨ s.fullHeld is (s.runs is c) = false) → exec y.1 s = .next
        (let ps := (s.runs is c).map fun r => partOf r (y.2.2.2 r)
         (if y.2.1 then s else s.feedStores is y.1 ps).inFlight is y.1 c ps [])

/-- R147, R253, R274: ACQ, FENCE and REL go in flight with their scope, FENCE and REL of device scope or wider by a thread of an
open pair with its next release number. At system scope that needs the context's limit to leave it free; a demoting limit
makes it tenant scope and counts the runs; a trapping limit traps.
Choices: The record of a scope trap is read as log 45 says. -/
def Obligations.OrderingOperations : Prop :=
  ∀ (s t : State) (is : Issue) (c : Ctl) (sc : Scope),
    let num (s : State) (r : Run) (d : Scope) : DWord :=
      BitVec.ofNat 64 (if 4 ≤ d.code ∧ (s.inst is.iid).inPair r.t.tid = true then ((s.inst is.iid).th r.t.tid).relN + 1 else 0)
    let bump (s : State) (rs : List Run) (d : Scope) : State := if 4 ≤ d.code then s.modInst is.iid fun i => rs.foldl (fun i r =>
      if i.inPair r.t.tid then i.modTh r.t.tid (fun t => { t with relN := t.relN + 1 }) else i) i else s
    let lim (x : Instr) : Limit := s.limit is ((s.runs is c).map (·.t.tid)) 8 (x.opc.getD 0)
    (Issues s is (.acq c sc) c [] →
      ((sc ≠ .sy ∨ lim (.acq c sc) = .free) → exec (.acq c sc) s = .next (s.inFlight is (.acq c sc) c
        ((s.runs is c).map fun r => partOf r [BitVec.ofNat 64 sc.code, 0, 0]) [])) ∧
      (sc = .sy → lim (.acq c sc) = .demoted t → exec (.acq c sc) s = .next (t.inFlight is (.acq c sc) c
        ((s.runs is c).map fun r => partOf r [BitVec.ofNat 64 Scope.tn.code, 0, 0]) [])) ∧
      (sc = .sy → lim (.acq c sc) = .trapped t → exec (.acq c sc) s = .next t)) ∧
    ∀ x ∈ [Instr.fence c sc, .rel c sc], Issues s is x c [] →
      ((sc ≠ .sy ∨ lim x = .free) → exec x s = .next ((bump s (s.runs is c) sc).inFlight is x c
        ((s.runs is c).map fun r => partOf r [BitVec.ofNat 64 sc.code, num s r sc, 0]) [])) ∧
      (sc = .sy → lim x = .demoted t → exec x s = .next ((bump t (s.runs is c) .tn).inFlight is x c
        ((s.runs is c).map fun r => partOf r [BitVec.ofNat 64 Scope.tn.code, num t r .tn, 0]) [])) ∧
      (sc = .sy → lim x = .trapped t → exec x s = .next t)

/-- R149 to R153: BAR, ELECT, GRED and GBCAST go in flight, each run arrives at the group it names with its value, in lane order,
and each named group that is complete is released, by rising name. ELECT.REL goes in flight with whether each of its runs leads, and
ends the elections that they lead once their accesses before it are performed (R241); GKILL ends every member of the groups it names.
Choices: What becomes of the arrivals of threads that end is the model's reading (log 27). -/
def Obligations.GroupOperations : Prop :=
  ∀ (s : State) (is : Issue) (c : Ctl) (ty : Ty) (op : GOp) (o : O2) (pd : Nat) (b : BSrc),
    let id := s.nextId
    let start (x : Instr) (f : Run → List DWord) : State := s.startOp is x c ((s.runs is c).map fun r => partOf r (f r)) []
    let parts (t : State) : List Part := ((t.op? id).map (·.parts)).getD []
    let names (ps : List Part) : List Nat := ((ps.map fun p => (p.arg 0).toNat).eraseDups).insertionSort (· ≤ ·)
    (∀ x ∈ ([(.bar c pd b, 2, fun r => [s.groupName is r b, 0], fun t => [(.p t pd, 0)]),
        (.elect c pd b, 3, fun r => [s.groupName is r b, 0], fun t => [(.p t pd, 0)]),
        (.gred c ty op o, 5, fun r => [s.groupName is r o.b, s.srcV is r ty.wide o.a], fun _ => []),
        (.gbcast c ty o, 6, fun r => [s.groupName is r o.b, s.srcV is r ty.wide o.a], fun _ => [])] :
        List (Instr × Nat × (Run → List DWord) × (Nat → List (Loc × DWord)))),
      Issues s is x.1 c [] → exec x.1 s = .next
        (let t := start x.1 x.2.2.1
         ((names (parts t)).foldl (fun s n => s.tryRelease is.iid n) ((parts t).foldl (fun s p =>
           s.groupArrive is.iid x.2.1 id p (x.2.2.2 p.tid)) t)).past is c)) ∧
    let leads (s : State) (iid tid : Nat) (n : DWord) : Bool :=
      (s.inst iid).elects.any fun (e : Election) => e.name == n.toNat && e.leader == tid
    (Issues s is (.electRel c b) c [] → exec (.electRel c b) s = .next
      ((start (.electRel c b) fun r =>
        [s.groupName is r b, if leads s is.iid r.t.tid (s.groupName is r b) then 1 else 0]).past is c)) ∧
    (∀ k tid o p, s.op? k = some o → o.part? tid = some p → o.ins = .electRel c b → exec (.flagCompletion k tid) s = .next
      (if p.arg 1 = 0 ∨ leads s o.iid p.tid (p.arg 0) = false then s.partDone o.id p.tid
       else if s.accessesBefore o.iid p.tid o.id true = true then s
       else (s.endElection o.iid (p.arg 0).toNat).partDone o.id p.tid)) ∧
    (Issues s is (.gkill c b) c [] → exec (.gkill c b) s = .next
      (let t := start (.gkill c b) fun r => [s.groupName is r b]
       ((names (parts t)).foldl (fun (s : State) n => s.exitThreads is.iid ((s.inst is.iid).members n)) t).past is c))

/-- R157, R160, R230 to R232, R255, R256, R260, R261, R313, R329: operations that act at their issue go in flight and do so, part by part:
counter captures start, stop and sample, REGSHRINK gives registers up, DQPOP and DQDONE return the record that was held, claim commands
reach the entry, regions open and close.
Choices: The corners of claims and of containment are the model's readings (log 46, 47, 49). -/
def Obligations.ActingOperations : Prop :=
  ∀ (s : State) (is : Issue) (c : Ctl) (b : BSrc) (strict : Bool) (pd a d n k fifo slack : Nat) (off : BitVec 32) (o16 : BitVec 16)
    (sk dk : SideK),
    let hw (s : State) (p : Part) : Nat := (s.inst is.iid).hwOf p.tid
    let firsts := ((s.runs is c).filter fun r =>
      !((s.runs is c).any fun q => (s.inst is.iid).hwOf q.t.tid == (s.inst is.iid).hwOf r.t.tid && decide (q.t.lane < r.t.lane))).insertionSort
        fun p q => (s.inst is.iid).hwOf p.t.tid ≤ (s.inst is.iid).hwOf q.t.tid
    let mask (r : Run) : DWord := hwMask s is c ((s.inst is.iid).hwOf r.t.tid)
    let last (r : Run) : DWord := BitVec.ofNat 64 ((((s.inst is.iid).hw ((s.inst is.iid).hwOf r.t.tid)).regions.getLast?).elim 0 (·.id + 1))
    let count (r : Run) : List DWord := match find? ((s.inst is.iid).hw ((s.inst is.iid).hwOf r.t.tid)).counters n with
      | some x => [BitVec.ofNat 64 (if x.on then x.count % 2 ^ 63 + (if x.cut then 2 ^ 63 else 0) else 0)]
      | none => [0]
    let run (x : Instr) (ps : List Part) (f : State → State → Part → State) : State :=
      let t := s.startOp is x c ps []
      ((((t.op? s.nextId).map (·.parts)).getD []).foldl (f t) t).past is c
    let claims (_ t : State) (p : Part) : State := match t.op? s.nextId with
      | none => t
      | some o => t.claimStep o ((o.part? p.tid).getD p)
    let close (_ t : State) (p : Part) : State :=
      let ts := (t.inst is.iid).maskTids (hw t p) (p.arg 0)
      t.modHw is.iid (hw t p) fun w => { w with regions := w.regions.map fun (r : Region) =>
        if r.id + 1 == (p.arg 1).toNat then { r with closed := (r.closed ++ ts).eraseDups } else r }
    (∀ x ∈ ([(.cntcapStart c n, firsts.map fun r => partOf r [],
          fun _ t p => t.modHw is.iid (hw t p) fun w => { w with counters := sput w.counters n ⟨true, 0, false⟩ }),
        (.cntcapStop c d n, (s.runs is c).map fun r => partOf r (count r),
          fun _ t p => t.modHw is.iid (hw t p) fun w => { w with counters := sdel w.counters n }),
        (.regshrink c b, firsts.map fun r => partOf r [s.srcB is r .b32 b], fun t0 t p =>
          let cut (n : Nat) : Nat := max 8 (n - 8 * ((p.arg 0).toNat % 2 ^ 32))
          t.modHw is.iid (hw t0 p) fun w =>
            { w with n := min w.n (cut w.count), moveTo := w.moveTo.map fun m => (m.1, m.2.1, min m.2.2 (cut w.count)) }),
        (.dqdone c, firsts.map fun r => partOf r [], fun _ t p => t.dqDone is.iid (hw t p)),
        (.claimNew c k sk dk a fifo, (s.runs is c).map fun r => partOf r (s.descriptor is r (sk == .peer || dk == .peer) a), claims),
        (.claimUse c k, (s.runs is c).map fun r => partOf r [], claims),
        (.clrel c k, (s.runs is c).map fun r => partOf r [], claims),
        (.cregClose c, firsts.map fun r => partOf r [mask r, last r], close),
        (.pairClose c, firsts.map fun r => partOf r [mask r, last r], close)] : List (Instr × List Part × (State → State → Part → State))),
      Issues s is x.1 c [] → exec x.1 s = .next (run x.1 x.2.1 x.2.2)) ∧
    (∀ x ∈ ([(.cregOpen c strict pd a off, strict, is.hdrAt + 8 * off.signExtend 64),
        (.pairOpen c pd a o16 slack, false, is.hdrAt + 8 * o16.signExtend 64)] : List (Instr × Bool × DWord)),
      ((s.inst is.iid).paired = false ∨ x.1 = .cregOpen c strict pd a off) → Issues s is x.1 c [] → exec x.1 s = .next
        (run x.1 (firsts.map fun r => partOf r [mask r]) fun _ t p =>
          let r := t.newRegion is s.nextId (hw t p) (p.arg 0) x.2.1 false 0 x.2.2 a
          let u := t.modOp s.nextId fun o => o.modPart p.tid fun p => { p with args := [p.arg 0, if t.canOpen is.iid (hw t p) then 1 else 0] }
          if t.canOpen is.iid (hw t p) then u.openRegion is.iid (hw t p) r else u)) ∧
    ((s.inst is.iid).paired = true → Issues s is (.pairOpen c pd a o16 slack) c [] → exec (.pairOpen c pd a o16 slack) s = .next
      (run (.pairOpen c pd a o16 slack) (firsts.map fun r => partOf r [mask r, 2]) fun _ t p => t.modHw is.iid (hw t p) fun w =>
        { w with opening := some (t.newRegion is s.nextId (hw t p) (p.arg 0) false true slack (is.hdrAt + 8 * o16.signExtend 64) a) })) ∧
    (Issues s is (.dqpop c d) c [] → exec (.dqpop c d) s = .next (run (.dqpop c d) (firsts.map fun r => partOf r []) fun t0 t p =>
      let u := t.dqDone is.iid (hw t0 p)
      let q := u.core (t0.inst is.iid).core
      let v := u.modCore (t0.inst is.iid).core fun k => { k with dqWait := k.dqWait ++ [(s.nextId, hw t0 p)] }
      if q.dq.length ≤ q.dqWait.length then
        ((t0.runs is c).filter fun r => (t0.inst is.iid).hwOf r.t.tid == hw t0 p).foldl (fun s r => s.sleep is.iid r.t.tid .decision) v
      else v)) ∧
    (Issues s is (.sample c b) c [] → ((s.die ((s.inst is.iid).die is.iid)).trace.ctl.getLsbD 0 = false) → exec (.sample c b) s = .next
      (s.inFlight is (.sample c b) c ((s.runs is c).map fun r => partOf r [s.srcB is r .n32 b]) []))

/-- R170, R171, R179, R186: MMA posts a request in the lowest free reservation entry of its cluster; MMA.J opens an entry for its half,
or completes the entry that holds the other half of the same request, which is not 2^20 cycles old. The rows that the second half adds
are unspecified for what has been issued on the tile between. -/
def Obligations.MatrixRequests : Prop :=
  ∀ (s : State) (is : Issue) (c : Ctl) (f : MmaF) (h1 : Bool) (k : Nat) (r : Rsv),
    let e := (s.inst is.iid).engine
    let post (x : Instr) (k : Nat) (r : Rsv) : State :=
      (((s.markMld is.iid f.tile).startMma is x c).modCluster e fun y => { y with resv := sput y.resv k r }).past is c
    let join (x : Instr) (k : Nat) (r : Rsv) : State :=
      (((s.joinRows is.iid (r.ops.headD 0) f.tile (s.rowMask is c f (some h1.toNat))).startMma is x c).modCluster e fun y =>
        { y with resv := sput y.resv k r }).past is c
    (Issues s is (.mma c f) c [] → lowestFree (s.cluster e).resv = some k →
      exec (.mma c f) s = .next (post (.mma c f) k (s.newRsv is c f none s.nextId))) ∧
    (Issues s is (.mmaj c f h1) c [] → s.jointOf is.iid f = none → lowestFree (s.cluster e).resv = some k →
      exec (.mmaj c f h1) s = .next ((((s.markMld is.iid f.tile).startMma is (.mmaj c f h1) c).modCluster e fun y =>
        { y with resv := sput (y.resv.map fun p => (p.1, p.2.expire (s.jointNow (s.inst is.iid).ctx))) k
                           (s.newRsv is c f (some h1.toNat) s.nextId) }).past is c)) ∧
    (Issues s is (.mmaj c f h1) c [] → s.jointOf is.iid f = some (k, r) → r.half = some (1 - h1.toNat) → r.f = f →
      exec (.mmaj c f h1) s = .next (join (.mmaj c f h1) k { r with
        half := none, ops := r.ops ++ [s.nextId], mask := r.mask ||| s.rowMask is c f (some h1.toNat)
        lanes0 := if h1 then r.lanes0 else is.reach, lanes1 := if h1 then is.reach else r.lanes1
        seen := r.seen ++ s.scaleSeen is f, posts := r.posts ++ [(is.uid, is.slot)] }))

/-- R123 to R126, R154, R155: GEN.OPEN of a whole home warp without a Basket opens generator mode at its clause's end; YIELD puts the entries
of its runs into the Basket; GEN.POINT and GEN.PEND reach a switch point, outside consume mode; GEN.TAKE and GEN.NEXT act in
consume mode.
Choices: That GEN.POINT and GEN.PEND act whatever the guards are is the model's reading (log 43). -/
def Obligations.GeneratorMode : Prop :=
  ∀ (s : State) (is : Issue) (c : Ctl) (w t a : Nat) (cons exit : BitVec 16) (k : Basket) (fr : Bool),
    let i := s.inst is.iid
    let h := i.hwOf (lowest is.lanes).tid
    (Issues s is (.genOpen c w t cons exit) c [] → (i.hw h).basket = none → is.gopen = none → is.lanes.length = 32 →
      (s.runs is c).length = 32 → (∀ l ∈ is.lanes, i.hwOf l.tid = h) → exec (.genOpen c w t cons exit) s = .next
      (let k : Basket := { w, t, f0 := Frame.empty, f1 := Frame.empty, filling := false, consEntry := is.label cons
                           exitHdr := is.label exit, yielded := false, consuming := none, draining := false, nexted := [], ages := 0 }
       ((s.startOp is (.genOpen c w t cons exit) c ((s.runs is c).map fun r => partOf r []) []).setIssue
         { is with gopen := some k }).past is c)) ∧
    ((i.hw h).basket = some k →
      (Issues s is (.yield c a) c [⟨a, k.w, false⟩] → s.runs is c ≠ [] → k.consuming = none → k.yielded = false →
        exec (.yield c a) s = .next
          (let t := s.modHw is.iid h fun w => { w with basket := some { (s.runs is c).foldl (fun (k : Basket) r =>
              k.push ((s.ownRange is r a k.w).map fun x => x.setWidth 32)) k with yielded := true } }
           (t.startOp is (.yield c a) c ((s.runs is c).map fun r => partOf r []) []).past is c)) ∧
      (Issues s is (.genTake c a) c [⟨a, k.w, false⟩] → k.consuming = some fr → exec (.genTake c a) s = .next
        (s.inFlight is (.genTake c a) c ((s.runs is c).map fun r => partOf r ((List.range k.w).map fun j =>
          ((((k.frame fr).entries.getD (i.laneOf r.t.tid) []).getD j 0).setWidth 64))) [⟨a, k.w, false⟩])) ∧
      (Issues s is (.genNext c) c [] → k.consuming.isSome → exec (.genNext c) s = .next
        (((s.fixedFlag is c 1).1.setIssue { (s.fixedFlag is c 1).2 with gend := some (.next ((s.runs is c).map (·.t.tid))) }).past is c)) ∧
      (k.consuming = none → (s.ctx i.ctx).ccb.recB = false → (s.ctx i.ctx).ccb.rplB = false →
        (Issues s is (.genPoint c) c [] → exec (.genPoint c) s = .next
          (((s.fixedFlag is c 1).1.setIssue { (s.fixedFlag is c 1).2 with gend := some .point }).past is c)) ∧
        (Issues s is (.genPend c) c [] → exec (.genPend c) s = .next
          (let t := s.modInst is.iid fun i => ((s.runs is c).map (·.t.tid)).foldl (fun i t => i.modTh t fun th =>
            { th with pended := true }) i
           ((t.fixedFlag is c 1).1.setIssue { (t.fixedFlag is c 1).2 with gend := some .point }).past is c))))

/-- R119, R127, R156, R160, R161: the waits at issue that end: DQPUSH with a permit, SQPUSH to a queue with room, SQPOP of a queue with a record or
whose producers are over, each on the side of the queue that is the instance's own (R163), REGGROW of one home warp granted, refused or put
to sleep, where no older request fits.
Choices: Which rows REGGROW takes is the model's choice (log 24). -/
def Obligations.QueuesAndGrowth : Prop :=
  ∀ (s : State) (is : Issue) (c : Ctl) (a q pp d pd : Nat) (wait : Bool) (b : BSrc),
    let i := s.inst is.iid
    let plain := (s.ctx i.ctx).ccb.recB = false ∧ (s.ctx i.ctx).ccb.rplB = false
    let parts (f : Run → List DWord) : List Part := (s.runs is c).map fun r => partOf r (f r)
    (Issues s is (.dqpush c a) c [] → s.runs is c ≠ [] → (s.core i.core).permits ≠ 0 → exec (.dqpush c a) s = .next
      ((s.modCore i.core fun k => { k with permits := k.permits - 1 }).inFlight is (.dqpush c a) c
        (parts fun r => [s.ownReg is r a, s.ownReg is r (a + 1)]) [])) ∧
    (∀ x, Issues s is (.sqpush c a q) c [⟨a, x.recSize / 8, false⟩] → s.runs is c ≠ [] → s.sqCheck i q a true = .ok x →
      (∀ t ∈ i.sides (s.pairedStage i x.consumer), (x.held t).length + s.sqGoing i q < x.cap) → exec (.sqpush c a q) s = .next
      (s.inFlight is (.sqpush c a q) c (parts fun r =>
        [7, 0, 0] ++ (List.range (x.recSize / 8)).map fun k => s.ownReg is r (a + k)) [])) ∧
    (∀ x l, s.sqCheck i q d false = .ok x → s.launchOf i = some l → s.runs is c ≠ [] →
      Issues s is (.sqpop c pp d q) c [⟨d, x.recSize / 8, false⟩] →
      (x.held i.trailing = [] → s.stageOver l x.producer = true → exec (.sqpop c pp d q) s = .next
        (s.inFlight is (.sqpop c pp d q) c (parts fun _ => []) [])) ∧
      (∀ r rest, x.held i.trailing = r :: rest → plain → exec (.sqpop c pp d q) s = .next
        ((s.modQueue i.launch q fun x => (x.put i.trailing rest).count i.trailing).inFlight is (.sqpop c pp d q) c
          (parts fun _ => r) [⟨d, x.recSize / 8, false⟩]))) ∧
    (∀ r, Issues s is (.reggrow c wait pd b) c [] → s.runs is c = [r] → plain → s.growFits i.core = [] →
      let h := i.hwOf r.t.tid
      let g := (s.srcB is r .b32 b).toNat % 2 ^ 32
      let go (s : State) (code : DWord) : State := s.startOp is (.reggrow c wait pd b) c [partOf r [code]] []
      (s.growAsk is.iid h g wait = .fail → exec (.reggrow c wait pd b) s = .next ((go s 0).past is c)) ∧
      (∀ v n, s.growAsk is.iid h g wait = .grant v n → exec (.reggrow c wait pd b) s = .next
        ((go (s.modHw is.iid h fun w => { w with moveTo := w.moveTo ++ [(s.nextId, v, n)] }) 1).past is c)) ∧
      (s.growAsk is.iid h g wait = .wait → exec (.reggrow c wait pd b) s = .next
        ((((go s 2).modHw is.iid h fun w => { w with grow := some ⟨g, pd, s.nextId⟩ }).sleep is.iid r.t.tid .grow).past is c)))

/-- R226, R229, R255, R256, R349: FLOW starts its flows once the entry lets them, in lane order, refused parts parking; FLWAIT goes in
flight with the entry that its handle names; FRED sends one part for each home warp, with the member's words and the identity in
every other lane.
Choices: The corners of flows are the model's readings (log 46, 48). -/
def Obligations.FlowsAndReductions : Prop :=
  ∀ (s u : State) (is : Issue) (c : Ctl) (k a so d n : Nat) (sc : Scope) (rs : List (Nat × Nat)) (bf : Bool) (op : FrOp) (o : O2),
    let i := s.inst is.iid
    (∀ x ∈ ([(.flowReg c k sc a, fun r => if is.guide then [lo32 (s.ownReg is r a), s.ownReg is r a >>> 32, lo32 (s.ownReg is r (a + 1))]
          else [lo32 (s.ownReg is r a), lo32 (s.ownReg is r (a + 1)), lo32 (s.ownReg is r (a + 2))]),
        (.flowImm c k sc so d n, fun _ => [BitVec.ofNat 64 (256 * so), BitVec.ofNat 64 (256 * d), BitVec.ofNat 64 n])] :
        List (Instr × (Run → List DWord))),
      Issues s is x.1 c [] → is.part = none → sc ≠ .sy →
      ((s.handle i.ctx k).map fun g => (s.claim g).dk == .peer).getD false = false →
      (let t := s.startOp is x.1 c ((s.runs is c).map fun r => partOf r (x.2 r ++ [BitVec.ofNat 64 sc.code, 0])) []
       flowParts s.nextId k false t ((((t.op? s.nextId).map (·.parts)).getD []).filter fun (p : Part) => !p.arrived)) = (true, rs, u) →
      exec x.1 s = .next
        (let t := u.parkFlows s.nextId rs
         ({ t with issues := t.issues.map fun (x : Issue) => if x.q == is.q then { x with part := none } else x } : State).past is c)) ∧
    (Issues s is (.flwait c k sc) c [] → sc ≠ .sy → exec (.flwait c k sc) s = .next (s.inFlight is (.flwait c k sc) c
      ((s.runs is c).map fun r => partOf r [BitVec.ofNat 64 sc.code, BitVec.ofNat 64 (((s.handle i.ctx k).map (· + 1)).getD 0)]) [])) ∧
    (Issues s is (.fred c bf op o) c [] → ∃ ps : List Part, exec (.fred c bf op o) s = .next (s.inFlight is (.fred c bf op o) c ps []) ∧
      ps.map (·.tid) = (byHw i is.lanes).map (fun g => (lowest g.2).tid) ∧
      ∀ p ∈ ps, ∀ l, l < 32 → (∀ r ∈ s.runs is c, i.hwOf r.t.tid = i.hwOf p.tid → i.laneOf r.t.tid = l →
          (p.arg 2).getLsbD l = true) ∧
        ((∀ r ∈ s.runs is c, i.hwOf r.t.tid = i.hwOf p.tid → i.laneOf r.t.tid ≠ l) →
          (p.arg 2).getLsbD l = false ∧ p.arg (3 + l) = BitVec.ofNat 64 (fredIdentity bf op)))

/-- R264, R266, R303, R305, R313, R326: MOVPS reads the registers that its runs name, MOVPS.w writes the one its run names; TRMARK
marks the trace; the error injections act only where the context has them enabled; WRET ends its walker's walk; LAUNCH
completes when the descriptors of all its runs are read.
Choices: Reads of empty queues are open (log 51), and the checks of LAUNCH are read as log 59 says. -/
def Obligations.SystemOperations : Prop :=
  ∀ (s t : State) (is : Issue) (c : Ctl) (d id cause : Nat) (a : VSrc) (b : BSrc) (o : O1),
    let i := s.inst is.iid
    let ix (r : Run) : PsIdx := psIdx (s.srcB is r .n32 b).toNat
    (Issues s is (.movps c d b) c [] → (∀ r ∈ s.runs is c, s.psOk is.iid (ix r) = true) → exec (.movps c d b) s = .next
      (s.settle is c 3 ((s.runs is c).flatMap fun r => s.dst is r true d (s.psRead is.iid (ix r))))) ∧
    (∀ r, Issues s is (.movpsW c a b) c [] → s.runs is c = [r] → s.psOk is.iid (ix r) = true →
      (s.psWrite is.iid (i.th (lowest is.lanes).tid).level (ix r) (s.srcV is r true a) = .done t →
        exec (.movpsW c a b) s = .next (t.settle is c 3 [])) ∧
      (s.psWrite is.iid (i.th (lowest is.lanes).tid).level (ix r) (s.srcV is r true a) = .privilege →
        exec (.movpsW c a b) s = .next (s.trapThreads is [r.t.tid] 2 0x3C9 0 is.hdrAt 0x3C9))) ∧
    (Issues s is (.trmark c b) c [] → exec (.trmark c b) s = .next
      (let ts := (s.runs is c).map fun r => ((s.srcB is r .n32 b &&& 0xFFFF), r.t.tid)
       (((ts.map (·.1)).eraseDups).foldl (fun s x => s.traceEvent is ((Config.openRead s.fresh 326).toNat % 256)
         ((ts.filter fun t => t.1 == x).map (·.2)) x) s).settle is c 3 [])) ∧
    (∀ x ∈ ([(.einjPerr c, fun t r => t.consume is.iid r.t.tid 8 0 is.hdrAt none),
        (.einjPoison c, fun t r => t.modTh is.iid r.t.tid fun y => { y with poison := true }),
        (.einjPmis c b, fun t r => if (t.inst is.iid).trailing then
          t.modTh is.iid r.t.tid fun y => { y with pmis := some ((t.srcB is r .b32 b).setWidth 32) } else t),
        (.einjCerr c, fun t r => t.consume is.iid r.t.tid 8 0 is.hdrAt none)] : List (Instr × (State → Run → State))),
      Issues s is x.1 c [] →
      ((s.ctx i.ctx).ccb.inj = false ∨ i.kind ≠ .stage → exec x.1 s = .next (s.inFlight is x.1 c ((s.runs is c).map fun r => partOf r []) [])) ∧
      ((s.ctx i.ctx).ccb.inj = true → i.kind = .stage → (s.ctx i.ctx).ccb.recB = false → (s.ctx i.ctx).ccb.rplB = false →
        exec x.1 s = .next
          (let t := ((s.runs is c).filter fun r => !s.muted is.iid r.t.tid s.nextId).foldl x.2 s
           t.inFlight is x.1 c ((t.runs is c).map fun r => partOf r []) []))) ∧
    (∀ k w, s.runs is c ≠ [] → s.walkOf is.iid = some (k, w) → w.again = false →
      ∀ x ∈ [(Instr.wretFill c, if w.filled then WalkEnd.fill else .deny 1), (.wretServ c, .serv), (.wretDeny c cause, .deny cause)],
        Issues s is x.1 c [] → exec x.1 s = .next ((s.endWalk (is.iid - 64) x.2).settleAt is c)) ∧
    (∀ y, Issues s is (.launch c o) c [] → is.part = some id → s.op? id = some y →
      (∀ p ∈ y.parts, 2 ≤ (p.arg 3).toNat ∧ (p.arg 3 = 2 → (p.arg 8).toNat % 2 ^ 16 = i.ctx)) → exec (.launch c o) s = .next
      (({ s with issues := s.issues.map fun (x : Issue) => if x.q == is.q then { x with part := none } else x } : State).past is c))

/-! ### What the machine does between instructions -/

/-- R127, R156, R172, R173, R186, R187, R226, R227, R229: a claim whose walk is through is Held; a flow's end drops it and completes its part; register
growth is answered, or in a deadlock refused; a half joint entry of 2^20 cycles times out, a waiting request of age gains a priority
level, the only request that may run is granted, a pass of full length writes its tile; MRDY completes once the bytes are there.
Choices: When a growth is a deadlock is the model's choice (log 25), and the cycle counts are those of the model's clock (log 5). -/
def Obligations.ClaimAndMatrixEvents : Prop :=
  ∀ (s t : State) (die entry cluster flow iid hw core : Nat) (r : Rsv) (g : Grow) (a : GrowAns),
    (let k := die * 256 + entry
     let c := s.claim k
     c.st = .walking → 0 < c.len → c.len ≤ Config.claimBytes → c.dk ≠ .fifo → walkItems k s (c.items.drop c.walked) = (.next, t) →
     (t.claim k).dk ≠ .fifo → exec (.claimWalkEnd die entry) s =
      .next ((t.modClaim k fun c => { c with st := .held }).partDone (t.claim k).op (t.claim k).tid)) ∧
    (∀ f0 f : Flow, (s.flows.find? fun (f : Flow) => f.id == flow) = some f0 →
      t = (List.range f0.n).foldl (fun s k => s.flowByte flow k) s → (t.flows.find? fun (f : Flow) => f.id == flow) = some f →
      f.n ≤ f.moved.length → (t.claim (f.die * 256 + f.entry)).dk ≠ .peer → f.lost = false → exec (.flowComplete flow) s =
        .next ((({ t with flows := t.flows.filter fun (x : Flow) => x.id != flow } : State).modClaim (f.die * 256 + f.entry) fun c =>
          { c with flows := c.flows - 1, st := if c.st == .revoking && c.flows == 1 then .revoked else c.st }).partDone f.op f.tid)) ∧
    (s.growFits (s.inst iid).core = [(iid, hw, g, a)] → exec (.reggrowGrant iid hw) s = .next (s.growAnswer iid hw g a)) ∧
    (∀ i : Inst, s.plain i.ctx → (s.insts.filter fun p => p.2.kind == .stage && p.2.core == core) = [(iid, i)] → i.hws.filterMap (fun h => h.2.grow.map
        fun g => (h.1, g)) = [(hw, g)] → (∀ p ∈ i.ths, p.2.status = .exited ∨ ∃ c, p.2.status = .sleeping c) → s.growFits core = [] →
      (∀ o ∈ s.ops, o.iid = iid → o.flag.isSome → sleeps o.ins = true) →
      exec (.growthDeadlock core) s = .next (s.growAnswer iid hw g .fail)) ∧
    (find? (s.cluster cluster).resv entry = some r →
      (r.half.isSome → r.posted + 2 ^ 20 ≤ s.now → (s.ctx (s.inst r.iid).ctx).ccb.rplB = false → ∃ u, exec (.jointEntryTimeout cluster entry) s = .next u ∧
        find? (u.cluster cluster).resv entry = some { r with half := none, timeout := true } ∧ u.mem = s.mem) ∧
      (r.granted = none → r.prio < r.level s.now → ∃ u, exec (.priorityPromotion cluster entry) s = .next u ∧
        find? (u.cluster cluster).resv entry = some { r with prio := r.prio + 1 } ∧ u.mem = s.mem) ∧
      (∀ at_, r.granted = some at_ → (∀ p ∈ (s.cluster cluster).resv, ∀ u, p.2.granted = some u → at_ ≤ u) →
        at_ + shapeCycles r.f.shape ≤ s.now →
        (r.failed = true → exec (.passComplete cluster entry) s = .next ((s.failPass r).rsvEnd cluster entry r)) ∧
        (r.failed = false → exec (.passComplete cluster entry) s = .next
          (let z := s.passRun r
           (s.modCore (s.inst r.iid).core fun k => { k with
             acc := z.1, tstat := sset 0 k.tstat (s.rsvTile r) (statusOr (sget 0 k.tstat (s.rsvTile r)) z.2.1 z.2.2) }).rsvEnd
             cluster entry r)))) ∧
    (((s.cluster cluster).resv.filter fun p => s.eligible (s.cluster cluster) p.2) = [(entry, r)] → (s.cluster cluster).busy ≤ s.now →
      s.plain (s.inst r.iid).ctx → (∀ p ∈ (s.cluster cluster).resv, (s.ctx (s.inst p.2.iid).ctx).ccb.rplB = false) → exec (.arbiterGrant cluster) s = .next (s.grant cluster entry r)) ∧
    (∀ o c fa fb shape, s.op? flow = some o → o.ins = .mrdy c fa fb shape → s.ready (s.inst o.iid).engine fa fb shape = true →
      exec (.mrdyReady flow) s = .next (o.parts.foldl (fun s p => s.partDone o.id p.tid) s))

/-- R210, R279, R302, R304, R308, R314, R328, R330, R342: an unmasked class interrupts a steward thread, at S or at M, that is between clauses; a
waiting memory fault or pipeline error traps it; the ring words, bin controls, virtual-function blocks, queue pops, links, unreachable counts and
the module number are written as their writes say.
Choices: That these rows stand for a steward's MOVPS.w, on which steward classes wait, and how a steward takes a pipeline error, whose cause is open, are the model's readings (log 16, 50, 52, 77). -/
def Obligations.StewardEvents : Prop :=
  ∀ (s : State) (die n core bin vf k link : Nat) (v : DWord) (id : BitVec 19),
    let q := stewardId die n
    let th := (s.inst q).th 0
    ((s.inst q).kind = .steward → s.issuing q 0 = false →
      ((s.steward q).s.ie = true → s.unmasked q ≠ 0 → exec (.interruptEntry die n) s =
        .next (s.enterLevel q 1 ⟨3, s.unmasked q, 0⟩ th.header)) ∧
      (∀ r rest, th.pend = r :: rest → exec (.stewardTrapEntry die n ⟨r.code, r.detail, r.addr⟩) s = .next
        (let t := s.modTh q 0 fun x => { x with pend := rest }
         if r.code = 8 then t.stewardOther q r.detail th.header else t.stewardTrap q ⟨r.code, r.detail, r.addr⟩ th.header))) ∧
    ((s.ctx k).ccb.recB = true → exec (.logRingConsumerWrite k v) s = .next
      (s.modCtx k fun x => { x with log := x.log.setConsumer v.toNat })) ∧
    ((s.ctx k).ccb.rplB = true → exec (.logRingProducerWrite k v) s = .next
      (s.modCtx k fun x => { x with log := x.log.setProducer v.toNat })) ∧
    (∃ t, exec (.laneBinCtlWrite core bin v) s = .next t ∧ t.mem = s.mem ∧ ((find? (t.core core).bins bin).getD noBin) =
      { ((find? (s.core core).bins bin).getD noBin) with ctl := v &&& 0xFFFF0001, cnt := [0, 0, 0, 0, 0] }) ∧
    (let g := (s.vf vf).put k v 2
     (g.world = 0 → exec (.vfBlockWrite vf k v) s = .next (s.setVf vf { g with clusters := s.unfenced g.clusters })) ∧
     (g.world ≠ 0 → g.diesM.testBit 0 = false → (∀ d, d < Config.dies → g.diesM.testBit d = true → (s.die d).world = g.world) →
       exec (.vfBlockWrite vf k v) s =
         .next (s.setVf vf { g with clusters := s.unfenced (diesClusters g.diesM), ctrls := diesCtrls g.diesM })) ∧
     (∀ d, g.world ≠ 0 → d < Config.dies → g.diesM.testBit d = true → (d = 0 ∨ (s.die d).world ≠ g.world) →
       exec (.vfBlockWrite vf k v) s = .next s)) ∧
    (∃ t, exec (.memoryEventPop die) s = .next t ∧ (t.die die).trapq = (s.die die).trapq ∧
      ((s.die die).memWait = [] → (t.die die).memq = (s.die die).memq.drop 1) ∧
      (∀ w r, (s.die die).memWait = w :: r → (s.die die).memq ≠ [] → (t.die die).memq = (s.die die).memq.drop 1 ++ [w] ∧
        (t.die die).memWait = r)) ∧
    (∃ t, exec (.trapQueuePop die) s = .next t ∧ (t.die die).memq = (s.die die).memq ∧
      ((s.die die).trapWait = [] → (t.die die).trapq = (s.die die).trapq.drop 1) ∧
      (∀ w r, (s.die die).trapWait = w :: r → (s.die die).trapq ≠ [] → (t.die die).trapq = (s.die die).trapq.drop 1 ++ [w] ∧
        (t.die die).trapWait = r)) ∧
    (∃ t, exec (.unreachClear die) s = .next t ∧ (t.die die).unreach = 0 ∧ t.probing = s.down ∧ t.down = s.down) ∧
    (link < 2 → ∃ t u, exec (.linkDown die link) s = .next t ∧ (t.die die).links / 2 ^ link % 2 = 0 ∧
      exec (.linkUp die link) s = .next u ∧ (u.die die).links / 2 ^ link % 2 = 1) ∧
    (s.booted = false → exec (.moduleIdAssign id) s = .next { s with modId := id.toNat })

/-- R197, R207, R215, R244: a missed request starts or joins its page's walk; the oldest walk without a slot gets a free one
of its die; a clean sector is dropped; a write between dies is applied after those that are cause-before it, where its slice
has room and no undo area is full, and dropped where the die has another world (R216); a migration pins
its entry, copies its page once drained, remaps it, and is unpinned at its acknowledgement.
Choices: The walker's slot, the corners of its registers, the room that an arriving write finds and the context number 0xFFFF of event 4 are the model's readings (log 22, 53, 55). -/
def Obligations.TranslationEvents : Prop :=
  ∀ (s : State) (w : Want) (k : Walk) (ctrl cluster die key : Nat) (m : Mig) (d : D2d),
    ((s.wants.find? fun (x : Want) => x.id == w.id && x.st == .missed) = some w →
      (let join (s : State) : State := { s with wants := s.wants.map fun (x : Want) => if x.id == w.id then { x with st := .walking } else x }
       ((s.walks.any fun (k : Walk) => k.ctrl == w.ctrl && k.asid == w.asid && k.page == w.page) = true →
         exec (.tlbMiss w.id) s = .next (join s)) ∧
       ((s.walks.any fun (k : Walk) => k.ctrl == w.ctrl && k.asid == w.asid && k.page == w.page) = false →
         (s.walks.filter fun (k : Walk) => k.ctrl == w.ctrl).length < Config.walkMax → exec (.tlbMiss w.id) s = .next (join
           { s with walks := s.walks ++ [({ ctrl := w.ctrl, asid := w.asid, page := w.page, kind := w.kind, priv := w.priv, world := w.world
                                            ctx := w.ctx, cluster := none, filled := false, stale := false } : Walk)] })))) ∧
    (s.walks = [k] → k.ctrl = ctrl → k.cluster = none → cluster / Config.clustersPerDie = ctrlDie ctrl → (s.cluster cluster).walk = none →
      ∃ u, exec (.walkerDispatch ctrl cluster) s = .next u ∧ (u.cluster cluster).walk = some 0 ∧
        u.walks = [{ k with cluster := some cluster, filled := false }] ∧ u.inst? (walkerId cluster) = some (s.walkerInst k) ∧
        u.mem = s.mem) ∧
    (∀ x, find? (s.die die).l2 key = some x → x.dirty = 0 → exec (.sectorWrite die key) s = .next
      (s.modDie die fun y => { y with l2 := sdel y.l2 key })) ∧
    ((s.d2d.find? fun (m : D2d) => m.id == d.id) = some d →
      (s.d2d.any fun (x : D2d) => x.id != d.id && x.dst == d.dst && vcLe (vcGet x.vc x.src) (vcGet d.vc x.src)) = false →
      (let u : State := { s with d2d := s.d2d.filter fun (x : D2d) => x.id != d.id }
       let seen (t : State) : State := t.modDie d.dst fun x => { x with vc := vcMax x.vc d.vc }
       ((s.die d.dst).world ≠ d.world → exec (.dieToDieWriteArrival d.id) s = .next (seen u)) ∧
       ((s.die d.dst).world = d.world → s.migOf d.pa d.key = none → u.l2Full d.dst d.key = false →
         (d.mask = BitVec.allOnes 32 ∨ u.fillsPoison d.dst d.key d.pa = false ∨ u.undoOk d.pa d.minor = true) →
         exec (.dieToDieWriteArrival d.id) s = .next
         (seen (u.mergeL2 d.dst d.key d.pa d.ctx d.rights d.data d.mask d.major d.minor))))) ∧
    (∀ asid va big far frame, s.mig? ctrl asid (BitVec.toNat va) = none →
      (s.tlb.any fun p => migLeaf ctrl asid va.toNat p && p.2.big == big && !p.2.win) = true →
      ∃ u, exec (.migrationRequest ctrl asid va big far frame) s = .next u ∧ u.mem = s.mem ∧ u.migs = s.migs ++
        [⟨ctrl, asid, if big then va.toNat / 2 ^ 21 * 2 ^ 21 else va.toNat / 2 ^ 12 * 2 ^ 12, big, far, frame, .draining, []⟩]) ∧
    (∀ (va : DWord) src dst n, s.mig? ctrl m.asid va.toNat = some m →
      (s.migFrames m = some (src, dst, n) → m.st = .draining → s.migDrained m = true → exec (.migrationCopy ctrl m.asid va) s = .next
        (((List.range (n / 32)).foldl (fun s k => s.migSector (src + 32 * k) (dst + 32 * k) (s.major (src + 32 * k))) s).modMig m
          fun x => { x with st := .copied })) ∧
      (s.migFrames m = some (src, dst, n) → m.st = .copied → m.held = [] → exec (.migrationComplete ctrl m.asid va) s = .next
        ((((s.remap src dst n).modLeaves ctrl m.asid va.toNat fun l => { l with frame := m.frame, far := m.far }).modMig m fun x =>
          { x with st := .done, held := [] }).pushEvent (ctrl / 8) 4 0 0xFFFF ctrl m.page)) ∧
      (m.st = .done → ∃ u, exec (.migrationAck ctrl m.asid va) s = .next u ∧ u.migs = s.migs.filter (fun (x : Mig) => x != m) ∧
        (∀ p ∈ u.tlb, migLeaf ctrl m.asid va.toNat p = true → p.2.pin = false ∧ p.2.mig = false) ∧ u.mem = s.mem))

/-- R244, R334 to R342, R346, R349, R350: answers of the fabric. An acknowledgement ends its request and gives its word, deciphered, to the load, the
atomic or the flow that waits; a refusal is passed to what was refused; a peer that is gone, by report or by 2^23 cycles without an answer, is down
until it answers a probe; packets of other modules are taken in the order of their source, source die and class and served; a switch reduction's round gives every
member the sum.
Choices: The packets are inputs (log 66), the corners are the model's readings (log 48), and the cycle counts those of the model's clock (log 5). -/
def Obligations.FabricEvents : Prop :=
  ∀ (s : State) (req peer core line cause : Nat) (data va : DWord) (f : FReq) (p : Packet) (r : AtomReq) (die len entry : Nat) (isDst : Bool),
    let drop : State := s.dropReq req
    let word : DWord := (s.vfOf f.ctx).padWord f.off data
    (s.freq? req = some f → f.peer ≠ s.modId →
      (∀ e, f.kind = .write e → exec (.remoteAck req data) s = .next drop) ∧
      (∀ op tid w own, f.kind = .load op tid w own → exec (.remoteAck req data) s =
        .next (drop.withPart op tid fun s o p => s.loadAnswer o p w own word)) ∧
      (∀ op tid, f.kind = .atomic op tid → exec (.remoteAck req data) s =
        .next (drop.withPart op tid fun s o p => (s.sibling o.iid tid).atomEnd o p (some (oldOf o word)))) ∧
      (∀ d e dst, f.kind = .grant d e dst → exec (.remoteAck req data) s =
        .next (drop.modClaim (d * 256 + e) fun c => { c with granted := c.granted ++ [dst] })) ∧
      (∀ id k, f.kind = .fetch id k → exec (.remoteAck req data) s =
        .next (drop.modFlow id fun x => { x with got := sput x.got k (word.setWidth 8) })) ∧
      (cause ∈ [1, 2, 3, 5] → exec (.remoteRefusal req cause) s = .next (s.refuse f cause)) ∧
      (∀ e, f.kind = .write e → cause ∈ [1, 2, 3, 5] → exec (.remoteRefusal req cause) s =
        .next (drop.pushSf f.core (e.record e.low cause e.data.length))) ∧
      (f.sent + Config.ackCycles ≤ s.now → exec (.ackTimeout req) s = exec (.destinationUnreachable f.peer) s)) ∧
    (s.probing.contains peer = false → s.down.contains peer = false →
      let u := (List.range Config.dies).foldl (fun s d => s.modDie d fun x => { x with unreach := (x.unreach + 1) % 2 ^ 64 })
        ({ s with down := s.down ++ [peer] } : State)
      let hit (c : Claim) : Bool := (u.claimPeers c).contains peer
      let lose (f : Flow) : Flow := if (hit (u.claim (f.die * 256 + f.entry)) && !f.acked) = true then { f with lost := true } else f
      let asks (o : PendOp) (p : Part) : Bool := match o.ins with
        | .claimNew _ _ sk dk _ _ => hit { sk, dk, src := p.arg 0, dst := p.arg 1, pod := (p.arg 3).toNat }
        | _ => false
      let v := (({ u with flows := u.flows.map lose } : State).revokeWhere hit 3).2.revokeWaiting asks
      exec (.destinationUnreachable peer) s = .next ((v.freqs.filter fun (f : FReq) => f.peer == peer).foldl (fun s f => s.lostReq f) v)) ∧
    (s.probing.contains peer = true → exec (.probeAnswer peer) s = .next
      { s with probing := s.probing.filter (· != peer), down := s.down.filter (· != peer) }) ∧
    (exec (.hamperAgeExpiry core line) s = .next
      (s.drainWhere core fun e => e.line == line && decide (e.opened + e.limit ≤ s.now))) ∧
    (∀ x ∈ ([(.remoteMaskedWrite p, p, if p.cls = 2 then 2 else 0, .write), (.remoteLoadRequest p, p, if p.cls = 2 then 2 else 0, .load),
        (.multicastCopy p, p, 3, .write), (.remoteAtomicRequest r, r.pkt, 0, .atomic r.op r.ty r.cas r.b r.c),
        (.grantRequest die p len isDst, p, 2, .grant die len isDst)] : List (Instr × Packet × Nat × SKind)),
      die < Config.dies → len ≠ 0 → x.2.1.src ≠ s.modId →
      (∀ v ∈ s.served, v.pkt.src ≠ x.2.1.src ∨ v.pkt.srcDie ≠ x.2.1.srcDie ∨ v.pkt.cls ≠ x.2.2.1) →
      x.2.1.seqNo = sget 0 s.rxSeq ((x.2.1.src * 8 + x.2.1.srcDie) * 4 + x.2.2.1) → exec x.1 s = .next
        (let v : Served := { id := s.nextId, pkt := { x.2.1 with cls := x.2.2.1 }, kind := x.2.2.2 }
         ({ s with nextId := s.nextId + 1, served := s.served ++ [v]
                   rxSeq := sset 0 s.rxSeq ((x.2.1.src * 8 + x.2.1.srcDie) * 4 + x.2.2.1) (x.2.1.seqNo + 1) } : State).serve v)) ∧
    (cause = 1 ∨ cause = 2 → exec (.peerRevokeMessage peer va cause) s = .next (s.revokeWhere (fun (c : Claim) =>
      (c.sk == .peer && s.sidePeer c false == peer && decide (c.src.toNat ≤ va.toNat) && decide (va.toNat < c.src.toNat + c.len)) ||
      (c.dk == .peer && s.sidePeer c true == peer && decide (c.dst.toNat ≤ va.toNat) && decide (va.toNat < c.dst.toNat + c.len)))
      cause).2) ∧
    ((∀ g, find? (s.die die).grants entry = some g → ∀ x ∈ s.claimList, s.ownGrant g x.2 = false) →
      ∃ t, exec (.flowsDrainedReport die entry) s = .next t ∧ find? (t.die die).grants entry = none ∧ t.mem = s.mem) ∧
    (∀ (c : Contrib) (o : PendOp) (cl : Ctl) (bf : Bool) (fop : FrOp) (x : O2) (others : List (List Word)) (q : Part),
      s.contribs = [c] → s.op? c.op = some o → o.ins = .fred cl bf fop x → (s.inst o.iid).paired = false → o.part? c.tid = some q →
      (exec (.fredRoundComplete c.group c.round others) s = .next
        (({ s with contribs := [] } : State).fredOut o q x.d ((List.range 32).map fun l => fredWord c.bf c.fop
          (c.elems.getD l 0 :: others.map fun ws => (ws.map (·.toNat)).getD l 0)))) ∧
      ((∀ t ∈ (s.inst o.iid).maskTids ((s.inst o.iid).hwOf c.tid) (q.arg 2), s.canPark o t = true) → ∃ access,
        exec (.fredRefusal c.id) s = .next (((({ s with contribs := [] } : State).partDone o.id c.tid).threadFault o.iid
          ((s.inst o.iid).hwOf c.tid) ((s.inst o.iid).maskTids ((s.inst o.iid).hwOf c.tid) (q.arg 2)) 1 access 0 o.hdr o.flag))))

/-- R216, R279, R288, R292, R294, R295, R307: what the monitor does for a steward that has called it, where the call is good: MAP zeroes the frame, writes the leaf and
records the mapping, where the undo areas have room for what they log, UNMAP takes both away once claims and lines are gone, LOAD makes code execute-only and measures, REPORT writes its bytes, ASSIGN and
RELEASE change the world of dies, VFSET the clusters of a virtual function, ACTIVATE begins an activation.
Choices: The answer codes and the formats of lists are the model's choices (log 38, 39). -/
def Obligations.MonitorServices : Prop :=
  ∀ (s t u : State) (d n : Nat) (c : Nat × Nat),
    let who := Caller.steward d n
    let A := s.argP c 2
    let B := s.argP c 4
    let w2 := s.argW c 2
    let w3 := s.argW c 3
    let w4 := s.argW c 4
    let bits := s.argW c 6
    let x := s.argW c 7 % 65536
    let page := A / 4096 * 4096
    (∀ a, s.caller who 0 = some c → s.monCopy x false = (true, t) → bits < 2 ^ 11 → bits % 2 = 1 → bits.testBit 4 = true →
      bits / 64 % 4 = 0 → (bits.testBit 2 = true → bits.testBit 1 = true) → aperOf A = .mem →
      (t.monitor.maps.any fun (m : MapRec) => m.ctx == x && m.va == page) = false →
      t.mapCheck x B A bits (if bits.testBit 5 then (t.ctx x).ccb.sasid else (t.ctx x).ccb.asid) = 0 →
      t.pteOf true A 4 (t.ctx x).ccb.root = (some (a, 0), u) → ∀ z,
      t.undoFits ((u.zeroFrame B page).monPut a (bytesOf 8 (leafBits bits B))) = .inr z → exec (.mcallMap who) s = .next
        (({ z with monitor := { z.monitor with
            owner := sset 0 z.monitor.owner (B / 4096) (t.ctx x).ccb.world
            maps := z.monitor.maps ++ [{ ctx := x, frame := B, va := page, w := bits.testBit 2
                                         tag := if bits.testBit 5 then (t.ctx x).ccb.sasid else (t.ctx x).ccb.asid }] } } : State).reply who c 0
            none)) ∧
    (∀ m a k v w, s.caller who 1 = some c → s.monitorHas x = true →
      (s.monitor.maps.find? fun (m : MapRec) => m.ctx == x && m.va == page) = some m →
      s.pteOf false A 4 (s.ctx x).ccb.root = (some (a, k), s) →
      s.undoFits (s.monPut a (List.replicate 8 0)) = .inr w →
      w.claimList = [] → (∀ p ∈ w.dies, p.2.grants = []) → w.cinv 0 m.tag page = (true, v) → v.d2d = [] → v.monitor = s.monitor →
      ∃ y : State, exec (.mcallUnmap who) s = .next (y.reply who c 0 none) ∧ y.monitor.maps = s.monitor.maps.filter (· != m) ∧
        y.mem = v.mem ∧ ∀ p ∈ y.tlb, tlbHit 0 m.tag page p = true → p.2.gone = true) ∧
    (∀ v, s.caller who 2 = some c → s.monitor.activating = false →
      let list := BitVec.ofNat 64 A
      let all := (Config.loadRegions x list).insertionSort fun a b => a.1 ≤ b.1
      let ms := (all.filter fun r => r.2.2.2).map fun r => (r.1, r.2.1, r.2.2.1)
      let us := (all.filter fun r => !r.2.2.2).map fun r => (r.1, r.2.1)
      let code := (ms.filter fun r => r.2.2.testBit 2).map fun r => (r.1, r.2.1)
      (s.monCopy x true = (false, t) → exec (.mcallLoad who) s = .next (t.reply who c 2 none)) ∧
      (s.monCopy x true = (true, t) → us.length ≤ 16 →
        ((t.mapsIn x code).filter t.notExecOnly ≠ [] → exec (.mcallLoad who) s = .next
          (((t.mapsIn x code).filter t.notExecOnly).foldl (fun s m => s.makeExecOnly m) t)) ∧
        (∀ heads bs, (t.mapsIn x code).filter t.notExecOnly = [] →
          t.readHeads (monWho c) (t.hwReq x 4) ((Config.loadDescs x list).map (·.toNat)) = .inr (some heads, u) →
          readParts (monWho c) u (ms.map fun r => (u.hwReq x (if r.2.2.testBit 2 then 3 else 4), r.1, r.2.1)) = .inr (some bs, v) →
          exec (.mcallLoad who) s = .next (({ v with monitor := { v.monitor with
            meas := sput v.monitor.meas x (shake256 64 (measBytes heads ms bs))
            unmeas := sput v.monitor.unmeas x us, code := sput v.monitor.code x code } } : State).reply who c 0 none)))) ∧
    (∀ nonce, s.caller who 3 = some c → s.monitor.activating = false → s.readAt (monWho c) (s.monReq c 4) A 64 = .got nonce t →
      exec (.mcallReport who) s = .next
      (let b := (s.ctx (s.inst c.1).ctx).ccb
       let r := t.monitor.report b.world b.vf b.inj (b.recB || b.rplB) ((find? t.monitor.meas (s.inst c.1).ctx).getD t.openMeas)
         ((find? t.monitor.unmeas (s.inst c.1).ctx).getD []) nonce
       match t.accCheck (monWho c) (t.monReq c 5) B r.length with
       | (.wait, v) => v
       | (.refuse _ _, v) => v.reply who c 2 none
       | (.ok, v) => (v.homePut (t.monReq c 5) B r).reply who c 0 (some (BitVec.ofNat 64 r.length)))) ∧
    (s.caller who 4 = some c → w3 ≠ 0 → w3 < 256 → w4 < 16 → s.diesOk w2 (· == 0) = true → exec (.mcallAssign who) s = .next
      (let y := (maskDies w2).foldl (fun s d => s.setWorld d w3) (s.reply who c 0 none)
       y.vfWrite w4 { y.vf w4 with world := w3, diesM := if (y.vf w4).world = w3 then (y.vf w4).diesM ||| w2 else w2 })) ∧
    (∀ b, s.caller who 5 = some c → w2 < 16 → s.readAt (monWho c) (s.monReq c 4) B 64 = .got b t → bytesNat b 1 1 = 0 →
      exec (.mcallVfset who) s = .next ((t.setVf w2 { t.vf w2 with world := 0, diesM := bytesNat b 56 1, clusters := t.unfenced (t.vf w2).clusters }).reply who c 0
        none)) ∧
    (s.caller who 6 = some c → s.monitor.activating = false → exec (.mcallActivate who) s = .next
      (let img := Config.imageAt s.fresh (BitVec.ofNat 64 A)
       if img.sigOk = true then ({ s with monitor := { s.monitor with activating := true, next := some img } } : State).reply who c 0 none
       else s.reply who c 2 none)) ∧
    (s.caller who 7 = some c → s.diesOk w2 (· != 0) = true → ∃ y, exec (.mcallRelease who) s = .next y ∧
      y.dies = ((maskDies w2).foldl (fun s d => s.setWorld d 0) (s.reply who c 0 none)).dies ∧
      ∀ p ∈ y.monitor.owner, w2.testBit (paDie (p.1 * 4096)) = false)

/-- R294, R295, R298 to R300: boot verifies and measures its images in order, and a bad one halts the module; an activation ends with its
image measured; the management port starts activations and answers; coolant loss halts; a compute-side reset leaves the far tier;
the thermal limit is a switch.
Choices: The corners of power and management are the model's choices (log 6, 61). -/
def Obligations.ModuleEvents : Prop :=
  ∀ (s : State) (imgs : List BootImage) (img : BootImage) (nonce : List Byte) (on : Bool),
    let meas (ch : List Byte) (i : BootImage) : List Byte := shake256 64 (ch ++ i.meas)
    (s.booted = false → s.halted = false → 3 ≤ imgs.length →
      ((∀ i ∈ imgs, i.sigOk = true) → exec (.powerOnBoot imgs) s = .next
        { s with booted := true, monitor := { s.monitor with chain := imgs.foldl meas s.monitor.chain } }) ∧
      ((∃ i ∈ imgs, i.sigOk = false) → ∃ t, exec (.powerOnBoot imgs) s = .next t ∧ t.halted = true ∧ t.booted = false)) ∧
    (s.monitor.activating = true → s.monitor.next = some img → exec .activationEnd s = .next
      { s with monitor := { s.monitor with chain := meas s.monitor.chain img, activating := false, next := none } }) ∧
    (s.booted = true →
      (s.monitor.activating = false → img.sigOk = true → exec (.managementPortRequest (.image img)) s = .next
        { s with monitor := { s.monitor with activating := true, next := some img } }) ∧
      (s.monitor.activating = false → exec (.managementPortRequest (.attest nonce)) s = .next
        (s.portSend (s.monitor.report 0 0 false false s.openMeas [] ((List.range 64).map fun k => nthByte nonce k)))) ∧
      (∃ x, exec (.managementPortRequest .telemetry) s = .next (s.portSend (bytesOf 8 x)))) ∧
    (exec .coolantLossTrip s = .next { s with halted := true }) ∧
    (exec (.thermalLimitReached on) s = .next { s with throttled := on }) ∧
    ∃ t, exec .computeSideReset s = .next t ∧ t.booted = false ∧ t.issues = [] ∧ t.launches = [] ∧ t.insts = State.reset.insts ∧
      ∀ a, t.byteAt a = if paFar a = true then s.byteAt a else unlistedByte

/-- R214, R281 to R285, R289, R290, R296, R297: a cluster test comes due, is overdue, passes or fences its cluster; the next gang of a
placeable stage starts; a gang that waits 2^24 cycles has aged; a queue starts its consumer; a repair instance starts; an ended
instance leaves; a rollback and an interval start happen when they must.
Choices: Order, intervals, rollback and test times are the model's readings where the rules leave them open (log 24, 34, 57, 60, 61). -/
def Obligations.PlacementEvents : Prop :=
  ∀ (s t : State) (cluster die launch stage base ctx core iid : Nat) (l : Launch),
    let st := l.stages.getD stage default
    let k := s.cluster cluster
    (let ivl := (Config.testHours cluster s.now).elim k.testIvl fun h => 1 + h % 24
     k.test = .idle → k.fenced = false → k.testAt + ivl * Config.hourCycles ≤ s.now → s.onCluster cluster = [] → s.saved = [] →
      ∃ u, exec (.clusterTestDue cluster) s = .next u ∧ (u.cluster cluster).test = .due s.now ∧ u.mem = s.mem ∧ u.insts = s.insts) ∧
    (∀ at_, k.test = .due at_ → at_ + Config.testWaitCycles ≤ s.now → s.onCluster cluster ≠ [] → exec (.testOverdue cluster) s = .next
      ((s.modCluster cluster fun k => { k with test := .overdue }).pushEvent (cluster / Config.clustersPerDie) 2 0 0xFFFF cluster 0)) ∧
    (k.test ≠ .idle → s.onCluster cluster = [] →
      (exec (.clusterTest cluster true) s = .next (s.modCluster cluster fun k =>
        { k with test := .idle, testAt := s.now, fenced := k.fenced })) ∧
      (∃ u, exec (.clusterTest cluster false) s = .next u ∧ (u.cluster cluster).fenced = true ∧ (u.cluster cluster).test = .idle ∧
        ∀ p ∈ u.vfs, p.2.clusters.testBit cluster = false)) ∧
    (s.launch? launch = some l →
      (s.toPlace l stage ≠ 0 → st.waitFrom + 2 ^ 24 ≤ s.now → exec (.gangAgeing die launch stage) s = .next
        (s.modLaunch launch fun l => l.setStage stage fun t => { t with aged := true })) ∧
      (∀ g, s.gangSize l stage = some g → s.isNext die l stage = true →
        (s.blocks l.ctx die g).contains (die * Config.coresPerDie + base) = true →
        ((s.ctx l.ctx).ccb.cki = false ∨ (s.ctx l.ctx).ivlOn = true) → s.plain l.ctx →
        s.startGang l stage st (die * Config.coresPerDie + base) g = some t → exec (.gangPlacement die launch stage base) s = .next
          ((t.modLaunch launch fun l => { l with started := true }.setStage stage fun t =>
            { t with placed := t.placed + g, pendGang := t.pendGang.drop 1, waitFrom := s.now, aged := false }).countServe die l.ctx)) ∧
      (∀ q, (l.queues.find? fun (q : StageQ) => q.consumer == stage) = some q → l.die = die → st.queued = true → s.isRepair l stage = false →
        l.dead = false → st.pendGang = [] → q.low ≤ q.recs.length → q.high ≤ q.recs.length → exec (.queueDrivenStart die launch stage) s = .next
          (s.modLaunch launch fun l => l.setStage stage fun t => { t with pendGang := [2 ^ t.pref], waitFrom := s.now, aged := false }))) ∧
    (∀ bs, s.launch? (s.ctx ctx).ccb.repairLaunch = some l → t = (s.accCheck (.ring ctx) (s.hwReq ctx 2) (s.ctx ctx).ccb.poison 4096).2 →
      t.mayPlace ctx = true → l.dead = false → (s.ctx ctx).ccb.repair < l.stages.length → t.repairDue ctx = true → t.vfHas ctx (core / 4) = true →
      t.repairNext (core / Config.coresPerDie) ctx = true →
      (let r := { l.stages.getD (s.ctx ctx).ccb.repair default with paired := false }
       t.fits ctx core (s.stageNeed r) = some bs → t.plain ctx → exec (.repairStageStart ctx core) s = .next
         (let z := t.startInst l (s.ctx ctx).ccb.repair r core (t.ctx ctx).repairNo 1 true bs
          (((z.2.vcLearn (core / Config.coresPerDie) ((s.ctx ctx).ccb.ibase / 8)).modInst z.1 fun i => { i with repair := true }).modCtx ctx
            fun x => { x with repairNo := x.repairNo + 1 }).countServe (core / Config.coresPerDie) ctx))) ∧
    (∀ i, s.inst? iid = some i → i.kind = .stage → (∀ p ∈ i.ths, p.2.status = .exited) → s.spent iid = true → i.partner = none →
      (s.modInst iid fun i => { i with st := .ending }).endRelease iid = (true, t) → t.claimList = [] → t.othersOn i.cluster [iid] = true →
      exec (.instanceEnd iid) s = .next ((t.dropInst iid).endLaunches i.ctx)) ∧
    ((s.ctx ctx).fatal = true → exec (.rollback ctx) s = .next (s.endLaunches ctx)) ∧
    ((s.ctx ctx).fatal = false → s.mustRoll ctx = true → exec (.rollback ctx) s = .next (s.rollOrEnd ctx).2) ∧
    ((s.ctx ctx).ccb.cki = true → (s.ctx ctx).ivlOn = true → (s.ctx ctx).fatal = false → (s.ctx ctx).log.stopped = false →
      (s.ctx ctx).log.diverged = false → (s.ctx ctx).ccb.ivl ≠ 0 → (s.ctx ctx).ivlAt + (s.ctx ctx).ccb.ivl ≤ s.now →
      exec (.intervalStart ctx) s = .next (s.beginInterval ctx false).2)

/-- R314 to R321, R323 to R328: a waiting record is written once the ring has room; a source of a replay takes its next record, or waits
and tells the supervisor; divergences stop the context; partners compare the oldest signatures that both have; a precise stop settles its clause; trace
records and frames enter the ring; lane-cycle bins are emitted and cleared.
Choices: The ring, the fourth case of a replay and the die to which events 5 to 9 go are the model's readings (log 55, 58, 62). -/
def Obligations.RecordEvents : Prop :=
  ∀ (s : State) (ctx src core die : Nat),
    let x := s.ctx ctx
    let g := x.log
    (∀ a r rest, x.ccb.recB = true → g.full = false → g.held = (a, r) :: rest → exec (.logRecordWrite ctx) s = .next
      ((s.logWrite ctx a r).modCtx ctx fun x => { x with log := { x.log with
        held := rest, ready := x.log.ready ++ [(a, r)] }.unwait })) ∧
    (x.ccb.rplB = true →
      (let t := s.skipFabric ctx
       find? (t.ctx ctx).log.next src = none →
       (∀ y, t.logNext ctx src = some y → exec (.replayRecordApply ctx src) s = .next
         ((t.applyNext ctx src).modCtx ctx fun x => { x with log := { x.log with waits := sdel x.log.waits src } })) ∧
       (t.logNext ctx src = none → find? (t.ctx ctx).log.waits src ≠ some 0 → exec (.replayRecordApply ctx src) s = .next
         ((t.modCtx ctx fun x => { x with log := { x.log with waits := sput x.log.waits src 0 } }).pushEvent 0 7 1 ctx 0
           (t.ctx ctx).log.producer))) ∧
      (g.diverged = false →
        (∀ k n, g.diverge = some (k, n) → k ≠ 2 → k ≠ 4 → exec (.replayDivergence ctx k) s = .next (s.diverge ctx k n)) ∧
        (∀ k, s.reservedRec ctx = some k → exec (.replayDivergence ctx 2) s = .next (s.diverge ctx 2 k)) ∧
        (s.stuck ctx = true → exec (.replayDivergence ctx 4) s = .next (s.diverge ctx 4 g.replay)))) ∧
    (∀ a b as bs, x.sigs = a :: as → (s.ctx g.partner).sigs = b :: bs → g.pvalid = true → (s.ctx g.partner).log.pvalid = true →
      (s.ctx g.partner).log.partner = ctx → exec (.pairedPartitionCompare ctx) s = .next
        (let t := (s.modCtx ctx fun x => { x with sigs := x.sigs.drop 1 }).modCtx g.partner fun x => { x with sigs := x.sigs.drop 1 }
         if a = b then t else (t.diverge ctx 6 0).diverge g.partner 6 0)) ∧
    (∀ is, (s.issues.find? fun (y : Issue) => (s.inst y.iid).kind == .stage && (s.inst y.iid).ctx == ctx && y.stopAt == some y.idx) = some is →
      is.writes = [] → g.stopped = false → s.ops = [] → ∃ t, exec (.preciseStop ctx) s = .next t ∧ (t.ctx ctx).log.stopped = true ∧
        t.mem = s.mem ∧ t.cores = s.cores ∧ t.insts = s.insts) ∧
    ((s.die die).trace.queue = [] → exec (.traceRecordWrite die) s = .next (s.traceFrame die)) ∧
    ((s.die die).trace.queue ≠ [] → (s.die die).trace.closed = [] → exec (.traceRecordWrite die) s = .next (s.traceRecord die)) ∧
    (∀ f, (s.die die).trace.frame = some f → f.opened + 2 ^ 16 ≤ s.now → exec (.traceFrameClose die) s = .next (s.closeFrame die)) ∧
    (let d := core / Config.coresPerDie
     let ctl := (s.die d).trace.ctl
     let period := ctl.toNat / 2 ^ 8 % 2 ^ 16 * 2 ^ 12
     ctl.getLsbD 1 = true → period ≠ 0 → (s.core core).laneAt / period ≠ s.now / period → ∃ t, exec (.laneCycleEmit core) s = .next t ∧
       t.mem = s.mem ∧ (t.core core).laneAt = s.now ∧
       ∀ b y, find? (t.core core).bins b = some y → y.ctl.getLsbD 0 = true → y.cnt = [0, 0, 0, 0, 0])

/-- R21, R38, R45, R115, R116, R128, R131, R259, R262, R263, R355: a clause issues with its header decoded and its waits over; a spinning path is
demoted and a demotion ends; shares of an operation without runs complete; store faults are recorded; a waiting trap is
delivered; a line-parked sub-group goes on; regions unwind, those of a pair in both copies at once (R274); an uncorrectable error is
consumed, of a result that is not written yet once it would be (R83); the accesses of a pair are
compared.
Choices: When a thread may issue beyond an unchecked access, what an unwinding ends, which event a store fault is, how a held-back delivery waits, and what a pipeline error names are the model's readings (log 10, 15, 49, 56, 73, 77). -/
def Obligations.ClauseEvents : Prop :=
  ∀ (s r t : State) (q : Seq) (iid hw op tid : Nat) (tids : List Nat) (cause : Nat) (va : DWord),
    let i := s.inst iid
    let h0 := (i.th (tids.headD 0)).header
    (∀ b h, (s.issues.any fun (x : Issue) => x.q == q) = false → seqFits i iid q tids = true → s.formable iid tids = true →
      s.demotedBlocked iid tids = false → i.demotionDue tids = false → (∀ core p, q = .part core p → s.starved core p iid tids = false) →
      s.endDemotions iid tids = (true, r) → t.plain i.ctx →
      (i.subs.find? fun (g : SubGroup) => g.id == (i.th (tids.headD 0)).sub && g.cont.isSome) = none →
      r.fetch (.fetch iid (tids.headD 0)) iid (tids.headD 0) h0.toNat 8 = (.bytes b, t) → decodeHeader (natOf b) = .ok h →
      (∀ ls, i.waitsOver (i.sets ls) h.wait = true) → (∀ t ∈ tids, ∀ f ∈ (i.th t).perr, h.wait.getLsbD f = false) → ∃ u is, exec (.clauseIssue q iid tids) s = .next u ∧ is ∈ u.issues ∧ is.q = q ∧
        is.iid = iid ∧ is.hdrAt = h0 ∧ is.hdr = h ∧ is.addr = h0 + 8 ∧ is.idx = 0 ∧ is.writes = [] ∧
        ((is.lanes.filter (·.active)).map (·.tid)).Perm tids) ∧
    (∀ w, (i.warps.find? fun (x : Warp) => x.id == w.id) = some w → s.plain i.ctx →
      (w.demoted = false → (∃ p ∈ w.spins, Config.spinLimit ≤ p.run) → exec (.spinDemotion iid w.id) s = .next
        (s.modWarp iid w.id fun w => { w with demoted := true, sibs := 0 })) ∧
      ((i.warps.filter fun (w : Warp) => w.demoted && w.tids.any (fun t => i.hwOf t == hw) && i.demotionOver w) = [w] →
        exec (.demotionEnd iid hw) s = .next (s.modWarp iid w.id Warp.promote))) ∧
    (∀ o, s.op? op = some o → (o.shares.any fun (x : Share) => x.hw == hw && x.left.isEmpty) = true →
      exec (.falseGuardCompletion op hw) s = .next (s.closeShare o hw).reapOps) ∧
    (∀ o p, s.op? op = some o → o.part? tid = some p → storing o.ins = true →
      (let k := (s.inst o.iid).core
       let n (s : State) : Nat := (s.core k).sfSeq + (s.core k).sfWait.length + (s.ops.map fun (o : PendOp) => o.sf.length).sum
       n (s.partStep o p) ≠ n s → exec (.storeFault op tid) s = .next (s.partStep o p))) ∧
    (∀ a th k d r, i.kind = .stage → s.inst? iid = some i →
      (i.ths.filter fun p => i.hwOf p.1 == hw && !s.issuing iid p.1 && (match p.2.status with | .ready | .held | .parked .wait => true | _ => false) &&
        p.2.nextTrap.isSome) = [(a, th)] → th.hnd = false → th.nextTrap = some (k, d, r) →
      (∀ x, r = some x → i.lowerWaits hw x = false ∧ (x.code = 6 → ∀ p ∈ i.ths, p.1 ≠ a → i.hwOf p.1 = hw →
        p.2.status ≠ .exited → p.2.pend.any x.sameFault = false)) →
      (i.handlerBusy hw = false → exec (.stageHandlerDelivery iid hw) s = .next (match r with
        | none => s.takeStoreFault iid hw [(a, th)]
        | some x => if x.code = 6 then s.takePark iid hw [((a, th), x)] else s.takeWaiting iid hw [(a, th)] x)) ∧
      (i.handlerBusy hw = true → k < 6 → i.handler ≠ 0 → i.isGuide a = false → exec (.stageHandlerDelivery iid hw) s = .next
        (s.modInst iid fun i => (i.modTh a fun x => { x with status := .parked .wait }).unwarp a))) ∧
    (∀ g, (i.subs.find? fun (x : SubGroup) => x.id == g.id && x.cont.isSome) = some g →
      (∀ l ∈ g.lines, (s.core i.core).absent.contains l = false) → exec (.spadParkResume iid g.id) s = .next
        (s.modInst iid fun i =>
          { i with subs := i.subs.map (fun (x : SubGroup) => if x.id == g.id then { x with flags := [], lines := [] } else x)
                   ths := i.ths.map fun p => (p.1, p.2.unline g.id) })) ∧
    (∀ k u, i.kind = .stage → s.unwindCause iid hw = (some (k, u), s) →
      (let copies := match i.partner with
         | some j => if i.paired = true ∧ (((i.hw hw).regions[k]?).elim false (·.pair)) = true ∧
             ((((s.inst j).hw hw).regions[k]?).elim false (·.pair)) = true then [iid, j] else [iid]
         | none => [iid]
       (∀ j ∈ copies, s.plain (s.inst j).ctx) →
       (∀ j ∈ copies, let rs := ((s.inst j).hw hw).regions.drop k
         s.vcRoom ((s.inst j).die j) (rs.map fun (r : Region) => r.undo.length).sum = true ∧
         ∀ r ∈ rs, s.unwindWaits j r = false ∧ ∀ t ∈ r.members, s.issuing j t = false) →
       exec (.regionUnwind iid hw) s = .next (s.unwindAll copies hw k u))) ∧
    (∀ th, s.inst? iid = some i → i.th? tid = some th → th.status ≠ .exited → cause = 1 ∨ cause = 2 →
      (i.kind = .stage → (cause = 2 ∨ va = 0) → ∃ (u : State) (hdr : DWord), exec (.uncorrectableError iid tid cause va) s =
        .next (u.consume iid tid cause va hdr none) ∧ u.insts = s.insts ∧ u.mem = s.mem) ∧
      (i.kind ≠ .walker → cause = 1 → va ≠ 0 → va ≠ BitVec.allOnes 64 → exec (.uncorrectableError iid tid cause va) s =
        .next (s.failOp iid tid (va.toNat - 1))) ∧
      (i.kind ≠ .walker → cause = 1 → va = BitVec.allOnes 64 → exec (.uncorrectableError iid tid cause va) s =
        .next (s.modTh iid tid fun t => { t with failNext := true })) ∧
      (i.kind = .steward → (cause = 2 ∨ va = 0) → ∃ u, exec (.uncorrectableError iid tid cause va) s = .next u ∧
        ((u.inst iid).th tid).pend = th.pend ++ [⟨8, cause, 0, 0, 0, 1, 0, 0, false⟩] ∧ u.mem = s.mem) ∧
      (i.kind = .walker → exec (.uncorrectableError iid tid cause va) s = .next (s.walkerTrap iid))) ∧
    (∀ o p x pa xs, s.op? op = some o → o.part? tid = some p → loadClass o.ins = true → (s.inst o.iid).trailing = false →
      (((((accPieces o.ins p).flatMap fun x => sectorsOf x.1 x.2).filter fun x => !s.l1Has (s.req o.iid tid 0) x.1 x.2).map (·.1)).filterMap
        fun va => s.sectorAt (s.req o.iid tid 0) va) = x :: xs →
      ((x :: xs).filter fun pa => !paWindow pa && !(s.dies.any fun d => d.2.l2.any fun y => y.2.pa == pa)).head? = some pa →
      (exec (.poisonedFill op tid 1) s = .next ((s.setPoison pa (some 1)).parkFailing o tid 0)) ∧
      (s.plainAt pa = false → exec (.poisonedFill op tid 2) s = .next
        (({ s with stags := sput s.stags (pa / 32) (~~~s.goodTag pa) } : State).parkFailing o tid 0))) ∧
    (∀ e o' p', (s.die op).cmp = [e] → e.iid = iid → e.tid = tid → s.partnerPart iid tid e.seqNo = some (o', p') →
      p'.arrived = false → p'.done = e.seqNo + 1 - p'.seqNo → sigOf o'.ins p' (e.seqNo + 1 - p'.seqNo) = e.sig →
      ∃ u, exec (.compareMatch op iid tid) s = .next u ∧ (u.die op).cmp = [] ∧ u.insts = s.insts ∧ u.mem = s.mem)

/-! ### Frames, the end of a clause, stops -/

/-- R39, R42, R45: the frame of the fixed-latency forms. Where such an instruction issues, no pipeline error waits for its
result (R83) and its clause goes on, the results that
the clause holds are those it held and results for the locations that the instruction names, the arithmetic flags among them; every
register and every byte of memory reads as before, and scratchpads, accumulators, caches, operations, contexts and the privileged
registers are as they were. -/
def Obligations.RegisterFormsFrame : Prop :=
  ∀ (s : State) (is : Issue) (c : Ctl) (i : Instr), i.ctl = some c → i.cls = .f3 ∨ i.cls = .f5 →
    (∀ b, i ≠ .trmark c b) → (∀ d b, i ≠ .movps c d b) → (∀ a b, i ≠ .movpsW c a b) →
    Issues s is i c [] → is.idx + 1 ≠ is.hdr.ni → (∀ l ∈ is.lanes, ((s.inst is.iid).th l.tid).failNext = false) →
    ∃ (t : State) (is' : Issue), exec i s = .next t ∧ t.issue? = some is' ∧ is'.idx = is.idx + 1 ∧
      (∀ w ∈ is'.writes, w ∈ is.writes ∨ s.named is i w.loc = true) ∧
      (∀ a, t.byteAt a = s.byteAt a) ∧ (∀ iid l, t.readLoc iid l = s.readLoc iid l) ∧
      (∀ k, (t.core k).spad = (s.core k).spad ∧ (t.core k).acc = (s.core k).acc) ∧
      t.ops = s.ops ∧ t.ctxs = s.ctxs ∧ t.dies = s.dies ∧ t.clusters = s.clusters ∧ t.stewards = s.stewards

/-- R37, R45: the frame of every operation that goes in flight, and of every control transfer before the end of its clause: no
register and no byte of memory has changed, and the clause holds the results that it held. -/
def Obligations.OperationsFrame : Prop :=
  ∀ (s : State) (is : Issue) (c : Ctl) (i : Instr) (ps : List Part) (more : List RU), s.issue? = some is → is.idx + 1 ≠ is.hdr.ni →
    (∀ l ∈ is.lanes, ((s.inst is.iid).th l.tid).failNext = false) →
    ∀ t ∈ [s.inFlight is i c ps more, s.settleAt is c],
      (∀ is', t.issue? = some is' → is'.writes = is.writes ∧ is'.idx = is.idx + 1) ∧
      (∀ a, t.byteAt a = s.byteAt a) ∧ (∀ iid l, t.readLoc iid l = s.readLoc iid l) ∧
      (∀ k, (t.core k).spad = (s.core k).spad ∧ (t.core k).acc = (s.core k).acc) ∧
      t.ctxs = s.ctxs ∧ t.dies = s.dies ∧ t.clusters = s.clusters ∧ t.stewards = s.stewards

/-- R10, R26, R27, R39: a clause of the size its header gives ends with each location holding the result of its last writer in program
order, cut to the location's width: vector, predicate, scalar and Guide registers and the special registers that clauses write. The
arithmetic flags hold, over what the last MOVSR wrote or else what they held, the union of the flags raised after it. A location that
no instruction of the clause has named keeps its value, and so does every byte of memory; a thread whose meeting its clause's end
completes has no meeting (R113). -/
def Obligations.ClauseEndCommits : Prop :=
  ∀ (s : State) (is : Issue), (if is.addr.toNat % 8 = 4 then is.addr + 4 else is.addr) = is.follow → is.gopen = none →
    is.gend = none → (∀ p ∈ (s.inst is.iid).ths, p.2.dying = false) → (∀ w ∈ is.writes, w.done = false) →
    let t := s.endClause is
    let i := s.inst is.iid
    let v (l : Loc) : DWord := t.readLoc is.iid l
    let cut (l : Loc) (x : DWord) : DWord := match l with
      | .v .. | .s .. | .seed _ => lo32 x
      | .p _ n => if n = 0 then 1 else x &&& 1
      | .fp _ => x &&& 0x1F
      | .hnd _ => x &&& 1
      | .g _ | .meet _ => x
    (∀ a, t.byteAt a = s.byteAt a) ∧ t.ops = s.ops ∧
    (∀ l, (∀ w ∈ is.writes, i.sameLoc w.loc l = false) → v l = s.readLoc is.iid l ∨ ∃ tid, l = .meet tid ∧ v l = noMeeting) ∧
    (∀ late early w, is.writes = late ++ w :: early → w.raise = false → i.hasLoc w.loc = true →
      (∀ x ∈ late, i.sameLoc x.loc w.loc = false) → v w.loc = cut w.loc w.val ∨ ∃ tid, w.loc = .meet tid ∧ v w.loc = noMeeting) ∧
    (∀ tid late early, is.writes = late ++ early → i.hasLoc (.fp tid) = true → (∀ x ∈ late, x.loc = .fp tid → x.raise = true) →
      let raised := (late.filter fun x => x.loc == .fp tid).foldl (fun m x => m ||| x.val) 0
      (early = [] → v (.fp tid) = cut (.fp tid) (s.readLoc is.iid (.fp tid) ||| raised)) ∧
      (∀ w rest, early = w :: rest → w.loc = .fp tid → w.raise = false → v (.fp tid) = cut (.fp tid) (w.val ||| raised)))

/-- R122, R137, R140, R194, R219, R220: where stores go. STS at an aligned offset inside the instance's allocation changes those bytes of
the scratchpad and makes their lines present. ST to ordinary memory changes those bytes of the L1 sector of its address, and marks them
dirty: of a die of world 0 the bytes as they are, in a sealed world, where the sector stands in L1, the plaintext of its ciphertext. A
store of a sealed world whose check has fetched its sector does the same to what the check leaves. ST through the physical aperture by
S-level code of a die of world 0 changes those bytes of memory, where no interval logs their sector. Every other byte of memory, of the
scratchpads, of the L1 sectors of every instance and of the L2 slices, and every register, reads as before; so do the presence bits of
other lines. The store has no other fault waiting, and no released request of its page before it. -/
def Obligations.StoreFrames : Prop :=
  ∀ (s : State) (id tid : Nat) (o : PendOp) (p : Part) (c : Ctl) (ty : Ty) (h : Hint) (x : O2) (i : Inst),
    s.op? id = some o → o.part? tid = some p → s.inst? o.iid = some i → (i.hw (i.hwOf p.tid)).regions = [] →
    s.muted o.iid p.tid o.id = false → s.blocked o p = false → p.done = 0 → o.sf = [] → s.behind (.op o.id p.tid) = false →
    let n := tyBytes ty
    let q := s.req o.iid p.tid 1
    let va := (p.arg 0).toNat
    let bs := bytesOf n (p.arg 1).toNat
    let others (t u : State) : Prop := (∀ k, k ≠ o.iid → (t.inst k).l1 = (u.inst k).l1) ∧ ∀ d, (t.die d).l2 = (u.die d).l2
    (o.ins = .sts c ty x →
      let off := va % 2 ^ 32
      let base := i.spadBase + off
      off % n = 0 → off + n ≤ i.spadSize → ∃ t, exec (.flagCompletion id tid) s = .next t ∧
        (∀ k, k < n → sget 0 (t.core i.core).spad (base + k) = nthByte bs k) ∧
        (∀ a, a < base ∨ base + n ≤ a → sget 0 (t.core i.core).spad a = sget 0 (s.core i.core).spad a) ∧
        (∀ l, l ∈ (t.core i.core).absent ↔ l ∈ (s.core i.core).absent ∧ ∀ k, k < n → l ≠ (base + k) / 128) ∧
        (t.core i.core).acc = (s.core i.core).acc ∧ (t.core i.core).icache = (s.core i.core).icache ∧
        others t s ∧ (t.inst o.iid).l1 = i.l1 ∧
        (∀ k, k ≠ i.core → t.core k = s.core k) ∧ t.mem = s.mem ∧ (∀ iid l, t.readLoc iid l = s.readLoc iid l)) ∧
    (o.ins = .st c ty h x → p.seqNo = 0 → i.trailing = false → va % n = 0 → spanOk va n = true →
      let ds := bytesOf n (p.data 0).toNat
      let put (old : List Byte) (k : Nat) : Byte := if va % 32 ≤ k ∧ k < va % 32 + n then nthByte ds (k - va % 32) else nthByte old k
      (∀ a pa rt, aperOf va = .mem → s.storeRights q va = .ok a pa rt → (s.die (paDie pa)).world = 0 → q.world = 0 →
        s.l1Full o.iid (secKey a va) = false → (∀ z, find? i.l1 (secKey a va) = some z → z.pa = pa) → ∃ t y,
        exec (.flagCompletion id tid) s = .next t ∧ find? (t.inst o.iid).l1 (secKey a va) = some y ∧
        (∀ k, k < 32 → nthByte y.data k = put ((find? i.l1 (secKey a va)).elim [] (·.data)) k) ∧
        (∀ k, va % 32 ≤ k → k < va % 32 + n → y.dirty.getLsbD k = true) ∧
        (∀ k, k ≠ secKey a va → find? (t.inst o.iid).l1 k = find? i.l1 k) ∧ others t s ∧
        t.mem = s.mem ∧ t.cores = s.cores ∧ t.dies = s.dies ∧ (∀ iid l, t.readLoc iid l = s.readLoc iid l)) ∧
      (∀ a z, aperOf va = .mem → q.world ≠ 0 → i.l1Find (s.tags q.ctx) va = some (a, z) → z.rights.refusal 1 q.priv = none →
        s.vcReady (s.home q.ctx va) (s.die q.die).vc = true → s.ownWaits q va = false → ∃ t y,
        exec (.flagCompletion id tid) s = .next t ∧ find? (t.inst o.iid).l1 (secKey a va) = some y ∧
        (∀ k, k < 32 → nthByte (s.plainL1 y) k = put (s.plainL1 z) k) ∧
        (∀ k, va % 32 ≤ k → k < va % 32 + n → y.dirty.getLsbD k = true) ∧
        y.major = z.major ∧ (y.minor = z.minor ∨ z.dirty = 0 ∧ y.minor = z.minor + 1) ∧
        (∀ k, k ≠ secKey a va → find? (t.inst o.iid).l1 k = find? i.l1 k) ∧ others t s ∧
        t.mem = s.mem ∧ t.cores = s.cores ∧ (∀ iid l, t.readLoc iid l = s.readLoc iid l)) ∧
      (∀ u a pa rt z, aperOf va = .mem → s.accCheck (.op o.id p.tid) q va n = (.ok, u) → u.op? id = some o → u.storeRights q va = .ok a pa rt →
        find? (u.inst o.iid).l1 (secKey a va) = some z → z.pa = pa → (u.inst o.iid).hwOf p.tid = i.hwOf p.tid →
        ((u.inst o.iid).hw (i.hwOf p.tid)).regions = [] → ∃ t y,
        exec (.flagCompletion id tid) s = .next t ∧ find? (t.inst o.iid).l1 (secKey a va) = some y ∧
        (∀ k, k < 32 → nthByte (u.plainL1 y) k = put (u.plainL1 z) k) ∧
        y.major = z.major ∧ (y.minor = z.minor ∨ z.dirty = 0 ∧ y.minor = z.minor + 1) ∧
        (∀ k, k ≠ secKey a va → find? (t.inst o.iid).l1 k = find? (u.inst o.iid).l1 k) ∧ others t u ∧
        t.mem = u.mem ∧ t.cores = u.cores ∧ (∀ iid l, t.readLoc iid l = u.readLoc iid l)) ∧
      (∀ pa, aperOf va = .phys → s.aperPa q va = .ok pa → (s.die (paDie pa)).world = 0 → paWindow pa = false → s.undoers pa = [] → ∃ t,
        exec (.flagCompletion id tid) s = .next t ∧ (∀ k, k < n → t.byteAt (pa + k) = nthByte ds k) ∧
        (∀ a, a < pa ∨ pa + n ≤ a → t.byteAt a = s.byteAt a) ∧ others t s ∧ (t.inst o.iid).l1 = i.l1 ∧
        t.cores = s.cores ∧ (∀ iid l, t.readLoc iid l = s.readLoc iid l)))

/-- R17, R36, R41, R42, R117, R158, R301: an encoded instruction needs a clause; one that needs a higher level, a walker slot or a repair
stage traps its whole formed warp with code 2; else one that the Guide lacks or only the Guide has, or that a steward core or a walker
slot lacks, with the illegal-instruction trap of sub-cause 12; else, where no thread fails check 6 and the flag-hazard trap is off, one
whose flag is full waits, and nothing changes. The numbers are the opcodes of R42.
Choices: The fault for an instruction outside a clause is the model's own (log 68). -/
def Obligations.StopsAndTraps : Prop :=
  ∀ (s : State) (i : Instr) (c : Ctl), i.ctl = some c →
    (s.issue? = none → exec i s = .fault .noClause) ∧
    ∀ is : Issue, s.issue? = some is →
      let n := i.opc.getD 0
      let x := s.inst is.iid
      let level := (x.th (lowest is.lanes).tid).level
      let low : Prop :=
        level = 0 ∧ n ∈ [0x344, 0x3C3, 0x3C5, 0x3C6, 0x3C7, 0x3C8, 0x3C9, 0x3CA, 0x3CB, 0x3CC] ∨ (level = 1 ∧ ∃ d, i = .ckptMemrst c d) ∨
        (x.kind ≠ .walker ∧ n ∈ [0x3C4, 0x3CD]) ∨ (level = 0 ∧ n ∈ [0x383, 0x384] ∧ ¬(x.kind = .stage ∧ x.repair = true))
      let guideHas : Prop := n < 0x80 ∨ n ∈ [0x140, 0x143, 0x180, 0x181, 0x182, 0x1C0, 0x1C1, 0x1C2, 0x1C3, 0x1C4, 0x1C5, 0x1C6, 0x1C8,
        0x200, 0x201, 0x208, 0x209, 0x240, 0x241, 0x244, 0x245, 0x246, 0x247, 0x280, 0x281, 0x282, 0x283, 0x284, 0x285, 0x286,
        0x2C0, 0x2C1, 0x2C2, 0x2C6, 0x2C7, 0x2C8, 0x340, 0x341, 0x342, 0x343, 0x385]
      let lacks : Prop := (is.guide = true ∧ ¬guideHas) ∨ (is.guide = false ∧ n ∈ [0x2C0, 0x2C1, 0x2C2, 0x2C6, 0x2C7, 0x2C8]) ∨
        (x.kind ≠ .stage ∧ (n = 0x287 ∨ n = 0x288 ∨ 0x300 ≤ n ∧ n ≤ 0x309))
      let more : List RU := match i with
        | .genTake _ a | .yield _ a => entryRegs a s is
        | .sqpush _ a q => s.sqRegs x q a true
        | .sqpop _ _ a q => s.sqRegs x q a false
        | _ => []
      (low → exec i s = .next (s.trapThreads is (is.lanes.map (·.tid)) 2 n 0 is.hdrAt n)) ∧
      (¬low → lacks → exec i s = .next (s.trapAll is 12 n 0)) ∧
      (∀ f, ¬low → ¬lacks → (s.ctx x.ctx).ccb.fhtrap = false →
        (∀ l, s.acting is c l → check6 x is i c more l.tid = none ∧ s.zeroName is i l.tid = none) → is.flagOf c.fsel = some f →
        x.flagFull (x.sets is.lanes) f = true → exec i s = .next s)

/-- R242 to R244, with the exceptions that R247 makes for what a flow reads and R254 for a chain without a release: in an execution that the axioms allow, two writes to one byte
are ordered by coherence; a read takes no byte from a write that happens after it, nor from a write that is co-before one that happens
before it; of two reads related by happens-before the later does not go back in coherence order, unless they are on different dies and the write
that the earlier one reads is not cause-before it; no read takes a byte from a write that is co-before one that is cause-before the read;
a read-modify-write follows the write it reads from with no write between; causal order and happens-before have no cycle.
Choices: The definitions of executions are the model's reading (log 40), as is the exception for a chain across dies without a release (log 41). -/
def Obligations.ExecutionsAreCoherent : Prop :=
  ∀ x : Execution, Ordering.allowed x = true →
    (∀ l a b, a < x.evs.length → b < x.evs.length → a ≠ b → (Ordering.ev x a).writes = true → (Ordering.ev x b).writes = true →
      l ∈ (Ordering.ev x a).locs → l ∈ (Ordering.ev x b).locs → Ordering.coBefore x l a b = true ∨ Ordering.coBefore x l b a = true) ∧
    (∀ l w r, (l, w, r) ∈ x.rf → (Ordering.hb x).has r w = true → Ordering.unseen x r w = true) ∧
    (∀ l v w r, (l, v, r) ∈ x.rf → Ordering.coBefore x l v w = true → (Ordering.hb x).has w r = true → Ordering.unseen x w r = true) ∧
    (∀ l v w q r, (l, w, q) ∈ x.rf → (l, v, r) ∈ x.rf → Ordering.coBefore x l v w = true → (Ordering.hb x).has q r = true →
      Ordering.unseen x q r = true ∨ (Ordering.cause x).has w q = false ∧
        ((Ordering.ev x q).agent.modNo, (Ordering.ev x q).agent.die) ≠ ((Ordering.ev x r).agent.modNo, (Ordering.ev x r).agent.die)) ∧
    (∀ l v w r, (l, v, r) ∈ x.rf → Ordering.coBefore x l v w = true → (Ordering.cause x).has w r = true →
      Ordering.unseen x w r = true) ∧
    (∀ l w u v, (l, w, u) ∈ x.rf → (Ordering.ev x u).kind = .rmw → Ordering.coBefore x l w v = true → Ordering.coBefore x l v u = false) ∧
    (∀ a, (Ordering.cause x).has a a = false ∧ (Ordering.hb x).has a a = false)

end Statements
end

