-- ==== Sys2Proof/Laws/Dispatch.lean ====
section
/-!
SUPPORT. Which meaning each instruction runs, one equation for each arm of `exec`.
-/
namespace Sys2Proof.Machine

@[simp] theorem exec_iadd (s : State) {c} {m} {o} : exec (.iadd c m o) s = execIadd c m o s := rfl
@[simp] theorem exec_isub (s : State) {c} {m} {o} : exec (.isub c m o) s = execIsub c m o s := rfl
@[simp] theorem exec_imul (s : State) {c} {m} {o} : exec (.imul c m o) s = execImul c m o s := rfl
@[simp] theorem exec_imulhi (s : State) {c} {m} {o} : exec (.imulhi c m o) s = execImulhi c m o s := rfl
@[simp] theorem exec_imad (s : State) {c} {m} {o} : exec (.imad c m o) s = execImad c m o s := rfl
@[simp] theorem exec_imin (s : State) {c} {m} {o} : exec (.imin c m o) s = execImin c m o s := rfl
@[simp] theorem exec_imax (s : State) {c} {m} {o} : exec (.imax c m o) s = execImax c m o s := rfl
@[simp] theorem exec_iclamp (s : State) {c} {m} {o} : exec (.iclamp c m o) s = execIclamp c m o s := rfl
@[simp] theorem exec_iabs (s : State) {c} {m} {o} : exec (.iabs c m o) s = execIabs c m o s := rfl
@[simp] theorem exec_ineg (s : State) {c} {m} {o} : exec (.ineg c m o) s = execIneg c m o s := rfl
@[simp] theorem exec_isad (s : State) {c} {m} {o} : exec (.isad c m o) s = execIsad c m o s := rfl
@[simp] theorem exec_lea (s : State) {c} {m} {o} : exec (.lea c m o) s = execLea c m o s := rfl
@[simp] theorem exec_idiv (s : State) {c} {m} {o} : exec (.idiv c m o) s = execIdiv c m o s := rfl
@[simp] theorem exec_irem (s : State) {c} {m} {o} : exec (.irem c m o) s = execIrem c m o s := rfl
@[simp] theorem exec_and (s : State) {c} {ty} {o} : exec (.and c ty o) s = execAnd c ty o s := rfl
@[simp] theorem exec_or (s : State) {c} {ty} {o} : exec (.or c ty o) s = execOr c ty o s := rfl
@[simp] theorem exec_xor (s : State) {c} {ty} {o} : exec (.xor c ty o) s = execXor c ty o s := rfl
@[simp] theorem exec_not (s : State) {c} {ty} {o} : exec (.not c ty o) s = execNot c ty o s := rfl
@[simp] theorem exec_andn (s : State) {c} {ty} {o} : exec (.andn c ty o) s = execAndn c ty o s := rfl
@[simp] theorem exec_logic3 (s : State) {c} {ty} {o} {tbl} : exec (.logic3 c ty o tbl) s = execLogic3 c ty o tbl s := rfl
@[simp] theorem exec_shl (s : State) {c} {ty} {o} : exec (.shl c ty o) s = execShl c ty o s := rfl
@[simp] theorem exec_shr (s : State) {c} {ty} {o} : exec (.shr c ty o) s = execShr c ty o s := rfl
@[simp] theorem exec_sar (s : State) {c} {ty} {o} : exec (.sar c ty o) s = execSar c ty o s := rfl
@[simp] theorem exec_rotl (s : State) {c} {ty} {o} : exec (.rotl c ty o) s = execRotl c ty o s := rfl
@[simp] theorem exec_rotr (s : State) {c} {ty} {o} : exec (.rotr c ty o) s = execRotr c ty o s := rfl
@[simp] theorem exec_shf (s : State) {c} {r} {o} : exec (.shf c r o) s = execShf c r o s := rfl
@[simp] theorem exec_popc (s : State) {c} {ty} {o} : exec (.popc c ty o) s = execPopc c ty o s := rfl
@[simp] theorem exec_clz (s : State) {c} {ty} {o} : exec (.clz c ty o) s = execClz c ty o s := rfl
@[simp] theorem exec_ctz (s : State) {c} {ty} {o} : exec (.ctz c ty o) s = execCtz c ty o s := rfl
@[simp] theorem exec_brev (s : State) {c} {ty} {o} : exec (.brev c ty o) s = execBrev c ty o s := rfl
@[simp] theorem exec_bfx (s : State) {c} {ty} {o} : exec (.bfx c ty o) s = execBfx c ty o s := rfl
@[simp] theorem exec_bfi (s : State) {c} {o} : exec (.bfi c o) s = execBfi c o s := rfl
@[simp] theorem exec_bperm (s : State) {c} {o} : exec (.bperm c o) s = execBperm c o s := rfl
@[simp] theorem exec_fadd (s : State) {c} {m} {o} : exec (.fadd c m o) s = execFadd c m o s := rfl
@[simp] theorem exec_fsub (s : State) {c} {m} {o} : exec (.fsub c m o) s = execFsub c m o s := rfl
@[simp] theorem exec_fmul (s : State) {c} {m} {o} : exec (.fmul c m o) s = execFmul c m o s := rfl
@[simp] theorem exec_ffma (s : State) {c} {m} {o} : exec (.ffma c m o) s = execFfma c m o s := rfl
@[simp] theorem exec_fmin (s : State) {c} {m} {o} : exec (.fmin c m o) s = execFmin c m o s := rfl
@[simp] theorem exec_fmax (s : State) {c} {m} {o} : exec (.fmax c m o) s = execFmax c m o s := rfl
@[simp] theorem exec_fclamp (s : State) {c} {m} {o} : exec (.fclamp c m o) s = execFclamp c m o s := rfl
@[simp] theorem exec_fabs (s : State) {c} {m} {o} : exec (.fabs c m o) s = execFabs c m o s := rfl
@[simp] theorem exec_fneg (s : State) {c} {m} {o} : exec (.fneg c m o) s = execFneg c m o s := rfl
@[simp] theorem exec_fround (s : State) {c} {m} {o} : exec (.fround c m o) s = execFround c m o s := rfl
@[simp] theorem exec_fdiv (s : State) {c} {m} {o} : exec (.fdiv c m o) s = execFdiv c m o s := rfl
@[simp] theorem exec_fsqrt (s : State) {c} {m} {o} : exec (.fsqrt c m o) s = execFsqrt c m o s := rfl
@[simp] theorem exec_frcp (s : State) {c} {m} {o} : exec (.frcp c m o) s = execFrcp c m o s := rfl
@[simp] theorem exec_frsq (s : State) {c} {m} {o} : exec (.frsq c m o) s = execFrsq c m o s := rfl
@[simp] theorem exec_fexp2 (s : State) {c} {m} {o} : exec (.fexp2 c m o) s = execFexp2 c m o s := rfl
@[simp] theorem exec_flog2 (s : State) {c} {m} {o} : exec (.flog2 c m o) s = execFlog2 c m o s := rfl
@[simp] theorem exec_fsin (s : State) {c} {m} {o} : exec (.fsin c m o) s = execFsin c m o s := rfl
@[simp] theorem exec_fcos (s : State) {c} {m} {o} : exec (.fcos c m o) s = execFcos c m o s := rfl
@[simp] theorem exec_ftanh (s : State) {c} {m} {o} : exec (.ftanh c m o) s = execFtanh c m o s := rfl
@[simp] theorem exec_hadd (s : State) {c} {m} {o} : exec (.hadd c m o) s = execHadd c m o s := rfl
@[simp] theorem exec_hsub (s : State) {c} {m} {o} : exec (.hsub c m o) s = execHsub c m o s := rfl
@[simp] theorem exec_hmul (s : State) {c} {m} {o} : exec (.hmul c m o) s = execHmul c m o s := rfl
@[simp] theorem exec_hfma (s : State) {c} {m} {o} : exec (.hfma c m o) s = execHfma c m o s := rfl
@[simp] theorem exec_hmin (s : State) {c} {m} {o} : exec (.hmin c m o) s = execHmin c m o s := rfl
@[simp] theorem exec_hmax (s : State) {c} {m} {o} : exec (.hmax c m o) s = execHmax c m o s := rfl
@[simp] theorem exec_hclamp (s : State) {c} {m} {o} : exec (.hclamp c m o) s = execHclamp c m o s := rfl
@[simp] theorem exec_habs (s : State) {c} {m} {o} : exec (.habs c m o) s = execHabs c m o s := rfl
@[simp] theorem exec_hneg (s : State) {c} {m} {o} : exec (.hneg c m o) s = execHneg c m o s := rfl
@[simp] theorem exec_hdot2 (s : State) {c} {m} {o} : exec (.hdot2 c m o) s = execHdot2 c m o s := rfl
@[simp] theorem exec_hexp2 (s : State) {c} {m} {o} : exec (.hexp2 c m o) s = execHexp2 c m o s := rfl
@[simp] theorem exec_hrcp (s : State) {c} {m} {o} : exec (.hrcp c m o) s = execHrcp c m o s := rfl
@[simp] theorem exec_cvtf (s : State) {c} {f} {o} : exec (.cvtf c f o) s = execCvtf c f o s := rfl
@[simp] theorem exec_cvtfi (s : State) {c} {f} {o} : exec (.cvtfi c f o) s = execCvtfi c f o s := rfl
@[simp] theorem exec_cvtif (s : State) {c} {f} {o} : exec (.cvtif c f o) s = execCvtif c f o s := rfl
@[simp] theorem exec_cvtii (s : State) {c} {f} {o} : exec (.cvtii c f o) s = execCvtii c f o s := rfl
@[simp] theorem exec_pack2 (s : State) {c} {f} {o} : exec (.pack2 c f o) s = execPack2 c f o s := rfl
@[simp] theorem exec_unpack (s : State) {c} {f} {o} : exec (.unpack c f o) s = execUnpack c f o s := rfl
@[simp] theorem exec_cvtblk (s : State) {c} {i4o} {rnd} {o} : exec (.cvtblk c i4o rnd o) s = execCvtblk c i4o rnd o s := rfl
@[simp] theorem exec_icmp (s : State) {c} {ty} {cnd} {f} : exec (.icmp c ty cnd f) s = execIcmp c ty cnd f s := rfl
@[simp] theorem exec_fcmp (s : State) {c} {ftz} {cnd} {f} : exec (.fcmp c ftz cnd f) s = execFcmp c ftz cnd f s := rfl
@[simp] theorem exec_hcmp (s : State) {c} {ty} {ftz} {cnd} {h} {f} : exec (.hcmp c ty ftz cnd h f) s = execHcmp c ty ftz cnd h f s := rfl
@[simp] theorem exec_plogic (s : State) {c} {op} {pd} {pa} {na} {pb} {nb} : exec (.plogic c op pd pa na pb nb) s = execPlogic c op pd pa na pb nb s := rfl
@[simp] theorem exec_fclass (s : State) {c} {ty} {f} : exec (.fclass c ty f) s = execFclass c ty f s := rfl
@[simp] theorem exec_psetv (s : State) {c} {a} {sel} : exec (.psetv c a sel) s = execPsetv c a sel s := rfl
@[simp] theorem exec_pgetv (s : State) {c} {d} {sel} : exec (.pgetv c d sel) s = execPgetv c d sel s := rfl
@[simp] theorem exec_mov (s : State) {c} {d} {b} : exec (.mov c d b) s = execMov c d b s := rfl
@[simp] theorem exec_sel (s : State) {c} {o} {ps} : exec (.sel c o ps) s = execSel c o ps s := rfl
@[simp] theorem exec_movsr (s : State) {c} {d} {sr} : exec (.movsr c d sr) s = execMovsr c d sr s := rfl
@[simp] theorem exec_movsrW (s : State) {c} {sr} {b} : exec (.movsrW c sr b) s = execMovsrW c sr b s := rfl
@[simp] theorem exec_perm (s : State) {c} {o} : exec (.perm c o) s = execPerm c o s := rfl
@[simp] theorem exec_ballot (s : State) {c} {d} {ps} : exec (.ballot c d ps) s = execBallot c d ps s := rfl
@[simp] theorem exec_vote (s : State) {c} {m} {pd} {ps} : exec (.vote c m pd ps) s = execVote c m pd ps s := rfl
@[simp] theorem exec_laneget (s : State) {c} {o} : exec (.laneget c o) s = execLaneget c o s := rfl
@[simp] theorem exec_nop (s : State) {c} : exec (.nop c) s = execNop c s := rfl
@[simp] theorem exec_bra (s : State) {c} {off} : exec (.bra c off) s = execBra c off s := rfl
@[simp] theorem exec_jmp (s : State) {c} {a} : exec (.jmp c a) s = execJmp c a s := rfl
@[simp] theorem exec_call (s : State) {c} {d} {off} : exec (.call c d off) s = execCall c d off s := rfl
@[simp] theorem exec_calli (s : State) {c} {o} : exec (.calli c o) s = execCalli c o s := rfl
@[simp] theorem exec_ret (s : State) {c} {a} : exec (.ret c a) s = execRet c a s := rfl
@[simp] theorem exec_exit (s : State) {c} : exec (.exit c) s = execExit c s := rfl
@[simp] theorem exec_meet (s : State) {c} {off} : exec (.meet c off) s = execMeet c off s := rfl
@[simp] theorem exec_meetNone (s : State) {c} : exec (.meetNone c) s = execMeetNone c s := rfl
@[simp] theorem exec_trap (s : State) {c} {b} : exec (.trap c b) s = execTrap c b s := rfl
@[simp] theorem exec_ld (s : State) {c} {ty} {h} {o} : exec (.ld c ty h o) s = execLd c ty h o s := rfl
@[simp] theorem exec_st (s : State) {c} {ty} {h} {o} : exec (.st c ty h o) s = execSt c ty h o s := rfl
@[simp] theorem exec_ldm (s : State) {c} {n} {s128} {o} : exec (.ldm c n s128 o) s = execLdm c n s128 o s := rfl
@[simp] theorem exec_stm (s : State) {c} {n} {s128} {o} : exec (.stm c n s128 o) s = execStm c n s128 o s := rfl
@[simp] theorem exec_lds (s : State) {c} {ty} {o} : exec (.lds c ty o) s = execLds c ty o s := rfl
@[simp] theorem exec_sts (s : State) {c} {ty} {o} : exec (.sts c ty o) s = execSts c ty o s := rfl
@[simp] theorem exec_ldt (s : State) {c} {w} {o} : exec (.ldt c w o) s = execLdt c w o s := rfl
@[simp] theorem exec_spres (s : State) {c} {o} : exec (.spres c o) s = execSpres c o s := rfl
@[simp] theorem exec_pref (s : State) {c} {h} {a} {b} : exec (.pref c h a b) s = execPref c h a b s := rfl
@[simp] theorem exec_drainst (s : State) {c} : exec (.drainst c) s = execDrainst c s := rfl
@[simp] theorem exec_sfqpop (s : State) {c} {pp} {d} : exec (.sfqpop c pp d) s = execSfqpop c pp d s := rfl
@[simp] theorem exec_atom (s : State) {c} {op} {ty} {o} : exec (.atom c op ty o) s = execAtom c op ty o s := rfl
@[simp] theorem exec_atomcas (s : State) {c} {ty} {o} : exec (.atomcas c ty o) s = execAtomcas c ty o s := rfl
@[simp] theorem exec_atoms (s : State) {c} {op} {ty} {o} : exec (.atoms c op ty o) s = execAtoms c op ty o s := rfl
@[simp] theorem exec_atomscas (s : State) {c} {ty} {o} : exec (.atomscas c ty o) s = execAtomscas c ty o s := rfl
@[simp] theorem exec_red (s : State) {c} {op} {ty} {a} {b} : exec (.red c op ty a b) s = execRed c op ty a b s := rfl
@[simp] theorem exec_fence (s : State) {c} {x} : exec (.fence c x) s = execFence c x s := rfl
@[simp] theorem exec_rel (s : State) {c} {x} : exec (.rel c x) s = execRel c x s := rfl
@[simp] theorem exec_acq (s : State) {c} {x} : exec (.acq c x) s = execAcq c x s := rfl
@[simp] theorem exec_join (s : State) {c} {pd} {b} : exec (.join c pd b) s = execJoin c pd b s := rfl
@[simp] theorem exec_leave (s : State) {c} {pd} {b} : exec (.leave c pd b) s = execLeave c pd b s := rfl
@[simp] theorem exec_bar (s : State) {c} {pd} {b} : exec (.bar c pd b) s = execBar c pd b s := rfl
@[simp] theorem exec_elect (s : State) {c} {pd} {b} : exec (.elect c pd b) s = execElect c pd b s := rfl
@[simp] theorem exec_electRel (s : State) {c} {b} : exec (.electRel c b) s = execElectRel c b s := rfl
@[simp] theorem exec_gkill (s : State) {c} {b} : exec (.gkill c b) s = execGkill c b s := rfl
@[simp] theorem exec_gred (s : State) {c} {ty} {op} {o} : exec (.gred c ty op o) s = execGred c ty op o s := rfl
@[simp] theorem exec_gbcast (s : State) {c} {ty} {o} : exec (.gbcast c ty o) s = execGbcast c ty o s := rfl
@[simp] theorem exec_genOpen (s : State) {c} {w} {t} {cons} {exit} : exec (.genOpen c w t cons exit) s = execGenOpen c w t cons exit s := rfl
@[simp] theorem exec_genPoint (s : State) {c} : exec (.genPoint c) s = execGenPoint c s := rfl
@[simp] theorem exec_genTake (s : State) {c} {d} : exec (.genTake c d) s = execGenTake c d s := rfl
@[simp] theorem exec_genNext (s : State) {c} : exec (.genNext c) s = execGenNext c s := rfl
@[simp] theorem exec_genPend (s : State) {c} : exec (.genPend c) s = execGenPend c s := rfl
@[simp] theorem exec_yield (s : State) {c} {a} : exec (.yield c a) s = execYield c a s := rfl
@[simp] theorem exec_reggrow (s : State) {c} {wait} {pd} {b} : exec (.reggrow c wait pd b) s = execReggrow c wait pd b s := rfl
@[simp] theorem exec_regshrink (s : State) {c} {b} : exec (.regshrink c b) s = execRegshrink c b s := rfl
@[simp] theorem exec_loopn (s : State) {c} {b} {off} : exec (.loopn c b off) s = execLoopn c b off s := rfl
@[simp] theorem exec_loopend (s : State) {c} : exec (.loopend c) s = execLoopend c s := rfl
@[simp] theorem exec_dqpush (s : State) {c} {a} : exec (.dqpush c a) s = execDqpush c a s := rfl
@[simp] theorem exec_dqpop (s : State) {c} {d} : exec (.dqpop c d) s = execDqpop c d s := rfl
@[simp] theorem exec_dqdone (s : State) {c} : exec (.dqdone c) s = execDqdone c s := rfl
@[simp] theorem exec_dqbr (s : State) {c} {f} {b} {off} : exec (.dqbr c f b off) s = execDqbr c f b off s := rfl
@[simp] theorem exec_sqpush (s : State) {c} {a} {q} : exec (.sqpush c a q) s = execSqpush c a q s := rfl
@[simp] theorem exec_sqpop (s : State) {c} {pp} {d} {q} : exec (.sqpop c pp d q) s = execSqpop c pp d q s := rfl
@[simp] theorem exec_gmov (s : State) {c} {p} {d} {b} : exec (.gmov c p d b) s = execGmov c p d b s := rfl
@[simp] theorem exec_mma (s : State) {c} {f} : exec (.mma c f) s = execMma c f s := rfl
@[simp] theorem exec_mmaj (s : State) {c} {f} {h1} : exec (.mmaj c f h1) s = execMmaj c f h1 s := rfl
@[simp] theorem exec_mrdy (s : State) {c} {fa} {fb} {shape} : exec (.mrdy c fa fb shape) s = execMrdy c fa fb shape s := rfl
@[simp] theorem exec_mwait (s : State) {c} {t} : exec (.mwait c t) s = execMwait c t s := rfl
@[simp] theorem exec_mwaitAll (s : State) {c} : exec (.mwaitAll c) s = execMwaitAll c s := rfl
@[simp] theorem exec_mld (s : State) {c} {f} : exec (.mld c f) s = execMld c f s := rfl
@[simp] theorem exec_mst (s : State) {c} {f} : exec (.mst c f) s = execMst c f s := rfl
@[simp] theorem exec_mclr (s : State) {c} {p} {t} : exec (.mclr c p t) s = execMclr c p t s := rfl
@[simp] theorem exec_mswap (s : State) {c} {t} {u} : exec (.mswap c t u) s = execMswap c t u s := rfl
@[simp] theorem exec_mstat (s : State) {c} {d} {t} : exec (.mstat c d t) s = execMstat c d t s := rfl
@[simp] theorem exec_ffstat (s : State) {c} {d} {f} : exec (.ffstat c d f) s = execFfstat c d f s := rfl
@[simp] theorem exec_claimNew (s : State) {c} {k} {sk} {dk} {a} {fifo} : exec (.claimNew c k sk dk a fifo) s = execClaimNew c k sk dk a fifo s := rfl
@[simp] theorem exec_claimUse (s : State) {c} {k} : exec (.claimUse c k) s = execClaimUse c k s := rfl
@[simp] theorem exec_flowReg (s : State) {c} {k} {x} {a} : exec (.flowReg c k x a) s = execFlowReg c k x a s := rfl
@[simp] theorem exec_flowImm (s : State) {c} {k} {x} {so} {d} {n} : exec (.flowImm c k x so d n) s = execFlowImm c k x so d n s := rfl
@[simp] theorem exec_flwait (s : State) {c} {k} {x} : exec (.flwait c k x) s = execFlwait c k x s := rfl
@[simp] theorem exec_clrel (s : State) {c} {k} : exec (.clrel c k) s = execClrel c k s := rfl
@[simp] theorem exec_clrevokePg (s : State) {c} {a} {b} : exec (.clrevokePg c a b) s = execClrevokePg c a b s := rfl
@[simp] theorem exec_clrevokeK (s : State) {c} {a} {k} : exec (.clrevokeK c a k) s = execClrevokeK c a k s := rfl
@[simp] theorem exec_hdrain (s : State) {c} : exec (.hdrain c) s = execHdrain c s := rfl
@[simp] theorem exec_mcast (s : State) {c} {n} {d} {a} {x} : exec (.mcast c n d a x) s = execMcast c n d a x s := rfl
@[simp] theorem exec_fred (s : State) {c} {bf} {op} {o} : exec (.fred c bf op o) s = execFred c bf op o s := rfl
@[simp] theorem exec_cregOpen (s : State) {c} {strict} {pd} {a} {off} : exec (.cregOpen c strict pd a off) s = execCregOpen c strict pd a off s := rfl
@[simp] theorem exec_cregClose (s : State) {c} : exec (.cregClose c) s = execCregClose c s := rfl
@[simp] theorem exec_pairOpen (s : State) {c} {pd} {a} {off} {slack} : exec (.pairOpen c pd a off slack) s = execPairOpen c pd a off slack s := rfl
@[simp] theorem exec_pairClose (s : State) {c} : exec (.pairClose c) s = execPairClose c s := rfl
@[simp] theorem exec_einjPerr (s : State) {c} : exec (.einjPerr c) s = execEinjPerr c s := rfl
@[simp] theorem exec_einjPoison (s : State) {c} : exec (.einjPoison c) s = execEinjPoison c s := rfl
@[simp] theorem exec_einjPmis (s : State) {c} {b} : exec (.einjPmis c b) s = execEinjPmis c b s := rfl
@[simp] theorem exec_einjCerr (s : State) {c} : exec (.einjCerr c) s = execEinjCerr c s := rfl
@[simp] theorem exec_prepair (s : State) {c} {d} {a} : exec (.prepair c d a) s = execPrepair c d a s := rfl
@[simp] theorem exec_presume (s : State) {c} {a} : exec (.presume c a) s = execPresume c a s := rfl
@[simp] theorem exec_presumeFail (s : State) {c} {a} : exec (.presumeFail c a) s = execPresumeFail c a s := rfl
@[simp] theorem exec_trmark (s : State) {c} {b} : exec (.trmark c b) s = execTrmark c b s := rfl
@[simp] theorem exec_cntcapStart (s : State) {c} {n} : exec (.cntcapStart c n) s = execCntcapStart c n s := rfl
@[simp] theorem exec_cntcapStop (s : State) {c} {d} {n} : exec (.cntcapStop c d n) s = execCntcapStop c d n s := rfl
@[simp] theorem exec_sample (s : State) {c} {b} : exec (.sample c b) s = execSample c b s := rfl
@[simp] theorem exec_launch (s : State) {c} {o} : exec (.launch c o) s = execLaunch c o s := rfl
@[simp] theorem exec_scall (s : State) {c} {b} : exec (.scall c b) s = execScall c b s := rfl
@[simp] theorem exec_mcall (s : State) {c} {fn} : exec (.mcall c fn) s = execMcall c fn s := rfl
@[simp] theorem exec_eret (s : State) {c} : exec (.eret c) s = execEret c s := rfl
@[simp] theorem exec_tlbfill (s : State) {c} {pd} {a} {lvl} : exec (.tlbfill c pd a lvl) s = execTlbfill c pd a lvl s := rfl
@[simp] theorem exec_tlbinvPg (s : State) {c} {a} {b} : exec (.tlbinvPg c a b) s = execTlbinvPg c a b s := rfl
@[simp] theorem exec_tlbinvAsid (s : State) {c} {b} : exec (.tlbinvAsid c b) s = execTlbinvAsid c b s := rfl
@[simp] theorem exec_tlbinvAll (s : State) {c} : exec (.tlbinvAll c) s = execTlbinvAll c s := rfl
@[simp] theorem exec_cinvPg (s : State) {c} {a} {b} : exec (.cinvPg c a b) s = execCinvPg c a b s := rfl
@[simp] theorem exec_cinvAsid (s : State) {c} {b} : exec (.cinvAsid c b) s = execCinvAsid c b s := rfl
@[simp] theorem exec_cinvAll (s : State) {c} : exec (.cinvAll c) s = execCinvAll c s := rfl
@[simp] theorem exec_ckptIvl (s : State) {c} {d} {b} : exec (.ckptIvl c d b) s = execCkptIvl c d b s := rfl
@[simp] theorem exec_ckptMem (s : State) {c} {d} : exec (.ckptMem c d) s = execCkptMem c d s := rfl
@[simp] theorem exec_ckptMemrst (s : State) {c} {d} : exec (.ckptMemrst c d) s = execCkptMemrst c d s := rfl
@[simp] theorem exec_recctlOff (s : State) {c} {d} {b} : exec (.recctlOff c d b) s = execRecctlOff c d b s := rfl
@[simp] theorem exec_recctlRec (s : State) {c} {d} {b} : exec (.recctlRec c d b) s = execRecctlRec c d b s := rfl
@[simp] theorem exec_recctlRpl (s : State) {c} {d} {b} : exec (.recctlRpl c d b) s = execRecctlRpl c d b s := rfl
@[simp] theorem exec_movps (s : State) {c} {d} {b} : exec (.movps c d b) s = execMovps c d b s := rfl
@[simp] theorem exec_movpsW (s : State) {c} {a} {b} : exec (.movpsW c a b) s = execMovpsW c a b s := rfl
@[simp] theorem exec_intctlMask (s : State) {c} {b} : exec (.intctlMask c b) s = execIntctlMask c b s := rfl
@[simp] theorem exec_intctlWait (s : State) {c} : exec (.intctlWait c) s = execIntctlWait c s := rfl
@[simp] theorem exec_intctlResume (s : State) {c} {a} {act} : exec (.intctlResume c a act) s = execIntctlResume c a act s := rfl
@[simp] theorem exec_intctlRespg (s : State) {c} {a} {b} : exec (.intctlRespg c a b) s = execIntctlRespg c a b s := rfl
@[simp] theorem exec_ctxsaveInst (s : State) {c} {o} : exec (.ctxsaveInst c o) s = execCtxsaveInst c o s := rfl
@[simp] theorem exec_ctxsaveCtx (s : State) {c} {o} : exec (.ctxsaveCtx c o) s = execCtxsaveCtx c o s := rfl
@[simp] theorem exec_ctxsaveEnd (s : State) {c} {o} : exec (.ctxsaveEnd c o) s = execCtxsaveEnd c o s := rfl
@[simp] theorem exec_ctxload (s : State) {c} {o} : exec (.ctxload c o) s = execCtxload c o s := rfl
@[simp] theorem exec_ctxloadCtx (s : State) {c} {o} : exec (.ctxloadCtx c o) s = execCtxloadCtx c o s := rfl
@[simp] theorem exec_wretFill (s : State) {c} : exec (.wretFill c) s = execWretFill c s := rfl
@[simp] theorem exec_wretServ (s : State) {c} : exec (.wretServ c) s = execWretServ c s := rfl
@[simp] theorem exec_wretDeny (s : State) {c} {cause} : exec (.wretDeny c cause) s = execWretDeny c cause s := rfl
@[simp] theorem exec_mcallMap (s : State) {who} : exec (.mcallMap who) s = execMcallMap who s := rfl
@[simp] theorem exec_mcallUnmap (s : State) {who} : exec (.mcallUnmap who) s = execMcallUnmap who s := rfl
@[simp] theorem exec_mcallLoad (s : State) {who} : exec (.mcallLoad who) s = execMcallLoad who s := rfl
@[simp] theorem exec_mcallReport (s : State) {who} : exec (.mcallReport who) s = execMcallReport who s := rfl
@[simp] theorem exec_mcallAssign (s : State) {who} : exec (.mcallAssign who) s = execMcallAssign who s := rfl
@[simp] theorem exec_mcallVfset (s : State) {who} : exec (.mcallVfset who) s = execMcallVfset who s := rfl
@[simp] theorem exec_mcallActivate (s : State) {who} : exec (.mcallActivate who) s = execMcallActivate who s := rfl
@[simp] theorem exec_mcallRelease (s : State) {who} : exec (.mcallRelease who) s = execMcallRelease who s := rfl
@[simp] theorem exec_memoryEventPop (s : State) {die} : exec (.memoryEventPop die) s = execMemoryEventPop die s := rfl
@[simp] theorem exec_trapQueuePop (s : State) {die} : exec (.trapQueuePop die) s = execTrapQueuePop die s := rfl
@[simp] theorem exec_unreachClear (s : State) {die} : exec (.unreachClear die) s = execUnreachClear die s := rfl
@[simp] theorem exec_laneBinCtlWrite (s : State) {core} {bin} {v} : exec (.laneBinCtlWrite core bin v) s = execLaneBinCtlWrite core bin v s := rfl
@[simp] theorem exec_vfBlockWrite (s : State) {vf} {k} {v} : exec (.vfBlockWrite vf k v) s = execVfBlockWrite vf k v s := rfl
@[simp] theorem exec_clauseIssue (s : State) {q} {iid} {tids} : exec (.clauseIssue q iid tids) s = execClauseIssue q iid tids s := rfl
@[simp] theorem exec_spinDemotion (s : State) {iid} {warp} : exec (.spinDemotion iid warp) s = execSpinDemotion iid warp s := rfl
@[simp] theorem exec_demotionEnd (s : State) {iid} {hw} : exec (.demotionEnd iid hw) s = execDemotionEnd iid hw s := rfl
@[simp] theorem exec_flagCompletion (s : State) {op} {tid} : exec (.flagCompletion op tid) s = execFlagCompletion op tid s := rfl
@[simp] theorem exec_falseGuardCompletion (s : State) {op} {hw} : exec (.falseGuardCompletion op hw) s = execFalseGuardCompletion op hw s := rfl
@[simp] theorem exec_storeFault (s : State) {op} {tid} : exec (.storeFault op tid) s = execStoreFault op tid s := rfl
@[simp] theorem exec_stageHandlerDelivery (s : State) {iid} {hw} : exec (.stageHandlerDelivery iid hw) s = execStageHandlerDelivery iid hw s := rfl
@[simp] theorem exec_stewardTrapEntry (s : State) {die} {n} {t} : exec (.stewardTrapEntry die n t) s = execStewardTrapEntry die n t s := rfl
@[simp] theorem exec_interruptEntry (s : State) {die} {n} : exec (.interruptEntry die n) s = execInterruptEntry die n s := rfl
@[simp] theorem exec_spadParkResume (s : State) {iid} {sub} : exec (.spadParkResume iid sub) s = execSpadParkResume iid sub s := rfl
@[simp] theorem exec_tlbMiss (s : State) {want} : exec (.tlbMiss want) s = execTlbMiss want s := rfl
@[simp] theorem exec_walkerDispatch (s : State) {ctrl} {cluster} : exec (.walkerDispatch ctrl cluster) s = execWalkerDispatch ctrl cluster s := rfl
@[simp] theorem exec_poisonedFill (s : State) {op} {tid} {cause} : exec (.poisonedFill op tid cause) s = execPoisonedFill op tid cause s := rfl
@[simp] theorem exec_repairStageStart (s : State) {ctx} {core} : exec (.repairStageStart ctx core) s = execRepairStageStart ctx core s := rfl
@[simp] theorem exec_migrationRequest (s : State) {ctrl} {asid} {va} {big} {far} {frame} : exec (.migrationRequest ctrl asid va big far frame) s = execMigrationRequest ctrl asid va big far frame s := rfl
@[simp] theorem exec_migrationCopy (s : State) {ctrl} {asid} {va} : exec (.migrationCopy ctrl asid va) s = execMigrationCopy ctrl asid va s := rfl
@[simp] theorem exec_migrationComplete (s : State) {ctrl} {asid} {va} : exec (.migrationComplete ctrl asid va) s = execMigrationComplete ctrl asid va s := rfl
@[simp] theorem exec_migrationAck (s : State) {ctrl} {asid} {va} : exec (.migrationAck ctrl asid va) s = execMigrationAck ctrl asid va s := rfl
@[simp] theorem exec_sectorWrite (s : State) {die} {key} : exec (.sectorWrite die key) s = execSectorWrite die key s := rfl
@[simp] theorem exec_claimWalkEnd (s : State) {die} {entry} : exec (.claimWalkEnd die entry) s = execClaimWalkEnd die entry s := rfl
@[simp] theorem exec_flowComplete (s : State) {flow} : exec (.flowComplete flow) s = execFlowComplete flow s := rfl
@[simp] theorem exec_arbiterGrant (s : State) {cluster} : exec (.arbiterGrant cluster) s = execArbiterGrant cluster s := rfl
@[simp] theorem exec_priorityPromotion (s : State) {cluster} {entry} : exec (.priorityPromotion cluster entry) s = execPriorityPromotion cluster entry s := rfl
@[simp] theorem exec_passComplete (s : State) {cluster} {entry} : exec (.passComplete cluster entry) s = execPassComplete cluster entry s := rfl
@[simp] theorem exec_jointEntryTimeout (s : State) {cluster} {entry} : exec (.jointEntryTimeout cluster entry) s = execJointEntryTimeout cluster entry s := rfl
@[simp] theorem exec_mrdyReady (s : State) {op} : exec (.mrdyReady op) s = execMrdyReady op s := rfl
@[simp] theorem exec_reggrowGrant (s : State) {iid} {hw} : exec (.reggrowGrant iid hw) s = execReggrowGrant iid hw s := rfl
@[simp] theorem exec_growthDeadlock (s : State) {core} : exec (.growthDeadlock core) s = execGrowthDeadlock core s := rfl
@[simp] theorem exec_instanceEnd (s : State) {iid} : exec (.instanceEnd iid) s = execInstanceEnd iid s := rfl
@[simp] theorem exec_gangPlacement (s : State) {die} {launch} {stage} {base} : exec (.gangPlacement die launch stage base) s = execGangPlacement die launch stage base s := rfl
@[simp] theorem exec_queueDrivenStart (s : State) {die} {launch} {stage} : exec (.queueDrivenStart die launch stage) s = execQueueDrivenStart die launch stage s := rfl
@[simp] theorem exec_gangAgeing (s : State) {die} {launch} {stage} : exec (.gangAgeing die launch stage) s = execGangAgeing die launch stage s := rfl
@[simp] theorem exec_intervalStart (s : State) {ctx} : exec (.intervalStart ctx) s = execIntervalStart ctx s := rfl
@[simp] theorem exec_uncorrectableError (s : State) {iid} {tid} {cause} {va} : exec (.uncorrectableError iid tid cause va) s = execUncorrectableError iid tid cause va s := rfl
@[simp] theorem exec_regionUnwind (s : State) {iid} {hw} : exec (.regionUnwind iid hw) s = execRegionUnwind iid hw s := rfl
@[simp] theorem exec_rollback (s : State) {ctx} : exec (.rollback ctx) s = execRollback ctx s := rfl
@[simp] theorem exec_compareMatch (s : State) {die} {iid} {tid} : exec (.compareMatch die iid tid) s = execCompareMatch die iid tid s := rfl
@[simp] theorem exec_logRecordWrite (s : State) {ctx} : exec (.logRecordWrite ctx) s = execLogRecordWrite ctx s := rfl
@[simp] theorem exec_replayRecordApply (s : State) {ctx} {src} : exec (.replayRecordApply ctx src) s = execReplayRecordApply ctx src s := rfl
@[simp] theorem exec_replayDivergence (s : State) {ctx} {kind} : exec (.replayDivergence ctx kind) s = execReplayDivergence ctx kind s := rfl
@[simp] theorem exec_pairedPartitionCompare (s : State) {ctx} : exec (.pairedPartitionCompare ctx) s = execPairedPartitionCompare ctx s := rfl
@[simp] theorem exec_preciseStop (s : State) {ctx} : exec (.preciseStop ctx) s = execPreciseStop ctx s := rfl
@[simp] theorem exec_traceRecordWrite (s : State) {die} : exec (.traceRecordWrite die) s = execTraceRecordWrite die s := rfl
@[simp] theorem exec_traceFrameClose (s : State) {die} : exec (.traceFrameClose die) s = execTraceFrameClose die s := rfl
@[simp] theorem exec_laneCycleEmit (s : State) {core} : exec (.laneCycleEmit core) s = execLaneCycleEmit core s := rfl
@[simp] theorem exec_clusterTestDue (s : State) {cluster} : exec (.clusterTestDue cluster) s = execClusterTestDue cluster s := rfl
@[simp] theorem exec_testOverdue (s : State) {cluster} : exec (.testOverdue cluster) s = execTestOverdue cluster s := rfl
@[simp] theorem exec_clusterTest (s : State) {cluster} {pass} : exec (.clusterTest cluster pass) s = execClusterTest cluster pass s := rfl
@[simp] theorem exec_powerOnBoot (s : State) {imgs} : exec (.powerOnBoot imgs) s = execPowerOnBoot imgs s := rfl
@[simp] theorem exec_coolantLossTrip (s : State) : exec (.coolantLossTrip) s = execCoolantLossTrip s := rfl
@[simp] theorem exec_managementPortRequest (s : State) {r} : exec (.managementPortRequest r) s = execManagementPortRequest r s := rfl
@[simp] theorem exec_moduleIdAssign (s : State) {id} : exec (.moduleIdAssign id) s = execModuleIdAssign id s := rfl
@[simp] theorem exec_hamperAgeExpiry (s : State) {core} {line} : exec (.hamperAgeExpiry core line) s = execHamperAgeExpiry core line s := rfl
@[simp] theorem exec_remoteMaskedWrite (s : State) {p} : exec (.remoteMaskedWrite p) s = execRemoteMaskedWrite p s := rfl
@[simp] theorem exec_remoteLoadRequest (s : State) {p} : exec (.remoteLoadRequest p) s = execRemoteLoadRequest p s := rfl
@[simp] theorem exec_remoteAtomicRequest (s : State) {r} : exec (.remoteAtomicRequest r) s = execRemoteAtomicRequest r s := rfl
@[simp] theorem exec_remoteAck (s : State) {req} {data} : exec (.remoteAck req data) s = execRemoteAck req data s := rfl
@[simp] theorem exec_remoteRefusal (s : State) {req} {cause} : exec (.remoteRefusal req cause) s = execRemoteRefusal req cause s := rfl
@[simp] theorem exec_destinationUnreachable (s : State) {peer} : exec (.destinationUnreachable peer) s = execDestinationUnreachable peer s := rfl
@[simp] theorem exec_ackTimeout (s : State) {req} : exec (.ackTimeout req) s = execAckTimeout req s := rfl
@[simp] theorem exec_linkDown (s : State) {die} {link} : exec (.linkDown die link) s = execLinkDown die link s := rfl
@[simp] theorem exec_grantRequest (s : State) {die} {p} {len} {isDst} : exec (.grantRequest die p len isDst) s = execGrantRequest die p len isDst s := rfl
@[simp] theorem exec_multicastCopy (s : State) {p} : exec (.multicastCopy p) s = execMulticastCopy p s := rfl
@[simp] theorem exec_fredRoundComplete (s : State) {group} {round} {others} : exec (.fredRoundComplete group round others) s = execFredRoundComplete group round others s := rfl
@[simp] theorem exec_fredRefusal (s : State) {req} : exec (.fredRefusal req) s = execFredRefusal req s := rfl
@[simp] theorem exec_logRingConsumerWrite (s : State) {ctx} {v} : exec (.logRingConsumerWrite ctx v) s = execLogRingConsumerWrite ctx v s := rfl
@[simp] theorem exec_logRingProducerWrite (s : State) {ctx} {v} : exec (.logRingProducerWrite ctx v) s = execLogRingProducerWrite ctx v s := rfl
@[simp] theorem exec_linkUp (s : State) {die} {link} : exec (.linkUp die link) s = execLinkUp die link s := rfl
@[simp] theorem exec_probeAnswer (s : State) {peer} : exec (.probeAnswer peer) s = execProbeAnswer peer s := rfl
@[simp] theorem exec_computeSideReset (s : State) : exec (.computeSideReset) s = execComputeSideReset s := rfl
@[simp] theorem exec_thermalLimitReached (s : State) {on} : exec (.thermalLimitReached on) s = execThermalLimitReached on s := rfl
@[simp] theorem exec_activationEnd (s : State) : exec (.activationEnd) s = execActivationEnd s := rfl
@[simp] theorem exec_dieToDieWriteArrival (s : State) {id} : exec (.dieToDieWriteArrival id) s = execDieToDieWriteArrival id s := rfl
@[simp] theorem exec_peerRevokeMessage (s : State) {peer} {va} {cause} : exec (.peerRevokeMessage peer va cause) s = execPeerRevokeMessage peer va cause s := rfl
@[simp] theorem exec_flowsDrainedReport (s : State) {die} {entry} : exec (.flowsDrainedReport die entry) s = execFlowsDrainedReport die entry s := rfl

end Sys2Proof.Machine
end

