-- ==== Sys2Proof/Laws/Encoded.lean ====
section
/-! SUPPORT. The one shape of every encoded instruction's meaning: inside a clause, `State.issueIns` with the registers that the instruction
reads or writes beyond its fields, and a body of its own. -/
namespace Sys2Proof.Machine

/-- The registers beyond the encoded ones that an instruction names: a Basket's entry, a stage queue's record. -/
def moreRegs (i : Instr) (s : State) (is : Issue) : List RU := match i with
  | .genTake _ a | .yield _ a => entryRegs a s is
  | .sqpush _ a q => s.sqRegs (s.inst is.iid) q a true
  | .sqpop _ _ a q => s.sqRegs (s.inst is.iid) q a false
  | _ => []

/-- Every encoded instruction issues through the shared checks (R41, R36, R37). -/
theorem exec_encoded {i : Instr} {c : Ctl} (h : i.ctl = some c) : ∃ body : State → Issue → State → Issue → Did,
    ∀ s, exec i s = inClause s fun is => s.issueIns is i c (moreRegs i s is) (body s is) := by
  cases i <;> first
    | (injection h with h; subst h; exact ⟨_, fun _ => rfl⟩)
    | exact absurd h (by simp [Instr.ctl])

/-- Outside a clause an encoded instruction stops (log entry 68). -/
theorem exec_no_clause {i : Instr} {c : Ctl} (h : i.ctl = some c) {s : State} (hs : s.issue? = none) : exec i s = .fault .noClause := by
  obtain ⟨body, hb⟩ := exec_encoded h
  rw [hb, inClause, hs]

end Sys2Proof.Machine
end

