-- ==== Sys2Proof/Laws/Sparse.lean ====
section
/-!
SUPPORT. Sparse tables: reading after a write, and the canonical form, which every operation keeps.
-/
namespace Sys2Proof.Machine

variable {β : Type}

theorem find?_sput_self (m : SMap β) (a : Nat) (x : β) : find? (sput m a x) a = some x := by
  induction m with
  | nil => simp [sput, find?]
  | cons p r ih =>
    unfold sput
    split
    · rename_i h1; simp [find?, h1]
    · split
      · simp [find?]
      · rename_i h1 h2
        simp [find?, h1, ih]

theorem find?_sput_ne (m : SMap β) {a b : Nat} (x : β) (h : a ≠ b) : find? (sput m b x) a = find? m a := by
  induction m with
  | nil => simp [sput, find?, h]
  | cons p r ih =>
    unfold sput
    split
    · rename_i h1
      have h2 : ¬ a = p.1 := fun e => h (e.trans h1.symm)
      simp only [find?, h2, if_false]
    · split
      · simp only [find?, h, if_false]
      · simp only [find?, ih]

theorem find?_sdel_self (m : SMap β) (a : Nat) : find? (sdel m a) a = none := by
  induction m with
  | nil => rfl
  | cons p r ih =>
    unfold sdel at ih ⊢
    rw [List.filter_cons]
    by_cases h : p.1 = a
    · simpa [h] using ih
    · have h2 : ¬ a = p.1 := fun e => h e.symm
      simp [h, h2, find?, ih]

theorem find?_sdel_ne (m : SMap β) {a b : Nat} (h : a ≠ b) : find? (sdel m b) a = find? m a := by
  induction m with
  | nil => rfl
  | cons p r ih =>
    unfold sdel at ih ⊢
    rw [List.filter_cons]
    by_cases hp : p.1 = b
    · have h2 : ¬ a = p.1 := fun e => h (e.trans hp)
      simp only [hp, bne_self_eq_false, Bool.false_eq_true, if_false, ih, find?, h]
    · have hb : (p.1 != b) = true := by simpa using hp
      simp only [hb, if_true, find?, ih]

section Get
variable [DecidableEq β]

/-- Reading where one has written gives the value written. -/
theorem sget_sset_self (d : β) (m : SMap β) (a : Nat) (x : β) : sget d (sset d m a x) a = x := by
  unfold sget sset
  split
  · rename_i hx; rw [find?_sdel_self]; exact hx.symm
  · rw [find?_sput_self]; rfl

/-- A write leaves every other key alone. -/
theorem sget_sset_ne (d : β) (m : SMap β) {a b : Nat} (x : β) (h : a ≠ b) : sget d (sset d m b x) a = sget d m a := by
  unfold sget sset
  split
  · rw [find?_sdel_ne m h]
  · rw [find?_sput_ne m x h]

end Get

/-- A listed key takes the changed value, an unlisted one stays unlisted. -/
theorem find?_smod (m : SMap β) (a b : Nat) (f : β → β) :
    find? (smod m a f) b = if b = a then (find? m b).map f else find? m b := by
  induction m with
  | nil => simp [smod, find?]
  | cons p r ih =>
    simp only [smod, List.map_cons] at ih ⊢
    by_cases hp : p.1 = a
    · simp only [hp, if_true, find?]
      by_cases hb : b = a
      · simp [hb]
      · simp only [hb, if_false] at ih ⊢
        rw [ih]
    · simp only [hp, if_false, find?]
      by_cases hb : b = a
      · subst hb
        have hpb : ¬ b = p.1 := fun h => hp h.symm
        simp only [hpb, if_false, if_true] at ih ⊢
        rw [ih]
      · simp only [hb, if_false] at ih ⊢
        rw [ih]

/-! ### The canonical form -/

section Wf
variable [DecidableEq β]

theorem SMap.wfFrom_nil (d : β) (lo : Nat) : SMap.wfFrom d lo ([] : SMap β) = true := rfl
theorem SMap.wfFrom_cons (d : β) (lo : Nat) (p : Nat × β) (r : SMap β) :
    SMap.wfFrom d lo (p :: r) = true ↔ lo ≤ p.1 ∧ p.2 ≠ d ∧ SMap.wfFrom d (p.1 + 1) r = true := by
  simp [SMap.wfFrom, and_assoc]

theorem SMap.wfFrom_mono {d : β} {m : SMap β} {a b : Nat} (h : a ≤ b) (hm : SMap.wfFrom d b m = true) :
    SMap.wfFrom d a m = true := by
  cases m with
  | nil => rfl
  | cons p r => rw [SMap.wfFrom_cons] at hm ⊢; exact ⟨Nat.le_trans h hm.1, hm.2⟩

theorem wfFrom_sdel {d : β} {m : SMap β} {lo : Nat} (a : Nat) (hm : SMap.wfFrom d lo m = true) :
    SMap.wfFrom d lo (sdel m a) = true := by
  induction m generalizing lo with
  | nil => rfl
  | cons p r ih =>
    obtain ⟨h1, h2, h3⟩ := (SMap.wfFrom_cons _ _ _ _).1 hm
    unfold sdel at ih ⊢
    rw [List.filter_cons]
    split
    · exact (SMap.wfFrom_cons _ _ _ _).2 ⟨h1, h2, ih h3⟩
    · exact SMap.wfFrom_mono (by omega) (ih h3)

theorem wfFrom_sput {d : β} {m : SMap β} {lo a : Nat} {x : β} (hm : SMap.wfFrom d lo m = true) (h : lo ≤ a) (hx : x ≠ d) :
    SMap.wfFrom d lo (sput m a x) = true := by
  induction m generalizing lo with
  | nil => exact (SMap.wfFrom_cons _ _ _ _).2 ⟨h, hx, rfl⟩
  | cons p r ih =>
    obtain ⟨h1, h2, h3⟩ := (SMap.wfFrom_cons _ _ _ _).1 hm
    unfold sput
    split
    · exact (SMap.wfFrom_cons _ _ _ _).2 ⟨h1, hx, h3⟩
    · split
      · rename_i h4 h5
        exact (SMap.wfFrom_cons _ _ _ _).2 ⟨h, hx, (SMap.wfFrom_cons _ _ _ _).2 ⟨h5, h2, h3⟩⟩
      · exact (SMap.wfFrom_cons _ _ _ _).2 ⟨h1, h2, ih h3 (by omega)⟩

/-- A write keeps the canonical form. -/
theorem wf_sset {d : β} {m : SMap β} (a : Nat) (x : β) (h : SMap.wf d m = true) : SMap.wf d (sset d m a x) = true := by
  unfold sset
  split
  · exact wfFrom_sdel a h
  · rename_i hx
    exact wfFrom_sput h (Nat.zero_le a) hx

end Wf

end Sys2Proof.Machine
end

