-- ==== Sys2Proof/Laws/State.lean ====
section
/-!
SUPPORT. What each update of the state leaves alone: one lemma per field per update, so that no proof unfolds an update.
-/
namespace Sys2Proof.Machine

/-! ### State.setCore -/

@[simp] theorem State.setCore_agenda (s : State) (c : Nat) (k : Core) : (s.setCore c k).agenda = s.agenda := rfl
@[simp] theorem State.setCore_focus (s : State) (c : Nat) (k : Core) : (s.setCore c k).focus = s.focus := rfl
@[simp] theorem State.setCore_now (s : State) (c : Nat) (k : Core) : (s.setCore c k).now = s.now := rfl
@[simp] theorem State.setCore_fresh (s : State) (c : Nat) (k : Core) : (s.setCore c k).fresh = s.fresh := rfl
@[simp] theorem State.setCore_nextId (s : State) (c : Nat) (k : Core) : (s.setCore c k).nextId = s.nextId := rfl
@[simp] theorem State.setCore_mem (s : State) (c : Nat) (k : Core) : (s.setCore c k).mem = s.mem := rfl
@[simp] theorem State.setCore_poisonM (s : State) (c : Nat) (k : Core) : (s.setCore c k).poisonM = s.poisonM := rfl
@[simp] theorem State.setCore_stags (s : State) (c : Nat) (k : Core) : (s.setCore c k).stags = s.stags := rfl
@[simp] theorem State.setCore_resumed (s : State) (c : Nat) (k : Core) : (s.setCore c k).resumed = s.resumed := rfl
@[simp] theorem State.setCore_dies (s : State) (c : Nat) (k : Core) : (s.setCore c k).dies = s.dies := rfl
@[simp] theorem State.setCore_clusters (s : State) (c : Nat) (k : Core) : (s.setCore c k).clusters = s.clusters := rfl
@[simp] theorem State.setCore_stewards (s : State) (c : Nat) (k : Core) : (s.setCore c k).stewards = s.stewards := rfl
@[simp] theorem State.setCore_insts (s : State) (c : Nat) (k : Core) : (s.setCore c k).insts = s.insts := rfl
@[simp] theorem State.setCore_issues (s : State) (c : Nat) (k : Core) : (s.setCore c k).issues = s.issues := rfl
@[simp] theorem State.setCore_ops (s : State) (c : Nat) (k : Core) : (s.setCore c k).ops = s.ops := rfl
@[simp] theorem State.setCore_ctxs (s : State) (c : Nat) (k : Core) : (s.setCore c k).ctxs = s.ctxs := rfl
@[simp] theorem State.setCore_vfs (s : State) (c : Nat) (k : Core) : (s.setCore c k).vfs = s.vfs := rfl
@[simp] theorem State.setCore_launches (s : State) (c : Nat) (k : Core) : (s.setCore c k).launches = s.launches := rfl
@[simp] theorem State.setCore_snapLaunches (s : State) (c : Nat) (k : Core) : (s.setCore c k).snapLaunches = s.snapLaunches := rfl
@[simp] theorem State.setCore_saved (s : State) (c : Nat) (k : Core) : (s.setCore c k).saved = s.saved := rfl
@[simp] theorem State.setCore_tlb (s : State) (c : Nat) (k : Core) : (s.setCore c k).tlb = s.tlb := rfl
@[simp] theorem State.setCore_mapped (s : State) (c : Nat) (k : Core) : (s.setCore c k).mapped = s.mapped := rfl
@[simp] theorem State.setCore_spoiled (s : State) (c : Nat) (k : Core) : (s.setCore c k).spoiled = s.spoiled := rfl
@[simp] theorem State.setCore_wants (s : State) (c : Nat) (k : Core) : (s.setCore c k).wants = s.wants := rfl
@[simp] theorem State.setCore_walks (s : State) (c : Nat) (k : Core) : (s.setCore c k).walks = s.walks := rfl
@[simp] theorem State.setCore_migs (s : State) (c : Nat) (k : Core) : (s.setCore c k).migs = s.migs := rfl
@[simp] theorem State.setCore_flows (s : State) (c : Nat) (k : Core) : (s.setCore c k).flows = s.flows := rfl
@[simp] theorem State.setCore_d2d (s : State) (c : Nat) (k : Core) : (s.setCore c k).d2d = s.d2d := rfl
@[simp] theorem State.setCore_freqs (s : State) (c : Nat) (k : Core) : (s.setCore c k).freqs = s.freqs := rfl
@[simp] theorem State.setCore_contribs (s : State) (c : Nat) (k : Core) : (s.setCore c k).contribs = s.contribs := rfl
@[simp] theorem State.setCore_served (s : State) (c : Nat) (k : Core) : (s.setCore c k).served = s.served := rfl
@[simp] theorem State.setCore_answers (s : State) (c : Nat) (k : Core) : (s.setCore c k).answers = s.answers := rfl
@[simp] theorem State.setCore_rxSeq (s : State) (c : Nat) (k : Core) : (s.setCore c k).rxSeq = s.rxSeq := rfl
@[simp] theorem State.setCore_down (s : State) (c : Nat) (k : Core) : (s.setCore c k).down = s.down := rfl
@[simp] theorem State.setCore_probing (s : State) (c : Nat) (k : Core) : (s.setCore c k).probing = s.probing := rfl
@[simp] theorem State.setCore_modId (s : State) (c : Nat) (k : Core) : (s.setCore c k).modId = s.modId := rfl
@[simp] theorem State.setCore_monitor (s : State) (c : Nat) (k : Core) : (s.setCore c k).monitor = s.monitor := rfl
@[simp] theorem State.setCore_halted (s : State) (c : Nat) (k : Core) : (s.setCore c k).halted = s.halted := rfl
@[simp] theorem State.setCore_throttled (s : State) (c : Nat) (k : Core) : (s.setCore c k).throttled = s.throttled := rfl
@[simp] theorem State.setCore_ckptOp (s : State) (c : Nat) (k : Core) : (s.setCore c k).ckptOp = s.ckptOp := rfl
@[simp] theorem State.setCore_ckpt (s : State) (c : Nat) (k : Core) : (s.setCore c k).ckpt = s.ckpt := rfl
@[simp] theorem State.setCore_booted (s : State) (c : Nat) (k : Core) : (s.setCore c k).booted = s.booted := rfl

/-! ### State.modCore -/

@[simp] theorem State.modCore_agenda (s : State) (c : Nat) (f : Core → Core) : (s.modCore c f).agenda = s.agenda := rfl
@[simp] theorem State.modCore_focus (s : State) (c : Nat) (f : Core → Core) : (s.modCore c f).focus = s.focus := rfl
@[simp] theorem State.modCore_now (s : State) (c : Nat) (f : Core → Core) : (s.modCore c f).now = s.now := rfl
@[simp] theorem State.modCore_fresh (s : State) (c : Nat) (f : Core → Core) : (s.modCore c f).fresh = s.fresh := rfl
@[simp] theorem State.modCore_nextId (s : State) (c : Nat) (f : Core → Core) : (s.modCore c f).nextId = s.nextId := rfl
@[simp] theorem State.modCore_mem (s : State) (c : Nat) (f : Core → Core) : (s.modCore c f).mem = s.mem := rfl
@[simp] theorem State.modCore_poisonM (s : State) (c : Nat) (f : Core → Core) : (s.modCore c f).poisonM = s.poisonM := rfl
@[simp] theorem State.modCore_stags (s : State) (c : Nat) (f : Core → Core) : (s.modCore c f).stags = s.stags := rfl
@[simp] theorem State.modCore_resumed (s : State) (c : Nat) (f : Core → Core) : (s.modCore c f).resumed = s.resumed := rfl
@[simp] theorem State.modCore_dies (s : State) (c : Nat) (f : Core → Core) : (s.modCore c f).dies = s.dies := rfl
@[simp] theorem State.modCore_clusters (s : State) (c : Nat) (f : Core → Core) : (s.modCore c f).clusters = s.clusters := rfl
@[simp] theorem State.modCore_stewards (s : State) (c : Nat) (f : Core → Core) : (s.modCore c f).stewards = s.stewards := rfl
@[simp] theorem State.modCore_insts (s : State) (c : Nat) (f : Core → Core) : (s.modCore c f).insts = s.insts := rfl
@[simp] theorem State.modCore_issues (s : State) (c : Nat) (f : Core → Core) : (s.modCore c f).issues = s.issues := rfl
@[simp] theorem State.modCore_ops (s : State) (c : Nat) (f : Core → Core) : (s.modCore c f).ops = s.ops := rfl
@[simp] theorem State.modCore_ctxs (s : State) (c : Nat) (f : Core → Core) : (s.modCore c f).ctxs = s.ctxs := rfl
@[simp] theorem State.modCore_vfs (s : State) (c : Nat) (f : Core → Core) : (s.modCore c f).vfs = s.vfs := rfl
@[simp] theorem State.modCore_launches (s : State) (c : Nat) (f : Core → Core) : (s.modCore c f).launches = s.launches := rfl
@[simp] theorem State.modCore_snapLaunches (s : State) (c : Nat) (f : Core → Core) : (s.modCore c f).snapLaunches = s.snapLaunches := rfl
@[simp] theorem State.modCore_saved (s : State) (c : Nat) (f : Core → Core) : (s.modCore c f).saved = s.saved := rfl
@[simp] theorem State.modCore_tlb (s : State) (c : Nat) (f : Core → Core) : (s.modCore c f).tlb = s.tlb := rfl
@[simp] theorem State.modCore_mapped (s : State) (c : Nat) (f : Core → Core) : (s.modCore c f).mapped = s.mapped := rfl
@[simp] theorem State.modCore_spoiled (s : State) (c : Nat) (f : Core → Core) : (s.modCore c f).spoiled = s.spoiled := rfl
@[simp] theorem State.modCore_wants (s : State) (c : Nat) (f : Core → Core) : (s.modCore c f).wants = s.wants := rfl
@[simp] theorem State.modCore_walks (s : State) (c : Nat) (f : Core → Core) : (s.modCore c f).walks = s.walks := rfl
@[simp] theorem State.modCore_migs (s : State) (c : Nat) (f : Core → Core) : (s.modCore c f).migs = s.migs := rfl
@[simp] theorem State.modCore_flows (s : State) (c : Nat) (f : Core → Core) : (s.modCore c f).flows = s.flows := rfl
@[simp] theorem State.modCore_d2d (s : State) (c : Nat) (f : Core → Core) : (s.modCore c f).d2d = s.d2d := rfl
@[simp] theorem State.modCore_freqs (s : State) (c : Nat) (f : Core → Core) : (s.modCore c f).freqs = s.freqs := rfl
@[simp] theorem State.modCore_contribs (s : State) (c : Nat) (f : Core → Core) : (s.modCore c f).contribs = s.contribs := rfl
@[simp] theorem State.modCore_served (s : State) (c : Nat) (f : Core → Core) : (s.modCore c f).served = s.served := rfl
@[simp] theorem State.modCore_answers (s : State) (c : Nat) (f : Core → Core) : (s.modCore c f).answers = s.answers := rfl
@[simp] theorem State.modCore_rxSeq (s : State) (c : Nat) (f : Core → Core) : (s.modCore c f).rxSeq = s.rxSeq := rfl
@[simp] theorem State.modCore_down (s : State) (c : Nat) (f : Core → Core) : (s.modCore c f).down = s.down := rfl
@[simp] theorem State.modCore_probing (s : State) (c : Nat) (f : Core → Core) : (s.modCore c f).probing = s.probing := rfl
@[simp] theorem State.modCore_modId (s : State) (c : Nat) (f : Core → Core) : (s.modCore c f).modId = s.modId := rfl
@[simp] theorem State.modCore_monitor (s : State) (c : Nat) (f : Core → Core) : (s.modCore c f).monitor = s.monitor := rfl
@[simp] theorem State.modCore_halted (s : State) (c : Nat) (f : Core → Core) : (s.modCore c f).halted = s.halted := rfl
@[simp] theorem State.modCore_throttled (s : State) (c : Nat) (f : Core → Core) : (s.modCore c f).throttled = s.throttled := rfl
@[simp] theorem State.modCore_ckptOp (s : State) (c : Nat) (f : Core → Core) : (s.modCore c f).ckptOp = s.ckptOp := rfl
@[simp] theorem State.modCore_ckpt (s : State) (c : Nat) (f : Core → Core) : (s.modCore c f).ckpt = s.ckpt := rfl
@[simp] theorem State.modCore_booted (s : State) (c : Nat) (f : Core → Core) : (s.modCore c f).booted = s.booted := rfl

/-! ### State.setDie -/

@[simp] theorem State.setDie_agenda (s : State) (d : Nat) (x : Die) : (s.setDie d x).agenda = s.agenda := rfl
@[simp] theorem State.setDie_focus (s : State) (d : Nat) (x : Die) : (s.setDie d x).focus = s.focus := rfl
@[simp] theorem State.setDie_now (s : State) (d : Nat) (x : Die) : (s.setDie d x).now = s.now := rfl
@[simp] theorem State.setDie_fresh (s : State) (d : Nat) (x : Die) : (s.setDie d x).fresh = s.fresh := rfl
@[simp] theorem State.setDie_nextId (s : State) (d : Nat) (x : Die) : (s.setDie d x).nextId = s.nextId := rfl
@[simp] theorem State.setDie_mem (s : State) (d : Nat) (x : Die) : (s.setDie d x).mem = s.mem := rfl
@[simp] theorem State.setDie_poisonM (s : State) (d : Nat) (x : Die) : (s.setDie d x).poisonM = s.poisonM := rfl
@[simp] theorem State.setDie_stags (s : State) (d : Nat) (x : Die) : (s.setDie d x).stags = s.stags := rfl
@[simp] theorem State.setDie_resumed (s : State) (d : Nat) (x : Die) : (s.setDie d x).resumed = s.resumed := rfl
@[simp] theorem State.setDie_clusters (s : State) (d : Nat) (x : Die) : (s.setDie d x).clusters = s.clusters := rfl
@[simp] theorem State.setDie_cores (s : State) (d : Nat) (x : Die) : (s.setDie d x).cores = s.cores := rfl
@[simp] theorem State.setDie_stewards (s : State) (d : Nat) (x : Die) : (s.setDie d x).stewards = s.stewards := rfl
@[simp] theorem State.setDie_insts (s : State) (d : Nat) (x : Die) : (s.setDie d x).insts = s.insts := rfl
@[simp] theorem State.setDie_issues (s : State) (d : Nat) (x : Die) : (s.setDie d x).issues = s.issues := rfl
@[simp] theorem State.setDie_ops (s : State) (d : Nat) (x : Die) : (s.setDie d x).ops = s.ops := rfl
@[simp] theorem State.setDie_ctxs (s : State) (d : Nat) (x : Die) : (s.setDie d x).ctxs = s.ctxs := rfl
@[simp] theorem State.setDie_vfs (s : State) (d : Nat) (x : Die) : (s.setDie d x).vfs = s.vfs := rfl
@[simp] theorem State.setDie_launches (s : State) (d : Nat) (x : Die) : (s.setDie d x).launches = s.launches := rfl
@[simp] theorem State.setDie_snapLaunches (s : State) (d : Nat) (x : Die) : (s.setDie d x).snapLaunches = s.snapLaunches := rfl
@[simp] theorem State.setDie_saved (s : State) (d : Nat) (x : Die) : (s.setDie d x).saved = s.saved := rfl
@[simp] theorem State.setDie_tlb (s : State) (d : Nat) (x : Die) : (s.setDie d x).tlb = s.tlb := rfl
@[simp] theorem State.setDie_mapped (s : State) (d : Nat) (x : Die) : (s.setDie d x).mapped = s.mapped := rfl
@[simp] theorem State.setDie_spoiled (s : State) (d : Nat) (x : Die) : (s.setDie d x).spoiled = s.spoiled := rfl
@[simp] theorem State.setDie_wants (s : State) (d : Nat) (x : Die) : (s.setDie d x).wants = s.wants := rfl
@[simp] theorem State.setDie_walks (s : State) (d : Nat) (x : Die) : (s.setDie d x).walks = s.walks := rfl
@[simp] theorem State.setDie_migs (s : State) (d : Nat) (x : Die) : (s.setDie d x).migs = s.migs := rfl
@[simp] theorem State.setDie_flows (s : State) (d : Nat) (x : Die) : (s.setDie d x).flows = s.flows := rfl
@[simp] theorem State.setDie_d2d (s : State) (d : Nat) (x : Die) : (s.setDie d x).d2d = s.d2d := rfl
@[simp] theorem State.setDie_freqs (s : State) (d : Nat) (x : Die) : (s.setDie d x).freqs = s.freqs := rfl
@[simp] theorem State.setDie_contribs (s : State) (d : Nat) (x : Die) : (s.setDie d x).contribs = s.contribs := rfl
@[simp] theorem State.setDie_served (s : State) (d : Nat) (x : Die) : (s.setDie d x).served = s.served := rfl
@[simp] theorem State.setDie_answers (s : State) (d : Nat) (x : Die) : (s.setDie d x).answers = s.answers := rfl
@[simp] theorem State.setDie_rxSeq (s : State) (d : Nat) (x : Die) : (s.setDie d x).rxSeq = s.rxSeq := rfl
@[simp] theorem State.setDie_down (s : State) (d : Nat) (x : Die) : (s.setDie d x).down = s.down := rfl
@[simp] theorem State.setDie_probing (s : State) (d : Nat) (x : Die) : (s.setDie d x).probing = s.probing := rfl
@[simp] theorem State.setDie_modId (s : State) (d : Nat) (x : Die) : (s.setDie d x).modId = s.modId := rfl
@[simp] theorem State.setDie_monitor (s : State) (d : Nat) (x : Die) : (s.setDie d x).monitor = s.monitor := rfl
@[simp] theorem State.setDie_halted (s : State) (d : Nat) (x : Die) : (s.setDie d x).halted = s.halted := rfl
@[simp] theorem State.setDie_throttled (s : State) (d : Nat) (x : Die) : (s.setDie d x).throttled = s.throttled := rfl
@[simp] theorem State.setDie_ckptOp (s : State) (d : Nat) (x : Die) : (s.setDie d x).ckptOp = s.ckptOp := rfl
@[simp] theorem State.setDie_ckpt (s : State) (d : Nat) (x : Die) : (s.setDie d x).ckpt = s.ckpt := rfl
@[simp] theorem State.setDie_booted (s : State) (d : Nat) (x : Die) : (s.setDie d x).booted = s.booted := rfl

/-! ### State.modDie -/

@[simp] theorem State.modDie_agenda (s : State) (d : Nat) (f : Die → Die) : (s.modDie d f).agenda = s.agenda := rfl
@[simp] theorem State.modDie_focus (s : State) (d : Nat) (f : Die → Die) : (s.modDie d f).focus = s.focus := rfl
@[simp] theorem State.modDie_now (s : State) (d : Nat) (f : Die → Die) : (s.modDie d f).now = s.now := rfl
@[simp] theorem State.modDie_fresh (s : State) (d : Nat) (f : Die → Die) : (s.modDie d f).fresh = s.fresh := rfl
@[simp] theorem State.modDie_nextId (s : State) (d : Nat) (f : Die → Die) : (s.modDie d f).nextId = s.nextId := rfl
@[simp] theorem State.modDie_mem (s : State) (d : Nat) (f : Die → Die) : (s.modDie d f).mem = s.mem := rfl
@[simp] theorem State.modDie_poisonM (s : State) (d : Nat) (f : Die → Die) : (s.modDie d f).poisonM = s.poisonM := rfl
@[simp] theorem State.modDie_stags (s : State) (d : Nat) (f : Die → Die) : (s.modDie d f).stags = s.stags := rfl
@[simp] theorem State.modDie_resumed (s : State) (d : Nat) (f : Die → Die) : (s.modDie d f).resumed = s.resumed := rfl
@[simp] theorem State.modDie_clusters (s : State) (d : Nat) (f : Die → Die) : (s.modDie d f).clusters = s.clusters := rfl
@[simp] theorem State.modDie_cores (s : State) (d : Nat) (f : Die → Die) : (s.modDie d f).cores = s.cores := rfl
@[simp] theorem State.modDie_stewards (s : State) (d : Nat) (f : Die → Die) : (s.modDie d f).stewards = s.stewards := rfl
@[simp] theorem State.modDie_insts (s : State) (d : Nat) (f : Die → Die) : (s.modDie d f).insts = s.insts := rfl
@[simp] theorem State.modDie_issues (s : State) (d : Nat) (f : Die → Die) : (s.modDie d f).issues = s.issues := rfl
@[simp] theorem State.modDie_ops (s : State) (d : Nat) (f : Die → Die) : (s.modDie d f).ops = s.ops := rfl
@[simp] theorem State.modDie_ctxs (s : State) (d : Nat) (f : Die → Die) : (s.modDie d f).ctxs = s.ctxs := rfl
@[simp] theorem State.modDie_vfs (s : State) (d : Nat) (f : Die → Die) : (s.modDie d f).vfs = s.vfs := rfl
@[simp] theorem State.modDie_launches (s : State) (d : Nat) (f : Die → Die) : (s.modDie d f).launches = s.launches := rfl
@[simp] theorem State.modDie_snapLaunches (s : State) (d : Nat) (f : Die → Die) : (s.modDie d f).snapLaunches = s.snapLaunches := rfl
@[simp] theorem State.modDie_saved (s : State) (d : Nat) (f : Die → Die) : (s.modDie d f).saved = s.saved := rfl
@[simp] theorem State.modDie_tlb (s : State) (d : Nat) (f : Die → Die) : (s.modDie d f).tlb = s.tlb := rfl
@[simp] theorem State.modDie_mapped (s : State) (d : Nat) (f : Die → Die) : (s.modDie d f).mapped = s.mapped := rfl
@[simp] theorem State.modDie_spoiled (s : State) (d : Nat) (f : Die → Die) : (s.modDie d f).spoiled = s.spoiled := rfl
@[simp] theorem State.modDie_wants (s : State) (d : Nat) (f : Die → Die) : (s.modDie d f).wants = s.wants := rfl
@[simp] theorem State.modDie_walks (s : State) (d : Nat) (f : Die → Die) : (s.modDie d f).walks = s.walks := rfl
@[simp] theorem State.modDie_migs (s : State) (d : Nat) (f : Die → Die) : (s.modDie d f).migs = s.migs := rfl
@[simp] theorem State.modDie_flows (s : State) (d : Nat) (f : Die → Die) : (s.modDie d f).flows = s.flows := rfl
@[simp] theorem State.modDie_d2d (s : State) (d : Nat) (f : Die → Die) : (s.modDie d f).d2d = s.d2d := rfl
@[simp] theorem State.modDie_freqs (s : State) (d : Nat) (f : Die → Die) : (s.modDie d f).freqs = s.freqs := rfl
@[simp] theorem State.modDie_contribs (s : State) (d : Nat) (f : Die → Die) : (s.modDie d f).contribs = s.contribs := rfl
@[simp] theorem State.modDie_served (s : State) (d : Nat) (f : Die → Die) : (s.modDie d f).served = s.served := rfl
@[simp] theorem State.modDie_answers (s : State) (d : Nat) (f : Die → Die) : (s.modDie d f).answers = s.answers := rfl
@[simp] theorem State.modDie_rxSeq (s : State) (d : Nat) (f : Die → Die) : (s.modDie d f).rxSeq = s.rxSeq := rfl
@[simp] theorem State.modDie_down (s : State) (d : Nat) (f : Die → Die) : (s.modDie d f).down = s.down := rfl
@[simp] theorem State.modDie_probing (s : State) (d : Nat) (f : Die → Die) : (s.modDie d f).probing = s.probing := rfl
@[simp] theorem State.modDie_modId (s : State) (d : Nat) (f : Die → Die) : (s.modDie d f).modId = s.modId := rfl
@[simp] theorem State.modDie_monitor (s : State) (d : Nat) (f : Die → Die) : (s.modDie d f).monitor = s.monitor := rfl
@[simp] theorem State.modDie_halted (s : State) (d : Nat) (f : Die → Die) : (s.modDie d f).halted = s.halted := rfl
@[simp] theorem State.modDie_throttled (s : State) (d : Nat) (f : Die → Die) : (s.modDie d f).throttled = s.throttled := rfl
@[simp] theorem State.modDie_ckptOp (s : State) (d : Nat) (f : Die → Die) : (s.modDie d f).ckptOp = s.ckptOp := rfl
@[simp] theorem State.modDie_ckpt (s : State) (d : Nat) (f : Die → Die) : (s.modDie d f).ckpt = s.ckpt := rfl
@[simp] theorem State.modDie_booted (s : State) (d : Nat) (f : Die → Die) : (s.modDie d f).booted = s.booted := rfl

/-! ### State.setCluster -/

@[simp] theorem State.setCluster_agenda (s : State) (c : Nat) (x : Cluster) : (s.setCluster c x).agenda = s.agenda := rfl
@[simp] theorem State.setCluster_focus (s : State) (c : Nat) (x : Cluster) : (s.setCluster c x).focus = s.focus := rfl
@[simp] theorem State.setCluster_now (s : State) (c : Nat) (x : Cluster) : (s.setCluster c x).now = s.now := rfl
@[simp] theorem State.setCluster_fresh (s : State) (c : Nat) (x : Cluster) : (s.setCluster c x).fresh = s.fresh := rfl
@[simp] theorem State.setCluster_nextId (s : State) (c : Nat) (x : Cluster) : (s.setCluster c x).nextId = s.nextId := rfl
@[simp] theorem State.setCluster_mem (s : State) (c : Nat) (x : Cluster) : (s.setCluster c x).mem = s.mem := rfl
@[simp] theorem State.setCluster_poisonM (s : State) (c : Nat) (x : Cluster) : (s.setCluster c x).poisonM = s.poisonM := rfl
@[simp] theorem State.setCluster_stags (s : State) (c : Nat) (x : Cluster) : (s.setCluster c x).stags = s.stags := rfl
@[simp] theorem State.setCluster_resumed (s : State) (c : Nat) (x : Cluster) : (s.setCluster c x).resumed = s.resumed := rfl
@[simp] theorem State.setCluster_dies (s : State) (c : Nat) (x : Cluster) : (s.setCluster c x).dies = s.dies := rfl
@[simp] theorem State.setCluster_cores (s : State) (c : Nat) (x : Cluster) : (s.setCluster c x).cores = s.cores := rfl
@[simp] theorem State.setCluster_stewards (s : State) (c : Nat) (x : Cluster) : (s.setCluster c x).stewards = s.stewards := rfl
@[simp] theorem State.setCluster_insts (s : State) (c : Nat) (x : Cluster) : (s.setCluster c x).insts = s.insts := rfl
@[simp] theorem State.setCluster_issues (s : State) (c : Nat) (x : Cluster) : (s.setCluster c x).issues = s.issues := rfl
@[simp] theorem State.setCluster_ops (s : State) (c : Nat) (x : Cluster) : (s.setCluster c x).ops = s.ops := rfl
@[simp] theorem State.setCluster_ctxs (s : State) (c : Nat) (x : Cluster) : (s.setCluster c x).ctxs = s.ctxs := rfl
@[simp] theorem State.setCluster_vfs (s : State) (c : Nat) (x : Cluster) : (s.setCluster c x).vfs = s.vfs := rfl
@[simp] theorem State.setCluster_launches (s : State) (c : Nat) (x : Cluster) : (s.setCluster c x).launches = s.launches := rfl
@[simp] theorem State.setCluster_snapLaunches (s : State) (c : Nat) (x : Cluster) : (s.setCluster c x).snapLaunches = s.snapLaunches := rfl
@[simp] theorem State.setCluster_saved (s : State) (c : Nat) (x : Cluster) : (s.setCluster c x).saved = s.saved := rfl
@[simp] theorem State.setCluster_tlb (s : State) (c : Nat) (x : Cluster) : (s.setCluster c x).tlb = s.tlb := rfl
@[simp] theorem State.setCluster_mapped (s : State) (c : Nat) (x : Cluster) : (s.setCluster c x).mapped = s.mapped := rfl
@[simp] theorem State.setCluster_spoiled (s : State) (c : Nat) (x : Cluster) : (s.setCluster c x).spoiled = s.spoiled := rfl
@[simp] theorem State.setCluster_wants (s : State) (c : Nat) (x : Cluster) : (s.setCluster c x).wants = s.wants := rfl
@[simp] theorem State.setCluster_walks (s : State) (c : Nat) (x : Cluster) : (s.setCluster c x).walks = s.walks := rfl
@[simp] theorem State.setCluster_migs (s : State) (c : Nat) (x : Cluster) : (s.setCluster c x).migs = s.migs := rfl
@[simp] theorem State.setCluster_flows (s : State) (c : Nat) (x : Cluster) : (s.setCluster c x).flows = s.flows := rfl
@[simp] theorem State.setCluster_d2d (s : State) (c : Nat) (x : Cluster) : (s.setCluster c x).d2d = s.d2d := rfl
@[simp] theorem State.setCluster_freqs (s : State) (c : Nat) (x : Cluster) : (s.setCluster c x).freqs = s.freqs := rfl
@[simp] theorem State.setCluster_contribs (s : State) (c : Nat) (x : Cluster) : (s.setCluster c x).contribs = s.contribs := rfl
@[simp] theorem State.setCluster_served (s : State) (c : Nat) (x : Cluster) : (s.setCluster c x).served = s.served := rfl
@[simp] theorem State.setCluster_answers (s : State) (c : Nat) (x : Cluster) : (s.setCluster c x).answers = s.answers := rfl
@[simp] theorem State.setCluster_rxSeq (s : State) (c : Nat) (x : Cluster) : (s.setCluster c x).rxSeq = s.rxSeq := rfl
@[simp] theorem State.setCluster_down (s : State) (c : Nat) (x : Cluster) : (s.setCluster c x).down = s.down := rfl
@[simp] theorem State.setCluster_probing (s : State) (c : Nat) (x : Cluster) : (s.setCluster c x).probing = s.probing := rfl
@[simp] theorem State.setCluster_modId (s : State) (c : Nat) (x : Cluster) : (s.setCluster c x).modId = s.modId := rfl
@[simp] theorem State.setCluster_monitor (s : State) (c : Nat) (x : Cluster) : (s.setCluster c x).monitor = s.monitor := rfl
@[simp] theorem State.setCluster_halted (s : State) (c : Nat) (x : Cluster) : (s.setCluster c x).halted = s.halted := rfl
@[simp] theorem State.setCluster_throttled (s : State) (c : Nat) (x : Cluster) : (s.setCluster c x).throttled = s.throttled := rfl
@[simp] theorem State.setCluster_ckptOp (s : State) (c : Nat) (x : Cluster) : (s.setCluster c x).ckptOp = s.ckptOp := rfl
@[simp] theorem State.setCluster_ckpt (s : State) (c : Nat) (x : Cluster) : (s.setCluster c x).ckpt = s.ckpt := rfl
@[simp] theorem State.setCluster_booted (s : State) (c : Nat) (x : Cluster) : (s.setCluster c x).booted = s.booted := rfl

/-! ### State.modCluster -/

@[simp] theorem State.modCluster_agenda (s : State) (c : Nat) (f : Cluster → Cluster) : (s.modCluster c f).agenda = s.agenda := rfl
@[simp] theorem State.modCluster_focus (s : State) (c : Nat) (f : Cluster → Cluster) : (s.modCluster c f).focus = s.focus := rfl
@[simp] theorem State.modCluster_now (s : State) (c : Nat) (f : Cluster → Cluster) : (s.modCluster c f).now = s.now := rfl
@[simp] theorem State.modCluster_fresh (s : State) (c : Nat) (f : Cluster → Cluster) : (s.modCluster c f).fresh = s.fresh := rfl
@[simp] theorem State.modCluster_nextId (s : State) (c : Nat) (f : Cluster → Cluster) : (s.modCluster c f).nextId = s.nextId := rfl
@[simp] theorem State.modCluster_mem (s : State) (c : Nat) (f : Cluster → Cluster) : (s.modCluster c f).mem = s.mem := rfl
@[simp] theorem State.modCluster_poisonM (s : State) (c : Nat) (f : Cluster → Cluster) : (s.modCluster c f).poisonM = s.poisonM := rfl
@[simp] theorem State.modCluster_stags (s : State) (c : Nat) (f : Cluster → Cluster) : (s.modCluster c f).stags = s.stags := rfl
@[simp] theorem State.modCluster_resumed (s : State) (c : Nat) (f : Cluster → Cluster) : (s.modCluster c f).resumed = s.resumed := rfl
@[simp] theorem State.modCluster_dies (s : State) (c : Nat) (f : Cluster → Cluster) : (s.modCluster c f).dies = s.dies := rfl
@[simp] theorem State.modCluster_cores (s : State) (c : Nat) (f : Cluster → Cluster) : (s.modCluster c f).cores = s.cores := rfl
@[simp] theorem State.modCluster_stewards (s : State) (c : Nat) (f : Cluster → Cluster) : (s.modCluster c f).stewards = s.stewards := rfl
@[simp] theorem State.modCluster_insts (s : State) (c : Nat) (f : Cluster → Cluster) : (s.modCluster c f).insts = s.insts := rfl
@[simp] theorem State.modCluster_issues (s : State) (c : Nat) (f : Cluster → Cluster) : (s.modCluster c f).issues = s.issues := rfl
@[simp] theorem State.modCluster_ops (s : State) (c : Nat) (f : Cluster → Cluster) : (s.modCluster c f).ops = s.ops := rfl
@[simp] theorem State.modCluster_ctxs (s : State) (c : Nat) (f : Cluster → Cluster) : (s.modCluster c f).ctxs = s.ctxs := rfl
@[simp] theorem State.modCluster_vfs (s : State) (c : Nat) (f : Cluster → Cluster) : (s.modCluster c f).vfs = s.vfs := rfl
@[simp] theorem State.modCluster_launches (s : State) (c : Nat) (f : Cluster → Cluster) : (s.modCluster c f).launches = s.launches := rfl
@[simp] theorem State.modCluster_snapLaunches (s : State) (c : Nat) (f : Cluster → Cluster) : (s.modCluster c f).snapLaunches = s.snapLaunches := rfl
@[simp] theorem State.modCluster_saved (s : State) (c : Nat) (f : Cluster → Cluster) : (s.modCluster c f).saved = s.saved := rfl
@[simp] theorem State.modCluster_tlb (s : State) (c : Nat) (f : Cluster → Cluster) : (s.modCluster c f).tlb = s.tlb := rfl
@[simp] theorem State.modCluster_mapped (s : State) (c : Nat) (f : Cluster → Cluster) : (s.modCluster c f).mapped = s.mapped := rfl
@[simp] theorem State.modCluster_spoiled (s : State) (c : Nat) (f : Cluster → Cluster) : (s.modCluster c f).spoiled = s.spoiled := rfl
@[simp] theorem State.modCluster_wants (s : State) (c : Nat) (f : Cluster → Cluster) : (s.modCluster c f).wants = s.wants := rfl
@[simp] theorem State.modCluster_walks (s : State) (c : Nat) (f : Cluster → Cluster) : (s.modCluster c f).walks = s.walks := rfl
@[simp] theorem State.modCluster_migs (s : State) (c : Nat) (f : Cluster → Cluster) : (s.modCluster c f).migs = s.migs := rfl
@[simp] theorem State.modCluster_flows (s : State) (c : Nat) (f : Cluster → Cluster) : (s.modCluster c f).flows = s.flows := rfl
@[simp] theorem State.modCluster_d2d (s : State) (c : Nat) (f : Cluster → Cluster) : (s.modCluster c f).d2d = s.d2d := rfl
@[simp] theorem State.modCluster_freqs (s : State) (c : Nat) (f : Cluster → Cluster) : (s.modCluster c f).freqs = s.freqs := rfl
@[simp] theorem State.modCluster_contribs (s : State) (c : Nat) (f : Cluster → Cluster) : (s.modCluster c f).contribs = s.contribs := rfl
@[simp] theorem State.modCluster_served (s : State) (c : Nat) (f : Cluster → Cluster) : (s.modCluster c f).served = s.served := rfl
@[simp] theorem State.modCluster_answers (s : State) (c : Nat) (f : Cluster → Cluster) : (s.modCluster c f).answers = s.answers := rfl
@[simp] theorem State.modCluster_rxSeq (s : State) (c : Nat) (f : Cluster → Cluster) : (s.modCluster c f).rxSeq = s.rxSeq := rfl
@[simp] theorem State.modCluster_down (s : State) (c : Nat) (f : Cluster → Cluster) : (s.modCluster c f).down = s.down := rfl
@[simp] theorem State.modCluster_probing (s : State) (c : Nat) (f : Cluster → Cluster) : (s.modCluster c f).probing = s.probing := rfl
@[simp] theorem State.modCluster_modId (s : State) (c : Nat) (f : Cluster → Cluster) : (s.modCluster c f).modId = s.modId := rfl
@[simp] theorem State.modCluster_monitor (s : State) (c : Nat) (f : Cluster → Cluster) : (s.modCluster c f).monitor = s.monitor := rfl
@[simp] theorem State.modCluster_halted (s : State) (c : Nat) (f : Cluster → Cluster) : (s.modCluster c f).halted = s.halted := rfl
@[simp] theorem State.modCluster_throttled (s : State) (c : Nat) (f : Cluster → Cluster) : (s.modCluster c f).throttled = s.throttled := rfl
@[simp] theorem State.modCluster_ckptOp (s : State) (c : Nat) (f : Cluster → Cluster) : (s.modCluster c f).ckptOp = s.ckptOp := rfl
@[simp] theorem State.modCluster_ckpt (s : State) (c : Nat) (f : Cluster → Cluster) : (s.modCluster c f).ckpt = s.ckpt := rfl
@[simp] theorem State.modCluster_booted (s : State) (c : Nat) (f : Cluster → Cluster) : (s.modCluster c f).booted = s.booted := rfl

/-! ### State.setSteward -/

@[simp] theorem State.setSteward_agenda (s : State) (k : Nat) (x : Steward) : (s.setSteward k x).agenda = s.agenda := rfl
@[simp] theorem State.setSteward_focus (s : State) (k : Nat) (x : Steward) : (s.setSteward k x).focus = s.focus := rfl
@[simp] theorem State.setSteward_now (s : State) (k : Nat) (x : Steward) : (s.setSteward k x).now = s.now := rfl
@[simp] theorem State.setSteward_fresh (s : State) (k : Nat) (x : Steward) : (s.setSteward k x).fresh = s.fresh := rfl
@[simp] theorem State.setSteward_nextId (s : State) (k : Nat) (x : Steward) : (s.setSteward k x).nextId = s.nextId := rfl
@[simp] theorem State.setSteward_mem (s : State) (k : Nat) (x : Steward) : (s.setSteward k x).mem = s.mem := rfl
@[simp] theorem State.setSteward_poisonM (s : State) (k : Nat) (x : Steward) : (s.setSteward k x).poisonM = s.poisonM := rfl
@[simp] theorem State.setSteward_stags (s : State) (k : Nat) (x : Steward) : (s.setSteward k x).stags = s.stags := rfl
@[simp] theorem State.setSteward_resumed (s : State) (k : Nat) (x : Steward) : (s.setSteward k x).resumed = s.resumed := rfl
@[simp] theorem State.setSteward_dies (s : State) (k : Nat) (x : Steward) : (s.setSteward k x).dies = s.dies := rfl
@[simp] theorem State.setSteward_clusters (s : State) (k : Nat) (x : Steward) : (s.setSteward k x).clusters = s.clusters := rfl
@[simp] theorem State.setSteward_cores (s : State) (k : Nat) (x : Steward) : (s.setSteward k x).cores = s.cores := rfl
@[simp] theorem State.setSteward_insts (s : State) (k : Nat) (x : Steward) : (s.setSteward k x).insts = s.insts := rfl
@[simp] theorem State.setSteward_issues (s : State) (k : Nat) (x : Steward) : (s.setSteward k x).issues = s.issues := rfl
@[simp] theorem State.setSteward_ops (s : State) (k : Nat) (x : Steward) : (s.setSteward k x).ops = s.ops := rfl
@[simp] theorem State.setSteward_ctxs (s : State) (k : Nat) (x : Steward) : (s.setSteward k x).ctxs = s.ctxs := rfl
@[simp] theorem State.setSteward_vfs (s : State) (k : Nat) (x : Steward) : (s.setSteward k x).vfs = s.vfs := rfl
@[simp] theorem State.setSteward_launches (s : State) (k : Nat) (x : Steward) : (s.setSteward k x).launches = s.launches := rfl
@[simp] theorem State.setSteward_snapLaunches (s : State) (k : Nat) (x : Steward) : (s.setSteward k x).snapLaunches = s.snapLaunches := rfl
@[simp] theorem State.setSteward_saved (s : State) (k : Nat) (x : Steward) : (s.setSteward k x).saved = s.saved := rfl
@[simp] theorem State.setSteward_tlb (s : State) (k : Nat) (x : Steward) : (s.setSteward k x).tlb = s.tlb := rfl
@[simp] theorem State.setSteward_mapped (s : State) (k : Nat) (x : Steward) : (s.setSteward k x).mapped = s.mapped := rfl
@[simp] theorem State.setSteward_spoiled (s : State) (k : Nat) (x : Steward) : (s.setSteward k x).spoiled = s.spoiled := rfl
@[simp] theorem State.setSteward_wants (s : State) (k : Nat) (x : Steward) : (s.setSteward k x).wants = s.wants := rfl
@[simp] theorem State.setSteward_walks (s : State) (k : Nat) (x : Steward) : (s.setSteward k x).walks = s.walks := rfl
@[simp] theorem State.setSteward_migs (s : State) (k : Nat) (x : Steward) : (s.setSteward k x).migs = s.migs := rfl
@[simp] theorem State.setSteward_flows (s : State) (k : Nat) (x : Steward) : (s.setSteward k x).flows = s.flows := rfl
@[simp] theorem State.setSteward_d2d (s : State) (k : Nat) (x : Steward) : (s.setSteward k x).d2d = s.d2d := rfl
@[simp] theorem State.setSteward_freqs (s : State) (k : Nat) (x : Steward) : (s.setSteward k x).freqs = s.freqs := rfl
@[simp] theorem State.setSteward_contribs (s : State) (k : Nat) (x : Steward) : (s.setSteward k x).contribs = s.contribs := rfl
@[simp] theorem State.setSteward_served (s : State) (k : Nat) (x : Steward) : (s.setSteward k x).served = s.served := rfl
@[simp] theorem State.setSteward_answers (s : State) (k : Nat) (x : Steward) : (s.setSteward k x).answers = s.answers := rfl
@[simp] theorem State.setSteward_rxSeq (s : State) (k : Nat) (x : Steward) : (s.setSteward k x).rxSeq = s.rxSeq := rfl
@[simp] theorem State.setSteward_down (s : State) (k : Nat) (x : Steward) : (s.setSteward k x).down = s.down := rfl
@[simp] theorem State.setSteward_probing (s : State) (k : Nat) (x : Steward) : (s.setSteward k x).probing = s.probing := rfl
@[simp] theorem State.setSteward_modId (s : State) (k : Nat) (x : Steward) : (s.setSteward k x).modId = s.modId := rfl
@[simp] theorem State.setSteward_monitor (s : State) (k : Nat) (x : Steward) : (s.setSteward k x).monitor = s.monitor := rfl
@[simp] theorem State.setSteward_halted (s : State) (k : Nat) (x : Steward) : (s.setSteward k x).halted = s.halted := rfl
@[simp] theorem State.setSteward_throttled (s : State) (k : Nat) (x : Steward) : (s.setSteward k x).throttled = s.throttled := rfl
@[simp] theorem State.setSteward_ckptOp (s : State) (k : Nat) (x : Steward) : (s.setSteward k x).ckptOp = s.ckptOp := rfl
@[simp] theorem State.setSteward_ckpt (s : State) (k : Nat) (x : Steward) : (s.setSteward k x).ckpt = s.ckpt := rfl
@[simp] theorem State.setSteward_booted (s : State) (k : Nat) (x : Steward) : (s.setSteward k x).booted = s.booted := rfl

/-! ### State.setCtx -/

@[simp] theorem State.setCtx_agenda (s : State) (c : Nat) (x : Ctx) : (s.setCtx c x).agenda = s.agenda := rfl
@[simp] theorem State.setCtx_focus (s : State) (c : Nat) (x : Ctx) : (s.setCtx c x).focus = s.focus := rfl
@[simp] theorem State.setCtx_now (s : State) (c : Nat) (x : Ctx) : (s.setCtx c x).now = s.now := rfl
@[simp] theorem State.setCtx_fresh (s : State) (c : Nat) (x : Ctx) : (s.setCtx c x).fresh = s.fresh := rfl
@[simp] theorem State.setCtx_nextId (s : State) (c : Nat) (x : Ctx) : (s.setCtx c x).nextId = s.nextId := rfl
@[simp] theorem State.setCtx_mem (s : State) (c : Nat) (x : Ctx) : (s.setCtx c x).mem = s.mem := rfl
@[simp] theorem State.setCtx_poisonM (s : State) (c : Nat) (x : Ctx) : (s.setCtx c x).poisonM = s.poisonM := rfl
@[simp] theorem State.setCtx_stags (s : State) (c : Nat) (x : Ctx) : (s.setCtx c x).stags = s.stags := rfl
@[simp] theorem State.setCtx_resumed (s : State) (c : Nat) (x : Ctx) : (s.setCtx c x).resumed = s.resumed := rfl
@[simp] theorem State.setCtx_dies (s : State) (c : Nat) (x : Ctx) : (s.setCtx c x).dies = s.dies := rfl
@[simp] theorem State.setCtx_clusters (s : State) (c : Nat) (x : Ctx) : (s.setCtx c x).clusters = s.clusters := rfl
@[simp] theorem State.setCtx_cores (s : State) (c : Nat) (x : Ctx) : (s.setCtx c x).cores = s.cores := rfl
@[simp] theorem State.setCtx_stewards (s : State) (c : Nat) (x : Ctx) : (s.setCtx c x).stewards = s.stewards := rfl
@[simp] theorem State.setCtx_insts (s : State) (c : Nat) (x : Ctx) : (s.setCtx c x).insts = s.insts := rfl
@[simp] theorem State.setCtx_issues (s : State) (c : Nat) (x : Ctx) : (s.setCtx c x).issues = s.issues := rfl
@[simp] theorem State.setCtx_ops (s : State) (c : Nat) (x : Ctx) : (s.setCtx c x).ops = s.ops := rfl
@[simp] theorem State.setCtx_vfs (s : State) (c : Nat) (x : Ctx) : (s.setCtx c x).vfs = s.vfs := rfl
@[simp] theorem State.setCtx_launches (s : State) (c : Nat) (x : Ctx) : (s.setCtx c x).launches = s.launches := rfl
@[simp] theorem State.setCtx_snapLaunches (s : State) (c : Nat) (x : Ctx) : (s.setCtx c x).snapLaunches = s.snapLaunches := rfl
@[simp] theorem State.setCtx_saved (s : State) (c : Nat) (x : Ctx) : (s.setCtx c x).saved = s.saved := rfl
@[simp] theorem State.setCtx_tlb (s : State) (c : Nat) (x : Ctx) : (s.setCtx c x).tlb = s.tlb := rfl
@[simp] theorem State.setCtx_mapped (s : State) (c : Nat) (x : Ctx) : (s.setCtx c x).mapped = s.mapped := rfl
@[simp] theorem State.setCtx_spoiled (s : State) (c : Nat) (x : Ctx) : (s.setCtx c x).spoiled = s.spoiled := rfl
@[simp] theorem State.setCtx_wants (s : State) (c : Nat) (x : Ctx) : (s.setCtx c x).wants = s.wants := rfl
@[simp] theorem State.setCtx_walks (s : State) (c : Nat) (x : Ctx) : (s.setCtx c x).walks = s.walks := rfl
@[simp] theorem State.setCtx_migs (s : State) (c : Nat) (x : Ctx) : (s.setCtx c x).migs = s.migs := rfl
@[simp] theorem State.setCtx_flows (s : State) (c : Nat) (x : Ctx) : (s.setCtx c x).flows = s.flows := rfl
@[simp] theorem State.setCtx_d2d (s : State) (c : Nat) (x : Ctx) : (s.setCtx c x).d2d = s.d2d := rfl
@[simp] theorem State.setCtx_freqs (s : State) (c : Nat) (x : Ctx) : (s.setCtx c x).freqs = s.freqs := rfl
@[simp] theorem State.setCtx_contribs (s : State) (c : Nat) (x : Ctx) : (s.setCtx c x).contribs = s.contribs := rfl
@[simp] theorem State.setCtx_served (s : State) (c : Nat) (x : Ctx) : (s.setCtx c x).served = s.served := rfl
@[simp] theorem State.setCtx_answers (s : State) (c : Nat) (x : Ctx) : (s.setCtx c x).answers = s.answers := rfl
@[simp] theorem State.setCtx_rxSeq (s : State) (c : Nat) (x : Ctx) : (s.setCtx c x).rxSeq = s.rxSeq := rfl
@[simp] theorem State.setCtx_down (s : State) (c : Nat) (x : Ctx) : (s.setCtx c x).down = s.down := rfl
@[simp] theorem State.setCtx_probing (s : State) (c : Nat) (x : Ctx) : (s.setCtx c x).probing = s.probing := rfl
@[simp] theorem State.setCtx_modId (s : State) (c : Nat) (x : Ctx) : (s.setCtx c x).modId = s.modId := rfl
@[simp] theorem State.setCtx_monitor (s : State) (c : Nat) (x : Ctx) : (s.setCtx c x).monitor = s.monitor := rfl
@[simp] theorem State.setCtx_halted (s : State) (c : Nat) (x : Ctx) : (s.setCtx c x).halted = s.halted := rfl
@[simp] theorem State.setCtx_throttled (s : State) (c : Nat) (x : Ctx) : (s.setCtx c x).throttled = s.throttled := rfl
@[simp] theorem State.setCtx_ckptOp (s : State) (c : Nat) (x : Ctx) : (s.setCtx c x).ckptOp = s.ckptOp := rfl
@[simp] theorem State.setCtx_ckpt (s : State) (c : Nat) (x : Ctx) : (s.setCtx c x).ckpt = s.ckpt := rfl
@[simp] theorem State.setCtx_booted (s : State) (c : Nat) (x : Ctx) : (s.setCtx c x).booted = s.booted := rfl

/-! ### State.modCtx -/

@[simp] theorem State.modCtx_agenda (s : State) (c : Nat) (f : Ctx → Ctx) : (s.modCtx c f).agenda = s.agenda := rfl
@[simp] theorem State.modCtx_focus (s : State) (c : Nat) (f : Ctx → Ctx) : (s.modCtx c f).focus = s.focus := rfl
@[simp] theorem State.modCtx_now (s : State) (c : Nat) (f : Ctx → Ctx) : (s.modCtx c f).now = s.now := rfl
@[simp] theorem State.modCtx_fresh (s : State) (c : Nat) (f : Ctx → Ctx) : (s.modCtx c f).fresh = s.fresh := rfl
@[simp] theorem State.modCtx_nextId (s : State) (c : Nat) (f : Ctx → Ctx) : (s.modCtx c f).nextId = s.nextId := rfl
@[simp] theorem State.modCtx_mem (s : State) (c : Nat) (f : Ctx → Ctx) : (s.modCtx c f).mem = s.mem := rfl
@[simp] theorem State.modCtx_poisonM (s : State) (c : Nat) (f : Ctx → Ctx) : (s.modCtx c f).poisonM = s.poisonM := rfl
@[simp] theorem State.modCtx_stags (s : State) (c : Nat) (f : Ctx → Ctx) : (s.modCtx c f).stags = s.stags := rfl
@[simp] theorem State.modCtx_resumed (s : State) (c : Nat) (f : Ctx → Ctx) : (s.modCtx c f).resumed = s.resumed := rfl
@[simp] theorem State.modCtx_dies (s : State) (c : Nat) (f : Ctx → Ctx) : (s.modCtx c f).dies = s.dies := rfl
@[simp] theorem State.modCtx_clusters (s : State) (c : Nat) (f : Ctx → Ctx) : (s.modCtx c f).clusters = s.clusters := rfl
@[simp] theorem State.modCtx_cores (s : State) (c : Nat) (f : Ctx → Ctx) : (s.modCtx c f).cores = s.cores := rfl
@[simp] theorem State.modCtx_stewards (s : State) (c : Nat) (f : Ctx → Ctx) : (s.modCtx c f).stewards = s.stewards := rfl
@[simp] theorem State.modCtx_insts (s : State) (c : Nat) (f : Ctx → Ctx) : (s.modCtx c f).insts = s.insts := rfl
@[simp] theorem State.modCtx_issues (s : State) (c : Nat) (f : Ctx → Ctx) : (s.modCtx c f).issues = s.issues := rfl
@[simp] theorem State.modCtx_ops (s : State) (c : Nat) (f : Ctx → Ctx) : (s.modCtx c f).ops = s.ops := rfl
@[simp] theorem State.modCtx_vfs (s : State) (c : Nat) (f : Ctx → Ctx) : (s.modCtx c f).vfs = s.vfs := rfl
@[simp] theorem State.modCtx_launches (s : State) (c : Nat) (f : Ctx → Ctx) : (s.modCtx c f).launches = s.launches := rfl
@[simp] theorem State.modCtx_snapLaunches (s : State) (c : Nat) (f : Ctx → Ctx) : (s.modCtx c f).snapLaunches = s.snapLaunches := rfl
@[simp] theorem State.modCtx_saved (s : State) (c : Nat) (f : Ctx → Ctx) : (s.modCtx c f).saved = s.saved := rfl
@[simp] theorem State.modCtx_tlb (s : State) (c : Nat) (f : Ctx → Ctx) : (s.modCtx c f).tlb = s.tlb := rfl
@[simp] theorem State.modCtx_mapped (s : State) (c : Nat) (f : Ctx → Ctx) : (s.modCtx c f).mapped = s.mapped := rfl
@[simp] theorem State.modCtx_spoiled (s : State) (c : Nat) (f : Ctx → Ctx) : (s.modCtx c f).spoiled = s.spoiled := rfl
@[simp] theorem State.modCtx_wants (s : State) (c : Nat) (f : Ctx → Ctx) : (s.modCtx c f).wants = s.wants := rfl
@[simp] theorem State.modCtx_walks (s : State) (c : Nat) (f : Ctx → Ctx) : (s.modCtx c f).walks = s.walks := rfl
@[simp] theorem State.modCtx_migs (s : State) (c : Nat) (f : Ctx → Ctx) : (s.modCtx c f).migs = s.migs := rfl
@[simp] theorem State.modCtx_flows (s : State) (c : Nat) (f : Ctx → Ctx) : (s.modCtx c f).flows = s.flows := rfl
@[simp] theorem State.modCtx_d2d (s : State) (c : Nat) (f : Ctx → Ctx) : (s.modCtx c f).d2d = s.d2d := rfl
@[simp] theorem State.modCtx_freqs (s : State) (c : Nat) (f : Ctx → Ctx) : (s.modCtx c f).freqs = s.freqs := rfl
@[simp] theorem State.modCtx_contribs (s : State) (c : Nat) (f : Ctx → Ctx) : (s.modCtx c f).contribs = s.contribs := rfl
@[simp] theorem State.modCtx_served (s : State) (c : Nat) (f : Ctx → Ctx) : (s.modCtx c f).served = s.served := rfl
@[simp] theorem State.modCtx_answers (s : State) (c : Nat) (f : Ctx → Ctx) : (s.modCtx c f).answers = s.answers := rfl
@[simp] theorem State.modCtx_rxSeq (s : State) (c : Nat) (f : Ctx → Ctx) : (s.modCtx c f).rxSeq = s.rxSeq := rfl
@[simp] theorem State.modCtx_down (s : State) (c : Nat) (f : Ctx → Ctx) : (s.modCtx c f).down = s.down := rfl
@[simp] theorem State.modCtx_probing (s : State) (c : Nat) (f : Ctx → Ctx) : (s.modCtx c f).probing = s.probing := rfl
@[simp] theorem State.modCtx_modId (s : State) (c : Nat) (f : Ctx → Ctx) : (s.modCtx c f).modId = s.modId := rfl
@[simp] theorem State.modCtx_monitor (s : State) (c : Nat) (f : Ctx → Ctx) : (s.modCtx c f).monitor = s.monitor := rfl
@[simp] theorem State.modCtx_halted (s : State) (c : Nat) (f : Ctx → Ctx) : (s.modCtx c f).halted = s.halted := rfl
@[simp] theorem State.modCtx_throttled (s : State) (c : Nat) (f : Ctx → Ctx) : (s.modCtx c f).throttled = s.throttled := rfl
@[simp] theorem State.modCtx_ckptOp (s : State) (c : Nat) (f : Ctx → Ctx) : (s.modCtx c f).ckptOp = s.ckptOp := rfl
@[simp] theorem State.modCtx_ckpt (s : State) (c : Nat) (f : Ctx → Ctx) : (s.modCtx c f).ckpt = s.ckpt := rfl
@[simp] theorem State.modCtx_booted (s : State) (c : Nat) (f : Ctx → Ctx) : (s.modCtx c f).booted = s.booted := rfl

/-! ### State.setVf -/

@[simp] theorem State.setVf_agenda (s : State) (v : Nat) (x : Vf) : (s.setVf v x).agenda = s.agenda := rfl
@[simp] theorem State.setVf_focus (s : State) (v : Nat) (x : Vf) : (s.setVf v x).focus = s.focus := rfl
@[simp] theorem State.setVf_now (s : State) (v : Nat) (x : Vf) : (s.setVf v x).now = s.now := rfl
@[simp] theorem State.setVf_fresh (s : State) (v : Nat) (x : Vf) : (s.setVf v x).fresh = s.fresh := rfl
@[simp] theorem State.setVf_nextId (s : State) (v : Nat) (x : Vf) : (s.setVf v x).nextId = s.nextId := rfl
@[simp] theorem State.setVf_mem (s : State) (v : Nat) (x : Vf) : (s.setVf v x).mem = s.mem := rfl
@[simp] theorem State.setVf_poisonM (s : State) (v : Nat) (x : Vf) : (s.setVf v x).poisonM = s.poisonM := rfl
@[simp] theorem State.setVf_stags (s : State) (v : Nat) (x : Vf) : (s.setVf v x).stags = s.stags := rfl
@[simp] theorem State.setVf_resumed (s : State) (v : Nat) (x : Vf) : (s.setVf v x).resumed = s.resumed := rfl
@[simp] theorem State.setVf_dies (s : State) (v : Nat) (x : Vf) : (s.setVf v x).dies = s.dies := rfl
@[simp] theorem State.setVf_clusters (s : State) (v : Nat) (x : Vf) : (s.setVf v x).clusters = s.clusters := rfl
@[simp] theorem State.setVf_cores (s : State) (v : Nat) (x : Vf) : (s.setVf v x).cores = s.cores := rfl
@[simp] theorem State.setVf_stewards (s : State) (v : Nat) (x : Vf) : (s.setVf v x).stewards = s.stewards := rfl
@[simp] theorem State.setVf_insts (s : State) (v : Nat) (x : Vf) : (s.setVf v x).insts = s.insts := rfl
@[simp] theorem State.setVf_issues (s : State) (v : Nat) (x : Vf) : (s.setVf v x).issues = s.issues := rfl
@[simp] theorem State.setVf_ops (s : State) (v : Nat) (x : Vf) : (s.setVf v x).ops = s.ops := rfl
@[simp] theorem State.setVf_ctxs (s : State) (v : Nat) (x : Vf) : (s.setVf v x).ctxs = s.ctxs := rfl
@[simp] theorem State.setVf_launches (s : State) (v : Nat) (x : Vf) : (s.setVf v x).launches = s.launches := rfl
@[simp] theorem State.setVf_snapLaunches (s : State) (v : Nat) (x : Vf) : (s.setVf v x).snapLaunches = s.snapLaunches := rfl
@[simp] theorem State.setVf_saved (s : State) (v : Nat) (x : Vf) : (s.setVf v x).saved = s.saved := rfl
@[simp] theorem State.setVf_tlb (s : State) (v : Nat) (x : Vf) : (s.setVf v x).tlb = s.tlb := rfl
@[simp] theorem State.setVf_mapped (s : State) (v : Nat) (x : Vf) : (s.setVf v x).mapped = s.mapped := rfl
@[simp] theorem State.setVf_spoiled (s : State) (v : Nat) (x : Vf) : (s.setVf v x).spoiled = s.spoiled := rfl
@[simp] theorem State.setVf_wants (s : State) (v : Nat) (x : Vf) : (s.setVf v x).wants = s.wants := rfl
@[simp] theorem State.setVf_walks (s : State) (v : Nat) (x : Vf) : (s.setVf v x).walks = s.walks := rfl
@[simp] theorem State.setVf_migs (s : State) (v : Nat) (x : Vf) : (s.setVf v x).migs = s.migs := rfl
@[simp] theorem State.setVf_flows (s : State) (v : Nat) (x : Vf) : (s.setVf v x).flows = s.flows := rfl
@[simp] theorem State.setVf_d2d (s : State) (v : Nat) (x : Vf) : (s.setVf v x).d2d = s.d2d := rfl
@[simp] theorem State.setVf_freqs (s : State) (v : Nat) (x : Vf) : (s.setVf v x).freqs = s.freqs := rfl
@[simp] theorem State.setVf_contribs (s : State) (v : Nat) (x : Vf) : (s.setVf v x).contribs = s.contribs := rfl
@[simp] theorem State.setVf_served (s : State) (v : Nat) (x : Vf) : (s.setVf v x).served = s.served := rfl
@[simp] theorem State.setVf_answers (s : State) (v : Nat) (x : Vf) : (s.setVf v x).answers = s.answers := rfl
@[simp] theorem State.setVf_rxSeq (s : State) (v : Nat) (x : Vf) : (s.setVf v x).rxSeq = s.rxSeq := rfl
@[simp] theorem State.setVf_down (s : State) (v : Nat) (x : Vf) : (s.setVf v x).down = s.down := rfl
@[simp] theorem State.setVf_probing (s : State) (v : Nat) (x : Vf) : (s.setVf v x).probing = s.probing := rfl
@[simp] theorem State.setVf_modId (s : State) (v : Nat) (x : Vf) : (s.setVf v x).modId = s.modId := rfl
@[simp] theorem State.setVf_monitor (s : State) (v : Nat) (x : Vf) : (s.setVf v x).monitor = s.monitor := rfl
@[simp] theorem State.setVf_halted (s : State) (v : Nat) (x : Vf) : (s.setVf v x).halted = s.halted := rfl
@[simp] theorem State.setVf_throttled (s : State) (v : Nat) (x : Vf) : (s.setVf v x).throttled = s.throttled := rfl
@[simp] theorem State.setVf_ckptOp (s : State) (v : Nat) (x : Vf) : (s.setVf v x).ckptOp = s.ckptOp := rfl
@[simp] theorem State.setVf_ckpt (s : State) (v : Nat) (x : Vf) : (s.setVf v x).ckpt = s.ckpt := rfl
@[simp] theorem State.setVf_booted (s : State) (v : Nat) (x : Vf) : (s.setVf v x).booted = s.booted := rfl

/-! ### State.setInst -/

@[simp] theorem State.setInst_agenda (s : State) (k : Nat) (i : Inst) : (s.setInst k i).agenda = s.agenda := rfl
@[simp] theorem State.setInst_focus (s : State) (k : Nat) (i : Inst) : (s.setInst k i).focus = s.focus := rfl
@[simp] theorem State.setInst_now (s : State) (k : Nat) (i : Inst) : (s.setInst k i).now = s.now := rfl
@[simp] theorem State.setInst_fresh (s : State) (k : Nat) (i : Inst) : (s.setInst k i).fresh = s.fresh := rfl
@[simp] theorem State.setInst_nextId (s : State) (k : Nat) (i : Inst) : (s.setInst k i).nextId = s.nextId := rfl
@[simp] theorem State.setInst_mem (s : State) (k : Nat) (i : Inst) : (s.setInst k i).mem = s.mem := rfl
@[simp] theorem State.setInst_poisonM (s : State) (k : Nat) (i : Inst) : (s.setInst k i).poisonM = s.poisonM := rfl
@[simp] theorem State.setInst_stags (s : State) (k : Nat) (i : Inst) : (s.setInst k i).stags = s.stags := rfl
@[simp] theorem State.setInst_resumed (s : State) (k : Nat) (i : Inst) : (s.setInst k i).resumed = s.resumed := rfl
@[simp] theorem State.setInst_dies (s : State) (k : Nat) (i : Inst) : (s.setInst k i).dies = s.dies := rfl
@[simp] theorem State.setInst_clusters (s : State) (k : Nat) (i : Inst) : (s.setInst k i).clusters = s.clusters := rfl
@[simp] theorem State.setInst_cores (s : State) (k : Nat) (i : Inst) : (s.setInst k i).cores = s.cores := rfl
@[simp] theorem State.setInst_stewards (s : State) (k : Nat) (i : Inst) : (s.setInst k i).stewards = s.stewards := rfl
@[simp] theorem State.setInst_issues (s : State) (k : Nat) (i : Inst) : (s.setInst k i).issues = s.issues := rfl
@[simp] theorem State.setInst_ops (s : State) (k : Nat) (i : Inst) : (s.setInst k i).ops = s.ops := rfl
@[simp] theorem State.setInst_ctxs (s : State) (k : Nat) (i : Inst) : (s.setInst k i).ctxs = s.ctxs := rfl
@[simp] theorem State.setInst_vfs (s : State) (k : Nat) (i : Inst) : (s.setInst k i).vfs = s.vfs := rfl
@[simp] theorem State.setInst_launches (s : State) (k : Nat) (i : Inst) : (s.setInst k i).launches = s.launches := rfl
@[simp] theorem State.setInst_snapLaunches (s : State) (k : Nat) (i : Inst) : (s.setInst k i).snapLaunches = s.snapLaunches := rfl
@[simp] theorem State.setInst_saved (s : State) (k : Nat) (i : Inst) : (s.setInst k i).saved = s.saved := rfl
@[simp] theorem State.setInst_tlb (s : State) (k : Nat) (i : Inst) : (s.setInst k i).tlb = s.tlb := rfl
@[simp] theorem State.setInst_mapped (s : State) (k : Nat) (i : Inst) : (s.setInst k i).mapped = s.mapped := rfl
@[simp] theorem State.setInst_spoiled (s : State) (k : Nat) (i : Inst) : (s.setInst k i).spoiled = s.spoiled := rfl
@[simp] theorem State.setInst_wants (s : State) (k : Nat) (i : Inst) : (s.setInst k i).wants = s.wants := rfl
@[simp] theorem State.setInst_walks (s : State) (k : Nat) (i : Inst) : (s.setInst k i).walks = s.walks := rfl
@[simp] theorem State.setInst_migs (s : State) (k : Nat) (i : Inst) : (s.setInst k i).migs = s.migs := rfl
@[simp] theorem State.setInst_flows (s : State) (k : Nat) (i : Inst) : (s.setInst k i).flows = s.flows := rfl
@[simp] theorem State.setInst_d2d (s : State) (k : Nat) (i : Inst) : (s.setInst k i).d2d = s.d2d := rfl
@[simp] theorem State.setInst_freqs (s : State) (k : Nat) (i : Inst) : (s.setInst k i).freqs = s.freqs := rfl
@[simp] theorem State.setInst_contribs (s : State) (k : Nat) (i : Inst) : (s.setInst k i).contribs = s.contribs := rfl
@[simp] theorem State.setInst_served (s : State) (k : Nat) (i : Inst) : (s.setInst k i).served = s.served := rfl
@[simp] theorem State.setInst_answers (s : State) (k : Nat) (i : Inst) : (s.setInst k i).answers = s.answers := rfl
@[simp] theorem State.setInst_rxSeq (s : State) (k : Nat) (i : Inst) : (s.setInst k i).rxSeq = s.rxSeq := rfl
@[simp] theorem State.setInst_down (s : State) (k : Nat) (i : Inst) : (s.setInst k i).down = s.down := rfl
@[simp] theorem State.setInst_probing (s : State) (k : Nat) (i : Inst) : (s.setInst k i).probing = s.probing := rfl
@[simp] theorem State.setInst_modId (s : State) (k : Nat) (i : Inst) : (s.setInst k i).modId = s.modId := rfl
@[simp] theorem State.setInst_monitor (s : State) (k : Nat) (i : Inst) : (s.setInst k i).monitor = s.monitor := rfl
@[simp] theorem State.setInst_halted (s : State) (k : Nat) (i : Inst) : (s.setInst k i).halted = s.halted := rfl
@[simp] theorem State.setInst_throttled (s : State) (k : Nat) (i : Inst) : (s.setInst k i).throttled = s.throttled := rfl
@[simp] theorem State.setInst_ckptOp (s : State) (k : Nat) (i : Inst) : (s.setInst k i).ckptOp = s.ckptOp := rfl
@[simp] theorem State.setInst_ckpt (s : State) (k : Nat) (i : Inst) : (s.setInst k i).ckpt = s.ckpt := rfl
@[simp] theorem State.setInst_booted (s : State) (k : Nat) (i : Inst) : (s.setInst k i).booted = s.booted := rfl

/-! ### State.modInst -/

@[simp] theorem State.modInst_agenda (s : State) (k : Nat) (f : Inst → Inst) : (s.modInst k f).agenda = s.agenda := rfl
@[simp] theorem State.modInst_focus (s : State) (k : Nat) (f : Inst → Inst) : (s.modInst k f).focus = s.focus := rfl
@[simp] theorem State.modInst_now (s : State) (k : Nat) (f : Inst → Inst) : (s.modInst k f).now = s.now := rfl
@[simp] theorem State.modInst_fresh (s : State) (k : Nat) (f : Inst → Inst) : (s.modInst k f).fresh = s.fresh := rfl
@[simp] theorem State.modInst_nextId (s : State) (k : Nat) (f : Inst → Inst) : (s.modInst k f).nextId = s.nextId := rfl
@[simp] theorem State.modInst_mem (s : State) (k : Nat) (f : Inst → Inst) : (s.modInst k f).mem = s.mem := rfl
@[simp] theorem State.modInst_poisonM (s : State) (k : Nat) (f : Inst → Inst) : (s.modInst k f).poisonM = s.poisonM := rfl
@[simp] theorem State.modInst_stags (s : State) (k : Nat) (f : Inst → Inst) : (s.modInst k f).stags = s.stags := rfl
@[simp] theorem State.modInst_resumed (s : State) (k : Nat) (f : Inst → Inst) : (s.modInst k f).resumed = s.resumed := rfl
@[simp] theorem State.modInst_dies (s : State) (k : Nat) (f : Inst → Inst) : (s.modInst k f).dies = s.dies := rfl
@[simp] theorem State.modInst_clusters (s : State) (k : Nat) (f : Inst → Inst) : (s.modInst k f).clusters = s.clusters := rfl
@[simp] theorem State.modInst_cores (s : State) (k : Nat) (f : Inst → Inst) : (s.modInst k f).cores = s.cores := rfl
@[simp] theorem State.modInst_stewards (s : State) (k : Nat) (f : Inst → Inst) : (s.modInst k f).stewards = s.stewards := rfl
@[simp] theorem State.modInst_issues (s : State) (k : Nat) (f : Inst → Inst) : (s.modInst k f).issues = s.issues := rfl
@[simp] theorem State.modInst_ops (s : State) (k : Nat) (f : Inst → Inst) : (s.modInst k f).ops = s.ops := rfl
@[simp] theorem State.modInst_ctxs (s : State) (k : Nat) (f : Inst → Inst) : (s.modInst k f).ctxs = s.ctxs := rfl
@[simp] theorem State.modInst_vfs (s : State) (k : Nat) (f : Inst → Inst) : (s.modInst k f).vfs = s.vfs := rfl
@[simp] theorem State.modInst_launches (s : State) (k : Nat) (f : Inst → Inst) : (s.modInst k f).launches = s.launches := rfl
@[simp] theorem State.modInst_snapLaunches (s : State) (k : Nat) (f : Inst → Inst) : (s.modInst k f).snapLaunches = s.snapLaunches := rfl
@[simp] theorem State.modInst_saved (s : State) (k : Nat) (f : Inst → Inst) : (s.modInst k f).saved = s.saved := rfl
@[simp] theorem State.modInst_tlb (s : State) (k : Nat) (f : Inst → Inst) : (s.modInst k f).tlb = s.tlb := rfl
@[simp] theorem State.modInst_mapped (s : State) (k : Nat) (f : Inst → Inst) : (s.modInst k f).mapped = s.mapped := rfl
@[simp] theorem State.modInst_spoiled (s : State) (k : Nat) (f : Inst → Inst) : (s.modInst k f).spoiled = s.spoiled := rfl
@[simp] theorem State.modInst_wants (s : State) (k : Nat) (f : Inst → Inst) : (s.modInst k f).wants = s.wants := rfl
@[simp] theorem State.modInst_walks (s : State) (k : Nat) (f : Inst → Inst) : (s.modInst k f).walks = s.walks := rfl
@[simp] theorem State.modInst_migs (s : State) (k : Nat) (f : Inst → Inst) : (s.modInst k f).migs = s.migs := rfl
@[simp] theorem State.modInst_flows (s : State) (k : Nat) (f : Inst → Inst) : (s.modInst k f).flows = s.flows := rfl
@[simp] theorem State.modInst_d2d (s : State) (k : Nat) (f : Inst → Inst) : (s.modInst k f).d2d = s.d2d := rfl
@[simp] theorem State.modInst_freqs (s : State) (k : Nat) (f : Inst → Inst) : (s.modInst k f).freqs = s.freqs := rfl
@[simp] theorem State.modInst_contribs (s : State) (k : Nat) (f : Inst → Inst) : (s.modInst k f).contribs = s.contribs := rfl
@[simp] theorem State.modInst_served (s : State) (k : Nat) (f : Inst → Inst) : (s.modInst k f).served = s.served := rfl
@[simp] theorem State.modInst_answers (s : State) (k : Nat) (f : Inst → Inst) : (s.modInst k f).answers = s.answers := rfl
@[simp] theorem State.modInst_rxSeq (s : State) (k : Nat) (f : Inst → Inst) : (s.modInst k f).rxSeq = s.rxSeq := rfl
@[simp] theorem State.modInst_down (s : State) (k : Nat) (f : Inst → Inst) : (s.modInst k f).down = s.down := rfl
@[simp] theorem State.modInst_probing (s : State) (k : Nat) (f : Inst → Inst) : (s.modInst k f).probing = s.probing := rfl
@[simp] theorem State.modInst_modId (s : State) (k : Nat) (f : Inst → Inst) : (s.modInst k f).modId = s.modId := rfl
@[simp] theorem State.modInst_monitor (s : State) (k : Nat) (f : Inst → Inst) : (s.modInst k f).monitor = s.monitor := rfl
@[simp] theorem State.modInst_halted (s : State) (k : Nat) (f : Inst → Inst) : (s.modInst k f).halted = s.halted := rfl
@[simp] theorem State.modInst_throttled (s : State) (k : Nat) (f : Inst → Inst) : (s.modInst k f).throttled = s.throttled := rfl
@[simp] theorem State.modInst_ckptOp (s : State) (k : Nat) (f : Inst → Inst) : (s.modInst k f).ckptOp = s.ckptOp := rfl
@[simp] theorem State.modInst_ckpt (s : State) (k : Nat) (f : Inst → Inst) : (s.modInst k f).ckpt = s.ckpt := rfl
@[simp] theorem State.modInst_booted (s : State) (k : Nat) (f : Inst → Inst) : (s.modInst k f).booted = s.booted := rfl

/-! ### State.modTh -/

@[simp] theorem State.modTh_agenda (s : State) (k t : Nat) (f : Thread → Thread) : (s.modTh k t f).agenda = s.agenda := rfl
@[simp] theorem State.modTh_focus (s : State) (k t : Nat) (f : Thread → Thread) : (s.modTh k t f).focus = s.focus := rfl
@[simp] theorem State.modTh_now (s : State) (k t : Nat) (f : Thread → Thread) : (s.modTh k t f).now = s.now := rfl
@[simp] theorem State.modTh_fresh (s : State) (k t : Nat) (f : Thread → Thread) : (s.modTh k t f).fresh = s.fresh := rfl
@[simp] theorem State.modTh_nextId (s : State) (k t : Nat) (f : Thread → Thread) : (s.modTh k t f).nextId = s.nextId := rfl
@[simp] theorem State.modTh_mem (s : State) (k t : Nat) (f : Thread → Thread) : (s.modTh k t f).mem = s.mem := rfl
@[simp] theorem State.modTh_poisonM (s : State) (k t : Nat) (f : Thread → Thread) : (s.modTh k t f).poisonM = s.poisonM := rfl
@[simp] theorem State.modTh_stags (s : State) (k t : Nat) (f : Thread → Thread) : (s.modTh k t f).stags = s.stags := rfl
@[simp] theorem State.modTh_resumed (s : State) (k t : Nat) (f : Thread → Thread) : (s.modTh k t f).resumed = s.resumed := rfl
@[simp] theorem State.modTh_dies (s : State) (k t : Nat) (f : Thread → Thread) : (s.modTh k t f).dies = s.dies := rfl
@[simp] theorem State.modTh_clusters (s : State) (k t : Nat) (f : Thread → Thread) : (s.modTh k t f).clusters = s.clusters := rfl
@[simp] theorem State.modTh_cores (s : State) (k t : Nat) (f : Thread → Thread) : (s.modTh k t f).cores = s.cores := rfl
@[simp] theorem State.modTh_stewards (s : State) (k t : Nat) (f : Thread → Thread) : (s.modTh k t f).stewards = s.stewards := rfl
@[simp] theorem State.modTh_issues (s : State) (k t : Nat) (f : Thread → Thread) : (s.modTh k t f).issues = s.issues := rfl
@[simp] theorem State.modTh_ops (s : State) (k t : Nat) (f : Thread → Thread) : (s.modTh k t f).ops = s.ops := rfl
@[simp] theorem State.modTh_ctxs (s : State) (k t : Nat) (f : Thread → Thread) : (s.modTh k t f).ctxs = s.ctxs := rfl
@[simp] theorem State.modTh_vfs (s : State) (k t : Nat) (f : Thread → Thread) : (s.modTh k t f).vfs = s.vfs := rfl
@[simp] theorem State.modTh_launches (s : State) (k t : Nat) (f : Thread → Thread) : (s.modTh k t f).launches = s.launches := rfl
@[simp] theorem State.modTh_snapLaunches (s : State) (k t : Nat) (f : Thread → Thread) : (s.modTh k t f).snapLaunches = s.snapLaunches := rfl
@[simp] theorem State.modTh_saved (s : State) (k t : Nat) (f : Thread → Thread) : (s.modTh k t f).saved = s.saved := rfl
@[simp] theorem State.modTh_tlb (s : State) (k t : Nat) (f : Thread → Thread) : (s.modTh k t f).tlb = s.tlb := rfl
@[simp] theorem State.modTh_mapped (s : State) (k t : Nat) (f : Thread → Thread) : (s.modTh k t f).mapped = s.mapped := rfl
@[simp] theorem State.modTh_spoiled (s : State) (k t : Nat) (f : Thread → Thread) : (s.modTh k t f).spoiled = s.spoiled := rfl
@[simp] theorem State.modTh_wants (s : State) (k t : Nat) (f : Thread → Thread) : (s.modTh k t f).wants = s.wants := rfl
@[simp] theorem State.modTh_walks (s : State) (k t : Nat) (f : Thread → Thread) : (s.modTh k t f).walks = s.walks := rfl
@[simp] theorem State.modTh_migs (s : State) (k t : Nat) (f : Thread → Thread) : (s.modTh k t f).migs = s.migs := rfl
@[simp] theorem State.modTh_flows (s : State) (k t : Nat) (f : Thread → Thread) : (s.modTh k t f).flows = s.flows := rfl
@[simp] theorem State.modTh_d2d (s : State) (k t : Nat) (f : Thread → Thread) : (s.modTh k t f).d2d = s.d2d := rfl
@[simp] theorem State.modTh_freqs (s : State) (k t : Nat) (f : Thread → Thread) : (s.modTh k t f).freqs = s.freqs := rfl
@[simp] theorem State.modTh_contribs (s : State) (k t : Nat) (f : Thread → Thread) : (s.modTh k t f).contribs = s.contribs := rfl
@[simp] theorem State.modTh_served (s : State) (k t : Nat) (f : Thread → Thread) : (s.modTh k t f).served = s.served := rfl
@[simp] theorem State.modTh_answers (s : State) (k t : Nat) (f : Thread → Thread) : (s.modTh k t f).answers = s.answers := rfl
@[simp] theorem State.modTh_rxSeq (s : State) (k t : Nat) (f : Thread → Thread) : (s.modTh k t f).rxSeq = s.rxSeq := rfl
@[simp] theorem State.modTh_down (s : State) (k t : Nat) (f : Thread → Thread) : (s.modTh k t f).down = s.down := rfl
@[simp] theorem State.modTh_probing (s : State) (k t : Nat) (f : Thread → Thread) : (s.modTh k t f).probing = s.probing := rfl
@[simp] theorem State.modTh_modId (s : State) (k t : Nat) (f : Thread → Thread) : (s.modTh k t f).modId = s.modId := rfl
@[simp] theorem State.modTh_monitor (s : State) (k t : Nat) (f : Thread → Thread) : (s.modTh k t f).monitor = s.monitor := rfl
@[simp] theorem State.modTh_halted (s : State) (k t : Nat) (f : Thread → Thread) : (s.modTh k t f).halted = s.halted := rfl
@[simp] theorem State.modTh_throttled (s : State) (k t : Nat) (f : Thread → Thread) : (s.modTh k t f).throttled = s.throttled := rfl
@[simp] theorem State.modTh_ckptOp (s : State) (k t : Nat) (f : Thread → Thread) : (s.modTh k t f).ckptOp = s.ckptOp := rfl
@[simp] theorem State.modTh_ckpt (s : State) (k t : Nat) (f : Thread → Thread) : (s.modTh k t f).ckpt = s.ckpt := rfl
@[simp] theorem State.modTh_booted (s : State) (k t : Nat) (f : Thread → Thread) : (s.modTh k t f).booted = s.booted := rfl

/-! ### State.modHw -/

@[simp] theorem State.modHw_agenda (s : State) (k h : Nat) (f : HWarp → HWarp) : (s.modHw k h f).agenda = s.agenda := rfl
@[simp] theorem State.modHw_focus (s : State) (k h : Nat) (f : HWarp → HWarp) : (s.modHw k h f).focus = s.focus := rfl
@[simp] theorem State.modHw_now (s : State) (k h : Nat) (f : HWarp → HWarp) : (s.modHw k h f).now = s.now := rfl
@[simp] theorem State.modHw_fresh (s : State) (k h : Nat) (f : HWarp → HWarp) : (s.modHw k h f).fresh = s.fresh := rfl
@[simp] theorem State.modHw_nextId (s : State) (k h : Nat) (f : HWarp → HWarp) : (s.modHw k h f).nextId = s.nextId := rfl
@[simp] theorem State.modHw_mem (s : State) (k h : Nat) (f : HWarp → HWarp) : (s.modHw k h f).mem = s.mem := rfl
@[simp] theorem State.modHw_poisonM (s : State) (k h : Nat) (f : HWarp → HWarp) : (s.modHw k h f).poisonM = s.poisonM := rfl
@[simp] theorem State.modHw_stags (s : State) (k h : Nat) (f : HWarp → HWarp) : (s.modHw k h f).stags = s.stags := rfl
@[simp] theorem State.modHw_resumed (s : State) (k h : Nat) (f : HWarp → HWarp) : (s.modHw k h f).resumed = s.resumed := rfl
@[simp] theorem State.modHw_dies (s : State) (k h : Nat) (f : HWarp → HWarp) : (s.modHw k h f).dies = s.dies := rfl
@[simp] theorem State.modHw_clusters (s : State) (k h : Nat) (f : HWarp → HWarp) : (s.modHw k h f).clusters = s.clusters := rfl
@[simp] theorem State.modHw_cores (s : State) (k h : Nat) (f : HWarp → HWarp) : (s.modHw k h f).cores = s.cores := rfl
@[simp] theorem State.modHw_stewards (s : State) (k h : Nat) (f : HWarp → HWarp) : (s.modHw k h f).stewards = s.stewards := rfl
@[simp] theorem State.modHw_issues (s : State) (k h : Nat) (f : HWarp → HWarp) : (s.modHw k h f).issues = s.issues := rfl
@[simp] theorem State.modHw_ops (s : State) (k h : Nat) (f : HWarp → HWarp) : (s.modHw k h f).ops = s.ops := rfl
@[simp] theorem State.modHw_ctxs (s : State) (k h : Nat) (f : HWarp → HWarp) : (s.modHw k h f).ctxs = s.ctxs := rfl
@[simp] theorem State.modHw_vfs (s : State) (k h : Nat) (f : HWarp → HWarp) : (s.modHw k h f).vfs = s.vfs := rfl
@[simp] theorem State.modHw_launches (s : State) (k h : Nat) (f : HWarp → HWarp) : (s.modHw k h f).launches = s.launches := rfl
@[simp] theorem State.modHw_snapLaunches (s : State) (k h : Nat) (f : HWarp → HWarp) : (s.modHw k h f).snapLaunches = s.snapLaunches := rfl
@[simp] theorem State.modHw_saved (s : State) (k h : Nat) (f : HWarp → HWarp) : (s.modHw k h f).saved = s.saved := rfl
@[simp] theorem State.modHw_tlb (s : State) (k h : Nat) (f : HWarp → HWarp) : (s.modHw k h f).tlb = s.tlb := rfl
@[simp] theorem State.modHw_mapped (s : State) (k h : Nat) (f : HWarp → HWarp) : (s.modHw k h f).mapped = s.mapped := rfl
@[simp] theorem State.modHw_spoiled (s : State) (k h : Nat) (f : HWarp → HWarp) : (s.modHw k h f).spoiled = s.spoiled := rfl
@[simp] theorem State.modHw_wants (s : State) (k h : Nat) (f : HWarp → HWarp) : (s.modHw k h f).wants = s.wants := rfl
@[simp] theorem State.modHw_walks (s : State) (k h : Nat) (f : HWarp → HWarp) : (s.modHw k h f).walks = s.walks := rfl
@[simp] theorem State.modHw_migs (s : State) (k h : Nat) (f : HWarp → HWarp) : (s.modHw k h f).migs = s.migs := rfl
@[simp] theorem State.modHw_flows (s : State) (k h : Nat) (f : HWarp → HWarp) : (s.modHw k h f).flows = s.flows := rfl
@[simp] theorem State.modHw_d2d (s : State) (k h : Nat) (f : HWarp → HWarp) : (s.modHw k h f).d2d = s.d2d := rfl
@[simp] theorem State.modHw_freqs (s : State) (k h : Nat) (f : HWarp → HWarp) : (s.modHw k h f).freqs = s.freqs := rfl
@[simp] theorem State.modHw_contribs (s : State) (k h : Nat) (f : HWarp → HWarp) : (s.modHw k h f).contribs = s.contribs := rfl
@[simp] theorem State.modHw_served (s : State) (k h : Nat) (f : HWarp → HWarp) : (s.modHw k h f).served = s.served := rfl
@[simp] theorem State.modHw_answers (s : State) (k h : Nat) (f : HWarp → HWarp) : (s.modHw k h f).answers = s.answers := rfl
@[simp] theorem State.modHw_rxSeq (s : State) (k h : Nat) (f : HWarp → HWarp) : (s.modHw k h f).rxSeq = s.rxSeq := rfl
@[simp] theorem State.modHw_down (s : State) (k h : Nat) (f : HWarp → HWarp) : (s.modHw k h f).down = s.down := rfl
@[simp] theorem State.modHw_probing (s : State) (k h : Nat) (f : HWarp → HWarp) : (s.modHw k h f).probing = s.probing := rfl
@[simp] theorem State.modHw_modId (s : State) (k h : Nat) (f : HWarp → HWarp) : (s.modHw k h f).modId = s.modId := rfl
@[simp] theorem State.modHw_monitor (s : State) (k h : Nat) (f : HWarp → HWarp) : (s.modHw k h f).monitor = s.monitor := rfl
@[simp] theorem State.modHw_halted (s : State) (k h : Nat) (f : HWarp → HWarp) : (s.modHw k h f).halted = s.halted := rfl
@[simp] theorem State.modHw_throttled (s : State) (k h : Nat) (f : HWarp → HWarp) : (s.modHw k h f).throttled = s.throttled := rfl
@[simp] theorem State.modHw_ckptOp (s : State) (k h : Nat) (f : HWarp → HWarp) : (s.modHw k h f).ckptOp = s.ckptOp := rfl
@[simp] theorem State.modHw_ckpt (s : State) (k h : Nat) (f : HWarp → HWarp) : (s.modHw k h f).ckpt = s.ckpt := rfl
@[simp] theorem State.modHw_booted (s : State) (k h : Nat) (f : HWarp → HWarp) : (s.modHw k h f).booted = s.booted := rfl

/-! ### State.setByte -/

@[simp] theorem State.setByte_agenda (s : State) (pa : Nat) (b : Byte) : (s.setByte pa b).agenda = s.agenda := rfl
@[simp] theorem State.setByte_focus (s : State) (pa : Nat) (b : Byte) : (s.setByte pa b).focus = s.focus := rfl
@[simp] theorem State.setByte_now (s : State) (pa : Nat) (b : Byte) : (s.setByte pa b).now = s.now := rfl
@[simp] theorem State.setByte_fresh (s : State) (pa : Nat) (b : Byte) : (s.setByte pa b).fresh = s.fresh := rfl
@[simp] theorem State.setByte_nextId (s : State) (pa : Nat) (b : Byte) : (s.setByte pa b).nextId = s.nextId := rfl
@[simp] theorem State.setByte_poisonM (s : State) (pa : Nat) (b : Byte) : (s.setByte pa b).poisonM = s.poisonM := rfl
@[simp] theorem State.setByte_stags (s : State) (pa : Nat) (b : Byte) : (s.setByte pa b).stags = s.stags := rfl
@[simp] theorem State.setByte_resumed (s : State) (pa : Nat) (b : Byte) : (s.setByte pa b).resumed = s.resumed := rfl
@[simp] theorem State.setByte_dies (s : State) (pa : Nat) (b : Byte) : (s.setByte pa b).dies = s.dies := rfl
@[simp] theorem State.setByte_clusters (s : State) (pa : Nat) (b : Byte) : (s.setByte pa b).clusters = s.clusters := rfl
@[simp] theorem State.setByte_cores (s : State) (pa : Nat) (b : Byte) : (s.setByte pa b).cores = s.cores := rfl
@[simp] theorem State.setByte_stewards (s : State) (pa : Nat) (b : Byte) : (s.setByte pa b).stewards = s.stewards := rfl
@[simp] theorem State.setByte_insts (s : State) (pa : Nat) (b : Byte) : (s.setByte pa b).insts = s.insts := rfl
@[simp] theorem State.setByte_issues (s : State) (pa : Nat) (b : Byte) : (s.setByte pa b).issues = s.issues := rfl
@[simp] theorem State.setByte_ops (s : State) (pa : Nat) (b : Byte) : (s.setByte pa b).ops = s.ops := rfl
@[simp] theorem State.setByte_ctxs (s : State) (pa : Nat) (b : Byte) : (s.setByte pa b).ctxs = s.ctxs := rfl
@[simp] theorem State.setByte_vfs (s : State) (pa : Nat) (b : Byte) : (s.setByte pa b).vfs = s.vfs := rfl
@[simp] theorem State.setByte_launches (s : State) (pa : Nat) (b : Byte) : (s.setByte pa b).launches = s.launches := rfl
@[simp] theorem State.setByte_snapLaunches (s : State) (pa : Nat) (b : Byte) : (s.setByte pa b).snapLaunches = s.snapLaunches := rfl
@[simp] theorem State.setByte_saved (s : State) (pa : Nat) (b : Byte) : (s.setByte pa b).saved = s.saved := rfl
@[simp] theorem State.setByte_tlb (s : State) (pa : Nat) (b : Byte) : (s.setByte pa b).tlb = s.tlb := rfl
@[simp] theorem State.setByte_mapped (s : State) (pa : Nat) (b : Byte) : (s.setByte pa b).mapped = s.mapped := rfl
@[simp] theorem State.setByte_spoiled (s : State) (pa : Nat) (b : Byte) : (s.setByte pa b).spoiled = s.spoiled := rfl
@[simp] theorem State.setByte_wants (s : State) (pa : Nat) (b : Byte) : (s.setByte pa b).wants = s.wants := rfl
@[simp] theorem State.setByte_walks (s : State) (pa : Nat) (b : Byte) : (s.setByte pa b).walks = s.walks := rfl
@[simp] theorem State.setByte_migs (s : State) (pa : Nat) (b : Byte) : (s.setByte pa b).migs = s.migs := rfl
@[simp] theorem State.setByte_flows (s : State) (pa : Nat) (b : Byte) : (s.setByte pa b).flows = s.flows := rfl
@[simp] theorem State.setByte_d2d (s : State) (pa : Nat) (b : Byte) : (s.setByte pa b).d2d = s.d2d := rfl
@[simp] theorem State.setByte_freqs (s : State) (pa : Nat) (b : Byte) : (s.setByte pa b).freqs = s.freqs := rfl
@[simp] theorem State.setByte_contribs (s : State) (pa : Nat) (b : Byte) : (s.setByte pa b).contribs = s.contribs := rfl
@[simp] theorem State.setByte_served (s : State) (pa : Nat) (b : Byte) : (s.setByte pa b).served = s.served := rfl
@[simp] theorem State.setByte_answers (s : State) (pa : Nat) (b : Byte) : (s.setByte pa b).answers = s.answers := rfl
@[simp] theorem State.setByte_rxSeq (s : State) (pa : Nat) (b : Byte) : (s.setByte pa b).rxSeq = s.rxSeq := rfl
@[simp] theorem State.setByte_down (s : State) (pa : Nat) (b : Byte) : (s.setByte pa b).down = s.down := rfl
@[simp] theorem State.setByte_probing (s : State) (pa : Nat) (b : Byte) : (s.setByte pa b).probing = s.probing := rfl
@[simp] theorem State.setByte_modId (s : State) (pa : Nat) (b : Byte) : (s.setByte pa b).modId = s.modId := rfl
@[simp] theorem State.setByte_monitor (s : State) (pa : Nat) (b : Byte) : (s.setByte pa b).monitor = s.monitor := rfl
@[simp] theorem State.setByte_halted (s : State) (pa : Nat) (b : Byte) : (s.setByte pa b).halted = s.halted := rfl
@[simp] theorem State.setByte_throttled (s : State) (pa : Nat) (b : Byte) : (s.setByte pa b).throttled = s.throttled := rfl
@[simp] theorem State.setByte_ckptOp (s : State) (pa : Nat) (b : Byte) : (s.setByte pa b).ckptOp = s.ckptOp := rfl
@[simp] theorem State.setByte_ckpt (s : State) (pa : Nat) (b : Byte) : (s.setByte pa b).ckpt = s.ckpt := rfl
@[simp] theorem State.setByte_booted (s : State) (pa : Nat) (b : Byte) : (s.setByte pa b).booted = s.booted := rfl

/-! ### State.setIssue -/

@[simp] theorem State.setIssue_agenda (s : State) (i : Issue) : (s.setIssue i).agenda = s.agenda := rfl
@[simp] theorem State.setIssue_focus (s : State) (i : Issue) : (s.setIssue i).focus = s.focus := rfl
@[simp] theorem State.setIssue_now (s : State) (i : Issue) : (s.setIssue i).now = s.now := rfl
@[simp] theorem State.setIssue_fresh (s : State) (i : Issue) : (s.setIssue i).fresh = s.fresh := rfl
@[simp] theorem State.setIssue_nextId (s : State) (i : Issue) : (s.setIssue i).nextId = s.nextId := rfl
@[simp] theorem State.setIssue_mem (s : State) (i : Issue) : (s.setIssue i).mem = s.mem := rfl
@[simp] theorem State.setIssue_poisonM (s : State) (i : Issue) : (s.setIssue i).poisonM = s.poisonM := rfl
@[simp] theorem State.setIssue_stags (s : State) (i : Issue) : (s.setIssue i).stags = s.stags := rfl
@[simp] theorem State.setIssue_resumed (s : State) (i : Issue) : (s.setIssue i).resumed = s.resumed := rfl
@[simp] theorem State.setIssue_dies (s : State) (i : Issue) : (s.setIssue i).dies = s.dies := rfl
@[simp] theorem State.setIssue_clusters (s : State) (i : Issue) : (s.setIssue i).clusters = s.clusters := rfl
@[simp] theorem State.setIssue_cores (s : State) (i : Issue) : (s.setIssue i).cores = s.cores := rfl
@[simp] theorem State.setIssue_stewards (s : State) (i : Issue) : (s.setIssue i).stewards = s.stewards := rfl
@[simp] theorem State.setIssue_insts (s : State) (i : Issue) : (s.setIssue i).insts = s.insts := rfl
@[simp] theorem State.setIssue_ops (s : State) (i : Issue) : (s.setIssue i).ops = s.ops := rfl
@[simp] theorem State.setIssue_ctxs (s : State) (i : Issue) : (s.setIssue i).ctxs = s.ctxs := rfl
@[simp] theorem State.setIssue_vfs (s : State) (i : Issue) : (s.setIssue i).vfs = s.vfs := rfl
@[simp] theorem State.setIssue_launches (s : State) (i : Issue) : (s.setIssue i).launches = s.launches := rfl
@[simp] theorem State.setIssue_snapLaunches (s : State) (i : Issue) : (s.setIssue i).snapLaunches = s.snapLaunches := rfl
@[simp] theorem State.setIssue_saved (s : State) (i : Issue) : (s.setIssue i).saved = s.saved := rfl
@[simp] theorem State.setIssue_tlb (s : State) (i : Issue) : (s.setIssue i).tlb = s.tlb := rfl
@[simp] theorem State.setIssue_mapped (s : State) (i : Issue) : (s.setIssue i).mapped = s.mapped := rfl
@[simp] theorem State.setIssue_spoiled (s : State) (i : Issue) : (s.setIssue i).spoiled = s.spoiled := rfl
@[simp] theorem State.setIssue_wants (s : State) (i : Issue) : (s.setIssue i).wants = s.wants := rfl
@[simp] theorem State.setIssue_walks (s : State) (i : Issue) : (s.setIssue i).walks = s.walks := rfl
@[simp] theorem State.setIssue_migs (s : State) (i : Issue) : (s.setIssue i).migs = s.migs := rfl
@[simp] theorem State.setIssue_flows (s : State) (i : Issue) : (s.setIssue i).flows = s.flows := rfl
@[simp] theorem State.setIssue_d2d (s : State) (i : Issue) : (s.setIssue i).d2d = s.d2d := rfl
@[simp] theorem State.setIssue_freqs (s : State) (i : Issue) : (s.setIssue i).freqs = s.freqs := rfl
@[simp] theorem State.setIssue_contribs (s : State) (i : Issue) : (s.setIssue i).contribs = s.contribs := rfl
@[simp] theorem State.setIssue_served (s : State) (i : Issue) : (s.setIssue i).served = s.served := rfl
@[simp] theorem State.setIssue_answers (s : State) (i : Issue) : (s.setIssue i).answers = s.answers := rfl
@[simp] theorem State.setIssue_rxSeq (s : State) (i : Issue) : (s.setIssue i).rxSeq = s.rxSeq := rfl
@[simp] theorem State.setIssue_down (s : State) (i : Issue) : (s.setIssue i).down = s.down := rfl
@[simp] theorem State.setIssue_probing (s : State) (i : Issue) : (s.setIssue i).probing = s.probing := rfl
@[simp] theorem State.setIssue_modId (s : State) (i : Issue) : (s.setIssue i).modId = s.modId := rfl
@[simp] theorem State.setIssue_monitor (s : State) (i : Issue) : (s.setIssue i).monitor = s.monitor := rfl
@[simp] theorem State.setIssue_halted (s : State) (i : Issue) : (s.setIssue i).halted = s.halted := rfl
@[simp] theorem State.setIssue_throttled (s : State) (i : Issue) : (s.setIssue i).throttled = s.throttled := rfl
@[simp] theorem State.setIssue_ckptOp (s : State) (i : Issue) : (s.setIssue i).ckptOp = s.ckptOp := rfl
@[simp] theorem State.setIssue_ckpt (s : State) (i : Issue) : (s.setIssue i).ckpt = s.ckpt := rfl
@[simp] theorem State.setIssue_booted (s : State) (i : Issue) : (s.setIssue i).booted = s.booted := rfl

/-! ### State.dropIssue -/

@[simp] theorem State.dropIssue_agenda (s : State) (q : Seq) : (s.dropIssue q).agenda = s.agenda := rfl
@[simp] theorem State.dropIssue_focus (s : State) (q : Seq) : (s.dropIssue q).focus = s.focus := rfl
@[simp] theorem State.dropIssue_now (s : State) (q : Seq) : (s.dropIssue q).now = s.now := rfl
@[simp] theorem State.dropIssue_fresh (s : State) (q : Seq) : (s.dropIssue q).fresh = s.fresh := rfl
@[simp] theorem State.dropIssue_nextId (s : State) (q : Seq) : (s.dropIssue q).nextId = s.nextId := rfl
@[simp] theorem State.dropIssue_mem (s : State) (q : Seq) : (s.dropIssue q).mem = s.mem := rfl
@[simp] theorem State.dropIssue_poisonM (s : State) (q : Seq) : (s.dropIssue q).poisonM = s.poisonM := rfl
@[simp] theorem State.dropIssue_stags (s : State) (q : Seq) : (s.dropIssue q).stags = s.stags := rfl
@[simp] theorem State.dropIssue_resumed (s : State) (q : Seq) : (s.dropIssue q).resumed = s.resumed := rfl
@[simp] theorem State.dropIssue_dies (s : State) (q : Seq) : (s.dropIssue q).dies = s.dies := rfl
@[simp] theorem State.dropIssue_clusters (s : State) (q : Seq) : (s.dropIssue q).clusters = s.clusters := rfl
@[simp] theorem State.dropIssue_cores (s : State) (q : Seq) : (s.dropIssue q).cores = s.cores := rfl
@[simp] theorem State.dropIssue_stewards (s : State) (q : Seq) : (s.dropIssue q).stewards = s.stewards := rfl
@[simp] theorem State.dropIssue_insts (s : State) (q : Seq) : (s.dropIssue q).insts = s.insts := rfl
@[simp] theorem State.dropIssue_ops (s : State) (q : Seq) : (s.dropIssue q).ops = s.ops := rfl
@[simp] theorem State.dropIssue_ctxs (s : State) (q : Seq) : (s.dropIssue q).ctxs = s.ctxs := rfl
@[simp] theorem State.dropIssue_vfs (s : State) (q : Seq) : (s.dropIssue q).vfs = s.vfs := rfl
@[simp] theorem State.dropIssue_launches (s : State) (q : Seq) : (s.dropIssue q).launches = s.launches := rfl
@[simp] theorem State.dropIssue_snapLaunches (s : State) (q : Seq) : (s.dropIssue q).snapLaunches = s.snapLaunches := rfl
@[simp] theorem State.dropIssue_saved (s : State) (q : Seq) : (s.dropIssue q).saved = s.saved := rfl
@[simp] theorem State.dropIssue_tlb (s : State) (q : Seq) : (s.dropIssue q).tlb = s.tlb := rfl
@[simp] theorem State.dropIssue_mapped (s : State) (q : Seq) : (s.dropIssue q).mapped = s.mapped := rfl
@[simp] theorem State.dropIssue_spoiled (s : State) (q : Seq) : (s.dropIssue q).spoiled = s.spoiled := rfl
@[simp] theorem State.dropIssue_wants (s : State) (q : Seq) : (s.dropIssue q).wants = s.wants := rfl
@[simp] theorem State.dropIssue_walks (s : State) (q : Seq) : (s.dropIssue q).walks = s.walks := rfl
@[simp] theorem State.dropIssue_migs (s : State) (q : Seq) : (s.dropIssue q).migs = s.migs := rfl
@[simp] theorem State.dropIssue_flows (s : State) (q : Seq) : (s.dropIssue q).flows = s.flows := rfl
@[simp] theorem State.dropIssue_d2d (s : State) (q : Seq) : (s.dropIssue q).d2d = s.d2d := rfl
@[simp] theorem State.dropIssue_freqs (s : State) (q : Seq) : (s.dropIssue q).freqs = s.freqs := rfl
@[simp] theorem State.dropIssue_contribs (s : State) (q : Seq) : (s.dropIssue q).contribs = s.contribs := rfl
@[simp] theorem State.dropIssue_served (s : State) (q : Seq) : (s.dropIssue q).served = s.served := rfl
@[simp] theorem State.dropIssue_answers (s : State) (q : Seq) : (s.dropIssue q).answers = s.answers := rfl
@[simp] theorem State.dropIssue_rxSeq (s : State) (q : Seq) : (s.dropIssue q).rxSeq = s.rxSeq := rfl
@[simp] theorem State.dropIssue_down (s : State) (q : Seq) : (s.dropIssue q).down = s.down := rfl
@[simp] theorem State.dropIssue_probing (s : State) (q : Seq) : (s.dropIssue q).probing = s.probing := rfl
@[simp] theorem State.dropIssue_modId (s : State) (q : Seq) : (s.dropIssue q).modId = s.modId := rfl
@[simp] theorem State.dropIssue_monitor (s : State) (q : Seq) : (s.dropIssue q).monitor = s.monitor := rfl
@[simp] theorem State.dropIssue_halted (s : State) (q : Seq) : (s.dropIssue q).halted = s.halted := rfl
@[simp] theorem State.dropIssue_throttled (s : State) (q : Seq) : (s.dropIssue q).throttled = s.throttled := rfl
@[simp] theorem State.dropIssue_ckptOp (s : State) (q : Seq) : (s.dropIssue q).ckptOp = s.ckptOp := rfl
@[simp] theorem State.dropIssue_ckpt (s : State) (q : Seq) : (s.dropIssue q).ckpt = s.ckpt := rfl
@[simp] theorem State.dropIssue_booted (s : State) (q : Seq) : (s.dropIssue q).booted = s.booted := rfl

/-! ### State.modOp -/

@[simp] theorem State.modOp_agenda (s : State) (id : Nat) (f : PendOp → PendOp) : (s.modOp id f).agenda = s.agenda := rfl
@[simp] theorem State.modOp_focus (s : State) (id : Nat) (f : PendOp → PendOp) : (s.modOp id f).focus = s.focus := rfl
@[simp] theorem State.modOp_now (s : State) (id : Nat) (f : PendOp → PendOp) : (s.modOp id f).now = s.now := rfl
@[simp] theorem State.modOp_fresh (s : State) (id : Nat) (f : PendOp → PendOp) : (s.modOp id f).fresh = s.fresh := rfl
@[simp] theorem State.modOp_nextId (s : State) (id : Nat) (f : PendOp → PendOp) : (s.modOp id f).nextId = s.nextId := rfl
@[simp] theorem State.modOp_mem (s : State) (id : Nat) (f : PendOp → PendOp) : (s.modOp id f).mem = s.mem := rfl
@[simp] theorem State.modOp_poisonM (s : State) (id : Nat) (f : PendOp → PendOp) : (s.modOp id f).poisonM = s.poisonM := rfl
@[simp] theorem State.modOp_stags (s : State) (id : Nat) (f : PendOp → PendOp) : (s.modOp id f).stags = s.stags := rfl
@[simp] theorem State.modOp_resumed (s : State) (id : Nat) (f : PendOp → PendOp) : (s.modOp id f).resumed = s.resumed := rfl
@[simp] theorem State.modOp_dies (s : State) (id : Nat) (f : PendOp → PendOp) : (s.modOp id f).dies = s.dies := rfl
@[simp] theorem State.modOp_clusters (s : State) (id : Nat) (f : PendOp → PendOp) : (s.modOp id f).clusters = s.clusters := rfl
@[simp] theorem State.modOp_cores (s : State) (id : Nat) (f : PendOp → PendOp) : (s.modOp id f).cores = s.cores := rfl
@[simp] theorem State.modOp_stewards (s : State) (id : Nat) (f : PendOp → PendOp) : (s.modOp id f).stewards = s.stewards := rfl
@[simp] theorem State.modOp_insts (s : State) (id : Nat) (f : PendOp → PendOp) : (s.modOp id f).insts = s.insts := rfl
@[simp] theorem State.modOp_issues (s : State) (id : Nat) (f : PendOp → PendOp) : (s.modOp id f).issues = s.issues := rfl
@[simp] theorem State.modOp_ctxs (s : State) (id : Nat) (f : PendOp → PendOp) : (s.modOp id f).ctxs = s.ctxs := rfl
@[simp] theorem State.modOp_vfs (s : State) (id : Nat) (f : PendOp → PendOp) : (s.modOp id f).vfs = s.vfs := rfl
@[simp] theorem State.modOp_launches (s : State) (id : Nat) (f : PendOp → PendOp) : (s.modOp id f).launches = s.launches := rfl
@[simp] theorem State.modOp_snapLaunches (s : State) (id : Nat) (f : PendOp → PendOp) : (s.modOp id f).snapLaunches = s.snapLaunches := rfl
@[simp] theorem State.modOp_saved (s : State) (id : Nat) (f : PendOp → PendOp) : (s.modOp id f).saved = s.saved := rfl
@[simp] theorem State.modOp_tlb (s : State) (id : Nat) (f : PendOp → PendOp) : (s.modOp id f).tlb = s.tlb := rfl
@[simp] theorem State.modOp_mapped (s : State) (id : Nat) (f : PendOp → PendOp) : (s.modOp id f).mapped = s.mapped := rfl
@[simp] theorem State.modOp_spoiled (s : State) (id : Nat) (f : PendOp → PendOp) : (s.modOp id f).spoiled = s.spoiled := rfl
@[simp] theorem State.modOp_wants (s : State) (id : Nat) (f : PendOp → PendOp) : (s.modOp id f).wants = s.wants := rfl
@[simp] theorem State.modOp_walks (s : State) (id : Nat) (f : PendOp → PendOp) : (s.modOp id f).walks = s.walks := rfl
@[simp] theorem State.modOp_migs (s : State) (id : Nat) (f : PendOp → PendOp) : (s.modOp id f).migs = s.migs := rfl
@[simp] theorem State.modOp_flows (s : State) (id : Nat) (f : PendOp → PendOp) : (s.modOp id f).flows = s.flows := rfl
@[simp] theorem State.modOp_d2d (s : State) (id : Nat) (f : PendOp → PendOp) : (s.modOp id f).d2d = s.d2d := rfl
@[simp] theorem State.modOp_freqs (s : State) (id : Nat) (f : PendOp → PendOp) : (s.modOp id f).freqs = s.freqs := rfl
@[simp] theorem State.modOp_contribs (s : State) (id : Nat) (f : PendOp → PendOp) : (s.modOp id f).contribs = s.contribs := rfl
@[simp] theorem State.modOp_served (s : State) (id : Nat) (f : PendOp → PendOp) : (s.modOp id f).served = s.served := rfl
@[simp] theorem State.modOp_answers (s : State) (id : Nat) (f : PendOp → PendOp) : (s.modOp id f).answers = s.answers := rfl
@[simp] theorem State.modOp_rxSeq (s : State) (id : Nat) (f : PendOp → PendOp) : (s.modOp id f).rxSeq = s.rxSeq := rfl
@[simp] theorem State.modOp_down (s : State) (id : Nat) (f : PendOp → PendOp) : (s.modOp id f).down = s.down := rfl
@[simp] theorem State.modOp_probing (s : State) (id : Nat) (f : PendOp → PendOp) : (s.modOp id f).probing = s.probing := rfl
@[simp] theorem State.modOp_modId (s : State) (id : Nat) (f : PendOp → PendOp) : (s.modOp id f).modId = s.modId := rfl
@[simp] theorem State.modOp_monitor (s : State) (id : Nat) (f : PendOp → PendOp) : (s.modOp id f).monitor = s.monitor := rfl
@[simp] theorem State.modOp_halted (s : State) (id : Nat) (f : PendOp → PendOp) : (s.modOp id f).halted = s.halted := rfl
@[simp] theorem State.modOp_throttled (s : State) (id : Nat) (f : PendOp → PendOp) : (s.modOp id f).throttled = s.throttled := rfl
@[simp] theorem State.modOp_ckptOp (s : State) (id : Nat) (f : PendOp → PendOp) : (s.modOp id f).ckptOp = s.ckptOp := rfl
@[simp] theorem State.modOp_ckpt (s : State) (id : Nat) (f : PendOp → PendOp) : (s.modOp id f).ckpt = s.ckpt := rfl
@[simp] theorem State.modOp_booted (s : State) (id : Nat) (f : PendOp → PendOp) : (s.modOp id f).booted = s.booted := rfl

/-! ### State.reapOps -/

@[simp] theorem State.reapOps_agenda (s : State) : (s.reapOps).agenda = s.agenda := rfl
@[simp] theorem State.reapOps_focus (s : State) : (s.reapOps).focus = s.focus := rfl
@[simp] theorem State.reapOps_now (s : State) : (s.reapOps).now = s.now := rfl
@[simp] theorem State.reapOps_fresh (s : State) : (s.reapOps).fresh = s.fresh := rfl
@[simp] theorem State.reapOps_nextId (s : State) : (s.reapOps).nextId = s.nextId := rfl
@[simp] theorem State.reapOps_mem (s : State) : (s.reapOps).mem = s.mem := rfl
@[simp] theorem State.reapOps_poisonM (s : State) : (s.reapOps).poisonM = s.poisonM := rfl
@[simp] theorem State.reapOps_stags (s : State) : (s.reapOps).stags = s.stags := rfl
@[simp] theorem State.reapOps_resumed (s : State) : (s.reapOps).resumed = s.resumed := rfl
@[simp] theorem State.reapOps_dies (s : State) : (s.reapOps).dies = s.dies := rfl
@[simp] theorem State.reapOps_clusters (s : State) : (s.reapOps).clusters = s.clusters := rfl
@[simp] theorem State.reapOps_cores (s : State) : (s.reapOps).cores = s.cores := rfl
@[simp] theorem State.reapOps_stewards (s : State) : (s.reapOps).stewards = s.stewards := rfl
@[simp] theorem State.reapOps_insts (s : State) : (s.reapOps).insts = s.insts := rfl
@[simp] theorem State.reapOps_issues (s : State) : (s.reapOps).issues = s.issues := rfl
@[simp] theorem State.reapOps_ctxs (s : State) : (s.reapOps).ctxs = s.ctxs := rfl
@[simp] theorem State.reapOps_vfs (s : State) : (s.reapOps).vfs = s.vfs := rfl
@[simp] theorem State.reapOps_launches (s : State) : (s.reapOps).launches = s.launches := rfl
@[simp] theorem State.reapOps_snapLaunches (s : State) : (s.reapOps).snapLaunches = s.snapLaunches := rfl
@[simp] theorem State.reapOps_saved (s : State) : (s.reapOps).saved = s.saved := rfl
@[simp] theorem State.reapOps_tlb (s : State) : (s.reapOps).tlb = s.tlb := rfl
@[simp] theorem State.reapOps_mapped (s : State) : (s.reapOps).mapped = s.mapped := rfl
@[simp] theorem State.reapOps_spoiled (s : State) : (s.reapOps).spoiled = s.spoiled := rfl
@[simp] theorem State.reapOps_wants (s : State) : (s.reapOps).wants = s.wants := rfl
@[simp] theorem State.reapOps_walks (s : State) : (s.reapOps).walks = s.walks := rfl
@[simp] theorem State.reapOps_migs (s : State) : (s.reapOps).migs = s.migs := rfl
@[simp] theorem State.reapOps_flows (s : State) : (s.reapOps).flows = s.flows := rfl
@[simp] theorem State.reapOps_d2d (s : State) : (s.reapOps).d2d = s.d2d := rfl
@[simp] theorem State.reapOps_freqs (s : State) : (s.reapOps).freqs = s.freqs := rfl
@[simp] theorem State.reapOps_contribs (s : State) : (s.reapOps).contribs = s.contribs := rfl
@[simp] theorem State.reapOps_served (s : State) : (s.reapOps).served = s.served := rfl
@[simp] theorem State.reapOps_answers (s : State) : (s.reapOps).answers = s.answers := rfl
@[simp] theorem State.reapOps_rxSeq (s : State) : (s.reapOps).rxSeq = s.rxSeq := rfl
@[simp] theorem State.reapOps_down (s : State) : (s.reapOps).down = s.down := rfl
@[simp] theorem State.reapOps_probing (s : State) : (s.reapOps).probing = s.probing := rfl
@[simp] theorem State.reapOps_modId (s : State) : (s.reapOps).modId = s.modId := rfl
@[simp] theorem State.reapOps_monitor (s : State) : (s.reapOps).monitor = s.monitor := rfl
@[simp] theorem State.reapOps_halted (s : State) : (s.reapOps).halted = s.halted := rfl
@[simp] theorem State.reapOps_throttled (s : State) : (s.reapOps).throttled = s.throttled := rfl
@[simp] theorem State.reapOps_ckptOp (s : State) : (s.reapOps).ckptOp = s.ckptOp := rfl
@[simp] theorem State.reapOps_ckpt (s : State) : (s.reapOps).ckpt = s.ckpt := rfl
@[simp] theorem State.reapOps_booted (s : State) : (s.reapOps).booted = s.booted := rfl

end Sys2Proof.Machine
end

