-- ==== Sys2Proof/Laws/Issue.lean ====
section
/-!
SUPPORT. What issuing an instruction does, once for each shape of a meaning: where it issues, its own part and the step past
it are all that happens (R41, R45).
-/
namespace Sys2Proof.Machine

open Host (Outcome)

/-- An encoded instruction with a clause in focus acts on it. -/
theorem inClause_of {s : State} {is : Issue} (h : s.issue? = some is) (f : Issue → State) :
    inClause s f = .next (f is) := by
  simp [inClause, h]

/-- An encoded instruction without one faults. -/
theorem inClause_none {s : State} (h : s.issue? = none) (f : Issue → State) :
    inClause s f = .fault .noClause := by
  simp [inClause, h]

theorem State.acting_of_mem {s : State} {is : Issue} {c : Ctl} {t : Nat}
    (h : t ∈ (is.lanes.filter fun l => l.active && s.guardAt is c (is.speaker (s.inst is.iid) c l.tid)).map (·.tid)) :
    ∃ l, s.acting is c l ∧ l.tid = t := by
  simp only [List.mem_map, List.mem_filter, Bool.and_eq_true] at h
  obtain ⟨l, ⟨h1, h2, h3⟩, h4⟩ := h
  exact ⟨l, ⟨h1, h2, h3⟩, h4⟩

/-- Where an instruction issues, it does what its own part does. -/
theorem issueIns_of {s : State} {is : Issue} {ins : Instr} {c : Ctl} {more : List RU} (h : Issues s is ins c more)
    (body : State → Issue → Did) :
    s.issueIns is ins c more body = match body s is with
      | .stay t => t
      | .go t => t.past is c := by
  have bad : ((is.lanes.filter fun l => l.active && s.guardAt is c (is.speaker (s.inst is.iid) c l.tid)).map (·.tid)).filterMap
      (fun t => ((check6 (s.inst is.iid) is ins c more t).orElse fun _ => s.zeroName is ins t).map fun d => (t, d)) = [] := by
    rw [List.filterMap_eq_nil_iff]
    intro t ht
    obtain ⟨l, hl, rfl⟩ := State.acting_of_mem ht
    obtain ⟨h1, h2⟩ := h.names l hl
    simp [h1, h2]
  have haz : (s.ctx (s.inst is.iid).ctx).ccb.fhtrap = true → ((is.lanes.filter (·.active)).map (·.tid)).filterMap
      (fun t => if ((is.lanes.filter fun l => l.active && s.guardAt is c (is.speaker (s.inst is.iid) c l.tid)).map (·.tid)).contains t then
          ((s.hazardReg (s.inst is.iid) is ins c more t).orElse fun _ => s.scaleReg (s.inst is.iid) is ins c more t).map fun d => (t, d)
        else if c.gp != 0 && (s.inst is.iid).hazard (.p (is.speaker (s.inst is.iid) c t) c.gp) then some (t, c.gp) else none) = [] := by
    intro hf
    rw [List.filterMap_eq_nil_iff]
    intro t ht
    split
    · rename_i hc
      obtain ⟨l, hl, rfl⟩ := State.acting_of_mem (List.contains_iff_mem.1 hc)
      obtain ⟨h1, h2⟩ := h.quiet hf l hl
      simp [h1, h2]
    · simp only [List.mem_map, List.mem_filter] at ht
      obtain ⟨l, ⟨h1, h2⟩, rfl⟩ := ht
      by_cases hg : c.gp = 0
      · simp [hg]
      · simp [h.unread hf l h1 h2 hg]
  have room : ((is.flagOf c.fsel).map fun f => (s.inst is.iid).flagFull ((s.inst is.iid).sets is.lanes) f).getD false = false := by
    cases hf : is.flagOf c.fsel with
    | none => rfl
    | some f => exact h.room f hf
  unfold State.issueIns
  simp only [h.legal, bad]
  by_cases hf : (s.ctx (s.inst is.iid).ctx).ccb.fhtrap = true
  · have hz := haz hf
    simp only [hf, if_true, List.any_nil, Bool.false_eq_true, if_false, hz, room, List.isEmpty_nil, Bool.not_true, Bool.or_self,
      State.past]
    all_goals (cases body s is <;> rfl)
  · simp only [hf, if_false, room, List.isEmpty_nil, Bool.not_true, Bool.or_self, Bool.false_eq_true, State.past]
    all_goals (cases body s is <;> rfl)

theorem foldRuns_pure (f : State → Run → List Put) (s : State) (rs : List Run) :
    foldRuns (fun s r => (s, f s r)) s rs = (s, rs.flatMap (f s)) := by
  induction rs with
  | nil => rfl
  | cons r rs ih => simp [foldRuns, ih]

/-- A fixed-latency instruction that only computes settles with its results. -/
theorem pureFixed_of {s : State} {is : Issue} {ins : Instr} {c : Ctl} (h : Issues s is ins c [])
    (lat : Nat) (run : State → Issue → Run → List Put) :
    pureFixed ins c lat run s = .next (s.settle is c lat ((s.runs is c).flatMap (run s is))) := by
  unfold pureFixed fixed
  rw [inClause_of h.focus, issueIns_of h]
  simp only [foldRuns_pure, State.settle]

/-- A fixed-latency instruction settles with its results, after what its runs change beside them. -/
theorem fixed_of {s : State} {is : Issue} {ins : Instr} {c : Ctl} (h : Issues s is ins c [])
    (lat : Nat) (run : State → Issue → Run → State × List Put) :
    fixed ins c lat run s = .next ((foldRuns (fun s r => run s is r) s (s.runs is c)).1.settle is c lat
      (foldRuns (fun s r => run s is r) s (s.runs is c)).2) := by
  unfold fixed
  rw [inClause_of h.focus, issueIns_of h]
  simp only [State.settle]

/-- A transfer settles what its own part leaves of the clause. -/
theorem transfer_of {s t : State} {is : Issue} {ins : Instr} {c : Ctl} (h : Issues s is ins c [])
    {body : State → Issue → List Run → Did} (hb : body s is (s.runs is c) = .go t) :
    transfer ins c body s = .next (t.settleAt is c) := by
  unfold transfer
  rw [inClause_of h.focus, issueIns_of h, hb]
  simp only [State.settleAt]
  cases hq : t.issues.find? fun (x : Issue) => x.q == is.q <;> rfl

/-- A variable-latency instruction puts its operation in flight. -/
theorem flagged_of {s : State} {is : Issue} {ins : Instr} {c : Ctl} {more : State → Issue → List RU}
    (h : Issues s is ins c (more s is)) (parts : State → Issue → List Run → State × List Part)
    (after : State → Issue → Nat → State) :
    flagged ins c more parts after s = .next ((after ((parts s is (s.runs is c)).1.startOp is ins c
      (parts s is (s.runs is c)).2 (more (parts s is (s.runs is c)).1 is)) is (parts s is (s.runs is c)).1.nextId).past is c) := by
  unfold flagged
  rw [inClause_of h.focus, issueIns_of h]

theorem flagged_per {s : State} {is : Issue} {ins : Instr} {c : Ctl} (h : Issues s is ins c [])
    (f : State → Issue → Run → List DWord) :
    flagged ins c noMore (partPer f) noAfter s =
      .next (s.inFlight is ins c ((s.runs is c).map fun r => partOf r (f s is r)) []) := by
  rw [flagged_of (more := noMore) h]
  rfl

/-- A store or a memory atomic without numbering or a full queue in its way. -/
theorem spadOp_of {s : State} {is : Issue} {ins : Instr} {c : Ctl} (h : Issues s is ins c []) (parks : Bool)
    (f : State → Issue → Run → List DWord)
    (hl : parks = true → s.lineWaits is ins ((s.runs is c).map fun r => (r, f s is r)) = [])
    (hq : accKind ins = some .load ∨ s.fullHeld is (s.runs is c) = false) :
    spadOp ins c parks f s = .next
      ((if accKind ins == some .load then s else s.feedStores is ins ((s.runs is c).map fun r => partOf r (f s is r))).inFlight
        is ins c ((s.runs is c).map fun r => partOf r (f s is r)) []) := by
  unfold spadOp
  rw [inClause_of h.focus, issueIns_of h]
  have h1 : (if parks then s.lineWaits is ins ((s.runs is c).map fun r => (r, f s is r)) else []) = [] := by
    cases parks with
    | true => simpa using hl rfl
    | false => rfl
  have h2 : (accKind ins != some .load && s.fullHeld is (s.runs is c)) = false := by
    rcases hq with hq | hq <;> simp [hq]
  simp only [h1, h2, List.isEmpty_nil, Bool.not_true, Bool.false_eq_true, if_false, List.map_map]
  rfl

/-- `Issues`, computed. -/
def issuesB (s : State) (is : Issue) (ins : Instr) (c : Ctl) (more : List RU) : Bool :=
  decide (s.issue? = some is) && check5 (s.inst is.iid) is ins == .ok &&
    is.lanes.all (fun l => !((s.ctx (s.inst is.iid).ctx).ccb.fhtrap && l.active && c.gp != 0) ||
      !(s.inst is.iid).hazard (.p (is.speaker (s.inst is.iid) c l.tid) c.gp)) &&
    is.lanes.all (fun l => !(l.active && s.guardAt is c (is.speaker (s.inst is.iid) c l.tid)) ||
      ((check6 (s.inst is.iid) is ins c more l.tid).isNone && (s.zeroName is ins l.tid).isNone &&
        (!(s.ctx (s.inst is.iid).ctx).ccb.fhtrap ||
          ((s.hazardReg (s.inst is.iid) is ins c more l.tid).isNone && (s.scaleReg (s.inst is.iid) is ins c more l.tid).isNone)))) &&
    ((is.flagOf c.fsel).map fun f => (s.inst is.iid).flagFull ((s.inst is.iid).sets is.lanes) f).getD false == false

theorem issues_of_issuesB {s : State} {is : Issue} {ins : Instr} {c : Ctl} {more : List RU}
    (h : issuesB s is ins c more = true) : Issues s is ins c more := by
  simp only [issuesB, Bool.and_eq_true, decide_eq_true_eq, beq_iff_eq, List.all_eq_true] at h
  obtain ⟨⟨⟨⟨h1, h2⟩, h5⟩, h3⟩, h4⟩ := h
  have key : ∀ l, s.acting is c l → (((check6 (s.inst is.iid) is ins c more l.tid).isNone = true ∧
      (s.zeroName is ins l.tid).isNone = true) ∧ (!(s.ctx (s.inst is.iid).ctx).ccb.fhtrap ||
          ((s.hazardReg (s.inst is.iid) is ins c more l.tid).isNone && (s.scaleReg (s.inst is.iid) is ins c more l.tid).isNone)) = true) := by
    intro l ⟨ha, hb, hc⟩
    have := h3 l ha
    simpa [hb, hc] using this
  refine ⟨h1, h2, fun l hl => ?_, fun hf l hl => ?_, fun hf l hl ha hg => ?_, fun f hf => ?_⟩
  · have := (key l hl).1
    simpa [Option.isNone_iff_eq_none] using this
  · have := (key l hl).2
    simpa [hf, Option.isNone_iff_eq_none] using this
  · simpa [hf, ha, hg] using h5 l hl
  · simpa [hf] using h4

end Sys2Proof.Machine
end

