-- ==== Sys2Proof/Laws/Memory.lean ====
section
/-! SUPPORT. Memory: what a byte reads after a write, and that every operation that writes memory keeps the canonical form. -/
namespace Sys2Proof.Machine

theorem State.byteAt_setByte_self (s : State) (pa : Nat) (b : Byte) : (s.setByte pa b).byteAt pa = b := sget_sset_self _ _ _ _

theorem State.byteAt_setByte_ne (s : State) {pa a : Nat} (b : Byte) (h : a ≠ pa) : (s.setByte pa b).byteAt a = s.byteAt a :=
  sget_sset_ne _ _ _ h

theorem State.byteAt_setBytes_below (s : State) {pa a : Nat} (bs : List Byte) (h : a < pa) :
    (s.setBytes pa bs).byteAt a = s.byteAt a := by
  induction bs generalizing s pa with
  | nil => rfl
  | cons b r ih => rw [State.setBytes, ih _ (by omega), State.byteAt_setByte_ne _ _ (by omega)]

theorem State.setByte_wf {s : State} (pa : Nat) (b : Byte) (h : Memory.wf s.mem = true) : Memory.wf (s.setByte pa b).mem = true :=
  wf_sset pa b h

theorem State.setBytes_wf {s : State} (pa : Nat) (bs : List Byte) (h : Memory.wf s.mem = true) :
    Memory.wf (s.setBytes pa bs).mem = true := by
  induction bs generalizing s pa with
  | nil => exact h
  | cons b r ih => exact ih _ (State.setByte_wf pa b h)

theorem State.setPhysByte_wf {s : State} (pa : Nat) (b : Byte) (h : Memory.wf s.mem = true) :
    Memory.wf (s.setPhysByte pa b).mem = true := by
  unfold State.setPhysByte
  split
  · exact h
  · exact State.setByte_wf pa b h

theorem State.setPhysBytes_wf {s : State} (pa : Nat) (bs : List Byte) (h : Memory.wf s.mem = true) :
    Memory.wf (s.setPhysBytes pa bs).mem = true := by
  induction bs generalizing s pa with
  | nil => exact h
  | cons b r ih => exact ih _ (State.setPhysByte_wf pa b h)

theorem wfFrom_filter {d : β} {m : SMap β} {lo : Nat} (f : Nat × β → Bool) [DecidableEq β] (h : SMap.wfFrom d lo m = true) :
    SMap.wfFrom d lo (m.filter f) = true := by
  induction m generalizing lo with
  | nil => rfl
  | cons p r ih =>
    rw [SMap.wfFrom_cons] at h
    simp only [List.filter_cons]
    split
    · rw [SMap.wfFrom_cons]; exact ⟨h.1, h.2.1, ih h.2.2⟩
    · exact SMap.wfFrom_mono (Nat.le_succ_of_le h.1) (ih h.2.2)

theorem Memory.filter_wf {m : List Host.Cell} (f : Host.Cell → Bool) (h : Memory.wf m = true) : Memory.wf (m.filter f) = true :=
  wfFrom_filter f h

theorem copyCells_wf (pick clear : Nat → Bool) (move : Nat → Nat) {m : List Host.Cell} (h : Memory.wf m = true) :
    Memory.wf (copyCells pick clear move m) = true := by
  unfold copyCells
  generalize m.filter (fun p => pick p.1) = l
  have h0 := Memory.filter_wf (fun p => !clear p.1) h
  revert h0
  generalize m.filter (fun p => !clear p.1) = k
  intro h0
  induction l generalizing k with
  | nil => exact h0
  | cons p r ih => exact ih _ (wf_sset _ _ h0)

/-! ### Sectors -/

theorem foldl_keeps {α β : Type} (P : α → Prop) (f : α → β → α) (l : List β) {a : α} (h : P a) (hf : ∀ a b, P a → P (f a b)) :
    P (l.foldl f a) := by
  induction l generalizing a with
  | nil => exact h
  | cons b r ih => exact ih (hf a b h)

/-- The memory of `s` is canonical. -/
abbrev State.Canon (s : State) : Prop := Memory.wf s.mem = true

theorem State.Canon.of_mem {s t : State} (h : s.Canon) (he : t.mem = s.mem) : t.Canon := by
  rw [State.Canon, he]; exact h

theorem State.retag_mem (s : State) (pa : Nat) : (s.retag pa).mem = s.mem := rfl

theorem State.setPoison_mem (s : State) (pa : Nat) (cause : Option Nat) : (s.setPoison pa cause).mem = s.mem := rfl

theorem State.checkCtr_mem (s : State) (pa : Nat) : (s.checkCtr pa).mem = s.mem := by
  unfold State.checkCtr
  split
  · rfl
  · refine foldl_keeps (fun t : State => t.mem = s.mem) _ _ rfl fun t k ht => ?_
    show State.mem (if _ then _ else _) = _
    split
    · exact ht
    · rw [State.setPoison_mem]; exact ht

theorem State.fillPoison_mem (s : State) (pa : Nat) : (s.fillPoison pa).2.mem = s.mem := by
  unfold State.fillPoison
  split
  · rfl
  · split
    · rfl
    · dsimp only
      split
      · exact State.checkCtr_mem _ _
      · split
        · exact State.checkCtr_mem _ _
        · rw [State.setPoison_mem]; exact State.checkCtr_mem _ _

theorem State.setCtr_wf {s : State} (pa major minor : Nat) (h : s.Canon) : (s.setCtr pa major minor).Canon :=
  foldl_keeps State.Canon State.retag _ (State.setBytes_wf _ _ h) fun _ _ h => h.of_mem (State.retag_mem _ _)

theorem State.reencrypt_wf {s : State} (pa : Nat) (h : s.Canon) : (s.reencrypt pa).Canon :=
  foldl_keeps State.Canon _ _ h fun _ _ h => (State.setCtr_wf _ _ _ (State.setBytes_wf _ _ h)).of_mem (State.retag_mem _ _)

theorem State.writeRaw_wf {s : State} (pa : Nat) (data : List Byte) (mask : BitVec 32) (h : s.Canon) :
    (s.writeRaw pa data mask).Canon := State.setBytes_wf _ _ h

/-- Writing a sector, in a world or outside, keeps the canonical form. -/
theorem State.writePlain_wf {s : State} (pa minorIn : Nat) (data : List Byte) (mask : BitVec 32) (h : s.Canon) :
    (s.writePlain pa minorIn data mask).Canon := by
  unfold State.writePlain
  extract_lets sec full s2 s3 s4 new ovf m s5
  have h3 : s3.Canon := by
    have h2 : s2.Canon := by
      simp only [s2]
      split
      · exact h
      · split
        · exact State.Canon.of_mem h (State.checkCtr_mem _ _)
        · exact State.Canon.of_mem h (State.fillPoison_mem _ _)
    simp only [s3]
    split
    · exact h2.of_mem (State.setPoison_mem _ _ _)
    · exact h2
  split
  · have h4 : s4.Canon := State.writeRaw_wf _ _ _ h3
    split
    · exact h4
    · exact h4.of_mem (State.retag_mem _ _)
  · have h5 : s5.Canon := by
      simp only [s5]; split
      · exact State.reencrypt_wf _ h3
      · exact h3
    exact (State.setCtr_wf _ _ _ (State.setBytes_wf _ _ h5)).of_mem (State.retag_mem _ _)

theorem State.scribble_wf {s : State} (pa n : Nat) (h : Memory.wf s.mem = true) : Memory.wf (s.scribble pa n).mem = true :=
  foldl_keeps (fun t : State => Memory.wf t.mem = true) _ _ h fun _ _ ht => State.writePlain_wf _ _ _ _ ht

theorem State.undoEntry_mem (s : State) (c : Nat) (f : Ctx → Ctx) : (s.modCtx c f).mem = s.mem := rfl

theorem State.undoAppend_wf {s : State} (pa va : Nat) (h : s.Canon) : (s.undoAppend pa va).Canon := by
  refine foldl_keeps State.Canon _ _ h fun t c ht => ?_
  refine State.Canon.of_mem ?_ (State.undoEntry_mem _ _ _)
  split
  · exact State.scribble_wf _ _ ht
  · exact ht

theorem State.recallPage_wf {s : State} (pa : Nat) (h : s.Canon) : (s.recallPage pa).Canon := by
  unfold State.recallPage
  extract_lets off s1
  have h1 : s1.Canon := foldl_keeps State.Canon _ _ h fun _ _ h => State.writeRaw_wf _ _ _ (State.undoAppend_wf _ _ h)
  exact h1.of_mem rfl

theorem State.writeSector_wf {s : State} (pa va minorIn : Nat) (data : List Byte) (mask : BitVec 32) (h : s.Canon) :
    (s.writeSector pa va minorIn data mask).Canon := by
  unfold State.writeSector
  refine State.writePlain_wf _ _ _ _ ?_
  have h1 : State.Canon (if s.overflows (pa / 32 * 32) minorIn then s.recallPage (pa / 32 * 32) else s) := by
    split
    · exact State.recallPage_wf _ h
    · exact h
  split
  · exact h1
  · exact State.undoAppend_wf _ _ h1

theorem State.accSpoil_mem (s : State) (core tile : Nat) : (s.accSpoil core tile).mem = s.mem := by
  unfold State.accSpoil; split <;> rfl

theorem State.accTouch_mem (s : State) (pa n : Nat) : (s.accTouch pa n).mem = s.mem := by
  unfold State.accTouch
  split
  · exact foldl_keeps (fun t : State => t.mem = s.mem) _ _ rfl fun _ _ h => by rw [State.accSpoil_mem]; exact h
  · rfl

theorem State.winTouch_mem (s : State) (pa n : Nat) : (s.winTouch pa n).mem = s.mem := by
  unfold State.winTouch
  dsimp only
  split
  · exact State.accTouch_mem s pa n
  · exact State.accTouch_mem s pa n

/-- Bytes at a physical address: a window of a core, or sectors of memory. -/
theorem State.setPaBytes_wf {s : State} (pa : Nat) (bs : List Byte) (h : Memory.wf s.mem = true) :
    Memory.wf (s.setPaBytes pa bs).mem = true := by
  refine foldl_keeps (fun t : State => Memory.wf t.mem = true) _ _ h fun t p ht => ?_
  unfold State.putPiece
  split
  · have h1 : Memory.wf ((t.winTouch p.1 ((bs.drop (p.1 - pa)).take p.2).length).setPhysBytes p.1
        ((bs.drop (p.1 - pa)).take p.2)).mem = true :=
      State.setPhysBytes_wf _ _ (by rw [State.winTouch_mem]; exact ht)
    split
    · exact h1
    · exact h1
  · exact State.writeSector_wf _ _ _ _ _ ht

end Sys2Proof.Machine
end

