-- ==== Sys2Proof/Laws/Operations.lean ====
section
/-! SUPPORT. What the shared shapes of the meanings do once their instruction issues: the fixed-latency floating-point shape, operations computed at
issue, operations with one part for each home warp, stores, ordering operations; and decisions outside record and replay. -/
namespace Sys2Proof.Machine

/-- The fixed-latency floating-point shape: every run's value and flags. -/
theorem fpFixed_of {s : State} {is : Issue} {ins : Instr} {c : Ctl} (h : Issues s is ins c []) (lat d : Nat) (run) :
   fpFixed ins c lat d run s = .next
        (let z := foldRuns (fun s r => ((run s is r).1,
            (run s is r).1.dst is r false d (run s is r).2.1 ++ raises r (run s is r).2.2)) s (s.runs is c)
         z.1.settle is c lat z.2) := by
  unfold fpFixed
  rw [fixed_of h]

/-- Operations whose value is computed at issue. -/
theorem computeV_of {s : State} {is : Issue} {ins : Instr} {c : Ctl} (h : Issues s is ins c []) (run) :
    computeV ins c run s = .next
      (let z := partFold (fun s is r => ((run s is r).1, [(run s is r).2.1, (run s is r).2.2.setWidth 64])) s is (s.runs is c)
       z.1.inFlight is ins c z.2 []) := by
  unfold computeV
  rw [flagged_of (more := noMore) h]; rfl

/-- Operations whose parts do not depend on the issue of the others. -/
theorem flagged_hw {s : State} {is : Issue} {ins : Instr} {c : Ctl} (h : Issues s is ins c []) (parts) :
    flagged ins c noMore parts noAfter s =
      .next ((parts s is (s.runs is c)).1.inFlight is ins c (parts s is (s.runs is c)).2 []) := by
  rw [flagged_of (more := noMore) h]; rfl

/-- Stores, memory atomics and PREPAIR, when nothing holds them at issue. -/
theorem storeOp_of {s : State} {is : Issue} {ins : Instr} {c : Ctl} (h : Issues s is ins c []) (b : Bool)
    (f : State → Issue → Run → DWord × List DWord) (hs : s.storeHeld is (s.runs is c) (numWords ins) = false) :
    storeOp ins c b f s = .next
      (let z := (s.runs is c).foldl (fun (acc : List Part × State) r =>
          let w := acc.2.number is ins r.t.tid r.t.lane (f acc.2 is r).1 (f acc.2 is r).2 b
          (acc.1 ++ [w.1], w.2)) ([], s)
       (z.2.feedStores is ins z.1).inFlight is ins c z.1 []) := by
  unfold storeOp
  rw [inClause_of h.focus, issueIns_of h]
  simp only [hs, Bool.false_eq_true, if_false]
  rfl

/-- An ordering operation that no policy limits; one that is demoted to tenant scope; one that traps. -/
theorem orderOp_free {s : State} {is : Issue} {ins : Instr} {c : Ctl} {sc : Scope} (h : Issues s is ins c []) :
   (sc ≠ .sy ∨ s.limit is ((s.runs is c).map (·.t.tid)) 8 (ins.opc.getD 0) = .free) →
   orderOp ins c sc s = 
     let i := s.inst is.iid
     let rs := s.runs is c
      let wide := isRel ins && decide (4 ≤ sc.code)
      let parts : List Part := rs.map fun r =>
        let n : Nat := if wide && i.inPair r.t.tid then (i.th r.t.tid).relN + 1 else 0
        { tid := r.t.tid, lane := r.t.lane, args := [BitVec.ofNat 64 sc.code, BitVec.ofNat 64 n, 0], done := 0, arrived := false }
      let s := if !wide then s else s.modInst is.iid fun i => rs.foldl (fun i r =>
        if i.inPair r.t.tid then i.modTh r.t.tid (fun t => { t with relN := t.relN + 1 }) else i) i
      .next ((s.startOp is ins c parts []).past is c) := by
  intro hh
  unfold orderOp
  rw [inClause_of h.focus, issueIns_of h]
  by_cases k : (sc == Scope.sy) = true
  · have : sc = .sy := by simpa using k
    have hl := hh.resolve_left (by simp [this])
    simp only [k, if_true, hl]
  · simp only [k, if_false, Bool.false_eq_true]

theorem orderOp_demoted {s t : State} {is : Issue} {ins : Instr} {c : Ctl} (h : Issues s is ins c []) :
   (s.limit is ((s.runs is c).map (·.t.tid)) 8 (ins.opc.getD 0) = .demoted t) →
   orderOp ins c .sy s = 
     let i := t.inst is.iid
     let rs := s.runs is c
      let wide := isRel ins 
      let parts : List Part := rs.map fun r =>
        let n : Nat := if wide && i.inPair r.t.tid then (i.th r.t.tid).relN + 1 else 0
        { tid := r.t.tid, lane := r.t.lane, args := [BitVec.ofNat 64 Scope.tn.code, BitVec.ofNat 64 n, 0], done := 0, arrived := false }
      let s := if !wide then t else t.modInst is.iid fun i => rs.foldl (fun i r =>
        if i.inPair r.t.tid then i.modTh r.t.tid (fun t => { t with relN := t.relN + 1 }) else i) i
      .next ((s.startOp is ins c parts []).past is c) := by
  intro hl
  unfold orderOp
  rw [inClause_of h.focus, issueIns_of h]
  have : (decide (4 ≤ Scope.tn.code)) = true := by decide
  simp only [beq_self_eq_true, if_true, hl, this, Bool.and_true]

theorem orderOp_trapped {s t : State} {is : Issue} {ins : Instr} {c : Ctl} (h : Issues s is ins c []) :
   (s.limit is ((s.runs is c).map (·.t.tid)) 8 (ins.opc.getD 0) = .trapped t) →
   orderOp ins c .sy s = .next t := by
  intro hl
  unfold orderOp
  rw [inClause_of h.focus, issueIns_of h]
  simp only [beq_self_eq_true, if_true, hl]

/-- A decision of a context that is neither recorded nor replayed writes and waits for nothing. -/
theorem State.gate_plain {s : State} {c : Nat} (h : s.plain c) (src typ p) : s.gate c src typ p = (true, s) := by
  obtain ⟨h1, h2⟩ := h
  simp [State.gate, h1, h2]

/-- A write of the monitor while no context has logged anything always fits (R289). -/
theorem State.undoFits_of_empty {s : State} (t : State) (h : ∀ c, (s.ctx c).undo = []) : s.undoFits t = .inr t := by
  simp [State.undoFits, h]

/-- Rows for a home warp that grows are found where the lowest are free, whatever place the core likes (R156). -/
theorem State.growBase_isSome {s : State} {iid hw n : Nat}
    (hm : s.regionBytes (s.inst iid).core iid hw + 128 * n ≤ Config.regionMax) (hr : (s.ctx (s.inst iid).ctx).ccb.rplB = false)
    (hf : rowsFree (s.rowsHeld (s.inst iid).core iid hw) 0 n = true) : (s.growBase iid hw n).isSome := by
  simp only [State.growBase, if_neg (Nat.not_lt.mpr hm), hr, Bool.false_eq_true, if_false, List.find?_isSome, List.mem_insertionSort]
  exact ⟨0, by simp, hf⟩

/-- A request that fits is granted (R156). -/
theorem State.growAsk_of_base {s : State} {iid hw g b : Nat} {wait : Bool} (hn : ((s.inst iid).hw hw).count + 8 * g ≤ 256)
    (hg : ((s.inst iid).hw hw).grow = none) (hl : s.growLogged iid hw ≠ some none)
    (hb : s.growBase iid hw (((s.inst iid).hw hw).count + 8 * g) = some b) :
    s.growAsk iid hw g wait = .grant b (((s.inst iid).hw hw).count + 8 * g) := by
  simp [State.growAsk, Nat.not_lt.mpr hn, hg, hl, hb]

/-- The one request of a core's one instance that fits (R127). -/
theorem State.growFits_single {s : State} {core iid hw b : Nat} {i : Inst} {w : HWarp} {g : Grow}
    (hi : (s.insts.filter fun p => p.2.kind == .stage && p.2.core == core) = [(iid, i)]) (hh : i.hws = [(hw, w)]) (hg : w.grow = some g)
    (hb : s.growBase iid hw (w.count + 8 * g.granules) = some b) :
    s.growFits core = [(iid, hw, g, .grant b (w.count + 8 * g.granules))] := by
  simp [State.growFits, hi, hh, hg, hb]

/-- The rows that a growth outside a replay takes are free in its core's bank (R156). -/
theorem State.growBase_free {s : State} {iid hw n b : Nat} (h : s.growBase iid hw n = some b) :
    rowsFree (s.rowsHeld (s.inst iid).core iid hw) b n = true := by
  simp only [State.growBase] at h
  split at h
  · cases h
  · split at h
    · exact (Option.filter_eq_some_iff.mp h).2
    · exact List.find?_some (p := fun b => rowsFree (s.rowsHeld (s.inst iid).core iid hw) b n) h

end Sys2Proof.Machine
end

