-- ==== Sys2Proof/Laws/Ordering.lean ====
section
/-! SUPPORT. What the relations of the ordering model say: membership in a relation given by a function, in a union, and in a closure,
which contains its relation and is transitive. -/
namespace Sys2Proof.Machine

theorem foldl_bits (f : Nat → Bool) (l : List Nat) (acc b : Nat) :
    (l.foldl (fun acc b => if f b then acc ||| 2 ^ b else acc) acc).testBit b = (acc.testBit b || (decide (b ∈ l) && f b)) := by
  induction l generalizing acc with
  | nil => simp
  | cons x xs ih =>
    simp only [List.foldl_cons, ih, List.mem_cons]
    by_cases hx : f x = true
    · simp only [hx, if_true, Nat.testBit_or, Nat.testBit_two_pow]
      by_cases h : x = b
      · subst h; simp [hx]
      · have : ¬ b = x := fun e => h e.symm
        simp [h, this]
    · simp only [hx]
      by_cases h : x = b
      · subst h; simp [hx]
      · have : ¬ b = x := fun e => h e.symm
        simp [this]

theorem ERel.has_of (n : Nat) (f : Nat → Nat → Bool) (a b : Nat) :
    (ERel.of n f).has a b = (decide (a < n) && decide (b < n) && f a b) := by
  unfold ERel.has ERel.of
  by_cases h : a < n
  · simp [List.getD_eq_getElem?_getD, h, foldl_bits]
  · simp [List.getD_eq_getElem?_getD, h]

@[simp] theorem ERel.length_of (n : Nat) (f : Nat → Nat → Bool) : (ERel.of n f).length = n := by simp [ERel.of]

theorem ERel.length_or (m k : ERel) (h : m.length = k.length) : (m.or k).length = m.length := by simp [ERel.or, h]

theorem ERel.has_or (m k : ERel) (h : m.length = k.length) (a b : Nat) : (m.or k).has a b = (m.has a b || k.has a b) := by
  unfold ERel.has ERel.or
  by_cases ha : a < m.length
  · have hk : a < k.length := h ▸ ha
    simp [List.getD_eq_getElem?_getD, ha, hk]
  · simp [List.getD_eq_getElem?_getD, List.getElem?_zipWith, List.getElem?_eq_none (Nat.le_of_not_lt ha)]
    rw [List.getElem?_eq_none (by omega)]; simp

theorem ERel.lt_of_has (m : ERel) {a b : Nat} (h : m.has a b = true) : a < m.length := by
  unfold ERel.has at h
  by_contra hc
  simp [List.getD_eq_getElem?_getD, List.getElem?_eq_none (Nat.le_of_not_lt hc)] at h

/-- One round of the closure: paths through k as well. -/
def ERel.through (m : ERel) (k : Nat) : ERel := m.map fun row => if row.testBit k then row ||| m.getD k 0 else row

theorem ERel.has_through (m : ERel) (k a b : Nat) : (m.through k).has a b = (m.has a b || (m.has a k && m.has k b)) := by
  unfold ERel.has ERel.through
  by_cases ha : a < m.length
  · simp only [List.getD_eq_getElem?_getD, List.getElem?_map, List.getElem?_eq_getElem ha, Option.map_some, Option.getD_some]
    split <;> rename_i hh <;> simp [hh]
  · simp [List.getD_eq_getElem?_getD, List.getElem?_eq_none (Nat.le_of_not_lt ha)]

theorem ERel.closure_rounds (m : ERel) (t : Nat) :
    ((List.range t).foldl ERel.through m).length = m.length ∧
    (∀ a b, m.has a b = true → ((List.range t).foldl ERel.through m).has a b = true) ∧
    (∀ a b k, k < t → ((List.range t).foldl ERel.through m).has a k = true → ((List.range t).foldl ERel.through m).has k b = true →
      ((List.range t).foldl ERel.through m).has a b = true) := by
  induction t with
  | zero => simp
  | succ t ih =>
    simp only [List.range_succ, List.foldl_append, List.foldl_cons, List.foldl_nil] at ih ⊢
    obtain ⟨h1, h2, h3⟩ := ih
    refine ⟨by simp [ERel.through, h1], fun a b h => by rw [ERel.has_through]; simp [h2 a b h], fun a b k hk ha hb => ?_⟩
    rw [ERel.has_through] at ha hb ⊢
    simp only [Bool.or_eq_true, Bool.and_eq_true] at ha hb ⊢
    rcases Nat.lt_succ_iff_lt_or_eq.mp hk with hlt | rfl
    · rcases ha with ha | ⟨ha, ha'⟩ <;> rcases hb with hb | ⟨hb, hb'⟩
      · exact .inl (h3 a b k hlt ha hb)
      · exact .inr ⟨h3 a t k hlt ha hb, hb'⟩
      · exact .inr ⟨ha, h3 t b k hlt ha' hb⟩
      · exact .inr ⟨ha, hb'⟩
    · rcases ha with ha | ⟨ha, -⟩ <;> rcases hb with hb | ⟨-, hb⟩ <;> exact .inr ⟨ha, hb⟩

@[simp] theorem ERel.length_closure (m : ERel) : m.closure.length = m.length := (ERel.closure_rounds m m.length).1

theorem ERel.closure_has (m : ERel) {a b : Nat} (h : m.has a b = true) : m.closure.has a b = true :=
  (ERel.closure_rounds m m.length).2.1 a b h

theorem ERel.closure_trans (m : ERel) {a b c : Nat} (h : m.closure.has a b = true) (h' : m.closure.has b c = true) :
    m.closure.has a c = true :=
  (ERel.closure_rounds m m.length).2.2 a c b (by have := ERel.lt_of_has _ h'; rwa [ERel.length_closure] at this) h h'

theorem ERel.not_has_of_acyclic {m : ERel} (h : m.acyclic = true) (a : Nat) : m.closure.has a a = false := by
  unfold ERel.acyclic at h
  by_cases ha : a < m.length
  · simpa using List.all_eq_true.mp h a (List.mem_range.mpr ha)
  · by_contra hc
    have hc : m.closure.has a a = true := by simpa using hc
    have := ERel.lt_of_has _ hc; rw [ERel.length_closure] at this; exact ha this

end Sys2Proof.Machine
end

