-- ==== Sys2Proof/Laws/PerInstr.lean ====
section
/-!
SUPPORT. The family `Form`, one lemma per instruction: the words of an encodable instruction carry its opcode and its
control fields (R28), and a row with no words has no control fields.
-/
namespace Sys2Proof.Laws.Form

/-- R28: the control fields of `r` are those of `c`. -/
def Same (c : Ctl) (r : Raw) : Prop :=
  r.len = c.len ∧ r.gp = c.gp ∧ r.gn = c.gn ∧ r.once = c.once ∧ r.fsel = c.fsel.code ∧ r.dly = c.dly


/-- The words carry the opcode and the control fields, and there are words exactly where there are control fields. -/
def Statement (i : Instr) : Prop :=
  match i.raw with
  | some r => i.opc = some r.opc ∧ ∃ c, i.ctl = some c ∧ Same c r
  | none => i.opc = none ∧ i.ctl = none

theorem iadd (c) (m) (o) : Statement (.iadd c m o) := by rcases o with ⟨_, _, _ | _ | _ | _⟩ <;> exact ⟨rfl, _, rfl, rfl, rfl, rfl, rfl, rfl, rfl⟩
theorem isub (c) (m) (o) : Statement (.isub c m o) := by rcases o with ⟨_, _, _ | _ | _ | _⟩ <;> exact ⟨rfl, _, rfl, rfl, rfl, rfl, rfl, rfl, rfl⟩
theorem imul (c) (m) (o) : Statement (.imul c m o) := by rcases o with ⟨_, _, _ | _ | _ | _⟩ <;> exact ⟨rfl, _, rfl, rfl, rfl, rfl, rfl, rfl, rfl⟩
theorem imulhi (c) (m) (o) : Statement (.imulhi c m o) := by rcases o with ⟨_, _, _ | _ | _ | _⟩ <;> exact ⟨rfl, _, rfl, rfl, rfl, rfl, rfl, rfl, rfl⟩
theorem imad (c) (m) (o) : Statement (.imad c m o) := by rcases o with ⟨_, _, _ | _ | _ | _, _⟩ <;> exact ⟨rfl, _, rfl, rfl, rfl, rfl, rfl, rfl, rfl⟩
theorem imin (c) (m) (o) : Statement (.imin c m o) := by rcases o with ⟨_, _, _ | _ | _ | _⟩ <;> exact ⟨rfl, _, rfl, rfl, rfl, rfl, rfl, rfl, rfl⟩
theorem imax (c) (m) (o) : Statement (.imax c m o) := by rcases o with ⟨_, _, _ | _ | _ | _⟩ <;> exact ⟨rfl, _, rfl, rfl, rfl, rfl, rfl, rfl, rfl⟩
theorem iclamp (c) (m) (o) : Statement (.iclamp c m o) := by rcases o with ⟨_, _, _ | _ | _ | _, _⟩ <;> exact ⟨rfl, _, rfl, rfl, rfl, rfl, rfl, rfl, rfl⟩
theorem iabs (c) (m) (o) : Statement (.iabs c m o) := ⟨rfl, _, rfl, rfl, rfl, rfl, rfl, rfl, rfl⟩
theorem ineg (c) (m) (o) : Statement (.ineg c m o) := ⟨rfl, _, rfl, rfl, rfl, rfl, rfl, rfl, rfl⟩
theorem isad (c) (m) (o) : Statement (.isad c m o) := by rcases o with ⟨_, _, _ | _ | _ | _, _⟩ <;> exact ⟨rfl, _, rfl, rfl, rfl, rfl, rfl, rfl, rfl⟩
theorem lea (c) (m) (o) : Statement (.lea c m o) := by rcases o with ⟨_, _, _ | _ | _ | _⟩ <;> exact ⟨rfl, _, rfl, rfl, rfl, rfl, rfl, rfl, rfl⟩
theorem idiv (c) (m) (o) : Statement (.idiv c m o) := by rcases o with ⟨_, _, _ | _ | _ | _⟩ <;> exact ⟨rfl, _, rfl, rfl, rfl, rfl, rfl, rfl, rfl⟩
theorem irem (c) (m) (o) : Statement (.irem c m o) := by rcases o with ⟨_, _, _ | _ | _ | _⟩ <;> exact ⟨rfl, _, rfl, rfl, rfl, rfl, rfl, rfl, rfl⟩
theorem and (c) (ty) (o) : Statement (.and c ty o) := by rcases o with ⟨_, _, _ | _ | _ | _⟩ <;> exact ⟨rfl, _, rfl, rfl, rfl, rfl, rfl, rfl, rfl⟩
theorem or (c) (ty) (o) : Statement (.or c ty o) := by rcases o with ⟨_, _, _ | _ | _ | _⟩ <;> exact ⟨rfl, _, rfl, rfl, rfl, rfl, rfl, rfl, rfl⟩
theorem xor (c) (ty) (o) : Statement (.xor c ty o) := by rcases o with ⟨_, _, _ | _ | _ | _⟩ <;> exact ⟨rfl, _, rfl, rfl, rfl, rfl, rfl, rfl, rfl⟩
theorem not (c) (ty) (o) : Statement (.not c ty o) := ⟨rfl, _, rfl, rfl, rfl, rfl, rfl, rfl, rfl⟩
theorem andn (c) (ty) (o) : Statement (.andn c ty o) := by rcases o with ⟨_, _, _ | _ | _ | _⟩ <;> exact ⟨rfl, _, rfl, rfl, rfl, rfl, rfl, rfl, rfl⟩
theorem logic3 (c) (ty) (o) (tbl) : Statement (.logic3 c ty o tbl) := by rcases o with ⟨_, _, _ | _ | _ | _, _⟩ <;> exact ⟨rfl, _, rfl, rfl, rfl, rfl, rfl, rfl, rfl⟩
theorem shl (c) (ty) (o) : Statement (.shl c ty o) := by rcases o with ⟨_, _, _ | _ | _ | _⟩ <;> exact ⟨rfl, _, rfl, rfl, rfl, rfl, rfl, rfl, rfl⟩
theorem shr (c) (ty) (o) : Statement (.shr c ty o) := by rcases o with ⟨_, _, _ | _ | _ | _⟩ <;> exact ⟨rfl, _, rfl, rfl, rfl, rfl, rfl, rfl, rfl⟩
theorem sar (c) (ty) (o) : Statement (.sar c ty o) := by rcases o with ⟨_, _, _ | _ | _ | _⟩ <;> exact ⟨rfl, _, rfl, rfl, rfl, rfl, rfl, rfl, rfl⟩
theorem rotl (c) (ty) (o) : Statement (.rotl c ty o) := by rcases o with ⟨_, _, _ | _ | _ | _⟩ <;> exact ⟨rfl, _, rfl, rfl, rfl, rfl, rfl, rfl, rfl⟩
theorem rotr (c) (ty) (o) : Statement (.rotr c ty o) := by rcases o with ⟨_, _, _ | _ | _ | _⟩ <;> exact ⟨rfl, _, rfl, rfl, rfl, rfl, rfl, rfl, rfl⟩
theorem shf (c) (r) (o) : Statement (.shf c r o) := by rcases o with ⟨_, _, _ | _ | _ | _, _⟩ <;> exact ⟨rfl, _, rfl, rfl, rfl, rfl, rfl, rfl, rfl⟩
theorem popc (c) (ty) (o) : Statement (.popc c ty o) := ⟨rfl, _, rfl, rfl, rfl, rfl, rfl, rfl, rfl⟩
theorem clz (c) (ty) (o) : Statement (.clz c ty o) := ⟨rfl, _, rfl, rfl, rfl, rfl, rfl, rfl, rfl⟩
theorem ctz (c) (ty) (o) : Statement (.ctz c ty o) := ⟨rfl, _, rfl, rfl, rfl, rfl, rfl, rfl, rfl⟩
theorem brev (c) (ty) (o) : Statement (.brev c ty o) := ⟨rfl, _, rfl, rfl, rfl, rfl, rfl, rfl, rfl⟩
theorem bfx (c) (ty) (o) : Statement (.bfx c ty o) := by rcases o with ⟨_, _, _ | _ | _ | _, _⟩ <;> exact ⟨rfl, _, rfl, rfl, rfl, rfl, rfl, rfl, rfl⟩
theorem bfi (c) (o) : Statement (.bfi c o) := by rcases o with ⟨_, _, _ | _ | _ | _, _⟩ <;> exact ⟨rfl, _, rfl, rfl, rfl, rfl, rfl, rfl, rfl⟩
theorem bperm (c) (o) : Statement (.bperm c o) := by rcases o with ⟨_, _, _ | _ | _ | _⟩ <;> exact ⟨rfl, _, rfl, rfl, rfl, rfl, rfl, rfl, rfl⟩
theorem fadd (c) (m) (o) : Statement (.fadd c m o) := by rcases o with ⟨_, _, _ | _ | _ | _⟩ <;> exact ⟨rfl, _, rfl, rfl, rfl, rfl, rfl, rfl, rfl⟩
theorem fsub (c) (m) (o) : Statement (.fsub c m o) := by rcases o with ⟨_, _, _ | _ | _ | _⟩ <;> exact ⟨rfl, _, rfl, rfl, rfl, rfl, rfl, rfl, rfl⟩
theorem fmul (c) (m) (o) : Statement (.fmul c m o) := by rcases o with ⟨_, _, _ | _ | _ | _⟩ <;> exact ⟨rfl, _, rfl, rfl, rfl, rfl, rfl, rfl, rfl⟩
theorem ffma (c) (m) (o) : Statement (.ffma c m o) := by rcases o with ⟨_, _, _ | _ | _ | _, _⟩ <;> exact ⟨rfl, _, rfl, rfl, rfl, rfl, rfl, rfl, rfl⟩
theorem fmin (c) (m) (o) : Statement (.fmin c m o) := by rcases o with ⟨_, _, _ | _ | _ | _⟩ <;> exact ⟨rfl, _, rfl, rfl, rfl, rfl, rfl, rfl, rfl⟩
theorem fmax (c) (m) (o) : Statement (.fmax c m o) := by rcases o with ⟨_, _, _ | _ | _ | _⟩ <;> exact ⟨rfl, _, rfl, rfl, rfl, rfl, rfl, rfl, rfl⟩
theorem fclamp (c) (m) (o) : Statement (.fclamp c m o) := by rcases o with ⟨_, _, _ | _ | _ | _, _⟩ <;> exact ⟨rfl, _, rfl, rfl, rfl, rfl, rfl, rfl, rfl⟩
theorem fabs (c) (m) (o) : Statement (.fabs c m o) := ⟨rfl, _, rfl, rfl, rfl, rfl, rfl, rfl, rfl⟩
theorem fneg (c) (m) (o) : Statement (.fneg c m o) := ⟨rfl, _, rfl, rfl, rfl, rfl, rfl, rfl, rfl⟩
theorem fround (c) (m) (o) : Statement (.fround c m o) := ⟨rfl, _, rfl, rfl, rfl, rfl, rfl, rfl, rfl⟩
theorem fdiv (c) (m) (o) : Statement (.fdiv c m o) := by rcases o with ⟨_, _, _ | _ | _ | _⟩ <;> exact ⟨rfl, _, rfl, rfl, rfl, rfl, rfl, rfl, rfl⟩
theorem fsqrt (c) (m) (o) : Statement (.fsqrt c m o) := ⟨rfl, _, rfl, rfl, rfl, rfl, rfl, rfl, rfl⟩
theorem frcp (c) (m) (o) : Statement (.frcp c m o) := ⟨rfl, _, rfl, rfl, rfl, rfl, rfl, rfl, rfl⟩
theorem frsq (c) (m) (o) : Statement (.frsq c m o) := ⟨rfl, _, rfl, rfl, rfl, rfl, rfl, rfl, rfl⟩
theorem fexp2 (c) (m) (o) : Statement (.fexp2 c m o) := ⟨rfl, _, rfl, rfl, rfl, rfl, rfl, rfl, rfl⟩
theorem flog2 (c) (m) (o) : Statement (.flog2 c m o) := ⟨rfl, _, rfl, rfl, rfl, rfl, rfl, rfl, rfl⟩
theorem fsin (c) (m) (o) : Statement (.fsin c m o) := ⟨rfl, _, rfl, rfl, rfl, rfl, rfl, rfl, rfl⟩
theorem fcos (c) (m) (o) : Statement (.fcos c m o) := ⟨rfl, _, rfl, rfl, rfl, rfl, rfl, rfl, rfl⟩
theorem ftanh (c) (m) (o) : Statement (.ftanh c m o) := ⟨rfl, _, rfl, rfl, rfl, rfl, rfl, rfl, rfl⟩
theorem hadd (c) (m) (o) : Statement (.hadd c m o) := by rcases o with ⟨_, _, _ | _ | _ | _⟩ <;> exact ⟨rfl, _, rfl, rfl, rfl, rfl, rfl, rfl, rfl⟩
theorem hsub (c) (m) (o) : Statement (.hsub c m o) := by rcases o with ⟨_, _, _ | _ | _ | _⟩ <;> exact ⟨rfl, _, rfl, rfl, rfl, rfl, rfl, rfl, rfl⟩
theorem hmul (c) (m) (o) : Statement (.hmul c m o) := by rcases o with ⟨_, _, _ | _ | _ | _⟩ <;> exact ⟨rfl, _, rfl, rfl, rfl, rfl, rfl, rfl, rfl⟩
theorem hfma (c) (m) (o) : Statement (.hfma c m o) := by rcases o with ⟨_, _, _ | _ | _ | _, _⟩ <;> exact ⟨rfl, _, rfl, rfl, rfl, rfl, rfl, rfl, rfl⟩
theorem hmin (c) (m) (o) : Statement (.hmin c m o) := by rcases o with ⟨_, _, _ | _ | _ | _⟩ <;> exact ⟨rfl, _, rfl, rfl, rfl, rfl, rfl, rfl, rfl⟩
theorem hmax (c) (m) (o) : Statement (.hmax c m o) := by rcases o with ⟨_, _, _ | _ | _ | _⟩ <;> exact ⟨rfl, _, rfl, rfl, rfl, rfl, rfl, rfl, rfl⟩
theorem hclamp (c) (m) (o) : Statement (.hclamp c m o) := by rcases o with ⟨_, _, _ | _ | _ | _, _⟩ <;> exact ⟨rfl, _, rfl, rfl, rfl, rfl, rfl, rfl, rfl⟩
theorem habs (c) (m) (o) : Statement (.habs c m o) := ⟨rfl, _, rfl, rfl, rfl, rfl, rfl, rfl, rfl⟩
theorem hneg (c) (m) (o) : Statement (.hneg c m o) := ⟨rfl, _, rfl, rfl, rfl, rfl, rfl, rfl, rfl⟩
theorem hdot2 (c) (m) (o) : Statement (.hdot2 c m o) := by rcases o with ⟨_, _, _ | _ | _ | _, _⟩ <;> exact ⟨rfl, _, rfl, rfl, rfl, rfl, rfl, rfl, rfl⟩
theorem hexp2 (c) (m) (o) : Statement (.hexp2 c m o) := ⟨rfl, _, rfl, rfl, rfl, rfl, rfl, rfl, rfl⟩
theorem hrcp (c) (m) (o) : Statement (.hrcp c m o) := ⟨rfl, _, rfl, rfl, rfl, rfl, rfl, rfl, rfl⟩
theorem cvtf (c) (f) (o) : Statement (.cvtf c f o) := ⟨rfl, _, rfl, rfl, rfl, rfl, rfl, rfl, rfl⟩
theorem cvtfi (c) (f) (o) : Statement (.cvtfi c f o) := ⟨rfl, _, rfl, rfl, rfl, rfl, rfl, rfl, rfl⟩
theorem cvtif (c) (f) (o) : Statement (.cvtif c f o) := ⟨rfl, _, rfl, rfl, rfl, rfl, rfl, rfl, rfl⟩
theorem cvtii (c) (f) (o) : Statement (.cvtii c f o) := ⟨rfl, _, rfl, rfl, rfl, rfl, rfl, rfl, rfl⟩
theorem pack2 (c) (f) (o) : Statement (.pack2 c f o) := by rcases o with ⟨_, _, _ | _ | _ | _⟩ <;> exact ⟨rfl, _, rfl, rfl, rfl, rfl, rfl, rfl, rfl⟩
theorem unpack (c) (f) (o) : Statement (.unpack c f o) := ⟨rfl, _, rfl, rfl, rfl, rfl, rfl, rfl, rfl⟩
theorem cvtblk (c) (i4o) (rnd) (o) : Statement (.cvtblk c i4o rnd o) := by rcases o with ⟨_, _, _ | _ | _ | _, _⟩ <;> exact ⟨rfl, _, rfl, rfl, rfl, rfl, rfl, rfl, rfl⟩
theorem icmp (c) (ty) (cnd) (f) : Statement (.icmp c ty cnd f) := by rcases f with ⟨_, _, _, _, _ | _ | _ | _⟩ <;> exact ⟨rfl, _, rfl, rfl, rfl, rfl, rfl, rfl, rfl⟩
theorem fcmp (c) (ftz) (cnd) (f) : Statement (.fcmp c ftz cnd f) := by rcases f with ⟨_, _, _, _, _ | _ | _ | _⟩ <;> exact ⟨rfl, _, rfl, rfl, rfl, rfl, rfl, rfl, rfl⟩
theorem hcmp (c) (ty) (ftz) (cnd) (h) (f) : Statement (.hcmp c ty ftz cnd h f) := by rcases f with ⟨_, _, _, _, _ | _ | _ | _⟩ <;> exact ⟨rfl, _, rfl, rfl, rfl, rfl, rfl, rfl, rfl⟩
theorem plogic (c) (op) (pd) (pa) (na) (pb) (nb) : Statement (.plogic c op pd pa na pb nb) := ⟨rfl, _, rfl, rfl, rfl, rfl, rfl, rfl, rfl⟩
theorem fclass (c) (ty) (f) : Statement (.fclass c ty f) := by rcases f with ⟨_, _, _, _, _ | _ | _ | _⟩ <;> exact ⟨rfl, _, rfl, rfl, rfl, rfl, rfl, rfl, rfl⟩
theorem psetv (c) (a) (sel) : Statement (.psetv c a sel) := ⟨rfl, _, rfl, rfl, rfl, rfl, rfl, rfl, rfl⟩
theorem pgetv (c) (d) (sel) : Statement (.pgetv c d sel) := ⟨rfl, _, rfl, rfl, rfl, rfl, rfl, rfl, rfl⟩
theorem mov (c) (d) (b) : Statement (.mov c d b) := by cases b <;> exact ⟨rfl, _, rfl, rfl, rfl, rfl, rfl, rfl, rfl⟩
theorem sel (c) (o) (ps) : Statement (.sel c o ps) := by rcases o with ⟨_, _, _ | _ | _ | _⟩ <;> exact ⟨rfl, _, rfl, rfl, rfl, rfl, rfl, rfl, rfl⟩
theorem movsr (c) (d) (sr) : Statement (.movsr c d sr) := ⟨rfl, _, rfl, rfl, rfl, rfl, rfl, rfl, rfl⟩
theorem movsrW (c) (sr) (b) : Statement (.movsrW c sr b) := by cases b <;> exact ⟨rfl, _, rfl, rfl, rfl, rfl, rfl, rfl, rfl⟩
theorem perm (c) (o) : Statement (.perm c o) := by rcases o with ⟨_, _, _ | _ | _ | _⟩ <;> exact ⟨rfl, _, rfl, rfl, rfl, rfl, rfl, rfl, rfl⟩
theorem ballot (c) (d) (ps) : Statement (.ballot c d ps) := ⟨rfl, _, rfl, rfl, rfl, rfl, rfl, rfl, rfl⟩
theorem vote (c) (m) (pd) (ps) : Statement (.vote c m pd ps) := ⟨rfl, _, rfl, rfl, rfl, rfl, rfl, rfl, rfl⟩
theorem laneget (c) (o) : Statement (.laneget c o) := by rcases o with ⟨_, _, _ | _ | _ | _⟩ <;> exact ⟨rfl, _, rfl, rfl, rfl, rfl, rfl, rfl, rfl⟩
theorem nop (c) : Statement (.nop c) := ⟨rfl, _, rfl, rfl, rfl, rfl, rfl, rfl, rfl⟩
theorem bra (c) (off) : Statement (.bra c off) := ⟨rfl, _, rfl, rfl, rfl, rfl, rfl, rfl, rfl⟩
theorem jmp (c) (a) : Statement (.jmp c a) := ⟨rfl, _, rfl, rfl, rfl, rfl, rfl, rfl, rfl⟩
theorem call (c) (d) (off) : Statement (.call c d off) := ⟨rfl, _, rfl, rfl, rfl, rfl, rfl, rfl, rfl⟩
theorem calli (c) (o) : Statement (.calli c o) := ⟨rfl, _, rfl, rfl, rfl, rfl, rfl, rfl, rfl⟩
theorem ret (c) (a) : Statement (.ret c a) := ⟨rfl, _, rfl, rfl, rfl, rfl, rfl, rfl, rfl⟩
theorem exit (c) : Statement (.exit c) := ⟨rfl, _, rfl, rfl, rfl, rfl, rfl, rfl, rfl⟩
theorem meet (c) (off) : Statement (.meet c off) := ⟨rfl, _, rfl, rfl, rfl, rfl, rfl, rfl, rfl⟩
theorem meetNone (c) : Statement (.meetNone c) := ⟨rfl, _, rfl, rfl, rfl, rfl, rfl, rfl, rfl⟩
theorem trap (c) (b) : Statement (.trap c b) := by cases b <;> exact ⟨rfl, _, rfl, rfl, rfl, rfl, rfl, rfl, rfl⟩
theorem ld (c) (ty) (h) (o) : Statement (.ld c ty h o) := by rcases o with ⟨_, _, _ | _ | _ | _⟩ <;> exact ⟨rfl, _, rfl, rfl, rfl, rfl, rfl, rfl, rfl⟩
theorem st (c) (ty) (h) (o) : Statement (.st c ty h o) := by rcases o with ⟨_, _, _ | _ | _ | _⟩ <;> exact ⟨rfl, _, rfl, rfl, rfl, rfl, rfl, rfl, rfl⟩
theorem ldm (c) (n) (s128) (o) : Statement (.ldm c n s128 o) := by rcases o with ⟨_, _, _ | _ | _ | _⟩ <;> exact ⟨rfl, _, rfl, rfl, rfl, rfl, rfl, rfl, rfl⟩
theorem stm (c) (n) (s128) (o) : Statement (.stm c n s128 o) := by rcases o with ⟨_, _, _ | _ | _ | _⟩ <;> exact ⟨rfl, _, rfl, rfl, rfl, rfl, rfl, rfl, rfl⟩
theorem lds (c) (ty) (o) : Statement (.lds c ty o) := by rcases o with ⟨_, _, _ | _ | _ | _⟩ <;> exact ⟨rfl, _, rfl, rfl, rfl, rfl, rfl, rfl, rfl⟩
theorem sts (c) (ty) (o) : Statement (.sts c ty o) := by rcases o with ⟨_, _, _ | _ | _ | _⟩ <;> exact ⟨rfl, _, rfl, rfl, rfl, rfl, rfl, rfl, rfl⟩
theorem ldt (c) (w) (o) : Statement (.ldt c w o) := by rcases o with ⟨_, _, _ | _ | _ | _⟩ <;> exact ⟨rfl, _, rfl, rfl, rfl, rfl, rfl, rfl, rfl⟩
theorem spres (c) (o) : Statement (.spres c o) := by rcases o with ⟨_, _, _ | _ | _ | _⟩ <;> exact ⟨rfl, _, rfl, rfl, rfl, rfl, rfl, rfl, rfl⟩
theorem pref (c) (h) (a) (b) : Statement (.pref c h a b) := by cases b <;> exact ⟨rfl, _, rfl, rfl, rfl, rfl, rfl, rfl, rfl⟩
theorem drainst (c) : Statement (.drainst c) := ⟨rfl, _, rfl, rfl, rfl, rfl, rfl, rfl, rfl⟩
theorem sfqpop (c) (pp) (d) : Statement (.sfqpop c pp d) := ⟨rfl, _, rfl, rfl, rfl, rfl, rfl, rfl, rfl⟩
theorem atom (c) (op) (ty) (o) : Statement (.atom c op ty o) := by rcases o with ⟨_, _, _ | _ | _ | _⟩ <;> exact ⟨rfl, _, rfl, rfl, rfl, rfl, rfl, rfl, rfl⟩
theorem atomcas (c) (ty) (o) : Statement (.atomcas c ty o) := by rcases o with ⟨_, _, _ | _ | _ | _, _⟩ <;> exact ⟨rfl, _, rfl, rfl, rfl, rfl, rfl, rfl, rfl⟩
theorem atoms (c) (op) (ty) (o) : Statement (.atoms c op ty o) := by rcases o with ⟨_, _, _ | _ | _ | _⟩ <;> exact ⟨rfl, _, rfl, rfl, rfl, rfl, rfl, rfl, rfl⟩
theorem atomscas (c) (ty) (o) : Statement (.atomscas c ty o) := by rcases o with ⟨_, _, _ | _ | _ | _, _⟩ <;> exact ⟨rfl, _, rfl, rfl, rfl, rfl, rfl, rfl, rfl⟩
theorem red (c) (op) (ty) (a) (b) : Statement (.red c op ty a b) := by cases b <;> exact ⟨rfl, _, rfl, rfl, rfl, rfl, rfl, rfl, rfl⟩
theorem fence (c) (s) : Statement (.fence c s) := ⟨rfl, _, rfl, rfl, rfl, rfl, rfl, rfl, rfl⟩
theorem rel (c) (s) : Statement (.rel c s) := ⟨rfl, _, rfl, rfl, rfl, rfl, rfl, rfl, rfl⟩
theorem acq (c) (s) : Statement (.acq c s) := ⟨rfl, _, rfl, rfl, rfl, rfl, rfl, rfl, rfl⟩
theorem join (c) (pd) (b) : Statement (.join c pd b) := by cases b <;> exact ⟨rfl, _, rfl, rfl, rfl, rfl, rfl, rfl, rfl⟩
theorem leave (c) (pd) (b) : Statement (.leave c pd b) := by cases b <;> exact ⟨rfl, _, rfl, rfl, rfl, rfl, rfl, rfl, rfl⟩
theorem bar (c) (pd) (b) : Statement (.bar c pd b) := by cases b <;> exact ⟨rfl, _, rfl, rfl, rfl, rfl, rfl, rfl, rfl⟩
theorem elect (c) (pd) (b) : Statement (.elect c pd b) := by cases b <;> exact ⟨rfl, _, rfl, rfl, rfl, rfl, rfl, rfl, rfl⟩
theorem electRel (c) (b) : Statement (.electRel c b) := by cases b <;> exact ⟨rfl, _, rfl, rfl, rfl, rfl, rfl, rfl, rfl⟩
theorem gkill (c) (b) : Statement (.gkill c b) := by cases b <;> exact ⟨rfl, _, rfl, rfl, rfl, rfl, rfl, rfl, rfl⟩
theorem gred (c) (ty) (op) (o) : Statement (.gred c ty op o) := by rcases o with ⟨_, _, _ | _ | _ | _⟩ <;> exact ⟨rfl, _, rfl, rfl, rfl, rfl, rfl, rfl, rfl⟩
theorem gbcast (c) (ty) (o) : Statement (.gbcast c ty o) := by rcases o with ⟨_, _, _ | _ | _ | _⟩ <;> exact ⟨rfl, _, rfl, rfl, rfl, rfl, rfl, rfl, rfl⟩
theorem genOpen (c) (w) (t) (cons) (exit) : Statement (.genOpen c w t cons exit) := ⟨rfl, _, rfl, rfl, rfl, rfl, rfl, rfl, rfl⟩
theorem genPoint (c) : Statement (.genPoint c) := ⟨rfl, _, rfl, rfl, rfl, rfl, rfl, rfl, rfl⟩
theorem genTake (c) (d) : Statement (.genTake c d) := ⟨rfl, _, rfl, rfl, rfl, rfl, rfl, rfl, rfl⟩
theorem genNext (c) : Statement (.genNext c) := ⟨rfl, _, rfl, rfl, rfl, rfl, rfl, rfl, rfl⟩
theorem genPend (c) : Statement (.genPend c) := ⟨rfl, _, rfl, rfl, rfl, rfl, rfl, rfl, rfl⟩
theorem yield (c) (a) : Statement (.yield c a) := ⟨rfl, _, rfl, rfl, rfl, rfl, rfl, rfl, rfl⟩
theorem reggrow (c) (wait) (pd) (b) : Statement (.reggrow c wait pd b) := by cases b <;> exact ⟨rfl, _, rfl, rfl, rfl, rfl, rfl, rfl, rfl⟩
theorem regshrink (c) (b) : Statement (.regshrink c b) := by cases b <;> exact ⟨rfl, _, rfl, rfl, rfl, rfl, rfl, rfl, rfl⟩
theorem loopn (c) (b) (off) : Statement (.loopn c b off) := by cases b <;> exact ⟨rfl, _, rfl, rfl, rfl, rfl, rfl, rfl, rfl⟩
theorem loopend (c) : Statement (.loopend c) := ⟨rfl, _, rfl, rfl, rfl, rfl, rfl, rfl, rfl⟩
theorem dqpush (c) (a) : Statement (.dqpush c a) := ⟨rfl, _, rfl, rfl, rfl, rfl, rfl, rfl, rfl⟩
theorem dqpop (c) (d) : Statement (.dqpop c d) := ⟨rfl, _, rfl, rfl, rfl, rfl, rfl, rfl, rfl⟩
theorem dqdone (c) : Statement (.dqdone c) := ⟨rfl, _, rfl, rfl, rfl, rfl, rfl, rfl, rfl⟩
theorem dqbr (c) (f) (b) (off) : Statement (.dqbr c f b off) := by cases b <;> exact ⟨rfl, _, rfl, rfl, rfl, rfl, rfl, rfl, rfl⟩
theorem sqpush (c) (a) (q) : Statement (.sqpush c a q) := ⟨rfl, _, rfl, rfl, rfl, rfl, rfl, rfl, rfl⟩
theorem sqpop (c) (pp) (d) (q) : Statement (.sqpop c pp d q) := ⟨rfl, _, rfl, rfl, rfl, rfl, rfl, rfl, rfl⟩
theorem gmov (c) (p) (d) (b) : Statement (.gmov c p d b) := by cases b <;> exact ⟨rfl, _, rfl, rfl, rfl, rfl, rfl, rfl, rfl⟩
theorem mma (c) (f) : Statement (.mma c f) := ⟨rfl, _, rfl, rfl, rfl, rfl, rfl, rfl, rfl⟩
theorem mmaj (c) (f) (h1) : Statement (.mmaj c f h1) := ⟨rfl, _, rfl, rfl, rfl, rfl, rfl, rfl, rfl⟩
theorem mrdy (c) (fa) (fb) (shape) : Statement (.mrdy c fa fb shape) := ⟨rfl, _, rfl, rfl, rfl, rfl, rfl, rfl, rfl⟩
theorem mwait (c) (t) : Statement (.mwait c t) := ⟨rfl, _, rfl, rfl, rfl, rfl, rfl, rfl, rfl⟩
theorem mwaitAll (c) : Statement (.mwaitAll c) := ⟨rfl, _, rfl, rfl, rfl, rfl, rfl, rfl, rfl⟩
theorem mld (c) (f) : Statement (.mld c f) := ⟨rfl, _, rfl, rfl, rfl, rfl, rfl, rfl, rfl⟩
theorem mst (c) (f) : Statement (.mst c f) := ⟨rfl, _, rfl, rfl, rfl, rfl, rfl, rfl, rfl⟩
theorem mclr (c) (p) (t) : Statement (.mclr c p t) := ⟨rfl, _, rfl, rfl, rfl, rfl, rfl, rfl, rfl⟩
theorem mswap (c) (t) (u) : Statement (.mswap c t u) := ⟨rfl, _, rfl, rfl, rfl, rfl, rfl, rfl, rfl⟩
theorem mstat (c) (d) (t) : Statement (.mstat c d t) := ⟨rfl, _, rfl, rfl, rfl, rfl, rfl, rfl, rfl⟩
theorem ffstat (c) (d) (f) : Statement (.ffstat c d f) := ⟨rfl, _, rfl, rfl, rfl, rfl, rfl, rfl, rfl⟩
theorem claimNew (c) (k) (sk) (dk) (a) (fifo) : Statement (.claimNew c k sk dk a fifo) := ⟨rfl, _, rfl, rfl, rfl, rfl, rfl, rfl, rfl⟩
theorem claimUse (c) (k) : Statement (.claimUse c k) := ⟨rfl, _, rfl, rfl, rfl, rfl, rfl, rfl, rfl⟩
theorem flowReg (c) (k) (s) (a) : Statement (.flowReg c k s a) := ⟨rfl, _, rfl, rfl, rfl, rfl, rfl, rfl, rfl⟩
theorem flowImm (c) (k) (s) (so) (d) (n) : Statement (.flowImm c k s so d n) := ⟨rfl, _, rfl, rfl, rfl, rfl, rfl, rfl, rfl⟩
theorem flwait (c) (k) (s) : Statement (.flwait c k s) := ⟨rfl, _, rfl, rfl, rfl, rfl, rfl, rfl, rfl⟩
theorem clrel (c) (k) : Statement (.clrel c k) := ⟨rfl, _, rfl, rfl, rfl, rfl, rfl, rfl, rfl⟩
theorem clrevokePg (c) (a) (b) : Statement (.clrevokePg c a b) := by cases b <;> exact ⟨rfl, _, rfl, rfl, rfl, rfl, rfl, rfl, rfl⟩
theorem clrevokeK (c) (a) (k) : Statement (.clrevokeK c a k) := ⟨rfl, _, rfl, rfl, rfl, rfl, rfl, rfl, rfl⟩
theorem hdrain (c) : Statement (.hdrain c) := ⟨rfl, _, rfl, rfl, rfl, rfl, rfl, rfl, rfl⟩
theorem mcast (c) (n) (d) (a) (x) : Statement (.mcast c n d a x) := ⟨rfl, _, rfl, rfl, rfl, rfl, rfl, rfl, rfl⟩
theorem fred (c) (bf) (op) (o) : Statement (.fred c bf op o) := by rcases o with ⟨_, _, _ | _ | _ | _⟩ <;> exact ⟨rfl, _, rfl, rfl, rfl, rfl, rfl, rfl, rfl⟩
theorem cregOpen (c) (strict) (pd) (a) (off) : Statement (.cregOpen c strict pd a off) := ⟨rfl, _, rfl, rfl, rfl, rfl, rfl, rfl, rfl⟩
theorem cregClose (c) : Statement (.cregClose c) := ⟨rfl, _, rfl, rfl, rfl, rfl, rfl, rfl, rfl⟩
theorem pairOpen (c) (pd) (a) (off) (slack) : Statement (.pairOpen c pd a off slack) := ⟨rfl, _, rfl, rfl, rfl, rfl, rfl, rfl, rfl⟩
theorem pairClose (c) : Statement (.pairClose c) := ⟨rfl, _, rfl, rfl, rfl, rfl, rfl, rfl, rfl⟩
theorem einjPerr (c) : Statement (.einjPerr c) := ⟨rfl, _, rfl, rfl, rfl, rfl, rfl, rfl, rfl⟩
theorem einjPoison (c) : Statement (.einjPoison c) := ⟨rfl, _, rfl, rfl, rfl, rfl, rfl, rfl, rfl⟩
theorem einjPmis (c) (b) : Statement (.einjPmis c b) := by cases b <;> exact ⟨rfl, _, rfl, rfl, rfl, rfl, rfl, rfl, rfl⟩
theorem einjCerr (c) : Statement (.einjCerr c) := ⟨rfl, _, rfl, rfl, rfl, rfl, rfl, rfl, rfl⟩
theorem prepair (c) (d) (a) : Statement (.prepair c d a) := ⟨rfl, _, rfl, rfl, rfl, rfl, rfl, rfl, rfl⟩
theorem presume (c) (a) : Statement (.presume c a) := ⟨rfl, _, rfl, rfl, rfl, rfl, rfl, rfl, rfl⟩
theorem presumeFail (c) (a) : Statement (.presumeFail c a) := ⟨rfl, _, rfl, rfl, rfl, rfl, rfl, rfl, rfl⟩
theorem trmark (c) (b) : Statement (.trmark c b) := by cases b <;> exact ⟨rfl, _, rfl, rfl, rfl, rfl, rfl, rfl, rfl⟩
theorem cntcapStart (c) (n) : Statement (.cntcapStart c n) := ⟨rfl, _, rfl, rfl, rfl, rfl, rfl, rfl, rfl⟩
theorem cntcapStop (c) (d) (n) : Statement (.cntcapStop c d n) := ⟨rfl, _, rfl, rfl, rfl, rfl, rfl, rfl, rfl⟩
theorem sample (c) (b) : Statement (.sample c b) := by cases b <;> exact ⟨rfl, _, rfl, rfl, rfl, rfl, rfl, rfl, rfl⟩
theorem launch (c) (o) : Statement (.launch c o) := ⟨rfl, _, rfl, rfl, rfl, rfl, rfl, rfl, rfl⟩
theorem scall (c) (b) : Statement (.scall c b) := by cases b <;> exact ⟨rfl, _, rfl, rfl, rfl, rfl, rfl, rfl, rfl⟩
theorem mcall (c) (fn) : Statement (.mcall c fn) := ⟨rfl, _, rfl, rfl, rfl, rfl, rfl, rfl, rfl⟩
theorem eret (c) : Statement (.eret c) := ⟨rfl, _, rfl, rfl, rfl, rfl, rfl, rfl, rfl⟩
theorem tlbfill (c) (pd) (a) (lvl) : Statement (.tlbfill c pd a lvl) := ⟨rfl, _, rfl, rfl, rfl, rfl, rfl, rfl, rfl⟩
theorem tlbinvPg (c) (a) (b) : Statement (.tlbinvPg c a b) := by cases b <;> exact ⟨rfl, _, rfl, rfl, rfl, rfl, rfl, rfl, rfl⟩
theorem tlbinvAsid (c) (b) : Statement (.tlbinvAsid c b) := by cases b <;> exact ⟨rfl, _, rfl, rfl, rfl, rfl, rfl, rfl, rfl⟩
theorem tlbinvAll (c) : Statement (.tlbinvAll c) := ⟨rfl, _, rfl, rfl, rfl, rfl, rfl, rfl, rfl⟩
theorem cinvPg (c) (a) (b) : Statement (.cinvPg c a b) := by cases b <;> exact ⟨rfl, _, rfl, rfl, rfl, rfl, rfl, rfl, rfl⟩
theorem cinvAsid (c) (b) : Statement (.cinvAsid c b) := by cases b <;> exact ⟨rfl, _, rfl, rfl, rfl, rfl, rfl, rfl, rfl⟩
theorem cinvAll (c) : Statement (.cinvAll c) := ⟨rfl, _, rfl, rfl, rfl, rfl, rfl, rfl, rfl⟩
theorem ckptIvl (c) (d) (b) : Statement (.ckptIvl c d b) := by cases b <;> exact ⟨rfl, _, rfl, rfl, rfl, rfl, rfl, rfl, rfl⟩
theorem ckptMem (c) (d) : Statement (.ckptMem c d) := ⟨rfl, _, rfl, rfl, rfl, rfl, rfl, rfl, rfl⟩
theorem ckptMemrst (c) (d) : Statement (.ckptMemrst c d) := ⟨rfl, _, rfl, rfl, rfl, rfl, rfl, rfl, rfl⟩
theorem recctlOff (c) (d) (b) : Statement (.recctlOff c d b) := by cases b <;> exact ⟨rfl, _, rfl, rfl, rfl, rfl, rfl, rfl, rfl⟩
theorem recctlRec (c) (d) (b) : Statement (.recctlRec c d b) := by cases b <;> exact ⟨rfl, _, rfl, rfl, rfl, rfl, rfl, rfl, rfl⟩
theorem recctlRpl (c) (d) (b) : Statement (.recctlRpl c d b) := by cases b <;> exact ⟨rfl, _, rfl, rfl, rfl, rfl, rfl, rfl, rfl⟩
theorem movps (c) (d) (b) : Statement (.movps c d b) := by cases b <;> exact ⟨rfl, _, rfl, rfl, rfl, rfl, rfl, rfl, rfl⟩
theorem movpsW (c) (a) (b) : Statement (.movpsW c a b) := by cases b <;> exact ⟨rfl, _, rfl, rfl, rfl, rfl, rfl, rfl, rfl⟩
theorem intctlMask (c) (b) : Statement (.intctlMask c b) := by cases b <;> exact ⟨rfl, _, rfl, rfl, rfl, rfl, rfl, rfl, rfl⟩
theorem intctlWait (c) : Statement (.intctlWait c) := ⟨rfl, _, rfl, rfl, rfl, rfl, rfl, rfl, rfl⟩
theorem intctlResume (c) (a) (act) : Statement (.intctlResume c a act) := ⟨rfl, _, rfl, rfl, rfl, rfl, rfl, rfl, rfl⟩
theorem intctlRespg (c) (a) (b) : Statement (.intctlRespg c a b) := by cases b <;> exact ⟨rfl, _, rfl, rfl, rfl, rfl, rfl, rfl, rfl⟩
theorem ctxsaveInst (c) (o) : Statement (.ctxsaveInst c o) := by rcases o with ⟨_, _, _ | _ | _ | _⟩ <;> exact ⟨rfl, _, rfl, rfl, rfl, rfl, rfl, rfl, rfl⟩
theorem ctxsaveCtx (c) (o) : Statement (.ctxsaveCtx c o) := by rcases o with ⟨_, _, _ | _ | _ | _⟩ <;> exact ⟨rfl, _, rfl, rfl, rfl, rfl, rfl, rfl, rfl⟩
theorem ctxsaveEnd (c) (o) : Statement (.ctxsaveEnd c o) := by rcases o with ⟨_, _, _ | _ | _ | _⟩ <;> exact ⟨rfl, _, rfl, rfl, rfl, rfl, rfl, rfl, rfl⟩
theorem ctxload (c) (o) : Statement (.ctxload c o) := by rcases o with ⟨_, _, _ | _ | _ | _⟩ <;> exact ⟨rfl, _, rfl, rfl, rfl, rfl, rfl, rfl, rfl⟩
theorem ctxloadCtx (c) (o) : Statement (.ctxloadCtx c o) := by rcases o with ⟨_, _, _ | _ | _ | _⟩ <;> exact ⟨rfl, _, rfl, rfl, rfl, rfl, rfl, rfl, rfl⟩
theorem wretFill (c) : Statement (.wretFill c) := ⟨rfl, _, rfl, rfl, rfl, rfl, rfl, rfl, rfl⟩
theorem wretServ (c) : Statement (.wretServ c) := ⟨rfl, _, rfl, rfl, rfl, rfl, rfl, rfl, rfl⟩
theorem wretDeny (c) (cause) : Statement (.wretDeny c cause) := ⟨rfl, _, rfl, rfl, rfl, rfl, rfl, rfl, rfl⟩
theorem mcallMap (who) : Statement (.mcallMap who) := ⟨rfl, rfl⟩
theorem mcallUnmap (who) : Statement (.mcallUnmap who) := ⟨rfl, rfl⟩
theorem mcallLoad (who) : Statement (.mcallLoad who) := ⟨rfl, rfl⟩
theorem mcallReport (who) : Statement (.mcallReport who) := ⟨rfl, rfl⟩
theorem mcallAssign (who) : Statement (.mcallAssign who) := ⟨rfl, rfl⟩
theorem mcallVfset (who) : Statement (.mcallVfset who) := ⟨rfl, rfl⟩
theorem mcallActivate (who) : Statement (.mcallActivate who) := ⟨rfl, rfl⟩
theorem mcallRelease (who) : Statement (.mcallRelease who) := ⟨rfl, rfl⟩
theorem memoryEventPop (die) : Statement (.memoryEventPop die) := ⟨rfl, rfl⟩
theorem trapQueuePop (die) : Statement (.trapQueuePop die) := ⟨rfl, rfl⟩
theorem unreachClear (die) : Statement (.unreachClear die) := ⟨rfl, rfl⟩
theorem laneBinCtlWrite (core) (bin) (v) : Statement (.laneBinCtlWrite core bin v) := ⟨rfl, rfl⟩
theorem vfBlockWrite (vf) (k) (v) : Statement (.vfBlockWrite vf k v) := ⟨rfl, rfl⟩
theorem clauseIssue (q) (iid) (tids) : Statement (.clauseIssue q iid tids) := ⟨rfl, rfl⟩
theorem spinDemotion (iid) (warp) : Statement (.spinDemotion iid warp) := ⟨rfl, rfl⟩
theorem demotionEnd (iid) (hw) : Statement (.demotionEnd iid hw) := ⟨rfl, rfl⟩
theorem flagCompletion (op) (tid) : Statement (.flagCompletion op tid) := ⟨rfl, rfl⟩
theorem falseGuardCompletion (op) (hw) : Statement (.falseGuardCompletion op hw) := ⟨rfl, rfl⟩
theorem storeFault (op) (tid) : Statement (.storeFault op tid) := ⟨rfl, rfl⟩
theorem stageHandlerDelivery (iid) (hw) : Statement (.stageHandlerDelivery iid hw) := ⟨rfl, rfl⟩
theorem stewardTrapEntry (die) (n) (t) : Statement (.stewardTrapEntry die n t) := ⟨rfl, rfl⟩
theorem interruptEntry (die) (n) : Statement (.interruptEntry die n) := ⟨rfl, rfl⟩
theorem spadParkResume (iid) (sub) : Statement (.spadParkResume iid sub) := ⟨rfl, rfl⟩
theorem tlbMiss (want) : Statement (.tlbMiss want) := ⟨rfl, rfl⟩
theorem walkerDispatch (ctrl) (cluster) : Statement (.walkerDispatch ctrl cluster) := ⟨rfl, rfl⟩
theorem poisonedFill (op) (tid) (cause) : Statement (.poisonedFill op tid cause) := ⟨rfl, rfl⟩
theorem repairStageStart (ctx) (core) : Statement (.repairStageStart ctx core) := ⟨rfl, rfl⟩
theorem migrationRequest (ctrl) (asid) (va) (big) (far) (frame) : Statement (.migrationRequest ctrl asid va big far frame) := ⟨rfl, rfl⟩
theorem migrationCopy (ctrl) (asid) (va) : Statement (.migrationCopy ctrl asid va) := ⟨rfl, rfl⟩
theorem migrationComplete (ctrl) (asid) (va) : Statement (.migrationComplete ctrl asid va) := ⟨rfl, rfl⟩
theorem migrationAck (ctrl) (asid) (va) : Statement (.migrationAck ctrl asid va) := ⟨rfl, rfl⟩
theorem sectorWrite (die) (key) : Statement (.sectorWrite die key) := ⟨rfl, rfl⟩
theorem claimWalkEnd (die) (entry) : Statement (.claimWalkEnd die entry) := ⟨rfl, rfl⟩
theorem flowComplete (flow) : Statement (.flowComplete flow) := ⟨rfl, rfl⟩
theorem arbiterGrant (cluster) : Statement (.arbiterGrant cluster) := ⟨rfl, rfl⟩
theorem priorityPromotion (cluster) (entry) : Statement (.priorityPromotion cluster entry) := ⟨rfl, rfl⟩
theorem passComplete (cluster) (entry) : Statement (.passComplete cluster entry) := ⟨rfl, rfl⟩
theorem jointEntryTimeout (cluster) (entry) : Statement (.jointEntryTimeout cluster entry) := ⟨rfl, rfl⟩
theorem mrdyReady (op) : Statement (.mrdyReady op) := ⟨rfl, rfl⟩
theorem reggrowGrant (iid) (hw) : Statement (.reggrowGrant iid hw) := ⟨rfl, rfl⟩
theorem growthDeadlock (core) : Statement (.growthDeadlock core) := ⟨rfl, rfl⟩
theorem instanceEnd (iid) : Statement (.instanceEnd iid) := ⟨rfl, rfl⟩
theorem gangPlacement (die) (launch) (stage) (base) : Statement (.gangPlacement die launch stage base) := ⟨rfl, rfl⟩
theorem queueDrivenStart (die) (launch) (stage) : Statement (.queueDrivenStart die launch stage) := ⟨rfl, rfl⟩
theorem gangAgeing (die) (launch) (stage) : Statement (.gangAgeing die launch stage) := ⟨rfl, rfl⟩
theorem intervalStart (ctx) : Statement (.intervalStart ctx) := ⟨rfl, rfl⟩
theorem uncorrectableError (iid) (tid) (cause) (va) : Statement (.uncorrectableError iid tid cause va) := ⟨rfl, rfl⟩
theorem regionUnwind (iid) (hw) : Statement (.regionUnwind iid hw) := ⟨rfl, rfl⟩
theorem rollback (ctx) : Statement (.rollback ctx) := ⟨rfl, rfl⟩
theorem compareMatch (die) (iid) (tid) : Statement (.compareMatch die iid tid) := ⟨rfl, rfl⟩
theorem logRecordWrite (ctx) : Statement (.logRecordWrite ctx) := ⟨rfl, rfl⟩
theorem replayRecordApply (ctx) (src) : Statement (.replayRecordApply ctx src) := ⟨rfl, rfl⟩
theorem replayDivergence (ctx) (kind) : Statement (.replayDivergence ctx kind) := ⟨rfl, rfl⟩
theorem pairedPartitionCompare (ctx) : Statement (.pairedPartitionCompare ctx) := ⟨rfl, rfl⟩
theorem preciseStop (ctx) : Statement (.preciseStop ctx) := ⟨rfl, rfl⟩
theorem traceRecordWrite (die) : Statement (.traceRecordWrite die) := ⟨rfl, rfl⟩
theorem traceFrameClose (die) : Statement (.traceFrameClose die) := ⟨rfl, rfl⟩
theorem laneCycleEmit (core) : Statement (.laneCycleEmit core) := ⟨rfl, rfl⟩
theorem clusterTestDue (cluster) : Statement (.clusterTestDue cluster) := ⟨rfl, rfl⟩
theorem testOverdue (cluster) : Statement (.testOverdue cluster) := ⟨rfl, rfl⟩
theorem clusterTest (cluster) (pass) : Statement (.clusterTest cluster pass) := ⟨rfl, rfl⟩
theorem powerOnBoot (imgs) : Statement (.powerOnBoot imgs) := ⟨rfl, rfl⟩
theorem coolantLossTrip : Statement (.coolantLossTrip) := ⟨rfl, rfl⟩
theorem managementPortRequest (r) : Statement (.managementPortRequest r) := ⟨rfl, rfl⟩
theorem moduleIdAssign (id) : Statement (.moduleIdAssign id) := ⟨rfl, rfl⟩
theorem hamperAgeExpiry (core) (line) : Statement (.hamperAgeExpiry core line) := ⟨rfl, rfl⟩
theorem remoteMaskedWrite (p) : Statement (.remoteMaskedWrite p) := ⟨rfl, rfl⟩
theorem remoteLoadRequest (p) : Statement (.remoteLoadRequest p) := ⟨rfl, rfl⟩
theorem remoteAtomicRequest (r) : Statement (.remoteAtomicRequest r) := ⟨rfl, rfl⟩
theorem remoteAck (req) (data) : Statement (.remoteAck req data) := ⟨rfl, rfl⟩
theorem remoteRefusal (req) (cause) : Statement (.remoteRefusal req cause) := ⟨rfl, rfl⟩
theorem destinationUnreachable (peer) : Statement (.destinationUnreachable peer) := ⟨rfl, rfl⟩
theorem ackTimeout (req) : Statement (.ackTimeout req) := ⟨rfl, rfl⟩
theorem linkDown (die) (link) : Statement (.linkDown die link) := ⟨rfl, rfl⟩
theorem grantRequest (die) (p) (len) (isDst) : Statement (.grantRequest die p len isDst) := ⟨rfl, rfl⟩
theorem multicastCopy (p) : Statement (.multicastCopy p) := ⟨rfl, rfl⟩
theorem fredRoundComplete (group) (round) (others) : Statement (.fredRoundComplete group round others) := ⟨rfl, rfl⟩
theorem fredRefusal (req) : Statement (.fredRefusal req) := ⟨rfl, rfl⟩
theorem logRingConsumerWrite (ctx) (v) : Statement (.logRingConsumerWrite ctx v) := ⟨rfl, rfl⟩
theorem logRingProducerWrite (ctx) (v) : Statement (.logRingProducerWrite ctx v) := ⟨rfl, rfl⟩
theorem linkUp (die) (link) : Statement (.linkUp die link) := ⟨rfl, rfl⟩
theorem probeAnswer (peer) : Statement (.probeAnswer peer) := ⟨rfl, rfl⟩
theorem computeSideReset : Statement (.computeSideReset) := ⟨rfl, rfl⟩
theorem thermalLimitReached (on) : Statement (.thermalLimitReached on) := ⟨rfl, rfl⟩
theorem activationEnd : Statement (.activationEnd) := ⟨rfl, rfl⟩
theorem dieToDieWriteArrival (id) : Statement (.dieToDieWriteArrival id) := ⟨rfl, rfl⟩
theorem peerRevokeMessage (peer) (va) (cause) : Statement (.peerRevokeMessage peer va cause) := ⟨rfl, rfl⟩
theorem flowsDrainedReport (die) (entry) : Statement (.flowsDrainedReport die entry) := ⟨rfl, rfl⟩

end Sys2Proof.Laws.Form
end

