-- ==== Sys2Proof/Machine/Assembly.lean ====
section
/-!
DEFINITION. What walr, wlink and the loader do (R46 to R60): names, numbers and expressions, the choice of a length, the layout of a clause,
implicit clauses, the directives' limits, the parameter block, relocations and the header of an image. The machine executes the bytes that
come of it; no meaning of an instruction rests on this file. The text of an instruction's operands is left out (log entry 42).
-/
namespace Sys2Proof.Machine

/-! ### Lines and names (R46) -/

/-- A source line without its comment. -/
def stripComment : List Char → List Char
  | [] => []
  | ';' :: _ => []
  | '/' :: '/' :: _ => []
  | c :: cs => c :: stripComment cs

def symStart (c : Char) : Bool := c.isAlpha || c == '_' || c == '.'
def symRest (c : Char) : Bool := symStart c || c.isDigit

/-- The mnemonics of R42. -/
def mnemonics : List String := [
  "IADD", "ISUB", "IMUL", "IMULHI", "IMAD", "C", "IMIN", "IMAX", "ICLAMP", "C", "IABS", "INEG", "ISAD", "C", "LEA", "IDIV",
  "IREM", "AND", "OR", "XOR", "NOT", "ANDN", "LOGIC3", "SHL", "SHR", "SAR", "ROTL", "ROTR", "SHF", "POPC", "CLZ", "CTZ",
  "BREV", "BFX", "BFI", "BPERM", "FADD", "FSUB", "FMUL", "FFMA", "C", "FMIN", "FMAX", "FCLAMP", "C", "FABS", "FNEG",
  "FROUND", "FDIV", "FSQRT", "FRCP", "FRSQ", "FEXP2", "FLOG2", "FSIN", "FCOS", "FTANH", "HADD", "HSUB", "HMUL", "HFMA", "C",
  "HMIN", "HMAX", "HCLAMP", "C", "HABS", "HNEG", "HDOT2", "C", "HEXP2", "HRCP", "CVTF", "CVTFI", "CVTIF", "CVTII", "PACK2",
  "UNPACK", "CVTBLK", "C", "ICMP", "FCMP", "HCMP", "PLOGIC", "FCLASS", "PSETV", "PGETV", "MOV", "SEL", "MOVSR", "PERM",
  "BALLOT", "VOTE", "LANEGET", "NOP", "BRA", "JMP", "CALL", "CALLI", "RET", "EXIT", "MEET", "TRAP", "LD", "ST", "LDM",
  "STM", "LDS", "STS", "LDT", "SPRES", "PREF", "DRAINST", "SFQPOP", "ATOM", "ATOMCAS", "ATOMS", "ATOMSCAS", "RED", "FENCE",
  "REL", "ACQ", "JOIN", "LEAVE", "BAR", "ELECT", "GKILL", "GRED", "GBCAST", "GEN", "YIELD", "REGGROW", "REGSHRINK", "LOOPN",
  "LOOPEND", "DQPUSH", "DQPOP", "DQDONE", "DQBR", "SQPUSH", "SQPOP", "GMOV", "MMA", "MMAJ", "MRDY", "MWAIT", "MLD", "MST",
  "MCLR", "MSWAP", "MSTAT", "FFSTAT", "CLAIM", "FLOW", "FLWAIT", "CLREL", "CLREVOKE", "HDRAIN", "MCAST", "FRED", "CREG",
  "PAIR", "EINJ", "PREPAIR", "PRESUME", "TRMARK", "CNTCAP", "SAMPLE", "LAUNCH", "SCALL", "MCALL", "ERET", "TLBFILL",
  "TLBINV", "CINV", "CKPT", "RECCTL", "MOVPS", "P", "INTCTL", "CTXSAVE", "CTXLOAD", "WRET"]

/-- A register's name: a letter of R46 with a number, or sr. with a name. -/
def isRegister (s : List Char) : Bool :=
  ([['v'], ['s'], ['g'], ['p'], ['f'], ['a', 'c', 'c'], ['f', 'f'], ['k']].any fun p =>
    p.isPrefixOf s && (s.drop p.length).all Char.isDigit && !(s.drop p.length).isEmpty) || ['s', 'r', '.'].isPrefixOf s

/-- A symbol; mnemonics are accepted in either case. -/
def isSymbol : List Char → Bool
  | [] => false
  | c :: cs =>
    symStart c && cs.all symRest && !isRegister (c :: cs) &&
      !(mnemonics.any fun m => m.toList == (c :: cs).map Char.toUpper)

/-- A line's label, and what follows its colon. -/
def splitLabel (line : List Char) : Option (List Char) × List Char :=
  let l := (line.dropWhile Char.isWhitespace)
  let name := l.takeWhile symRest
  match l.drop name.length with
  | ':' :: rest => if isSymbol name then (some name, rest) else (none, line)
  | _ => (none, line)

/-! ### Numbers and expressions (R47) -/

def digitVal (c : Char) : Option Nat :=
  if c.isDigit then some (c.toNat - '0'.toNat)
  else if 'a' ≤ c ∧ c ≤ 'f' then some (c.toNat - 'a'.toNat + 10)
  else if 'A' ≤ c ∧ c ≤ 'F' then some (c.toNat - 'A'.toNat + 10)
  else none

/-- Digits of a base, an underscore between two of them being ignored. -/
def digits (base : Nat) : Option Nat → List Char → Option Nat
  | acc, [] => acc
  | some n, '_' :: c :: cs =>
    match digitVal c with
    | some d => if d < base then digits base (some (n * base + d)) cs else none
    | none => none
  | acc, c :: cs =>
    match digitVal c with
    | some d => if d < base then digits base (some (acc.getD 0 * base + d)) cs else none
    | none => none

/-- An integer literal. -/
def intLiteral : List Char → Option Nat
  | '0' :: 'x' :: cs => digits 16 none cs
  | cs => digits 10 none cs

/-- The operators, with the precedence of C. -/
inductive BinOp
  | add | sub | mul | div | rem | shl | shr | and | or | xor
deriving DecidableEq, Repr, Inhabited

def BinOp.prec : BinOp → Nat
  | .mul | .div | .rem => 5
  | .add | .sub => 4
  | .shl | .shr => 3
  | .and => 2
  | .xor => 1
  | .or => 0

inductive Expr
  | lit (n : DWord)
  | sym (name : String)
  | un (not_ : Bool) (e : Expr)
  | bin (op : BinOp) (l r : Expr)
deriving DecidableEq, Repr, Inhabited

/-- An expression in 64-bit two's complement; none for a symbol of unknown value and for a division by zero. -/
def Expr.eval (val : String → Option DWord) : Expr → Option DWord
  | .lit n => some n
  | .sym x => val x
  | .un not_ e => (e.eval val).map fun a => if not_ then ~~~a else -a
  | .bin op l r =>
    match l.eval val, r.eval val with
    | some a, some b =>
      match op with
      | .add => some (a + b)
      | .sub => some (a - b)
      | .mul => some (a * b)
      | .div => if b = 0 then none else some (a.sdiv b)
      | .rem => if b = 0 then none else some (a.srem b)
      | .shl => some (a <<< b.toNat)
      | .shr => some (a.sshiftRight b.toNat)
      | .and => some (a &&& b)
      | .or => some (a ||| b)
      | .xor => some (a ^^^ b)
    | _, _ => none

/-- The tokens of an expression. -/
inductive ETok
  | num (n : DWord)
  | name (s : String)
  | op (o : BinOp)
  | tilde
  | lp
  | rp
deriving DecidableEq, Repr, Inhabited

/-- Parsing by precedence: with no operand yet one is read, then every operator follows that binds at least as tightly as `low`; the first
argument bounds the depth. -/
def parseExpr : Nat → Nat → Option Expr → List ETok → Option (Expr × List ETok)
  | 0, _, _, _ => none
  | fuel + 1, low, none, ts =>
    match ts with
    | .num n :: ts => parseExpr fuel low (some (.lit n)) ts
    | .name s :: ts => parseExpr fuel low (some (.sym s)) ts
    | .tilde :: ts =>
      match parseExpr fuel 6 none ts with
      | some (e, ts) => parseExpr fuel low (some (.un true e)) ts
      | none => none
    | .op .sub :: ts =>
      match parseExpr fuel 6 none ts with
      | some (e, ts) => parseExpr fuel low (some (.un false e)) ts
      | none => none
    | .op .add :: ts =>
      match parseExpr fuel 6 none ts with
      | some (e, ts) => parseExpr fuel low (some e) ts
      | none => none
    | .lp :: ts =>
      match parseExpr fuel 0 none ts with
      | some (e, .rp :: ts) => parseExpr fuel low (some e) ts
      | _ => none
    | _ => none
  | fuel + 1, low, some e, ts =>
    match ts with
    | .op o :: rest =>
      if o.prec < low then some (e, ts)
      else match parseExpr fuel (o.prec + 1) none rest with
        | some (r, rest) => parseExpr fuel low (some (.bin o e r)) rest
        | none => none
    | _ => some (e, ts)

/-- The operand functions: lo32, hi32, pcrel of a target for a clause at H, spoff in a stage's image. -/
def lo32Of (x : DWord) : Word := x.setWidth 32
def hi32Of (x : DWord) : Word := (x >>> 32).setWidth 32
def pcrelOf (x h : DWord) : DWord := x - h
def spoffOf (x image : DWord) : DWord := x - image

/-! ### Spelling (R48) and lengths (R49) -/

end Sys2Proof.Machine
namespace Sys2Proof

/-- The spelling of a guard, of a permutation after its register, of ONCE, a delay and a flag select; what has the value 0 is omitted. -/
def Ctl.guardText (c : Ctl) : String :=
  if c.gp = 0 ∧ c.gn = false then "" else "?" ++ (if c.gn then "!" else "") ++ "p" ++ toString c.gp ++ " "
def Perm.text : Perm → String
  | .id => ""
  | .bc p => "~bc" ++ toString p
  | .up p => "~up" ++ toString p
  | .dn p => "~dn" ++ toString p
  | .bfly p => "~bfly" ++ toString (2 ^ p)
  | .flip p => "~flip" ++ toString (2 ^ p)
def Ctl.onceText (c : Ctl) : String := if c.once then ".once" else ""
def Ctl.delayText (c : Ctl) : String := if c.dly = 0 then "" else ".d" ++ toString c.dly
def Ctl.flagText (c : Ctl) : String := match c.fsel with | .none => "" | .a => ",fa" | .b => ",fb"

/-- The same instruction with other control fields. -/
def Instr.withCtl (k : Ctl) : Instr → Instr
  | .iadd _ x1 x2 => .iadd k x1 x2
  | .isub _ x1 x2 => .isub k x1 x2
  | .imul _ x1 x2 => .imul k x1 x2
  | .imulhi _ x1 x2 => .imulhi k x1 x2
  | .imad _ x1 x2 => .imad k x1 x2
  | .imin _ x1 x2 => .imin k x1 x2
  | .imax _ x1 x2 => .imax k x1 x2
  | .iclamp _ x1 x2 => .iclamp k x1 x2
  | .iabs _ x1 x2 => .iabs k x1 x2
  | .ineg _ x1 x2 => .ineg k x1 x2
  | .isad _ x1 x2 => .isad k x1 x2
  | .lea _ x1 x2 => .lea k x1 x2
  | .idiv _ x1 x2 => .idiv k x1 x2
  | .irem _ x1 x2 => .irem k x1 x2
  | .and _ x1 x2 => .and k x1 x2
  | .or _ x1 x2 => .or k x1 x2
  | .xor _ x1 x2 => .xor k x1 x2
  | .not _ x1 x2 => .not k x1 x2
  | .andn _ x1 x2 => .andn k x1 x2
  | .logic3 _ x1 x2 x3 => .logic3 k x1 x2 x3
  | .shl _ x1 x2 => .shl k x1 x2
  | .shr _ x1 x2 => .shr k x1 x2
  | .sar _ x1 x2 => .sar k x1 x2
  | .rotl _ x1 x2 => .rotl k x1 x2
  | .rotr _ x1 x2 => .rotr k x1 x2
  | .shf _ x1 x2 => .shf k x1 x2
  | .popc _ x1 x2 => .popc k x1 x2
  | .clz _ x1 x2 => .clz k x1 x2
  | .ctz _ x1 x2 => .ctz k x1 x2
  | .brev _ x1 x2 => .brev k x1 x2
  | .bfx _ x1 x2 => .bfx k x1 x2
  | .bfi _ x1 => .bfi k x1
  | .bperm _ x1 => .bperm k x1
  | .fadd _ x1 x2 => .fadd k x1 x2
  | .fsub _ x1 x2 => .fsub k x1 x2
  | .fmul _ x1 x2 => .fmul k x1 x2
  | .ffma _ x1 x2 => .ffma k x1 x2
  | .fmin _ x1 x2 => .fmin k x1 x2
  | .fmax _ x1 x2 => .fmax k x1 x2
  | .fclamp _ x1 x2 => .fclamp k x1 x2
  | .fabs _ x1 x2 => .fabs k x1 x2
  | .fneg _ x1 x2 => .fneg k x1 x2
  | .fround _ x1 x2 => .fround k x1 x2
  | .fdiv _ x1 x2 => .fdiv k x1 x2
  | .fsqrt _ x1 x2 => .fsqrt k x1 x2
  | .frcp _ x1 x2 => .frcp k x1 x2
  | .frsq _ x1 x2 => .frsq k x1 x2
  | .fexp2 _ x1 x2 => .fexp2 k x1 x2
  | .flog2 _ x1 x2 => .flog2 k x1 x2
  | .fsin _ x1 x2 => .fsin k x1 x2
  | .fcos _ x1 x2 => .fcos k x1 x2
  | .ftanh _ x1 x2 => .ftanh k x1 x2
  | .hadd _ x1 x2 => .hadd k x1 x2
  | .hsub _ x1 x2 => .hsub k x1 x2
  | .hmul _ x1 x2 => .hmul k x1 x2
  | .hfma _ x1 x2 => .hfma k x1 x2
  | .hmin _ x1 x2 => .hmin k x1 x2
  | .hmax _ x1 x2 => .hmax k x1 x2
  | .hclamp _ x1 x2 => .hclamp k x1 x2
  | .habs _ x1 x2 => .habs k x1 x2
  | .hneg _ x1 x2 => .hneg k x1 x2
  | .hdot2 _ x1 x2 => .hdot2 k x1 x2
  | .hexp2 _ x1 x2 => .hexp2 k x1 x2
  | .hrcp _ x1 x2 => .hrcp k x1 x2
  | .cvtf _ x1 x2 => .cvtf k x1 x2
  | .cvtfi _ x1 x2 => .cvtfi k x1 x2
  | .cvtif _ x1 x2 => .cvtif k x1 x2
  | .cvtii _ x1 x2 => .cvtii k x1 x2
  | .pack2 _ x1 x2 => .pack2 k x1 x2
  | .unpack _ x1 x2 => .unpack k x1 x2
  | .cvtblk _ x1 x2 x3 => .cvtblk k x1 x2 x3
  | .icmp _ x1 x2 x3 => .icmp k x1 x2 x3
  | .fcmp _ x1 x2 x3 => .fcmp k x1 x2 x3
  | .hcmp _ x1 x2 x3 x4 x5 => .hcmp k x1 x2 x3 x4 x5
  | .plogic _ x1 x2 x3 x4 x5 x6 => .plogic k x1 x2 x3 x4 x5 x6
  | .fclass _ x1 x2 => .fclass k x1 x2
  | .psetv _ x1 x2 => .psetv k x1 x2
  | .pgetv _ x1 x2 => .pgetv k x1 x2
  | .mov _ x1 x2 => .mov k x1 x2
  | .sel _ x1 x2 => .sel k x1 x2
  | .movsr _ x1 x2 => .movsr k x1 x2
  | .movsrW _ x1 x2 => .movsrW k x1 x2
  | .perm _ x1 => .perm k x1
  | .ballot _ x1 x2 => .ballot k x1 x2
  | .vote _ x1 x2 x3 => .vote k x1 x2 x3
  | .laneget _ x1 => .laneget k x1
  | .nop _ => .nop k
  | .bra _ x1 => .bra k x1
  | .jmp _ x1 => .jmp k x1
  | .call _ x1 x2 => .call k x1 x2
  | .calli _ x1 => .calli k x1
  | .ret _ x1 => .ret k x1
  | .exit _ => .exit k
  | .meet _ x1 => .meet k x1
  | .meetNone _ => .meetNone k
  | .trap _ x1 => .trap k x1
  | .ld _ x1 x2 x3 => .ld k x1 x2 x3
  | .st _ x1 x2 x3 => .st k x1 x2 x3
  | .ldm _ x1 x2 x3 => .ldm k x1 x2 x3
  | .stm _ x1 x2 x3 => .stm k x1 x2 x3
  | .lds _ x1 x2 => .lds k x1 x2
  | .sts _ x1 x2 => .sts k x1 x2
  | .ldt _ x1 x2 => .ldt k x1 x2
  | .spres _ x1 => .spres k x1
  | .pref _ x1 x2 x3 => .pref k x1 x2 x3
  | .drainst _ => .drainst k
  | .sfqpop _ x1 x2 => .sfqpop k x1 x2
  | .atom _ x1 x2 x3 => .atom k x1 x2 x3
  | .atomcas _ x1 x2 => .atomcas k x1 x2
  | .atoms _ x1 x2 x3 => .atoms k x1 x2 x3
  | .atomscas _ x1 x2 => .atomscas k x1 x2
  | .red _ x1 x2 x3 x4 => .red k x1 x2 x3 x4
  | .fence _ x1 => .fence k x1
  | .rel _ x1 => .rel k x1
  | .acq _ x1 => .acq k x1
  | .join _ x1 x2 => .join k x1 x2
  | .leave _ x1 x2 => .leave k x1 x2
  | .bar _ x1 x2 => .bar k x1 x2
  | .elect _ x1 x2 => .elect k x1 x2
  | .electRel _ x1 => .electRel k x1
  | .gkill _ x1 => .gkill k x1
  | .gred _ x1 x2 x3 => .gred k x1 x2 x3
  | .gbcast _ x1 x2 => .gbcast k x1 x2
  | .genOpen _ x1 x2 x3 x4 => .genOpen k x1 x2 x3 x4
  | .genPoint _ => .genPoint k
  | .genTake _ x1 => .genTake k x1
  | .genNext _ => .genNext k
  | .genPend _ => .genPend k
  | .yield _ x1 => .yield k x1
  | .reggrow _ x1 x2 x3 => .reggrow k x1 x2 x3
  | .regshrink _ x1 => .regshrink k x1
  | .loopn _ x1 x2 => .loopn k x1 x2
  | .loopend _ => .loopend k
  | .dqpush _ x1 => .dqpush k x1
  | .dqpop _ x1 => .dqpop k x1
  | .dqdone _ => .dqdone k
  | .dqbr _ x1 x2 x3 => .dqbr k x1 x2 x3
  | .sqpush _ x1 x2 => .sqpush k x1 x2
  | .sqpop _ x1 x2 x3 => .sqpop k x1 x2 x3
  | .gmov _ x1 x2 x3 => .gmov k x1 x2 x3
  | .mma _ x1 => .mma k x1
  | .mmaj _ x1 x2 => .mmaj k x1 x2
  | .mrdy _ x1 x2 x3 => .mrdy k x1 x2 x3
  | .mwait _ x1 => .mwait k x1
  | .mwaitAll _ => .mwaitAll k
  | .mld _ x1 => .mld k x1
  | .mst _ x1 => .mst k x1
  | .mclr _ x1 x2 => .mclr k x1 x2
  | .mswap _ x1 x2 => .mswap k x1 x2
  | .mstat _ x1 x2 => .mstat k x1 x2
  | .ffstat _ x1 x2 => .ffstat k x1 x2
  | .claimNew _ x1 x2 x3 x4 x5 => .claimNew k x1 x2 x3 x4 x5
  | .claimUse _ x1 => .claimUse k x1
  | .flowReg _ x1 x2 x3 => .flowReg k x1 x2 x3
  | .flowImm _ x1 x2 x3 x4 x5 => .flowImm k x1 x2 x3 x4 x5
  | .flwait _ x1 x2 => .flwait k x1 x2
  | .clrel _ x1 => .clrel k x1
  | .clrevokePg _ x1 x2 => .clrevokePg k x1 x2
  | .clrevokeK _ x1 x2 => .clrevokeK k x1 x2
  | .hdrain _ => .hdrain k
  | .mcast _ x1 x2 x3 x4 => .mcast k x1 x2 x3 x4
  | .fred _ x1 x2 x3 => .fred k x1 x2 x3
  | .cregOpen _ x1 x2 x3 x4 => .cregOpen k x1 x2 x3 x4
  | .cregClose _ => .cregClose k
  | .pairOpen _ x1 x2 x3 x4 => .pairOpen k x1 x2 x3 x4
  | .pairClose _ => .pairClose k
  | .einjPerr _ => .einjPerr k
  | .einjPoison _ => .einjPoison k
  | .einjPmis _ x1 => .einjPmis k x1
  | .einjCerr _ => .einjCerr k
  | .prepair _ x1 x2 => .prepair k x1 x2
  | .presume _ x1 => .presume k x1
  | .presumeFail _ x1 => .presumeFail k x1
  | .trmark _ x1 => .trmark k x1
  | .cntcapStart _ x1 => .cntcapStart k x1
  | .cntcapStop _ x1 x2 => .cntcapStop k x1 x2
  | .sample _ x1 => .sample k x1
  | .launch _ x1 => .launch k x1
  | .scall _ x1 => .scall k x1
  | .mcall _ x1 => .mcall k x1
  | .eret _ => .eret k
  | .tlbfill _ x1 x2 x3 => .tlbfill k x1 x2 x3
  | .tlbinvPg _ x1 x2 => .tlbinvPg k x1 x2
  | .tlbinvAsid _ x1 => .tlbinvAsid k x1
  | .tlbinvAll _ => .tlbinvAll k
  | .cinvPg _ x1 x2 => .cinvPg k x1 x2
  | .cinvAsid _ x1 => .cinvAsid k x1
  | .cinvAll _ => .cinvAll k
  | .ckptIvl _ x1 x2 => .ckptIvl k x1 x2
  | .ckptMem _ x1 => .ckptMem k x1
  | .ckptMemrst _ x1 => .ckptMemrst k x1
  | .recctlOff _ x1 x2 => .recctlOff k x1 x2
  | .recctlRec _ x1 x2 => .recctlRec k x1 x2
  | .recctlRpl _ x1 x2 => .recctlRpl k x1 x2
  | .movps _ x1 x2 => .movps k x1 x2
  | .movpsW _ x1 x2 => .movpsW k x1 x2
  | .intctlMask _ x1 => .intctlMask k x1
  | .intctlWait _ => .intctlWait k
  | .intctlResume _ x1 x2 => .intctlResume k x1 x2
  | .intctlRespg _ x1 x2 => .intctlRespg k x1 x2
  | .ctxsaveInst _ x1 => .ctxsaveInst k x1
  | .ctxsaveCtx _ x1 => .ctxsaveCtx k x1
  | .ctxsaveEnd _ x1 => .ctxsaveEnd k x1
  | .ctxload _ x1 => .ctxload k x1
  | .ctxloadCtx _ x1 => .ctxloadCtx k x1
  | .wretFill _ => .wretFill k
  | .wretServ _ => .wretServ k
  | .wretDeny _ x1 => .wretDeny k x1
  | .mcallMap x0 => .mcallMap x0
  | .mcallUnmap x0 => .mcallUnmap x0
  | .mcallLoad x0 => .mcallLoad x0
  | .mcallReport x0 => .mcallReport x0
  | .mcallAssign x0 => .mcallAssign x0
  | .mcallVfset x0 => .mcallVfset x0
  | .mcallActivate x0 => .mcallActivate x0
  | .mcallRelease x0 => .mcallRelease x0
  | .memoryEventPop x0 => .memoryEventPop x0
  | .trapQueuePop x0 => .trapQueuePop x0
  | .unreachClear x0 => .unreachClear x0
  | .laneBinCtlWrite x0 x1 x2 => .laneBinCtlWrite x0 x1 x2
  | .vfBlockWrite x0 x1 x2 => .vfBlockWrite x0 x1 x2
  | .clauseIssue x0 x1 x2 => .clauseIssue x0 x1 x2
  | .spinDemotion x0 x1 => .spinDemotion x0 x1
  | .demotionEnd x0 x1 => .demotionEnd x0 x1
  | .flagCompletion x0 x1 => .flagCompletion x0 x1
  | .falseGuardCompletion x0 x1 => .falseGuardCompletion x0 x1
  | .storeFault x0 x1 => .storeFault x0 x1
  | .stageHandlerDelivery x0 x1 => .stageHandlerDelivery x0 x1
  | .stewardTrapEntry x0 x1 x2 => .stewardTrapEntry x0 x1 x2
  | .interruptEntry x0 x1 => .interruptEntry x0 x1
  | .spadParkResume x0 x1 => .spadParkResume x0 x1
  | .tlbMiss x0 => .tlbMiss x0
  | .walkerDispatch x0 x1 => .walkerDispatch x0 x1
  | .poisonedFill x0 x1 x2 => .poisonedFill x0 x1 x2
  | .repairStageStart x0 x1 => .repairStageStart x0 x1
  | .migrationRequest x0 x1 x2 x3 x4 x5 => .migrationRequest x0 x1 x2 x3 x4 x5
  | .migrationCopy x0 x1 x2 => .migrationCopy x0 x1 x2
  | .migrationComplete x0 x1 x2 => .migrationComplete x0 x1 x2
  | .migrationAck x0 x1 x2 => .migrationAck x0 x1 x2
  | .sectorWrite x0 x1 => .sectorWrite x0 x1
  | .claimWalkEnd x0 x1 => .claimWalkEnd x0 x1
  | .flowComplete x0 => .flowComplete x0
  | .arbiterGrant x0 => .arbiterGrant x0
  | .priorityPromotion x0 x1 => .priorityPromotion x0 x1
  | .passComplete x0 x1 => .passComplete x0 x1
  | .jointEntryTimeout x0 x1 => .jointEntryTimeout x0 x1
  | .mrdyReady x0 => .mrdyReady x0
  | .reggrowGrant x0 x1 => .reggrowGrant x0 x1
  | .growthDeadlock x0 => .growthDeadlock x0
  | .instanceEnd x0 => .instanceEnd x0
  | .gangPlacement x0 x1 x2 x3 => .gangPlacement x0 x1 x2 x3
  | .queueDrivenStart x0 x1 x2 => .queueDrivenStart x0 x1 x2
  | .gangAgeing x0 x1 x2 => .gangAgeing x0 x1 x2
  | .intervalStart x0 => .intervalStart x0
  | .uncorrectableError x0 x1 x2 x3 => .uncorrectableError x0 x1 x2 x3
  | .regionUnwind x0 x1 => .regionUnwind x0 x1
  | .rollback x0 => .rollback x0
  | .compareMatch x0 x1 x2 => .compareMatch x0 x1 x2
  | .logRecordWrite x0 => .logRecordWrite x0
  | .replayRecordApply x0 x1 => .replayRecordApply x0 x1
  | .replayDivergence x0 x1 => .replayDivergence x0 x1
  | .pairedPartitionCompare x0 => .pairedPartitionCompare x0
  | .preciseStop x0 => .preciseStop x0
  | .traceRecordWrite x0 => .traceRecordWrite x0
  | .traceFrameClose x0 => .traceFrameClose x0
  | .laneCycleEmit x0 => .laneCycleEmit x0
  | .clusterTestDue x0 => .clusterTestDue x0
  | .testOverdue x0 => .testOverdue x0
  | .clusterTest x0 x1 => .clusterTest x0 x1
  | .powerOnBoot x0 => .powerOnBoot x0
  | .coolantLossTrip  => .coolantLossTrip 
  | .managementPortRequest x0 => .managementPortRequest x0
  | .moduleIdAssign x0 => .moduleIdAssign x0
  | .hamperAgeExpiry x0 x1 => .hamperAgeExpiry x0 x1
  | .remoteMaskedWrite x0 => .remoteMaskedWrite x0
  | .remoteLoadRequest x0 => .remoteLoadRequest x0
  | .remoteAtomicRequest x0 => .remoteAtomicRequest x0
  | .remoteAck x0 x1 => .remoteAck x0 x1
  | .remoteRefusal x0 x1 => .remoteRefusal x0 x1
  | .destinationUnreachable x0 => .destinationUnreachable x0
  | .ackTimeout x0 => .ackTimeout x0
  | .linkDown x0 x1 => .linkDown x0 x1
  | .grantRequest x0 x1 x2 x3 => .grantRequest x0 x1 x2 x3
  | .multicastCopy x0 => .multicastCopy x0
  | .fredRoundComplete x0 x1 x2 => .fredRoundComplete x0 x1 x2
  | .fredRefusal x0 => .fredRefusal x0
  | .logRingConsumerWrite x0 x1 => .logRingConsumerWrite x0 x1
  | .logRingProducerWrite x0 x1 => .logRingProducerWrite x0 x1
  | .linkUp x0 x1 => .linkUp x0 x1
  | .probeAnswer x0 => .probeAnswer x0
  | .computeSideReset  => .computeSideReset 
  | .thermalLimitReached x0 => .thermalLimitReached x0
  | .activationEnd  => .activationEnd 
  | .dieToDieWriteArrival x0 => .dieToDieWriteArrival x0
  | .peerRevokeMessage x0 x1 x2 => .peerRevokeMessage x0 x1 x2
  | .flowsDrainedReport x0 x1 => .flowsDrainedReport x0 x1

/-- The shortest length that can hold the written fields; the instruction is given with any length. -/
def Instr.shortest (guide : Bool) (i : Instr) : Option Instr :=
  match i.ctl with
  | none => none
  | some c => ([Len.l64, .l96, .l128].map fun l => i.withCtl { c with len := l }).find? fun j => j.wf guide

end Sys2Proof
namespace Sys2Proof.Machine

/-! ### Clauses (R50 to R53) -/

/-- The attributes of .clause: a header without its counts (R51). -/
structure Attrs where
  wait : BitVec 12 := 0
  seta : Option Nat := none
  setb : Option Nat := none
  land : Bool := false
  yld  : Bool := false
deriving DecidableEq, Repr, Inhabited

/-- A clause as it lies in memory: its instructions with the NOPs that fill gaps, and its bytes after the header. -/
structure Laid where
  pos  : Nat
  ins  : List Instr
  body : List Byte
deriving DecidableEq, Repr, Inhabited

def nopOf (len : Len) : Instr := .nop ⟨len, 0, false, false, .none, 0⟩
def Laid.put (l : Laid) (i : Instr) : Laid :=
  let b := encodeBytes i
  { pos := l.pos + b.length, ins := l.ins ++ [i], body := l.body ++ b }
def Laid.pad (l : Laid) : Laid := { l with pos := l.pos + 4, body := l.body ++ [0, 0, 0, 0] }

/-- The next instruction, after the fill of a gap before a fetch boundary. -/
def Laid.next (l : Laid) (i : Instr) : Laid :=
  let gap := 32 - l.pos % 32
  let l := if l.pos % 32 + (encodeBytes i).length ≤ 32 then l
    else if gap = 4 then l.pad else if gap = 8 then l.put (nopOf .l64) else l.put (nopOf .l96)
  l.put i

/-- The layout of a clause whose header stands at an address, a multiple of 8; none where NI would exceed 15 or SIZE 63. -/
def layOut (a : Attrs) (at_ : Nat) (is : List Instr) : Option (Header × List Byte) :=
  let l := is.foldl Laid.next { pos := at_ + 8, ins := [], body := [] }
  let l := if l.pos % 8 = 4 then l.pad else l
  let size := (l.pos - at_) / 8
  if l.ins.length = 0 ∨ 15 < l.ins.length ∨ 63 < size then none
  else
    let h : Header := { yld := a.yld, land := a.land, seta := a.seta, setb := a.setb, wait := a.wait, size := size, ni := l.ins.length }
    some (h, leBytes 8 h.encode ++ l.body)

/-- The bytes that align the next header. -/
def headerPad (at_ : Nat) : List Byte := List.replicate ((8 - at_ % 8) % 8) 0

/-- What walr checks of a clause (R50): in steward code, in Guide code, or in compute code. -/
def clauseOk (steward guide : Bool) (a : Attrs) (is : List Instr) : Bool :=
  is.all (fun i => i.wf guide && (if guide then guideOk i || guideOnly i else !guideOnly i) && !(steward && stageOnly i) &&
    (match i.ctl with
      | some c => (c.fsel != .a || a.seta.isSome) && (c.fsel != .b || a.setb.isSome)
      | none => false)) &&
    is.dropLast.all (fun i => i.cls != .x) && (a.seta.all fun n => decide (n < 12)) && (a.setb.all fun n => decide (n < 12))

/-- The implicit clauses of relaxed mode between two labels or directives (R53): each ends after an instruction of class X, or after 15. -/
def implicitClauses : List Instr → List Instr → List (List Instr)
  | [], [] => []
  | acc, [] => [acc]
  | acc, i :: is =>
    if i.cls == .x ∨ acc.length = 14 then (acc ++ [i]) :: implicitClauses [] is else implicitClauses (acc ++ [i]) is
def implicitOk (is : List Instr) : Bool :=
  is.all fun i => i.cls != .v && ((i.ctl.map fun c => c.fsel == .none).getD false)

/-! ### Directives and the parameter block (R54, R55) -/

inductive Directive
  | text | data | rodata
  | spadinit
  | emit (bytes : Nat)
  | align (n : Nat)
  | global_ | local_
  | clause
  | strict | relaxed
  | itinerary
  | stage (n : Nat)
  | endstage
  | threads (n : Nat)
  | regs (n : Nat)
  | spad (n : Nat)
  | acc (n : Nat)
  | gang (pref fall : Nat)
  | instances (n : Option Nat)
  | priority (c : Nat)
  | flags
  | seed (n : Nat)
  | param (size : Nat)
  | guide
  | queue (recSize cap high low : Nat)
deriving DecidableEq, Repr, Inhabited

/-- The limits of R54 and R59. -/
def Directive.ok : Directive → Bool
  | .emit n => [1, 2, 4, 8].contains n
  | .align n => decide (n ≤ 4096) && (List.range 13).any fun k => n == 2 ^ k
  | .stage n => decide (n < 16)
  | .threads n => decide (1 ≤ n) && decide (n ≤ 1536)
  | .regs n => n % 8 == 0 && decide (8 ≤ n) && decide (n ≤ 256)
  | .spad n => n % 128 == 0
  | .acc n => decide (n ≤ 8)
  | .gang p f => [1, 2, 4, 8, 16].contains p && [1, 2, 4, 8, 16].contains f && decide (f ≤ p)
  | .instances (some n) => decide (1 ≤ n) && decide (n < 2 ^ 32)
  | .priority c => decide (c ≤ 3)
  | .seed n => decide (n < 2 ^ 32)
  | .param n => n == 4 || n == 8
  | .queue r c h l => r % 16 == 0 && decide (16 ≤ r) && decide (r ≤ 256) && decide (1 ≤ c) && decide (h ≤ c) && decide (l < h)
  | _ => true

/-- The parameter block of sizes and values, each at the next offset aligned to its size; at most 128 bytes. -/
def paramBlock : List Byte → List (Nat × DWord) → Option (List Byte)
  | b, [] => if b.length ≤ 128 then some b else none
  | b, (n, v) :: ps =>
    if n = 4 ∨ n = 8 then
      paramBlock (b ++ List.replicate ((n - b.length % n) % n) 0 ++ leBytes n v.toNat) ps
    else none

/-- The sum of R56 in bytes: what a stage takes of the banked store. -/
def stageBytes (threads regs spad acc : Nat) : Nat := (threads + 31) / 32 * regs * 128 + spad + 16 * 1024 * acc
def linkOk (threads regs spad acc image : Nat) : Bool :=
  decide (stageBytes threads regs spad acc ≤ 480 * 1024) && decide (image ≤ spad) && decide ((threads + 31) / 32 ≤ 48)

/-! ### Images and relocations (R57, R58) -/

/-- The header fields of an object or image that the loader looks at. -/
structure ElfHead where
  cls     : Nat
  data    : Nat
  version : Nat
  osabi   : Nat
  machine : Nat
  type    : Nat
  entry   : Nat
  flags   : Nat
deriving DecidableEq, Repr, Inhabited

/-- The header of an object, or of an image; `relaxed` says that a clause was formed in relaxed mode. -/
def elfHead (image relaxed : Bool) : ElfHead :=
  { cls := 2, data := 1, version := 1, osabi := 0, machine := 0x5C17, type := if image then 2 else 1, entry := 0
    flags := 1 + 256 * relaxed.toNat }
/-- What a loader accepts. -/
def ElfHead.loads (h : ElfHead) : Bool := h.machine == 0x5C17 && h.flags % 256 == 1 && h.flags / 512 == 0

inductive Reloc
  | none | abs64 | abs32 | clause32 | pcrel32 | lo32 | hi32 | spoff32
deriving DecidableEq, Repr, Inhabited

def Reloc.ofType (n : Nat) : Option Reloc := [Reloc.none, .abs64, .abs32, .clause32, .pcrel32, .lo32, .hi32, .spoff32][n]?

/-- A relocation's field: S + A, the header H of the clause that holds the field, the start and size of the stage's image, and whether
the target is a clause header; none for a link error. -/
def Reloc.field (r : Reloc) (sa h image spad : Nat) (isHeader : Bool) : Option DWord :=
  let d : Int := (sa : Int) - h
  match r with
  | .none => some 0
  | .abs64 => some (BitVec.ofNat 64 sa)
  | .abs32 => if sa < 2 ^ 32 then some (BitVec.ofNat 64 sa) else Option.none
  | .clause32 =>
    if sa % 8 = 0 ∧ h % 8 = 0 ∧ isHeader = true ∧ -2 ^ 31 ≤ d / 8 ∧ d / 8 < 2 ^ 31 then some ((BitVec.ofInt 32 (d / 8)).setWidth 64)
    else Option.none
  | .pcrel32 => if -2 ^ 31 ≤ d ∧ d < 2 ^ 31 then some ((BitVec.ofInt 32 d).setWidth 64) else Option.none
  | .lo32 => some (BitVec.ofNat 64 (sa % 2 ^ 32))
  | .hi32 => some (BitVec.ofNat 64 (sa / 2 ^ 32 % 2 ^ 32))
  | .spoff32 => if image ≤ sa ∧ sa - image < spad then some (BitVec.ofNat 64 (sa - image)) else Option.none

end Sys2Proof.Machine
end

