-- ==== Sys2Proof/Tests/Slice0.lean ====
section
/-! SUPPORT. Tests of the decoder, of well-formedness and of single steps, and for every statement with hypotheses a state that meets
them. The expected words are packed from R28, R29 and the tables of the groups, the expected values worked from the rules. -/
namespace Sys2Proof.Tests
open Sys2Proof

/-! ### Short names -/

def n64 : Ctl := ⟨.l64, 0, false, false, .none, 0⟩
def n96 : Ctl := ⟨.l96, 0, false, false, .none, 0⟩
def n128 : Ctl := ⟨.l128, 0, false, false, .none, 0⟩
def a64 : Ctl := ⟨.l64, 0, false, false, .a, 0⟩
def a96 : Ctl := ⟨.l96, 0, false, false, .a, 0⟩
def a128 : Ctl := ⟨.l128, 0, false, false, .a, 0⟩
def b64 : Ctl := ⟨.l64, 0, false, false, .b, 0⟩
def r (n : Nat) : VSrc := ⟨n, .id⟩

def decodes (guide : Bool) (w : Nat) (i : Instr) : Bool :=
  match decodeNat ⟨true, true, guide⟩ w with
  | .ok j => decide (j = i)
  | .error _ => false

def refuses (guide : Bool) (w code : Nat) : Bool :=
  match decodeNat ⟨true, true, guide⟩ w with
  | .ok _ => false
  | .error c => c == code

/-! ### Decoding: words packed from R28, R29 and the tables of the groups -/

def wordsInteger : List (Bool × Nat × Instr) := [
  (false, 0x0020050000100001, .iadd n64 ⟨.i32, .rne, false, false⟩ ⟨1, r 0, .imm8 5⟩),
  (false, 0x4E1006105040050E + 0x00007000 * 2 ^ 64, .isub ⟨.l96, 3, true, false, .none, 2⟩ ⟨.n16, .rne, true, false⟩ ⟨4, ⟨5, .bc 7⟩, .sca 6⟩),
  (false, 0x1800060040200801, .imul n64 ⟨.i64, .rne, false, false⟩ ⟨2, r 4, .vec 6 .id⟩),
  (false, 0x1405040030200C01, .imulhi n64 ⟨.n8, .rne, false, false⟩ ⟨2, r 3, .vec 4 (.flip 5)⟩),
  (false, 0x0000040030201002 + 0x00C00305 * 2 ^ 64, .imad n96 ⟨.i32, .rne, false, false⟩ ⟨2, r 3, .vec 4 .id, ⟨5, .dn 3⟩⟩),
  (false, 0x1000040030201401, .imin n64 ⟨.i8, .rne, false, false⟩ ⟨2, r 3, .vec 4 .id⟩),
  (false, 0x1C30000040201803 + 0x00000000 * 2 ^ 64 + 0x12345678 * 2 ^ 96, .imax n128 ⟨.n64, .rne, false, false⟩ ⟨2, r 4, .imm32 0x12345678⟩),
  (false, 0x0820FF0030201C02 + 0x00000005 * 2 ^ 64, .iclamp n96 ⟨.i16, .rne, false, false⟩ ⟨2, r 3, .imm8 0xFF, r 5⟩),
  (false, 0x0000002030202001, .iabs n64 ⟨.i32, .rne, false, false⟩ ⟨2, ⟨3, .up 1⟩⟩),
  (false, 0x5800000060202401, .ineg n64 ⟨.i64, .rne, true, false⟩ ⟨2, r 6⟩),
  (false, 0x1400040030202802 + 0x00000005 * 2 ^ 64, .isad n96 ⟨.n8, .rne, false, false⟩ ⟨2, r 3, .vec 4 .id, r 5⟩),
  (false, 0x0000090020402C01, .lea n64 ⟨.i32, .rne, false, false⟩ ⟨4, r 2, .vec 9 .id⟩),
  (false, 0x0040040030203001, .idiv a64 ⟨.i32, .rne, false, false⟩ ⟨2, r 3, .vec 4 .id⟩),
  (false, 0x1C80060040203401, .irem b64 ⟨.n64, .rne, false, false⟩ ⟨2, r 4, .vec 6 .id⟩)]

theorem test_words_integer : (wordsInteger.all fun x => decodes x.1 x.2.1 x.2.2) = true := by decide

def wordsLogic : List (Bool × Nat × Instr) := [
  (false, 0x2000040030210001, .and n64 .b32 ⟨2, r 3, .vec 4 .id⟩),
  (false, 0x2000040030210401, .or n64 .b32 ⟨2, r 3, .vec 4 .id⟩),
  (false, 0x2000040030210801, .xor n64 .b32 ⟨2, r 3, .vec 4 .id⟩),
  (false, 0x1C00000040210C01, .not n64 .n64 ⟨2, r 4⟩),
  (false, 0x2010040030211201, .andn ⟨.l64, 0, false, true, .none, 0⟩ .b32 ⟨2, r 3, .sca 4⟩),
  (false, 0x2000040030211403 + 0x00000005 * 2 ^ 64 + 0x000000E8 * 2 ^ 96, .logic3 n128 .b32 ⟨2, r 3, .vec 4 .id, r 5⟩ 0xE8),
  (false, 0x1C20030040211801, .shl n64 .n64 ⟨2, r 4, .imm8 3⟩),
  (false, 0x1C20030040211C01, .shr n64 .n64 ⟨2, r 4, .imm8 3⟩),
  (false, 0x1C20030040212001, .sar n64 .n64 ⟨2, r 4, .imm8 3⟩),
  (false, 0x1C20030040212401, .rotl n64 .n64 ⟨2, r 4, .imm8 3⟩),
  (false, 0x1C20030040212801, .rotr n64 .n64 ⟨2, r 4, .imm8 3⟩),
  (false, 0x6000040030212C02 + 0x00000005 * 2 ^ 64, .shf n96 true ⟨2, r 3, .vec 4 .id, r 5⟩),
  (false, 0x2000000030213001, .popc n64 .b32 ⟨2, r 3⟩),
  (false, 0x2000000030213401, .clz n64 .b32 ⟨2, r 3⟩),
  (false, 0x2000000030213801, .ctz n64 .b32 ⟨2, r 3⟩),
  (false, 0x2000000030213C01, .brev n64 .b32 ⟨2, r 3⟩),
  (false, 0x0000040030214002 + 0x00000005 * 2 ^ 64, .bfx n96 .i32 ⟨2, r 3, .vec 4 .id, r 5⟩),
  (false, 0x2000040030214402 + 0x00000005 * 2 ^ 64, .bfi n96 ⟨2, r 3, .vec 4 .id, r 5⟩),
  (false, 0x2000040030214801, .bperm n64 ⟨2, r 3, .vec 4 .id⟩)]

theorem test_words_logic : (wordsLogic.all fun x => decodes x.1 x.2.1 x.2.2) = true := by decide

def wordsFloatA : List (Bool × Nat × Instr) := [
  (false, 0x2400040030220001, .fadd n64 ⟨.f32, .rne, false, false⟩ ⟨2, r 3, .vec 4 .id⟩),
  (false, 0x2400040030220401, .fsub n64 ⟨.f32, .rne, false, false⟩ ⟨2, r 3, .vec 4 .id⟩),
  (false, 0x2400040030220801, .fmul n64 ⟨.f32, .rne, false, false⟩ ⟨2, r 3, .vec 4 .id⟩),
  (false, 0x2400040030221001, .fmin n64 ⟨.f32, .rne, false, false⟩ ⟨2, r 3, .vec 4 .id⟩),
  (false, 0x2400040030221401, .fmax n64 ⟨.f32, .rne, false, false⟩ ⟨2, r 3, .vec 4 .id⟩),
  (false, 0x2400040030220C02 + 0x00000005 * 2 ^ 64, .ffma n96 ⟨.f32, .rne, false, false⟩ ⟨2, r 3, .vec 4 .id, r 5⟩),
  (false, 0x2400040030221802 + 0x00000005 * 2 ^ 64, .fclamp n96 ⟨.f32, .rne, false, false⟩ ⟨2, r 3, .vec 4 .id, r 5⟩),
  (false, 0x2400000030221C01, .fabs n64 ⟨.f32, .rne, false, false⟩ ⟨2, r 3⟩),
  (false, 0x2400000030222001, .fneg n64 ⟨.f32, .rne, false, false⟩ ⟨2, r 3⟩),
  (false, 0x2400000030222402 + 0x20000000 * 2 ^ 64, .fround n96 ⟨.f32, .rdn, false, false⟩ ⟨2, r 3⟩),
  (false, 0xA440040030222801, .fdiv a64 ⟨.f32, .rne, false, true⟩ ⟨2, r 3, .vec 4 .id⟩),
  (false, 0x2440000030222C01, .fsqrt a64 ⟨.f32, .rne, false, false⟩ ⟨2, r 3⟩),
  (false, 0x2440000030223001, .frcp a64 ⟨.f32, .rne, false, false⟩ ⟨2, r 3⟩),
  (false, 0x2440000030223401, .frsq a64 ⟨.f32, .rne, false, false⟩ ⟨2, r 3⟩),
  (false, 0x2440000030223801, .fexp2 a64 ⟨.f32, .rne, false, false⟩ ⟨2, r 3⟩),
  (false, 0x2440000030223C01, .flog2 a64 ⟨.f32, .rne, false, false⟩ ⟨2, r 3⟩),
  (false, 0x2440000030224001, .fsin a64 ⟨.f32, .rne, false, false⟩ ⟨2, r 3⟩),
  (false, 0x2440000030224401, .fcos a64 ⟨.f32, .rne, false, false⟩ ⟨2, r 3⟩),
  (false, 0x2440000030224801, .ftanh a64 ⟨.f32, .rne, false, false⟩ ⟨2, r 3⟩),
  (false, 0x2C00040030230001, .hadd n64 ⟨.bf16, .rne, false, false⟩ ⟨2, r 3, .vec 4 .id⟩),
  (false, 0x2C00040030230401, .hsub n64 ⟨.bf16, .rne, false, false⟩ ⟨2, r 3, .vec 4 .id⟩),
  (false, 0x2C00040030230801, .hmul n64 ⟨.bf16, .rne, false, false⟩ ⟨2, r 3, .vec 4 .id⟩),
  (false, 0x2C00040030231001, .hmin n64 ⟨.bf16, .rne, false, false⟩ ⟨2, r 3, .vec 4 .id⟩),
  (false, 0x2C00040030231401, .hmax n64 ⟨.bf16, .rne, false, false⟩ ⟨2, r 3, .vec 4 .id⟩)]

theorem test_words_floatA : (wordsFloatA.all fun x => decodes x.1 x.2.1 x.2.2) = true := by decide

def wordsFloatB : List (Bool × Nat × Instr) := [
  (false, 0x2800040030230C02 + 0x00000005 * 2 ^ 64, .hfma n96 ⟨.f16, .rne, false, false⟩ ⟨2, r 3, .vec 4 .id, r 5⟩),
  (false, 0x2800040030231802 + 0x00000005 * 2 ^ 64, .hclamp n96 ⟨.f16, .rne, false, false⟩ ⟨2, r 3, .vec 4 .id, r 5⟩),
  (false, 0x2800000030231C01, .habs n64 ⟨.f16, .rne, false, false⟩ ⟨2, r 3⟩),
  (false, 0x2800000030232001, .hneg n64 ⟨.f16, .rne, false, false⟩ ⟨2, r 3⟩),
  (false, 0x2800040030232402 + 0x00000005 * 2 ^ 64, .hdot2 n96 ⟨.f16, .rne, false, false⟩ ⟨2, r 3, .vec 4 .id, r 5⟩),
  (false, 0x2840000030232801, .hexp2 a64 ⟨.f16, .rne, false, false⟩ ⟨2, r 3⟩),
  (false, 0x2840000030232C01, .hrcp a64 ⟨.f16, .rne, false, false⟩ ⟨2, r 3⟩)]

theorem test_words_floatB : (wordsFloatB.all fun x => decodes x.1 x.2.1 x.2.2) = true := by decide

def wordsConvert : List (Bool × Nat × Instr) := [
  (false, 0x60001A0080340002 + 0x10000000 * 2 ^ 64, .cvtf n96 ⟨.e4m3, .f16, 1, .rtz, true, false⟩ ⟨3, r 8⟩),
  (false, 0x0000090080340401, .cvtfi n64 ⟨.i32, .f32, 0, .rne, false, false⟩ ⟨3, r 8⟩),
  (false, 0x2800350080340801, .cvtif n64 ⟨.f16, .n8, 3, .rne, false, false⟩ ⟨3, r 8⟩),
  (false, 0x4800060080340C01, .cvtii n64 ⟨.i16, .i64, 0, .rne, true, false⟩ ⟨3, r 8⟩),
  (false, 0x2000090080341002 + 0x40000000 * 2 ^ 64, .pack2 n96 ⟨.e4m3, .bf16, 0, .rne, false, false⟩ ⟨3, r 8, .vec 9 .id⟩),
  (false, 0x24002C0080341401, .unpack n64 ⟨.f32, .e5m2, 2, .rne, false, false⟩ ⟨3, r 8⟩),
  (false, 0x3800090080341802 + 0x0000000C * 2 ^ 64, .cvtblk n96 true .rne ⟨3, r 8, .vec 9 .id, r 12⟩)]

theorem test_words_convert : (wordsConvert.all fun x => decodes x.1 x.2.1 x.2.2) = true := by decide

def wordsCompare : List (Bool × Nat × Instr) := [
  (false, 0x0020000040150002 + 0x00000202 * 2 ^ 64, .icmp n96 .i32 .lt ⟨.set, 1, 2, r 4, .imm8 0⟩),
  (false, 0x2400050044150402 + 0x00000502 * 2 ^ 64, .fcmp n96 false .ge ⟨.and, 1, 2, r 4, .vec 5 .id⟩),
  (false, 0xA800050048150802 + 0x00000082 * 2 ^ 64, .hcmp n96 .f16 true .eq .all ⟨.or, 1, 2, r 4, .vec 5 .id⟩),
  (false, 0x0000430028150C01, .plogic n64 .xor 1 2 false 3 true),
  (false, 0x2C00050040151002 + 0x00000002 * 2 ^ 64, .fclass n96 .bf16 ⟨.set, 1, 2, r 4, .vec 5 .id⟩),
  (false, 0x0020010040051401, .psetv n64 (r 4) true),
  (false, 0x0020000000451801, .pgetv n64 4 false),
  (false, 0x0010050000460001, .mov n64 4 (.sca 5)),
  (false, 0x1C00060050460401, .sel n64 ⟨4, r 5, .vec 6 .id⟩ 7),
  (false, 0x0000000030460801, .movsr n64 4 3),
  (false, 0x0400060080060801, .movsrW n64 8 (.vec 6 .id)),
  (false, 0x0000060050460C01, .perm n64 ⟨4, r 5, .vec 6 .id⟩),
  (false, 0x1400000000461001, .ballot n64 4 5),
  (false, 0x0800000050461401, .vote n64 .uni 4 5),
  (false, 0x0020060050461801, .laneget n64 ⟨4, r 5, .imm8 6⟩)]

theorem test_words_compare : (wordsCompare.all fun x => decodes x.1 x.2.1 x.2.2) = true := by decide

def wordsControl : List (Bool × Nat × Instr) := [
  (false, 0x0000000000070001, .nop n64),
  (false, 0x0000000000070403 + 0x00000000 * 2 ^ 64 + 0x00000008 * 2 ^ 96, .bra n128 8),
  (false, 0x0000000040070801, .jmp n64 (r 4)),
  (false, 0x0000000000470C03 + 0x00000000 * 2 ^ 64 + 0xFFFFFFFF * 2 ^ 96, .call n128 4 0xFFFFFFFF),
  (false, 0x0000000060471001, .calli n64 ⟨4, r 6⟩),
  (false, 0x0000000040071401, .ret n64 (r 4)),
  (false, 0x0000000000071801, .exit n64),
  (false, 0x0000000000071C03 + 0x00000000 * 2 ^ 64 + 0x00000004 * 2 ^ 96, .meet n128 4),
  (false, 0x0400000000071C03 + 0x00000000 * 2 ^ 64 + 0x00000000 * 2 ^ 96, .meetNone n128),
  (false, 0x0020070000072001, .trap n64 (.imm8 7))]

theorem test_words_control : (wordsControl.all fun x => decodes x.1 x.2.1 x.2.2) = true := by decide

def wordsMemory : List (Bool × Nat × Instr) := [
  (false, 0x0C60000040A80051, .ld ⟨.l64, 20, false, false, .a, 0⟩ .n16 .none ⟨10, r 4, .imm8 0⟩),
  (false, 0x2440120022680401, .st a64 .f32 .none ⟨38, r 2, .vec 18 .id⟩),
  (false, 0x0C40050020880802 + 0x08000000 * 2 ^ 64, .ldm a96 4 true ⟨8, r 2, .vec 5 .id⟩),
  (false, 0xFCA0000020080C01, .stm b64 64 false ⟨0, r 2, .imm8 0⟩),
  (false, 0x2060040030881001, .lds a64 .b32 ⟨8, r 3, .imm8 4⟩),
  (false, 0x1840040030881401, .sts a64 .i64 ⟨8, r 3, .vec 4 .id⟩),
  (false, 0x0850040030881801, .ldt a64 2 ⟨8, r 3, .sca 4⟩),
  (false, 0x0060000030881C01, .spres a64 ⟨8, r 3, .imm8 0⟩),
  (false, 0x8060000020082001, .pref a64 .str (r 2) (.imm8 0)),
  (false, 0x0040000000082401, .drainst a64),
  (false, 0x1440000000882801, .sfqpop a64 5 8),
  (false, 0x8440040020890001, .atom a64 .exch .b64 ⟨8, r 2, .vec 4 .id⟩),
  (false, 0x0040040020890402 + 0x00000005 * 2 ^ 64, .atomcas a96 .b32 ⟨8, r 2, .vec 4 .id, r 5⟩),
  (false, 0x00401A01B1C90801, .atoms a64 .add .b32 ⟨28, r 27, .vec 26 .id⟩),
  (false, 0x0440040030890C02 + 0x00000006 * 2 ^ 64, .atomscas a96 .b64 ⟨8, r 3, .vec 4 .id, r 6⟩),
  (false, 0xB840040020091001, .red a64 .fadd .f16 (r 2) (.vec 4 .id)),
  (false, 0x1040000000091401, .fence a64 .cl),
  (false, 0x2040000000091801, .rel a64 .sy),
  (false, 0x0040000000091C01, .acq a64 .th)]

theorem test_words_memory : (wordsMemory.all fun x => decodes x.1 x.2.1 x.2.2) = true := by decide

def wordsGroupA : List (Bool × Nat × Instr) := [
  (false, 0x00600900005A0001, .join a64 5 (.imm8 9)),
  (false, 0x00600900005A0401, .leave a64 5 (.imm8 9)),
  (false, 0x00600900005A0801, .bar a64 5 (.imm8 9)),
  (false, 0x00600900005A0C01, .elect a64 5 (.imm8 9)),
  (false, 0x04600900000A0C01, .electRel a64 (.imm8 9)),
  (false, 0x00400900000A1001, .gkill a64 (.vec 9 .id)),
  (false, 0x80600900308A1401, .gred a64 .i32 .max ⟨8, r 3, .imm8 9⟩),
  (false, 0xA0600900308A1401, .gred a64 .b32 .xor ⟨8, r 3, .imm8 9⟩),
  (false, 0x1C600900408A1801, .gbcast a64 .n64 ⟨8, r 4, .imm8 9⟩),
  (false, 0x20400000008A1C03 + 0x00000000 * 2 ^ 64 + 0x001A000E * 2 ^ 96, .genOpen a128 2 8 14 26),
  (false, 0x04000000000A1C01, .genPoint n64),
  (false, 0x08400000014A1C01, .genTake a64 20),
  (false, 0x0C000000000A1C01, .genNext n64),
  (false, 0x10000000000A1C11, .genPend ⟨.l64, 4, false, false, .none, 0⟩),
  (false, 0x00400000800A2001, .yield a64 8),
  (false, 0x04600400005A2401, .reggrow a64 true 5 (.imm8 4)),
  (false, 0x00500400000A2801, .regshrink a64 (.sca 4)),
  (true, 0x00000300000B0003 + 0x00000000 * 2 ^ 64 + 0x0000000A * 2 ^ 96, .loopn n128 (.vec 3 .id) 10),
  (true, 0x00000000000B0401, .loopend n64),
  (false, 0x00400000600B0801, .dqpush a64 6),
  (false, 0x00400000008B0C01, .dqpop a64 8),
  (false, 0x00400000000B1001, .dqdone a64),
  (false, 0x04200500000B1403 + 0x00000000 * 2 ^ 64 + 0x00000003 * 2 ^ 96, .dqbr n128 true (.imm8 5) 3),
  (true, 0x00600200600B1801, .sqpush a64 6 2)]

theorem test_words_groupA : (wordsGroupA.all fun x => decodes x.1 x.2.1 x.2.2) = true := by decide

def wordsGroupB : List (Bool × Nat × Instr) := [
  (true, 0x14600200006B1C01, .sqpop a64 5 6 2),
  (true, 0x08000700006B2001, .gmov n64 .hi 6 (.vec 7 .id))]

theorem test_words_groupB : (wordsGroupB.all fun x => decodes x.1 x.2.1 x.2.2) = true := by decide

def wordsMatrix : List (Bool × Nat × Instr) := [
  (false, 0x48402C02802C0002 + 0x30000188 * 2 ^ 64, .mma a96 ⟨2, .mxf4, .mxf4, true, 2, 0, 1, 6, 40, 0, 44, 0⟩),
  (false, 0x48402C02802C0402 + 0x30000388 * 2 ^ 64, .mmaj a96 ⟨2, .mxf4, .mxf4, true, 2, 0, 1, 6, 40, 0, 44, 0⟩ true),
  (false, 0x0C400000011C0801, .mrdy a64 1 2 3),
  (false, 0x00400000003C0C01, .mwait a64 3),
  (false, 0x04400000000C0C01, .mwaitAll a64),
  (false, 0x0C600500B08C1001, .mld a64 ⟨8, 4, 3, true, 5⟩),
  (false, 0x1C600500308C1401, .mst a64 ⟨8, 8, 3, false, 5⟩),
  (false, 0x08400000003C1801, .mclr a64 .st 3),
  (false, 0x00400000403C1C01, .mswap a64 3 4),
  (false, 0x00400000308C2001, .mstat a64 8 3),
  (false, 0x00400000308C2401, .ffstat a64 8 3)]

theorem test_words_matrix : (wordsMatrix.all fun x => decodes x.1 x.2.1 x.2.2) = true := by decide

def wordsClaimsA : List (Bool × Nat × Instr) := [
  (false, 0x00400000200D0001, .claimNew a64 0 .mem .mem 2 0),
  (true, 0xA0600001400D0001, .claimNew a64 0 .mem .fifo 20 0),
  (false, 0x00400000003D0002 + 0x08000000 * 2 ^ 64, .claimUse a96 3),
  (false, 0x10400001000D0401, .flowReg a64 0 .cl 16),
  (false, 0x54700000001D0403 + 0x00000000 * 2 ^ 64 + 0x00000040 * 2 ^ 96, .flowImm a128 1 .di 0 0 64),
  (false, 0x10400000000D0801, .flwait a64 0 .cl),
  (false, 0x00400000000D0C01, .clrel a64 0),
  (false, 0x00400500200D1001, .clrevokePg a64 (r 2) (.vec 5 .id)),
  (false, 0x04600900300D1001, .clrevokeK a64 (r 3) 9),
  (false, 0x00400000000D1401, .hdrain a64),
  (false, 0x0C400000214D1802 + 0x00000028 * 2 ^ 64, .mcast a96 4 20 2 40),
  (false, 0x18500500308D1C01, .fred a64 true .min ⟨8, r 3, .sca 5⟩),
  (false, 0x08400003801E0003 + 0x00000000 * 2 ^ 64 + 0x0000001C * 2 ^ 96, .cregOpen a128 true 1 56 28),
  (false, 0x04400000000E0001, .cregClose a64),
  (false, 0x00400003801E0403 + 0x00000000 * 2 ^ 64 + 0x0040001C * 2 ^ 96, .pairOpen a128 1 56 28 64),
  (false, 0x04400000000E0401, .pairClose a64),
  (false, 0x00400000000E0801, .einjPerr a64),
  (false, 0x04400000000E0801, .einjPoison a64),
  (false, 0x08600100000E0855, .einjPmis ⟨.l64, 21, false, false, .a, 0⟩ (.imm8 1)),
  (false, 0x0C400000000E0801, .einjCerr a64),
  (false, 0x00400000208E0C01, .prepair a64 8 (r 2)),
  (false, 0x00400000200E1001, .presume a64 (r 2)),
  (false, 0x04400000200E1001, .presumeFail a64 (r 2)),
  (false, 0x00200700000E1401, .trmark n64 (.imm8 7))]

theorem test_words_claimsA : (wordsClaimsA.all fun x => decodes x.1 x.2.1 x.2.2) = true := by decide

def wordsClaimsB : List (Bool × Nat × Instr) := [
  (false, 0x00600700000E1801, .cntcapStart a64 7),
  (false, 0x04600700008E1801, .cntcapStop a64 8 7),
  (false, 0x00400500000E1C01, .sample a64 (.vec 5 .id))]

theorem test_words_claimsB : (wordsClaimsB.all fun x => decodes x.1 x.2.1 x.2.2) = true := by decide

def wordsSystemA : List (Bool × Nat × Instr) := [
  (false, 0x0040000020AF0001, .launch a64 ⟨10, r 2⟩),
  (false, 0x00200500000F0401, .scall n64 (.imm8 5)),
  (false, 0x00200300000F0801, .mcall n64 3),
  (false, 0x00000000000F0C01, .eret n64),
  (false, 0x00600100205F1001, .tlbfill a64 5 (r 2) true),
  (false, 0x00400500200F1401, .tlbinvPg a64 (r 2) (.vec 5 .id)),
  (false, 0x04600500000F1401, .tlbinvAsid a64 (.imm8 5)),
  (false, 0x08400000000F1401, .tlbinvAll a64),
  (false, 0x00400500200F1801, .cinvPg a64 (r 2) (.vec 5 .id)),
  (false, 0x04600500000F1801, .cinvAsid a64 (.imm8 5)),
  (false, 0x08400000000F1801, .cinvAll a64),
  (false, 0x00600500008F1C01, .ckptIvl a64 8 (.imm8 5)),
  (false, 0x04400000008F1C01, .ckptMem a64 8),
  (false, 0x08400000008F1C01, .ckptMemrst a64 8),
  (false, 0x00600500008F2001, .recctlOff a64 8 (.imm8 5)),
  (false, 0x04600500008F2001, .recctlRec a64 8 (.imm8 5)),
  (false, 0x08600500008F2001, .recctlRpl a64 8 (.imm8 5)),
  (false, 0x00200500008F2401, .movps n64 8 (.imm8 5)),
  (false, 0x04300000800F2403 + 0x00000000 * 2 ^ 64 + 0x00004020 * 2 ^ 96, .movpsW n128 (r 8) (.imm32 0x4020)),
  (false, 0x00600500000F2801, .intctlMask a64 (.imm8 5)),
  (false, 0x04400000000F2801, .intctlWait a64),
  (false, 0x08600001400F2801, .intctlResume a64 (r 20) 0),
  (false, 0x0C400500200F2801, .intctlRespg a64 (r 2) (.vec 5 .id)),
  (false, 0x00400400308F2C01, .ctxsaveInst a64 ⟨8, r 3, .vec 4 .id⟩)]

theorem test_words_systemA : (wordsSystemA.all fun x => decodes x.1 x.2.1 x.2.2) = true := by decide

def wordsSystemB : List (Bool × Nat × Instr) := [
  (false, 0x04400400308F2C01, .ctxsaveCtx a64 ⟨8, r 3, .vec 4 .id⟩),
  (false, 0x08400400308F2C01, .ctxsaveEnd a64 ⟨8, r 3, .vec 4 .id⟩),
  (false, 0x00400400308F3001, .ctxload a64 ⟨8, r 3, .vec 4 .id⟩),
  (false, 0x04400400308F3001, .ctxloadCtx a64 ⟨8, r 3, .vec 4 .id⟩),
  (false, 0x00000000000F3401, .wretFill n64),
  (false, 0x04000000000F3401, .wretServ n64),
  (false, 0x08200300000F3401, .wretDeny n64 3)]

theorem test_words_systemB : (wordsSystemB.all fun x => decodes x.1 x.2.1 x.2.2) = true := by decide

/-! ### WellFormed: a good neighbour, and a term that each check refuses -/

def i32m : Mods := ⟨.i32, .rne, false, false⟩
def f32m : Mods := ⟨.f32, .rne, false, false⟩
def o2 : O2 := ⟨2, r 4, .vec 6 .id⟩
def o3 : O3 := ⟨2, r 4, .vec 6 .id, r 8⟩
def mmaS : MmaF :=
  { ta := .f16, tb := .f16, tile := 0, shape := 0, nz := false, pri := 0, fa := 0, fb := 0, sa := 0, sb := 0, selA := 0, selB := 0 }

def good (is : List Instr) : Bool := is.all fun i => i.wf false
def bad (is : List Instr) : Bool := is.all fun i => !i.wf false
def badG (is : List Instr) : Bool := is.all fun i => i.wf false && !i.wf true

theorem test_wf_good : good [.iadd n64 i32m o2, .imad n96 i32m o3, .fadd n96 { f32m with rnd := .rup } o2, .nop n64, .mma a96 mmaS,
    .ld a64 .b32 .none o2, .mov n128 2 (.imm32 7), .iadd { n64 with once := true } i32m ⟨2, r 3, .sca 63⟩] = true := by decide

/-- A step that no word encodes, a guard predicate 48, a delay 4. -/
theorem test_wf_control : bad [.powerOnBoot [], .nop { n64 with gp := 48 }, .nop { n64 with dly := 4 }] = true := by decide

/-- Sub-cause 5: types, saturation, flush and rounding that a row does not list; R145, R149, R154, R161, R169, R178, R184. -/
theorem test_wf_values : bad [.iadd n64 { i32m with ty := .f32 } o2, .iadd n64 { i32m with ftz := true } o2, .imin n64 { i32m with sat := true } o2,
    .iabs n64 { i32m with ty := .n32 } ⟨2, r 4⟩, .isad n96 { i32m with ty := .i64 } o3, .idiv a64 { i32m with ty := .i16 } o2,
    .imad n96 { i32m with rnd := .rtz } o3, .and n64 .i32 o2, .bfx n96 .b32 o3, .fadd n64 i32m o2, .fmin n96 { f32m with rnd := .rup } o2,
    .fabs n64 { f32m with ftz := true } ⟨2, r 4⟩, .hadd n64 f32m o2, .atom a64 .fadd .b64 o2, .red a64 .exch .b32 (r 4) (.vec 6 .id),
    .atomcas a96 .f16 o3, .gred a64 .f32 .and o2, .gbcast a64 .i32 o2, .genOpen a128 1 0 0 0, .genOpen a128 1 33 0 0, .sqpush a64 2 32,
    .mma a96 { mmaS with tb := .i8 }, .mma a96 { mmaS with shape := 8 }, .mma a96 { mmaS with sa := 1 },
    .mma a96 { mmaS with ta := .i8, tb := .i8, nz := true }, .mrdy a64 0 0 8, .pairOpen a128 1 8 0 15, .cntcapStart a64 16,
    .scall n64 (.imm32 0), .intctlMask a64 (.sca 0), .wretDeny n64 0, .wretDeny n64 5] = true := by decide

/-- Sub-cause 6: lengths. -/
theorem test_wf_lengths : bad [.imad n64 i32m o3, .nop n128, .icmp n64 .i32 .eq ⟨.and, 1, 2, r 4, .vec 6 .id⟩, .bra n64 0, .mma a64 mmaS,
    .mwait a96 0, .trmark n96 (.vec 6 .id), .mov n64 2 (.imm32 7)] = true := by decide

/-- Sub-cause 6: odd pairs, registers past the file, predicates past 47, a label register, kinds of source B. -/
theorem test_wf_registers : bad [.iadd n64 { i32m with ty := .i64 } ⟨3, r 4, .vec 6 .id⟩, .iadd n64 { i32m with ty := .i64 } ⟨2, r 5, .vec 6 .id⟩,
    .iadd n64 { i32m with ty := .n64 } ⟨2, r 4, .sca 3⟩, .iadd n64 i32m ⟨256, r 4, .vec 6 .id⟩, .iadd n64 i32m ⟨2, r 256, .vec 6 .id⟩,
    .iadd n64 i32m ⟨2, r 4, .sca 64⟩, .ldm a64 4 false ⟨2, r 4, .imm8 0⟩, .ballot n64 2 48,
    .vote n64 .any 48 1, .logic3 n128 .b32 ⟨2, r 4, .imm8 0, r 8⟩ 0, .laneget n64 ⟨2, r 4, .vec 6 .id⟩, .dqpush a64 3, .dqpop a64 62,
    .clrel a64 64] = true := by decide

/-- ONCE (R33): its opcodes, no vector source B, registers below 64, no permutation. -/
theorem test_wf_once : bad [.fadd { n64 with once := true } f32m o2, .iadd { n64 with once := true } i32m o2,
    .iadd { n64 with once := true } i32m ⟨64, r 3, .sca 5⟩, .iadd { n64 with once := true } i32m ⟨2, r 64, .sca 5⟩,
    .iadd { n64 with once := true } i32m ⟨2, ⟨3, .up 1⟩, .sca 5⟩, .iabs { n64 with once := true } i32m ⟨2, r 3⟩] = true := by decide

/-- What a word can carry: permutations and roundings of 64-bit forms, permutation parameters, a flag for class V (R36). -/
theorem test_wf_fields : bad [.iadd n64 i32m ⟨2, ⟨4, .up 2⟩, .vec 6 .id⟩, .iadd n64 i32m ⟨2, r 4, .vec 6 (.bc 1)⟩,
    .iadd n96 i32m ⟨2, ⟨4, .up 32⟩, .vec 6 .id⟩, .iadd n96 i32m ⟨2, ⟨4, .bfly 5⟩, .vec 6 .id⟩, .iadd n96 i32m ⟨2, ⟨4, .flip 0⟩, .vec 6 .id⟩,
    .fadd n64 { f32m with rnd := .rup } o2, .idiv n64 i32m o2, .movsr n64 2 256, .ldm a64 65 false ⟨128, r 4, .imm8 0⟩, .mwait a64 8,
    .mswap a64 0 8, .mcast a96 33 64 2 16, .perm n64 ⟨2, ⟨4, .up 1⟩, .vec 6 .id⟩] = true := by decide

/-- The Guide (R117, R158): 64 registers, no scalar source B. -/
theorem test_wf_guide : badG [.iadd n64 i32m ⟨64, r 4, .vec 6 .id⟩, .iadd n64 i32m ⟨2, r 4, .sca 6⟩] = true := by decide

/-! ### Words that the checks of R41 refuse, with their sub-cause -/

/-- LEN 00 (R28); GP 48 (R32); an opcode of no row (R42, R43); a type IADD does not list (R86) and ONCE on FADD (R33); IMAD in 64 bits
(R30) and an odd pair (R84); IDIV without a flag (R36). -/
theorem test_refused_words : refuses false 0x0020050000100000 2 = true ∧ refuses false (0x0020050000100001 + 48 * 4) 3 = true ∧
    refuses false 0x002005000010F001 4 = true ∧ refuses false 0x2420050000100001 5 = true ∧ refuses false 0x2400040030220201 5 = true ∧
    refuses false 0x0000040030201001 6 = true ∧ refuses false 0x1800060040300801 6 = true ∧ refuses false 0x0000040030203001 7 = true := by decide

/-- The header checks of R25 and R26 that stand in the header alone (NI 0, SIZE 1), no header (R27), and reserved or disallowed fields. -/
theorem test_refused_headers : decodeHeader 0 = .error 2 ∧ decodeHeader 0x44 = .error 2 ∧ decodeHeader 0x85 = .error 11 ∧ decodeHeader 0x1000000084 = .error 5 ∧
    decodeHeader 0x1C000084 = .error 5 ∧ decodeHeader 0x1000084 = .error 5 := by decide

open Sys2Proof.Machine
/-! ### Small states in which instructions issue -/

/-- A clause at 0x1000 with flags 0 and 1, of four instructions. -/
def hdr4 : Header := { yld := false, land := false, seta := some 0, setb := some 1, wait := 0, size := 5, ni := 4 }

/-- Two threads of one home warp at the first instruction of that clause. -/
def is2 : Issue :=
  { q := .part 0 0, iid := 400, hdrAt := 0x1000, hdr := hdr4, addr := 0x1008, idx := 0, slot := 0
    lanes := [⟨0, 0, true⟩, ⟨1, 1, true⟩] }

def thread0 : Thread := { pc := 0x1008, status := .ready }
def warp64 : HWarp := { n := 64, vb := 0 }

/-- A stage instance of two threads, with 4 KiB of scratchpad, four accumulator tiles and a Guide. -/
def inst2 : Inst :=
  { kind := .stage, ctx := 3, launch := 1, stage := 0, core := 0, no := 0, gang := 1, threads := 2, spadSize := 4096, accTiles := 8
    guide := true, ths := [(0, thread0), (1, thread0), (2, thread0)], hws := [(0, warp64), (63, warp64)] }

/-- Vector code at U. -/
def userSt : State :=
  { State.reset with focus := some (.part 0 0), issues := [is2], insts := sput State.reset.insts 400 inst2 }

/-- The Guide of the same instance: its thread has the number 2. -/
def isG : Issue := { is2 with q := .guide 0, lanes := [⟨0, 2, true⟩] }
def guideSt : State := { userSt with focus := some (.guide 0), issues := [isG] }

/-- The threads of a steward core of die 0: core 1 at S, core 0 at M. -/
def isS : Issue := { is2 with q := .steward 0 1, iid := 1, lanes := [⟨0, 0, true⟩] }
def superSt : State := { State.reset with focus := some (.steward 0 1), issues := [isS] }
def isM : Issue := { isS with q := .steward 0 0, iid := 0 }
def monSt : State := { State.reset with focus := some (.steward 0 0), issues := [isM] }

/-- A walk of cluster 0 in its walker slot. -/
def isW : Issue := { isS with q := .walker 0, iid := walkerId 0 }
def walk0 : Walk :=
  { ctrl := 0, asid := 5, page := 0x400000, kind := 0, priv := 0, world := 0, ctx := 3, cluster := some 0, filled := false, stale := false }
def walkSt : State :=
  { State.reset with focus := some (.walker 0), issues := [isW], walks := [walk0]
                     insts := sput State.reset.insts (walkerId 0) (State.reset.walkerInst walk0)
                     clusters := [(0, { (State.reset.cluster 0) with walk := some 0 })] }

def issuesIn (s : State) (is : Issue) (i : Instr) : Bool :=
  match i.ctl with
  | some c => issuesB s is i c []
  | none => false


/-! ### Witnesses: what the statements suppose holds together somewhere -/

def ctlOf (i : Instr) : Ctl := i.ctl.getD n64

theorem issues_all {s : State} {is : Issue} {l : List Instr} (h : (l.all fun i => issuesB s is i (ctlOf i) []) = true) :
    ∀ i ∈ l, Issues s is i (ctlOf i) [] := fun i hi => issues_of_issuesB (List.all_eq_true.mp h i hi)

def instrs (l : List (Bool × Nat × Instr)) : List Instr := l.map fun x => x.2.2

/-- Vector code at U: integer, address and division forms. -/
theorem witness_integer : ∀ i ∈ instrs wordsInteger, Issues userSt is2 i (ctlOf i) [] := issues_all (by decide)
theorem witness_logic : ∀ i ∈ instrs wordsLogic, Issues userSt is2 i (ctlOf i) [] := issues_all (by decide)
theorem witness_floatA : ∀ i ∈ instrs wordsFloatA, Issues userSt is2 i (ctlOf i) [] := issues_all (by decide)
theorem witness_floatB : ∀ i ∈ instrs wordsFloatB, Issues userSt is2 i (ctlOf i) [] := issues_all (by decide)
theorem witness_convert : ∀ i ∈ instrs wordsConvert, Issues userSt is2 i (ctlOf i) [] := issues_all (by decide)
theorem witness_compare_moves : ∀ i ∈ instrs wordsCompare, Issues userSt is2 i (ctlOf i) [] := issues_all (by decide)
theorem witness_control : ∀ i ∈ instrs wordsControl, Issues userSt is2 i (ctlOf i) [] := issues_all (by decide)
theorem witness_memory : ∀ i ∈ instrs wordsMemory, Issues userSt is2 i (ctlOf i) [] := issues_all (by decide)
theorem witness_groups : ∀ i ∈ (instrs (wordsGroupA ++ wordsGroupB)).filter fun i => !guideOnly i, Issues userSt is2 i (ctlOf i) [] :=
  issues_all (by decide)
theorem witness_matrix : ∀ i ∈ instrs wordsMatrix, Issues userSt is2 i (ctlOf i) [] := issues_all (by decide)
theorem witness_claims : ∀ i ∈ (instrs (wordsClaimsA ++ wordsClaimsB)).filter fun i => minLevel i == 0 && !repairOnly i,
    Issues userSt is2 i (ctlOf i) [] := issues_all (by decide)
/-- Guide code: its own instructions. -/
theorem witness_guide : ∀ i ∈ (instrs (wordsGroupA ++ wordsGroupB)).filter fun i => guideOnly i, Issues guideSt isG i (ctlOf i) [] :=
  issues_all (by decide)
/-- A steward core at S, and at M. -/
theorem witness_supervisor : ∀ i ∈ (instrs (wordsClaimsA ++ wordsClaimsB ++ wordsSystemA ++ wordsSystemB)).filter fun i =>
    decide (minLevel i ≤ 1) && !walkerOnly i, Issues superSt isS i (ctlOf i) [] := issues_all (by decide)
theorem witness_monitor_level : ∀ i ∈ instrs wordsSystemA |>.filter fun i => minLevel i == 2, Issues monSt isM i (ctlOf i) [] :=
  issues_all (by decide)
/-- A walker slot. -/
theorem witness_walker : ∀ i ∈ (instrs (wordsSystemA ++ wordsSystemB)).filter walkerOnly, Issues walkSt isW i (ctlOf i) [] :=
  issues_all (by decide)

/-- DecodeOfEncode: every word above is that of a well-formed instruction, and the encoder gives it. -/
def roundTrips (l : List (Bool × Nat × Instr)) : Bool :=
  l.all fun x => x.2.2.wf x.1 && match encode x.2.2 with
    | some (_, w) => w == x.2.1
    | none => false
theorem test_encode_a : roundTrips (wordsInteger ++ wordsLogic ++ wordsFloatA ++ wordsFloatB) = true := by decide
theorem test_encode_b : roundTrips (wordsConvert ++ wordsCompare ++ wordsControl ++ wordsMemory) = true := by decide
theorem test_encode_c : roundTrips (wordsGroupA ++ wordsGroupB ++ wordsMatrix ++ wordsClaimsA) = true := by decide
theorem test_encode_d : roundTrips (wordsClaimsB ++ wordsSystemA ++ wordsSystemB) = true := by decide

/-- HeaderOfEncode, at both ends of its ranges. -/
def hdrLow : Header := { yld := false, land := true, seta := none, setb := some 0, wait := 0, size := 2, ni := 1 }
def hdrHigh : Header := { yld := true, land := false, seta := some 11, setb := none, wait := 0xFFF, size := 63, ni := 15 }
theorem test_headers : (decodeHeader hdrLow.encode = .ok hdrLow ∧ hdrLow.encode = 0x600000084) ∧
    decodeHeader hdrHigh.encode = .ok hdrHigh ∧ hdrHigh.encode = 0x81BFFFFFC := by decide


/-- StepRunsDecodedInstruction: everything that it supposes of the sequencer, its clause and its two fetches. -/
def fetches (s : State) : Bool :=
  match s.agenda, s.issues with
  | .seq q :: _, is :: _ =>
    let t := { s with agenda := s.agenda.tail, fresh := s.fresh + 1, focus := some q }
    is.q == q && is.stopAt == none && match t.fetch (.fetch is.iid (lowest is.lanes).tid) is.iid (lowest is.lanes).tid is.addr.toNat 8 with
      | (.bytes b, t) => (match lenOf (natOf b) with
        | none => false
        | some len => decide (is.addr.toNat % 32 + len.bytes ≤ 32) &&
          (!opcX (field (natOf b) 10 10) (field (natOf b) 58 6) || decide (is.hdr.ni ≤ is.idx + 1)) &&
          match (if len.bytes = 8 then (.bytes [], t) else
            t.fetch (.fetch is.iid (lowest is.lanes).tid) is.iid (lowest is.lanes).tid (is.addr.toNat + 8) (len.bytes - 8)) with
          | (.bytes b', _) => (match decodeNat (is.hdr.ctx is.guide) (natOf b + natOf b' * 2 ^ 64) with | .ok _ => true | .error _ => false)
          | _ => false)
      | _ => false
  | _, _ => false
theorem witness_step_runs : fetches (State.reset.withFetchWord 64 0x0000000000071801) = true ∧
    fetches (State.reset.withFetchWord 128 (0x0000000000070403 + 0x00000008 * 2 ^ 96)) = true := by decide

def nexts (o : Host.Outcome State Fault Refusal) : Bool := match o with | .next _ => true | _ => false
theorem witness_step_keeps : Memory.wf (State.reset.withFetchWord 64 0x0000000000070001).mem = true ∧
    nexts (step (State.reset.withFetchWord 64 0x0000000000070001)) = true := by decide

/-- RegisterReadsBack: the instance, its thread and its home warp exist; predicate 47 is the last. -/
theorem witness_registers : userSt.inst? 400 = some inst2 ∧ inst2.th? 1 = some thread0 ∧ find? inst2.hws 0 = some warp64 ∧
    Loc.p 1 47 ≠ .p 1 0 ∧ regKey 3 1 ≠ regKey 4 1 := by decide

/-- ReadOldRule, on both sides of the slot at which the result is readable. -/
theorem witness_read_old : (userSt.inst is2.iid).hazard (.v 0 5) = false ∧
    (let w : FWrite := { loc := .v 0 5, val := 7, slot := 2, lat := 3, raise := false, done := false }
     w.slot + w.lat + 0 ≤ ({ is2 with slot := 5 } : Issue).slot ∧ ({ is2 with slot := 5 } : Issue).slot < w.slot + w.lat + 1) := by decide

theorem witness_float_corners : (Fmt.f32.value false 0x7FC00000).isNan = true ∧ (Fmt.f16.value true 0x7C01).isNan = true := by decide

/-- SpecialRegisterWrites: one thread issues; each register that MOVSR.w writes. -/
theorem witness_special_writes : (∀ k ∈ [5, 6, 7, 8, 10], Issues superSt isS (.movsrW n64 k (.imm8 1)) n64 []) ∧
    (superSt.runs isS n64).length = 1 :=
  ⟨fun k hk => issues_of_issuesB (by revert k hk; decide), by decide⟩

/-- IndirectTransfers: a steward's register holds the address of a header with LAND in the physical aperture. -/
def jmpSt : State :=
  ((superSt.setBytes 0x1000 (leBytes 8 (0x400000084))).writeLoc 1 (.v 0 4) 0x1000).writeLoc 1 (.v 0 5) 0x01D00000
theorem witness_indirect : Issues jmpSt isS (.jmp n64 (r 4)) n64 [] ∧ Issues jmpSt isS (.ret n64 (r 4)) n64 [] ∧
    Issues jmpSt isS (.calli n64 ⟨6, r 4⟩) n64 [] ∧ jmpSt.runs isS n64 ≠ [] ∧
    ∀ x ∈ (checkTargets isS true jmpSt ((jmpSt.runs isS n64).map fun r => (r.t.tid, jmpSt.srcV isS r true ⟨4, .id⟩))).1, x.2.2 = .ok :=
  ⟨issues_of_issuesB (by decide), issues_of_issuesB (by decide), issues_of_issuesB (by decide), by decide, by decide⟩

theorem witness_exit : Issues userSt is2 (.exit n64) n64 [] ∧
    ∀ r ∈ userSt.runs is2 n64, ((userSt.inst is2.iid).hw ((userSt.inst is2.iid).hwOf r.t.tid)).basket = none :=
  ⟨issues_of_issuesB (by decide), by decide⟩

/-- GuideLoops: the count 0, a count below four levels, four levels in use, a level to pop, no level. -/
def loopSt : State := guideSt.modInst 400 fun i => { i with loops := [⟨0x1000, 0x1080, 3⟩] }
def deepSt : State := guideSt.modInst 400 fun i => { i with loops := List.replicate 4 ⟨0x1000, 0x1080, 3⟩ }
theorem witness_loops : (guideSt.runs isG n128).length = 1 ∧ Issues guideSt isG (.loopn n128 (.imm8 0) 4) n128 [] ∧
    (∀ r ∈ guideSt.runs isG n128, (guideSt.srcB isG r .n32 (.imm8 0)).toNat % 2 ^ 32 = 0 ∧
      (guideSt.srcB isG r .n32 (.imm8 9)).toNat % 2 ^ 32 = 9) ∧
    (guideSt.inst 400).loops.length < 4 ∧ Issues loopSt isG (.loopend n64) n64 [] ∧ (loopSt.inst 400).loops.length = 1 ∧
    Issues guideSt isG (.loopend n64) n64 [] ∧ (guideSt.inst 400).loops = [] ∧
    Issues deepSt isG (.loopn n128 (.imm8 0) 4) n128 [] ∧ (deepSt.inst 400).loops.length = 4 :=
  ⟨by decide, issues_of_issuesB (by decide), by decide, by decide, issues_of_issuesB (by decide), by decide,
    issues_of_issuesB (by decide), by decide, issues_of_issuesB (by decide), by decide⟩

theorem witness_trap : Issues userSt is2 (.trap n64 (.imm8 7)) n64 [] ∧ userSt.runs is2 n64 ≠ [] ∧
    ∀ r ∈ userSt.runs is2 n64, (userSt.srcB is2 r .b32 (.imm8 7)).toNat % 256 = 7 :=
  ⟨issues_of_issuesB (by decide), by decide, by decide⟩

/-- CallsForService: SCALL and MCALL of compute threads; MCALL of a steward at S and at M. -/
theorem witness_calls : Issues userSt is2 (.scall n64 (.imm8 7)) n64 [] ∧ Issues userSt is2 (.mcall n64 7) n64 [] ∧
    (userSt.inst is2.iid).kind = .stage ∧ (∀ r ∈ userSt.runs is2 n64, (userSt.srcB is2 r .b32 (.imm8 7)).toNat % 256 = 7 ∧
      (userSt.inst is2.iid).hwOf r.t.tid = 0) ∧ (7 : BitVec 8).toNat < 8 ∧
    Issues superSt isS (.mcall n64 0) n64 [] ∧ superSt.runs isS n64 ≠ [] ∧ (superSt.inst isS.iid).kind = .steward ∧
    ((superSt.inst isS.iid).th 0).level = 1 ∧
    Issues monSt isM (.mcall n64 0) n64 [] ∧ monSt.runs isM n64 ≠ [] ∧ (monSt.inst isM.iid).kind ≠ .stage ∧
    ((monSt.inst isM.iid).th 0).level = 2 :=
  ⟨issues_of_issuesB (by decide), issues_of_issuesB (by decide), by decide, by decide, by decide, issues_of_issuesB (by decide),
    by decide, by decide, by decide, issues_of_issuesB (by decide), by decide, by decide, by decide⟩

/-- StewardEntry: IE of the level set; IE of S clear with IE of M set, and with IE of M clear. -/
def ieSt (ie1 ie2 : Bool) : State :=
  superSt.setSteward 1 (((superSt.steward 1).setRegs 1 { (superSt.steward 1).regs 1 with ie := ie1 }).setRegs 2
    { (superSt.steward 1).regs 2 with ie := ie2 })
theorem witness_steward_entry : ((ieSt true true).inst? 1).isSome = true ∧ (((ieSt true true).inst 1).th? 0).isSome = true ∧
    (((ieSt true true).steward 1).regs 1).ie = true ∧ (((ieSt true true).steward 1).regs 2).ie = true ∧
    (((ieSt false true).steward 1).regs 1).ie = false ∧ (((ieSt false true).steward 1).regs 2).ie = true ∧
    (((ieSt false false).steward 1).regs 1).ie = false ∧ (((ieSt false false).steward 1).regs 2).ie = false := by decide

theorem witness_eret : Issues superSt isS (.eret n64) n64 [] ∧ superSt.runs isS n64 ≠ [] ∧ (superSt.inst isS.iid).kind = .steward :=
  ⟨issues_of_issuesB (by decide), by decide, by decide⟩


/-! Operations in flight, groups, queues. -/

/-- A part of thread 0 of an operation in flight. -/
def part0 (args : List DWord) : Part := { tid := 0, lane := 0, args, done := 0, arrived := false }
/-- An operation of thread 0 of the stage instance, with flag 0. -/
def op0 (i : Instr) (args : List DWord) : PendOp :=
  { id := 900, iid := 400, ins := i, hdr := 0x1000, idx := 0, born := 0, flag := some 0, shares := [⟨0, 0, [0]⟩], parts := [part0 args]
    lanes := is2.lanes }
def opSt (i : Instr) (args : List DWord) : State := { userSt with ops := [op0 i args] }

theorem witness_compute_completion :
    let o := op0 (.idiv a64 ⟨.i32, .rne, false, false⟩ ⟨2, r 3, .vec 4 .id⟩) [7, 0]
    let s := opSt o.ins [7, 0]
    s.op? 900 = some o ∧ o.part? 0 = some (part0 [7, 0]) ∧ ((s.inst o.iid).th 0).status ≠ .exited := by decide

/-- StoresStart, ScratchpadOperations: nothing holds the stores, no line is absent. -/
theorem witness_stores : userSt.storeHeld is2 (userSt.runs is2 a64) 64 = false ∧ superSt.storeHeld isS (superSt.runs isS a64) 8 = false ∧
    userSt.fullHeld is2 (userSt.runs is2 a64) = false ∧ userSt.lineWaits is2 (.lds a64 .b32 ⟨8, r 3, .imm8 4⟩) ((userSt.runs is2 a64).map fun r => (r, [4])) = [] ∧
    userSt.lineWaits is2 (.atoms a64 .add .b32 ⟨28, r 27, .vec 26 .id⟩) ((userSt.runs is2 a64).map fun r => (r, [4, 1, 0])) = [] := by
  decide

/-- OperationsStart: a load of a thread without and of one with an injected poison; a tile move under a pending pass and without one. -/
def poisonSt : State := (userSt.modTh 400 0 fun t => { t with poison := true }).writeLoc 400 (.v 0 2) 0x400000
def is1 : Issue := { is2 with lanes := [⟨0, 0, true⟩] }
theorem witness_starts : Issues userSt is2 (.ld a64 .b32 .none ⟨8, r 2, .imm8 0⟩) a64 [] ∧
    (∀ r ∈ userSt.runs is2 a64, ((userSt.inst is2.iid).th r.t.tid).poison = false) ∧
    Issues { poisonSt with issues := [is1] } is1 (.ld a64 .b32 .none ⟨8, r 2, .imm8 0⟩) a64 [] ∧ (poisonSt.runs is1 a64).length = 1 ∧
    ((poisonSt.inst 400).th 0).poison = true ∧
    (∀ q ∈ poisonSt.runs is1 a64, aperOf (poisonSt.ea is1 q (r 2) (.imm8 0)).toNat = .mem) ∧
    userSt.tileMark (userSt.inst 400) 0 = 0 ∧ userSt.tileMark (userSt.inst 400) 1 = 0 :=
  ⟨issues_of_issuesB (by decide), by decide, issues_of_issuesB (by decide), by decide, by decide, by decide, by decide, by decide⟩

/-- OrderingOperations: a context whose virtual function does not limit the system scope, one that demotes it, one that traps. -/
def limSt (trap : Bool) : State := userSt.setVf 0 { (userSt.vf 0) with scopeLim := true, trapDemote := trap }
def isFree : Limit → Bool | .free => true | _ => false
def isDemoted : Limit → Bool | .demoted _ => true | _ => false
def isTrapped : Limit → Bool | .trapped _ => true | _ => false
theorem witness_ordering :
    (∀ i ∈ [Instr.acq a64 .sy, .fence a64 .sy, .rel a64 .sy], Issues userSt is2 i a64 [] ∧ Issues (limSt true) is2 i a64 [] ∧
      Issues (limSt false) is2 i a64 []) ∧
    isFree (userSt.limit is2 ((userSt.runs is2 a64).map (·.t.tid)) 8 0x247) = true ∧
    isDemoted ((limSt false).limit is2 (((limSt false).runs is2 a64).map (·.t.tid)) 8 0x247) = true ∧
    isTrapped ((limSt true).limit is2 (((limSt true).runs is2 a64).map (·.t.tid)) 8 0x247) = true :=
  ⟨fun i hi => ⟨issues_of_issuesB (by revert i hi; decide), issues_of_issuesB (by revert i hi; decide),
    issues_of_issuesB (by revert i hi; decide)⟩, by decide⟩

/-- ActingOperations: PAIR.OPEN of an instance that is not paired, and of one that is; SAMPLE without sampling. -/
def pairSt : State := userSt.modInst 400 fun i => { i with paired := true }
theorem witness_acting : (userSt.inst is2.iid).paired = false ∧ Issues userSt is2 (.pairOpen a128 1 56 28 64) a128 [] ∧
    (pairSt.inst is2.iid).paired = true ∧ Issues pairSt is2 (.pairOpen a128 1 56 28 64) a128 [] ∧
    Issues userSt is2 (.sample a64 (.vec 5 .id)) a64 [] ∧
    (userSt.die ((userSt.inst is2.iid).die is2.iid)).trace.ctl.getLsbD 0 = false :=
  ⟨by decide, issues_of_issuesB (by decide), by decide, issues_of_issuesB (by decide), issues_of_issuesB (by decide), by decide⟩

/-- MatrixRequests: a free entry; the first half of a joint request; its second half. -/
def mma0 : MmaF :=
  { tile := 2, ta := .mxf4, tb := .mxf4, nz := true, pri := 2, fa := 0, fb := 1, shape := 6, sa := 40, selA := 0, sb := 44, selB := 0 }
def rsv0 : Rsv :=
  { iid := 400, core := 0, part := 0, hw := 0, f := mma0, joint := true, half := some 0, posted := 0, ops := [900], mask := 3
    lanes0 := is2.lanes, lanes1 := [], prio := 2, granted := none, timeout := false, seen := [], opA := [], opB := [], spoilTile := false
    spoilRows := 0, spoilCols := 0 }
def halfSt : State := userSt.modCluster 0 fun k => { k with resv := [(0, rsv0)] }
theorem witness_matrix_requests : Issues userSt is2 (.mma a96 mma0) a96 [] ∧
    (lowestFree (userSt.cluster (userSt.inst is2.iid).engine).resv).isSome = true ∧
    Issues userSt is2 (.mmaj a96 mma0 true) a96 [] ∧ userSt.jointOf is2.iid mma0 = none ∧
    Issues halfSt is2 (.mmaj a96 mma0 true) a96 [] ∧ halfSt.jointOf is2.iid mma0 = some (0, rsv0) ∧
    rsv0.half = some (1 - true.toNat) ∧ rsv0.f = mma0 :=
  ⟨issues_of_issuesB (by decide), by decide, issues_of_issuesB (by decide), by decide, issues_of_issuesB (by decide), by decide, by decide,
    by decide⟩

/-- GeneratorMode: a whole home warp without a Basket; one with a Basket that fills; one that consumes. -/
def is32 : Issue := { is2 with lanes := (List.range 32).map fun k => ⟨k, k, true⟩ }
def warpSt : State :=
  { userSt with issues := [is32]
                insts := sput State.reset.insts 400 { inst2 with threads := 32, ths := (List.range 32).map fun k => (k, thread0), guide := false } }
def basket0 : Basket :=
  { w := 2, t := 8, f0 := { entries := [[1, 2]], age := 0 }, f1 := Frame.empty, filling := false, consEntry := 0x1070, exitHdr := 0x10D0
    yielded := false, consuming := none, draining := false, nexted := [], ages := 1 }
def fillSt : State := warpSt.modHw 400 0 fun w => { w with basket := some basket0 }
def consSt : State := warpSt.modHw 400 0 fun w => { w with basket := some { basket0 with consuming := some false } }
theorem witness_generator : Issues warpSt is32 (.genOpen a128 2 8 14 26) a128 [] ∧ ((warpSt.inst 400).hw 0).basket = none ∧
    is32.gopen = none ∧ is32.lanes.length = 32 ∧ (warpSt.runs is32 a128).length = 32 ∧
    (∀ l ∈ is32.lanes, (warpSt.inst 400).hwOf l.tid = (warpSt.inst 400).hwOf (lowest is32.lanes).tid) ∧
    ((fillSt.inst 400).hw 0).basket = some basket0 ∧ Issues fillSt is32 (.yield a64 8) a64 [⟨8, 2, false⟩] ∧ fillSt.runs is32 a64 ≠ [] ∧
    basket0.consuming = none ∧ basket0.yielded = false ∧ Issues fillSt is32 (.genPoint n64) n64 [] ∧
    Issues fillSt is32 (.genPend n64) n64 [] ∧ (fillSt.ctx 3).ccb.recB = false ∧ (fillSt.ctx 3).ccb.rplB = false ∧
    ((consSt.inst 400).hw 0).basket = some { basket0 with consuming := some false } ∧
    Issues consSt is32 (.genTake a64 20) a64 [⟨20, 2, false⟩] ∧ Issues consSt is32 (.genNext n64) n64 [] :=
  ⟨issues_of_issuesB (by decide), by decide, by decide, by decide, by decide, by decide, by decide, issues_of_issuesB (by decide),
    by decide, by decide, by decide, issues_of_issuesB (by decide), issues_of_issuesB (by decide), by decide, by decide, by decide,
    issues_of_issuesB (by decide), issues_of_issuesB (by decide)⟩

/-- QueuesAndGrowth: permits; queues with room, with a record, without records and without a producer that still runs. -/
def stage0 : StageSt :=
  { entry := 0x1000, guide := 0, threads := 2, regs := 64, acc := 0, preemptible := true, paired := false, record := false, queued := false
    spad := 0, pref := 0, fall := 0, prio := 0, param := [], seed := 0, image := [], handler := 0, total := 1, placed := 1, pendGang := []
    waitFrom := 0 }
def queue0 (p c : Nat) (recs : List (List DWord)) : StageQ :=
  { producer := p, consumer := c, recSize := 16, cap := 4, high := 1, low := 1, recs, seqNo := 0 }
def launch0 (recs : List (List DWord)) : Launch :=
  { id := 1, die := 0, ctx := 3, prio := 0, completion := 0, stages := [stage0, stage0], queues := [queue0 0 1 [], queue0 1 0 recs]
    by_ := 3, started := true }
def queueSt (recs : List (List DWord)) : State :=
  { (guideSt.modCore 0 fun k => { k with permits := 3 }) with launches := [launch0 recs] }
theorem witness_queues_guide : Issues (queueSt []) isG (.dqpush a64 6) a64 [] ∧ (queueSt []).runs isG a64 ≠ [] ∧
    ((queueSt []).core ((queueSt []).inst 400).core).permits ≠ 0 ∧
    Issues (queueSt []) isG (.sqpush a64 6 0) a64 [⟨6, 2, false⟩] ∧
    (queueSt []).sqCheck ((queueSt []).inst 400) 0 6 true = .ok (queue0 0 1 []) ∧
    (∀ t ∈ ((queueSt []).inst 400).sides ((queueSt []).pairedStage ((queueSt []).inst 400) 1),
      ((queue0 0 1 []).held t).length + (queueSt []).sqGoing ((queueSt []).inst 400) 0 < (queue0 0 1 []).cap) ∧
    ((queueSt []).inst 400).sides ((queueSt []).pairedStage ((queueSt []).inst 400) 1) = [false] ∧
    (queue0 1 0 []).held ((queueSt []).inst 400).trailing = [] ∧
    (queue0 1 0 [[1, 2]]).held ((queueSt [[1, 2]]).inst 400).trailing = [[1, 2]] ∧
    Issues (queueSt []) isG (.sqpop a64 5 6 1) a64 [⟨6, 2, false⟩] ∧
    (queueSt []).sqCheck ((queueSt []).inst 400) 1 6 false = .ok (queue0 1 0 []) ∧
    (queueSt []).launchOf ((queueSt []).inst 400) = some (launch0 []) ∧ (queueSt []).stageOver (launch0 []) 1 = true ∧
    Issues (queueSt [[1, 2]]) isG (.sqpop a64 5 6 1) a64 [⟨6, 2, false⟩] ∧
    (queueSt [[1, 2]]).sqCheck ((queueSt [[1, 2]]).inst 400) 1 6 false = .ok (queue0 1 0 [[1, 2]]) ∧
    (queueSt [[1, 2]]).launchOf ((queueSt [[1, 2]]).inst 400) = some (launch0 [[1, 2]]) ∧
    ((queueSt [[1, 2]]).ctx 3).ccb.recB = false ∧ ((queueSt [[1, 2]]).ctx 3).ccb.rplB = false :=
  ⟨issues_of_issuesB (by decide), by decide, by decide, issues_of_issuesB (by decide), by decide, by decide, by decide, by decide, by decide,
    issues_of_issuesB (by decide), by decide, by decide, by decide, issues_of_issuesB (by decide), by decide, by decide, by decide, by decide⟩

/-- REGGROW of one home warp: beyond 256 registers, granted at the place of a record, and in a core whose bank is full. -/
def growSt (n : Nat) (more : SMap HWarp) : State :=
  { userSt with issues := [{ is2 with lanes := [⟨0, 0, true⟩] }]
                insts := sput State.reset.insts 400 { inst2 with hws := (0, { n, vb := 0 }) :: more, spadSize := 0, accTiles := 0 }
                ctxs := [(3, { (userSt.ctx 3) with log := { (userSt.ctx 3).log with next := [(logSrc 0 4 0, (0, List.replicate 32 0))] } })] }
def isGrow (w : Nat) : GrowAns → Bool
  | .fail => w == 0
  | .grant .. => w == 1
  | .wait => w == 2
  | .held => w == 3
def bigWarps : SMap HWarp := (List.range 15).map fun k => (k + 1, { n := 256, vb := 64 + 256 * k })
theorem witness_growth :
    (∀ p ∈ [(256, []), (64, []), (64, bigWarps)],
      Issues (growSt p.1 p.2) { is2 with lanes := [⟨0, 0, true⟩] } (.reggrow a64 true 5 (.imm8 4)) a64 []) ∧
    ((growSt 64 []).runs { is2 with lanes := [⟨0, 0, true⟩] } a64).length = 1 ∧
    isGrow 0 ((growSt 256 []).growAsk 400 0 4 true) = true ∧
    isGrow 2 ((growSt 64 bigWarps).growAsk 400 0 4 true) = true ∧ (growSt 64 []).growFits 0 = [] ∧ (growSt 256 []).growFits 0 = [] ∧
    (growSt 64 bigWarps).growFits 0 = [] :=
  ⟨fun p hp => issues_of_issuesB (by revert p hp; decide), by decide⟩
theorem witness_growth_grant : ∃ v n, (growSt 64 []).growAsk 400 0 4 true = .grant v n := by
  obtain ⟨v, h⟩ := Option.isSome_iff_exists.mp (State.growBase_isSome (s := growSt 64 []) (iid := 400) (hw := 0) (n := 96) (by decide) (by decide)
    (by decide))
  exact ⟨v, 96, State.growAsk_of_base (by decide) (by decide) (by decide) h⟩
/-- GroupOperations: an ELECT.rel of the current leader, and one that leads no more. -/
def leadSt (es : List Election) : State := (opSt (.electRel a64 (.imm8 0)) [1, 1]).modInst 400 fun i => { i with elects := es }
theorem witness_elect_rel : (leadSt [⟨1, 0, []⟩]).op? 900 = some (op0 (.electRel a64 (.imm8 0)) [1, 1]) ∧
    ((leadSt [⟨1, 0, []⟩]).inst 400).leads 0 1 = true ∧ (leadSt [⟨1, 0, []⟩]).accessesBefore 400 0 900 true = false ∧
    ((leadSt []).inst 400).leads 0 1 = false := by decide



/-- FlowsAndReductions: a held claim of memory to memory, with the handle 1. -/
def claim0 : Claim := { st := .held, k := 1, ctx := 3, src := 0x10000, dst := 0x20000, len := 4096, iid := 400 }
def claimSt (c : Claim) : State :=
  { userSt with dies := [(0, { (userSt.die 0) with claims := [(0, c)] })], ctxs := [(3, { (userSt.ctx 3) with handles := [(1, 0)] })] }
def flowsOk (s : State) (is : Issue) (i : Instr) (k : Nat) (args : List DWord) : Bool :=
  let t := s.startOp is i (ctlOf i) ((s.runs is (ctlOf i)).map fun r => partOf r (args ++ [4, 0])) []
  (flowParts s.nextId k false t ((((t.op? s.nextId).map (·.parts)).getD []).filter fun (p : Part) => !p.arrived)).1
theorem witness_flows : Issues (claimSt claim0) is2 (.flowImm a128 1 .cl 0 0 64) a128 [] ∧
    Issues (claimSt claim0) is2 (.flowReg a64 1 .cl 16) a64 [] ∧ is2.part = none ∧ Scope.cl ≠ .sy ∧
    (((claimSt claim0).handle 3 1).map fun g => ((claimSt claim0).claim g).dk == .peer).getD false = false ∧
    flowsOk (claimSt claim0) is2 (.flowImm a128 1 .cl 0 0 64) 1 [0, 0, 64] = true ∧
    flowsOk (claimSt claim0) is2 (.flowReg a64 1 .cl 16) 1 [0, 0, 0] = true ∧
    Issues (claimSt claim0) is2 (.flwait a64 1 .cl) a64 [] ∧ Issues userSt is2 (.fred a64 true .min ⟨8, r 3, .sca 5⟩) a64 [] :=
  ⟨issues_of_issuesB (by decide), issues_of_issuesB (by decide), by decide, by decide, by decide, by decide, by decide,
    issues_of_issuesB (by decide), issues_of_issuesB (by decide)⟩

/-- SystemOperations: a register that S reads and writes, one that only M writes, injection off and on, WRET, LAUNCH. -/
def psSt (ix : Word) : State := superSt.writeLoc 1 (.v 0 5) (ix.setWidth 64)
def isDone : PsWrite → Bool | .done _ => true | _ => false
def isPriv : PsWrite → Bool | .privilege => true | _ => false
def injSt : State := { userSt with ctxs := [(3, { (userSt.ctx 3) with ccb := { inj := true } })] }
def launchOp : PendOp := { op0 (.launch a64 ⟨10, r 2⟩) [] with parts := [part0 [0, 0, 0, 2, 0, 0, 0, 0, 3]] }
def launchSt : State := { userSt with issues := [{ is2 with part := some 900 }], ops := [launchOp] }
theorem witness_system :
    Issues (psSt 8) isS (.movps n64 8 (.vec 5 .id)) n64 [] ∧ Issues (psSt 8) isS (.movpsW n64 (r 8) (.vec 5 .id)) n64 [] ∧
    Issues (psSt 5) isS (.movpsW n64 (r 8) (.vec 5 .id)) n64 [] ∧ ((psSt 8).runs isS n64).length = 1 ∧ ((psSt 5).runs isS n64).length = 1 ∧
    ((psSt 8).runs isS n64).all (fun q => (psSt 8).psOk 1 (psIdx ((psSt 8).srcB isS q .n32 (.vec 5 .id)).toNat)) = true ∧
    ((psSt 5).runs isS n64).all (fun q => (psSt 5).psOk 1 (psIdx ((psSt 5).srcB isS q .n32 (.vec 5 .id)).toNat)) = true ∧
    isDone ((psSt 5).psWrite 1 1 (psIdx 5) 7) = true ∧ isPriv ((psSt 8).psWrite 1 1 (psIdx 8) 7) = true ∧
    (∀ i ∈ [Instr.einjPerr a64, .einjPoison a64, .einjPmis a64 (.imm8 1), .einjCerr a64], Issues userSt is2 i a64 [] ∧ Issues injSt is2 i a64 []) ∧
    (userSt.ctx 3).ccb.inj = false ∧ (injSt.ctx 3).ccb.inj = true ∧ (injSt.ctx 3).ccb.recB = false ∧
    walkSt.runs isW n64 ≠ [] ∧ walkSt.walkOf isW.iid = some (0, walk0) ∧ walk0.again = false ∧
    Issues walkSt isW (.wretFill n64) n64 [] ∧ Issues walkSt isW (.wretServ n64) n64 [] ∧ Issues walkSt isW (.wretDeny n64 4) n64 [] ∧
    Issues launchSt { is2 with part := some 900 } (.launch a64 ⟨10, r 2⟩) a64 [] ∧ launchSt.op? 900 = some launchOp ∧
    (∀ p ∈ launchOp.parts, 2 ≤ (p.arg 3).toNat ∧ (p.arg 3 = 2 → (p.arg 8).toNat % 2 ^ 16 = (launchSt.inst 400).ctx)) :=
  ⟨issues_of_issuesB (by decide), issues_of_issuesB (by decide), issues_of_issuesB (by decide), by decide, by decide, by decide, by decide,
    by decide, by decide, fun i hi => ⟨issues_of_issuesB (by revert i hi; decide), issues_of_issuesB (by revert i hi; decide)⟩, by decide, by decide,
    by decide, by decide, by decide, by decide, issues_of_issuesB (by decide), issues_of_issuesB (by decide), issues_of_issuesB (by decide),
    issues_of_issuesB (by decide), by decide, by decide⟩

/-! What happens between instructions. -/

/-- ClaimAndMatrixEvents. -/
def walkingClaim : Claim := { claim0 with st := .walking, walked := 2, len := 4096 }
def flow0 : Flow :=
  { id := 77, die := 0, entry := 0, op := 900, tid := 0, s := 0, d := 0, n := 0, p0 := 0, scope := .cl, moved := [], sent := []
    acked := false, lost := false }
def flowSt : State := { claimSt { claim0 with flows := 1 } with flows := [flow0] }
def isNext : WStep → Bool | .next => true | _ => false
theorem witness_claim_events :
    let s := claimSt walkingClaim
    (s.claim 0).st = .walking ∧ 0 < (s.claim 0).len ∧ (s.claim 0).len ≤ Config.claimBytes ∧ (s.claim 0).dk ≠ .fifo ∧
    isNext (walkItems 0 s ((s.claim 0).items.drop (s.claim 0).walked)).1 = true ∧
    ((walkItems 0 s ((s.claim 0).items.drop (s.claim 0).walked)).2.claim 0).dk ≠ .fifo ∧
    (flowSt.flows.find? fun (f : Flow) => f.id == 77) = some flow0 ∧
    (((List.range flow0.n).foldl (fun s k => s.flowByte 77 k) flowSt).flows.find? fun (f : Flow) => f.id == 77) = some flow0 ∧
    (flowSt.claim (flow0.die * 256 + flow0.entry)).dk ≠ .peer ∧ flow0.n ≤ flow0.moved.length ∧ flow0.lost = false := by decide

/-- A home warp that waits for growth, where it fits; in a full bank; the same with every thread asleep. -/
def grow0 : Grow := ⟨4, 5, 900⟩
def waitSt (n : Nat) (more : SMap HWarp) (st : Status) : State :=
  (growSt n more).modInst 400 fun i => { i with guide := false, ths := [(0, { thread0 with status := st })]
                                                hws := (0, { n, vb := 0, grow := some grow0 }) :: more }
theorem witness_growth_fits : ∃ a, (waitSt 64 [] .ready).growFits ((waitSt 64 [] .ready).inst 400).core = [(400, 0, grow0, a)] := by
  obtain ⟨v, h⟩ := Option.isSome_iff_exists.mp (State.growBase_isSome (s := waitSt 64 [] .ready) (iid := 400) (hw := 0) (n := 96) (by decide)
    (by decide) (by decide))
  exact ⟨.grant v 96, State.growFits_single (i := (waitSt 64 [] .ready).inst 400) (w := { n := 64, vb := 0, grow := some grow0 }) (by rfl) (by rfl)
    (by rfl) h⟩
theorem witness_growth_events :
    (let s := waitSt 64 bigWarps (.sleeping .grow)
     ((s.ctx (s.inst 400).ctx).ccb.recB = false ∧ (s.ctx (s.inst 400).ctx).ccb.rplB = false) ∧
     ((s.insts.filter fun p => p.2.kind == .stage && p.2.core == 0).map (·.1)) = [400] ∧
     (s.inst 400).hws.filterMap (fun h => h.2.grow.map fun g => (h.1, g)) = [(0, grow0)] ∧
     (∀ p ∈ (s.inst 400).ths, p.2.status = .exited ∨ p.2.status = .sleeping .grow) ∧ s.growFits 0 = [] ∧
     (∀ o ∈ s.ops, o.iid = 400 → o.flag.isSome → sleeps o.ins = true)) := by decide

/-- A half request 2^20 cycles old, one that has waited for a priority level, one granted for its full length, one that may run. -/
def rsvSt (r : Rsv) (now : Nat) : State := { userSt.modCluster 0 fun k => { k with resv := [(5, r)] } with now }
theorem witness_matrix_events :
    find? ((rsvSt rsv0 0).cluster 0).resv 5 = some rsv0 ∧ ((rsvSt rsv0 0).ctx ((rsvSt rsv0 0).inst rsv0.iid).ctx).ccb.rplB = false ∧ rsv0.half.isSome ∧ rsv0.posted + 2 ^ 20 ≤ (rsvSt rsv0 (2 ^ 20)).now ∧
    rsv0.granted = none ∧ { rsv0 with half := none }.prio < Rsv.level { rsv0 with half := none } (2 ^ 30) ∧
    (let r := { rsv0 with half := none, granted := some 10 }
     (∀ p ∈ ((rsvSt r 5000).cluster 0).resv, p.2.granted = some 10) ∧ r.failed = false ∧ { r with failed := true }.failed = true ∧ 10 + shapeCycles r.f.shape ≤ (rsvSt r 5000).now) ∧
    (let r := { rsv0 with half := none }
     (((rsvSt r 0).cluster 0).resv.filter fun p => (rsvSt r 0).eligible ((rsvSt r 0).cluster 0) p.2) = [(5, r)] ∧
       ((rsvSt r 0).cluster 0).busy ≤ (rsvSt r 0).now ∧ ((rsvSt r 0).ctx ((rsvSt r 0).inst r.iid).ctx).ccb.recB = false ∧
       ∀ p ∈ ((rsvSt r 0).cluster 0).resv, ((rsvSt r 0).ctx ((rsvSt r 0).inst p.2.iid).ctx).ccb.rplB = false) := by decide

def mrdySt : State :=
  ((opSt (.mrdy a64 1 2 0) []).setFifo 0 1 { ((userSt.fifo 0 1)) with comm := 32768 }).setFifo 0 2 { (userSt.fifo 0 2) with comm := 32768 }
theorem witness_mrdy : mrdySt.op? 900 = some (op0 (.mrdy a64 1 2 0) []) ∧
    mrdySt.ready (mrdySt.inst 400).engine 1 2 0 = true := by decide


/-- StewardEvents: a memory fault waits on steward 1 of die 0, and a class is pending there; rings of a context that records, and of one that
replays; queues with a record, and one more that waits. -/
def qrec0 : QRec := default
def stewSt : State :=
  { (superSt.setSteward 1 { (superSt.steward 1) with s := { ie := true } }) with
    issues := [], dies := [(0, { (superSt.die 0) with memq := [qrec0], trapq := [qrec0], memWait := [qrec0], trapWait := [qrec0] })]
    ctxs := [(3, { (superSt.ctx 3) with ccb := { recB := true } }), (4, { (superSt.ctx 4) with ccb := { rplB := true } })] }
def trapRec0 : TrapRec := ⟨1, 2, 3, 0x1000, 0x1000, 1, 0, 0x1C8, false⟩
/-- Virtual function 0 of world w1 with die 1, which has world w2. -/
def sealSt (w1 w2 : Nat) : State :=
  { (State.reset.modDie 1 fun d => { d with world := w2 }) with vfs := [(0, { (State.reset.vf 0) with world := w1, diesM := 2 })] }
theorem witness_steward_events :
    (stewSt.inst (stewardId 0 1)).kind = .steward ∧ stewSt.issuing (stewardId 0 1) 0 = false ∧
    ((stewSt.inst (stewardId 0 1)).th 0).level = 1 ∧ (stewSt.steward (stewardId 0 1)).s.ie = true ∧ stewSt.unmasked (stewardId 0 1) ≠ 0 ∧
    (((stewSt.modTh 1 0 fun t => { t with pend := [trapRec0] }).inst 1).th 0).pend = [trapRec0] ∧
    (stewSt.ctx 3).ccb.recB = true ∧ (stewSt.ctx 4).ccb.rplB = true ∧ stewSt.booted = false ∧
    (stewSt.die 0).memWait = [qrec0] ∧ (stewSt.die 0).memq ≠ [] ∧ (stewSt.die 0).trapWait = [qrec0] ∧ (stewSt.die 0).trapq ≠ [] ∧
    (State.reset.die 0).memWait = [] ∧ (State.reset.die 0).trapWait = [] ∧
    ((State.reset.vf 0).put 6 1 2).world = 0 ∧ ((sealSt 1 1).vf 0 |>.put 1 7 2).world = 1 ∧ ((sealSt 1 1).vf 0 |>.put 1 7 2).diesM = 2 ∧
    (∀ d, d < Config.dies → (2 : Nat).testBit d = true → ((sealSt 1 1).die d).world = 1) ∧ ((sealSt 1 0).die 1).world ≠ 1 := by decide

/-- TranslationEvents. -/
def want0 : Want :=
  { id := 7, who := .op 900 0, ctrl := 0, asid := 5, page := 0x400000, kind := 0, priv := 0, world := 0, ctx := 3, st := .missed }
def wantSt (ws : List Walk) : State := { State.reset with wants := [want0], walks := ws }
def leaf0 : Leaf :=
  { tag := 5, frame := 9, big := false, far := false, win := false, r := true, w := true, x := false, u := true, pin := false }
def d2d0 : D2d :=
  { id := 3, src := 0, dst := 1, key := 17, ctx := 3, world := 0, data := [], mask := 0, major := 0, minor := 0, vc := [1], pa := 0x1000 }
def sec0 : L2Sec :=
  { data := List.replicate 32 0, dirty := 0, rights := ⟨true, true, false, true⟩, pa := 0x1000, major := 0, minor := 0, ctx := 3 }
def mig0 (st : MigSt) : Mig := ⟨0, 5, 0x400000, false, true, 33, st, []⟩
def tlbSt : State := { State.reset with tlb := [(tlbKey 0 5 false 0x400000, leaf0)] }
def migSt (st : MigSt) : State := { tlbSt with migs := [mig0 st], tlb := [(tlbKey 0 5 false 0x400000, { leaf0 with mig := true, pin := true })] }
theorem witness_translation :
    ((wantSt []).wants.find? fun (x : Want) => x.id == want0.id && x.st == .missed) = some want0 ∧
    ((wantSt []).walks.any fun (k : Walk) => k.ctrl == want0.ctrl && k.asid == want0.asid && k.page == want0.page) = false ∧
    ((wantSt [walk0]).walks.any fun (k : Walk) => k.ctrl == want0.ctrl && k.asid == want0.asid && k.page == want0.page) = true ∧
    ((wantSt []).walks.filter fun (k : Walk) => k.ctrl == want0.ctrl).length < Config.walkMax ∧
    (let k := { walk0 with cluster := none }
     (wantSt [k]).walks = [k] ∧ k.ctrl = 0 ∧ 0 / Config.clustersPerDie = ctrlDie 0 ∧ ((wantSt [k]).cluster 0).walk = none) ∧
    (let s := State.reset.modDie 0 fun y => { y with l2 := [(17, sec0)] }
     find? (s.die 0).l2 17 = some sec0 ∧ sec0.dirty = 0) ∧
    (let s := { State.reset with d2d := [d2d0] }
     (s.d2d.find? fun (m : D2d) => m.id == d2d0.id) = some d2d0 ∧
     (s.d2d.any fun (x : D2d) => x.id != d2d0.id && x.dst == d2d0.dst && vcLe (vcGet x.vc x.src) (vcGet d2d0.vc x.src)) = false ∧
     (let u : State := { s with d2d := [] }
      u.l2Full d2d0.dst d2d0.key = false ∧ u.fillsPoison d2d0.dst d2d0.key d2d0.pa = false) ∧
     (s.die d2d0.dst).world = d2d0.world ∧ s.migOf d2d0.pa d2d0.key = none ∧ s.poison? d2d0.pa = none ∧
     ((s.modDie 1 fun y => { y with world := 1 }).die d2d0.dst).world ≠ d2d0.world) ∧
    tlbSt.mig? 0 5 0x400000 = none ∧ (tlbSt.tlb.any fun p => migLeaf 0 5 0x400000 p && p.2.big == false && !p.2.win) = true ∧
    (∀ st ∈ [MigSt.draining, .copied, .done], (migSt st).mig? 0 5 0x400000 = some (mig0 st) ∧ (migSt st).migDrained (mig0 st) = true ∧
      ((migSt st).migFrames (mig0 st)).isSome = true ∧ (mig0 st).held = []) := by decide

/-- FabricEvents: one request of each kind; a peer that is up, one that probes; a packet in its turn; a contribution. -/
def entry0 : HEntry :=
  { asid := 5, line := 0, data := [(0, 1)], opened := 0, limit := 675, ctx := 3, iid := 400, tid := 0, inst := 0, stage := 0, hdr := 0x1000, idx := 0 }
def packet0 : Packet :=
  { src := 9, srcDie := 0, dst := 0, fpid := 0, world := 0, off := 0, mask := [], data := [], seqNo := 0 }
def freq0 (k : FKind) : FReq :=
  { id := 6, core := 0, asid := 5, ctx := 3, peer := 9, off := 0, sent := 0, pkt := packet0, ask := .write, kind := k }
def fabSt (k : FKind) : State := { opSt (.ld a64 .b32 .none ⟨8, r 2, .imm8 0⟩) [0] with freqs := [freq0 k], now := 5400000, probing := [8], down := [8] }
def grant0 : Grant := { src := 9, srcDie := 0, vf := 0, off := 0, len := 4096, isDst := true, pages := [] }
def grantSt : State := State.reset.modDie 0 fun y => { y with grants := [(0, grant0)] }
def contrib0 : Contrib := { id := 4, op := 900, tid := 0, group := 1, round := 2, bf := false, fop := .add, elems := [] }
def fredOp : PendOp := op0 (.fred a64 false .add ⟨8, r 3, .imm8 1⟩) (List.replicate 40 0)
def fredSt : State := { userSt with issues := [], ops := [fredOp], contribs := [contrib0] }
theorem witness_fabric :
    (∀ k ∈ [FKind.write entry0, .load 900 0 0 [], .atomic 900 0, .grant 0 0 true, .fetch 77 0],
      (fabSt k).freq? 6 = some (freq0 k) ∧ (freq0 k).peer ≠ (fabSt k).modId) ∧
    (freq0 (.write entry0)).sent + Config.ackCycles ≤ (fabSt (.write entry0)).now ∧
    (fabSt (.write entry0)).probing.contains 9 = false ∧ (fabSt (.write entry0)).down.contains 9 = false ∧
    (fabSt (.write entry0)).probing.contains 8 = true ∧
    0 < Config.dies ∧ (4 : Nat) ≠ 0 ∧ packet0.src ≠ State.reset.modId ∧ State.reset.served = [] ∧
    (find? (grantSt.die 0).grants 0 = some grant0 ∧ grantSt.claimList = []) ∧
    (∀ cls ∈ [0, 2, 3], packet0.seqNo = sget 0 State.reset.rxSeq ((packet0.src * 8 + packet0.srcDie) * 4 + cls)) ∧
    fredSt.contribs = [contrib0] ∧ fredSt.op? contrib0.op = some fredOp ∧ (fredSt.inst 400).paired = false ∧
    (fredOp.part? 0).isSome = true ∧
    ((fredSt.inst 400).maskTids ((fredSt.inst 400).hwOf 0) (((fredOp.part? 0).getD default).arg 2)).all (fredSt.canPark fredOp) = true := by
  decide

/-- MonitorServices: a steward that has called function fn from S; the arguments in its registers; a sealed context's page table. -/
def svcSt (fn : Nat) (args : List (Nat × DWord)) : State :=
  let s := { monSt with issues := [] }
  let s := s.setSteward 0 { (s.steward 0) with m := { epc := 0x2000, ecause := 4 + BitVec.ofNat 64 fn <<< 32, epriv := 1, vec := 0x1000, ie := false } }
  args.foldl (fun s a => s.writeLoc 0 (.v 0 a.1) a.2) (s.modTh 0 0 fun t => { t with pc := 0x1008 })
/-- A root at 0x2000 and the four lower tables at the pages that follow; context 3 of world 1, copied; die 1 in world 1. -/
def tableSt (s : State) (maps : List MapRec) : State :=
  let s := (((s.setBytes 0x2000 (leBytes 8 0x3001)).setBytes 0x3000 (leBytes 8 0x4001)).setBytes 0x4000 (leBytes 8 0x5001)).setBytes
    0x5000 (leBytes 8 0x6001)
  { s with ctxs := [(3, { (s.ctx 3) with ccb := { asid := 5, world := 1, root := 0x2000, ibase := 8 }, known := true })]
           dies := [(1, { (s.die 1) with world := 1 })], monitor := { s.monitor with blocks := [(3, [])], maps } }
def frame1 : Nat := 8 * 2 ^ 41 + 0x7000
def mapSt : State :=
  tableSt (svcSt 0 [(2, 0x1000), (4, 0x7000), (5, BitVec.ofNat 64 (8 * 2 ^ 9)), (6, 0x13), (7, 3)]) []
def map0 : MapRec := { ctx := 3, frame := frame1, tag := 5, va := 0x1000, w := false }
def unmapSt : State := tableSt (svcSt 1 [(2, 0x1000), (7, 3)]) [map0]
theorem witness_map : mapSt.caller (.steward 0 0) 0 = some (0, 0) ∧ (mapSt.monCopy 3 false).1 = true ∧ (mapSt.monCopy 3 false).2.ops = [] ∧
    mapSt.argW (0, 0) 6 = 0x13 ∧ mapSt.argW (0, 0) 7 % 65536 = 3 ∧ mapSt.argP (0, 0) 2 = 0x1000 ∧ mapSt.argP (0, 0) 4 = frame1 ∧
    (0x13 : Nat) < 2 ^ 11 ∧ 0x13 % 2 = 1 ∧ Nat.testBit 0x13 4 = true ∧ 0x13 / 64 % 4 = 0 ∧ Nat.testBit 0x13 2 = false ∧ aperOf 0x1000 = .mem ∧
    (mapSt.monitor.maps.any fun (m : MapRec) => m.ctx == 3 && m.va == 0x1000) = false ∧
    mapSt.mapCheck 3 frame1 0x1000 0x13 (mapSt.ctx 3).ccb.asid = 0 ∧ (mapSt.pteOf true 0x1000 4 (mapSt.ctx 3).ccb.root).1 = some (0x6008, 0) := by
  decide
theorem witness_unmap : unmapSt.caller (.steward 0 0) 1 = some (0, 0) ∧ unmapSt.monitorHas 3 = true ∧
    (unmapSt.monitor.maps.find? fun (m : MapRec) => m.ctx == 3 && m.va == 0x1000) = some map0 ∧
    (let w := unmapSt.setPaBytes 0x6008 (List.replicate 8 0)
     w.claimList = [] ∧ ∀ p ∈ w.dies, p.2.grants = []) ∧
    (unmapSt.pteOf false 0x1000 4 (unmapSt.ctx 3).ccb.root).1 = some (0x6008, 0) ∧
    ((unmapSt.setPaBytes 0x6008 (List.replicate 8 0)).cinv 0 map0.tag 0x1000).1 = true ∧
    ((unmapSt.setPaBytes 0x6008 (List.replicate 8 0)).cinv 0 map0.tag 0x1000).2.d2d = [] ∧
    ((unmapSt.setPaBytes 0x6008 (List.replicate 8 0)).cinv 0 map0.tag 0x1000).2.monitor = unmapSt.monitor := by
  decide +kernel
theorem undo_none (s : State) (x : Ctx) (h : s.ctxs = [(3, x)]) (hx : x.undo = []) (c : Nat) : (s.ctx c).undo = [] := by
  unfold State.ctx
  rw [h]
  by_cases hc : c = 3
  · subst hc; exact hx
  · simp [find?, sget, hc]
theorem witness_map_fits (t : State) : mapSt.undoFits t = .inr t :=
  State.undoFits_of_empty t (undo_none _ (mapSt.ctx 3) (by rfl) (by decide))
theorem witness_map_walk : (mapSt.pteOf true 0x1000 4 (mapSt.ctx 3).ccb.root).2 = mapSt := by rfl
theorem witness_unmap_fits (t : State) : unmapSt.undoFits t = .inr t :=
  State.undoFits_of_empty t (undo_none _ (unmapSt.ctx 3) (by rfl) (by decide))
theorem witness_unmap_walk : (unmapSt.pteOf false 0x1000 4 (unmapSt.ctx 3).ccb.root).2 = unmapSt := by rfl
/-- LOAD: a context without a block that is in order, and one whose block, wherever it lies, holds block0; a list that names nothing is read
at once; an open mapping of the code region lies in it. -/
def block0 : List Byte :=
  bytesOf 2 5 ++ [0, 0] ++ bytesOf 6 0x2000 ++ [8, 0, 1, 0, 0, 1, 0, 0xFF] ++ List.replicate 14 0 ++ bytesOf 8 (8 * 2 ^ 41 + 0x100000) ++
    List.replicate 88 0
def copySt : State := tableSt (svcSt 2 [(2, 0x9000), (7, 3)]) [map0]
theorem witness_load : copySt.caller (.steward 0 0) 2 = some (0, 0) ∧ copySt.monitor.activating = false ∧
    (copySt.mapsIn 3 [(0x1000, 4096)]) = [map0] ∧ copySt.mapsIn 3 [(0x2000, 4096)] = [] ∧ copySt.mapsIn 3 [] = [] ∧
    (∀ who q, copySt.readHeads who q [] = .inr (some [], copySt)) ∧ (∀ who, readParts who copySt [] = .inr (some [], copySt)) :=
  ⟨by decide, by decide, by decide, by decide, by decide, fun _ _ => rfl, fun _ => rfl⟩
theorem witness_load_copy (s : State) (hb : s.ccbOk block0 = true) (hw : (s.worldDies 1).isEmpty = false) (h : s.ccbBytes 3 = block0) :
    (s.monCopy 3 true).1 = true := by
  have f : (ccbOf block0).world = 1 := by decide
  simp [State.monCopy, h, hb, f, hw]
theorem witness_load_block : copySt.ccbOk block0 = true ∧ (copySt.worldDies 1).isEmpty = false := by decide
theorem witness_load_refused (s : State) (h : s.ccbBytes 3 = List.replicate 128 0) : (s.monCopy 3 true).1 = false := by
  have e : (ccbOf (List.replicate 128 0)).world = 0 := by decide
  simp only [State.monCopy, h, e]
  simp
/-- LOAD, REPORT, VFSET, ACTIVATE read physical memory, or wait for nothing; ASSIGN takes a die of world 0, RELEASE one of world 1. -/
def isGot : Rd → Bool | .got .. => true | _ => false
def gotZero : Rd → Bool | .got b _ => bytesNat b 1 1 == 0 | _ => false
def physArgs : List (Nat × DWord) := [(2, 0x9000), (3, 0x01D00000), (4, 0xA000), (5, 0x01D00000)]
def vfsetArgs : List (Nat × DWord) := [(2, 15), (4, 0xA000), (5, 0x01D00000)]
theorem witness_services :
    (svcSt 2 physArgs).caller (.steward 0 0) 2 = some (0, 0) ∧ (svcSt 3 physArgs).caller (.steward 0 0) 3 = some (0, 0) ∧
    (svcSt 6 physArgs).caller (.steward 0 0) 6 = some (0, 0) ∧ (svcSt 3 physArgs).monitor.activating = false ∧
    isGot ((svcSt 3 physArgs).readAt (monWho (0, 0)) ((svcSt 3 physArgs).monReq (0, 0) 4) ((svcSt 3 physArgs).argP (0, 0) 2) 64) = true ∧
    (svcSt 5 vfsetArgs).caller (.steward 0 0) 5 = some (0, 0) ∧ (svcSt 5 vfsetArgs).argW (0, 0) 2 < 16 ∧
    gotZero ((svcSt 5 vfsetArgs).readAt (monWho (0, 0)) ((svcSt 5 vfsetArgs).monReq (0, 0) 4) ((svcSt 5 vfsetArgs).argP (0, 0) 4) 64) = true ∧
    (svcSt 4 [(2, 2), (3, 255), (4, 15)]).caller (.steward 0 0) 4 = some (0, 0) ∧
    (svcSt 4 [(2, 2), (3, 255), (4, 15)]).argW (0, 0) 3 = 255 ∧ (svcSt 4 [(2, 2), (3, 255), (4, 15)]).argW (0, 0) 4 < 16 ∧
    (svcSt 4 [(2, 2), (3, 255), (4, 15)]).diesOk ((svcSt 4 [(2, 2), (3, 255), (4, 15)]).argW (0, 0) 2) (· == 0) = true ∧
    (tableSt (svcSt 7 [(2, 2)]) []).caller (.steward 0 0) 7 = some (0, 0) ∧
    (tableSt (svcSt 7 [(2, 2)]) []).diesOk ((tableSt (svcSt 7 [(2, 2)]) []).argW (0, 0) 2) (· != 0) = true := by decide

/-- ModuleEvents. -/
def image0 (ok : Bool) : BootImage := { meas := [], sigOk := ok }
theorem witness_module : State.reset.booted = false ∧ State.reset.halted = false ∧ 3 ≤ [image0 true, image0 true, image0 true].length ∧
    (∀ i ∈ [image0 true, image0 true, image0 true], i.sigOk = true) ∧ (∃ i ∈ [image0 true, image0 true, image0 false], i.sigOk = false) ∧
    (let s := { State.reset with booted := true, monitor := { State.reset.monitor with activating := true, next := some (image0 true) } }
     s.monitor.activating = true ∧ s.monitor.next = some (image0 true)) ∧
    ({ State.reset with booted := true } : State).booted = true ∧ State.reset.monitor.activating = false := by decide

/-- PlacementEvents: a cluster whose test is due; an overdue one; a gang that waits; a queue with enough records. -/
def hours (n : Nat) : State := { State.reset with now := n * Config.hourCycles }
def testSt (t : TestSt) : State := { userSt.modCluster 0 fun k => { k with test := t } with now := 135000000 }
theorem witness_test_due : ((hours 24).cluster 7).testAt + ((Config.testHours 7 (hours 24).now).elim ((hours 24).cluster 7).testIvl fun h =>
    1 + h % 24) * Config.hourCycles ≤ (hours 24).now := by
  cases Config.testHours 7 (hours 24).now with
  | none => decide
  | some h =>
    show 0 + (1 + h % 24) * Config.hourCycles ≤ 24 * Config.hourCycles
    have : h % 24 < 24 := Nat.mod_lt _ (by decide)
    rw [Nat.zero_add]
    exact Nat.mul_le_mul_right _ (by omega)
theorem witness_tests : ((hours 24).cluster 7).test = .idle ∧ ((hours 24).cluster 7).fenced = false ∧ (hours 24).onCluster 7 = [] ∧
    (hours 24).saved = [] ∧ ((testSt (.due 0)).cluster 0).test = .due 0 ∧ 0 + Config.testWaitCycles ≤ (testSt (.due 0)).now ∧
    (testSt (.due 0)).onCluster 0 ≠ [] ∧
    (let s := State.reset.modCluster 0 fun k => { k with test := .overdue }
     (s.cluster 0).test ≠ .idle ∧ s.onCluster 0 = []) := by decide

def waitStage : StageSt := { stage0 with placed := 0 }
def placeSt (st : StageSt) (qs : List StageQ) : State :=
  { State.reset with
    now := 2 ^ 24, launches := [{ launch0 [] with stages := [st], queues := qs, started := false }]
    vfs := [(0, { (State.reset.vf 0) with clusters := 1 })], ctxs := [(3, { (State.reset.ctx 3) with known := true })] }
/-- Wherever an empty bank is asked for rows, there are rows: the place that a stage would like is a free value. -/
theorem rangeBase_nil (limit like n : Nat) (h : n ≤ limit) : ∃ b, rangeBase [] limit like n = some b := by
  unfold rangeBase
  by_cases h1 : like + n ≤ limit
  · exact ⟨like, by simp [h1]⟩
  · exact ⟨0, by simp [h1, h]⟩

theorem fits_of_empty (s : State) (hr : s.rowsHeld 0 noCtx 0 = [])
    (hi : s.insts.filter (fun p => p.2.kind == .stage && p.2.core == 0) = []) (hb : s.regionBytes 0 noCtx 0 = 0)
    (hk : (s.cluster (0 / 4)).fenced = false ∧ (s.cluster (0 / 4)).test = .idle ∧ (s.cluster (0 / 4)).owner = none ∧ s.halted = false ∧
      (s.die (0 / Config.coresPerDie)).world = (s.ctx 3).ccb.world) (a b c : Nat) :
    ∃ bs, s.fits 3 0 { hws := [(0, 64, a)], guide := false, spad := 0, spadLike := b, acc := 0, accLike := c } = some bs := by
  obtain ⟨x, hx⟩ := rangeBase_nil (Config.bankBytes / 128) a 64 (by decide)
  obtain ⟨y, hy⟩ := rangeBase_nil Config.bankBytes b 0 (by decide)
  obtain ⟨z, hz⟩ := rangeBase_nil (Config.bankBytes / 16384) c 0 (by decide)
  obtain ⟨k1, k2, k3, k4, k5⟩ := hk
  refine ⟨{ rows := [(0, x)], spad := y, acc := z }, ?_⟩
  unfold State.fits
  rw [if_neg (by rw [hi, hb, k1, k2, k3, k4, k5]; simp [Need.bytes, Config.warpsPerPart, Config.regionMax]), hr, hi]
  simp [rowBases, hx, hy, hz]

theorem placeSt_starts : ∃ t, (placeSt waitStage []).startGang { launch0 [] with stages := [waitStage], queues := [], started := false } 0
    waitStage 0 1 = some t := by
  obtain ⟨bs, h⟩ := fits_of_empty (placeSt waitStage []) (by decide) (by decide) (by decide) (by decide) ((Config.openRead 0 20).toNat % 512 * 8) ((Config.openRead 0 120).toNat % 4096 * 128)
    ((Config.openRead 0 121).toNat % 32)
  refine ⟨((placeSt waitStage []).startInst { launch0 [] with stages := [waitStage], queues := [], started := false } 0 waitStage 0 0 1
    true bs).2, ?_⟩
  have h2 : (placeSt waitStage []).fits 3 0 ((placeSt waitStage []).stageNeed waitStage) = some bs := h
  have h3 : (placeSt waitStage []).startLead { launch0 [] with stages := [waitStage], queues := [], started := false } 0 waitStage 0 0 1 =
      some ((placeSt waitStage []).startInst { launch0 [] with stages := [waitStage], queues := [], started := false } 0 waitStage 0 0 1
        true bs) := by
    show ((placeSt waitStage []).fits 3 0 ((placeSt waitStage []).stageNeed waitStage)).map _ = _
    rw [h2]; rfl
  show (((some (([] : List (Nat × Nat × Nat)), placeSt waitStage [])).bind fun x => ((placeSt waitStage []).startLead _ 0 waitStage 0 0 1).map fun y =>
    (x.1 ++ [(y.1, 0, 0)], y.2)).bind fun x => _) = _
  rw [h3]; rfl

def placeLaunch : Launch := { launch0 [] with stages := [waitStage], queues := [], started := false }
theorem gang_one : (placeSt waitStage []).gangSize placeLaunch 0 = some 1 := by
  obtain ⟨t, ht⟩ := placeSt_starts
  have hc : ((List.range Config.dies).any fun d => ((placeSt waitStage []).blocks placeLaunch.ctx d 1).any fun b =>
      ((placeSt waitStage []).startGang placeLaunch 0 waitStage b 1).isSome) = true :=
    List.any_eq_true.mpr ⟨0, by decide, List.any_eq_true.mpr ⟨0, by decide, by
      have : (placeSt waitStage []).startGang placeLaunch 0 waitStage 0 1 = some t := ht
      rw [this]; rfl⟩⟩
  have h1 : (placeSt waitStage []).toPlace placeLaunch 0 = 1 := by decide
  unfold State.gangSize
  simp only [h1]
  rw [if_neg (by decide)]
  have hg : placeLaunch.stages.getD 0 default = waitStage := rfl
  rw [hg]
  have hp : 2 ^ min (Nat.log2 1) waitStage.pref = 1 := by decide
  rw [hp, hc]
  rfl

theorem witness_gang : (placeSt waitStage []).launch? 1 = some placeLaunch ∧ (placeSt waitStage []).toPlace placeLaunch 0 ≠ 0 ∧
    waitStage.waitFrom + 2 ^ 24 ≤ (placeSt waitStage []).now ∧ (placeSt waitStage []).gangSize placeLaunch 0 = some 1 ∧
    (placeSt waitStage []).isNext 0 placeLaunch 0 = true ∧ ((placeSt waitStage []).blocks 3 0 1).contains (0 * Config.coresPerDie + 0) = true ∧
    ((placeSt waitStage []).ctx 3).ccb.cki = false ∧ ((placeSt waitStage []).ctx 3).ccb.recB = false ∧
    ((placeSt waitStage []).ctx 3).ccb.rplB = false := by
  obtain ⟨t, ht⟩ := placeSt_starts
  have h0 : (placeSt waitStage []).startGang placeLaunch 0 waitStage 0 1 = some t := ht
  have hg0 : (placeSt waitStage []).gangSize placeLaunch 0 = some 1 := gang_one
  refine ⟨by decide, by decide, by decide, hg0, ?_, by decide, by decide, by decide, by decide⟩
  have hb : (((placeSt waitStage []).blocks placeLaunch.ctx 0 1).any fun b =>
      ((placeSt waitStage []).startGang placeLaunch 0 (placeLaunch.stages.getD 0 default) b 1).isSome) = true :=
    List.any_eq_true.mpr ⟨0, by decide, by
      have : (placeSt waitStage []).startGang placeLaunch 0 (placeLaunch.stages.getD 0 default) 0 1 = some t := ht
      rw [this]; rfl⟩
  have hm : ((placeSt waitStage []).mayPlace placeLaunch.ctx) = true := by decide
  have hd : ((placeSt waitStage []).repairDue placeLaunch.ctx) = false := by decide
  have hp : (placeSt waitStage []).placeable 0 = [(placeLaunch, 0, 0)] := by
    show ([placeLaunch].flatMap fun (l : Launch) => (List.range l.stages.length).filterMap _) = _
    have hr : List.range placeLaunch.stages.length = [0] := rfl
    simp only [List.flatMap_cons, List.flatMap_nil, List.append_nil, hr, List.filterMap_cons, List.filterMap_nil, hm, hd, hg0, hb,
      Bool.not_true, Bool.or_self, Bool.false_eq_true, if_false, if_true]
    rfl
  unfold State.isNext
  rw [hp]
  decide

theorem witness_queue_start :
    let l := { launch0 [] with stages := [waitStage, { waitStage with queued := true }], queues := [queue0 0 1 [[1, 2]]] }
    let s := { placeSt waitStage [] with launches := [l] }
    s.launch? 1 = some l ∧ (l.queues.find? fun (q : StageQ) => q.consumer == 1) = some (queue0 0 1 [[1, 2]]) ∧ l.die = 0 ∧
    (l.stages.getD 1 default).queued = true ∧ s.isRepair l 1 = false ∧ l.dead = false ∧ (l.stages.getD 1 default).pendGang = [] ∧
    (queue0 0 1 [[1, 2]]).low ≤ (queue0 0 1 [[1, 2]]).recs.length ∧ (queue0 0 1 [[1, 2]]).high ≤ (queue0 0 1 [[1, 2]]).recs.length := by
  decide

/-- A context whose poison ring, in the physical aperture at 0x8000, holds one record more than its repair stage has taken. -/
def repairSt : State :=
  let s := (placeSt waitStage []).setBytes 0x8000 [1]
  { s with ctxs := [(3, { (s.ctx 3) with ccb := { weight := 1, repair := 0, repairLaunch := 1, poison := 0x01D0000000008000 } })] }
def ring3 : State := (repairSt.accCheck (.ring 3) (repairSt.hwReq 3 2) (repairSt.ctx 3).ccb.poison 4096).2
theorem witness_repair : repairSt.launch? (repairSt.ctx 3).ccb.repairLaunch = some placeLaunch ∧ ring3.mayPlace 3 = true ∧
    placeLaunch.dead = false ∧ (repairSt.ctx 3).ccb.repair < placeLaunch.stages.length ∧ ring3.repairDue 3 = true ∧
    ring3.vfHas 3 (0 / 4) = true ∧ ring3.repairNext (0 / Config.coresPerDie) 3 = true ∧ (ring3.ctx 3).ccb.recB = false ∧ (ring3.ctx 3).ccb.rplB = false ∧
    ∃ bs, ring3.fits 3 0 (ring3.stageNeed { waitStage with paired := false }) = some bs :=
  ⟨by decide, by decide, by decide, by decide, by decide, by decide, by decide, by decide, by decide,
    fits_of_empty ring3 (by decide) (by decide) (by decide) (by decide) ((Config.openRead 0 20).toNat % 512 * 8)
      ((Config.openRead 0 120).toNat % 4096 * 128) ((Config.openRead 0 121).toNat % 32)⟩

/-- An instance whose threads have all exited, beside another on its cluster; a fatal context, one that must roll back, one whose interval is over. -/
def overSt : State :=
  { userSt with issues := []
                insts := sput (sput State.reset.insts 400 { inst2 with ths := inst2.ths.map fun p => (p.1, { p.2 with status := .exited }) }) 401
                  { inst2 with core := 1, no := 1 } }
def ctxSt (c : Ctx) : State := { userSt with ctxs := [(3, c)], now := 1000 }
theorem witness_ends : (overSt.inst? 400).isSome = true ∧ (overSt.inst 400).kind = .stage ∧
    (∀ p ∈ (overSt.inst 400).ths, p.2.status = .exited) ∧ overSt.spent 400 = true ∧ (overSt.inst 400).partner = none ∧
    ((overSt.modInst 400 fun i => { i with st := .ending }).endRelease 400).1 = true ∧
    ((overSt.modInst 400 fun i => { i with st := .ending }).endRelease 400).2.claimList = [] ∧
    ((overSt.modInst 400 fun i => { i with st := .ending }).endRelease 400).2.othersOn 0 [400] = true ∧
    ((ctxSt { fatal := true }).ctx 3).fatal = true ∧ ((ctxSt {}).ctx 3).fatal = false ∧
    (ctxSt { cerr := some { cause := 8, va := 0, hdr := 0 } }).mustRoll 3 = true ∧
    (let x := (ctxSt { ccb := { cki := true, ivl := 1000 }, ivlOn := true }).ctx 3
     x.ccb.cki = true ∧ x.ivlOn = true ∧ x.fatal = false ∧ x.log.stopped = false ∧ x.log.diverged = false ∧ x.ccb.ivl ≠ 0 ∧
       x.ivlAt + x.ccb.ivl ≤ 1000) := by decide


/-- RecordEvents. The ring lies at physical 0x8000; a record of source 5 stands at index 0 there. -/
def logSt (rec rpl : Bool) (g : LogRing) (bytes : List Byte) : State :=
  { userSt.setBytes 0x8000 bytes with ctxs := [(3, { ccb := { recB := rec, rplB := rpl }, log := { g with base := 0x8000, size := 16 } })] }
def rec5 : List Byte := [1, 5, 0, 0]
theorem witness_log :
    (let g := ((logSt true false { held := [(0, rec5)] } []).ctx 3).log
     ((logSt true false { held := [(0, rec5)] } []).ctx 3).ccb.recB = true ∧ g.full = false ∧ g.held = [(0, rec5)]) ∧
    (let s := logSt false true { producer := 1 } rec5
     (s.ctx 3).ccb.rplB = true ∧ find? ((s.skipFabric 3).ctx 3).log.next 5 = none ∧
     ((s.skipFabric 3).logNext 3 5).isSome = true ∧ (s.skipFabric 3).logNext 3 6 = none ∧ find? ((s.skipFabric 3).ctx 3).log.waits 6 ≠ some 0 ∧
     (s.ctx 3).log.diverged = false) ∧
    (logSt false true { producer := 1 } []).reservedRec 3 = some 0 ∧
    ((logSt false true { diverge := some (1, 0) } []).ctx 3).log.diverge = some (1, 0) ∧
    (let s := { (logSt false true {} []) with issues := [], insts := sput State.reset.insts 400 { inst2 with
        ths := [(0, { thread0 with status := .parked (.trap 1) }), (1, { thread0 with status := .parked (.trap 1) })], guide := false } }
     s.stuck 3 = true) := by decide

/-- Partners with a signature each; a clause stopped before its next instruction. -/
def sigSt (a b : Nat) : State :=
  { userSt with ctxs := [(3, { sigs := [a], log := { partner := 4, pvalid := true } }), (4, { sigs := [b], log := { partner := 3, pvalid := true } })] }
theorem witness_stops : ((sigSt 1 2).ctx 3).sigs = [1] ∧ ((sigSt 1 2).ctx ((sigSt 1 2).ctx 3).log.partner).sigs = [2] ∧
    ((sigSt 1 2).ctx 3).log.pvalid = true ∧ ((sigSt 1 2).ctx ((sigSt 1 2).ctx 3).log.partner).log.pvalid = true ∧
    ((sigSt 1 2).ctx ((sigSt 1 2).ctx 3).log.partner).log.partner = 3 ∧ ((sigSt 1 1).ctx 3).sigs = ((sigSt 1 1).ctx 4).sigs ∧
    (let is := { is2 with stopAt := some 0 }
     let s := { userSt with issues := [is] }
     (s.issues.find? fun (y : Issue) => (s.inst y.iid).kind == .stage && (s.inst y.iid).ctx == 3 && y.stopAt == some y.idx) = some is ∧
       is.writes = [] ∧ (s.ctx 3).log.stopped = false ∧ s.ops = []) := by decide

def frame0 : TrFrame :=
  { seqNo := 0, ctx := 3, stage := 0, inst := 0, tid := 0, ivl := 0, retired := 0, opened := 0, payload := [], dict := [], prev := default }
theorem witness_trace : (State.reset.die 0).trace.queue = [] ∧
    (let s := { State.reset.modDie 0 fun d => { d with trace := { d.trace with queue := [(5, [])], frame := some frame0 } } with now := 2 ^ 16 }
     (s.die 0).trace.queue ≠ [] ∧ (s.die 0).trace.closed = [] ∧ (s.die 0).trace.frame = some frame0 ∧ frame0.opened + 2 ^ 16 ≤ s.now) ∧
    (let s := { State.reset.modDie 0 fun d => { d with trace := { d.trace with ctl := 0x102 } } with now := 4096 }
     (s.die (0 / Config.coresPerDie)).trace.ctl.getLsbD 1 = true ∧
     (s.die (0 / Config.coresPerDie)).trace.ctl.toNat / 2 ^ 8 % 2 ^ 16 * 2 ^ 12 = 4096 ∧ (s.core 0).laneAt / 4096 ≠ s.now / 4096) := by decide

/-- ClauseEvents: a steward whose header lies in physical memory; flags that it waits for are never up. -/
def readySt : State :=
  { (superSt.setBytes 0x1000 (leBytes 8 0x0000000000000084)).modTh 1 0 (fun t => { t with pc := 0x01D0000000001008 }) with
    issues := [], booted := true }
def hdrOne : Header := { yld := false, land := false, seta := none, setb := none, wait := 0, size := 2, ni := 1 }
def bytesOk (f : Fetch) (h : Header) : Bool :=
  match f with | .bytes b => (match decodeHeader (natOf b) with | .ok x => decide (x = h) | .error _ => false) | _ => false
def readyGo : State := (readySt.endDemotions 1 [0]).2
theorem witness_clause_issue : (readySt.issues.any fun (x : Issue) => x.q == .steward 0 1) = false ∧
    seqFits (readySt.inst 1) 1 (.steward 0 1) [0] = true ∧ readySt.formable 1 [0] = true ∧ readySt.demotedBlocked 1 [0] = false ∧
    (readySt.inst 1).demotionDue [0] = false ∧ ((readySt.inst 1).th 0).perr = [] ∧ (readySt.endDemotions 1 [0]).1 = true ∧
    bytesOk (readyGo.fetch (.fetch 1 0) 1 0 ((readySt.inst 1).th 0).header.toNat 8).1 hdrOne = true ∧
    ((readySt.inst 1).subs.find? fun (g : SubGroup) => g.id == ((readySt.inst 1).th 0).sub && g.cont.isSome) = none ∧
    ((readyGo.fetch (.fetch 1 0) 1 0 ((readySt.inst 1).th 0).header.toNat 8).2.ctx (readySt.inst 1).ctx).ccb.recB = false ∧
    ((readyGo.fetch (.fetch 1 0) 1 0 ((readySt.inst 1).th 0).header.toNat 8).2.ctx (readySt.inst 1).ctx).ccb.rplB = false := by decide
/-- A partition's scheduler: one home warp is ready, so none is starved. -/
theorem witness_not_starved : ({ userSt with issues := [] } : State).starved 0 0 400 [0, 1] = false := by decide
theorem witness_clause_wait (ls : List LaneT) : (readySt.inst 1).waitsOver ((readySt.inst 1).sets ls) hdrOne.wait = true := by
  simp [Inst.waitsOver, hdrOne]

/-- A path that spins, a demoted path whose demotion is over, a share that has ended, a store without translation, a trap to deliver. -/
def warpW : Warp := { id := 5, tids := [0, 1], passed := 0, demoted := false, sibs := 0, spins := [{ target := 0x1000, cur := 0, last := 0, run := 8 }] }
def warpsSt (w : Warp) : State := userSt.modInst 400 fun i => { i with warps := [w] }
def shareOp : PendOp := { op0 (.ld a64 .b32 .none ⟨8, r 2, .imm8 0⟩) [] with shares := [⟨0, 0, []⟩] }
def storeOp : PendOp := op0 (.st a64 .b32 .none ⟨8, r 2, .imm8 0⟩) [0x1000, 0, 0, 7]
def trapSt : State :=
  { userSt.modInst 400 (fun i => { i with handler := 0x4000, ths := [(0, { thread0 with pend := [trapRec0] }), (1, thread0)] }) with issues := [] }
/-- The same with the other thread in the handler, and a store fault to deliver. -/
def busySt : State :=
  trapSt.modInst 400 fun i => { i with ths := [(0, { thread0 with sfPend := 1 }), (1, { thread0 with hnd := true })] }
def parkRec0 : TrapRec := { trapRec0 with code := 6 }
/-- The same with a page fault that waits to be parked. -/
def parkSt : State := trapSt.modInst 400 fun i => { i with ths := [(0, { thread0 with pend := [parkRec0] }), (1, thread0)] }
def delivered (s : State) : List (Nat × Thread) :=
  (s.inst 400).ths.filter fun p => (s.inst 400).hwOf p.1 == 0 && !s.issuing 400 p.1 &&
    (match p.2.status with | .ready | .held | .parked .wait => true | _ => false) && p.2.nextTrap.isSome
theorem witness_clause_events :
    ((warpsSt warpW).inst 400).warps.find? (fun (x : Warp) => x.id == 5) = some warpW ∧ warpW.demoted = false ∧
    (∃ p ∈ warpW.spins, Config.spinLimit ≤ p.run) ∧ ((userSt.ctx 3).ccb.recB = false ∧ (userSt.ctx 3).ccb.rplB = false) ∧
    (let w := { warpW with demoted := true }
     (((warpsSt w).inst 400).warps.filter fun (x : Warp) => x.demoted && x.tids.any (fun t => ((warpsSt w).inst 400).hwOf t == 0) &&
       ((warpsSt w).inst 400).demotionOver x) = [w]) ∧
    (({ userSt with ops := [shareOp] } : State).op? 900 = some shareOp ∧ (shareOp.shares.any fun (x : Share) => x.hw == 0 && x.left.isEmpty) = true) ∧
    (let s := { userSt with ops := [storeOp] }
     s.op? 900 = some storeOp ∧ storeOp.part? 0 = some (part0 [0x1000, 0, 0, 7]) ∧ storing storeOp.ins = true ∧
     (let n (s : State) : Nat := (s.core 0).sfSeq + (s.core 0).sfWait.length + (s.ops.map fun (o : PendOp) => o.sf.length).sum
      n (s.partStep storeOp (part0 [0x1000, 0, 0, 7])) ≠ n s)) ∧
    (let s := trapSt
     (s.inst 400).kind = .stage ∧ delivered s = [(0, { thread0 with pend := [trapRec0] })] ∧ (s.inst 400).handlerBusy 0 = false ∧
       { thread0 with pend := [trapRec0] }.nextTrap = some (1, 2, some trapRec0) ∧ (s.inst 400).lowerWaits 0 trapRec0 = false ∧ trapRec0.code ≠ 6) ∧
    (let s := parkSt
     delivered s = [(0, { thread0 with pend := [parkRec0] })] ∧ { thread0 with pend := [parkRec0] }.nextTrap.isSome = true ∧
       (s.inst 400).handlerBusy 0 = false ∧ (s.inst 400).lowerWaits 0 parkRec0 = false ∧
       (∀ p ∈ (s.inst 400).ths, p.1 ≠ 0 → (s.inst 400).hwOf p.1 = 0 → p.2.status ≠ .exited → p.2.pend.any parkRec0.sameFault = false)) ∧
    (let s := busySt
     delivered s = [(0, { thread0 with sfPend := 1 })] ∧ (s.inst 400).handlerBusy 0 = true ∧ (s.inst 400).handler ≠ 0 ∧
       (s.inst 400).isGuide 0 = false ∧ (({ thread0 with sfPend := 1 } : Thread).nextTrap.map fun x => decide (x.1 < 6)) = some true) := by decide

/-- A line-parked sub-group whose lines are present; a region with an error in it; a live thread; a load that needs a fill; a pair of copies. -/
def sub0 : SubGroup := { id := 2, hw := 0, flags := [], resume := 0x1000, hdr := 0x1000, cont := some is2, va := 0, lines := [3] }
def region0 : Region :=
  { id := 850, since := 850, members := [0], strict := false, pair := false, slack := 0, handler := 0x4000, recReg := 56, count := 0, snaps := []
    scal := [], basket := none, undo := [], atomics := 0, remotes := 0, closed := [] }
def errSt : State :=
  { userSt with issues := [], insts := sput State.reset.insts 400 { inst2 with
      ths := [(0, { thread0 with uncorr := some { cause := 2, va := 0, hdr := 0x1000 } }), (1, thread0)], hws := [(0, { warp64 with regions := [region0] })] } }
def loadSt : State :=
  { opSt (.ld a64 .b32 .none ⟨8, r 2, .imm8 0⟩) [0x400000] with
    ctxs := [(3, { (userSt.ctx 3) with ccb := { asid := 5 } })], tlb := [(tlbKey 0 5 false 0x400000, leaf0)] }
/-- The same load in a sealed world, of a context of controller 8. -/
def sealedSt : State :=
  { loadSt with ctxs := [(3, { (userSt.ctx 3) with ccb := { asid := 5, world := 1, ibase := 8 } })]
                dies := [(0, { (userSt.die 0) with world := 1 }), (1, { (userSt.die 1) with world := 1 })]
                tlb := [(tlbKey 8 5 false 0x400000, leaf0)] }
def fillsOf (s : State) : List Nat :=
  ((((accPieces (.ld a64 .b32 .none ⟨8, r 2, .imm8 0⟩) (part0 [0x400000])).flatMap fun x => sectorsOf x.1 x.2).filter fun x =>
    !s.l1Has (s.req 400 0 0) x.1 x.2).map (·.1)).filterMap fun va => s.sectorAt (s.req 400 0 0) va
def fillOf (s : State) : Option Nat :=
  ((fillsOf s).filter fun pa => !paWindow pa && !(s.dies.any fun d => d.2.l2.any fun y => y.2.pa == pa)).head?
theorem witness_unwinding :
    (let s := userSt.modInst 400 fun i => { i with subs := [sub0] }
     ((s.inst 400).subs.find? fun (x : SubGroup) => x.id == 2 && x.cont.isSome) = some sub0 ∧ ∀ l ∈ sub0.lines, (s.core 0).absent.contains l = false) ∧
    ((errSt.unwindCause 400 0).1.map (·.1)) = some 0 ∧ (errSt.inst 400).partner = none ∧ (errSt.ctx 3).ccb.recB = false ∧ (errSt.ctx 3).ccb.rplB = false ∧ ((errSt.inst 400).hw 0).regions.drop 0 = [region0] ∧
    errSt.vcRoom ((errSt.inst 400).die 400) (([region0].map fun (r : Region) => r.undo.length).sum) = true ∧ errSt.unwindWaits 400 region0 = false ∧ (∀ t ∈ region0.members, errSt.issuing 400 t = false) ∧
    (userSt.inst? 400).isSome = true ∧ ((userSt.inst 400).th 0).status ≠ .exited ∧ (userSt.inst 400).kind = .stage ∧
    ((superSt.inst? 1).isSome = true ∧ ((superSt.inst 1).th? 0).isSome = true ∧ ((superSt.inst 1).th 0).status ≠ .exited ∧
      (superSt.inst 1).kind = .steward) ∧
    (let j := walkerId 0
     (walkSt.inst? j).isSome = true ∧ ((walkSt.inst j).th? 0).isSome = true ∧ ((walkSt.inst j).th 0).status ≠ .exited ∧
      (walkSt.inst j).kind = .walker) ∧
    loadSt.op? 900 = some (op0 (.ld a64 .b32 .none ⟨8, r 2, .imm8 0⟩) [0x400000]) ∧ loadClass (Instr.ld a64 .b32 .none ⟨8, r 2, .imm8 0⟩) = true ∧
    (loadSt.inst 400).trailing = false ∧
    fillsOf loadSt = [0x9000] ∧ fillOf loadSt = some 0x9000 ∧ loadSt.plainAt 0x9000 = true ∧
    (fillsOf sealedSt).length = 1 ∧ fillOf sealedSt = (fillsOf sealedSt).head? ∧ (fillsOf sealedSt).all (sealedSt.plainAt ·) = false := by
  decide
/-- The same region as a pair's, in both copies. -/
def pairErrSt : State :=
  let i : Inst := { (errSt.inst 400) with paired := true, partner := some 401, hws := [(0, { warp64 with regions := [{ region0 with pair := true }] })] }
  { errSt with insts := sput (sput State.reset.insts 400 i) 401 { i with partner := some 400, leading := false, ths := inst2.ths } }
theorem witness_unwind_pair : ((pairErrSt.unwindCause 400 0).1.map (·.1)) = some 0 ∧ (pairErrSt.inst 400).partner = some 401 ∧
    (pairErrSt.inst 400).paired = true ∧ (∀ j ∈ [400, 401], (((pairErrSt.inst j).hw 0).regions[0]?).elim false (·.pair) = true ∧
      (pairErrSt.ctx (pairErrSt.inst j).ctx).ccb.recB = false ∧ (pairErrSt.ctx (pairErrSt.inst j).ctx).ccb.rplB = false ∧
      pairErrSt.canUnwind j 0 0 = true) := by decide
theorem witness_unwind_pair_state : (pairErrSt.unwindCause 400 0).2 = pairErrSt := by rfl
theorem witness_unwind_state : (errSt.unwindCause 400 0).2 = errSt := by rfl

/-- The compared access of a leading copy and of its partner, instance 401. -/
def pairPart : Part := { part0 [0x1000, 1, 0, 7] with done := 1 }
def pairOp : PendOp := { storeOp with id := 901, iid := 401, parts := [pairPart] }
def cmpSt : State :=
  { userSt with ops := [pairOp], insts := sput (sput State.reset.insts 400 { inst2 with partner := some 401 }) 401 { inst2 with leading := false, partner := some 400 }
                dies := [(0, { (userSt.die 0) with cmp := [{ iid := 400, tid := 0, seqNo := 0 + 1 - 1, op := 900, word := 0, sig := sigOf pairOp.ins pairPart 0 }] })] }
theorem witness_compare : ((cmpSt.die 0).cmp.length = 1) ∧ cmpSt.partnerPart 400 0 0 = some (pairOp, pairPart) ∧ pairPart.arrived = false ∧
    pairPart.done = 0 + 1 - 0 ∧ ((cmpSt.die 0).cmp.map (·.sig)) = [sigOf pairOp.ins pairPart (0 + 1 - pairPart.seqNo)] := by decide

/-- RegisterFormsFrame, OperationsFrame: an addition before the end of its clause. -/
theorem witness_frames : Issues userSt is2 (.iadd n64 i32m o2) n64 [] ∧ (Instr.iadd n64 i32m o2).cls = .f3 ∧
    Issues userSt is2 (.imul n64 i32m o2) n64 [] ∧ (Instr.imul n64 i32m o2).cls = .f5 ∧ is2.idx + 1 ≠ is2.hdr.ni ∧
    (∀ l ∈ is2.lanes, ((userSt.inst is2.iid).th l.tid).failNext = false) ∧ userSt.issue? = some is2 :=
  ⟨issues_of_issuesB (by decide), by decide, issues_of_issuesB (by decide), by decide, by decide, by decide, by decide⟩

/-- ClauseEndCommits: a clause at its end that holds a result for a location of each kind, a later one of v5 among them, and two raises of
flags about a write of them. -/
def w5 : FWrite := { loc := .v 0 5, val := 7, slot := 2, lat := 3, raise := false, done := false }
def kinds5 : List Loc := [.v 0 6, .p 0 3, .s 0 2, .g 4, .seed 0, .meet 0, .hnd 0]
def fpRaise (n : DWord) : FWrite := { w5 with loc := .fp 0, val := n, raise := true }
def fpSet : FWrite := { w5 with loc := .fp 0, val := 2 }
def endIs : Issue := { is2 with addr := 0x1028, idx := 4, writes := w5 :: fpRaise 4 :: fpSet :: fpRaise 1 :: kinds5.map fun l => { w5 with loc := l } }
theorem witness_clause_end : (if endIs.addr.toNat % 8 = 4 then endIs.addr + 4 else endIs.addr) = endIs.follow ∧ endIs.gopen = none ∧
    endIs.gend = none ∧ (∀ p ∈ (userSt.inst endIs.iid).ths, p.2.dying = false) ∧ (∀ w ∈ endIs.writes, w.done = false) ∧
    (∀ l ∈ kinds5, endIs.writes.any (fun w => decide (w.loc = l) && !w.raise) = true ∧ (userSt.inst endIs.iid).hasLoc l = true ∧
      ((endIs.writes.takeWhile fun w => decide (w.loc ≠ l)).all fun x => !(userSt.inst endIs.iid).sameLoc x.loc l) = true) ∧
    (∀ l ∈ [Loc.v 1 6, .p 0 4, .s 0 9, .g 5], endIs.writes.all (fun w => !(userSt.inst endIs.iid).sameLoc w.loc l) = true) := by decide
theorem witness_clause_flags : endIs.writes = [w5, fpRaise 4] ++ fpSet :: fpRaise 1 :: kinds5.map (fun l => { w5 with loc := l }) ∧
    (userSt.inst endIs.iid).hasLoc (.fp 0) = true ∧ (∀ x ∈ [w5, fpRaise 4], x.loc = .fp 0 → x.raise = true) ∧ fpSet.loc = .fp 0 ∧
    fpSet.raise = false := ⟨rfl, by decide, by decide, rfl, rfl⟩

/-- StoreFrames: a store to the last word of the scratchpad, one to the last word of a sector of a writable page, and one of a steward at
S through the physical aperture. -/
def stsOp : PendOp := op0 (.sts a64 .b32 ⟨8, r 2, .imm8 0⟩) [4092, 7]
def stOp (va : DWord) : PendOp := op0 (.st a64 .b32 .none ⟨8, r 2, .imm8 0⟩) [va, 0, 0, 7]
def stSt : State :=
  { userSt with ops := [stOp 0x40001C], ctxs := [(3, { (userSt.ctx 3) with ccb := { asid := 5 } })], tlb := [(tlbKey 0 5 false 0x400000, leaf0)] }
def sOk (s : State) (x : PendOp) (va : Nat) : Bool :=
  match s.storeRights (s.req x.iid 0 1) va with | .ok .. => true | _ => false
def paOk (s : State) (x : PendOp) (va pa : Nat) : Bool :=
  match s.aperPa (s.req x.iid 0 1) va with | .ok p => p == pa | _ => false
def physOp : PendOp := { stOp 0x01D0000000009000 with iid := 1 }
def physSt : State := { superSt with ops := [physOp], issues := [] }
/-- A sealed world in which the sector of the store is held already. -/
def l1Held : L1Sec :=
  { data := List.replicate 32 7, have_ := BitVec.allOnes 32, dirty := 0, rights := ⟨true, true, false, true⟩, pa := 8 * 2 ^ 41 + 0x9000, major := 3, minor := 1 }
def heldSt : State :=
  { sealedSt with ops := [stOp 0x40001C], insts := sput sealedSt.insts 400 { inst2 with l1 := [(secKey 5 0x40001C, l1Held)] } }
def isChkOk : Chk → Bool | .ok => true | _ => false
def sPa (s : State) (x : PendOp) (va : Nat) : Option (Nat × Nat) :=
  match s.storeRights (s.req x.iid 0 1) va with | .ok a pa _ => some (a, pa) | _ => none
theorem witness_store_frames :
    (let s : State := { userSt with ops := [stsOp] }
     s.op? 900 = some stsOp ∧ stsOp.part? 0 = some (part0 [4092, 7]) ∧ s.inst? 400 = some inst2 ∧ (inst2.hw (inst2.hwOf 0)).regions = [] ∧
     s.muted 400 0 900 = false ∧ s.blocked stsOp (part0 [4092, 7]) = false ∧ stsOp.sf = [] ∧ s.behind (.op 900 0) = false ∧ 4092 % 4 = 0 ∧ 4092 + 4 ≤ inst2.spadSize) ∧
    (stSt.op? 900 = some (stOp 0x40001C) ∧ stSt.inst? 400 = some inst2 ∧ stSt.muted 400 0 900 = false ∧
     stSt.blocked (stOp 0x40001C) (part0 [0x40001C, 0, 0, 7]) = false ∧ inst2.trailing = false ∧ spanOk 0x40001C 4 = true ∧
     aperOf 0x40001C = .mem ∧ sOk stSt (stOp 0x40001C) 0x40001C = true ∧ stSt.behind (.op 900 0) = false ∧
     (stSt.req 400 0 1).world = 0 ∧ (stSt.die (paDie 0x9000)).world = 0 ∧ find? inst2.l1 (secKey 5 0x40001C) = none ∧
     stSt.l1Full 400 (secKey 5 0x40001C) = false) ∧
    (heldSt.inst? 400 = some { inst2 with l1 := [(secKey 5 0x40001C, l1Held)] } ∧ heldSt.muted 400 0 900 = false ∧
     heldSt.blocked (stOp 0x40001C) (part0 [0x40001C, 0, 0, 7]) = false ∧ (heldSt.req 400 0 1).world ≠ 0 ∧
     (heldSt.inst 400).l1Find (heldSt.tags 3) 0x40001C = some (5, l1Held) ∧ l1Held.rights.refusal 1 (heldSt.req 400 0 1).priv = none ∧
     heldSt.vcReady (heldSt.home 3 0x40001C) (heldSt.die 0).vc = true ∧ heldSt.ownWaits (heldSt.req 400 0 1) 0x40001C = false) ∧
    (heldSt.op? 900 = some (stOp 0x40001C) ∧ heldSt.behind (.op 900 0) = false ∧ isChkOk (heldSt.accCheck (.op 900 0) (heldSt.req 400 0 1) 0x40001C 4).1 = true ∧
     (let u := (heldSt.accCheck (.op 900 0) (heldSt.req 400 0 1) 0x40001C 4).2
      u.op? 900 = some (stOp 0x40001C) ∧ sPa u (stOp 0x40001C) 0x40001C = some (5, l1Held.pa) ∧
      find? (u.inst 400).l1 (secKey 5 0x40001C) = some l1Held ∧ (u.inst 400).hwOf 0 = 0 ∧ ((u.inst 400).hw 0).regions = [])) ∧
    (physSt.op? 900 = some physOp ∧ (physSt.inst? 1).isSome = true ∧ ((physSt.inst 1).hw ((physSt.inst 1).hwOf 0)).regions = [] ∧
     physSt.muted 1 0 900 = false ∧ physSt.blocked physOp (part0 [0x01D0000000009000, 0, 0, 7]) = false ∧ (physSt.inst 1).trailing = false ∧
     aperOf 0x01D0000000009000 = .phys ∧ paOk physSt physOp 0x01D0000000009000 0x9000 = true ∧ (physSt.die (paDie 0x9000)).world = 0 ∧
     paWindow 0x9000 = false ∧ physSt.behind (.op 900 0) = false ∧ physSt.undoers 0x9000 = []) := by decide

/-- StopsAndTraps: no clause; TLBINV.all at U, CKPT.memrst at S, TLBFILL outside a walker slot, PRESUME of a stage that repairs nothing;
GEN.OPEN in a Guide and on a steward, LOOPEND in a warp; an IDIV whose flag has 63 operations in flight. -/
def fullSt : State := userSt.modInst 400 fun i => { i with hws := [(0, { warp64 with flags := [(0, Config.flagMax)] })] }
def okNames (s : State) (is : Issue) (i : Instr) (c : Ctl) : Bool :=
  is.lanes.all fun l => (check6 (s.inst is.iid) is i c [] l.tid).isNone && (s.zeroName is i l.tid).isNone
theorem witness_stops_and_traps : State.reset.issue? = none ∧ userSt.issue? = some is2 ∧ superSt.issue? = some isS ∧ guideSt.issue? = some isG ∧
    ((userSt.inst 400).th (lowest is2.lanes).tid).level = 0 ∧ (Instr.tlbinvAll a64).opc = some 0x3C5 ∧
    ((superSt.inst 1).th (lowest isS.lanes).tid).level = 1 ∧ (Instr.ckptMemrst a64 5).ctl = some a64 ∧
    (userSt.inst 400).kind ≠ .walker ∧ (Instr.wretFill a64).opc = some 0x3CD ∧ (Instr.presume a64 (r 2)).opc = some 0x384 ∧
    (userSt.inst 400).repair = false ∧ isG.guide = true ∧ is2.guide = false ∧ (superSt.inst 1).kind ≠ .stage ∧
    (Instr.genOpen a128 1 1 0 0).opc = some 0x287 ∧ (Instr.loopend a64).opc = some 0x2C1 ∧ fullSt.issue? = some is2 ∧
    okNames fullSt is2 (.idiv a64 i32m o2) a64 = true ∧
    (fullSt.ctx (fullSt.inst 400).ctx).ccb.fhtrap = false ∧ is2.flagOf a64.fsel = some 0 ∧
    (fullSt.inst 400).flagFull ((fullSt.inst 400).sets is2.lanes) 0 = true := by decide

/-! ### Values at the ends of their ranges, worked by hand from R88 to R91 -/

theorem test_shifts : lo32 (shiftL 32 1 31) = 0x80000000 ∧ lo32 (shiftL 32 1 32) = 0 ∧ lo32 (shiftA 32 0x80000000 32) = 0xFFFFFFFF ∧
    rotL 32 0x80000001 33 = 3 ∧ rotR 64 1 64 = 1 := by decide
theorem test_funnel : lo32 (funnel true 0x11111111 0 0x22222222) = 0x11111111 ∧ lo32 (funnel true 0x11111111 32 0x22222222) = 0x22222222 ∧
    lo32 (funnel true 0x11111111 255 0x22222222) = 0x22222222 ∧ lo32 (funnel false 0x11111111 32 0x22222222) = 0x11111111 ∧
    lo32 (funnel false 0x80000000 1 0) = 1 := by decide
theorem test_fields : bfExtract true 0xF0 0x04 4 = 0xFFFFFFFF ∧ bfExtract false 0xF0 0x04 4 = 0xF ∧ bfExtract true 0xF0 0x20 4 = 0 ∧
    bfExtract false 0x80000000 31 9 = 1 ∧ lo32 (bfInsert 0xF 0x0404 0) = 0xF0 ∧ lo32 (bfInsert 0xFFFF 0x1008 0xAA) = 0xFFFFAA := by decide
theorem test_bytes : lo32 (bytePermute 0x80017F02 0x8730) = 0x00FF8002 := by decide

/-! ### One step from a placed instruction -/

def after (nbits w : Nat) (p : State → Bool) : Bool :=
  match step (State.reset.withFetchWord nbits w) with | .next t => p t | _ => false

def reg (t : State) (n : Nat) : DWord := t.readLoc State.reset.nextId (.v 0 n)

/-- The placed clause of one instruction ends in the same step: IADD v1, v0, 5; MOV v2, imm32; a 64-bit LEA; NOP changes nothing. -/
theorem test_step_iadd : after 64 0x0020050000100001 (fun t => reg t 1 == 5 && reg t 0 == 0) = true := by decide
theorem test_step_halves : after 64 0x1020FF0000100001 (fun t => reg t 1 == 0xFFFFFFFF) = true := by decide
theorem test_step_bperm : after 64 0x2000040030214801 (fun t => reg t 2 == 0) = true := by decide

/-- R41: an opcode of no row traps; with no handler the thread is parked. R37: a division is in flight after its step. -/
theorem test_step_refused : after 64 0x002005000010F001 (fun t => ((t.inst State.reset.nextId).th 0).status == .parked (.trap 6)) = true := by decide
theorem test_step_flight : after 64 0x0040040030203001 (fun t => t.ops.length == 1) = true := by decide


/-! ### The test catalogue of R254: the verdicts of its tables -/

section Catalogue
open Sys2Proof.Machine.Ordering

/-- A party: module, die, cluster, instance, home warp; its number is its thread's. -/
def party (id : Nat) (modNo die cluster inst hw : Nat) : Agent := { kind := .thread, id, modNo, die, cluster, inst, hw }

/-- What a party does: an act with the bytes it touches, what it belongs to, and how often its instance has moved. -/
abbrev Deed := Act × List Place × List Nat × Nat
def doIns (i : Instr) (ls : List Place := []) (links : List Nat := []) (epoch : Nat := 0) : Deed := (.ins i true, ls, links, epoch)
def oc : Ctl := ⟨.l64, 0, false, false, .a, 0⟩
def oLd (d : Nat) (l : Place) (epoch : Nat := 0) : Deed := doIns (.ld oc .n8 default ⟨d, ⟨2, .id⟩, .imm8 0⟩) [l] [] epoch
def oSt (d : Nat) (l : Place) : Deed := doIns (.st oc .n8 default ⟨d, ⟨4, .id⟩, .imm8 0⟩) [l]
def oRel (s : Scope) : Deed := doIns (.rel oc s)
def oAcq (s : Scope) (epoch : Nat := 0) : Deed := doIns (.acq oc s) [] [] epoch
def oFence (s : Scope) : Deed := doIns (.fence oc s)
def oBar : Deed := doIns (.bar oc 1 (.imm8 5)) [] [9]
def oWait (links : List Nat) : Deed := (.wait, [], links, 0)

def evsOf (p : Agent × List Deed) : List Event :=
  (List.range p.2.length).flatMap fun k =>
    let (act, ls, links, epoch) := p.2.getD k (.wait, [], [], 0)
    let kinds : List EvKind := match act with
      | .ins i _ => (evKinds i).filterMap fun d => d.2.map fun _ => d.1
      | .wait => [.take .flag]
      | .begins => [.take .launch]
    kinds.map fun kind => { agent := p.1, kind, locs := ls, slot := k, links, epoch }

/-- An execution of parties; an event is named by its agent and its slot, the initial values by 0. `more` are the engines' events. -/
def mkEx (ini : List Place) (ps : List (Agent × List Deed)) (more : List Event) (rf : List (Place × (Nat × Nat) × (Nat × Nat)))
    (co : List (Place × List (Nat × Nat))) : Execution :=
  let evs : List Event := { agent := default, kind := .init, locs := ini } :: (ps.flatMap evsOf ++ more)
  let num (r : Nat × Nat) : Nat := if r.1 = 0 then 0 else evs.findIdx fun e => e.agent.id == r.1 && e.slot == r.2 && e.accesses
  { parties := ps.map fun p => ⟨p.1, p.2.map (·.1)⟩, evs, rf := rf.map fun r => (r.1, num r.2.1, num r.2.2), co := co.map fun c => (c.1, c.2.map num) }

def x0 : Place := .mem 1 0
def y0 : Place := .mem 1 64
def z0 : Place := .mem 1 128

/-- Message passing: A stores x, does k, stores y; B reads y = 1, does m, reads x = 0. -/
def mp (a b : Agent) (k m : List Deed) : Execution :=
  mkEx [x0, y0] [(a, [oSt 1 x0] ++ k ++ [oSt 1 y0]), (b, [oLd 10 y0] ++ m ++ [oLd 11 x0])] []
    [(y0, (1, k.length + 1), (2, 0)), (x0, (0, 0), (2, m.length + 1))] [(x0, [(0, 0), (1, 0)]), (y0, [(0, 0), (1, k.length + 1)])]

theorem catalogue_message_passing :
    let a := party 1 0 0 0 0 0
    allowed (mp a (party 2 0 0 0 0 1) [oRel .co] [oAcq .co]) = false ∧ allowed (mp a (party 2 0 0 0 1 0) [oRel .co] [oAcq .co]) = true ∧
    allowed (mp a (party 2 0 0 0 1 0) [oRel .cl] [oAcq .cl]) = false ∧ allowed (mp a (party 2 0 0 1 1 0) [oRel .cl] [oAcq .cl]) = true ∧
    allowed (mp a (party 2 0 0 1 1 0) [oRel .di] [oAcq .di]) = false ∧ allowed (mp a (party 2 0 0 1 1 0) [] [oAcq .pk]) = true ∧
    allowed (mp a (party 2 0 0 0 0 1) [oBar] [oBar]) = false ∧ allowed (mp a (party 2 0 0 0 0 1) [] []) = true := by
  decide +kernel
/-- The message across dies of the chapter on ordering. -/
theorem catalogue_dies :
    let a := party 1 0 0 0 0 0
    allowed (mp a (party 2 0 5 40 1 0) [oRel .cl] [oAcq .pk]) = true ∧ allowed (mp a (party 2 0 5 40 1 0) [oRel .di] [oAcq .di]) = true ∧
    allowed (mp a (party 2 0 5 40 1 0) [oRel .pk] [oAcq .pk]) = false ∧ allowed (mp a (party 2 0 5 40 1 0) [oRel .tn] [oAcq .pk]) = false := by
  decide +kernel

/-- The causal chain of dies 0, 3 and 6: v10 = 1, v11 = 1, v12 = 0. The row without A's REL follows R254 (log entry 41). B's store depends
on its load through v10. -/
def chain (k m : List Deed) : Execution :=
  mkEx [x0, y0] [(party 1 0 0 0 0 0, k ++ [oSt 1 x0]), (party 2 0 3 24 1 0, [oLd 10 x0] ++ m ++ [oSt 10 y0]),
      (party 3 0 6 48 2 0, [oLd 11 y0, oAcq .pk, oLd 12 x0])] []
    [(x0, (1, k.length), (2, 0)), (y0, (2, m.length + 1), (3, 0)), (x0, (0, 0), (3, 2))]
    [(x0, [(0, 0), (1, k.length)]), (y0, [(0, 0), (2, m.length + 1)])]
theorem catalogue_chain : allowed (chain [oRel .pk] [oFence .pk]) = false ∧ allowed (chain [oRel .pk] [oFence .di]) = true ∧
    allowed (chain [oRel .pk] []) = true ∧ allowed (chain [] [oFence .pk]) = true ∧ (depRel (chain [oRel .pk] [])).has 3 4 = true := by decide +kernel

/-- Independent writes and readers; with one location, for either order of the writes. -/
def iriw (k : List Deed) : Execution :=
  mkEx [x0, y0] [(party 1 0 0 0 0 0, k ++ [oSt 1 x0]), (party 2 0 7 60 1 0, k ++ [oSt 1 y0]), (party 3 0 2 17 2 0, [oLd 10 x0, oAcq .pk, oLd 11 y0]),
      (party 4 0 5 40 3 0, [oLd 10 y0, oAcq .pk, oLd 11 x0])] []
    [(x0, (1, k.length), (3, 0)), (y0, (0, 0), (3, 2)), (y0, (2, k.length), (4, 0)), (x0, (0, 0), (4, 2))]
    [(x0, [(0, 0), (1, k.length)]), (y0, [(0, 0), (2, k.length)])]
def coRR (ws : List (Nat × Nat)) : Execution :=
  mkEx [x0] [(party 1 0 0 0 0 0, [oSt 1 x0]), (party 2 0 7 60 1 0, [oSt 1 x0]), (party 3 0 2 17 2 0, [oLd 10 x0, oLd 11 x0]),
      (party 4 0 5 40 3 0, [oLd 10 x0, oLd 11 x0])] []
    [(x0, (1, 0), (3, 0)), (x0, (2, 0), (3, 1)), (x0, (2, 0), (4, 0)), (x0, (1, 0), (4, 1))] [(x0, (0, 0) :: ws)]
theorem catalogue_independent : allowed (iriw []) = true ∧ allowed (iriw [oRel .pk]) = true ∧ allowed (coRR [(1, 0), (2, 0)]) = false ∧
    allowed (coRR [(2, 0), (1, 0)]) = false := by decide +kernel

/-- A copy of z to x by flow 7: v10 = 1 and v11 = 0, either because B's read misses the copy or because the copy misses the store to z. -/
def copy (k : List Deed) (s : Scope) (w : List Deed) (old miss : Bool) : Execution :=
  let f : Agent := { kind := .flow false, id := 7, cluster := 2, inst := 0, issuer := 1, claim := 30 }
  let n := k.length + 3 + w.length
  mkEx [x0, y0, z0] [(party 1 0 0 2 0 0, [oSt 1 z0] ++ k ++ [doIns (.flowImm { oc with len := .l128 } 1 s 0 0 64) [] [7], oWait [7]] ++ w ++ [oRel .di, oSt 1 y0]),
      (party 2 0 0 9 1 0, [oLd 10 y0, oAcq .di, oLd 11 x0])]
    [{ agent := f, kind := .read, locs := [z0], slot := 0 }, { agent := f, kind := .write, locs := [x0], slot := 1 }, { agent := f, kind := .completion }]
    [(z0, if old then (0, 0) else (1, 0), (7, 0)), (y0, (1, n + 1), (2, 0)), (x0, if miss then (0, 0) else (7, 1), (2, 2))]
    [(x0, [(0, 0), (7, 1)]), (y0, [(0, 0), (1, n + 1)]), (z0, [(0, 0), (1, 0)])]
def oFlwait : Deed := doIns (.flwait oc 1 .di) [] [7]
theorem catalogue_copy : allowed (copy [oRel .cl] .di [oFlwait] false true) = false ∧ allowed (copy [oRel .cl] .di [oFlwait] true false) = false := by
  decide +kernel
theorem catalogue_copy_allowed : allowed (copy [] .di [oFlwait] true false) = true ∧ allowed (copy [oRel .cl] .co [oFlwait] false true) = true ∧
    allowed (copy [oRel .cl] .di [] false true) = true := by decide +kernel

/-- Remote atomics, and two of them on one byte. -/
def ys : List Place := (List.range 4).map fun k => .mem 1 (64 + k)
def oAdd : Deed := doIns (.atom oc .add .b32 ⟨12, ⟨4, .id⟩, .imm8 1⟩) ys
def ratom (k : List Deed) : Execution :=
  mkEx (x0 :: ys) [(party 1 0 0 0 0 0, [oSt 1 x0] ++ k ++ [oAdd]), (party 2 1 0 0 0 0, [oLd 10 y0, oAcq .sy, oLd 11 x0])] []
    ((ys.map fun y => (y, (0, 0), (1, k.length + 1))) ++ [(y0, (1, k.length + 1), (2, 0)), (x0, (0, 0), (2, 2))])
    ((x0, [(0, 0), (1, 0)]) :: ys.map fun y => (y, [(0, 0), (1, k.length + 1)]))
def adds (second : Nat × Nat) : Execution :=
  mkEx ys [(party 1 0 0 0 0 0, [oAdd]), (party 3 2 0 0 0 0, [oAdd])] [] (ys.flatMap fun y => [(y, (0, 0), (1, 0)), (y, second, (3, 0))])
    (ys.map fun y => (y, [(0, 0), (1, 0), (3, 0)]))
theorem catalogue_remote : allowed (ratom [oRel .sy]) = false ∧ allowed (ratom []) = true ∧ allowed (ratom [oRel .tn]) = true ∧
    allowed (adds (1, 0)) = true ∧ allowed (adds (0, 0)) = false ∧
    (let a := party 1 0 0 0 0 0; let b := party 2 1 0 0 0 0
     allowed (mp a b [] [oAcq .sy]) = true ∧ allowed (mp a b [oRel .sy] [oAcq .sy]) = false) := by decide +kernel

/-- Two remote stores of one thread to one byte, read backwards; work moved between cores, or restored where it was. -/
def twice (ws : List (Nat × Nat)) : Execution :=
  mkEx [x0] [(party 1 0 0 0 0 0, [oSt 1 x0, oSt 2 x0]), (party 2 1 0 0 0 0, [oLd 10 x0, oLd 11 x0])] []
    [(x0, (1, 1), (2, 0)), (x0, (1, 0), (2, 1))] [(x0, (0, 0) :: ws)]
def moved (deeds : List (Agent × List Deed)) (r : Nat × Nat) (s : Scope) (cluster : Nat) : Execution :=
  let a := party 1 0 0 0 0 0
  mkEx [x0] deeds [{ agent := a, kind := .save s, links := [1] }, { agent := { a with cluster }, kind := .restore s, links := [1] }]
    [(x0, (0, 0), r)] [(x0, [(0, 0), (1, 0)])]
theorem catalogue_moved : allowed (twice [(1, 0), (1, 1)]) = false ∧ allowed (twice [(1, 1), (1, 0)]) = false ∧
    (let a := party 1 0 0 0 0 0
     allowed (moved [(a, [oSt 1 x0, oLd 10 x0 1])] (1, 1) .di 17) = false ∧
     allowed (moved [(a, [oSt 1 x0]), (party 3 0 0 17 0 1, [oLd 11 x0 1])] (3, 0) .di 17) = false ∧
     allowed (moved [(a, [oSt 1 x0]), (party 4 0 0 10 1 0, [oAcq .di, oLd 12 x0])] (4, 1) .di 17) = true ∧
     allowed (moved [(a, [oSt 1 x0, oLd 10 x0 1])] (1, 1) .co 0) = false) := by decide +kernel

/-- A tile byte read after the wait on its pass (R248): the read cannot miss the pass. -/
def tile (missed : Bool) : Execution :=
  let t : Place := .store 0 2 0
  mkEx [t] [(party 1 0 0 0 0 0, [doIns (.mma { oc with len := .l96 } default) [] [7], oWait [7], oLd 11 t])]
    [{ agent := { kind := .pass, id := 7 }, kind := .write, locs := [t] }, { agent := { kind := .pass, id := 7 }, kind := .completion }]
    [(t, if missed then (0, 0) else (7, 0), (1, 2))] [(t, [(0, 0), (7, 0)])]
theorem catalogue_tile : allowed (tile true) = false ∧ allowed (tile false) = true := by decide +kernel

/-- R236: two aligned halfword stores of two threads have one order; a load cannot take one byte of each. -/
def torn (co1 : List (Nat × Nat)) : Execution :=
  let h : Place := .mem 1 0; let l : Place := .mem 1 1
  let st : Deed := doIns (.st oc .n16 default ⟨1, ⟨4, .id⟩, .imm8 0⟩) [h, l]
  mkEx [h, l] [(party 1 0 0 0 0 0, [st]), (party 2 0 0 0 1 0, [st]), (party 3 0 0 0 2 0, [doIns (.ld oc .n16 default ⟨10, ⟨2, .id⟩, .imm8 0⟩) [h, l]])] []
    [(h, (1, 0), (3, 0)), (l, (2, 0), (3, 0))] [(h, [(0, 0), (2, 0), (1, 0)]), (l, (0, 0) :: co1)]
theorem test_torn : allowed (torn [(1, 0), (2, 0)]) = false ∧ allowed (torn [(2, 0), (1, 0)]) = false := by decide +kernel

/-- R234, R253: a flow to a peer whose virtual function is limited releases at .tn, another one at .sy. -/
theorem test_flow_scope :
    let f : Agent := { kind := .flow false, id := 7, peer := true }
    let x : Execution := { evs := [], rf := [], co := [] }
    flowScope x { agent := f, kind := .completion } = .sy ∧
    flowScope x { agent := { f with limited := true }, kind := .completion } = .tn ∧
    flowScope x { agent := { f with peer := false }, kind := .completion } = .th := by decide
/-- R242, R247: a flow may miss its issuer's own store, but not a store that its issuer has read. -/
def missesRead (own : Bool) : Execution :=
  let f : Agent := { kind := .flow false, id := 7, issuer := 1 }
  let flow : Deed := doIns (.flowImm { oc with len := .l128 } 1 .di 0 0 64) [] [7]
  mkEx [x0, z0] ((party 1 0 0 0 0 0, (if own then [oSt 1 z0] else []) ++ [oLd 10 z0, flow]) :: if own then [] else [(party 2 0 0 0 1 0, [oSt 1 z0])])
    [{ agent := f, kind := .read, locs := [z0], slot := 0 }, { agent := f, kind := .write, locs := [x0], slot := 1 }, { agent := f, kind := .completion }]
    [(z0, if own then (1, 0) else (2, 0), (1, if own then 1 else 0)), (z0, (0, 0), (7, 0))]
    [(x0, [(0, 0), (7, 1)]), (z0, [(0, 0), if own then (1, 0) else (2, 0)])]
theorem test_flow_misses : allowed (missesRead true) = true ∧ allowed (missesRead false) = false := by decide +kernel
end Catalogue

/-- ExecutionsAreCoherent: an execution that the axioms allow, in which a read is coherence-ordered after what it misses. -/
theorem witness_execution : Ordering.allowed (tile true) = false ∧ Ordering.allowed (tile false) = true ∧
    Ordering.coBefore (tile true) (.store 0 2 0) 0 4 = true ∧ (Ordering.hb (tile true)).has 4 3 = true ∧ Ordering.allowed (adds (1, 0)) = true := by
  decide +kernel

/-! ### walr and wlink: the worked examples of R49, R54 to R56, the fills of R52, the calculations of R58 -/

/-- ?!p3 FADD.f32.rtz v10, v11~dn3, 2 has the 96-bit form and these words. -/
def faddEx (len : Len) : Instr := .fadd ⟨len, 3, true, false, .none, 0⟩ ⟨.f32, .rtz, false, false⟩ ⟨10, ⟨11, .dn 3⟩, .imm8 2⟩
theorem test_walr_fadd : (faddEx .l128).shortest false = some (faddEx .l96) ∧
    encode (faddEx .l96) = some (.l96, 0x24200230B0A2010E + 0x10003000 * 2 ^ 64) := by decide
/-- Two 64-bit instructions and a 128-bit one after a header at 0: a 64-bit NOP fills 8 bytes before the fetch boundary; a 96-bit one leaves
a pad word. -/
theorem test_walr_layout : (layOut {} 0 [nopOf .l64, nopOf .l64, .bra n128 0]).map (fun x => (x.1.ni, x.1.size, x.2.length)) = some (4, 6, 48) ∧
    (layOut {} 0 [nopOf .l96]).map (fun x => (x.1.ni, x.1.size, x.2.length)) = some (1, 3, 24) ∧
    (layOut {} 0 (List.replicate 16 (nopOf .l64))).isNone = true := by decide
theorem test_walr_implicit : (implicitClauses [] [nopOf .l64, .exit n64, nopOf .l64]).map (·.length) = [2, 1] ∧
    (implicitClauses [] (List.replicate 16 (nopOf .l64))).map (·.length) = [15, 1] := by decide
theorem test_walr_params : paramBlock [] [(4, 16), (8, 0x400000)] = some [16, 0, 0, 0, 0, 0, 0, 0, 0, 0, 0x40, 0, 0, 0, 0, 0] ∧
    stageBytes 64 16 256 0 = 4352 ∧ linkOk 64 16 256 0 16 = true := by decide
theorem test_walr_numbers : intLiteral ['0', 'x', '1', '_', 'F'] = some 0x1F ∧ intLiteral ['1', '_', '_', '0'] = none ∧
    isSymbol ['s', 'u', 'm', '_', '1'] = true ∧ isSymbol ['v', '1'] = false ∧ isSymbol ['f', 'a', 'd', 'd'] = false ∧
    ((parseExpr 20 0 none [.num 1, .op .add, .num 2, .op .mul, .num 3, .op .shl, .num 1]).bind fun p => p.1.eval fun _ => none) = some 14 := by decide
theorem test_walr_relocations : Reloc.clause32.field 0x1000 0x1040 0 0 true = some 0xFFFFFFF8 ∧ Reloc.clause32.field 0x1000 0x1040 0 0 false = none ∧
    Reloc.hi32.field 0x1_2345_6789 0 0 0 false = some 1 ∧ Reloc.spoff32.field 0x180 0 0x100 0x80 false = none := by decide

/-! ### The ciphers and hashes that rules name: the vectors of FIPS 197 and FIPS 202, and the first bytes of Ed448's base point -/

theorem test_aes : aesBytes (List.range 32) ((List.range 16).map (17 * ·)) =
    [0x8E, 0xA2, 0xB7, 0xCA, 0x51, 0x67, 0x45, 0xBF, 0xEA, 0xFC, 0x49, 0x90, 0x4B, 0x49, 0x60, 0x89] := by decide +kernel
theorem test_shake : shake256 4 [] = [0x46, 0xB9, 0xDD, 0x2B] := by decide +kernel
theorem test_ed448 : (edEncode (edMul 1)).take 2 = [0x14, 0xFA] := by decide +kernel

end Sys2Proof.Tests
end

section
/-! PROOFS. Reading a range of memory after it is written, and the frame of that write (R2). -/
namespace Sys2Proof.Machine

theorem State.bytesAt_succ (s : State) (pa n : Nat) :
    s.bytesAt pa (n + 1) = s.byteAt pa :: s.bytesAt (pa + 1) n := by
  simp [State.bytesAt, List.range_succ_eq_map, Nat.add_assoc, Nat.add_comm 1]

theorem State.byteAt_setBytes_above (s : State) {pa a : Nat} (bs : List Byte) (h : pa + bs.length ≤ a) :
    (s.setBytes pa bs).byteAt a = s.byteAt a := by
  induction bs generalizing s pa with
  | nil => rfl
  | cons b r ih =>
    rw [List.length_cons] at h
    rw [State.setBytes, ih _ (by omega), State.byteAt_setByte_ne _ _ (by omega)]

theorem State.byteAt_setBytes_outside (s : State) {pa a : Nat} (bs : List Byte) (h : a < pa ∨ pa + bs.length ≤ a) :
    (s.setBytes pa bs).byteAt a = s.byteAt a :=
  h.elim (s.byteAt_setBytes_below bs) (s.byteAt_setBytes_above bs)

/-- The head is written first, and the rest is written above it, so the head is still there when the rest is done. -/
theorem State.bytesAt_setBytes_self (s : State) (pa : Nat) (bs : List Byte) :
    (s.setBytes pa bs).bytesAt pa bs.length = bs := by
  induction bs generalizing s pa with
  | nil => rfl
  | cons b r ih =>
    have head : ((s.setByte pa b).setBytes (pa + 1) r).byteAt pa = b := by
      rw [State.byteAt_setBytes_below _ _ (Nat.lt_succ_self pa), State.byteAt_setByte_self]
    rw [List.length_cons, State.bytesAt_succ, State.setBytes, head, ih]

/-- Settles O10, by induction on the bytes written for the read and for each side of the frame. -/
theorem memoryReadsBack : Obligations.MemoryReadsBack := by
  unfold Obligations.MemoryReadsBack
  exact fun s pa bs => ⟨s.bytesAt_setBytes_self pa bs, fun _ h => s.byteAt_setBytes_outside bs h⟩

end Sys2Proof.Machine
end

section
/-! PROOFS. What a location holds after a location is written (R7 to R9): the reading and the writing of a thread's own locations
as functions of the thread, then one frame for each part of the state that a write changes. -/
namespace Sys2Proof.Machine

/-! ### The tables after a change of one entry -/

theorem State.inst_of_inst? {s : State} {k : Nat} {i : Inst} (h : s.inst? k = some i) : s.inst k = i := by
  rw [State.inst, ← State.inst?, h]; rfl

theorem State.inst_modInst_of {s : State} {k : Nat} {i : Inst} (f : Inst → Inst) (h : s.inst? k = some i) :
    (s.modInst k f).inst k = f i := by
  rw [State.inst?] at h
  simp [State.inst, State.modInst, find?_smod, h]

/-- A change of one entry takes effect where it is listed, and changes nothing where it is not. -/
theorem State.inst_modInst_cases (s : State) (k : Nat) (f : Inst → Inst) :
    (s.modInst k f).inst k = f (s.inst k) ∨ (s.modInst k f).inst k = s.inst k := by
  cases h : find? s.insts k with
  | none => right; simp [State.inst, State.modInst, find?_smod, h]
  | some i => left; simp [State.inst, State.modInst, find?_smod, h]

theorem Inst.th_modTh_of {i : Inst} {t : Nat} {th : Thread} (f : Thread → Thread) (h : i.th? t = some th) :
    (i.modTh t f).th t = f th := by
  rw [Inst.th?] at h
  simp [Inst.th, Inst.modTh, find?_smod, h]

theorem Inst.th_modTh_ne (i : Inst) {t u : Nat} (f : Thread → Thread) (h : u ≠ t) : (i.modTh t f).th u = i.th u := by
  simp [Inst.th, Inst.modTh, find?_smod, h]

theorem Inst.th_modTh_cases (i : Inst) (t : Nat) (f : Thread → Thread) :
    (i.modTh t f).th t = f (i.th t) ∨ (i.modTh t f).th t = i.th t := by
  cases h : find? i.ths t with
  | none => right; simp [Inst.th, Inst.modTh, find?_smod, h]
  | some th => left; simp [Inst.th, Inst.modTh, find?_smod, h]

theorem Inst.hw_modHw_of {i : Inst} {h : Nat} {w : HWarp} (f : HWarp → HWarp) (hw : find? i.hws h = some w) :
    (i.modHw h f).hw h = f w := by
  simp [Inst.hw, Inst.modHw, find?_smod, hw]

theorem Inst.hw_modHw_ne (i : Inst) {h k : Nat} (f : HWarp → HWarp) (hk : k ≠ h) : (i.modHw h f).hw k = i.hw k := by
  simp [Inst.hw, Inst.modHw, find?_smod, hk]

theorem Inst.hw_modHw_cases (i : Inst) (h : Nat) (f : HWarp → HWarp) :
    (i.modHw h f).hw h = f (i.hw h) ∨ (i.modHw h f).hw h = i.hw h := by
  cases hw : find? i.hws h with
  | none => right; simp [Inst.hw, Inst.modHw, find?_smod, hw]
  | some w => left; simp [Inst.hw, Inst.modHw, find?_smod, hw]

/-- A field of a home warp that a change of a home warp keeps reads as before in every home warp. -/
theorem Inst.hw_modHw_keeps {α : Type} (g : HWarp → α) (i : Inst) (h k : Nat) (f : HWarp → HWarp) (hf : ∀ w, g (f w) = g w) :
    g ((i.modHw h f).hw k) = g (i.hw k) := by
  by_cases hk : k = h
  · subst hk
    rcases i.hw_modHw_cases k f with e | e <;> rw [e]
    exact hf _
  · rw [i.hw_modHw_ne f hk]

/-! ### Locations of threads -/

/-- The thread whose record holds a location: predicates and special registers (R8, R9). -/
def Loc.owner? : Loc → Option Nat
  | .p t _ | .seed t | .fp t | .meet t | .hnd t => some t
  | .v .. | .s .. | .g .. => none

/-- What a location of the thread's record reads. -/
def Thread.get (th : Thread) : Loc → DWord
  | .p _ n => if n = 0 then 1 else if th.preds.getLsbD n then 1 else 0
  | .seed _ => th.seed.setWidth 64
  | .fp _ => th.fp.setWidth 64
  | .meet _ => th.meet
  | .hnd _ => if th.hnd then 1 else 0
  | .v .. | .s .. | .g .. => 0

/-- The record with a location of it written. -/
def Thread.put (x : DWord) (th : Thread) : Loc → Thread
  | .p _ n => { th with preds := setPred th.preds n (x.getLsbD 0) }
  | .seed _ => { th with seed := x.setWidth 32 }
  | .fp _ => { th with fp := x.setWidth 5 }
  | .meet _ => { th with meet := x }
  | .hnd _ => { th with hnd := x.getLsbD 0 }
  | .v .. | .s .. | .g .. => th

theorem State.readLoc_owned (s : State) (iid : Nat) {l : Loc} {t : Nat} (h : l.owner? = some t) :
    s.readLoc iid l = ((s.inst iid).th t).get l := by
  cases l <;> cases h <;> rfl

theorem State.writeLoc_owned (s : State) (iid : Nat) {l : Loc} {t : Nat} (x : DWord) (h : l.owner? = some t) :
    s.writeLoc iid l x = s.modTh iid t fun th => th.put x l := by
  cases l <;> cases h <;> rfl

/-- A predicate number reads what was last written to it; p0 keeps its bit (R8). -/
theorem getLsbD_setPred (ps : BitVec 48) {n k : Nat} (b : Bool) (hk : k < 48) :
    (setPred ps n b).getLsbD k = if k = n ∧ n ≠ 0 then b else ps.getLsbD k := by
  unfold setPred
  by_cases hn : n = 0
  · simp [hn]
  · by_cases e : k = n
    · subst e; cases b <;> simp [hn, hk]
    · cases b
      · simp [hn, hk, e]
      · simp [hn, e, Ne.symm e, BitVec.getLsbD_twoPow]

/-- Another location of the same record reads as before. -/
theorem Thread.get_put_ne (th : Thread) (x : DWord) {l m : Loc} {t : Nat} (hl : l.owner? = some t) (hm : m.owner? = some t)
    (h : l ≠ m) (hp : ∀ t n k, l = .p t n → m = .p t k → n < 48 ∧ k < 48) : (th.put x l).get m = th.get m := by
  cases l <;> cases hl <;> cases m <;> cases hm <;> try rfl
  all_goals try exact absurd rfl h
  case p.refl.p.refl n k =>
    have hk : k ≠ n := fun e => h (e ▸ rfl)
    simp [Thread.get, Thread.put, getLsbD_setPred _ _ (hp t n k rfl rfl).2, hk]

/-- A location of the thread reads what the write leaves in its record. -/
theorem State.readLoc_writeLoc_owned {s : State} {iid t : Nat} {i : Inst} {th : Thread} (l : Loc) (x : DWord)
    (h : l.owner? = some t) (hi : s.inst? iid = some i) (ht : i.th? t = some th) :
    (s.writeLoc iid l x).readLoc iid l = (th.put x l).get l := by
  rw [State.writeLoc_owned _ _ _ h, State.readLoc_owned _ _ h, State.modTh, State.inst_modInst_of _ hi, Inst.th_modTh_of _ ht]

/-! ### Frames -/

theorem State.core_modInst (s : State) (k : Nat) (f : Inst → Inst) (c : Nat) : (s.modInst k f).core c = s.core c := rfl

/-- A change of one thread's record shows at its own locations alone. -/
theorem State.readLoc_modTh (s : State) (iid t : Nat) {f : Thread → Thread} {m : Loc}
    (h : m.owner? = some t → ∀ th, (f th).get m = th.get m) : (s.modTh iid t f).readLoc iid m = s.readLoc iid m := by
  rcases s.inst_modInst_cases iid (·.modTh t f) with e | e
  · cases hm : m.owner? with
    | none =>
      cases m <;> cases hm <;> simp only [State.readLoc, State.modTh, e, State.core_modInst] <;> rfl
    | some u =>
      rw [State.readLoc_owned _ _ hm, State.readLoc_owned _ _ hm, State.modTh, e]
      by_cases hu : u = t
      · subst hu
        rcases (s.inst iid).th_modTh_cases u f with e' | e' <;> rw [e']
        exact h hm _
      · rw [Inst.th_modTh_ne _ _ hu]
  · cases m <;> simp only [State.readLoc, State.modTh, e, State.core_modInst]

/-- A change of the scalar registers of a home warp shows at them alone. -/
theorem State.readLoc_modHw_scal (s : State) (iid h : Nat) (f : SMap Word → SMap Word) {m : Loc}
    (hm : ∀ k, m = .s h k → ∀ z, sget (0 : Word) (f z) k = sget 0 z k) :
    (s.modHw iid h fun w => { w with scal := f w.scal }).readLoc iid m = s.readLoc iid m := by
  rcases s.inst_modInst_cases iid (·.modHw h fun w => { w with scal := f w.scal }) with e | e
  · cases m with
    | v u k =>
      simp only [State.readLoc, State.modHw, e, State.core_modInst]
      rw [Inst.hw_modHw_keeps HWarp.vb _ _ _ (fun w => { w with scal := f w.scal }) fun _ => rfl]; rfl
    | s g k =>
      simp only [State.readLoc, State.modHw, e]
      by_cases hg : g = h
      · subst hg
        exact congrArg _ ((s.inst iid).hw_modHw_keeps (fun w => sget (0 : Word) w.scal k) g g _ fun w => hm k rfl w.scal)
      · rw [Inst.hw_modHw_ne _ _ hg]
    | p | g | seed | fp | meet | hnd => simp only [State.readLoc, State.modHw, e]; rfl
  · cases m <;> simp only [State.readLoc, State.modHw, e, State.core_modInst]

/-- A change of the g registers shows at them alone. -/
theorem State.readLoc_modInst_gregs (s : State) (iid : Nat) (f : SMap DWord → SMap DWord) {m : Loc}
    (hm : ∀ k, m = .g k → ∀ z, sget (0 : DWord) (f z) k = sget 0 z k) :
    (s.modInst iid fun i => { i with gregs := f i.gregs }).readLoc iid m = s.readLoc iid m := by
  rcases s.inst_modInst_cases iid fun i => { i with gregs := f i.gregs } with e | e
  · cases m with
    | g k => simp only [State.readLoc, e]; exact hm k rfl _
    | v | p | s | seed | fp | meet | hnd => simp only [State.readLoc, e, State.core_modInst]; rfl
  · cases m <;> simp only [State.readLoc, e, State.core_modInst]

theorem State.core_modCore_self (s : State) (c : Nat) (f : Core → Core) : (s.modCore c f).core c = f (s.core c) :=
  sget_sset_self _ _ _ _

/-- The frame of a write: vector registers of another row or lane, and locations of every other kind, thread or
number, read as before (R7 to R9). -/
theorem State.readLoc_writeLoc_ne (s : State) (iid : Nat) (x : DWord) {l m : Loc} (h : l ≠ m)
    (hv : ∀ t n u k, l = .v t n → m = .v u k →
      regKey (((s.inst iid).hw ((s.inst iid).hwOf t)).vb + n) ((s.inst iid).laneOf t) ≠
        regKey (((s.inst iid).hw ((s.inst iid).hwOf u)).vb + k) ((s.inst iid).laneOf u))
    (hp : ∀ t n k, l = .p t n → m = .p t k → n < 48 ∧ k < 48) :
    (s.writeLoc iid l x).readLoc iid m = s.readLoc iid m := by
  cases hl : l.owner? with
  | some t =>
    rw [State.writeLoc_owned _ _ _ hl]
    exact s.readLoc_modTh iid t fun hm th => th.get_put_ne x hl hm h hp
  | none =>
    cases l with
    | v t n =>
      cases m with
      | v u k =>
        simp only [State.writeLoc, State.readLoc, State.inst, State.modCore_insts]
        rw [State.core_modCore_self]
        exact congrArg _ (sget_sset_ne _ _ _ (hv t n u k rfl rfl).symm)
      | p | s | g | seed | fp | meet | hnd => rfl
    | s a n =>
      exact s.readLoc_modHw_scal iid a (fun z => sset 0 z n (x.setWidth 32)) fun k e z => sget_sset_ne _ _ _ fun hk => h (by rw [e, hk])
    | g n =>
      exact s.readLoc_modInst_gregs iid (fun z => sset 0 z n x) fun k e z => sget_sset_ne _ _ _ fun hk => h (by rw [e, hk])
    | p | seed | fp | meet | hnd => cases hl

/-- Settles O9: the read of the written location by its kind, every other by the frame. -/
theorem registerReadsBack : Obligations.RegisterReadsBack := by
  unfold Obligations.RegisterReadsBack
  intro s iid x
  refine ⟨fun t n => ?_, fun t n i th hi ht hn => ?_, fun h n i w hi hw => ?_, fun n i hi => ?_, fun t i th hi ht => ?_,
    fun l m h hv hp => s.readLoc_writeLoc_ne iid x h hv hp⟩
  · simp only [State.writeLoc, State.readLoc, State.inst, State.modCore_insts]
    rw [State.core_modCore_self]
    exact congrArg _ (sget_sset_self _ _ _ _)
  · rw [State.readLoc_writeLoc_owned (.p t n) x rfl hi ht]
    by_cases h0 : n = 0
    · simp [Thread.get, h0]
    · simp [Thread.get, Thread.put, getLsbD_setPred _ _ hn, h0]
  · simp only [State.writeLoc, State.readLoc, State.modHw, State.inst_modInst_of _ hi, Inst.hw_modHw_of _ hw, sget_sset_self]
  · simp only [State.writeLoc, State.readLoc, State.inst_modInst_of _ hi, sget_sset_self]
  · exact ⟨State.readLoc_writeLoc_owned (.seed t) x rfl hi ht, State.readLoc_writeLoc_owned (.fp t) x rfl hi ht,
      State.readLoc_writeLoc_owned (.meet t) x rfl hi ht, State.readLoc_writeLoc_owned (.hnd t) x rfl hi ht⟩

end Sys2Proof.Machine
end

section
/-! PROOFS. What stops an instruction before it acts (R41): check 5 by the opcodes of R42, the traps it leads to, and the wait for a
full flag (R36). -/
namespace Sys2Proof.Machine

/-! ### The marks of R42 as opcodes -/

theorem minLevel_pos_eq (i : Instr) : decide (1 ≤ minLevel i) =
    [0x344, 0x3C3, 0x3C5, 0x3C6, 0x3C7, 0x3C8, 0x3C9, 0x3CA, 0x3CB, 0x3CC].contains (i.opc.getD 0) := by
  cases i <;> rfl

theorem two_le_minLevel_iff {i : Instr} {c : Ctl} (h : i.ctl = some c) : 2 ≤ minLevel i ↔ ∃ d, i = .ckptMemrst c d := by
  unfold minLevel
  split <;> simp_all [Instr.ctl]

theorem minLevel_le_two (i : Instr) : minLevel i ≤ 2 := by
  unfold minLevel
  split <;> decide

theorem walkerOnly_eq (i : Instr) : walkerOnly i = [0x3C4, 0x3CD].contains (i.opc.getD 0) := by
  cases i <;> rfl

theorem repairOnly_eq (i : Instr) : repairOnly i = [0x383, 0x384].contains (i.opc.getD 0) := by
  cases i <;> rfl

/-- The opcodes that the Guide shares with compute code (R158). -/
def guideOpcs : List Nat :=
  [0x140, 0x143, 0x180, 0x181, 0x182, 0x1C0, 0x1C1, 0x1C2, 0x1C3, 0x1C4, 0x1C5, 0x1C6, 0x1C8,
    0x200, 0x201, 0x208, 0x209, 0x240, 0x241, 0x244, 0x245, 0x246, 0x247, 0x280, 0x281, 0x282, 0x283, 0x284, 0x285, 0x286,
    0x2C0, 0x2C1, 0x2C2, 0x2C6, 0x2C7, 0x2C8, 0x340, 0x341, 0x342, 0x343, 0x385]

theorem guideOk_eq {i : Instr} {c : Ctl} (h : i.ctl = some c) :
    guideOk i = (decide (i.opc.getD 0 < 0x80) || guideOpcs.contains (i.opc.getD 0)) := by
  cases i <;> cases h <;> rfl

theorem guideOnly_eq (i : Instr) : guideOnly i = [0x2C0, 0x2C1, 0x2C2, 0x2C6, 0x2C7, 0x2C8].contains (i.opc.getD 0) := by
  cases i <;> rfl

theorem stageOnly_eq (i : Instr) : stageOnly i =
    (decide (i.opc.getD 0 = 0x287) || decide (i.opc.getD 0 = 0x288) ||
      decide (0x300 ≤ i.opc.getD 0) && decide (i.opc.getD 0 ≤ 0x309)) := by
  cases i <;> rfl

/-! ### Check 5 (R41) -/

/-- An instruction whose thread lacks its level, its walker slot or its repair stage (R42, R301). -/
def LowFor (x : Inst) (level : Nat) (i : Instr) (c : Ctl) : Prop :=
  level = 0 ∧ i.opc.getD 0 ∈ [0x344, 0x3C3, 0x3C5, 0x3C6, 0x3C7, 0x3C8, 0x3C9, 0x3CA, 0x3CB, 0x3CC] ∨
    (level = 1 ∧ ∃ d, i = .ckptMemrst c d) ∨ (x.kind ≠ .walker ∧ i.opc.getD 0 ∈ [0x3C4, 0x3CD]) ∨
    (level = 0 ∧ i.opc.getD 0 ∈ [0x383, 0x384] ∧ ¬(x.kind = .stage ∧ x.repair = true))

/-- An instruction that the executing agent does not have (R17, R117, R158). -/
def LackedBy (x : Inst) (guide : Bool) (n : Nat) : Prop :=
  (guide = true ∧ ¬(n < 0x80 ∨ n ∈ guideOpcs)) ∨ (guide = false ∧ n ∈ [0x2C0, 0x2C1, 0x2C2, 0x2C6, 0x2C7, 0x2C8]) ∨
    (x.kind ≠ .stage ∧ (n = 0x287 ∨ n = 0x288 ∨ 0x300 ≤ n ∧ n ≤ 0x309))

theorem level_lt_minLevel_iff {i : Instr} {c : Ctl} (h : i.ctl = some c) (level : Nat) : level < minLevel i ↔
    level = 0 ∧ i.opc.getD 0 ∈ [0x344, 0x3C3, 0x3C5, 0x3C6, 0x3C7, 0x3C8, 0x3C9, 0x3CA, 0x3CB, 0x3CC] ∨
      level = 1 ∧ ∃ d, i = .ckptMemrst c d := by
  rw [← List.contains_iff_mem, ← minLevel_pos_eq, decide_eq_true_eq, ← two_le_minLevel_iff h]
  have := minLevel_le_two i
  omega

theorem check5_privilege_cases (x : Inst) (is : Issue) (i : Instr) : check5 x is i = .privilege ↔
    (x.th (lowest is.lanes).tid).level < minLevel i ∨ (walkerOnly i && x.kind != .walker) = true ∨
      (repairOnly i && (x.th (lowest is.lanes).tid).level == 0 && !(x.kind == .stage && x.repair)) = true := by
  unfold check5
  dsimp only
  split_ifs <;> simp only [*, true_or, or_true, or_self, Bool.false_eq_true]

theorem check5_privilege_iff (x : Inst) (is : Issue) {i : Instr} {c : Ctl} (h : i.ctl = some c) :
    check5 x is i = .privilege ↔ LowFor x (x.th (lowest is.lanes).tid).level i c := by
  rw [check5_privilege_cases, level_lt_minLevel_iff h, walkerOnly_eq, repairOnly_eq, LowFor]
  simp only [Bool.and_eq_true, bne_iff_ne, beq_iff_eq, Bool.not_eq_true', ← Bool.not_eq_true, List.contains_iff_mem, or_assoc,
    and_assoc, and_comm]

theorem check5_unavailable_iff (x : Inst) (is : Issue) {i : Instr} {c : Ctl} (h : i.ctl = some c) :
    check5 x is i = .unavailable ↔ check5 x is i ≠ .privilege ∧ LackedBy x is.guide (i.opc.getD 0) := by
  have lacked : LackedBy x is.guide (i.opc.getD 0) ↔ (is.guide && !guideOk i || !is.guide && guideOnly i ||
      x.kind != .stage && stageOnly i) = true := by
    rw [guideOk_eq h, guideOnly_eq, stageOnly_eq]
    simp only [LackedBy, Bool.or_eq_true, Bool.and_eq_true, Bool.not_eq_true', bne_iff_ne, decide_eq_true_eq, List.contains_iff_mem, not_or, or_assoc, ← Bool.not_eq_true]
  rw [lacked]
  unfold check5
  dsimp only
  split_ifs <;> simp_all

/-! ### What the issue does then -/

theorem issueIns_privilege {s : State} {is : Issue} {i : Instr} (c : Ctl) (more : List RU) (body : State → Issue → Did)
    (h : check5 (s.inst is.iid) is i = .privilege) :
    s.issueIns is i c more body = s.trapThreads is (is.lanes.map (·.tid)) 2 (i.opc.getD 0) 0 is.hdrAt (i.opc.getD 0) := by
  simp only [State.issueIns, h]

theorem issueIns_unavailable {s : State} {is : Issue} {i : Instr} (c : Ctl) (more : List RU) (body : State → Issue → Did)
    (h : check5 (s.inst is.iid) is i = .unavailable) :
    s.issueIns is i c more body = s.trapAll is 12 (i.opc.getD 0) 0 := by
  simp only [State.issueIns, h]

/-- A full flag holds an instruction that passes its checks (R36). -/
theorem issueIns_full {s : State} {is : Issue} {i : Instr} {c : Ctl} {more : List RU} {f : Nat} (body : State → Issue → Did)
    (h : check5 (s.inst is.iid) is i = .ok) (hf : (s.ctx (s.inst is.iid).ctx).ccb.fhtrap = false)
    (names : ∀ l, s.acting is c l → check6 (s.inst is.iid) is i c more l.tid = none ∧ s.zeroName is i l.tid = none)
    (hc : is.flagOf c.fsel = some f) (full : (s.inst is.iid).flagFull ((s.inst is.iid).sets is.lanes) f = true) :
    s.issueIns is i c more body = s := by
  have bad : ((is.lanes.filter fun l => l.active && s.guardAt is c (is.speaker (s.inst is.iid) c l.tid)).map (·.tid)).filterMap
      (fun t => ((check6 (s.inst is.iid) is i c more t).orElse fun _ => s.zeroName is i t).map fun d => (t, d)) = [] := by
    rw [List.filterMap_eq_nil_iff]
    intro t ht
    obtain ⟨l, hl, rfl⟩ := State.acting_of_mem ht
    obtain ⟨h1, h2⟩ := names l hl
    simp [h1, h2]
  unfold State.issueIns
  simp only [h, bad, hf, Bool.false_eq_true, if_false, List.isEmpty_nil, Bool.not_true, Bool.or_self, hc, Option.map_some,
    Option.getD_some, full, if_true]

/-- Settles O59: outside a clause by the shared shape of the encoded instructions, inside one by the outcome of check 5. -/
theorem stopsAndTraps : Obligations.StopsAndTraps := by
  unfold Obligations.StopsAndTraps
  intro s i c h
  refine ⟨exec_no_clause h, fun is hs => ?_⟩
  obtain ⟨body, hb⟩ := exec_encoded h
  have hb : exec i s = .next (s.issueIns is i c (moreRegs i s is) (body s is)) := by rw [hb, inClause_of hs]
  intro n x level low guideHas lacks more
  have hlow : check5 x is i = .privilege ↔ low := check5_privilege_iff x is h
  have hlacks : check5 x is i = .unavailable ↔ check5 x is i ≠ .privilege ∧ lacks := check5_unavailable_iff x is h
  refine ⟨fun l => ?_, fun l k => ?_, fun f l k hf names hc full => ?_⟩
  · rw [hb, issueIns_privilege _ _ _ (hlow.2 l)]
  · rw [hb, issueIns_unavailable _ _ _ (hlacks.2 ⟨mt hlow.1 l, k⟩)]
  · have ok : check5 x is i = .ok := by
      cases e : check5 x is i with
      | ok => rfl
      | privilege => exact absurd (hlow.1 e) l
      | unavailable => exact absurd (hlacks.1 e).2 k
    have hmore : moreRegs i s is = more := rfl
    rw [hb, hmore, issueIns_full _ ok hf names hc full]

end Sys2Proof.Machine
end

section
/-! PROOFS. Writes of special registers (R9, R103), and EXIT (R18, R20). -/
namespace Sys2Proof.Machine

/-- A fixed-latency instruction of which every run has one result. -/
theorem pureFixed_single {s : State} {is : Issue} {ins : Instr} {c : Ctl} (h : Issues s is ins c []) (lat : Nat)
    (f : State → Issue → Run → Put) :
    pureFixed ins c lat (fun s is r => [f s is r]) s = .next (s.settle is c lat ((s.runs is c).map (f s is))) := by
  rw [pureFixed_of h, List.map_eq_flatMap]

/-- MOVSR.w of sr.rsc in one run changes the counter and records no result (R71). -/
theorem movsrW_rsc {s : State} {is : Issue} {c : Ctl} {b : BSrc} {r : Run} (h : Issues s is (.movsrW c 8 b) c [])
    (hr : s.runs is c = [r]) : exec (.movsrW c 8 b) s = .next
      ((s.modTh is.iid r.t.tid fun th => { th with rsc := (s.srcB is r .b32 b).setWidth 32 }).settle is c 3 []) := by
  rw [exec_movsrW, execMovsrW, fixed_of h, hr]
  rfl

/-- Settles O24: each write but that of sr.rsc is a fixed-latency instruction of one result for each run. -/
theorem specialRegisterWrites : Obligations.SpecialRegisterWrites := by
  unfold Obligations.SpecialRegisterWrites
  intro s is c b off
  refine ⟨fun x hx h => ?_, fun r h hr => movsrW_rsc h hr,
    fun h => pureFixed_single h 3 fun _ is r => ⟨.meet r.t.tid, is.direct off, false⟩,
    fun h => pureFixed_single h 3 fun _ _ r => ⟨.meet r.t.tid, noMeeting, false⟩⟩
  simp only [List.mem_cons, List.not_mem_nil, or_false] at hx
  rcases hx with rfl | rfl | rfl | rfl
  · exact pureFixed_single h 3 fun s is r => ⟨.meet r.t.tid, s.srcB is r .n64 b, false⟩
  · exact pureFixed_single h 3 fun s is r => ⟨.fp r.t.tid, s.srcB is r .b32 b &&& 0x1F, false⟩
  · exact pureFixed_single h 3 fun s is r => ⟨.seed r.t.tid, lo32 (s.srcB is r .b32 b), false⟩
  · exact pureFixed_single h 3 fun s is r => ⟨.hnd r.t.tid, s.srcB is r .b32 b &&& 1, false⟩

/-- Settles O27: no thread of a run is in generator mode, so EXIT does not trap there (R123). -/
theorem exitEndsThreads : Obligations.ExitEndsThreads := by
  unfold Obligations.ExitEndsThreads
  intro s is c h outside
  have free : (((s.runs is c).map (·.t.tid)).any fun t => ((s.inst is.iid).hw ((s.inst is.iid).hwOf t)).basket.isSome) = false := by
    rw [List.any_map, List.any_eq_false]
    intro r hr
    simp [outside r hr]
  rw [exec_exit, execExit]
  exact transfer_of h (by simp only [free, Bool.false_eq_true, if_false])

end Sys2Proof.Machine
end

section
/-! PROOFS. What a logged decision leaves of a placed unit (R316): writes of the hardware to memory touch no entry of the placement
table but for sectors of L1, so a gated decision about formed warps keeps everything that a clause's issue reads beside them. -/
namespace Sys2Proof.Machine

/-! ### Writes of memory and the placement table -/

theorem State.setBytes_insts (s : State) (pa : Nat) (bs : List Byte) : (s.setBytes pa bs).insts = s.insts := by
  induction bs generalizing s pa with
  | nil => rfl
  | cons b r ih => exact (ih _ _).trans rfl

theorem State.setPhysBytes_insts (s : State) (pa : Nat) (bs : List Byte) : (s.setPhysBytes pa bs).insts = s.insts := by
  induction bs generalizing s pa with
  | nil => rfl
  | cons b r ih =>
    refine (ih _ _).trans ?_
    unfold State.setPhysByte
    split <;> rfl

theorem State.checkCtr_insts (s : State) (pa : Nat) : (s.checkCtr pa).insts = s.insts := by
  unfold State.checkCtr
  split
  · rfl
  · refine foldl_keeps (fun t : State => t.insts = s.insts) _ _ rfl fun t k ht => ?_
    dsimp only
    split
    · exact ht
    · exact ht

theorem State.fillPoison_insts (s : State) (pa : Nat) : (s.fillPoison pa).2.insts = s.insts := by
  unfold State.fillPoison
  split
  · rfl
  · split
    · rfl
    · dsimp only
      split
      · exact s.checkCtr_insts pa
      · split
        · exact s.checkCtr_insts pa
        · exact s.checkCtr_insts pa

theorem State.retag_insts (s : State) (pa : Nat) : (s.retag pa).insts = s.insts := rfl

theorem State.setCtr_insts (s : State) (pa major minor : Nat) : (s.setCtr pa major minor).insts = s.insts :=
  foldl_keeps (fun t : State => t.insts = s.insts) _ _ (s.setBytes_insts _ _) fun _ _ h => h

theorem State.reencrypt_insts (s : State) (pa : Nat) : (s.reencrypt pa).insts = s.insts := by
  unfold State.reencrypt
  refine foldl_keeps (fun t : State => t.insts = s.insts) _ _ rfl fun t _ h => ?_
  rw [State.retag_insts, State.setCtr_insts, State.setBytes_insts, h]

theorem State.writePlain_insts (s : State) (pa minorIn : Nat) (data : List Byte) (mask : BitVec 32) :
    (s.writePlain pa minorIn data mask).insts = s.insts := by
  unfold State.writePlain
  extract_lets sec full s2 s3 s4 new ovf m s5
  have h2 : s2.insts = s.insts := by
    simp only [s2]
    split
    · rfl
    · split
      · exact s.checkCtr_insts _
      · exact s.fillPoison_insts _
  have h3 : s3.insts = s.insts := by
    simp only [s3]
    split
    · exact h2
    · exact h2
  split
  · have h4 : s4.insts = s.insts := (s3.setBytes_insts _ _).trans h3
    split
    · exact h4
    · exact h4
  · have h5 : s5.insts = s.insts := by
      simp only [s5]
      split
      · exact (s3.reencrypt_insts _).trans h3
      · exact h3
    rw [State.retag_insts, State.setCtr_insts, State.setBytes_insts, h5]

theorem State.scribble_insts (s : State) (pa n : Nat) : (s.scribble pa n).insts = s.insts :=
  foldl_keeps (fun t : State => t.insts = s.insts) _ _ rfl fun t _ h => (t.writePlain_insts _ _ _ _).trans h

theorem State.undoAppend_insts (s : State) (pa va : Nat) : (s.undoAppend pa va).insts = s.insts := by
  refine foldl_keeps (fun t : State => t.insts = s.insts) _ _ rfl fun t c h => ?_
  rw [State.modCtx_insts]
  split
  · exact (t.scribble_insts _ _).trans h
  · exact h

theorem State.winTouch_insts (s : State) (pa n : Nat) : (s.winTouch pa n).insts = s.insts := by
  have acc : (s.accTouch pa n).insts = s.insts := by
    unfold State.accTouch
    split
    · refine foldl_keeps (fun t : State => t.insts = s.insts) _ _ rfl fun t _ h => ?_
      unfold State.accSpoil
      split <;> exact h
    · rfl
  unfold State.winTouch
  dsimp only
  split <;> exact acc

/-! ### What is left of an entry -/

/-- The second entry is the first but for its formed warps and the sectors of its L1. -/
def Inst.SameThreads (i j : Inst) : Prop := ∃ ws l1, j = { i with warps := ws, l1 := l1 }

theorem Inst.SameThreads.refl (i : Inst) : i.SameThreads i := ⟨i.warps, i.l1, rfl⟩

theorem Inst.SameThreads.trans {i j k : Inst} (h : i.SameThreads j) (h' : j.SameThreads k) : i.SameThreads k := by
  obtain ⟨_, _, rfl⟩ := h
  obtain ⟨ws, l1, rfl⟩ := h'
  exact ⟨ws, l1, rfl⟩

/-- The entry of `iid` keeps all but its formed warps and L1 from one state to another. -/
def State.Keeps (iid : Nat) (s t : State) : Prop := (s.inst iid).SameThreads (t.inst iid)

theorem State.Keeps.refl (iid : Nat) (s : State) : State.Keeps iid s s := Inst.SameThreads.refl _

theorem State.Keeps.trans {iid : Nat} {s t u : State} (h : State.Keeps iid s t) (h' : State.Keeps iid t u) : State.Keeps iid s u :=
  Inst.SameThreads.trans h h'

theorem State.Keeps.of_insts {iid : Nat} {s t : State} (h : t.insts = s.insts) : State.Keeps iid s t := by
  unfold State.Keeps State.inst
  rw [h]
  exact Inst.SameThreads.refl _

theorem find?_mapVals {β : Type} (m : SMap β) (f : β → β) (a : Nat) :
    find? (m.map fun x => (x.1, f x.2)) a = (find? m a).map f := by
  induction m with
  | nil => rfl
  | cons p r ih =>
    simp only [List.map_cons, find?]
    split
    · rfl
    · exact ih

/-- A recall drops sectors from L1 caches (R220). -/
theorem State.recallPage_keeps (iid : Nat) (s : State) (pa : Nat) : State.Keeps iid s (s.recallPage pa) := by
  unfold State.recallPage
  extract_lets off u
  have hu : u.insts = s.insts :=
    foldl_keeps (fun t : State => t.insts = s.insts) _ _ rfl fun t x h =>
      ((State.setBytes_insts _ _ _).trans (t.undoAppend_insts _ _)).trans h
  let drop (i : Inst) : Inst := if i.paired && !i.leading then i else { i with l1 := i.l1.filter fun p => off p.2.pa }
  have hm : (u.insts.map fun i => if i.2.paired && !i.2.leading then i else (i.1, { i.2 with l1 := i.2.l1.filter fun p => off p.2.pa })) =
      s.insts.map fun x => (x.1, drop x.2) := by
    rw [hu]
    refine List.map_congr_left fun x _ => ?_
    simp only [drop]
    split <;> rfl
  simp only [State.Keeps, State.inst, hm, find?_mapVals]
  cases find? s.insts iid with
  | none => exact Inst.SameThreads.refl _
  | some i =>
    show i.SameThreads (drop i)
    simp only [drop]
    split
    · exact Inst.SameThreads.refl _
    · exact ⟨_, _, rfl⟩

theorem State.writeSector_keeps (iid : Nat) (s : State) (pa va minorIn : Nat) (data : List Byte) (mask : BitVec 32) :
    State.Keeps iid s (s.writeSector pa va minorIn data mask) := by
  unfold State.writeSector
  extract_lets sec ovf newer
  split
  rename_i u _ _ _ _
  have hu : State.Keeps iid s u := by
    simp only [u]
    split
    · exact s.recallPage_keeps iid _
    · exact .refl iid s
  refine hu.trans (.of_insts ((State.writePlain_insts _ _ _ _ _).trans ?_))
  split
  · rfl
  · exact u.undoAppend_insts _ _

theorem State.setPaBytes_keeps (iid : Nat) (s : State) (pa : Nat) (bs : List Byte) : State.Keeps iid s (s.setPaBytes pa bs) := by
  refine foldl_keeps (State.Keeps iid s) _ _ (.refl iid s) fun t p h => h.trans ?_
  unfold State.putPiece
  split
  · have hw : ((t.winTouch p.1 ((bs.drop (p.1 - pa)).take p.2).length).setPhysBytes p.1 ((bs.drop (p.1 - pa)).take p.2)).insts = t.insts :=
      (State.setPhysBytes_insts _ _ _).trans (t.winTouch_insts _ _)
    split
    · exact .of_insts hw
    · exact .of_insts hw
  · exact t.writeSector_keeps iid _ _ _ _ _

/-! ### Decisions (R316 to R319) -/

theorem State.logWrite_keeps (iid : Nat) (s : State) (c src : Nat) (r : List Byte) : State.Keeps iid s (s.logWrite c src r) := by
  unfold State.logWrite
  extract_lets g u occ hit v
  have hv : State.Keeps iid s v := (s.setPaBytes_keeps iid _ _).trans (.of_insts rfl)
  split
  · exact hv.trans (.of_insts rfl)
  · exact hv

theorem State.gate_keeps (iid : Nat) (s : State) (c src typ : Nat) (p : List Byte) : State.Keeps iid s (s.gate c src typ p).2 := by
  have ctx (f : Ctx → Ctx) : State.Keeps iid s (s.modCtx c f) := .of_insts rfl
  have same : State.Keeps iid s s := .refl iid s
  unfold State.gate
  dsimp only
  split
  · split
    · exact ctx _
    · split
      · exact same
      · split
        · exact ctx _
        · exact s.logWrite_keeps iid _ _ _
  · split
    · split
      · exact same
      · split_ifs
        · exact ctx _
        · exact same
        · exact ctx _
        · exact ctx _
        · exact same
    · exact same

theorem State.applyNext_keeps (iid : Nat) (s : State) (c src : Nat) : State.Keeps iid s (s.applyNext c src) := by
  unfold State.applyNext
  split
  · exact .of_insts rfl
  · exact .refl iid s

theorem State.gateMore_keeps (iid : Nat) (s : State) (c src typ : Nat) (ps : List (List Byte)) :
    State.Keeps iid s (s.gateMore c src typ ps).2 := by
  induction ps generalizing s with
  | nil => exact .refl iid s
  | cons p ps ih =>
    have step : State.Keeps iid s ((if (s.ctx c).ccb.rplB then s.applyNext c src else s).gate c src typ p).2 := by
      refine State.Keeps.trans ?_ (State.gate_keeps iid _ _ _ _ _)
      split
      · exact s.applyNext_keeps iid _ _
      · exact .refl iid s
    generalize hu : (if (s.ctx c).ccb.rplB then s.applyNext c src else s) = u at step
    rw [State.gateMore, hu]
    dsimp only
    split
    · exact step.trans (ih _)
    · exact step

theorem State.gateAll_keeps (iid : Nat) (s : State) (c src typ : Nat) (ps : List (List Byte)) :
    State.Keeps iid s (s.gateAll c src typ ps).2 := by
  unfold State.gateAll
  dsimp only
  split
  · exact .of_insts rfl
  · cases ps with
    | nil => exact .refl iid s
    | cons p ps =>
      dsimp only
      split
      · exact s.gate_keeps iid _ _ _ _
      · split
        · exact (s.gate_keeps iid _ _ _ _).trans (State.gateMore_keeps iid _ _ _ _ _)
        · exact .of_insts rfl

theorem State.modWarp_keeps (iid : Nat) (s : State) (id : Nat) (f : Warp → Warp) : State.Keeps iid s (s.modWarp iid id f) := by
  unfold State.Keeps State.modWarp
  rcases s.inst_modInst_cases iid fun i => { i with warps := i.warps.map fun (w : Warp) => if w.id == id then f w else w } with e | e <;> rw [e]
  · exact ⟨_, _, rfl⟩
  · exact .refl _

/-- The end of demotions before an issue changes formed warps and what its log records write (R116, R316). -/
theorem State.endDemotions_keeps (iid : Nat) (s : State) (tids : List Nat) : State.Keeps iid s (s.endDemotions iid tids).2 := by
  unfold State.endDemotions
  refine foldl_keeps (fun r : Bool × State => State.Keeps iid s r.2) _ _ (.refl iid s) fun r w h => ?_
  have gated : State.Keeps iid s (r.2.gateWarp iid w 4).2 := h.trans (State.gateAll_keeps iid _ _ _ _ _)
  split
  · exact h
  · split
    · rename_i t e
      rw [e] at gated
      exact gated.trans (t.modWarp_keeps iid _ _)
    · rename_i t e
      rwa [e] at gated

end Sys2Proof.Machine
end

section
/-! PROOFS. The rows of issue, completion, delivery, unwinding and comparison, one after the other: each does what its row says where
what it waits for has come. -/
namespace Sys2Proof.Machine

/-! ### Decisions outside record and replay (R315) -/

theorem State.gateMore_plain {s : State} {c : Nat} (h : s.plain c) (src typ : Nat) (ps : List (List Byte)) :
    s.gateMore c src typ ps = (true, s) := by
  obtain ⟨-, h2⟩ := id h
  induction ps with
  | nil => rfl
  | cons p ps ih => rw [State.gateMore]; simp only [h2, Bool.false_eq_true, if_false, State.gate_plain h, if_true, ih]

/-- A decision of several records of a context that neither records nor replays passes at once. -/
theorem State.gateAll_plain {s : State} {c : Nat} (h : s.plain c) (src typ : Nat) (ps : List (List Byte)) :
    s.gateAll c src typ ps = (true, s) := by
  obtain ⟨h1, -⟩ := id h
  cases ps with
  | nil => simp only [State.gateAll, h1, Bool.false_and, Bool.false_eq_true, if_false]
  | cons p ps =>
    simp only [State.gateAll, h1, Bool.false_and, Bool.false_eq_true, if_false, State.gate_plain h, Bool.not_true,
      State.gateMore_plain h, if_true]

theorem State.gateWarp_plain {s : State} {iid : Nat} (h : s.plain (s.inst iid).ctx) (w : Warp) (fl : Nat) :
    s.gateWarp iid w fl = (true, s) := State.gateAll_plain h _ _ _

/-! ### The issue of a clause (R45) -/

/-- The active lanes of a formed warp are its threads, in the order of their lanes. -/
theorem activeTids_perm (lane : Nat → Nat) (tids rest : List Nat) :
    (((((tids.map fun t => (⟨lane t, t, true⟩ : LaneT)) ++ rest.map fun t => (⟨lane t, t, false⟩ : LaneT)).insertionSort
      fun a b => a.lane ≤ b.lane).filter (·.active)).map (·.tid)).Perm tids := by
  refine (((List.perm_insertionSort _ _).filter _).map _).trans (.of_eq ?_)
  simp [List.filter_append, List.filter_map, Function.comp_def]

/-- Where the threads may form and issue, no demotion holds them and their header is there with its waits over, the clause is in flight
with its first instruction next. The ends of demotions before it change nothing that the issue reads of the threads. -/
theorem clauseIssue_starts {s r t : State} {q : Seq} {iid : Nat} {tids : List Nat} {b : List Byte} {h : Header}
    (idle : (s.issues.any fun (x : Issue) => x.q == q) = false) (fits : seqFits (s.inst iid) iid q tids = true)
    (formable : s.formable iid tids = true) (free : s.demotedBlocked iid tids = false)
    (due : (s.inst iid).demotionDue tids = false) (fair : ∀ core p, q = .part core p → s.starved core p iid tids = false)
    (ended : s.endDemotions iid tids = (true, r)) (plain : t.plain (s.inst iid).ctx)
    (whole : ((s.inst iid).subs.find? fun (g : SubGroup) => g.id == ((s.inst iid).th (tids.headD 0)).sub && g.cont.isSome) = none)
    (fetched : r.fetch (.fetch iid (tids.headD 0)) iid (tids.headD 0) ((s.inst iid).th (tids.headD 0)).header.toNat 8 = (.bytes b, t))
    (decoded : decodeHeader (natOf b) = .ok h) (waits : ∀ ls, (s.inst iid).waitsOver ((s.inst iid).sets ls) h.wait = true)
    (good : ∀ t ∈ tids, ∀ f ∈ ((s.inst iid).th t).perr, h.wait.getLsbD f = false) :
    ∃ is ∈ (s.clauseIssue q iid tids).issues, is.q = q ∧ is.iid = iid ∧ is.hdrAt = ((s.inst iid).th (tids.headD 0)).header ∧
      is.hdr = h ∧ is.addr = ((s.inst iid).th (tids.headD 0)).header + 8 ∧ is.idx = 0 ∧ is.writes = [] ∧
      ((is.lanes.filter (·.active)).map (·.tid)).Perm tids := by
  have keeps := s.endDemotions_keeps iid tids
  rw [ended] at keeps
  obtain ⟨ws, l1, e⟩ := keeps
  have whole' : ((r.inst iid).subs.find? fun (g : SubGroup) => g.id == ((r.inst iid).th (tids.headD 0)).sub && g.cont.isSome) = none := by
    rw [e]; exact whole
  have waits' : ∀ ls, (r.inst iid).waitsOver ((r.inst iid).sets ls) h.wait = true := by
    rw [e]; exact waits
  have good' : (tids.filter fun t => ((r.inst iid).th t).perr.any fun f => h.wait.getLsbD f) = [] := by
    rw [List.filter_eq_nil_iff, e]
    intro t ht
    rw [List.any_eq_true]
    rintro ⟨f, hf, hw⟩
    rw [good t ht f hf] at hw
    cases hw
  have ctx' : (r.inst iid).ctx = (s.inst iid).ctx := by rw [e]
  have number : t.newId.2.plain (s.inst iid).ctx := plain
  unfold State.clauseIssue
  extract_lets i t0 hdr part who
  have fair' : (part.elim false fun x => s.starved x.1 x.2 iid tids) = false := by
    simp only [part]
    split
    · exact fair _ _ rfl
    · rfl
  clear_value part
  simp only [i, t0, hdr, who, idle, fits, formable, free, due, fair', ended, whole', fetched, decoded, waits', good', ctx', Bool.not_true,
    Bool.or_self, Bool.false_eq_true, if_false, List.isEmpty_nil]
  cases part with
  | none | some _ =>
    cases (tids.map fun t => ((r.inst iid).th t).warp).find? (· != 0) with
    | none | some _ =>
      simp only [plain.2, number.2, Bool.false_and, Bool.false_eq_true, if_false, State.gateAll_plain plain, State.gateAll_plain number,
        ite_self, Bool.not_true]
      exact ⟨_, List.mem_append_right _ (List.mem_singleton.2 rfl), rfl, rfl, rfl, rfl, rfl, rfl, rfl, activeTids_perm _ _ _⟩

/-! ### Spinning paths (R115, R116) -/

theorem spinDemotion_demotes {s : State} {iid : Nat} {w : Warp} (hw : ((s.inst iid).warps.find? fun (x : Warp) => x.id == w.id) = some w)
    (h : s.plain (s.inst iid).ctx) (hd : w.demoted = false) (hp : ∃ p ∈ w.spins, Config.spinLimit ≤ p.run) :
    exec (.spinDemotion iid w.id) s = .next (s.modWarp iid w.id fun w => { w with demoted := true, sibs := 0 }) := by
  have spins : (w.spins.any fun (p : Spin) => decide (Config.spinLimit ≤ p.run)) = true := by
    rw [List.any_eq_true]
    obtain ⟨p, hm, hp⟩ := hp
    exact ⟨p, hm, decide_eq_true hp⟩
  rw [exec_spinDemotion, execSpinDemotion]
  simp only [hw, hd, spins, State.gateWarp_plain h, Bool.not_false, Bool.and_self, if_true]

theorem demotionEnd_promotes {s : State} {iid hw : Nat} {w : Warp} (h : s.plain (s.inst iid).ctx)
    (hw' : ((s.inst iid).warps.filter fun (w : Warp) => w.demoted && w.tids.any (fun t => (s.inst iid).hwOf t == hw) &&
      (s.inst iid).demotionOver w) = [w]) :
    exec (.demotionEnd iid hw) s = .next (s.modWarp iid w.id Warp.promote) := by
  rw [exec_demotionEnd, execDemotionEnd]
  simp only [hw', List.foldl_cons, List.foldl_nil, State.gateWarp_plain h]

/-! ### Operations in flight (R37, R128) -/

theorem falseGuard_closes {s : State} {op hw : Nat} {o : PendOp} (ho : s.op? op = some o)
    (hx : (o.shares.any fun (x : Share) => x.hw == hw && x.left.isEmpty) = true) :
    exec (.falseGuardCompletion op hw) s = .next (s.closeShare o hw).reapOps := by
  rw [exec_falseGuardCompletion, execFalseGuardCompletion]
  simp only [ho, hx, if_true]

/-- The records of store faults that a core has taken or holds, with those of operations in flight (R128, R164). -/
def State.sfCount (k : Nat) (s : State) : Nat :=
  (s.core k).sfSeq + (s.core k).sfWait.length + (s.ops.map fun (o : PendOp) => o.sf.length).sum

theorem storeFault_records {s : State} {op tid : Nat} {o : PendOp} {p : Part} (ho : s.op? op = some o) (hp : o.part? tid = some p)
    (hs : storing o.ins = true) (hn : (s.partStep o p).sfCount (s.inst o.iid).core ≠ s.sfCount (s.inst o.iid).core) :
    exec (.storeFault op tid) s = .next (s.partStep o p) := by
  rw [exec_storeFault, execStoreFault]
  simp only [ho, hp, hs, Bool.not_true, Bool.false_eq_true, if_false]
  exact congrArg _ (if_neg hn)

/-! ### Deliveries at a boundary (R129 to R131) -/

theorem TrapRec.sameFault_self {x : TrapRec} (h : x.code = 6) : x.sameFault x = true := by
  simp [TrapRec.sameFault, h]

/-- One thread of a home warp has a trap to take, and no other delivery comes before it: while the handler is busy it is Parked, else
it takes its store fault, its park or its trap. -/
theorem deliverHw_one {s : State} {iid hw a k d : Nat} {i : Inst} {th : Thread} {r : Option TrapRec} (hk : i.kind = .stage)
    (hi : s.inst? iid = some i)
    (one : (i.ths.filter fun p => i.hwOf p.1 == hw && !s.issuing iid p.1 &&
      (match p.2.status with | .ready | .held | .parked .wait => true | _ => false) && p.2.nextTrap.isSome) = [(a, th)])
    (hh : th.hnd = false) (hn : th.nextTrap = some (k, d, r))
    (hr : ∀ x, r = some x → i.lowerWaits hw x = false ∧ (x.code = 6 → ∀ p ∈ i.ths, p.1 ≠ a → i.hwOf p.1 = hw →
      p.2.status ≠ .exited → p.2.pend.any x.sameFault = false)) :
    s.deliverHw iid hw =
      if k < 6 && i.handler != 0 && !i.isGuide a && i.handlerBusy hw then
        s.modInst iid fun i => (i.modTh a fun x => { x with status := .parked .wait }).unwarp a
      else r.elim (s.takeStoreFault iid hw [(a, th)]) fun x =>
        if x.code = 6 then s.takePark iid hw [((a, th), x)] else s.takeWaiting iid hw [(a, th)] x := by
  rw [State.inst?] at hi
  unfold State.deliverHw
  split
  · rename_i e
    rw [hi] at e
    cases e
  rename_i j e
  obtain rfl : i = j := Option.some.inj (hi.symm.trans e)
  extract_lets ready due all all' inside now
  rw [if_neg (by simp [hk])]
  have due_none : ∀ p : Nat × Thread, p.2.nextTrap = none → due p = none := fun p h => by simp only [due, h]
  have due_th : due (a, th) = some (k, d, r) := by
    simp only [due, hn]
    cases r with
    | none => rfl
    | some r => simp only [hh, Bool.false_and, Bool.false_eq_true, if_false]
  have all_one : all = [((a, th), (k, d, r))] := by
    have : all = (ready.filter fun p => p.2.nextTrap.isSome).filterMap fun p => (due p).map fun d => (p, d) := by
      rw [List.filterMap_filter]
      refine List.filterMap_congr fun p _ => ?_
      cases h : p.2.nextTrap with
      | none => simp [due_none p h]
      | some _ => simp
    have only : (ready.filter fun p => p.2.nextTrap.isSome) = [(a, th)] := by
      rw [← one, List.filter_filter]
      exact List.filter_congr fun p _ => Bool.and_comm _ _
    rw [this, only]
    simp only [List.filterMap_cons, List.filterMap_nil, due_th, Option.map_some]
  have held : all' = [((a, th), (k, d, r))] := by
    simp only [all', all_one]
    cases r with
    | none => rfl
    | some x =>
      obtain ⟨lower, alone⟩ := hr x rfl
      refine List.filter_cons_of_pos ?_
      simp only [Option.elim_some, lower, Bool.not_false, Bool.true_and, Bool.or_eq_true, bne_iff_ne, List.all_eq_true]
      refine (eq_or_ne x.code 6).symm.imp_right fun six p hp => ?_
      by_cases hpa : p.1 = a
      · exact .inr (by simp [hpa, TrapRec.sameFault_self six])
      · refine .inl (or_assoc.2 (or_iff_not_imp_left.2 fun home => or_iff_not_imp_left.2 fun live => ?_))
        rw [alone six p hp hpa (not_not.1 home) (by simpa using live)]
        rfl
  have now_one : now = [((a, th), (k, d, r))] := by
    simp only [now, inside, held, List.filter_cons, hh, Bool.false_eq_true, if_false, List.filter_nil, List.isEmpty_nil, if_true]
  clear_value now
  subst now_one
  simp only [List.insertionSort_cons, List.insertionSort_nil, List.orderedInsert_nil, hh, Bool.not_false, Bool.and_true, List.foldl_cons,
    List.foldl_nil, List.filter_cons, List.filter_nil, beq_self_eq_true, Bool.and_self, if_true, List.map_cons, List.map_nil,
    List.filterMap_cons, List.filterMap_nil]
  cases r with
  | none => rfl
  | some x =>
    by_cases six : x.code = 6
    · simp only [Option.elim_some, Option.bind_some, TrapRec.sameFault_self six, if_true]
    · simp only [Option.elim_some, six, if_false]

/-! ### A park on a scratchpad line (R355) -/

theorem spadPark_resumes {s : State} {iid : Nat} {g : SubGroup}
    (hg : ((s.inst iid).subs.find? fun (x : SubGroup) => x.id == g.id && x.cont.isSome) = some g)
    (hl : ∀ l ∈ g.lines, (s.core (s.inst iid).core).absent.contains l = false) :
    exec (.spadParkResume iid g.id) s = .next (s.modInst iid fun i =>
      { i with subs := i.subs.map (fun (x : SubGroup) => if x.id == g.id then { x with flags := [], lines := [] } else x)
               ths := i.ths.map fun p => (p.1, p.2.unline g.id) }) := by
  have there : (g.lines.any fun l => (s.core (s.inst iid).core).absent.contains l) = false := by
    rw [List.any_eq_false]
    exact fun l h => by simp only [hl l h, Bool.false_eq_true, not_false_eq_true]
  rw [exec_spadParkResume, execSpadParkResume]
  simp only [hg, there, Bool.false_eq_true, if_false]

/-! ### Unwinding (R262, R274) -/

theorem unwindLogged_plain {s : State} {hw k : Nat} {u : Uncorr} {copies : List Nat} (h : ∀ j ∈ copies, s.plain (s.inst j).ctx) :
    State.unwindLogged hw k u s copies = (true, s) := by
  induction copies with
  | nil => rfl
  | cons j r ih =>
    have hj := h j List.mem_cons_self
    rw [State.unwindLogged]
    simp only [hj.2, Bool.false_eq_true, if_false, State.gateAll_plain hj, ih fun x hx => h x (List.mem_cons_of_mem _ hx)]

theorem canUnwind_of {s : State} {j hw k : Nat}
    (room : s.vcRoom ((s.inst j).die j) ((((s.inst j).hw hw).regions.drop k).map fun (r : Region) => r.undo.length).sum = true)
    (still : ∀ r ∈ ((s.inst j).hw hw).regions.drop k, s.unwindWaits j r = false ∧ ∀ t ∈ r.members, s.issuing j t = false) :
    s.canUnwind j hw k = true := by
  simp only [State.canUnwind, room, Bool.true_and, List.all_eq_true, Bool.and_eq_true, Bool.not_eq_true']
  exact still

theorem regionUnwind_unwinds {s : State} {iid hw k : Nat} {u : Uncorr} (hk : (s.inst iid).kind = .stage)
    (hu : s.unwindCause iid hw = (some (k, u), s)) (plain : ∀ j ∈ s.unwindCopies iid hw k, s.plain (s.inst j).ctx)
    (ready : ∀ j ∈ s.unwindCopies iid hw k, s.canUnwind j hw k = true) :
    exec (.regionUnwind iid hw) s = .next (s.unwindAll (s.unwindCopies iid hw k) hw k u) := by
  have all : ((s.unwindCopies iid hw k).all fun j => s.canUnwind j hw k) = true := List.all_eq_true.2 ready
  rw [exec_regionUnwind, execRegionUnwind, State.regionUnwind]
  simp only [hk, hu, all, Bool.not_true, Bool.false_eq_true, if_false, unwindLogged_plain plain]

/-- The copies of a pair region, as a condition. -/
theorem State.unwindCopies_eq (s : State) (iid hw k : Nat) : s.unwindCopies iid hw k =
    match (s.inst iid).partner with
    | some j => if (s.inst iid).paired = true ∧ ((((s.inst iid).hw hw).regions[k]?).elim false (·.pair)) = true ∧
        ((((s.inst j).hw hw).regions[k]?).elim false (·.pair)) = true then [iid, j] else [iid]
    | none => [iid] := by
  simp only [State.unwindCopies]
  cases (s.inst iid).partner with
  | none => rfl
  | some j => simp only [Bool.and_eq_true, and_assoc]

/-! ### Uncorrectable errors (R83, R258) -/

/-- The state with what a pipeline error leaves unwritten of the clause of a thread gone (R83). -/
def State.loseResult (s : State) (i : Inst) (iid tid cause : Nat) : State :=
  if cause = 1 then
    { s with issues := s.issues.map fun (x : Issue) =>
        if x.iid == iid && x.lanes.any fun l => l.tid == tid then x.dropResult i tid else x }
  else s

theorem State.loseResult_insts (s : State) (i : Inst) (iid tid cause : Nat) : (s.loseResult i iid tid cause).insts = s.insts := by
  unfold State.loseResult
  split <;> rfl

theorem State.loseResult_mem (s : State) (i : Inst) (iid tid cause : Nat) : (s.loseResult i iid tid cause).mem = s.mem := by
  unfold State.loseResult
  split <;> rfl

/-- What UNCORRECTABLE_ERROR does to a thread that has not exited, by the kind of its unit and by what the address names. -/
theorem exec_uncorrectable_live {s : State} {iid tid cause : Nat} {va : DWord} {i : Inst} {th : Thread} (hi : s.inst? iid = some i)
    (ht : i.th? tid = some th) (live : th.status ≠ .exited) (hc : cause = 1 ∨ cause = 2) :
    exec (.uncorrectableError iid tid cause va) s = .next
      (if i.kind = .walker then s.walkerTrap iid
      else if cause = 1 ∧ va = BitVec.allOnes 64 then s.modTh iid tid fun t => { t with failNext := true }
      else if cause = 1 ∧ va ≠ 0 then s.failOp iid tid (va.toNat - 1)
      else if i.kind = .steward then
        (s.loseResult i iid tid cause).modTh iid tid fun t => { t with pend := t.pend ++ [⟨8, cause, 0, 0, 0, 1, 0, 0, false⟩] }
      else (s.loseResult i iid tid cause).consume iid tid cause va
        ((s.issues.find? fun (x : Issue) => x.iid == iid && x.lanes.any fun l => l.tid == tid).elim th.lastHdr (·.hdrAt)) none) := by
  have known : (!(cause == 1 || cause == 2) || th.status == .exited) = false := by
    rcases hc with rfl | rfl <;> simp [live]
  rw [State.inst?] at hi
  rw [exec_uncorrectableError, execUncorrectableError]
  simp only [hi, ht, known, Bool.false_eq_true, if_false]
  cases i.kind with
  | walker => rfl
  | stage | steward =>
    simp only [State.loseResult, reduceCtorEq, if_false, if_true, Bool.and_eq_true, decide_eq_true_eq, beq_iff_eq, bne_iff_ne]

/-- An error whose address is 0, and one that is not of the pipeline, names neither the next instruction nor an operation. -/
theorem namesLast {cause : Nat} {va : DWord} (h : cause = 2 ∨ va = 0) :
    ¬(cause = 1 ∧ va = BitVec.allOnes 64) ∧ ¬(cause = 1 ∧ va ≠ 0) := by
  rcases h with rfl | rfl
  · simp
  · exact ⟨fun h => absurd h.2 (by decide), fun h => h.2 rfl⟩

/-! ### Bad sectors (R213) -/

theorem poisonedFill_parks {s : State} {op tid cause pa : Nat} {o : PendOp} {p : Part} {vas : List Nat} (ho : s.op? op = some o)
    (hp : o.part? tid = some p) (hl : loadClass o.ins = true) (ht : (s.inst o.iid).trailing = false)
    (hv : (((((accPieces o.ins p).flatMap fun x => sectorsOf x.1 x.2).filter fun x => !s.l1Has (s.req o.iid tid 0) x.1 x.2).map (·.1)).filterMap
        fun va => s.sectorAt (s.req o.iid tid 0) va) = vas)
    (hpa : (vas.filter fun pa => !paWindow pa && !(s.dies.any fun d => d.2.l2.any fun y => y.2.pa == pa)).head? = some pa)
    (same : (s.spoilSector pa cause).op? op = some o) :
    exec (.poisonedFill op tid cause) s = .next ((s.spoilSector pa cause).parkFailing o tid 0) := by
  obtain ⟨rest, hf⟩ := List.head?_eq_some_iff.1 hpa
  rw [exec_poisonedFill, execPoisonedFill]
  simp only [State.fills, ho, hp, hl, ht, Bool.true_or, Bool.not_false, Bool.and_self, Bool.not_true, Bool.false_eq_true, if_false, if_true,
    Option.map_some, beq_self_eq_true, Bool.true_and, hv, hf, same]

/-! ### Compared accesses (R263) -/

theorem State.die_modDie_self (s : State) (d : Nat) (f : Die → Die) : (s.modDie d f).die d = f (s.die d) :=
  sget_sset_self _ _ _ _

theorem State.die_modOp (s : State) (id : Nat) (f : PendOp → PendOp) (d : Nat) : (s.modOp id f).die d = s.die d := rfl

theorem compareMatch_removes {s : State} {die iid tid : Nat} {e : CmpEntry} {o : PendOp} {p : Part} (hc : (s.die die).cmp = [e])
    (hi : e.iid = iid) (ht : e.tid = tid) (hp : s.partnerPart iid tid e.seqNo = some (o, p)) (ha : p.arrived = false)
    (hd : p.done = e.seqNo + 1 - p.seqNo) (hs : sigOf o.ins p (e.seqNo + 1 - p.seqNo) = e.sig) :
    ∃ u, exec (.compareMatch die iid tid) s = .next u ∧ (u.die die).cmp = [] ∧ u.insts = s.insts ∧ u.mem = s.mem := by
  subst hi ht
  rw [exec_compareMatch, execCompareMatch]
  simp only [hc, List.filter_cons, beq_self_eq_true, Bool.and_self, if_true, List.filter_nil, List.insertionSort_cons,
    List.insertionSort_nil, List.orderedInsert_nil, hp, ha, hd, hs, bne_self_eq_false, Bool.or_self, Bool.false_eq_true, if_false]
  refine ⟨_, rfl, ?_, rfl, rfl⟩
  rw [State.die_modOp, State.die_modOp, State.die_modDie_self, hc]
  simp only [List.filter_cons, bne_self_eq_false, Bool.false_eq_true, if_false, List.filter_nil]

/-- Settles O54, one row of the opcode table after the other. -/
theorem clauseEvents : Obligations.ClauseEvents := by
  unfold Obligations.ClauseEvents
  intro s r t q iid hw op tid tids cause va i h0
  refine ⟨?issue, ?spin, ?share, ?fault, ?trap, ?line, ?unwind, ?error, ?fill, ?compare⟩
  case issue =>
    intro b h idle fits formable free due fair ended plain whole fetched decoded waits good
    obtain ⟨is, mem, rest⟩ := clauseIssue_starts idle fits formable free due fair ended plain whole fetched decoded waits good
    exact ⟨_, is, rfl, mem, rest⟩
  case spin =>
    exact fun w found plain => ⟨fun hd hp => spinDemotion_demotes found plain hd hp, fun one => demotionEnd_promotes plain one⟩
  case share => exact fun o ho hx => falseGuard_closes ho hx
  case fault => exact fun o p ho hp hs hn => storeFault_records ho hp hs hn
  case trap =>
    intro a th k d x hk hi one hh hn hx
    have deliver : exec (.stageHandlerDelivery iid hw) s = .next (s.deliverHw iid hw) := by
      rw [exec_stageHandlerDelivery, execStageHandlerDelivery]
      exact congrArg _ (if_neg (by rw [hk]; decide))
    rw [deliver, deliverHw_one hk hi one hh hn hx]
    refine ⟨fun busy => ?_, fun busy before handler guide => ?_⟩
    · rw [if_neg (by simp [busy])]
      cases x <;> rfl
    · rw [if_pos (by simpa [busy, before, guide] using handler)]
  case line => exact fun g hg hl => spadPark_resumes hg hl
  case unwind =>
    intro k u hk hu copies plain ready
    have same : s.unwindCopies iid hw k = copies := s.unwindCopies_eq iid hw k
    rw [regionUnwind_unwinds hk hu (same ▸ plain) (same ▸ fun j hj => canUnwind_of (ready j hj).1 (ready j hj).2), same]
  case error =>
    intro th hi ht live hc
    rw [exec_uncorrectable_live hi ht live hc]
    refine ⟨fun hk hn => ?_, fun hk h1 h2 h3 => ?_, fun hk h1 h2 => ?_, fun hk hn => ?_, fun hk => ?_⟩
    · obtain ⟨notNext, notOp⟩ := namesLast hn
      rw [if_neg (by simp [hk]), if_neg notNext, if_neg notOp, if_neg (by simp [hk])]
      exact ⟨_, _, rfl, s.loseResult_insts i iid tid cause, s.loseResult_mem i iid tid cause⟩
    · rw [if_neg hk, if_neg fun h => h3 h.2, if_pos ⟨h1, h2⟩]
    · rw [if_neg hk, if_pos ⟨h1, h2⟩]
    · obtain ⟨notNext, notOp⟩ := namesLast hn
      rw [if_neg (by simp [hk]), if_neg notNext, if_neg notOp, if_pos hk]
      refine ⟨_, rfl, ?_, s.loseResult_mem i iid tid cause⟩
      have listed : (s.loseResult i iid tid cause).inst? iid = some i := by
        rw [State.inst?, State.loseResult_insts]
        exact hi
      rw [State.modTh, State.inst_modInst_of _ listed, Inst.th_modTh_of _ ht]
    · rw [if_pos hk]
  case fill =>
    intro o p x pa xs ho hp hl ht hv hpa
    refine ⟨poisonedFill_parks ho hp hl ht hv hpa ho, fun sealed => ?_⟩
    have bent : s.spoilSector pa 2 = { s with stags := sput s.stags (pa / 32) (~~~s.goodTag pa) } := by
      simp only [State.spoilSector, sealed, Bool.false_eq_true, if_false]
    rw [poisonedFill_parks ho hp hl ht hv hpa (by rw [bent]; exact ho), bent]
  case compare => exact fun e o p hc hi ht hp ha hd hs => compareMatch_removes hc hi ht hp ha hd hs

end Sys2Proof.Machine
end

section
/-! PROOFS. Elements of integer operands and what the integer functions make of them (R61, R62, R86): an element is read back
where it was joined, Wrap is the remainder that a bit vector keeps, and Sat clamps before it wraps. -/
namespace Sys2Proof.Machine

/-! ### Joined elements (R62) -/

/-- Each element is found where it was joined, cut to the width. -/
theorem joinElems_div (w : Nat) (xs : List Nat) (k : Nat) : joinElems w xs / 2 ^ (w * k) % 2 ^ w = xs.getD k 0 % 2 ^ w := by
  induction xs generalizing k with
  | nil => simp [joinElems]
  | cons x r ih =>
    cases k with
    | zero => simp [joinElems]
    | succ k =>
      have low : x % 2 ^ w < 2 ^ w := Nat.mod_lt _ (Nat.two_pow_pos w)
      rw [joinElems, Nat.mul_succ, Nat.add_comm (w * k), Nat.pow_add, ← Nat.div_div_eq_div_mul,
        Nat.add_mul_div_left _ _ (Nat.two_pow_pos w), Nat.div_eq_of_lt low, Nat.zero_add, ih, List.getD_cons_succ]

theorem joinElems_lt (w : Nat) (xs : List Nat) : joinElems w xs < 2 ^ (w * xs.length) := by
  induction xs with
  | nil => simp [joinElems]
  | cons x r ih =>
    have low : x % 2 ^ w < 2 ^ w := Nat.mod_lt _ (Nat.two_pow_pos w)
    rw [joinElems, List.length_cons, Nat.mul_succ, Nat.add_comm (w * r.length), Nat.pow_add]
    calc x % 2 ^ w + 2 ^ w * joinElems w r
        < 2 ^ w * (joinElems w r + 1) := by rw [Nat.mul_succ]; omega
      _ ≤ 2 ^ w * 2 ^ (w * r.length) := Nat.mul_le_mul_left _ ih

theorem elemAt_joinElems {w : Nat} {xs : List Nat} (h : w * xs.length ≤ 64) (k : Nat) :
    elemAt w (BitVec.ofNat 64 (joinElems w xs)) k = xs.getD k 0 % 2 ^ w := by
  have fits : joinElems w xs < 2 ^ 64 := (joinElems_lt w xs).trans_le (Nat.pow_le_pow_right (by decide) h)
  rw [elemAt, BitVec.toNat_ofNat, Nat.mod_eq_of_lt fits, joinElems_div]

theorem elemAt_zero (w : Nat) (x : DWord) : elemAt w x 0 = x.toNat % 2 ^ w := by simp [elemAt]

/-! ### Wrap, Sat and the value of a pattern (R61) -/

theorem wrapI_eq_ofInt (w : Nat) (x : Int) : wrapI w x = (BitVec.ofInt w x).toNat := (BitVec.toNat_ofInt x).symm

theorem satI_eq_wrapI (w : Nat) (sg : Bool) (x : Int) :
    satI w sg x = wrapI w (max (intLo w sg) (min (intHi w sg) x)) := by
  have ordered : intLo w sg ≤ intHi w sg := by
    have := Nat.two_pow_pos w
    have := Nat.two_pow_pos (w - 1)
    cases sg <;> simp only [intLo, intHi, Bool.false_eq_true, if_false, if_true] <;> omega
  unfold satI
  congr 1
  split
  · omega
  · split <;> omega

theorem valI_unsigned (w b : Nat) : valI w false b = (BitVec.ofNat w b).toNat := by simp [valI]

theorem valI_signed {w : Nat} (hw : 0 < w) (b : Nat) : valI w true b = (BitVec.ofNat w b).toInt := by
  have half : 2 ^ w = 2 * 2 ^ (w - 1) := by rw [← Nat.pow_succ', Nat.succ_eq_add_one, Nat.sub_add_cancel hw]
  simp only [valI, BitVec.toInt_eq_toNat_cond, BitVec.toNat_ofNat, Bool.true_and, decide_eq_true_eq]
  generalize b % 2 ^ w = n
  split <;> split <;> omega

/-- A pattern's value wraps to the pattern, whatever its sign. -/
theorem ofInt_valI {w : Nat} (hw : 0 < w) (sg : Bool) (b : Nat) : BitVec.ofInt w (valI w sg b) = BitVec.ofNat w b := by
  cases sg
  · rw [valI_unsigned, BitVec.ofInt_natCast, BitVec.ofNat_toNat, BitVec.setWidth_eq]
  · rw [valI_signed hw, BitVec.ofInt_toInt]

theorem wrapI_lt (w : Nat) (x : Int) : wrapI w x < 2 ^ w := by
  rw [wrapI_eq_ofInt]
  exact BitVec.isLt _

theorem satI_lt (w : Nat) (sg : Bool) (x : Int) : satI w sg x < 2 ^ w := wrapI_lt _ _

/-! ### Elements of a type -/

theorem Ty.elemBits_pos (ty : Ty) : 0 < Ty.elemBits ty := by cases ty <;> decide

theorem Ty.two_pow_elemBits_le (ty : Ty) : 2 ^ Ty.elemBits ty ≤ 2 ^ 64 :=
  Nat.pow_le_pow_right (by decide) (by cases ty <;> decide)

theorem Ty.elemBits_mul_elemCount (ty : Ty) : Ty.elemBits ty * Ty.elemCount ty ≤ 64 := by cases ty <;> decide

theorem ofInt_intElem (ty : Ty) (x : DWord) (k : Nat) :
    BitVec.ofInt (Ty.elemBits ty) (intElem ty x k) = BitVec.ofNat (Ty.elemBits ty) (elemAt (Ty.elemBits ty) x k) :=
  ofInt_valI (Ty.elemBits_pos ty) _ _

theorem ofNat_elemAt_zero (w : Nat) (x : DWord) : BitVec.ofNat w (elemAt w x 0) = x.setWidth w := by
  apply BitVec.eq_of_toNat_eq
  rw [BitVec.toNat_ofNat, elemAt_zero, BitVec.toNat_setWidth, Nat.mod_mod]

theorem ofInt_intElem_zero (ty : Ty) (x : DWord) : BitVec.ofInt (Ty.elemBits ty) (intElem ty x 0) = x.setWidth (Ty.elemBits ty) := by
  rw [ofInt_intElem, ofNat_elemAt_zero]

theorem intElem_zero_signed {ty : Ty} (h : ty.signed = true) (x : DWord) : intElem ty x 0 = (x.setWidth (Ty.elemBits ty)).toInt := by
  rw [intElem, h, valI_signed (Ty.elemBits_pos ty), ofNat_elemAt_zero]

theorem intElem_zero_unsigned {ty : Ty} (h : ty.signed = false) (x : DWord) : intElem ty x 0 = (x.setWidth (Ty.elemBits ty)).toNat := by
  rw [intElem, h, valI_unsigned, ofNat_elemAt_zero]

/-! ### What an operation delivers -/

/-- Without .sat each element of the result is that of the exact value, wrapped by itself. -/
theorem elemAt_intOp (ty : Ty) (f : Int → Int → Int → Int) (a b c : DWord) {k : Nat} (hk : k < Ty.elemCount ty) :
    elemAt (Ty.elemBits ty) (intOp ty false f a b c) k =
      wrapI (Ty.elemBits ty) (f (intElem ty a k) (intElem ty b k) (intElem ty c k)) := by
  unfold intOp
  rw [elemAt_joinElems (by simpa using Ty.elemBits_mul_elemCount ty)]
  simp [hk, Nat.mod_eq_of_lt (wrapI_lt _ _)]

theorem elemAt_intOp_add (ty : Ty) (a b : DWord) {k : Nat} (hk : k < Ty.elemCount ty) :
    elemAt (Ty.elemBits ty) (intOp ty false (fun a b _ => a + b) a b 0) k =
      (elemAt (Ty.elemBits ty) a k + elemAt (Ty.elemBits ty) b k) % 2 ^ Ty.elemBits ty := by
  rw [elemAt_intOp ty _ a b 0 hk, wrapI_eq_ofInt, BitVec.ofInt_add, ofInt_intElem, ofInt_intElem, ← BitVec.ofNat_add, BitVec.toNat_ofNat]

/-- A type with one element has the delivered value for its result. -/
theorem toNat_intOp_single {ty : Ty} (h : Ty.elemCount ty = 1) (sat : Bool) (f : Int → Int → Int → Int) (a b c : DWord) :
    (intOp ty sat f a b c).toNat =
      if sat then satI (Ty.elemBits ty) ty.signed (f (intElem ty a 0) (intElem ty b 0) (intElem ty c 0))
      else wrapI (Ty.elemBits ty) (f (intElem ty a 0) (intElem ty b 0) (intElem ty c 0)) := by
  generalize hx : f (intElem ty a 0) (intElem ty b 0) (intElem ty c 0) = x
  generalize hy : (if sat then satI (Ty.elemBits ty) ty.signed x else wrapI (Ty.elemBits ty) x) = y
  have low : y < 2 ^ Ty.elemBits ty := by
    subst hy
    split
    · exact satI_lt _ _ _
    · exact wrapI_lt _ _
  simp only [intOp, h, List.range_one, List.map_cons, List.map_nil, joinElems, hx, hy, Nat.mul_zero, Nat.add_zero]
  rw [BitVec.toNat_ofNat, Nat.mod_eq_of_lt low, Nat.mod_eq_of_lt (low.trans_le (Ty.two_pow_elemBits_le ty))]

theorem intOp_wrap {ty : Ty} (h : Ty.elemCount ty = 1) (f : Int → Int → Int → Int) (a b c : DWord) :
    intOp ty false f a b c =
      (BitVec.ofInt (Ty.elemBits ty) (f (intElem ty a 0) (intElem ty b 0) (intElem ty c 0))).setWidth 64 := by
  apply BitVec.eq_of_toNat_eq
  rw [toNat_intOp_single h, BitVec.toNat_setWidth, Nat.mod_eq_of_lt ((BitVec.isLt _).trans_le (Ty.two_pow_elemBits_le ty))]
  exact wrapI_eq_ofInt _ _

/-- Sums, differences and products of one-element types are those of bit vectors of the type's width, signed or not. -/
theorem intOp_add {ty : Ty} (h : Ty.elemCount ty = 1) (a b c : DWord) :
    intOp ty false (fun a b _ => a + b) a b c = (a.setWidth (Ty.elemBits ty) + b.setWidth (Ty.elemBits ty)).setWidth 64 := by
  rw [intOp_wrap h, BitVec.ofInt_add, ofInt_intElem_zero, ofInt_intElem_zero]

theorem intOp_sub {ty : Ty} (h : Ty.elemCount ty = 1) (a b c : DWord) :
    intOp ty false (fun a b _ => a - b) a b c = (a.setWidth (Ty.elemBits ty) - b.setWidth (Ty.elemBits ty)).setWidth 64 := by
  rw [intOp_wrap h, Int.sub_eq_add_neg, BitVec.ofInt_add, BitVec.ofInt_neg, ← BitVec.sub_eq_add_neg, ofInt_intElem_zero, ofInt_intElem_zero]

theorem intOp_mul {ty : Ty} (h : Ty.elemCount ty = 1) (a b c : DWord) :
    intOp ty false (fun a b _ => a * b) a b c = (a.setWidth (Ty.elemBits ty) * b.setWidth (Ty.elemBits ty)).setWidth 64 := by
  rw [intOp_wrap h, BitVec.ofInt_mul, ofInt_intElem_zero, ofInt_intElem_zero]

/-! ### Quotients and remainders (R61, R86) -/

theorem intElem_zero_eq_zero_iff (ty : Ty) (x : DWord) : intElem ty x 0 = 0 ↔ x.setWidth (Ty.elemBits ty) = 0 := by
  cases h : ty.signed
  · rw [intElem_zero_unsigned h, Int.natCast_eq_zero, ← BitVec.toNat_inj]
    exact Iff.rfl
  · rw [intElem_zero_signed h, ← BitVec.toInt_inj, show (0 : BitVec _).toInt = 0 from BitVec.toInt_zero]

/-- A quotient rounded toward zero, of the values of two patterns, wraps to the quotient of bit vectors: the least
number over -1 is the one quotient that leaves the range. -/
theorem ofInt_tdiv_toInt {w : Nat} (x y : BitVec w) : BitVec.ofInt w (x.toInt.tdiv y.toInt) = x.sdiv y := by
  apply BitVec.eq_of_toInt_eq
  rw [BitVec.toInt_ofInt, BitVec.toInt_sdiv]

theorem ofInt_tmod_toInt {w : Nat} (x y : BitVec w) : BitVec.ofInt w (x.toInt.tmod y.toInt) = x.srem y := by
  rw [← BitVec.toInt_srem, BitVec.ofInt_toInt]

theorem ofInt_tdiv_toNat {w : Nat} (x y : BitVec w) : BitVec.ofInt w ((x.toNat : Int).tdiv y.toNat) = x / y := by
  rw [← Int.ofNat_tdiv, BitVec.ofInt_natCast, ← BitVec.toNat_udiv, BitVec.ofNat_toNat, BitVec.setWidth_eq]

theorem ofInt_tmod_toNat {w : Nat} (x y : BitVec w) : BitVec.ofInt w ((x.toNat : Int).tmod y.toNat) = x % y := by
  rw [← Int.ofNat_tmod, BitVec.ofInt_natCast, ← BitVec.toNat_umod, BitVec.ofNat_toNat, BitVec.setWidth_eq]

/-- A division by zero gives all ones, any other the wrapped quotient. -/
theorem intQuot_wrap {ty : Ty} (h : Ty.elemCount ty = 1) (a b : DWord) :
    intQuot ty false a b = (if b.setWidth (Ty.elemBits ty) = 0 then BitVec.allOnes (Ty.elemBits ty)
      else BitVec.ofInt (Ty.elemBits ty) ((intElem ty a 0).tdiv (intElem ty b 0))).setWidth 64 := by
  unfold intQuot
  simp only [intElem_zero_eq_zero_iff]
  split
  · apply BitVec.eq_of_toNat_eq
    rw [BitVec.toNat_ofNat, BitVec.toNat_setWidth, BitVec.toNat_allOnes]
  · exact intOp_wrap h _ a b 0

/-- A division by zero leaves the dividend as the remainder, as the remainder of integers does. -/
theorem intRem_wrap {ty : Ty} (h : Ty.elemCount ty = 1) (a b : DWord) :
    intRem ty a b = (BitVec.ofInt (Ty.elemBits ty) ((intElem ty a 0).tmod (intElem ty b 0))).setWidth 64 := by
  unfold intRem
  split
  · next zero => rw [intOp_wrap h, zero, Int.tmod_zero]
  · exact intOp_wrap h _ a b 0

theorem intQuot_signed {ty : Ty} (h : Ty.elemCount ty = 1) (hs : ty.signed = true) (a b : DWord) :
    intQuot ty false a b = (if b.setWidth (Ty.elemBits ty) = 0 then BitVec.allOnes (Ty.elemBits ty)
      else (a.setWidth (Ty.elemBits ty)).sdiv (b.setWidth (Ty.elemBits ty))).setWidth 64 := by
  rw [intQuot_wrap h, intElem_zero_signed hs, intElem_zero_signed hs, ofInt_tdiv_toInt]

theorem intQuot_unsigned {ty : Ty} (h : Ty.elemCount ty = 1) (hs : ty.signed = false) (a b : DWord) :
    intQuot ty false a b = (if b.setWidth (Ty.elemBits ty) = 0 then BitVec.allOnes (Ty.elemBits ty)
      else a.setWidth (Ty.elemBits ty) / b.setWidth (Ty.elemBits ty)).setWidth 64 := by
  rw [intQuot_wrap h, intElem_zero_unsigned hs, intElem_zero_unsigned hs, ofInt_tdiv_toNat]

theorem intRem_signed {ty : Ty} (h : Ty.elemCount ty = 1) (hs : ty.signed = true) (a b : DWord) :
    intRem ty a b = ((a.setWidth (Ty.elemBits ty)).srem (b.setWidth (Ty.elemBits ty))).setWidth 64 := by
  rw [intRem_wrap h, intElem_zero_signed hs, intElem_zero_signed hs, ofInt_tmod_toInt]

theorem intRem_unsigned {ty : Ty} (h : Ty.elemCount ty = 1) (hs : ty.signed = false) (a b : DWord) :
    intRem ty a b = (a.setWidth (Ty.elemBits ty) % b.setWidth (Ty.elemBits ty)).setWidth 64 := by
  rw [intRem_wrap h, intElem_zero_unsigned hs, intElem_zero_unsigned hs, ofInt_tmod_toNat]

/-! ### The statement -/

/-- Saturation at a signed 32-bit word. -/
theorem toNat_intOp_sat_i32 (f : Int → Int → Int) (a b : DWord) :
    (intOp .i32 true (fun a b _ => f a b) a b 0).toNat =
      (max (-2 ^ 31) (min (2 ^ 31 - 1) (f (a.setWidth 32).toInt (b.setWidth 32).toInt)) % 2 ^ 32).toNat := by
  rw [toNat_intOp_single rfl, if_pos rfl, satI_eq_wrapI, intElem_zero_signed rfl, intElem_zero_signed rfl]
  rfl

/-- A difference that saturates at an unsigned word stops at 0. -/
theorem toNat_intOp_sat_sub_n32 (a b : DWord) :
    (intOp .n32 true (fun a b _ => a - b) a b 0).toNat = a.toNat % 2 ^ 32 - b.toNat % 2 ^ 32 := by
  rw [toNat_intOp_single rfl, if_pos rfl, satI_eq_wrapI, intElem_zero_unsigned rfl, intElem_zero_unsigned rfl]
  have ha : (a.setWidth (Ty.elemBits .n32)).toNat = a.toNat % 2 ^ 32 := BitVec.toNat_setWidth ..
  have hb : (b.setWidth (Ty.elemBits .n32)).toNat = b.toNat % 2 ^ 32 := BitVec.toNat_setWidth ..
  have lo : intLo (Ty.elemBits .n32) (Ty.signed .n32) = 0 := rfl
  have hi : intHi (Ty.elemBits .n32) (Ty.signed .n32) = 2 ^ 32 - 1 := rfl
  have w : Ty.elemBits .n32 = 32 := rfl
  rw [ha, hb, lo, hi, w, wrapI]
  omega

/-- Settles O13: words by the wrap of a single element, packed elements one by one, quotients and remainders by those of
bit vectors. -/
theorem integerArithmetic : Obligations.IntegerArithmetic := by
  unfold Obligations.IntegerArithmetic
  refine ⟨fun a b => ⟨?words, ?dwords, fun k hk => elemAt_intOp_add .n16 a b hk, fun k hk => elemAt_intOp_add .n8 a b hk,
    toNat_intOp_sat_i32 (· + ·) a b, toNat_intOp_sat_sub_n32 a b⟩, fun a b => ?division⟩
  case words =>
    intro ty h
    have single : Ty.elemCount ty = 1 := by rcases h with rfl | rfl <;> rfl
    have width : Ty.elemBits ty = 32 := by rcases h with rfl | rfl <;> rfl
    rw [intOp_add single, intOp_sub single, intOp_mul single, width]
    exact ⟨rfl, rfl, rfl⟩
  case dwords =>
    intro ty h
    have single : Ty.elemCount ty = 1 := by rcases h with rfl | rfl <;> rfl
    have width : Ty.elemBits ty = 64 := by rcases h with rfl | rfl <;> rfl
    rw [intOp_add single, intOp_sub single, intOp_mul single, width]
    simp only [BitVec.setWidth_eq, and_self]
  case division =>
    have back (x : BitVec 32) : (x.setWidth 64).setWidth 32 = x := by
      rw [BitVec.setWidth_setWidth_of_le _ (by decide), BitVec.setWidth_eq]
    have signed : Ty.elemBits .i32 = 32 := rfl
    have unsigned : Ty.elemBits .n32 = 32 := rfl
    rw [intQuot_signed rfl rfl, intRem_signed rfl rfl, intQuot_unsigned rfl rfl, intRem_unsigned rfl rfl, signed, unsigned]
    simp only [back, and_self]

end Sys2Proof.Machine
end

section
/-! PROOFS. The fixed-latency integer and floating-point instructions complete with their functions of the elements (R61, R85, R86, R68 to
R75, R92, R93); the sign operations change one bit, and a comparison with a NaN holds in neither sense (R73, R101). -/
namespace Sys2Proof.Machine

/-! ### The operand shapes of the integer group (R85) -/

theorem intUn_of {s : State} {is : Issue} {ins : Instr} {c : Ctl} (h : Issues s is ins c []) (lat : Nat) (m : Mods) (o : O1)
    (f : Int → Int) : intUn ins c lat m o f s = .next (s.settle is c lat ((s.runs is c).flatMap fun r =>
      s.dst is r m.ty.wide o.d (intOp m.ty m.sat (fun a _ _ => f a) (s.srcV is r m.ty.wide o.a) 0 0))) :=
  pureFixed_of h lat _

theorem intBin_of {s : State} {is : Issue} {ins : Instr} {c : Ctl} (h : Issues s is ins c []) (lat : Nat) (m : Mods) (o : O2)
    (f : Int → Int → Int) : intBin ins c lat m o f s = .next (s.settle is c lat ((s.runs is c).flatMap fun r =>
      s.dst is r m.ty.wide o.d (intOp m.ty m.sat (fun a b _ => f a b) (s.srcV is r m.ty.wide o.a) (s.srcB is r m.ty o.b) 0))) :=
  pureFixed_of h lat _

theorem intTer_of {s : State} {is : Issue} {ins : Instr} {c : Ctl} (h : Issues s is ins c []) (lat : Nat) (m : Mods) (o : O3)
    (f : Int → Int → Int → Int) : intTer ins c lat m o f s = .next (s.settle is c lat ((s.runs is c).flatMap fun r =>
      s.dst is r m.ty.wide o.d (intOp m.ty m.sat f (s.srcV is r m.ty.wide o.a) (s.srcB is r m.ty o.b)
        (s.srcV is r m.ty.wide o.c)))) :=
  pureFixed_of h lat _

/-- Settles O12: each instruction is one of the three operand shapes, with its function and latency. -/
theorem integerResults : Obligations.IntegerResults := by
  unfold Obligations.IntegerResults
  intro s is c m o1 o2 o3
  simp only [List.forall_mem_cons, List.not_mem_nil, false_imp_iff, implies_true, and_true]
  refine ⟨⟨?iabs, ?ineg⟩, ⟨?iadd, ?isub, ?imul, ?imulhi, ?imin, ?imax⟩, ?imad, ?iclamp, ?isad⟩
  case iabs | ineg => exact fun h => intUn_of h 3 m o1 _
  case iadd | isub | imin | imax => exact fun h => intBin_of h 3 m o2 _
  case imul | imulhi => exact fun h => intBin_of h 5 m o2 _
  case imad => exact fun h => intTer_of h 5 m o3 _
  case iclamp | isad => exact fun h => intTer_of h 3 m o3 _

/-! ### Signs and comparisons (R73, R101) -/

theorem Fmt.f32_signAt : Fmt.f32.signAt = 2 ^ 31 := rfl

/-- FABS keeps all bits but the sign. -/
theorem fpAbs_f32 (a : Nat) : fpAbs Fmt.f32 a = a &&& 0x7FFFFFFF :=
  (Nat.and_two_pow_sub_one_eq_mod a 31).symm

/-- FNEG turns the sign bit over and keeps the rest. -/
theorem fpNeg_f32 {a : Nat} (h : a < 2 ^ 32) : fpNeg Fmt.f32 a = a ^^^ 0x80000000 := by
  have low : (a ^^^ 2 ^ 31) % 2 ^ 31 = a % 2 ^ 31 := by rw [Nat.xor_mod_two_pow, Nat.mod_self, Nat.xor_zero]
  have high : (a ^^^ 2 ^ 31) / 2 ^ 31 = a / 2 ^ 31 ^^^ 1 := Nat.xor_div_two_pow
  have sign : a / 2 ^ 31 = 0 ∨ a / 2 ^ 31 = 1 := by omega
  change _ = a ^^^ 2 ^ 31
  rw [fpNeg, Fmt.f32_signAt]
  rcases sign with e | e
  · rw [e] at high ⊢
    simp only [Nat.zero_xor] at high
    rw [if_neg (by decide)]
    omega
  · rw [e] at high ⊢
    simp only [Nat.xor_self] at high
    rw [if_pos rfl]
    omega

/-- A comparison with a NaN has neither its condition nor its complement. -/
theorem fpCompare_of_isNan {f : Fmt} {ftz : Bool} {a b : Nat} (h : (f.value ftz a).isNan = true ∨ (f.value ftz b).isNan = true)
    (cd : Cond) : (fpCompare f ftz cd a b).1 = false ∧ (fpCompare f ftz cd a b).2.1 = false := by
  have some : ((f.value ftz a).isNan || (f.value ftz b).isNan) = true := Bool.or_eq_true_iff.2 h
  unfold fpCompare
  simp only [some, if_true, and_self]

/-- Settles O19: each instruction is the floating-point shape with its run, and the functions' own clauses. -/
theorem floatResults : Obligations.FloatResults := by
  unfold Obligations.FloatResults
  refine ⟨fun s is c m o1 o2 o3 => ?runs, fun md a ha => ⟨fpNeg_f32 ha, rfl, fpAbs_f32 a, rfl⟩,
    fun f ftz cd a b h => fpCompare_of_isNan h cd⟩
  case runs =>
    intro x hx h
    have row : exec x.1 s = fpFixed x.1 c x.2.1 x.2.2.1 x.2.2.2 s := by
      fin_cases hx <;> rfl
    rw [row, fpFixed_of h]

end Sys2Proof.Machine
end

section
/-! PROOFS. Logic instructions (R88 to R91). Each has one of the operand shapes of the group; what its function makes of the operands is
read off bit by bit, or as a number. -/
namespace Sys2Proof.Machine

/-! ### Low words, masks and folds of bits -/

@[simp] theorem getLsbD_lo32 (x : DWord) (k : Nat) : (lo32 x).getLsbD k = (decide (k < 32) && x.getLsbD k) := by
  have mask : (0xFFFFFFFF : DWord).getLsbD k = decide (k < 32) := Nat.testBit_two_pow_sub_one 32 k
  rw [lo32, BitVec.getLsbD_and, mask, Bool.and_comm]

theorem lo32_eq_setWidth (x : DWord) : lo32 x = (x.setWidth 32).setWidth 64 := by
  apply BitVec.eq_of_getLsbD_eq
  intro k hk
  simp only [getLsbD_lo32, BitVec.getLsbD_setWidth, hk, decide_true, Bool.true_and]

@[simp] theorem toNat_lo32 (x : DWord) : (lo32 x).toNat = x.toNat % 2 ^ 32 := by
  rw [lo32, BitVec.toNat_and]
  exact Nat.and_two_pow_sub_one_eq_mod _ 32

theorem getLsbD_lowMask (n k : Nat) : (BitVec.ofNat 64 (2 ^ n - 1)).getLsbD k = decide (k < 64 ∧ k < n) := by
  rw [BitVec.getLsbD_ofNat, Nat.testBit_two_pow_sub_one, Bool.decide_and]

/-- A bit of an OR of chosen words is set in one of the chosen. -/
theorem getLsbD_foldl_or (p : Nat → Bool) (m : Nat → DWord) (ks : List Nat) (acc : DWord) (i : Nat) :
    (ks.foldl (fun acc k => if p k then acc ||| m k else acc) acc).getLsbD i =
      (acc.getLsbD i || ks.any fun k => p k && (m k).getLsbD i) := by
  induction ks generalizing acc with
  | nil => simp
  | cons k ks ih =>
    rw [List.foldl_cons, ih, List.any_cons]
    cases p k <;> simp [Bool.or_assoc]

/-- Where only one index has the second property, it decides. -/
theorem any_range_and (n j : Nat) (p q : Nat → Bool) (h : ∀ k, k < n → q k = decide (k = j)) :
    ((List.range n).any fun k => p k && q k) = (decide (j < n) && p j) := by
  rw [Bool.eq_iff_iff, List.any_eq_true]
  simp only [List.mem_range, Bool.and_eq_true, decide_eq_true_eq]
  constructor
  · rintro ⟨k, hk, hp, hq⟩
    rw [h k hk, decide_eq_true_eq] at hq
    exact hq ▸ ⟨hk, hp⟩
  · rintro ⟨hj, hp⟩
    exact ⟨j, hj, hp, by rw [h j hj, decide_eq_true rfl]⟩

/-! ### The operand shapes of the group -/

theorem logUn_of {s : State} {is : Issue} {ins : Instr} {c : Ctl} (h : Issues s is ins c []) (ty : Ty) (wd : Bool) (o : O1)
    (f : DWord → DWord) : logUn ins c ty wd o f s = .next (s.settle is c 3 ((s.runs is c).flatMap fun r =>
      s.dst is r wd o.d (logicBits ty (f (s.srcV is r ty.wide o.a))))) :=
  pureFixed_of h 3 _

theorem logBin_of {s : State} {is : Issue} {ins : Instr} {c : Ctl} (h : Issues s is ins c []) (ty : Ty) (o : O2)
    (f : DWord → DWord → DWord) : logBin ins c ty o f s = .next (s.settle is c 3 ((s.runs is c).flatMap fun r =>
      s.dst is r ty.wide o.d (logicBits ty (f (s.srcV is r ty.wide o.a) (s.srcB is r ty o.b))))) :=
  pureFixed_of h 3 _

theorem logShift_of {s : State} {is : Issue} {ins : Instr} {c : Ctl} (h : Issues s is ins c []) (ty : Ty) (o : O2)
    (f : DWord → Nat → DWord) : logShift ins c ty o f s = .next (s.settle is c 3 ((s.runs is c).flatMap fun r =>
      s.dst is r ty.wide o.d (logicBits ty (f (s.srcV is r ty.wide o.a) (s.srcB is r .b32 o.b).toNat)))) :=
  pureFixed_of h 3 _

theorem logTer_of {s : State} {is : Issue} {ins : Instr} {c : Ctl} (h : Issues s is ins c []) (ty : Ty) (o : O3)
    (f : DWord → DWord → DWord → DWord) : logTer ins c ty o f s = .next (s.settle is c 3 ((s.runs is c).flatMap fun r =>
      s.dst is r ty.wide o.d (logicBits ty (f (s.srcV is r ty.wide o.a) (s.srcB is r ty o.b) (s.srcV is r ty.wide o.c))))) :=
  pureFixed_of h 3 _

/-- Settles O15: each instruction is one of the four operand shapes, with its function. -/
theorem logicResults : Obligations.LogicResults := by
  unfold Obligations.LogicResults
  intro s is c ty o1 o2 o3 tbl right
  simp only [List.forall_mem_cons, List.not_mem_nil, false_imp_iff, implies_true, and_true, exec_not, exec_popc, exec_clz, exec_ctz,
    exec_brev, exec_and, exec_or, exec_xor, exec_andn, exec_shl, exec_shr, exec_sar, exec_rotl, exec_rotr, exec_logic3, exec_shf,
    exec_bfx, exec_bfi]
  refine ⟨⟨?not, ?popc, ?clz, ?ctz, ?brev⟩, ⟨?and, ?or, ?xor, ?andn⟩, ⟨?shl, ?shr, ?sar, ?rotl, ?rotr⟩, ?logic3, ?shf, ?bfx, ?bfi⟩
  case not | popc | clz | ctz | brev => exact fun h => logUn_of h ty _ o1 _
  case and | or | xor | andn => exact fun h => logBin_of h ty o2 _
  case shl | shr | sar | rotl | rotr => exact fun h => logShift_of h ty o2 _
  case logic3 | shf | bfx | bfi => exact fun h => logTer_of h _ o3 _

/-! ### Shifts, rotations and LOGIC3 (R88, R89) -/

theorem lo32_shiftL_32 (x : DWord) (n : Nat) : lo32 (shiftL 32 (lo32 x) n) = ((x.setWidth 32) <<< n).setWidth 64 := by
  unfold shiftL
  split
  · next wide => rw [BitVec.shiftLeft_eq_zero wide]; rfl
  · apply BitVec.eq_of_getLsbD_eq
    intro k hk
    simp only [getLsbD_lo32, BitVec.getLsbD_setWidth, BitVec.getLsbD_shiftLeft, hk, decide_true, Bool.true_and]
    by_cases low : k < 32
    · have below : k - n < 32 := by omega
      simp only [low, below, decide_true, Bool.true_and]
    · simp only [low, decide_false, Bool.false_and]

theorem shiftL_64 (x : DWord) (n : Nat) : shiftL 64 x n = x <<< n := by
  unfold shiftL
  split
  · next wide => rw [BitVec.shiftLeft_eq_zero wide]; rfl
  · rfl

theorem lo32_shiftR_32 (x : DWord) (n : Nat) : lo32 (shiftR 32 (lo32 x) n) = ((x.setWidth 32) >>> n).setWidth 64 := by
  unfold shiftR
  split
  · next wide => rw [BitVec.ushiftRight_eq_zero wide]; rfl
  · apply BitVec.eq_of_getLsbD_eq
    intro k hk
    simp only [getLsbD_lo32, BitVec.getLsbD_setWidth, BitVec.getLsbD_ushiftRight, hk, decide_true, Bool.true_and]
    by_cases low : n + k < 32
    · have below : k < 32 := by omega
      simp only [low, below, decide_true, Bool.true_and]
    · simp only [low, decide_false, Bool.false_and, Bool.and_false]

theorem shiftR_64 (x : DWord) (n : Nat) : shiftR 64 x n = x >>> n := by
  unfold shiftR
  split
  · next wide => rw [BitVec.ushiftRight_eq_zero wide]; rfl
  · rfl

/-- An arithmetic shift past the width gives the sign everywhere, so an amount may stop at the last bit. -/
theorem sshiftRight_min {w : Nat} (x : BitVec w) (n : Nat) : x.sshiftRight (min n (w - 1)) = x.sshiftRight n := by
  apply BitVec.eq_of_getLsbD_eq
  intro k hk
  rw [BitVec.getLsbD_sshiftRight, BitVec.getLsbD_sshiftRight]
  by_cases short : n ≤ w - 1
  · rw [Nat.min_eq_left short]
  · rw [Nat.min_eq_right (by omega)]
    rw [if_neg (show ¬n + k < w by omega)]
    congr 1
    split
    · next last =>
      have : w - 1 + k = w - 1 := by omega
      rw [this, BitVec.msb_eq_getLsbD_last]
    · rfl

theorem lo32_shiftA_32 (x : DWord) (n : Nat) :
    lo32 (shiftA 32 (lo32 x) n) = ((x.setWidth 32).sshiftRight n).setWidth 64 := by
  unfold shiftA
  rw [if_neg (by decide), sshiftRight_min (w := 64), lo32_eq_setWidth x, BitVec.setWidth_setWidth_of_le _ (by decide), BitVec.setWidth_eq]
  apply BitVec.eq_of_getLsbD_eq
  intro k hk
  simp only [getLsbD_lo32, BitVec.getLsbD_setWidth, BitVec.getLsbD_sshiftRight, BitVec.msb_signExtend, BitVec.getLsbD_signExtend, hk,
    decide_true, Bool.true_and]
  by_cases low : k < 32
  · by_cases far : n + k < 64
    · simp [low, far, show ¬64 ≤ k by omega]
    · simp [low, far, show ¬64 ≤ k by omega, show ¬32 ≤ k by omega, show ¬n + k < 32 by omega]
  · simp [low, show 32 ≤ k by omega]

theorem shiftA_64 (x : DWord) (n : Nat) : shiftA 64 x n = x.sshiftRight n :=
  sshiftRight_min x n

theorem rotL_32 (x : DWord) (n : Nat) : rotL 32 x n = ((x.setWidth 32).rotateLeft n).setWidth 64 :=
  congrArg (BitVec.setWidth 64) (BitVec.rotateLeft_mod_eq_rotateLeft (x := x.setWidth 32) (r := n))

theorem rotR_64 (x : DWord) (n : Nat) : rotR 64 x n = x.rotateRight n :=
  BitVec.rotateRight_mod_eq_rotateRight

/-- The word whose bits are set where the three operands form one index of the table (R89). -/
def tableRow (a b c : DWord) (k : Nat) : DWord :=
  (if k / 4 % 2 = 1 then a else ~~~a) &&& (if k / 2 % 2 = 1 then b else ~~~b) &&& (if k % 2 = 1 then c else ~~~c)

theorem getLsbD_tableRow (a b c : DWord) {k i : Nat} (hi : i < 64) (hk : k < 8) : (tableRow a b c k).getLsbD i =
    decide (k = 4 * (a.getLsbD i).toNat + 2 * (b.getLsbD i).toNat + (c.getLsbD i).toNat) := by
  simp only [tableRow, BitVec.getLsbD_and, apply_ite (BitVec.getLsbD · i), BitVec.getLsbD_not, hi, decide_true, Bool.true_and]
  generalize a.getLsbD i = x, b.getLsbD i = y, c.getLsbD i = z
  revert x y z
  revert k
  decide

theorem getLsbD_logic3 (tbl : BitVec 8) (a b c : DWord) {i : Nat} (hi : i < 64) : (logic3 tbl a b c).getLsbD i =
    tbl.getLsbD (4 * (a.getLsbD i).toNat + 2 * (b.getLsbD i).toNat + (c.getLsbD i).toNat) := by
  have rows : logic3 tbl a b c =
      (List.range 8).foldl (fun acc k => if tbl.getLsbD k then acc ||| tableRow a b c k else acc) 0 := rfl
  have index : 4 * (a.getLsbD i).toNat + 2 * (b.getLsbD i).toNat + (c.getLsbD i).toNat < 8 := by
    have := (a.getLsbD i).toNat_le
    have := (b.getLsbD i).toNat_le
    have := (c.getLsbD i).toNat_le
    omega
  rw [rows, getLsbD_foldl_or, any_range_and 8 _ _ _ fun k hk => getLsbD_tableRow a b c hi hk, decide_eq_true index]
  simp only [BitVec.ofNat_eq_ofNat, BitVec.getLsbD_zero, Bool.false_or, Bool.true_and]

/-- Settles O16: shifts and rotations as bit vectors, LOGIC3 by the one table row that each bit selects. -/
theorem shiftsAndTables : Obligations.ShiftsAndTables := by
  unfold Obligations.ShiftsAndTables
  exact fun x a b d n tbl => ⟨lo32_shiftL_32 x n, shiftL_64 x n, lo32_shiftR_32 x n, shiftR_64 x n, lo32_shiftA_32 x n, shiftA_64 x n,
    rotL_32 x n, rotR_64 x n, fun k hk => getLsbD_logic3 tbl a b d hk⟩

/-! ### Funnel shift and bit fields (R90) -/

theorem toNat_pairOf (lo hi : DWord) : (pairOf lo hi).toNat = hi.toNat % 2 ^ 32 * 2 ^ 32 + lo.toNat % 2 ^ 32 := by
  have high : (hi <<< 32).toNat = 2 ^ 32 * (hi.toNat % 2 ^ 32) := by
    rw [BitVec.toNat_shiftLeft, Nat.shiftLeft_eq, Nat.mul_comm, show 2 ^ 64 = 2 ^ 32 * 2 ^ 32 by decide, Nat.mul_mod_mul_left]
  rw [pairOf, BitVec.toNat_or, toNat_lo32, high, Nat.or_comm,
    ← Nat.two_pow_add_eq_or_of_lt (Nat.mod_lt _ (Nat.two_pow_pos 32)), Nat.mul_comm]

theorem toNat_funnel_right (a b c : DWord) : (lo32 (funnel true a b c)).toNat =
    (c.toNat % 2 ^ 32 * 2 ^ 32 + a.toNat % 2 ^ 32) / 2 ^ min (b.toNat % 2 ^ 32) 32 % 2 ^ 32 := by
  simp only [funnel, if_true, toNat_lo32, BitVec.toNat_ushiftRight, toNat_pairOf, Nat.shiftRight_eq_div_pow, Nat.mod_mod]

/-- The bits that a left shift by at most 32 loses are above the 32 that the funnel keeps. -/
theorem toNat_funnel_left (a b c : DWord) : (lo32 (funnel false a b c)).toNat =
    (c.toNat % 2 ^ 32 * 2 ^ 32 + a.toNat % 2 ^ 32) * 2 ^ min (b.toNat % 2 ^ 32) 32 / 2 ^ 32 % 2 ^ 32 := by
  simp only [funnel, Bool.false_eq_true, if_false, toNat_lo32, BitVec.toNat_ushiftRight, BitVec.toNat_shiftLeft, toNat_pairOf,
    Nat.shiftRight_eq_div_pow, Nat.shiftLeft_eq]
  generalize (c.toNat % 2 ^ 32 * 2 ^ 32 + a.toNat % 2 ^ 32) * 2 ^ min (b.toNat % 2 ^ 32) 32 = x
  omega

theorem toNat_and_lowMask (x : DWord) {n : Nat} (hn : n ≤ 32) : (x &&& BitVec.ofNat 64 (2 ^ n - 1)).toNat = x.toNat % 2 ^ n := by
  have small : 2 ^ n - 1 < 2 ^ 64 := (Nat.sub_lt (Nat.two_pow_pos n) Nat.one_pos).trans_le (Nat.pow_le_pow_right (by decide) (by omega))
  rw [BitVec.toNat_and, BitVec.toNat_ofNat, Nat.mod_eq_of_lt small, Nat.and_two_pow_sub_one_eq_mod]

/-- The field that BFX reads, as a number. -/
def bfField (a b c : DWord) : Nat :=
  a.toNat % 2 ^ 32 / 2 ^ fieldPos (b.toNat % 256) % 2 ^ min (c.toNat % 256) (32 - fieldPos (b.toNat % 256))

theorem toNat_lo32_shift_mask (a : DWord) (pos : Nat) {len : Nat} (h : len ≤ 32) :
    (lo32 a >>> pos &&& BitVec.ofNat 64 (2 ^ len - 1)).toNat = a.toNat % 2 ^ 32 / 2 ^ pos % 2 ^ len := by
  rw [toNat_and_lowMask _ h, BitVec.toNat_ushiftRight, toNat_lo32, Nat.shiftRight_eq_div_pow]

theorem toNat_bfExtract_unsigned (a b c : DWord) : (bfExtract false a b c).toNat = bfField a b c := by
  simp only [bfExtract, Bool.false_and, Bool.false_eq_true, if_false]
  exact toNat_lo32_shift_mask _ _ (by omega)

/-- The bits above a field, set: a negative field's number in a word. -/
theorem toNat_lo32_extend {f : DWord} {n : Nat} (hn : n ≤ 32) (hf : f.toNat < 2 ^ n) :
    (lo32 (f ||| ~~~(BitVec.ofNat 64 (2 ^ n - 1)))).toNat = f.toNat + 2 ^ 32 - 2 ^ n := by
  have le : 2 ^ n ≤ 2 ^ 32 := Nat.pow_le_pow_right (by decide) hn
  have split : 2 ^ 64 = 2 ^ n * 2 ^ (64 - n) := by rw [← Nat.pow_add]; congr 1; omega
  have above : (~~~(BitVec.ofNat 64 (2 ^ n - 1))).toNat = 2 ^ n * (2 ^ (64 - n) - 1) := by
    rw [BitVec.toNat_not, BitVec.toNat_ofNat, Nat.mod_eq_of_lt (by omega), Nat.mul_sub, ← split]
    omega
  rw [toNat_lo32, BitVec.toNat_or, above, Nat.or_comm, ← Nat.two_pow_add_eq_or_of_lt hf, Nat.mul_sub, ← split]
  omega

/-- The top bit of a field says whether it is at least half its range. -/
theorem getLsbD_top {f : DWord} {n : Nat} (hn : 0 < n) (hf : f.toNat < 2 ^ n) : f.getLsbD (n - 1) = decide (2 ^ (n - 1) ≤ f.toNat) := by
  change f.toNat.testBit (n - 1) = _
  by_cases h : 2 ^ (n - 1) ≤ f.toNat
  · rw [decide_eq_true h]
    exact Nat.testBit_of_two_pow_le_and_two_pow_add_one_gt h (by rwa [Nat.sub_add_cancel hn])
  · rw [decide_eq_false h]
    exact Nat.testBit_lt_two_pow (Nat.lt_of_not_le h)

theorem toNat_bfExtract_signed (a b c : DWord) :
    let len := min (c.toNat % 256) (32 - fieldPos (b.toNat % 256))
    (bfExtract true a b c).toNat =
      if 0 < len ∧ 2 ^ (len - 1) ≤ bfField a b c then bfField a b c + 2 ^ 32 - 2 ^ len else bfField a b c := by
  intro len
  have le : len ≤ 32 := by omega
  have field : (lo32 a >>> fieldPos (b.toNat % 256) &&& BitVec.ofNat 64 (2 ^ len - 1)).toNat = bfField a b c :=
    toNat_lo32_shift_mask _ _ le
  have fits : bfField a b c < 2 ^ len := Nat.mod_lt _ (Nat.two_pow_pos len)
  change BitVec.toNat (if (true && decide (0 < len) && _) = true then _ else _) = _
  generalize lo32 a >>> fieldPos (b.toNat % 256) &&& BitVec.ofNat 64 (2 ^ len - 1) = f at field
  rw [← field] at fits ⊢
  by_cases long : 0 < len
  · rw [getLsbD_top long fits, apply_ite BitVec.toNat, toNat_lo32_extend le fits]
    simp only [long, decide_true, Bool.true_and, decide_eq_true_eq, true_and]
  · simp [long]

theorem getLsbD_bfInsert (a b c : DWord) {k : Nat} (hk : k < 32) :
    let pos := fieldPos (b.toNat % 256)
    let len := min (b.toNat / 256 % 256) (32 - pos)
    (bfInsert a b c).getLsbD k = if pos ≤ k ∧ k < pos + len then a.getLsbD (k - pos) else c.getLsbD k := by
  intro pos len
  have mask : (BitVec.ofNat 64 (2 ^ len - 1) <<< pos : DWord).getLsbD k = decide (pos ≤ k ∧ k < pos + len) := by
    rw [BitVec.getLsbD_shiftLeft, getLsbD_lowMask, Bool.eq_iff_iff]
    simp only [Bool.and_eq_true, Bool.not_eq_true', decide_eq_true_eq, decide_eq_false_iff_not]
    omega
  have value : bfInsert a b c = lo32 ((c &&& ~~~(BitVec.ofNat 64 (2 ^ len - 1) <<< pos)) |||
      ((a <<< pos) &&& BitVec.ofNat 64 (2 ^ len - 1) <<< pos)) := rfl
  rw [value, getLsbD_lo32, BitVec.getLsbD_or, BitVec.getLsbD_and, BitVec.getLsbD_and, BitVec.getLsbD_not, mask, BitVec.getLsbD_shiftLeft]
  have hk' : k < 64 := by omega
  by_cases inside : pos ≤ k ∧ k < pos + len
  · simp [inside, hk, hk']
  · simp [inside, hk, hk']

/-- Settles O17: the funnel and the extraction as numbers, the insertion bit by bit; the rule reads B and C as words, of which
the fields take the low bytes. -/
theorem funnelAndBitFields : Obligations.FunnelAndBitFields := by
  unfold Obligations.FunnelAndBitFields
  refine ⟨fun s is cl right signed o => ?issue, fun cl o ty a b c => ?values⟩
  case values =>
    have byte0 (x : Nat) : x % 2 ^ 32 % 256 = x % 256 := by omega
    have byte1 (x : Nat) : x % 2 ^ 32 / 256 % 256 = x / 256 % 256 := by omega
    simp only [byte0, byte1]
    exact ⟨fun r => rfl, rfl, rfl, toNat_funnel_right a b c, toNat_funnel_left a b c, toNat_bfExtract_unsigned a b c,
      toNat_bfExtract_signed a b c, fun k hk => getLsbD_bfInsert a b c hk⟩
  case issue =>
    cases signed <;>
    · simp only [List.forall_mem_cons, List.not_mem_nil, false_imp_iff, implies_true, and_true, exec_shf, exec_bfx, exec_bfi]
      exact ⟨fun h => logTer_of h _ o _, fun h => logTer_of h _ o _, fun h => logTer_of h _ o _⟩

/-! ### BPERM (R91) -/

theorem elemAt_lt (w : Nat) (x : DWord) (k : Nat) : elemAt w x k < 2 ^ w := Nat.mod_lt _ (Nat.two_pow_pos w)

theorem bpermByte_eq (a : DWord) (v : Nat) : bpermByte a v =
    if v ≤ 3 then elemAt 8 a v else if v ≤ 7 then (if elemAt 8 a (v - 4) / 128 % 2 = 0 then 0x00 else 0xFF) else 0x00 := by
  have := elemAt_lt 8 a (v - 4)
  unfold bpermByte
  split_ifs <;> omega

theorem bpermByte_lt (a : DWord) (v : Nat) : bpermByte a v < 2 ^ 8 := by
  unfold bpermByte
  split_ifs
  · exact elemAt_lt 8 a v
  all_goals decide

theorem elemAt_bytePermute (a b : DWord) {i : Nat} (hi : i < 4) : elemAt 8 (bytePermute a b) i = bpermByte a (elemAt 4 b i) := by
  rw [bytePermute, elemAt_joinElems (by simp)]
  simp only [List.getD_eq_getElem?_getD, List.getElem?_map, List.getElem?_range hi, Option.map_some, Option.getD_some,
    Nat.mod_eq_of_lt (bpermByte_lt _ _)]

/-- Settles O18: each byte of the result is the one that its selector gives. -/
theorem bytePermutation : Obligations.BytePermutation := by
  unfold Obligations.BytePermutation
  refine ⟨fun s is c o h => ?issue, fun a b i hi => (elemAt_bytePermute a b hi).trans (bpermByte_eq a _)⟩
  case issue =>
    rw [exec_bperm]
    exact logBin_of h .b32 o bytePermute

end Sys2Proof.Machine
end
section
/-! PROOFS. LEA (R87) and the conversions (R96 to R99). -/
namespace Sys2Proof.Machine

theorem leaIndex_eq (ty : Ty) (x : DWord) :
    leaIndex ty x = if ty.signed then (x.setWidth 32).signExtend 64 else (x.setWidth 32).setWidth 64 := by
  rw [leaIndex, lo32_eq_setWidth]

/-- Settles O14: the index is extended and scaled by the type, one of the eight integer types. -/
theorem leaForms : Obligations.LeaForms := by
  unfold Obligations.LeaForms
  intro s is c m o size h row
  have scale : leaSize m.ty = BitVec.ofNat 64 size ∧ (m.ty.signed = true ↔ m.ty ∈ [Ty.i8, .i16, .i32, .i64]) := by
    simp only [List.mem_cons, Prod.mk.injEq, List.not_mem_nil, or_false] at row
    rcases row with ⟨e, rfl⟩ | ⟨e, rfl⟩ | ⟨e, rfl⟩ | ⟨e, rfl⟩ | ⟨e, rfl⟩ | ⟨e, rfl⟩ | ⟨e, rfl⟩ | ⟨e, rfl⟩ <;> rw [e] <;> decide
  obtain ⟨size_eq, signed_iff⟩ := scale
  rw [exec_lea, execLea, pureFixed_of h]
  simp only [leaIndex_eq, size_eq, signed_iff]

/-! ### Conversions between integers (R61, R97) -/

theorem cvtFixed_of {s : State} {is : Issue} {ins : Instr} {c : Ctl} (h : Issues s is ins c []) (lat : Nat) (f : Cvt) (o : O1)
    (g : RMode → Nat → FRes) : cvtFixed ins c lat f o g s = .next
      (let z := foldRuns (fun s r => ((cvtRun f o g s is r).1,
          (cvtRun f o g s is r).1.dst is r f.dst.wide o.d (cvtRun f o g s is r).2.1 ++ raises r (cvtRun f o g s is r).2.2)) s (s.runs is c)
       z.1.settle is c lat z.2) := by
  unfold cvtFixed
  rw [fixed_of h]

theorem cvtII_bits_wrap {md : RMode} (h : md.sat = false) (dst src : CTy) (a : Nat) :
    (cvtII dst src md a).bits = wrapI (ctyWidth dst) (valI (ctyWidth src) (ctySigned src) a) := by
  simp only [cvtII, h, Bool.false_eq_true, if_false]

theorem cvtII_bits_sat {md : RMode} (h : md.sat = true) (dst src : CTy) (a : Nat) :
    (cvtII dst src md a).bits = wrapI (ctyWidth dst) (max (intLo (ctyWidth dst) (ctySigned dst))
      (min (intHi (ctyWidth dst) (ctySigned dst)) (valI (ctyWidth src) (ctySigned src) a))) := by
  simp only [cvtII, h, if_true, satI_eq_wrapI]

theorem valI_32_unsigned {a : Nat} (ha : a < 2 ^ 32) : valI 32 false a = a := by
  rw [valI_unsigned, BitVec.toNat_ofNat, Nat.mod_eq_of_lt ha]

theorem valI_32_signed {a : Nat} (ha : a < 2 ^ 32) : valI 32 true a = if a < 2 ^ 31 then (a : Int) else a - 2 ^ 32 := by
  simp only [valI, Bool.true_and, decide_eq_true_eq, Nat.mod_eq_of_lt ha]
  split_ifs <;> omega

/-- A signed word widened keeps its value: its sign is extended. -/
theorem cvtII_i64_i32_bits {md : RMode} (h : md.sat = false) (a : Nat) :
    (cvtII .i64 .i32 md a).bits = ((BitVec.ofNat 32 a).signExtend 64).toNat := by
  rw [cvtII_bits_wrap h, wrapI_eq_ofInt]
  exact congrArg (fun x => (BitVec.ofInt 64 x).toNat) (valI_signed (by decide) a)

theorem cvtII_unsigned_bits {md : RMode} (h : md.sat = false) {dst : CTy} {a : Nat} (ha : a < 2 ^ 32) :
    (cvtII dst .n32 md a).bits = a % 2 ^ ctyWidth dst := by
  have value : valI (ctyWidth .n32) (ctySigned .n32) a = a := valI_32_unsigned ha
  rw [cvtII_bits_wrap h, value, wrapI]
  omega

theorem cvtII_n8_n32_bits_sat {md : RMode} (h : md.sat = true) {a : Nat} (ha : a < 2 ^ 32) :
    (cvtII .n8 .n32 md a).bits = min a 255 := by
  have value : valI (ctyWidth .n32) (ctySigned .n32) a = a := valI_32_unsigned ha
  rw [cvtII_bits_sat h, value]
  simp only [ctyWidth, ctySigned, intLo, intHi, wrapI, Bool.false_eq_true, if_false]
  omega

theorem cvtII_i32_n32_bits_sat {md : RMode} (h : md.sat = true) {a : Nat} (ha : a < 2 ^ 32) :
    (cvtII .i32 .n32 md a).bits = min a (2 ^ 31 - 1) := by
  have value : valI (ctyWidth .n32) (ctySigned .n32) a = a := valI_32_unsigned ha
  rw [cvtII_bits_sat h, value]
  simp only [ctyWidth, ctySigned, intLo, intHi, wrapI, if_true]
  omega

/-- A negative word is nearest to 0 among the unsigned ones. -/
theorem cvtII_n32_i32_bits_sat {md : RMode} (h : md.sat = true) {a : Nat} (ha : a < 2 ^ 32) :
    (cvtII .n32 .i32 md a).bits = if a < 2 ^ 31 then a else 0 := by
  have value : valI (ctyWidth .i32) (ctySigned .i32) a = if a < 2 ^ 31 then (a : Int) else a - 2 ^ 32 := valI_32_signed ha
  rw [cvtII_bits_sat h, value]
  simp only [ctyWidth, ctySigned, intLo, intHi, wrapI, Bool.false_eq_true, if_false]
  split_ifs <;> omega

/-- Settles O20: the unary conversions share one shape, PACK2 and CVTBLK that of the fixed-latency floating-point group. -/
theorem conversionResults : Obligations.ConversionResults := by
  unfold Obligations.ConversionResults
  refine ⟨fun s is c f o1 o2 o3 i4o rnd => ⟨?unary, ?packed⟩, fun md a ha => ⟨fun h => ?wrap, fun h => ?sat, rfl⟩⟩
  case unary =>
    intro x hx h
    have row : exec x.1 s = cvtFixed x.1 c x.2.1 f o1 x.2.2 s := by
      fin_cases hx <;> rfl
    rw [row, cvtFixed_of h]
  case packed =>
    intro x hx h
    have row : exec x.1 s = fpFixed x.1 c 5 x.2.1 x.2.2 s := by
      fin_cases hx <;> rfl
    rw [row, fpFixed_of h]
  case wrap =>
    exact ⟨cvtII_i64_i32_bits h a, (cvtII_unsigned_bits h ha).trans (Nat.mod_eq_of_lt (by simp only [ctyWidth]; omega)),
      cvtII_unsigned_bits h ha⟩
  case sat => exact ⟨cvtII_n8_n32_bits_sat h ha, cvtII_i32_n32_bits_sat h ha, cvtII_n32_i32_bits_sat h ha⟩

end Sys2Proof.Machine
end

section
/-! PROOFS. Compares, predicate instructions, BALLOT and VOTE (R100 to R104). -/
namespace Sys2Proof.Machine

theorem compareIns_of {s : State} {is : Issue} {ins : Instr} {c : Ctl} (h : Issues s is ins c []) (f : CmpF)
    (g : State → Issue → Run → Bool × Bool × BitVec 5) :
    compareIns ins c f g s = .next (s.settle is c 3 ((s.runs is c).flatMap fun r =>
      comparePuts s is r f (g s is r).1 (g s is r).2.1 ++ raises r (g s is r).2.2)) :=
  pureFixed_of h 3 _

/-- Settles O21: each compare is one shape, with its condition. -/
theorem compareResults : Obligations.CompareResults := by
  unfold Obligations.CompareResults
  intro s is c ty ftz cnd half f
  simp only [List.forall_mem_cons, List.not_mem_nil, false_imp_iff, implies_true, and_true, exec_icmp, exec_fcmp, exec_hcmp, exec_fclass]
  exact ⟨fun h => compareIns_of h f _, fun h => compareIns_of h f _, fun h => compareIns_of h f _, fun h => compareIns_of h f _⟩

/-- The predicates that PGETV gathers: bit i is predicate first + i (R102). -/
def predBits (s : State) (is : Issue) (sel : Bool) (r : Run) : DWord :=
  (List.range (if sel then 16 else 32)).foldl (fun acc i =>
    if s.predAt is r.t.tid ((if sel then 32 else 0) + i) then acc ||| BitVec.twoPow 64 i else acc) 0

theorem getLsbD_predBits (s : State) (is : Issue) (sel : Bool) (r : Run) (k : Nat) : (predBits s is sel r).getLsbD k =
    (decide (k < if sel then 16 else 32) && s.predAt is r.t.tid ((if sel then 32 else 0) + k)) := by
  have bit (i : Nat) (hi : i < if sel then 16 else 32) : (BitVec.twoPow 64 i).getLsbD k = decide (i = k) := by
    have : i < 64 := by split at hi <;> omega
    rw [BitVec.getLsbD_twoPow, decide_eq_true this, Bool.true_and]
  rw [predBits, getLsbD_foldl_or, any_range_and _ _ _ _ bit]
  simp only [BitVec.ofNat_eq_ofNat, BitVec.getLsbD_zero, Bool.false_or]

/-- Settles O22: PSETV and PGETV predicate by predicate, BALLOT and VOTE by the voters. -/
theorem predicateResults : Obligations.PredicateResults := by
  unfold Obligations.PredicateResults
  intro s is c op pd pa pb d na nb sel a m
  refine ⟨fun h => pureFixed_of h 3 _, fun h => pureFixed_of h 3 _,
    fun h => ⟨predBits s is sel, pureFixed_of h 3 _, fun r k _ => getLsbD_predBits s is sel r k⟩, fun h => ?ballot, fun h => ?vote⟩
  case ballot =>
    rw [exec_ballot, execBallot, pureFixed_of h]
    simp only [State.voters, List.filter_filter, Bool.and_comm]
  case vote =>
    rw [exec_vote, execVote, pureFixed_of h]
    cases m <;> simp only [List.any_map, List.all_map, Function.id_comp, List.not_any_eq_all_not]

end Sys2Proof.Machine
end

section
/-! PROOFS. Direct and indirect transfers, and TRAP (R105 to R107, R160). -/
namespace Sys2Proof.Machine

/-- Settles O25: the three transfers go on with what their own parts leave. -/
theorem directTransfers : Obligations.DirectTransfers := by
  unfold Obligations.DirectTransfers
  intro s is c d off f b
  refine ⟨fun h => ?bra, fun h => ?call, fun h => ?dqbr⟩
  case bra =>
    rw [exec_bra, execBra]
    exact transfer_of h rfl
  case call =>
    rw [exec_call, execCall]
    exact transfer_of h rfl
  case dqbr =>
    rw [exec_dqbr, execDqbr]
    exact transfer_of h rfl

theorem not_any_of_ok {res : List (Nat × DWord × TargetRes)} (ok : ∀ x ∈ res, x.2.2 = .ok) {p : Nat × DWord × TargetRes → Bool}
    (hp : ∀ tid a, p (tid, a, .ok) = false) : ¬res.any p = true := by
  rw [Bool.not_eq_true, List.any_eq_false]
  rintro ⟨tid, a, o⟩ hx
  obtain rfl : o = .ok := ok _ hx
  exact ne_true_of_eq_false (hp tid a)

/-- An indirect transfer whose targets all pass goes to them. -/
theorem indirect_of {s t : State} {is : Issue} {ins : Instr} {c : Ctl} (h : Issues s is ins c []) (land : Bool) (a : VSrc)
    (link : Option Nat) {res : List (Nat × DWord × TargetRes)} (ok : ∀ x ∈ res, x.2.2 = .ok)
    (found : checkTargets is land s ((s.runs is c).map fun r => (r.t.tid, s.srcV is r true a)) = (res, t)) :
    indirect ins c land a link s = .next ((t.take (link.elim is (is.link t (s.runs is c)))
      (res.map fun x => (x.1, x.2.1)) true).settleAt is c) := by
  unfold indirect
  refine transfer_of h ?_
  rw [found]
  refine (if_neg ?noFail).trans ((if_neg ?noWait).trans ?go)
  case noFail | noWait => exact not_any_of_ok ok fun _ _ => rfl
  case go => cases link <;> rfl

/-- Settles O26: JMP, RET and CALLI are one transfer, of which CALLI leaves a link. -/
theorem indirectTransfers : Obligations.IndirectTransfers := by
  unfold Obligations.IndirectTransfers
  intro s t is c a o res ok
  simp only [List.forall_mem_cons, List.not_mem_nil, false_imp_iff, implies_true, and_true, exec_jmp, exec_ret, exec_calli]
  exact ⟨⟨fun h found => indirect_of h true a none ok found, fun h found => indirect_of h false a none ok found⟩,
    fun h found => indirect_of h true o.a (some o.d) ok found⟩

/-- A list that repeats one value names it once. -/
theorem eraseDups_of_forall_eq {k : Nat} {xs : List Nat} (nonempty : xs ≠ []) (h : ∀ x ∈ xs, x = k) : xs.eraseDups = [k] := by
  cases xs with
  | nil => exact absurd rfl nonempty
  | cons x r =>
    obtain ⟨rfl, rest⟩ := List.forall_mem_cons.1 h
    have gone : r.filter (fun y => !y == x) = [] := List.filter_eq_nil_iff.2 fun y hy => by simp [rest y hy]
    rw [List.eraseDups_cons, gone, List.eraseDups_nil]

/-- Settles O29: one code makes one delivery, for all the threads. -/
theorem userTrapTaken : Obligations.UserTrapTaken := by
  unfold Obligations.UserTrapTaken
  intro s is c b k h nonempty one
  have codes : (((s.runs is c).map fun r => ((s.srcB is r .b32 b).toNat % 256, r.t.tid)).map (·.1)).eraseDups = [k] :=
    eraseDups_of_forall_eq (by simpa using nonempty) (by simpa using one)
  have all : (((s.runs is c).map fun r => ((s.srcB is r .b32 b).toNat % 256, r.t.tid)).filter fun p => p.1 == k).map (·.2) =
      (s.runs is c).map (·.t.tid) := by
    rw [List.filter_eq_self.2 (by simpa using one), List.map_map]
    rfl
  rw [exec_trap, execTrap]
  refine transfer_of h ?_
  simp only [codes, List.insertionSort_cons, List.insertionSort_nil, List.orderedInsert_nil, List.foldl_cons, List.foldl_nil, all]
  rfl

end Sys2Proof.Machine
end

section
/-! PROOFS. Changes of the tables that leave what programs see (R7 to R9, R36, R40, R116): the entry of an instance keeps all but its
flags, hazards, sub-groups and formed warps, and its registers, memory and caches read as before. -/
namespace Sys2Proof.Machine

/-! ### The entry of an instance -/

/-- The second entry is the first but for its sub-groups, its formed warps, and what its home warps hold beside the base of their rows and
their scalar registers. -/
def Inst.SameData (i j : Inst) : Prop := ∃ hs gs ws, j = { i with hws := hs, subs := gs, warps := ws } ∧
  ∀ h, (find? hs h).map (fun w => (w.vb, w.scal)) = (find? i.hws h).map fun w => (w.vb, w.scal)

theorem Inst.SameData.refl (i : Inst) : i.SameData i := ⟨i.hws, i.subs, i.warps, rfl, fun _ => rfl⟩

theorem Inst.SameData.trans {i j k : Inst} (h : i.SameData j) (h' : j.SameData k) : i.SameData k := by
  obtain ⟨_, _, _, rfl, e⟩ := h
  obtain ⟨hs, gs, ws, rfl, e'⟩ := h'
  exact ⟨hs, gs, ws, rfl, fun h => (e' h).trans (e h)⟩

theorem Inst.SameData.of_warps (i : Inst) (ws : List Warp) : i.SameData { i with warps := ws } := ⟨_, _, _, rfl, fun _ => rfl⟩

theorem Inst.SameData.of_subs (i : Inst) (gs : List SubGroup) : i.SameData { i with subs := gs } := ⟨_, _, _, rfl, fun _ => rfl⟩

theorem Inst.SameData.modHw (i : Inst) (h : Nat) {f : HWarp → HWarp} (hf : ∀ w, (f w).vb = w.vb ∧ (f w).scal = w.scal) :
    i.SameData (i.modHw h f) := by
  refine ⟨_, i.subs, i.warps, rfl, fun k => ?_⟩
  rw [find?_smod]
  split
  · cases find? i.hws k <;> simp [hf]
  · rfl

/-- What a home warp holds under `SameData`, where there is none the default. -/
theorem Inst.SameData.hw {i j : Inst} (e : i.SameData j) (h : Nat) : (j.hw h).vb = (i.hw h).vb ∧ (j.hw h).scal = (i.hw h).scal := by
  obtain ⟨hs, _, _, rfl, same⟩ := e
  have same := same h
  unfold Inst.hw
  cases a : find? hs h <;> cases b : find? i.hws h <;> simp_all

theorem Inst.SameData.ths {i j : Inst} (e : i.SameData j) : j.ths = i.ths := by
  obtain ⟨_, _, _, rfl, -⟩ := e
  rfl

theorem Inst.SameData.l1 {i j : Inst} (e : i.SameData j) : j.l1 = i.l1 := by
  obtain ⟨_, _, _, rfl, -⟩ := e
  rfl

theorem Inst.SameData.handler {i j : Inst} (e : i.SameData j) : j.handler = i.handler := by
  obtain ⟨_, _, _, rfl, -⟩ := e
  rfl

theorem Inst.SameData.find_hw {i j : Inst} (e : i.SameData j) {h : Nat} {w : HWarp} (hw : find? i.hws h = some w) :
    ∃ v, find? j.hws h = some v := by
  obtain ⟨hs, _, _, rfl, same⟩ := e
  have same := same h
  rw [hw] at same
  obtain ⟨v, hv, -⟩ := Option.map_eq_some_iff.1 same
  exact ⟨v, hv⟩

theorem Inst.sibling_sameData (i : Inst) (tid : Nat) : i.SameData (i.sibling tid) := .of_warps i _

theorem Inst.putFlag_sameData (i : Inst) (hw sub f x : Nat) : i.SameData (i.putFlag hw sub f x) := by
  unfold Inst.putFlag
  split
  · exact .modHw i hw fun _ => ⟨rfl, rfl⟩
  · exact .of_subs i _

theorem Inst.decFlag_sameData (i : Inst) (hw sub f : Nat) : i.SameData (i.decFlag hw sub f) := by
  unfold Inst.decFlag
  dsimp only
  split
  · exact (i.putFlag_sameData _ _ _ _).trans (.modHw _ hw fun _ => ⟨rfl, rfl⟩)
  · exact i.putFlag_sameData _ _ _ _

theorem Inst.feedLoc_sameData (i : Inst) (l : Loc) (x : DWord) : i.SameData (i.feedLoc l x) := by
  unfold Inst.feedLoc
  split
  · exact .of_warps i _
  · exact .of_warps i _
  · exact .of_warps i _
  · exact .refl i

theorem Inst.rememberConts_sameData (i : Inst) (l : Loc) (x : DWord) : i.SameData (i.rememberConts l x) := .of_subs i _

/-! ### The state -/

/-- Memory, cores and dies are the same, and so is what each entry of the placement table holds of registers and L1. -/
structure State.SameData (s t : State) : Prop where
  mem : t.mem = s.mem
  cores : t.cores = s.cores
  dies : t.dies = s.dies
  entry : ∀ k, Option.Rel Inst.SameData (s.inst? k) (t.inst? k)

theorem State.SameData.of_insts {s t : State} (mem : t.mem = s.mem) (cores : t.cores = s.cores) (dies : t.dies = s.dies)
    (insts : t.insts = s.insts) : s.SameData t := by
  refine ⟨mem, cores, dies, fun k => ?_⟩
  rw [State.inst?, State.inst?, insts]
  cases find? s.insts k with
  | none => exact .none
  | some i => exact .some (.refl i)

theorem State.SameData.refl (s : State) : s.SameData s := .of_insts rfl rfl rfl rfl

theorem State.SameData.trans {s t u : State} (h : s.SameData t) (h' : t.SameData u) : s.SameData u := by
  refine ⟨h'.mem.trans h.mem, h'.cores.trans h.cores, h'.dies.trans h.dies, fun k => ?_⟩
  have a := h.entry k
  have b := h'.entry k
  revert a b
  generalize s.inst? k = x
  generalize t.inst? k = y
  generalize u.inst? k = z
  rintro (a | _) (b | _)
  · exact .some (a.trans b)
  · exact .none

theorem State.SameData.modInst (s : State) (k : Nat) {f : Inst → Inst} (hf : ∀ i : Inst, i.SameData (f i)) : s.SameData (s.modInst k f) := by
  refine ⟨rfl, rfl, rfl, fun j => ?_⟩
  simp only [State.inst?, State.modInst, find?_smod]
  cases find? s.insts j with
  | none => split <;> exact .none
  | some i =>
    split
    · exact .some (hf i)
    · exact .some (.refl i)

theorem State.SameData.inst {s t : State} (h : s.SameData t) (k : Nat) : (s.inst k).SameData (t.inst k) := by
  have e := h.entry k
  simp only [State.inst?] at e
  unfold State.inst
  revert e
  generalize find? s.insts k = x
  generalize find? t.insts k = y
  rintro (e | _)
  · exact e
  · exact .refl _

theorem State.SameData.l1 {s t : State} (h : s.SameData t) (k : Nat) : (t.inst k).l1 = (s.inst k).l1 := (h.inst k).l1

theorem State.SameData.inst? {s t : State} (h : s.SameData t) {k : Nat} {i : Inst} (hi : s.inst? k = some i) :
    ∃ j, t.inst? k = some j ∧ i.SameData j := by
  have e := h.entry k
  rw [hi] at e
  cases hj : t.inst? k with
  | none => rw [hj] at e; cases e
  | some j =>
    rw [hj] at e
    cases e with | some e => exact ⟨j, rfl, e⟩

/-- Every register reads as before where the REG words of the cores stay. -/
theorem readLoc_of_sameData {s t : State} (insts : ∀ k, (s.inst k).SameData (t.inst k)) (regs : ∀ c, (t.core c).reg = (s.core c).reg)
    (iid : Nat) (l : Loc) : t.readLoc iid l = s.readLoc iid l := by
  have hw := (insts iid).hw
  obtain ⟨hs, gs, ws, e, -⟩ := insts iid
  cases l with
  | v t n =>
    have vb := (hw ((s.inst iid).hwOf t)).1
    simp only [e] at vb
    simp only [State.readLoc, e, regs]
    exact congrArg (fun b => ((sget (0 : Word) (s.core ((s.inst iid).bank iid)).reg (regKey (b + n) ((s.inst iid).laneOf t))).setWidth 64)) vb
  | s h n =>
    have scal := (hw h).2
    simp only [e] at scal
    simp only [State.readLoc, e, scal]
  | p | g | seed | fp | meet | hnd => simp only [State.readLoc, e] <;> rfl

theorem State.SameData.core {s t : State} (h : s.SameData t) (c : Nat) : t.core c = s.core c := by
  unfold State.core
  rw [h.cores]

theorem State.SameData.die {s t : State} (h : s.SameData t) (d : Nat) : t.die d = s.die d := by
  unfold State.die
  rw [h.dies]

theorem State.SameData.readLoc {s t : State} (h : s.SameData t) (iid : Nat) (l : Loc) : t.readLoc iid l = s.readLoc iid l :=
  readLoc_of_sameData h.inst (fun c => congrArg Core.reg (h.core c)) iid l

theorem State.SameData.foldl {β : Type} (s : State) (f : State → β → State) (xs : List β) (hf : ∀ (s : State) b, s.SameData (f s b)) :
    s.SameData (xs.foldl f s) :=
  foldl_keeps s.SameData f xs (.refl s) fun t b h => h.trans (hf t b)

/-! ### What keeps them -/

theorem State.sibling_sameData (s : State) (iid tid : Nat) : s.SameData (s.sibling iid tid) := .modInst s iid fun i => i.sibling_sameData tid

theorem State.dropWant_sameData (s : State) (who : Asker) : s.SameData (s.dropWant who) := .of_insts rfl rfl rfl rfl

theorem State.reapOps_sameData (s : State) : s.SameData s.reapOps := .of_insts rfl rfl rfl rfl

theorem State.modOp_sameData (s : State) (id : Nat) (f : PendOp → PendOp) : s.SameData (s.modOp id f) := .of_insts rfl rfl rfl rfl

theorem State.closeShare_sameData (s : State) (o : PendOp) (hw : Nat) : s.SameData (s.closeShare o hw) := by
  unfold State.closeShare
  dsimp only
  split
  · exact s.modOp_sameData _ _
  · exact (s.modOp_sameData _ _).trans (.modInst _ _ fun i => i.decFlag_sameData _ _ _)

theorem State.op?_id {s : State} {id : Nat} {o : PendOp} (h : s.op? id = some o) : o.id = id := by
  simpa using List.find?_some h

theorem State.op?_modOp {s : State} {id : Nat} {o : PendOp} (f : PendOp → PendOp) (h : s.op? id = some o) (hf : (f o).id = o.id) :
    (s.modOp id f).op? id = some (f o) := by
  have hid := State.op?_id h
  unfold State.op? at h
  show List.find? _ (s.ops.map fun (o : PendOp) => if o.id == id then f o else o) = _
  generalize s.ops = xs at h
  induction xs with
  | nil => cases h
  | cons x r ih =>
    rw [List.map_cons, List.find?_cons]
    rw [List.find?_cons] at h
    cases hx : x.id == id with
    | true =>
      rw [hx] at h
      obtain rfl : x = o := Option.some.inj h
      simp only [if_true, hf, hx]
    | false =>
      rw [hx] at h
      simp only [Bool.false_eq_true, if_false, hx]
      exact ih h

/-- A part that ends without store faults counts for its flag and changes nothing else that programs see (R37). -/
theorem State.partDone_sameData {s : State} {id : Nat} {o : PendOp} (tid : Nat) (ho : s.op? id = some o) (sf : o.sf = []) :
    s.SameData (s.partDone id tid) := by
  unfold State.partDone
  simp only [ho]
  refine .trans ?_ (State.reapOps_sameData _)
  have flush : ∀ t : State, t.op? id = some { o with
      parts := o.parts.filter fun (p : Part) => p.tid != tid
      shares := o.shares.map fun (x : Share) => { x with left := x.left.filter (· != tid) } } → t.flushSf id = t := by
    intro t h
    simp only [State.flushSf, h, sf, List.isEmpty_nil, Bool.true_or, if_true]
  rw [flush _ (State.op?_modOp _ ho rfl)]
  refine (s.modOp_sameData id _).trans (.foldl _ _ _ fun t h => ?_)
  split
  · exact .refl t
  · split
    · exact t.closeShare_sameData _ _
    · exact .refl t

theorem State.noteScale_sameData (s : State) (iid : Nat) (ls : List Loc) : s.SameData (s.noteScale iid ls) := by
  unfold State.noteScale
  dsimp only
  split
  · exact .of_insts rfl rfl rfl rfl
  · exact .refl s

theorem State.issues_sameData (s : State) (xs : List Issue) : s.SameData { s with issues := xs } := .of_insts rfl rfl rfl rfl

theorem State.retire_sameData (s : State) (iid : Nat) (ls : List Loc) : s.SameData (s.retire iid ls) :=
  (s.issues_sameData _).trans (.modInst _ iid fun i => .of_subs i _)

/-- A write from outside the clauses in flight is the write of its location after changes that programs do not see (R39, R132). -/
theorem State.asyncWrite_eq (s : State) (iid : Nat) (l : Loc) (x : DWord) :
    ∃ t, s.SameData t ∧ s.asyncWrite iid l x = t.writeLoc iid l x :=
  ⟨_, (s.issues_sameData _).trans (.modInst _ iid fun i => (i.rememberConts_sameData l _).trans (Inst.feedLoc_sameData _ l x)), rfl⟩

end Sys2Proof.Machine
end

section
/-! PROOFS. The delivery to the stage handler (R131): eight scalar registers are written, the thread goes to the handler, and the
meetings of its home warp may release it there (R113, R114). -/
namespace Sys2Proof.Machine

/-! ### Scalar registers of a home warp -/

theorem State.readLoc_asyncWrite_scalar {s : State} {iid h : Nat} {i : Inst} {w : HWarp} (hi : s.inst? iid = some i)
    (hw : find? i.hws h = some w) (n : Nat) (x : DWord) (k : Nat) :
    (s.asyncWrite iid (.s h n) x).readLoc iid (.s h k) = if k = n then lo32 x else s.readLoc iid (.s h k) := by
  obtain ⟨t, same, e⟩ := s.asyncWrite_eq iid (.s h n) x
  obtain ⟨j, hj, ij⟩ := same.inst? hi
  obtain ⟨v, hv⟩ := ij.find_hw hw
  rw [e, ← same.readLoc iid (.s h k)]
  simp only [State.writeLoc, State.readLoc, State.modHw, State.inst_modInst_of _ hj, Inst.hw_modHw_of _ hv, State.inst_of_inst? hj]
  split
  · next hk => rw [hk, sget_sset_self, lo32_eq_setWidth]
  · next hk => rw [sget_sset_ne _ _ _ hk, Inst.hw, hv]; rfl

/-- What an instance keeps while scalar registers of its home warp `h` are written. -/
def Inst.ScalarsOf (h : Nat) (i j : Inst) : Prop := j.ths = i.ths ∧ j.handler = i.handler ∧ ∃ w, find? j.hws h = some w

theorem Inst.SameData.scalarsOf {i j : Inst} (e : i.SameData j) {h : Nat} {w : HWarp} (hw : find? i.hws h = some w) : i.ScalarsOf h j :=
  ⟨e.ths, e.handler, e.find_hw hw⟩

theorem Inst.ScalarsOf.trans {h : Nat} {i j k : Inst} (e : i.ScalarsOf h j) (e' : j.ScalarsOf h k) : i.ScalarsOf h k :=
  ⟨e'.1.trans e.1, e'.2.1.trans e.2.1, e'.2.2⟩

theorem State.asyncWrite_scalar_inst? {s : State} {iid h : Nat} {i : Inst} {w : HWarp} (hi : s.inst? iid = some i)
    (hw : find? i.hws h = some w) (n : Nat) (x : DWord) :
    ∃ j, (s.asyncWrite iid (.s h n) x).inst? iid = some j ∧ i.ScalarsOf h j := by
  obtain ⟨t, same, e⟩ := s.asyncWrite_eq iid (.s h n) x
  obtain ⟨j, hj, ij⟩ := same.inst? hi
  obtain ⟨v, hv⟩ := ij.find_hw hw
  have there : find? t.insts iid = some j := hj
  refine ⟨j.modHw h fun w => { w with scal := sset 0 w.scal n (x.setWidth 32) }, ?_, ?_⟩
  · rw [e]
    simp only [State.writeLoc, State.modHw, State.inst?, State.modInst, find?_smod, there, if_true, Option.map_some]
  · refine ⟨ij.ths, ij.handler, { v with scal := sset 0 v.scal n (x.setWidth 32) }, ?_⟩
    simp only [Inst.modHw, find?_smod, hv, if_true, Option.map_some]

theorem State.asyncWrite_scalar_mem (s : State) (iid h n : Nat) (x : DWord) : (s.asyncWrite iid (.s h n) x).mem = s.mem := rfl

/-- Scalar registers written one after the other, each once: each reads what was written to it, and the threads stay. -/
theorem State.scalarWrites {iid h : Nat} {ws : List (Nat × DWord)} (once : (ws.map (·.1)).Nodup) {s : State} {i : Inst} {w : HWarp}
    (hi : s.inst? iid = some i) (hw : find? i.hws h = some w) :
    ∃ t j, ws.foldl (fun s x => s.asyncWrite iid (.s h x.1) x.2) s = t ∧ t.inst? iid = some j ∧ i.ScalarsOf h j ∧ t.mem = s.mem ∧
      ∀ k, t.readLoc iid (.s h k) = (find? ws k).elim (s.readLoc iid (.s h k)) lo32 := by
  induction ws generalizing s i w with
  | nil => exact ⟨s, i, rfl, hi, ⟨rfl, rfl, w, hw⟩, rfl, fun _ => rfl⟩
  | cons x ws ih =>
    rw [List.map_cons, List.nodup_cons] at once
    obtain ⟨fresh, once⟩ := once
    obtain ⟨j, hj, ij⟩ := State.asyncWrite_scalar_inst? hi hw x.1 x.2
    obtain ⟨v, hv⟩ := ij.2.2
    obtain ⟨t, j', ht, hj', jj', hm, hr⟩ := ih once hj hv
    refine ⟨t, j', ht, hj', ij.trans jj', hm.trans (s.asyncWrite_scalar_mem iid h x.1 x.2), fun k => ?_⟩
    rw [hr, State.readLoc_asyncWrite_scalar hi hw, find?]
    by_cases hk : k = x.1
    · have gone : find? ws k = none := by
        rw [hk]
        clear ih ht hr once
        induction ws with
        | nil => rfl
        | cons y ws ih =>
          rw [List.map_cons, List.mem_cons, not_or] at fresh
          rw [find?, if_neg fresh.1, ih fresh.2]
      rw [gone, if_pos hk, if_pos hk]
      rfl
    · simp only [hk, if_false]

theorem State.asyncWrites_scalars {s : State} {iid h : Nat} {ws : List (Nat × DWord)} (once : (ws.map (·.1)).Nodup) {i : Inst}
    {w : HWarp} (hi : s.inst? iid = some i) (hw : find? i.hws h = some w) :
    ∃ t j, s.asyncWrites iid (ws.map fun x => (.s h x.1, x.2)) = t ∧ t.inst? iid = some j ∧ i.ScalarsOf h j ∧ t.mem = s.mem ∧
      ∀ k, t.readLoc iid (.s h k) = (find? ws k).elim (s.readLoc iid (.s h k)) lo32 := by
  unfold State.asyncWrites
  generalize List.map Prod.fst _ = ls
  have same := (s.noteScale_sameData iid ls).trans (State.retire_sameData _ iid ls)
  obtain ⟨j, hj, ij⟩ := same.inst? hi
  obtain ⟨v, hv⟩ := ij.find_hw hw
  obtain ⟨t, j', ht, hj', jj', hm, hr⟩ := State.scalarWrites once hj hv
  refine ⟨t, j', ?_, hj', (ij.scalarsOf hw).trans jj', hm.trans same.mem, fun k => ?_⟩
  · rw [List.foldl_map, ← ht]
  · rw [hr, same.readLoc]

theorem State.readLoc_scalar_of_hws {s t : State} {iid : Nat} (e : (t.inst iid).hws = (s.inst iid).hws) (h k : Nat) :
    t.readLoc iid (.s h k) = s.readLoc iid (.s h k) := by
  simp only [State.readLoc, Inst.hw, e]

/-! ### Meetings (R113, R114) -/

theorem find?_mapKeyed {β : Type} (m : SMap β) {f : Nat × β → Nat × β} (hf : ∀ p, (f p).1 = p.1) (a : Nat) :
    find? (m.map f) a = (find? m a).map fun v => (f (a, v)).2 := by
  induction m with
  | nil => rfl
  | cons p r ih =>
    rw [List.map_cons, find?, hf, find?]
    split
    · next h => rw [h]; rfl
    · exact ih

/-- The second entry is the first after releases of its meetings: threads stand where they stood, as they stood or Ready. -/
def Inst.Released (i j : Inst) : Prop := ∃ ths ws, j = { i with ths := ths, warps := ws } ∧ ∀ u,
  (j.th u).pc = (i.th u).pc ∧ (j.th u).hnd = (i.th u).hnd ∧ ((j.th u).status = (i.th u).status ∨ (j.th u).status = .ready)

theorem Inst.Released.of_warps (i : Inst) (ws : List Warp) : i.Released { i with warps := ws } :=
  ⟨i.ths, ws, rfl, fun _ => ⟨rfl, rfl, .inl rfl⟩⟩

theorem Inst.Released.trans {i j k : Inst} (e : i.Released j) (e' : j.Released k) : i.Released k := by
  obtain ⟨_, _, rfl, h⟩ := e
  obtain ⟨ths, ws, rfl, h'⟩ := e'
  refine ⟨ths, ws, rfl, fun u => ?_⟩
  obtain ⟨pc, hnd, st⟩ := h u
  obtain ⟨pc', hnd', st'⟩ := h' u
  exact ⟨pc'.trans pc, hnd'.trans hnd, st'.elim (fun e => st.imp e.trans e.trans) .inr⟩

theorem Inst.meetRelease_released (i : Inst) (hw : Nat) (h : DWord) : i.Released (i.meetRelease hw h) := by
  unfold Inst.meetRelease
  split
  · refine ⟨_, i.warps, rfl, fun u => ?_⟩
    simp only [Inst.th]
    rw [find?_mapKeyed]
    · cases find? i.ths u with
      | none => exact ⟨rfl, rfl, .inl rfl⟩
      | some th =>
        simp only [Option.map_some, Option.getD_some]
        split
        · exact ⟨rfl, rfl, .inr rfl⟩
        · exact ⟨rfl, rfl, .inl rfl⟩
    · intro p
      split <;> rfl
  · exact .of_warps i i.warps

theorem State.modInst_released (s : State) (iid : Nat) {f : Inst → Inst} (hf : ∀ i : Inst, i.Released (f i)) :
    (s.inst iid).Released ((s.modInst iid f).inst iid) := by
  rcases s.inst_modInst_cases iid f with e | e <;> rw [e]
  · exact hf _
  · exact .of_warps _ _

/-- What follows where a thread has become Held only releases threads. -/
theorem State.heldNow_released (s : State) (iid hw : Nat) (tids : List Nat) :
    (s.inst iid).Released ((s.heldNow iid hw tids).inst iid) ∧ (s.heldNow iid hw tids).mem = s.mem := by
  have same : (s.inst iid).Released (s.inst iid) := .of_warps _ _
  unfold State.heldNow
  dsimp only
  split
  · exact ⟨same, rfl⟩
  · generalize tids.filter _ = held
    have sibs : (s.inst iid).Released ((held.foldl (fun s t => s.sibling iid t) s).inst iid) ∧
        (held.foldl (fun s t => s.sibling iid t) s).mem = s.mem :=
      foldl_keeps (fun t : State => (s.inst iid).Released (t.inst iid) ∧ t.mem = s.mem) _ _ ⟨same, rfl⟩ fun t u h =>
        ⟨h.1.trans (t.modInst_released iid fun i => .of_warps i _), h.2⟩
    refine ⟨sibs.1.trans (State.modInst_released _ iid fun i => ?_), sibs.2⟩
    exact foldl_keeps i.Released _ _ (.of_warps i i.warps) fun j h e => e.trans (j.meetRelease_released hw h)

/-! ### The delivery -/

/-- The thread of a delivery as it goes to the handler. -/
def Thread.toHandler (handler : DWord) (t : TrapRec) (th : Thread) : Thread :=
  { ({ th with pc := handler + 8, hnd := true, hndRet := t.resume, pend := th.pend.filter (· != t) } : Thread).settle with warp := 0 }

theorem Thread.status_toHandler (handler : DWord) (t : TrapRec) (th : Thread) :
    (th.toHandler handler t).status = if th.meet = handler then .held else .ready := by
  simp [Thread.toHandler, Thread.settle, Thread.header]

/-- What the delivery writes to s56 to s63. -/
def handlerRecord (t : TrapRec) (count : Word) : List (Nat × DWord) :=
  [(56, BitVec.ofNat 64 t.code), (57, BitVec.ofNat 64 t.detail), (58, t.addr &&& 0xFFFFFFFF), (59, t.addr >>> 32),
    (60, t.resume &&& 0xFFFFFFFF), (61, t.resume >>> 32), (62, t.mask.setWidth 64), (63, count.setWidth 64)]

/-- A delivery of one thread: the record is written, the thread goes to the handler, and meetings release what they release. -/
theorem State.deliver_cases {s : State} {iid hw tid : Nat} {i : Inst} {th : Thread} {w : HWarp} (hi : s.inst? iid = some i)
    (ht : i.th? tid = some th) (hw' : find? i.hws hw = some w) (t : TrapRec) :
    ∃ j : Inst, j.Released ((s.deliver iid hw [tid] t).inst iid) ∧ j.th tid = th.toHandler i.handler t ∧
      (s.deliver iid hw [tid] t).mem = s.mem ∧ ∀ k, (s.deliver iid hw [tid] t).readLoc iid (.s hw k) =
        (find? (handlerRecord t (sget (0 : Word) w.scal 63 + 1)) k).elim (s.readLoc iid (.s hw k)) lo32 := by
  have count : (sget (0 : Word) ((s.inst iid).hw hw).scal 63) = sget (0 : Word) w.scal 63 := by
    rw [State.inst_of_inst? hi, Inst.hw, hw']
    rfl
  generalize hrec : handlerRecord t (sget (0 : Word) w.scal 63 + 1) = rec
  have once : (rec.map (·.1)).Nodup := by
    rw [← hrec]
    exact (by decide : [56, 57, 58, 59, 60, 61, 62, 63].Nodup)
  obtain ⟨u, j, hu, hj, ij, hm, hr⟩ := State.asyncWrites_scalars once hi hw'
  have eq : s.deliver iid hw [tid] t = (u.modInst iid fun i => (i.modTh tid fun th =>
      ({ th with pc := i.handler + 8, hnd := true, hndRet := t.resume, pend := th.pend.filter (· != t) } : Thread).settle).unwarp tid).heldNow
        iid hw [tid] := by
    rw [← hu, ← hrec, ← count]
    rfl
  have listed : find? u.insts iid = some j := hj
  generalize hv : u.modInst iid _ = v at eq
  have there : (v.inst iid).hws = (u.inst iid).hws ∧ (v.inst iid).th tid = th.toHandler i.handler t ∧ v.mem = s.mem := by
    have hth : j.th? tid = some th := by rw [Inst.th?, ij.1]; exact ht
    rw [← hv, State.inst_modInst_of _ hj, State.inst_of_inst? hj]
    refine ⟨rfl, ?_, hm⟩
    rw [Inst.th?] at hth
    simp only [Inst.unwarp, Inst.th, Inst.modTh, find?_smod, hth, if_true, Option.map_some, Option.getD_some, ij.2.1]
    rfl
  obtain ⟨hws, hth, hmem⟩ := there
  obtain ⟨released, hmem'⟩ := v.heldNow_released iid hw [tid]
  refine ⟨v.inst iid, eq ▸ released, hth, eq ▸ hmem'.trans hmem, fun k => ?_⟩
  obtain ⟨_, _, e, -⟩ := released
  rw [eq, ← hr]
  exact State.readLoc_scalar_of_hws (by rw [e]; exact hws) hw k

/-! ### The words of the record -/

theorem lo32_lo32 (x : DWord) : lo32 (lo32 x) = lo32 x := by
  apply BitVec.eq_of_toNat_eq
  rw [toNat_lo32, toNat_lo32, Nat.mod_mod]

theorem lo32_high (x : DWord) : lo32 (x >>> 32) = x >>> 32 := by
  apply BitVec.eq_of_toNat_eq
  rw [toNat_lo32, BitVec.toNat_ushiftRight, Nat.shiftRight_eq_div_pow, Nat.mod_eq_of_lt]
  have := x.isLt
  omega

theorem lo32_word (x : Word) : lo32 (x.setWidth 64) = x.setWidth 64 := by
  apply BitVec.eq_of_toNat_eq
  rw [toNat_lo32, BitVec.toNat_setWidth]
  have := x.isLt
  omega

theorem lo32_ofNat (n : Nat) : lo32 (BitVec.ofNat 64 n) = (BitVec.ofNat 32 n).setWidth 64 := by
  rw [lo32_eq_setWidth, BitVec.setWidth_ofNat_of_le (by decide)]

/-- Settles O30: the registers read what the record holds of them, and the thread is as it came to the handler or released there. -/
theorem handlerDelivery : Obligations.HandlerDelivery := by
  unfold Obligations.HandlerDelivery
  intro s iid hw tid t i th w hi hth hw'
  obtain ⟨j, ⟨ths, ws, -, released⟩, hj, hm, hr⟩ := State.deliver_cases hi hth hw' t
  obtain ⟨pc, hnd, st⟩ := released tid
  rw [hj] at pc hnd st
  rw [Thread.status_toHandler] at st
  have status : (((s.deliver iid hw [tid] t).inst iid).th tid).status = .ready ∨
      th.meet = i.handler ∧ (((s.deliver iid hw [tid] t).inst iid).th tid).status = .held := by
    rcases st with st | st
    · split at st
      · next meets => exact .inr ⟨meets, st⟩
      · exact .inl st
    · exact .inl st
  exact ⟨pc, hnd, status, (hr 56).trans (lo32_ofNat _), (hr 57).trans (lo32_ofNat _), (hr 58).trans (lo32_lo32 _),
    (hr 59).trans (lo32_high _), (hr 60).trans (lo32_lo32 _), (hr 61).trans (lo32_high _),
    (hr 62).trans (lo32_word _), (hr 63).trans (lo32_word _), hm⟩

end Sys2Proof.Machine
end

section
/-! PROOFS. Bytes of a sector: ciphertext under a pair of counters and back (R218), bytes merged under a mask, and an aligned access,
which lies in one sector. -/
namespace Sys2Proof.Machine

/-! ### The length of a pad: AES-256 turns a block of 16 bytes into one of 16 bytes -/

theorem length_xorNats (a b : List Nat) : (xorNats a b).length = min a.length b.length := List.length_zipWith

theorem length_shiftRows (s : List Nat) : (shiftRows s).length = 16 := by simp [shiftRows]

theorem length_mixColumns (s : List Nat) : (mixColumns s).length = 16 := by simp [mixColumns]

/-- The word that the key schedule puts in front of those it has. -/
def keyWord (ws : List (List Nat)) (j : Nat) : List Nat :=
  xorNats (ws.getD 7 []) (if (j + 8) % 8 = 0 then
      xorNats (((ws.headD []).drop 1 ++ (ws.headD []).take 1).map subByte)
        [(List.range ((j + 8) / 8 - 1)).foldl (fun c _ => gfDouble c) 1, 0, 0, 0]
    else if (j + 8) % 8 = 4 then (ws.headD []).map subByte else ws.headD [])

theorem keySchedule_eq (key : List Nat) : keySchedule key =
    (List.range 52).foldl (fun ws j => keyWord ws j :: ws) ((List.range 8).map fun k => (key.drop (4 * k)).take 4).reverse := rfl

theorem length_keyWord {ws : List (List Nat)} (h8 : 8 ≤ ws.length) (h4 : ∀ w ∈ ws, w.length = 4) (j : Nat) :
    (keyWord ws j).length = 4 := by
  have head : (ws.headD []).length = 4 := by
    cases ws with
    | nil => simp at h8
    | cons w ws => exact h4 w List.mem_cons_self
  have seventh : (ws.getD 7 []).length = 4 := by
    rw [List.getD_eq_getElem _ _ (by omega)]
    exact h4 _ (List.getElem_mem _)
  rw [keyWord, length_xorNats, seventh]
  generalize ws.headD [] = h at head
  split
  · simp [length_xorNats, head]
  · split <;> simp [head]

theorem foldl_keyWord (ks : List Nat) {ws : List (List Nat)} (h8 : 8 ≤ ws.length) (h4 : ∀ w ∈ ws, w.length = 4) :
    (ks.foldl (fun ws j => keyWord ws j :: ws) ws).length = ws.length + ks.length ∧
      ∀ w ∈ ks.foldl (fun ws j => keyWord ws j :: ws) ws, w.length = 4 := by
  induction ks generalizing ws with
  | nil => exact ⟨rfl, h4⟩
  | cons k ks ih =>
    obtain ⟨a, b⟩ := ih (ws := keyWord ws k :: ws) (by rw [List.length_cons]; omega)
      (List.forall_mem_cons.2 ⟨length_keyWord h8 h4 k, h4⟩)
    rw [List.length_cons] at a
    rw [List.foldl_cons, List.length_cons]
    exact ⟨by omega, b⟩

/-- The key schedule has 60 words of 4 bytes. -/
theorem keySchedule_words {key : List Nat} (hk : key.length = 32) :
    (keySchedule key).length = 60 ∧ ∀ w ∈ keySchedule key, w.length = 4 := by
  have first : ∀ w ∈ ((List.range 8).map fun k => (key.drop (4 * k)).take 4).reverse, w.length = 4 := by
    intro w hw
    rw [List.mem_reverse, List.mem_map] at hw
    obtain ⟨k, hk', rfl⟩ := hw
    rw [List.mem_range] at hk'
    rw [List.length_take, List.length_drop]
    omega
  have eight : ((List.range 8).map fun k => (key.drop (4 * k)).take 4).reverse.length = 8 := by
    rw [List.length_reverse, List.length_map, List.length_range]
  obtain ⟨length, words⟩ := foldl_keyWord (List.range 52) eight.ge first
  rw [eight, List.length_range] at length
  rw [keySchedule_eq]
  exact ⟨length, words⟩

theorem length_aesBytes {key : List Nat} (hk : key.length = 32) (block : List Nat) : (aesBytes key block).length = 16 := by
  obtain ⟨h60, h4⟩ := keySchedule_words hk
  have flat (ls : List (List Nat)) (h : ∀ w ∈ ls, w.length = 4) : ls.flatten.length = 4 * ls.length := by
    induction ls with
    | nil => rfl
    | cons w ls ih =>
      obtain ⟨hw, h⟩ := List.forall_mem_cons.1 h
      rw [List.flatten_cons, List.length_append, hw, ih h, List.length_cons]
      omega
  have rk (r : Nat) (hr : r ≤ 14) : ((((keySchedule key).reverse.drop (4 * r)).take 4).flatten).length = 16 := by
    rw [flat]
    · rw [List.length_take, List.length_drop, List.length_reverse, h60]
      omega
    · exact fun w hw => h4 w (List.mem_reverse.1 (List.mem_of_mem_drop (List.mem_of_mem_take hw)))
  unfold aesBytes
  rw [length_xorNats, length_shiftRows, rk 14 le_rfl]
  rfl

theorem length_padBytes (key : BitVec 256) (world major minor pa : Nat) : (padBytes key world major minor pa).length = 32 := by
  simp only [padBytes, aes256, List.length_append, List.length_map]
  rw [length_aesBytes (by simp [natBytes]), length_aesBytes (by simp [natBytes])]

/-! ### Ciphertext and plaintext -/

theorem xorBytes_xorBytes {d p : List Byte} (h : d.length ≤ p.length) : xorBytes (xorBytes d p) p = d := by
  induction d generalizing p with
  | nil => rfl
  | cons x d ih =>
    cases p with
    | nil => simp at h
    | cons y p =>
      rw [List.length_cons, List.length_cons, Nat.succ_le_succ_iff] at h
      simp only [xorBytes, List.zipWith_cons_cons, BitVec.xor_assoc, BitVec.xor_self, BitVec.xor_zero]
      exact congrArg _ (ih h)

theorem State.crypt_of_plain {s : State} {pa : Nat} (h : s.plainAt pa = true) (major minor : Nat) (d : List Byte) :
    s.crypt pa major minor d = d := by
  rw [State.crypt, if_pos h]

/-- Ciphertext under the counters that made it is plaintext again (R218). -/
theorem State.crypt_crypt (s : State) (pa major minor : Nat) {d : List Byte} (h : d.length ≤ 32) :
    s.crypt pa major minor (s.crypt pa major minor d) = d := by
  unfold State.crypt
  split
  · rfl
  · exact xorBytes_xorBytes (by rw [length_padBytes]; exact h)

/-! ### Merged bytes -/

@[simp] theorem length_mergeBytes (old new : List Byte) (mask : BitVec 32) : (mergeBytes old new mask).length = 32 := by simp [mergeBytes]

theorem nthByte_mergeBytes (old new : List Byte) (mask : BitVec 32) {k : Nat} (hk : k < 32) :
    nthByte (mergeBytes old new mask) k = if mask.getLsbD k then nthByte new k else nthByte old k := by
  rw [nthByte, List.getD_eq_getElem _ _ (by simpa using hk)]
  simp [mergeBytes]

theorem getLsbD_byteMask (lo n : Nat) {k : Nat} (hk : k < 32) : (byteMask lo n).getLsbD k = decide (lo ≤ k ∧ k < lo + n) := by
  rw [byteMask, BitVec.getLsbD_ofNat, decide_eq_true hk, Bool.true_and, Nat.testBit_mul_two_pow, Nat.testBit_two_pow_sub_one]
  by_cases h : lo ≤ k
  · simp only [h, decide_true, true_and, Bool.true_and, decide_eq_decide]
    omega
  · simp only [h, decide_false, false_and, Bool.false_and]

/-- The bytes `old` with `ds` from position `lo` on. -/
def putBytes (lo : Nat) (ds old : List Byte) (k : Nat) : Byte :=
  if lo ≤ k ∧ k < lo + ds.length then nthByte ds (k - lo) else nthByte old k

theorem nthByte_replicate_append (a : Nat) (bs : List Byte) {k : Nat} (h : a ≤ k) :
    nthByte (List.replicate a 0 ++ bs) k = nthByte bs (k - a) := by
  unfold nthByte
  rw [List.getD_append_right _ _ _ _ (by simpa using h), List.length_replicate]

/-- What a store merges into a sector. -/
theorem nthByte_merge_put (old ds : List Byte) (lo : Nat) {k : Nat} (hk : k < 32) :
    nthByte (mergeBytes old (List.replicate lo 0 ++ ds) (byteMask lo ds.length)) k = putBytes lo ds old k := by
  rw [nthByte_mergeBytes _ _ _ hk, getLsbD_byteMask _ _ hk, putBytes]
  simp only [decide_eq_true_eq]
  split
  · next h => exact nthByte_replicate_append _ _ h.1
  · rfl

@[simp] theorem length_bytesOf (n w : Nat) : (bytesOf n w).length = n := by
  unfold bytesOf
  induction n generalizing w with
  | zero => rfl
  | succ n ih => rw [leBytes, List.length_cons, ih]

/-! ### One sector -/

theorem tyBytes_pos (ty : Ty) : 0 < tyBytes ty := by cases ty <;> decide

/-- An aligned access lies in one sector. -/
theorem aligned_in_sector {ty : Ty} {va : Nat} (h : va % tyBytes ty = 0) : va % 32 + tyBytes ty ≤ 32 := by
  cases ty <;> simp only [tyBytes] at h ⊢ <;> omega

theorem sectorsOf_single {va n : Nat} (h0 : 0 < n) (h : va % 32 + n ≤ 32) : sectorsOf va n = [(va, n)] := by
  have last : (va + n - 1) / 32 + 1 - va / 32 = 1 := by omega
  have lo : max va (va / 32 * 32) = va := by omega
  have hi : min (va + n) ((va / 32 + 1) * 32) - va = n := by omega
  unfold sectorsOf
  simp only [Nat.pos_iff_ne_zero.1 h0, if_false, last, List.range_one, List.map_cons, List.map_nil, Nat.add_zero, lo, hi]

end Sys2Proof.Machine
end

section
/-! PROOFS. Where stores store (R122, R137, R140, R194, R200, R219, R220): one rule for what each place takes, one for the check of an
access that lies in one sector, and the end of the store, which changes nothing that programs see. -/
namespace Sys2Proof.Machine

/-! ### L1 (R122, R200, R220) -/

/-- The sector that L1 takes a store into has its physical address, and what it held is that sector's: then its plaintext is that of before,
or nothing, with the bytes of the store, which are dirty. -/
theorem State.l1Put_cases {s : State} {q : Req} {a pa va : Nat} (rt : Rights) {bs : List Byte} (hb : va % 32 + bs.length ≤ 32)
    (same : ∀ z, find? (s.inst q.iid).l1 (secKey a va) = some z → z.pa = pa) :
    ∃ y : L1Sec, s.l1Put q a pa va rt bs = s.modInst q.iid (fun i => { i with l1 := sput i.l1 (secKey a va) y }) ∧ y.pa = pa ∧
      (∀ k, k < 32 → nthByte (s.plainL1 y) k =
        putBytes (va % 32) bs ((find? (s.inst q.iid).l1 (secKey a va)).elim [] s.plainL1) k) ∧
      (∀ k, va % 32 ≤ k → k < va % 32 + bs.length → y.dirty.getLsbD k = true) ∧
      ∀ z, find? (s.inst q.iid).l1 (secKey a va) = some z →
        y.major = z.major ∧ (y.minor = z.minor ∨ z.dirty = 0 ∧ y.minor = z.minor + 1) := by
  have bytes (major minor : Nat) (old : List Byte) (k : Nat) (hk : k < 32) :
      nthByte (s.crypt pa major minor (s.crypt pa major minor
        (mergeBytes old (List.replicate (va % 32) 0 ++ bs) (byteMask (va % 32) bs.length)))) k = putBytes (va % 32) bs old k := by
    rw [s.crypt_crypt pa major minor (length_mergeBytes _ _ _).le, nthByte_merge_put _ _ _ hk]
  have dirty (k : Nat) (h : va % 32 ≤ k) (h' : k < va % 32 + bs.length) : (byteMask (va % 32) bs.length).getLsbD k = true := by
    rw [getLsbD_byteMask _ _ (by omega)]
    exact decide_eq_true ⟨h, h'⟩
  unfold State.l1Put
  cases hz : find? (s.inst q.iid).l1 (secKey a va) with
  | none =>
    simp only [hz]
    exact ⟨_, rfl, rfl, fun k hk => bytes _ _ _ k hk, dirty, fun z h => (by cases h)⟩
  | some z =>
    obtain rfl := same z hz
    simp only [hz]
    refine ⟨_, rfl, rfl, fun k hk => bytes _ _ _ k hk, fun k h h' => ?_, ?_⟩
    · rw [BitVec.getLsbD_or, dirty k h h', Bool.or_true]
    · rintro _ ⟨⟩
      refine ⟨rfl, ?_⟩
      dsimp only
      split
      · next clean =>
        split
        · exact .inl rfl
        · exact .inr ⟨by simpa using clean, rfl⟩
      · exact .inl rfl

theorem State.inst_modInst_ne (s : State) {j k : Nat} (f : Inst → Inst) (h : j ≠ k) : (s.modInst k f).inst j = s.inst j := by
  simp only [State.inst, State.modInst, find?_smod, h, if_false]

/-- A change of an L1 shows in no register. -/
theorem State.readLoc_modInst_l1 (s : State) (k : Nat) (f : Inst → SMap L1Sec) (j : Nat) (m : Loc) :
    (s.modInst k fun i => { i with l1 := f i }).readLoc j m = s.readLoc j m := by
  by_cases h : j = k
  · subst h
    rcases s.inst_modInst_cases j fun i => { i with l1 := f i } with e | e
    · cases m <;> simp only [State.readLoc, e, State.core_modInst] <;> rfl
    · cases m <;> simp only [State.readLoc, e, State.core_modInst]
  · cases m <;> simp only [State.readLoc, State.inst_modInst_ne _ _ h, State.core_modInst]

/-- A store to ordinary memory has left its bytes, from position `lo` on, in the sector `y` of an instance's L1, and everything else that
programs see as it was. -/
structure State.L1Stored (s t : State) (iid key pa lo : Nat) (bs : List Byte) (y : L1Sec) : Prop where
  sector : find? (t.inst iid).l1 key = some y
  address : y.pa = pa
  bytes : ∀ k, k < 32 → nthByte (s.plainL1 y) k = putBytes lo bs ((find? (s.inst iid).l1 key).elim [] s.plainL1) k
  dirty : ∀ k, lo ≤ k → k < lo + bs.length → y.dirty.getLsbD k = true
  counters : ∀ z, find? (s.inst iid).l1 key = some z → y.major = z.major ∧ (y.minor = z.minor ∨ z.dirty = 0 ∧ y.minor = z.minor + 1)
  sectors : ∀ k, k ≠ key → find? (t.inst iid).l1 k = find? (s.inst iid).l1 k
  others : ∀ k, k ≠ iid → (t.inst k).l1 = (s.inst k).l1
  mem : t.mem = s.mem
  cores : t.cores = s.cores
  dies : t.dies = s.dies
  regs : ∀ j l, t.readLoc j l = s.readLoc j l

/-- What comes after the store keeps what it has left. -/
theorem State.L1Stored.ended {s t u : State} {iid key pa lo : Nat} {bs : List Byte} {y : L1Sec} (h : s.L1Stored t iid key pa lo bs y)
    (e : t.SameData u) : s.L1Stored u iid key pa lo bs y where
  sector := by rw [e.l1, h.sector]
  address := h.address
  bytes := h.bytes
  dirty := h.dirty
  counters := h.counters
  sectors k hk := by rw [e.l1, h.sectors k hk]
  others k hk := (e.l1 k).trans (h.others k hk)
  mem := e.mem.trans h.mem
  cores := e.cores.trans h.cores
  dies := e.dies.trans h.dies
  regs j l := (e.readLoc j l).trans (h.regs j l)

/-- L1 takes a store, where the instance is placed and what L1 holds under the key is the sector of the store. -/
theorem State.l1Put_stored {s : State} {q : Req} {i : Inst} (hi : s.inst? q.iid = some i) {a pa va : Nat} (rt : Rights) {bs : List Byte}
    (hb : va % 32 + bs.length ≤ 32) (same : ∀ z, find? (s.inst q.iid).l1 (secKey a va) = some z → z.pa = pa) :
    ∃ y, s.L1Stored (s.l1Put q a pa va rt bs) q.iid (secKey a va) pa (va % 32) bs y := by
  obtain ⟨y, e, address, bytes, dirty, counters⟩ := State.l1Put_cases rt hb same
  have there := State.inst_modInst_of (fun i => { i with l1 := sput i.l1 (secKey a va) y }) hi
  rw [e]
  exact ⟨y, {
    sector := by
      rw [there]
      exact find?_sput_self _ _ _
    address
    bytes
    dirty
    counters
    sectors := fun k hk => by
      rw [there, State.inst_of_inst? hi]
      exact find?_sput_ne _ _ hk
    others := fun k hk => by rw [State.inst_modInst_ne _ _ hk]
    mem := rfl
    cores := rfl
    dies := rfl
    regs := s.readLoc_modInst_l1 q.iid _ }⟩

/-! ### Memory through the physical aperture (R194, R289) -/

theorem paCtrl_sector (pa : Nat) : paCtrl (pa / 32 * 32) = paCtrl pa := by
  unfold paCtrl
  omega

theorem paWindow_sector (pa : Nat) : paWindow (pa / 32 * 32) = paWindow pa := by
  have : pa / 32 * 32 / 2 ^ 47 = pa / 2 ^ 47 := by omega
  unfold paWindow
  rw [this]

theorem paDie_sector (pa : Nat) : paDie (pa / 32 * 32) = paDie pa := by
  have : pa / 32 * 32 / 2 ^ 44 = pa / 2 ^ 44 := by omega
  unfold paDie
  rw [paWindow_sector, paCtrl_sector, this]

theorem State.undoers_sector (s : State) (pa : Nat) : s.undoers (pa / 32 * 32) = s.undoers pa := by
  have : pa / 32 * 32 / 32 * 32 = pa / 32 * 32 := by omega
  unfold State.undoers
  rw [paCtrl_sector, this]

theorem State.plainAt_of_world {s : State} {pa : Nat} (h : (s.die (paDie pa)).world = 0) : s.plainAt pa = true := by
  simp [State.plainAt, State.worldOf, h]

theorem State.overflows_of_plain {s : State} {pa : Nat} (h : s.plainAt pa = true) (minorIn : Nat) : s.overflows pa minorIn = false := by
  simp [State.overflows, h]

/-- A sector that no interval logs finds room in every undo area. -/
theorem State.undoOk_of_unlogged {s : State} {pa : Nat} (plain : s.plainAt pa = true) (h : s.undoers pa = []) : s.undoOk pa 0 = true := by
  simp only [State.undoOk, State.undoOkOf, State.overflows_of_plain plain, Bool.false_eq_true, if_false, List.all_eq_true]
  intro c _
  simp [State.undoers_sector, h]

theorem State.nthByte_bytesAt (s : State) (pa : Nat) {n k : Nat} (hk : k < n) : nthByte (s.bytesAt pa n) k = s.byteAt (pa + k) := by
  rw [nthByte, State.bytesAt, List.getD_eq_getElem _ _ (by simpa using hk)]
  simp

theorem State.byteAt_setBytes_inside (s : State) (pa : Nat) (bs : List Byte) {k : Nat} (hk : k < bs.length) :
    (s.setBytes pa bs).byteAt (pa + k) = nthByte bs k := by
  rw [← State.nthByte_bytesAt _ _ hk, State.bytesAt_setBytes_self]

theorem State.setBytes_cores (s : State) (pa : Nat) (bs : List Byte) : (s.setBytes pa bs).cores = s.cores := by
  induction bs generalizing s pa with
  | nil => rfl
  | cons b r ih => exact (ih _ _).trans rfl

theorem State.setBytes_dies (s : State) (pa : Nat) (bs : List Byte) : (s.setBytes pa bs).dies = s.dies := by
  induction bs generalizing s pa with
  | nil => rfl
  | cons b r ih => exact (ih _ _).trans rfl

theorem State.setBytes_ops (s : State) (pa : Nat) (bs : List Byte) : (s.setBytes pa bs).ops = s.ops := by
  induction bs generalizing s pa with
  | nil => rfl
  | cons b r ih => exact (ih _ _).trans rfl

theorem State.die_setBytes (s : State) (pa : Nat) (bs : List Byte) (d : Nat) : (s.setBytes pa bs).die d = s.die d := by
  rw [State.die, State.setBytes_dies, State.die]

/-- A write of less than a sector of plaintext changes its bytes as they stand in memory. -/
theorem State.writePlain_of_world {s : State} {pa : Nat} (world : (s.die (paDie pa)).world = 0) (minorIn : Nat) (data : List Byte)
    {mask : BitVec 32} (part : mask ≠ BitVec.allOnes 32) :
    s.writePlain pa minorIn data mask = s.setBytes (pa / 32 * 32) (mergeBytes (s.bytesAt (pa / 32 * 32) 32) data mask) := by
  have world' : (s.die (paDie (pa / 32 * 32))).world = 0 := by rw [paDie_sector, world]
  have plain := State.plainAt_of_world world'
  have sector : pa / 32 * 32 / 32 * 32 = pa / 32 * 32 := by omega
  unfold State.writePlain
  have partial' : (mask == BitVec.allOnes 32) = false := beq_eq_false_iff_ne.2 part
  simp only [plain, if_true, partial', Bool.false_eq_true, if_false, State.worldOf, State.die_setBytes, world', State.writeRaw, State.readSector, sector,
    State.crypt_of_plain plain]

theorem byteMask_ne_allOnes (lo : Nat) {n : Nat} (hn : n < 32) : byteMask lo n ≠ BitVec.allOnes 32 := by
  intro e
  have bit (k : Nat) (hk : k < 32) : lo ≤ k ∧ k < lo + n := by
    have := getLsbD_byteMask lo n hk
    rw [e, BitVec.getLsbD_allOnes, decide_eq_true hk] at this
    exact of_decide_eq_true this.symm
  have first := bit 0 (by decide)
  have last := bit 31 (by decide)
  omega

/-- Bytes inside one sector of plaintext memory that no interval logs: they stand in memory, and nothing else changes. -/
theorem State.setPaBytes_of_world {s : State} {pa : Nat} {bs : List Byte} (world : (s.die (paDie pa)).world = 0) (mem : paWindow pa = false)
    (h0 : 0 < bs.length) (h : pa % 32 + bs.length ≤ 32) (hn : bs.length < 32) :
    ∃ xs, s.setPaBytes pa bs = s.setBytes (pa / 32 * 32) xs ∧ xs.length = 32 ∧
      ∀ k, k < 32 → nthByte xs k = putBytes (pa % 32) bs (s.bytesAt (pa / 32 * 32) 32) k := by
  have plain : s.plainAt (pa / 32 * 32) = true := State.plainAt_of_world (by rw [paDie_sector, world])
  refine ⟨_, ?_, length_mergeBytes _ _ _, fun k hk => nthByte_merge_put _ _ _ hk⟩
  unfold State.setPaBytes
  rw [sectorsOf_single h0 h]
  simp only [List.foldl_cons, List.foldl_nil, Nat.sub_self, List.drop_zero, List.take_length, State.putPiece, mem, Bool.false_eq_true, if_false,
    State.writeSector, State.overflows_of_plain plain, if_true]
  exact State.writePlain_of_world world 0 _ (byteMask_ne_allOnes _ hn)

/-- Bytes of a store that it leaves in memory as `setPaBytes_of_world` says. -/
theorem State.byteAt_putSector {s : State} {pa : Nat} {bs xs : List Byte} (hx : xs.length = 32) (h : pa % 32 + bs.length ≤ 32)
    (hp : ∀ k, k < 32 → nthByte xs k = putBytes (pa % 32) bs (s.bytesAt (pa / 32 * 32) 32) k) :
    (∀ k, k < bs.length → (s.setBytes (pa / 32 * 32) xs).byteAt (pa + k) = nthByte bs k) ∧
      ∀ a, a < pa ∨ pa + bs.length ≤ a → (s.setBytes (pa / 32 * 32) xs).byteAt a = s.byteAt a := by
  have inside (k : Nat) (hk : k < 32) : (s.setBytes (pa / 32 * 32) xs).byteAt (pa / 32 * 32 + k) =
      putBytes (pa % 32) bs (s.bytesAt (pa / 32 * 32) 32) k := by
    rw [State.byteAt_setBytes_inside _ _ _ (by rw [hx]; exact hk), hp k hk]
  refine ⟨fun k hk => ?_, fun a ha => ?_⟩
  · have at_ : pa + k = pa / 32 * 32 + (pa % 32 + k) := by omega
    have pos : pa % 32 + k - pa % 32 = k := by omega
    rw [at_, inside _ (by omega), putBytes, if_pos ⟨by omega, by omega⟩, pos]
  · by_cases out : a < pa / 32 * 32 ∨ pa / 32 * 32 + xs.length ≤ a
    · exact s.byteAt_setBytes_outside _ out
    · have at_ : a = pa / 32 * 32 + (a - pa / 32 * 32) := by omega
      rw [hx] at out
      rw [at_, inside _ (by omega), putBytes, if_neg (by omega), State.nthByte_bytesAt _ _ (by omega)]

/-! ### The scratchpad (R121, R140) -/

theorem sget_foldl_sset {m : SMap Byte} (base : Nat) (f : Nat → Byte) (n a : Nat) :
    sget (0 : Byte) ((List.range n).foldl (fun m j => sset 0 m (base + j) (f j)) m) a =
      if base ≤ a ∧ a < base + n then f (a - base) else sget 0 m a := by
  induction n with
  | zero =>
    rw [if_neg (by omega)]
    rfl
  | succ n ih =>
    rw [List.range_succ, List.foldl_append, List.foldl_cons, List.foldl_nil]
    by_cases h : a = base + n
    · rw [h, sget_sset_self, if_pos (by omega), Nat.add_sub_cancel_left]
    · rw [sget_sset_ne _ _ _ h, ih]
      exact if_congr (by omega) rfl rfl

/-- A store to the scratchpad: its bytes, the presence of its lines, and nothing else of the core. -/
theorem State.spadPut_core (s : State) (i : Inst) (off : Nat) (bs : List Byte) :
    let k := (s.spadPut i off bs).core i.core
    (∀ j, j < bs.length → sget 0 k.spad (i.spadBase + off + j) = nthByte bs j) ∧
      (∀ a, a < i.spadBase + off ∨ i.spadBase + off + bs.length ≤ a → sget 0 k.spad a = sget 0 (s.core i.core).spad a) ∧
      (∀ l, l ∈ k.absent ↔ l ∈ (s.core i.core).absent ∧ ∀ j, j < bs.length → l ≠ (i.spadBase + off + j) / 128) ∧
      k.acc = (s.core i.core).acc ∧ k.icache = (s.core i.core).icache ∧ k.reg = (s.core i.core).reg := by
  intro k
  have hk : k = _ := State.core_modCore_self _ _ _
  rw [hk]
  refine ⟨fun j hj => ?_, fun a ha => ?_, fun l => ?_, rfl, rfl, rfl⟩
  · dsimp only
    rw [sget_foldl_sset, if_pos (by omega), Nat.add_sub_cancel_left]
  · dsimp only
    rw [sget_foldl_sset, if_neg (by omega)]
  · simp only [List.mem_filter, Bool.not_eq_true', Inst.spadLine, ← Nat.add_assoc, and_congr_right_iff]
    intro _
    rw [← Bool.not_eq_true, List.contains_iff_mem, List.mem_map]
    simp only [List.mem_range, not_exists, not_and, eq_comm, ne_eq]

theorem State.core_modCore_ne (s : State) {c d : Nat} (f : Core → Core) (h : d ≠ c) : (s.modCore c f).core d = s.core d :=
  sget_sset_ne _ _ _ h

end Sys2Proof.Machine
end

section
/-! PROOFS. The steps of STS and ST (R137, R140, R200): the check of an access that lies in one sector, the store, and its end. -/
namespace Sys2Proof.Machine

/-! ### The check -/

/-- An access that lies in one sector and has no released request of its page before it is checked as its one piece. -/
theorem State.accCheck_single {s u : State} {who : Asker} {q : Req} {va n : Nat} (h0 : 0 < n) (h : va % 32 + n ≤ 32)
    (span : spanOk va n = true) (first : s.behind who = false) (piece : s.chkPiece who q va n = (.ok, u)) :
    s.accCheck who q va n = (.ok, u) := by
  unfold State.accCheck
  simp only [span, first, Bool.not_true, Bool.false_eq_true, if_false, sectorsOf_single h0 h, chkPieces, piece]

/-- A store to memory of world 0 takes its rights and reads nothing (R200). -/
theorem State.chkPiece_store_world {s : State} {who : Asker} {q : Req} {va n a pa : Nat} {rt : Rights} (mem : aperOf va = .mem)
    (kind : q.kind = 1) (outer : q.world = 0) (rights : s.storeRights q va = .ok a pa rt) (room : s.l1Full q.iid (secKey a va) = false)
    (world : (s.die (paDie pa)).world = 0) : s.chkPiece who q va n = (.ok, s) := by
  have fetched : s.storeFetch q va = (.ok a pa rt, s) := by
    simp only [State.storeFetch, rights, room, Bool.false_eq_true, if_false, State.plainAt_of_world world, Bool.true_or, if_true]
  simp [State.chkPiece, mem, kind, outer, fetched]

theorem Inst.find_of_l1Find {i : Inst} {tags : List Nat} {va a : Nat} {z : L1Sec} (h : i.l1Find tags va = some (a, z)) :
    find? i.l1 (secKey a va) = some z := by
  obtain ⟨b, -, hb⟩ := List.exists_of_findSome?_eq_some h
  obtain ⟨x, hx, e⟩ := Option.map_eq_some_iff.1 hb
  cases e
  exact hx

theorem mem_of_find? {β : Type} {m : SMap β} {k : Nat} {x : β} (h : find? m k = some x) : (k, x) ∈ m := by
  induction m with
  | nil => cases h
  | cons p r ih =>
    rw [find?] at h
    split at h
    · next e =>
      cases h
      rw [e]
      exact List.mem_cons_self
    · exact List.mem_cons_of_mem _ (ih h)

/-- A line that L1 has needs no room. -/
theorem State.l1Full_of_find {s : State} {iid key : Nat} {z : L1Sec} (h : find? (s.inst iid).l1 key = some z) :
    s.l1Full iid key = false := by
  have there : ((s.inst iid).l1.any fun p => p.1 / 4 == key / 4) = true :=
    List.any_eq_true.2 ⟨(key, z), mem_of_find? h, beq_self_eq_true _⟩
  simp [State.l1Full, there]

theorem State.storeRights_of_l1 {s : State} {q : Req} {va a : Nat} {z : L1Sec} (h : (s.inst q.iid).l1Find (s.tags q.ctx) va = some (a, z))
    (granted : z.rights.refusal q.kind q.priv = none) : s.storeRights q va = .ok a z.pa z.rights := by
  simp only [State.storeRights, h, granted]

/-- A store of a sealed world to a sector that L1 has takes the rights of L1's copy, once the writes that its die knows of have reached the
sector's home (R200, R244). -/
theorem State.chkPiece_store_l1 {s : State} {who : Asker} {q : Req} {va n a : Nat} {z : L1Sec} (mem : aperOf va = .mem)
    (kind : q.kind = 1) (sealed : q.world ≠ 0) (found : (s.inst q.iid).l1Find (s.tags q.ctx) va = some (a, z))
    (granted : z.rights.refusal q.kind q.priv = none) (ready : s.vcReady (s.home q.ctx va) (s.die q.die).vc = true)
    (own : s.ownWaits q va = false) : s.chkPiece who q va n = (.ok, s.vcLearn q.die (s.home q.ctx va)) := by
  have fetched : s.storeFetch q va = (.ok a z.pa z.rights, s) := by
    simp only [State.storeFetch, State.storeRights_of_l1 found granted, State.l1Full_of_find (Inst.find_of_l1Find found), found,
      Option.isSome_some, Bool.or_true, Bool.false_eq_true, if_false, if_true]
  simp [State.chkPiece, mem, kind, sealed, ready, own, fetched]

/-- A store through the physical aperture to a sector that no interval logs (R194, R289). -/
theorem State.chkPiece_store_phys {s : State} {who : Asker} {q : Req} {va n pa : Nat} (phys : aperOf va = .phys) (kind : q.kind = 1)
    (address : s.aperPa q va = .ok pa) (world : (s.die (paDie pa)).world = 0) (unlogged : s.undoers pa = []) :
    s.chkPiece who q va n = (.ok, s) := by
  simp [State.chkPiece, phys, kind, address, State.undoOk_of_unlogged (State.plainAt_of_world world) unlogged]

/-! ### A die learns of another's clock (R244) -/

theorem State.vcLearn_die (s : State) (d src k : Nat) : ((s.vcLearn d src).die k).world = (s.die k).world ∧
    ((s.vcLearn d src).die k).worldKey = (s.die k).worldKey ∧ ((s.vcLearn d src).die k).l2 = (s.die k).l2 := by
  unfold State.vcLearn
  split
  · exact ⟨rfl, rfl, rfl⟩
  · by_cases h : k = d
    · subst h
      rw [State.die_modDie_self]
      exact ⟨rfl, rfl, rfl⟩
    · have e : (s.modDie d fun x => { x with vc := vcMax x.vc (s.die src).vc }).die k = s.die k := sget_sset_ne _ _ _ h
      rw [e]
      exact ⟨rfl, rfl, rfl⟩

theorem State.vcLearn_frame (s : State) (d src : Nat) : (s.vcLearn d src).insts = s.insts ∧ (s.vcLearn d src).mem = s.mem ∧
    (s.vcLearn d src).cores = s.cores ∧ (s.vcLearn d src).ops = s.ops ∧ (s.vcLearn d src).ctxs = s.ctxs := by
  unfold State.vcLearn
  split <;> exact ⟨rfl, rfl, rfl, rfl, rfl⟩

theorem State.vcLearn_crypt (s : State) (d src pa major minor : Nat) (data : List Byte) :
    (s.vcLearn d src).crypt pa major minor data = s.crypt pa major minor data := by
  obtain ⟨world, key, -⟩ := s.vcLearn_die d src (paDie pa)
  have plain : (s.vcLearn d src).plainAt pa = s.plainAt pa := by rw [State.plainAt, State.plainAt, State.worldOf, State.worldOf, world]
  rw [State.crypt, State.crypt, plain, State.worldOf, State.worldOf, world, key]

/-! ### The end of a store -/

theorem State.regionLog_none {s : State} {iid tid : Nat} (id : Nat) (xs : List UndoSec)
    (h : ((s.inst iid).hw ((s.inst iid).hwOf tid)).regions = []) : s.regionLog iid tid id xs = (none, s) := by
  simp [State.regionLog, h]

theorem State.op?_of_ops {s t : State} (h : t.ops = s.ops) (id : Nat) : t.op? id = s.op? id := by
  rw [State.op?, h, State.op?]

/-- The last word of a store is over: what it has stored stays as it is. -/
theorem State.nextWord_sameData {t : State} {o : PendOp} {p : Part} (last : numWords o.ins ≤ p.done + 1) (ho : t.op? o.id = some o)
    (sf : o.sf = []) : t.SameData ((t.sibling o.iid p.tid).nextWord o p) := by
  have ho' : (((t.sibling o.iid p.tid).dropWant (.op o.id p.tid)).op? o.id) = some o := ho
  rw [State.nextWord, if_neg (Nat.not_lt.2 last)]
  exact (t.sibling_sameData _ _).trans ((State.dropWant_sameData _ _).trans (State.partDone_sameData p.tid ho' sf))

/-- A store of one word whose check passes performs it and is over. -/
theorem State.performStore_of_check {s u : State} {o : PendOp} {p : Part} {c : Ctl} {ty : Ty} {h : Hint} {x : O2} (ins : o.ins = .st c ty h x)
    (done : p.done = 0) (near : aperOf (p.arg 0).toNat ≠ .peer)
    (checked : s.accCheck (.op o.id p.tid) (s.req o.iid p.tid 1) (p.arg 0).toNat (tyBytes ty) = (.ok, u))
    (outside : ((u.inst o.iid).hw ((u.inst o.iid).hwOf p.tid)).regions = []) :
    s.performStore o p = ((u.storeBytes (s.req o.iid p.tid 1) (p.arg 0).toNat (bytesOf (tyBytes ty) (p.data 0).toNat)).sibling o.iid p.tid).nextWord
      o p := by
  have word : storeWord o p = ((p.arg 0).toNat, bytesOf (tyBytes ty) (p.data 0).toNat) := by
    simp [storeWord, ins, accPieces, done]
  have single : overSectors o.ins (p.arg 0).toNat (tyBytes ty) = false := by
    simp [overSectors, ins]
  unfold State.performStore
  simp only [word, length_bytesOf, beq_eq_false_iff_ne.2 near, Bool.and_false, Bool.false_eq_true, if_false, checked, single,
    State.regionLog_none _ _ outside, State.putWord]

/-- The bytes of a store that lies in one sector. -/
theorem State.storeBytes_single (u : State) (q : Req) {va : Nat} {bs : List Byte} (h0 : 0 < bs.length) (h : va % 32 + bs.length ≤ 32) :
    u.storeBytes q va bs = u.storePiece q va bs := by
  unfold State.storeBytes
  rw [sectorsOf_single h0 h]
  simp only [List.foldl_cons, List.foldl_nil, Nat.sub_self, List.drop_zero, List.take_length]

/-! ### Where ST leaves its bytes -/

/-- ST to ordinary memory, checked in `u`, leaves its bytes in its instance's L1. -/
theorem State.performStore_mem {s u : State} {o : PendOp} {p : Part} {c : Ctl} {ty : Ty} {h : Hint} {x : O2} {j : Inst} {a pa : Nat}
    {rt : Rights} (ins : o.ins = .st c ty h x) (done : p.done = 0) (sf : o.sf = []) (mem : aperOf (p.arg 0).toNat = .mem)
    (aligned : (p.arg 0).toNat % tyBytes ty = 0)
    (checked : s.accCheck (.op o.id p.tid) (s.req o.iid p.tid 1) (p.arg 0).toNat (tyBytes ty) = (.ok, u)) (ho : u.op? o.id = some o)
    (hj : u.inst? o.iid = some j) (outside : (j.hw (j.hwOf p.tid)).regions = [])
    (rights : u.storeRights (s.req o.iid p.tid 1) (p.arg 0).toNat = .ok a pa rt)
    (same : ∀ z, find? j.l1 (secKey a (p.arg 0).toNat) = some z → z.pa = pa) :
    ∃ y, u.L1Stored (s.performStore o p) o.iid (secKey a (p.arg 0).toNat) pa ((p.arg 0).toNat % 32)
      (bytesOf (tyBytes ty) (p.data 0).toNat) y := by
  have inst : u.inst o.iid = j := State.inst_of_inst? hj
  have one : (p.arg 0).toNat % 32 + (bytesOf (tyBytes ty) (p.data 0).toNat).length ≤ 32 := by
    rw [length_bytesOf]
    exact aligned_in_sector aligned
  have last : numWords o.ins ≤ p.done + 1 := by
    rw [ins, done]
    exact le_rfl
  rw [State.performStore_of_check ins done (by rw [mem]; decide) checked (by rw [inst]; exact outside),
    State.storeBytes_single _ _ (by rw [length_bytesOf]; exact tyBytes_pos ty) one]
  simp only [State.storePiece, mem, rights]
  obtain ⟨y, stored⟩ := State.l1Put_stored (q := s.req o.iid p.tid 1) hj rt one fun z hz => same z (inst ▸ hz)
  exact ⟨y, stored.ended (State.nextWord_sameData last ho sf)⟩

/-- ST through the physical aperture to memory of world 0 that no interval logs. -/
theorem State.performStore_phys {s : State} {o : PendOp} {p : Part} {c : Ctl} {ty : Ty} {h : Hint} {x : O2} {i : Inst} {pa : Nat}
    (ins : o.ins = .st c ty h x) (done : p.done = 0) (sf : o.sf = []) (phys : aperOf (p.arg 0).toNat = .phys)
    (aligned : (p.arg 0).toNat % tyBytes ty = 0) (span : spanOk (p.arg 0).toNat (tyBytes ty) = true)
    (first : s.behind (.op o.id p.tid) = false) (ho : s.op? o.id = some o) (hi : s.inst? o.iid = some i)
    (outside : (i.hw (i.hwOf p.tid)).regions = []) (address : s.aperPa (s.req o.iid p.tid 1) (p.arg 0).toNat = .ok pa)
    (world : (s.die (paDie pa)).world = 0) (mem : paWindow pa = false) (unlogged : s.undoers pa = []) :
    ∃ t : State, t.SameData (s.performStore o p) ∧ t.insts = s.insts ∧ t.cores = s.cores ∧ t.dies = s.dies ∧
      (∀ k, k < tyBytes ty → t.byteAt (pa + k) = nthByte (bytesOf (tyBytes ty) (p.data 0).toNat) k) ∧
      ∀ a, a < pa ∨ pa + tyBytes ty ≤ a → t.byteAt a = s.byteAt a := by
  have inst : s.inst o.iid = i := State.inst_of_inst? hi
  have last : numWords o.ins ≤ p.done + 1 := by
    rw [ins, done]
    exact le_rfl
  have pos := tyBytes_pos ty
  have fits := aligned_in_sector aligned
  have low : pa % 32 = (p.arg 0).toNat % 32 := by
    have : pa = (p.arg 0).toNat % 2 ^ 48 := by
      unfold State.aperPa at address
      dsimp only at address
      split at address
      · cases address
      · split at address
        · cases address
        · split at address
          · cases address
          · exact (Except.ok.inj address).symm
    omega
  generalize hbs : bytesOf (tyBytes ty) (p.data 0).toNat = bs
  have len : bs.length = tyBytes ty := by rw [← hbs, length_bytesOf]
  have logged : s.undoAppend pa noVa = s := by
    unfold State.undoAppend
    dsimp only
    rw [State.undoers_sector, unlogged]
    rfl
  rw [State.performStore_of_check ins done (by rw [phys]; decide)
      (State.accCheck_single pos fits span first (State.chkPiece_store_phys phys rfl address world unlogged)) (by rw [inst]; exact outside),
    hbs, State.storeBytes_single _ _ (by omega) (by omega)]
  simp only [State.storePiece, phys, address, mem, Bool.false_eq_true, if_false, logged]
  obtain ⟨xs, e, hx, bytes⟩ := State.setPaBytes_of_world (bs := bs) world mem (by omega) (by omega)
    (by rw [len]; cases ty <;> decide)
  rw [e]
  obtain ⟨inside, beside⟩ := State.byteAt_putSector hx (by omega) bytes
  rw [len] at inside beside
  exact ⟨_, State.nextWord_sameData last (by rw [State.op?_of_ops (s.setBytes_ops _ _), ho]) sf, s.setBytes_insts _ _, s.setBytes_cores _ _,
    s.setBytes_dies _ _, inside, beside⟩

theorem State.partStep_st {s : State} {o : PendOp} {p : Part} {c : Ctl} {ty : Ty} {h : Hint} {x : O2} (ins : o.ins = .st c ty h x)
    (live : s.muted o.iid p.tid o.id = false) (free : s.blocked o p = false) (plain : p.seqNo = 0)
    (lead : (s.inst o.iid).trailing = false) : s.partStep o p = s.performStore o p := by
  have row : s.partStep o p = s.storeStep o p := by
    unfold State.partStep
    rw [ins]
  rw [row, State.storeStep]
  simp only [live, free, plain, lead, Bool.false_and, Bool.or_self, bne_self_eq_false, Bool.false_eq_true, if_false]

/-! ### Where STS leaves its bytes -/

/-- STS at an aligned offset inside the allocation stores, and its part is over. -/
theorem State.partStep_sts {s : State} {o : PendOp} {p : Part} {c : Ctl} {ty : Ty} {x : O2} {i : Inst} (ins : o.ins = .sts c ty x)
    (live : s.muted o.iid p.tid o.id = false) (free : s.blocked o p = false) (hi : s.inst? o.iid = some i)
    (outside : (i.hw (i.hwOf p.tid)).regions = []) (ho : s.op? o.id = some o) (sf : o.sf = [])
    (aligned : (p.arg 0).toNat % 2 ^ 32 % tyBytes ty = 0) (fits : (p.arg 0).toNat % 2 ^ 32 + tyBytes ty ≤ i.spadSize) :
    (s.spadPut i ((p.arg 0).toNat % 2 ^ 32) (bytesOf (tyBytes ty) (p.arg 1).toNat)).SameData (s.partStep o p) := by
  have inst : s.inst o.iid = i := State.inst_of_inst? hi
  have row : s.partStep o p = s.stsStep o p ty := by
    unfold State.partStep
    rw [ins]
  have has : i.spadHas ((p.arg 0).toNat % 2 ^ 32) (tyBytes ty) = true := decide_eq_true fits
  rw [row, State.stsStep]
  simp only [live, free, inst, aligned, has, Bool.not_true, Bool.false_eq_true, ne_eq, not_true_eq_false, or_self, if_false,
    State.regionLog_none _ _ (inst.symm ▸ outside)]
  exact (State.sibling_sameData _ _ _).trans (State.partDone_sameData p.tid (id := o.id) ho sf)

/-- A change of a core that keeps its REG words shows in no register. -/
theorem State.readLoc_modCore (s : State) (c : Nat) {f : Core → Core} (hf : ∀ k, (f k).reg = k.reg) (iid : Nat) (l : Loc) :
    (s.modCore c f).readLoc iid l = s.readLoc iid l := by
  refine readLoc_of_sameData (s := s) (t := s.modCore c f) (fun k => .refl _) (fun d => ?_) iid l
  by_cases h : d = c
  · rw [h, State.core_modCore_self, hf]
  · rw [State.core_modCore_ne _ _ h]

/-- What STS leaves beside the bytes and lines of its core (R140). -/
theorem State.spadPut_frame (s : State) (i : Inst) (off : Nat) (bs : List Byte) :
    (∀ k, (s.spadPut i off bs).inst k = s.inst k) ∧ (∀ d, (s.spadPut i off bs).die d = s.die d) ∧ (s.spadPut i off bs).mem = s.mem ∧
      (∀ k, k ≠ i.core → (s.spadPut i off bs).core k = s.core k) ∧ ∀ j l, (s.spadPut i off bs).readLoc j l = s.readLoc j l :=
  ⟨fun _ => rfl, fun _ => rfl, rfl, fun _ hk => State.core_modCore_ne _ _ hk, State.readLoc_modCore s _ fun _ => rfl⟩

/-- An instance whose L1 holds a sector is placed. -/
theorem State.inst?_of_l1 {s : State} {iid key : Nat} {z : L1Sec} (h : find? (s.inst iid).l1 key = some z) : ∃ j, s.inst? iid = some j := by
  rw [State.inst] at h
  cases hj : s.inst? iid with
  | some j => exact ⟨j, rfl⟩
  | none =>
    rw [State.inst?] at hj
    rw [hj] at h
    cases h

/-- A sector's plaintext is the same in a state that has learnt of another die's clock. -/
theorem State.vcLearn_plainL1 (s : State) (d src : Nat) : (s.vcLearn d src).plainL1 = s.plainL1 :=
  funext fun _ => s.vcLearn_crypt _ _ _ _ _ _

/-- Settles O58: the scratchpad by `spadPut_core`, L1 by what a store leaves there, memory by the bytes of one sector. -/
theorem storeFrames : Obligations.StoreFrames := by
  unfold Obligations.StoreFrames
  intro s id tid o p c ty h x i hop hpart hi outside live free done sf first
  obtain rfl : o.id = id := State.op?_id hop
  obtain rfl : p.tid = tid := by simpa using List.find?_some hpart
  have inst : s.inst o.iid = i := State.inst_of_inst? hi
  have step : exec (.flagCompletion o.id p.tid) s = .next (s.partStep o p) := by
    rw [exec_flagCompletion, execFlagCompletion]
    simp only [hop, hpart]
  have len (w : Nat) : (bytesOf (tyBytes ty) w).length = tyBytes ty := length_bytesOf _ _
  refine ⟨fun ins => ?sts, fun ins plain lead aligned span => ?st⟩
  case sts =>
    intro off base hal hfit
    have ended := State.partStep_sts ins live free hi outside hop sf hal hfit
    generalize s.partStep o p = t at step ended
    obtain ⟨bytes, beside, lines, acc, icache, -⟩ := s.spadPut_core i off (bytesOf (tyBytes ty) (p.arg 1).toNat)
    obtain ⟨insts, dies, mem, cores, regs⟩ := s.spadPut_frame i off (bytesOf (tyBytes ty) (p.arg 1).toNat)
    rw [len] at bytes beside lines
    change State.SameData (s.spadPut i off (bytesOf (tyBytes ty) (p.arg 1).toNat)) t at ended
    generalize s.spadPut i off (bytesOf (tyBytes ty) (p.arg 1).toNat) = u at *
    rw [← ended.core] at bytes beside lines acc icache
    refine ⟨t, step, bytes, beside, lines, acc, icache, ⟨fun k _ => ?_, fun d => ?_⟩, ?_, fun k hk => ?_, ended.mem.trans mem, fun j l => ?_⟩
    · rw [ended.l1, insts]
    · rw [ended.die, dies]
    · rw [ended.l1, insts, inst]
    · rw [ended.core, cores k hk]
    · rw [ended.readLoc, regs]
  have stores : s.partStep o p = s.performStore o p := State.partStep_st ins live free plain (inst.symm ▸ lead)
  rw [stores] at step
  have pos := tyBytes_pos ty
  have fits := aligned_in_sector aligned
  intro ds put
  have put_eq (old : List Byte) (k : Nat) : putBytes ((p.arg 0).toNat % 32) ds old k = put old k := by
    simp only [putBytes, put, ds, len]
  refine ⟨fun a pa rt mem rights world outer room same => ?outer, fun a z mem inner found granted ready own => ?sealed,
    fun u a pa rt z mem checked hu rights found address home away => ?checked, fun pa phys address world window unlogged => ?phys⟩
  case outer =>
    obtain ⟨y, e⟩ := State.performStore_mem ins done sf mem aligned
      (State.accCheck_single pos fits span first (State.chkPiece_store_world mem rfl outer rights room world)) hop hi outside rights same
    have bare (w : L1Sec) (hw : w.pa = pa) : s.plainL1 w = w.data := by
      rw [State.plainL1, hw, State.crypt_of_plain (State.plainAt_of_world world)]
    have old : (find? i.l1 (secKey a (p.arg 0).toNat)).elim [] s.plainL1 = (find? i.l1 (secKey a (p.arg 0).toNat)).elim [] (·.data) := by
      cases hz : find? i.l1 (secKey a (p.arg 0).toNat) with
      | none => rfl
      | some z => exact bare z (same z hz)
    have bytes := e.bytes
    have sectors := e.sectors
    have dirty := e.dirty
    rw [inst, old, bare y e.address] at bytes
    rw [inst] at sectors
    rw [len] at dirty
    exact ⟨_, y, step, e.sector, fun k hk => (bytes k hk).trans (put_eq _ _), dirty, sectors, ⟨e.others, fun d => by rw [State.die, e.dies, State.die]⟩,
      e.mem, e.cores, e.dies, e.regs⟩
  case sealed =>
    have checked := State.accCheck_single pos fits span first (State.chkPiece_store_l1 mem rfl inner (inst.symm ▸ found) granted ready own)
    obtain ⟨insts, hmem, cores, ops, ctxs⟩ := s.vcLearn_frame (s.req o.iid p.tid 1).die (s.home (s.req o.iid p.tid 1).ctx (p.arg 0).toNat)
    have dies := s.vcLearn_die (s.req o.iid p.tid 1).die (s.home (s.req o.iid p.tid 1).ctx (p.arg 0).toNat)
    have plainL1 := s.vcLearn_plainL1 (s.req o.iid p.tid 1).die (s.home (s.req o.iid p.tid 1).ctx (p.arg 0).toNat)
    generalize s.vcLearn (s.req o.iid p.tid 1).die (s.home (s.req o.iid p.tid 1).ctx (p.arg 0).toNat) = u at *
    have same (k : Nat) : u.inst k = s.inst k := by rw [State.inst, insts, State.inst]
    have hu : u.inst? o.iid = some i := by rw [State.inst?, insts]; exact hi
    have tags : u.tags (s.req o.iid p.tid 1).ctx = s.tags (s.req o.iid p.tid 1).ctx := by
      rw [State.tags, State.ctx, ctxs, State.tags, State.ctx]
    have hz := Inst.find_of_l1Find found
    have rights : u.storeRights (s.req o.iid p.tid 1) (p.arg 0).toNat = .ok a z.pa z.rights :=
      State.storeRights_of_l1 (by rw [same, tags]; exact inst.symm ▸ found) granted
    obtain ⟨y, e⟩ := State.performStore_mem ins done sf mem aligned checked (by rw [State.op?_of_ops ops, hop]) hu outside rights
      fun w hw => by
        rw [hz] at hw
        cases hw
        rfl
    have bytes := e.bytes
    have sectors := e.sectors
    have dirty := e.dirty
    rw [same, inst] at bytes sectors
    rw [len] at dirty
    rw [hz, plainL1] at bytes
    obtain ⟨major, minor⟩ := e.counters z (by rw [same, inst]; exact hz)
    refine ⟨_, y, step, e.sector, fun k hk => (bytes k hk).trans (put_eq _ _), dirty, major, minor, sectors, ⟨fun k hk => ?_, fun d => ?_⟩,
      e.mem.trans hmem, e.cores.trans cores, fun j l => (e.regs j l).trans ?_⟩
    · rw [e.others k hk, same]
    · rw [State.die, e.dies]
      exact (dies d).2.2
    · exact readLoc_of_sameData (fun k => same k ▸ .refl _) (fun d => by rw [State.core, cores, State.core]) j l
  case checked =>
    have hz : ∀ w, find? (u.inst o.iid).l1 (secKey a (p.arg 0).toNat) = some w → w.pa = pa := fun w hw => by
      rw [found] at hw
      cases hw
      exact address
    obtain ⟨j, hj⟩ := State.inst?_of_l1 found
    have at_ := State.inst_of_inst? hj
    obtain ⟨y, e⟩ := State.performStore_mem ins done sf mem aligned checked hu hj (by rw [← at_, home]; exact away) rights (at_ ▸ hz)
    have bytes := e.bytes
    obtain ⟨major, minor⟩ := e.counters z found
    rw [found] at bytes
    exact ⟨_, y, step, e.sector, fun k hk => (bytes k hk).trans (put_eq _ _), major, minor, e.sectors,
      ⟨e.others, fun d => by rw [State.die, e.dies, State.die]⟩, e.mem, e.cores, e.regs⟩
  case phys =>
    obtain ⟨t, e, insts, cores, dies, inside, beside⟩ := State.performStore_phys ins done sf phys aligned span first hop hi outside address world
      window unlogged
    have same (k : Nat) : t.inst k = s.inst k := by rw [State.inst, insts, State.inst]
    have byte (a : Nat) : (s.performStore o p).byteAt a = t.byteAt a := by rw [State.byteAt, e.mem, State.byteAt]
    refine ⟨_, step, fun k hk => (byte _).trans (inside k hk), fun a ha => (byte a).trans (beside a ha), ⟨fun k _ => ?_, fun d => ?_⟩, ?_,
      e.cores.trans cores, fun j l => (e.readLoc j l).trans ?_⟩
    · rw [e.l1, same]
    · rw [e.die, State.die, dies, State.die]
    · rw [e.l1, same, inst]
    · exact readLoc_of_sameData (fun k => same k ▸ .refl _) (fun d => by rw [State.core, cores, State.core]) j l

end Sys2Proof.Machine
end

section
/-!
PROOFS. What the guide's loops, the stores and the scratchpad accesses do at issue (R118, R128, R137 to R159).
-/
namespace Sys2Proof.Machine

/-! ### Loops -/

/-- A transfer that stops the clause leaves what its own part leaves. -/
theorem transfer_stay {s t : State} {is : Issue} {ins : Instr} {c : Ctl} (h : Issues s is ins c [])
    {body : State → Issue → List Run → Did} (hb : body s is (s.runs is c) = .stay t) : transfer ins c body s = .next t := by
  unfold transfer
  rw [inClause_of h.focus, issueIns_of h, hb]

section
variable {s : State} {is : Issue} {c : Ctl} {b : BSrc} {off : BitVec 32} {r : Run} {rs : List Run} (hr : s.runs is c = r :: rs)
include hr

/-- LOOPN with a count of 0 leaves the loop. -/
theorem execLoopn_zero (h : Issues s is (.loopn c b off) c []) (hn : (s.srcB is r .n32 b).toNat % 2 ^ 32 = 0)
    (hl : (s.inst is.iid).loops.length < 4) :
    execLoopn c b off s = .next ((s.take is [(r.t.tid, is.direct off)]).settleAt is c) := by
  unfold execLoopn
  refine transfer_of h ?_
  simp only [hr, hn, Nat.not_le.2 hl, if_true, if_false]

/-- LOOPN with a free level and a count pushes a level. -/
theorem execLoopn_push (h : Issues s is (.loopn c b off) c []) (hn : (s.srcB is r .n32 b).toNat % 2 ^ 32 ≠ 0)
    (hl : (s.inst is.iid).loops.length < 4) :
    execLoopn c b off s = .next ((s.modInst is.iid fun i =>
      { i with loops := ⟨is.follow, is.direct off, (s.srcB is r .n32 b).toNat % 2 ^ 32⟩ :: i.loops }).settleAt is c) := by
  unfold execLoopn
  refine transfer_of h ?_
  simp only [hr, hn, Nat.not_le.2 hl, if_false]

/-- LOOPN with four levels in use traps. -/
theorem execLoopn_full (h : Issues s is (.loopn c b off) c []) (hl : 4 ≤ (s.inst is.iid).loops.length) :
    execLoopn c b off s = .next (s.trapAll is 17 0x2C0 0) := by
  unfold execLoopn
  refine transfer_stay h ?_
  simp only [hr, hl, if_true]

/-- LOOPEND pops the innermost level and goes to its end. -/
theorem execLoopend_pop {l : LoopLv} {ls : List LoopLv} (h : Issues s is (.loopend c) c []) (hl : (s.inst is.iid).loops = l :: ls) :
    execLoopend c s = .next (((s.modInst is.iid fun i => { i with loops := ls }).take is [(r.t.tid, l.stop)]).settleAt is c) := by
  unfold execLoopend
  refine transfer_of h ?_
  simp only [hr, hl]

end

/-- LOOPEND without a level does nothing. -/
theorem execLoopend_none {s : State} {is : Issue} {c : Ctl} (h : Issues s is (.loopend c) c [])
    (hl : (s.inst is.iid).loops = []) : execLoopend c s = .next (s.settleAt is c) := by
  unfold execLoopend
  refine transfer_of h ?_
  rw [hl]
  cases s.runs is c <;> rfl

/-- Settles O28, from the five ways in which the loop instructions end. -/
theorem guideLoops : Obligations.GuideLoops := by
  unfold Obligations.GuideLoops
  intro s is c b off r rs hr
  exact ⟨execLoopn_zero hr, execLoopn_push hr, execLoopn_full hr, fun _ _ => execLoopend_pop hr, execLoopend_none⟩

/-! ### Stores and scratchpad accesses -/

/-- Settles O36: each of the seven is a numbered store, which the rule `storeOp_of` covers. -/
theorem storesStart : Obligations.StoresStart := by
  unfold Obligations.StoresStart
  intro s is c ty h op aty o2 o3 a b d n x k s128
  simp only [List.forall_mem_cons, List.not_mem_nil, false_imp_iff, implies_true, and_true, exec_st, exec_stm, exec_atom,
    exec_atomcas, exec_red, exec_prepair, exec_mcast, execSt, execStm, execAtom, execAtomcas, execRed, execPrepair, execMcast]
  exact ⟨fun i => storeOp_of i _ _, fun i => storeOp_of i _ _, fun i => storeOp_of i _ _, fun i => storeOp_of i _ _,
    fun i => storeOp_of i _ _, fun i => storeOp_of i _ _, fun i => storeOp_of i _ _⟩

/-- A scratchpad load that waits for no line goes in flight. -/
theorem spadOp_load {s : State} {is : Issue} {ins : Instr} {c : Ctl} (h : Issues s is ins c [])
    (f : State → Issue → Run → List DWord) (hk : accKind ins = some .load)
    (hl : s.lineWaits is ins ((s.runs is c).map fun r => (r, f s is r)) = []) :
    spadOp ins c true f s = .next (s.inFlight is ins c ((s.runs is c).map fun r => partOf r (f s is r)) []) := by
  rw [spadOp_of h true f (fun _ => hl) (.inl hk), hk]
  rfl

/-- A storing scratchpad access that waits for no line, with a free slot for its record, goes in flight. -/
theorem spadOp_store {s : State} {is : Issue} {ins : Instr} {c : Ctl} (h : Issues s is ins c []) (parks : Bool)
    (f : State → Issue → Run → List DWord) (hk : (accKind ins == some .load) = false)
    (hl : parks = true → s.lineWaits is ins ((s.runs is c).map fun r => (r, f s is r)) = [])
    (hq : s.fullHeld is (s.runs is c) = false) :
    spadOp ins c parks f s = .next
      ((s.feedStores is ins ((s.runs is c).map fun r => partOf r (f s is r))).inFlight is ins c
        ((s.runs is c).map fun r => partOf r (f s is r)) []) := by
  rw [spadOp_of h parks f hl (.inr hq), hk]
  rfl

/-- Settles O37: LDS and LDT are loads, STS, ATOMS and ATOMSCAS store. -/
theorem scratchpadOperations : Obligations.ScratchpadOperations := by
  unfold Obligations.ScratchpadOperations
  intro s is c ty op aty w o2 o3
  simp only [List.forall_mem_cons, List.not_mem_nil, false_imp_iff, implies_true, and_true, forall_const, true_or,
    Bool.false_eq_true, false_or, if_true, if_false, exec_lds, exec_ldt, exec_sts, exec_atoms, exec_atomscas, execLds, execLdt,
    execSts, execAtoms, execAtomscas]
  exact ⟨fun h hl => spadOp_load h _ rfl hl, fun h hl => spadOp_load h _ rfl hl,
    fun h hq => spadOp_store h false _ rfl (by simp) hq,
    fun h hl hq => spadOp_store h true _ rfl (fun _ => hl) hq,
    fun h hl hq => spadOp_store h true _ rfl (fun _ => hl) hq⟩

end Sys2Proof.Machine
end

section
/-! PROOFS. Generator mode at issue (R123 to R126, R154, R155). -/
namespace Sys2Proof.Machine

/-- Where an instruction issues and its own part goes on, it leaves what that part leaves, one step past it. -/
theorem issued_go {s t : State} {is : Issue} {ins : Instr} {c : Ctl} {more : Issue → List RU} {body : Issue → State → Issue → Did}
    (h : Issues s is ins c (more is)) (hb : body is s is = .go t) :
    inClause s (fun is => s.issueIns is ins c (more is) (body is)) = .next (t.past is c) := by
  rw [inClause_of h.focus, issueIns_of h, hb]

/-- A change of an instance that changes nothing leaves the state. -/
theorem State.modInst_id (s : State) (iid : Nat) : (s.modInst iid fun i => i) = s := by
  have hm : smod s.insts iid (fun i => i) = s.insts := by
    unfold smod
    conv => rhs; rw [← List.map_id s.insts]
    refine List.map_congr_left fun p _ => ?_
    split <;> rfl
  simp only [State.modInst, hm]

section
variable {s : State} {is : Issue} {c : Ctl} {w t a : Nat} {cons exit : BitVec 16} {k : Basket}

/-- The Basket that GEN.OPEN of a clause sets up. -/
def openBasket (is : Issue) (w t : Nat) (cons exit : BitVec 16) : Basket :=
  { w, t, f0 := Frame.empty, f1 := Frame.empty, filling := false, consEntry := is.label cons, exitHdr := is.label exit
    yielded := false, consuming := none, draining := false, nexted := [], ages := 0 }

/-- GEN.OPEN of a whole home warp without a Basket opens the mode. -/
theorem execGenOpen_whole (h : Issues s is (.genOpen c w t cons exit) c [])
    (hb : ((s.inst is.iid).hw ((s.inst is.iid).hwOf (lowest is.lanes).tid)).basket = none) (ho : is.gopen = none)
    (hl : is.lanes.length = 32) (hr : (s.runs is c).length = 32)
    (hw : ∀ l ∈ is.lanes, (s.inst is.iid).hwOf l.tid = (s.inst is.iid).hwOf (lowest is.lanes).tid) :
    execGenOpen c w t cons exit s = .next (((s.startOp is (.genOpen c w t cons exit) c
      ((s.runs is c).map fun r => partOf r []) []).setIssue { is with gopen := some (openBasket is w t cons exit) }).past is c) := by
  have hne : (s.runs is c).isEmpty = false := by
    rw [List.isEmpty_eq_false_iff_exists_mem]
    exact List.exists_mem_of_length_pos (by omega)
  have hall : (is.lanes.all fun l => (s.inst is.iid).hwOf l.tid == (s.inst is.iid).hwOf (lowest is.lanes).tid) = true :=
    List.all_eq_true.2 fun l hm => beq_iff_eq.2 (hw l hm)
  unfold execGenOpen
  refine issued_go h ?_
  simp only [State.basketOf, hne, hb, ho, hl, hr, hall, Option.isSome_none, beq_self_eq_true, Bool.and_self, Bool.not_true,
    Bool.or_self, Bool.false_eq_true, if_false, partPer]
  rfl

section
variable (hk : ((s.inst is.iid).hw ((s.inst is.iid).hwOf (lowest is.lanes).tid)).basket = some k)
include hk

theorem State.basketOf_some : s.basketOf is = ((s.inst is.iid).hwOf (lowest is.lanes).tid, some k) := by
  simp only [State.basketOf, hk]

theorem entryRegs_some : entryRegs a s is = [⟨a, k.w, false⟩] := by
  simp only [entryRegs, State.basketOf_some hk]

/-- YIELD of producers puts their entries into the Basket. -/
theorem execYield_producer (h : Issues s is (.yield c a) c [⟨a, k.w, false⟩]) (hr : s.runs is c ≠ []) (hc : k.consuming = none)
    (hy : k.yielded = false) :
    execYield c a s = .next (((s.modHw is.iid ((s.inst is.iid).hwOf (lowest is.lanes).tid) fun w =>
      { w with basket := some { (s.runs is c).foldl (fun (k : Basket) r =>
          k.push ((s.ownRange is r a k.w).map fun x => x.setWidth 32)) k with yielded := true } }).startOp is (.yield c a) c
        ((s.runs is c).map fun r => partOf r []) []).past is c) := by
  unfold execYield
  rw [← entryRegs_some hk] at h
  refine issued_go h ?_
  simp only [State.basketOf_some hk, List.isEmpty_eq_false_iff.2 hr, hc, hy, Option.isSome_none, Bool.false_eq_true, if_false,
    partPer]
  rfl

/-- GEN.TAKE in consume mode reads the entries of the frame being consumed. -/
theorem execGenTake_consuming {fr : Bool} (h : Issues s is (.genTake c a) c [⟨a, k.w, false⟩]) (hc : k.consuming = some fr) :
    execGenTake c a s = .next (s.inFlight is (.genTake c a) c ((s.runs is c).map fun r => partOf r ((List.range k.w).map fun j =>
      ((((k.frame fr).entries.getD ((s.inst is.iid).laneOf r.t.tid) []).getD j 0).setWidth 64))) [⟨a, k.w, false⟩]) := by
  unfold execGenTake
  rw [← entryRegs_some hk] at h
  refine issued_go h ?_
  simp only [State.basketOf_some hk, entryRegs_some hk, hc, partPer]
  rfl

/-- GEN.NEXT in consume mode ends the consumers at the clause's end. -/
theorem execGenNext_consuming (h : Issues s is (.genNext c) c []) (hc : k.consuming.isSome) :
    execGenNext c s = .next (((s.fixedFlag is c 1).1.setIssue
      { (s.fixedFlag is c 1).2 with gend := some (.next ((s.runs is c).map (·.t.tid))) }).past is c) := by
  unfold execGenNext
  refine issued_go h ?_
  simp only [State.basketOf_some hk, Option.isNone_eq_false_iff.2 hc, Bool.false_eq_true, if_false]

/-- A switch point outside consume mode, in a context that neither records nor replays, marks its pending lanes. -/
theorem switchOp_producer {ins : Instr} {pends : Bool} (hc : k.consuming = none) (hp : s.plain (s.inst is.iid).ctx)
    (h : Issues s is ins c []) :
    switchOp ins c pends s = .next
      (let t := s.modInst is.iid fun i => (if pends then (s.runs is c).map (·.t.tid) else []).foldl (fun i t =>
          i.modTh t fun th => { th with pended := true }) i
       ((t.fixedFlag is c 1).1.setIssue { (t.fixedFlag is c 1).2 with gend := some .point }).past is c) := by
  unfold switchOp
  refine issued_go h ?_
  simp only [State.basketOf_some hk, hc, Option.isSome_none, Bool.false_eq_true, if_false, State.gate_plain hp, Bool.not_true]

/-- GEN.POINT marks no lane. -/
theorem execGenPoint_producer (hc : k.consuming = none) (hp : s.plain (s.inst is.iid).ctx) (h : Issues s is (.genPoint c) c []) :
    execGenPoint c s = .next (((s.fixedFlag is c 1).1.setIssue { (s.fixedFlag is c 1).2 with gend := some .point }).past is c) := by
  unfold execGenPoint
  rw [switchOp_producer hk hc hp h]
  simp only [Bool.false_eq_true, if_false, List.foldl_nil, State.modInst_id]

end

end

/-- Settles O42, from what each instruction of the group does in the mode that it is for. -/
theorem generatorMode : Obligations.GeneratorMode := by
  unfold Obligations.GeneratorMode
  intro s is c w t a cons exit k fr
  exact ⟨execGenOpen_whole, fun hk => ⟨execYield_producer hk, execGenTake_consuming hk, execGenNext_consuming hk,
    fun hc h1 h2 => ⟨execGenPoint_producer hk hc ⟨h1, h2⟩, switchOp_producer hk hc ⟨h1, h2⟩⟩⟩⟩

end Sys2Proof.Machine
end

section
/-! PROOFS. The waits at issue that end: decision queue, stage queues, register growth (R119, R127, R156, R160, R161). -/
namespace Sys2Proof.Machine

/-! ### Queues -/

/-- A change of a core that keeps its REG words changes no register that a run reads. -/
theorem State.ownReg_modCore (s : State) (is : Issue) (r : Run) (reg core : Nat) {f : Core → Core} (hf : ∀ k, (f k).reg = k.reg) :
    (s.modCore core f).ownReg is r reg = s.ownReg is r reg := by
  have fixed (l : Loc) (need : Nat) : (s.modCore core f).readFixed is l need = s.readFixed is l need := by
    have inst : (s.modCore core f).inst is.iid = s.inst is.iid := rfl
    have held : (s.modCore core f).heldAt is l = s.heldAt is l := by
      simp only [State.heldAt, State.readLoc_modCore s core hf]
    simp only [State.readFixed, inst, held]
    rfl
  simp only [State.ownReg, State.srcReg, State.laneReg, fixed]
  rfl

section
variable {s : State} {is : Issue} {c : Ctl} {a q pp d : Nat}

/-- DQPUSH with a permit takes it and goes in flight. -/
theorem execDqpush_permit (h : Issues s is (.dqpush c a) c []) (hr : s.runs is c ≠ [])
    (hp : (s.core (s.inst is.iid).core).permits ≠ 0) :
    execDqpush c a s = .next ((s.modCore (s.inst is.iid).core fun k => { k with permits := k.permits - 1 }).inFlight is
      (.dqpush c a) c ((s.runs is c).map fun r => partOf r [s.ownReg is r a, s.ownReg is r (a + 1)]) []) := by
  unfold execDqpush
  refine issued_go h ?_
  simp only [List.isEmpty_eq_false_iff.2 hr, beq_eq_false_iff_ne.2 hp, Bool.and_false, Bool.false_eq_true, if_false, partPer,
    State.ownReg_modCore s is _ _ (s.inst is.iid).core (f := fun k => { k with permits := k.permits - 1 }) fun _ => rfl]
  rfl

/-- The registers of a record of a queue whose checks pass. -/
theorem State.sqRegs_ok {i : Inst} {push : Bool} {x : StageQ} (hx : s.sqCheck i q a push = .ok x) :
    s.sqRegs i q a push = [⟨a, x.recSize / 8, false⟩] := by
  simp only [State.sqRegs, hx]

/-- SQPUSH to a queue with room on every side that the instance's own record goes to. -/
theorem execSqpush_room {x : StageQ} (h : Issues s is (.sqpush c a q) c [⟨a, x.recSize / 8, false⟩]) (hr : s.runs is c ≠ [])
    (hx : s.sqCheck (s.inst is.iid) q a true = .ok x)
    (hroom : ∀ t ∈ (s.inst is.iid).sides (s.pairedStage (s.inst is.iid) x.consumer),
      (x.held t).length + s.sqGoing (s.inst is.iid) q < x.cap) :
    execSqpush c a q s = .next (s.inFlight is (.sqpush c a q) c ((s.runs is c).map fun r => partOf r
      ([7, 0, 0] ++ (List.range (x.recSize / 8)).map fun k => s.ownReg is r (a + k))) []) := by
  have hfree : ((s.inst is.iid).sides (s.pairedStage (s.inst is.iid) x.consumer)).any (fun t =>
      decide (x.cap ≤ (x.held t).length + s.sqGoing (s.inst is.iid) q)) = false :=
    List.any_eq_false.2 fun t ht => by simpa using hroom t ht
  unfold execSqpush
  rw [← State.sqRegs_ok hx] at h
  refine issued_go h ?_
  simp only [List.isEmpty_eq_false_iff.2 hr, hx, hfree, Bool.false_eq_true, if_false, partPer]
  rfl

section
variable {x : StageQ} {l : Launch} (hx : s.sqCheck (s.inst is.iid) q d false = .ok x)
  (hl : s.launchOf (s.inst is.iid) = some l) (hr : s.runs is c ≠ [])
  (h : Issues s is (.sqpop c pp d q) c [⟨d, x.recSize / 8, false⟩])
include hx hl hr h

/-- SQPOP of an empty queue whose producers are over completes without a record. -/
theorem execSqpop_over (he : x.held (s.inst is.iid).trailing = []) (ho : s.stageOver l x.producer = true) :
    execSqpop c pp d q s = .next (s.inFlight is (.sqpop c pp d q) c ((s.runs is c).map fun r => partOf r []) []) := by
  unfold execSqpop
  rw [← State.sqRegs_ok hx] at h
  refine issued_go h ?_
  simp only [List.isEmpty_eq_false_iff.2 hr, hx, hl, he, ho, Bool.not_true, Bool.false_eq_true, if_false, partPer]
  rfl

/-- SQPOP of a queue with a record takes the first one. -/
theorem execSqpop_record {r : List DWord} {rest : List (List DWord)} (he : x.held (s.inst is.iid).trailing = r :: rest)
    (hp : s.plain (s.inst is.iid).ctx) :
    execSqpop c pp d q s = .next ((s.modQueue (s.inst is.iid).launch q fun x =>
      (x.put (s.inst is.iid).trailing rest).count (s.inst is.iid).trailing).inFlight is (.sqpop c pp d q) c
        ((s.runs is c).map fun p => partOf p r) [⟨d, x.recSize / 8, false⟩]) := by
  unfold execSqpop
  have h' := h
  rw [← State.sqRegs_ok hx] at h'
  refine issued_go h' ?_
  simp only [List.isEmpty_eq_false_iff.2 hr, hx, hl, he, State.gate_plain hp, State.sqRegs_ok hx, Bool.not_true,
    Bool.false_eq_true, if_false, partPer]
  rfl

end

end

/-! ### Growth -/

/-- A single run is the part of its home warp. -/
theorem partHw_single (f : State → Issue → Run → List DWord) (s : State) (is : Issue) (r : Run) :
    partHw f s is [r] = (s, [partOf r (f s is r)]) := by
  simp [partHw, partOf, List.insertionSort]

/-- What REGGROW of one run leaves in flight, by the answer that its request meets at issue. -/
def State.growIssued (s : State) (is : Issue) (c : Ctl) (wait : Bool) (pd : Nat) (b : BSrc) (r : Run) : GrowAns → State
  | .grant v n => (s.modHw is.iid ((s.inst is.iid).hwOf r.t.tid) fun w =>
      { w with moveTo := w.moveTo ++ [(s.nextId, v, n)] }).startOp is (.reggrow c wait pd b) c [partOf r [1]] []
  | .wait => ((s.startOp is (.reggrow c wait pd b) c [partOf r [2]] []).modHw is.iid ((s.inst is.iid).hwOf r.t.tid) fun w =>
      { w with grow := some ⟨(s.srcB is r .b32 b).toNat % 2 ^ 32, pd, s.nextId⟩ }).sleep is.iid r.t.tid .grow
  | .fail | .held => s.startOp is (.reggrow c wait pd b) c [partOf r [0]] []

/-- REGGROW of one home warp, in a context that neither records nor replays and behind no older request that fits. -/
theorem execReggrow_single {s : State} {is : Issue} {c : Ctl} {pd : Nat} {wait : Bool} {b : BSrc} {r : Run} {a : GrowAns}
    (h : Issues s is (.reggrow c wait pd b) c []) (hr : s.runs is c = [r]) (hp : s.plain (s.inst is.iid).ctx)
    (hf : s.growFits (s.inst is.iid).core = [])
    (ha : s.growAsk is.iid ((s.inst is.iid).hwOf r.t.tid) ((s.srcB is r .b32 b).toNat % 2 ^ 32) wait = a) (hh : a ≠ .held) :
    execReggrow c wait pd b s = .next ((s.growIssued is c wait pd b r a).past is c) := by
  unfold execReggrow
  refine issued_go h ?_
  simp only [hr, hf, partHw_single, partOf, Part.arg, List.map_cons, List.map_nil, List.getD_cons_zero, growAll, ha,
    State.gateAll_plain hp]
  cases a with
  | held => exact absurd rfl hh
  | fail => simp [State.growIssued, partOf]
  | wait => simp [State.growIssued, partOf]
  | grant v n =>
    simp [State.growIssued, partOf]
    rfl

/-- Settles O43, from the ends of the waits of each instruction. -/
theorem queuesAndGrowth : Obligations.QueuesAndGrowth := by
  unfold Obligations.QueuesAndGrowth
  intro s is c a q pp d pd wait b
  refine ⟨execDqpush_permit, fun x h hr hx => execSqpush_room h hr hx,
    fun x l hx hl hr h => ⟨execSqpop_over hx hl hr h, fun r rest => execSqpop_record hx hl hr h⟩, fun r h hr hp hf => ?_⟩
  exact ⟨fun ha => execReggrow_single h hr hp hf ha nofun, fun v n ha => execReggrow_single h hr hp hf ha nofun,
    fun ha => execReggrow_single h hr hp hf ha nofun⟩

end Sys2Proof.Machine
end

section
/-!
PROOFS. Where a table of instances lists one number twice, GROWTH_DEADLOCK takes the waiting request from one instance and its
context from the other (R127, R318).
-/
namespace Sys2Proof.Machine

/-- GROWTH_DEADLOCK refuses the one request that waits on a core, where its instance is the one that its number names. -/
theorem execGrowthDeadlock_refuses {s : State} {core iid hw : Nat} {g : Grow} {i : Inst} (named : s.inst iid = i)
    (hp : s.plain i.ctx) (single : (s.insts.filter fun p => p.2.kind == .stage && p.2.core == core) = [(iid, i)])
    (waits : i.hws.filterMap (fun h => h.2.grow.map fun g => (h.1, g)) = [(hw, g)])
    (asleep : ∀ p ∈ i.ths, p.2.status = .exited ∨ ∃ c, p.2.status = .sleeping c) (fits : s.growFits core = [])
    (idle : ∀ o ∈ s.ops, o.iid = iid → o.flag.isSome → sleeps o.ins = true) :
    execGrowthDeadlock core s = .next (s.growAnswer iid hw g .fail) := by
  have request : i.hws.filterMap (fun h => h.2.grow.map fun g => (i.born, iid, h.1, g)) = [(i.born, iid, hw, g)] := by
    have tagged := congrArg (List.map fun x : Nat × Grow => (i.born, iid, x)) waits
    simpa only [List.map_filterMap, Option.map_map, Function.comp_def, List.map_cons, List.map_nil] using tagged
  have live : s.growLogged iid hw = none := by
    simp only [State.growLogged, named, hp.2, Bool.not_false, if_true]
  have quiet : ¬ ∃ o ∈ s.ops, (iid = o.iid ∧ o.flag.isSome = true) ∧ sleeps o.ins = false := by
    rintro ⟨o, ho, ⟨h1, h2⟩, h3⟩
    rw [idle o ho h1.symm h2] at h3
    exact absurd h3 (by decide)
  unfold execGrowthDeadlock
  simp only [single, List.flatMap_cons, List.flatMap_nil, List.append_nil, request, List.all_cons, List.all_nil, fits,
    List.find?_cons, live, List.find?_nil, List.any_cons, List.any_nil, named, hp.2]
  refine (if_neg (by simp)).trans ((if_neg ?_).trans rfl)
  simp only [List.isEmpty_cons, List.isEmpty_nil, Bool.and_true, Bool.or_false, Bool.not_true, Bool.or_eq_true, Bool.not_eq_true',
    Bool.not_eq_false, List.any_eq_true, Bool.and_eq_true, beq_iff_eq, not_or, List.all_eq_true]
  refine ⟨fun p hm => ?_, quiet⟩
  obtain h | ⟨c, h⟩ := asleep p hm <;> rw [h]

/-- A home warp's waiting request for 8 more registers. -/
def twiceGrow : Grow := { granules := 1, pd := 0, op := 0 }

/-- An instance of context 0 on core 0 without threads, one home warp of which waits to grow. -/
def twiceWaiting : Inst :=
  { kind := .stage, ctx := 0, launch := 0, stage := 0, core := 0, no := 0, gang := 1, threads := 0
    hws := [(0, { n := 8, vb := 0, grow := some twiceGrow })] }

/-- A context that replays: the next record of the source that logs the growths of core 1 is of type 0x0F. -/
def twiceReplay : Ctx := { ccb := { rplB := true }, log := { next := [(logSrc 0 4 1, 7, [0x0F])] } }

/-- Number 320 stands for an instance of the replaying context 1 on core 1, and once more for the waiting one. -/
def twiceState : State :=
  { State.reset with insts := [(320, { twiceWaiting with ctx := 1, core := 1, hws := [] }), (320, twiceWaiting)]
                     ctxs := [(1, twiceReplay)] }

/-- The divergence that an outcome leaves in context 1. -/
def outcomeDiverge : Host.Outcome State Fault Refusal → Option (Nat × Nat)
  | .next t => (t.ctx 1).log.diverge
  | _ => none

theorem twiceWaiting_waits : twiceWaiting.hws.filterMap (fun h => h.2.grow.map fun g => (h.1, g)) = [(0, twiceGrow)] := by decide

theorem twiceState_single :
    (twiceState.insts.filter fun p => p.2.kind == .stage && p.2.core == 0) = [(320, twiceWaiting)] := by decide

theorem twiceState_growFits : twiceState.growFits 0 = [] := by decide

/-- The row leaves the replaying context as it is. -/
theorem twiceState_deadlock : outcomeDiverge (exec (.growthDeadlock 0) twiceState) = none := by decide

/-- The refusal meets the record of another type, with which the replay diverges. -/
theorem twiceState_refused : outcomeDiverge (.next (twiceState.growAnswer 320 0 twiceGrow .fail)) = some (3, 7) := by decide

/-- Refutes O46: its row for GROWTH_DEADLOCK takes the waiting instance from the filtered table, but the refusal goes to the instance
that its number names first. In `twiceState` that is another one, whose context replays, so the row does nothing while a refusal
would diverge. With the premise that the number names the waiting instance the row holds (`execGrowthDeadlock_refuses`). -/
theorem not_claimAndMatrixEvents : ¬ Obligations.ClaimAndMatrixEvents := by
  unfold Obligations.ClaimAndMatrixEvents
  intro h
  obtain ⟨-, -, -, deadlock, -⟩ := h twiceState twiceState 0 0 0 0 320 0 0 default twiceGrow .fail
  have row : exec (.growthDeadlock 0) twiceState = .next (twiceState.growAnswer 320 0 twiceGrow .fail) :=
    deadlock twiceWaiting ⟨by decide, by decide⟩ twiceState_single twiceWaiting_waits (by simp [twiceWaiting]) twiceState_growFits
      (by simp [twiceState, State.reset])
  have diverged := congrArg outcomeDiverge row
  rw [twiceState_deadlock, twiceState_refused] at diverged
  exact absurd diverged (by decide)

end Sys2Proof.Machine
end

section
/-! PROOFS. What ACQ, FENCE and REL leave in flight, by what the limit of their context makes of their scope (R147, R253, R274). -/
namespace Sys2Proof.Machine

/-- A release in flight that is performed at scope `d`: where that is device scope or wider, the threads of open pairs take the number
after their last one (R274). -/
def State.releaseFlight (t : State) (is : Issue) (ins : Instr) (c : Ctl) (rs : List Run) (d : Scope) : State :=
  (if 4 ≤ d.code then t.modInst is.iid fun i => rs.foldl (fun i r =>
      if i.inPair r.t.tid then i.modTh r.t.tid (fun t => { t with relN := t.relN + 1 }) else i) i else t).inFlight is ins c
    (rs.map fun r => partOf r [BitVec.ofNat 64 d.code, BitVec.ofNat 64
      (if 4 ≤ d.code ∧ (t.inst is.iid).inPair r.t.tid = true then ((t.inst is.iid).th r.t.tid).relN + 1 else 0), 0]) []

section
variable {s t : State} {is : Issue} {ins : Instr} {c : Ctl} {sc : Scope} (h : Issues s is ins c []) (rel : isRel ins = true)
include h rel

/-- A release at a scope that the context leaves free is performed there. -/
theorem orderOp_release_free (hl : sc ≠ .sy ∨ s.limit is ((s.runs is c).map (·.t.tid)) 8 (ins.opc.getD 0) = .free) :
    orderOp ins c sc s = .next (s.releaseFlight is ins c (s.runs is c) sc) := by
  rw [orderOp_free h hl, State.releaseFlight]
  by_cases wide : 4 ≤ sc.code
  · simp only [rel, wide, decide_true, Bool.true_and, Bool.not_true, Bool.false_eq_true, if_false, if_true, true_and]
    rfl
  · simp only [rel, wide, decide_false, Bool.true_and, Bool.false_and, Bool.not_false, Bool.false_eq_true, if_false, if_true, false_and]
    rfl

/-- A release at a demoted scope is one at tenant scope, which is wide. -/
theorem orderOp_release_demoted (hl : s.limit is ((s.runs is c).map (·.t.tid)) 8 (ins.opc.getD 0) = .demoted t) :
    orderOp ins c .sy s = .next (t.releaseFlight is ins c (s.runs is c) .tn) := by
  have wide : 4 ≤ Scope.tn.code := by decide
  rw [orderOp_demoted h hl, State.releaseFlight]
  simp only [rel, wide, Bool.true_and, Bool.not_true, Bool.false_eq_true, if_false, if_true, true_and]
  rfl

end

/-- An ordering instruction does `free` where its scope is not limited, `demoted` where a limit demotes it, and stops at a trap. -/
theorem orderOp_cases {s t : State} {is : Issue} {ins : Instr} {c : Ctl} {sc : Scope} {free demoted : State}
    (h : Issues s is ins c []) (he : exec ins s = orderOp ins c sc s)
    (hf : sc ≠ .sy ∨ s.limit is ((s.runs is c).map (·.t.tid)) 8 (ins.opc.getD 0) = .free → orderOp ins c sc s = .next free)
    (hd : s.limit is ((s.runs is c).map (·.t.tid)) 8 (ins.opc.getD 0) = .demoted t → orderOp ins c .sy s = .next demoted) :
    let lim := s.limit is ((s.runs is c).map (·.t.tid)) 8 (ins.opc.getD 0)
    ((sc ≠ .sy ∨ lim = .free) → exec ins s = .next free) ∧ (sc = .sy → lim = .demoted t → exec ins s = .next demoted) ∧
      (sc = .sy → lim = .trapped t → exec ins s = .next t) := by
  rw [he]
  refine ⟨hf, ?demoted, ?trapped⟩
  case demoted =>
    rintro rfl
    exact hd
  case trapped =>
    rintro rfl
    exact orderOp_trapped h

/-- Settles O38: ACQ numbers nothing, FENCE and REL are the two releases. -/
theorem orderingOperations : Obligations.OrderingOperations := by
  unfold Obligations.OrderingOperations
  intro s t is c sc num bump lim
  have release {ins : Instr} (rel : isRel ins = true) (he : exec ins s = orderOp ins c sc s) (h : Issues s is ins c []) :=
    orderOp_cases (t := t) h he (orderOp_release_free h rel) (orderOp_release_demoted h rel)
  refine ⟨fun h => orderOp_cases h (exec_acq s) (orderOp_free h) (orderOp_demoted h), ?_⟩
  simp only [List.forall_mem_cons, List.not_mem_nil, false_imp_iff, implies_true, and_true]
  exact ⟨release rfl (exec_fence s), release rfl (exec_rel s)⟩

end Sys2Proof.Machine
end

section
/-! PROOFS. The group operations at their issue, and the end of an election (R149 to R153, R241). -/
namespace Sys2Proof.Machine

/-- A flagged operation with a part for each run that also acts at its issue. -/
theorem flagged_per_acting {s : State} {is : Issue} {ins : Instr} {c : Ctl} (h : Issues s is ins c [])
    (f : State → Issue → Run → List DWord) (after : State → Issue → Nat → State) :
    flagged ins c noMore (partPer f) after s = .next
      ((after (s.startOp is ins c ((s.runs is c).map fun r => partOf r (f s is r)) []) is s.nextId).past is c) := by
  rw [flagged_of (more := noMore) h]
  rfl

/-- The runs of a group operation arrive, and the groups that are complete are released. -/
theorem groupOp_of {s : State} {is : Issue} {ins : Instr} {c : Ctl} {n : Nat} (h : Issues s is ins c [])
    (opc : groupOpc ins = some n) (b : BSrc) (val : State → Issue → Run → DWord) (fail : Nat → List (Loc × DWord)) :
    groupOp ins c b val fail s = .next
      (let id := s.nextId
       let t := s.startOp is ins c ((s.runs is c).map fun r => partOf r [s.groupName is r b, val s is r]) []
       let ps := ((t.op? id).map (·.parts)).getD []
       ((((ps.map fun p => (p.arg 0).toNat).eraseDups).insertionSort (· ≤ ·)).foldl (fun s n => s.tryRelease is.iid n)
         (ps.foldl (fun s p => s.groupArrive is.iid n id p (fail p.tid)) t)).past is c) := by
  unfold groupOp
  rw [flagged_per_acting h, opc]
  rfl

/-- FLAG_COMPLETION takes the next action of the part that it names (R37). -/
theorem exec_flagCompletion_part {s : State} {k tid : Nat} {o : PendOp} {p : Part} (ho : s.op? k = some o)
    (hp : o.part? tid = some p) : exec (.flagCompletion k tid) s = .next (s.partStep o p) := by
  rw [exec_flagCompletion, execFlagCompletion]
  simp only [ho, hp]

/-- The next action of an ELECT.rel: it ends the election that its thread leads, once the accesses before it are performed. -/
theorem State.partStep_electRel {s : State} {o : PendOp} {c : Ctl} {b : BSrc} (ins : o.ins = .electRel c b) (p : Part) :
    s.partStep o p =
      if p.arg 1 = 0 ∨ (s.inst o.iid).leads p.tid (p.arg 0).toNat = false then s.partDone o.id p.tid
      else if s.accessesBefore o.iid p.tid o.id true = true then s
      else (s.endElection o.iid (p.arg 0).toNat).partDone o.id p.tid := by
  have row : s.partStep o p = s.electRelStep o p := by
    unfold State.partStep
    rw [ins]
  rw [row, State.electRelStep]
  simp only [Bool.or_eq_true, beq_iff_eq, Bool.not_eq_true']

/-- Settles O39: the four that arrive by `groupOp_of`, ELECT.rel by what its part does, GKILL at its issue. -/
theorem groupOperations : Obligations.GroupOperations := by
  unfold Obligations.GroupOperations
  intro s is c ty op o pd b id start parts names
  refine ⟨?arrive, fun h => ?elect, fun k tid o p ho hp hins => ?release, fun h => ?kill⟩
  case arrive =>
    simp only [List.forall_mem_cons, List.not_mem_nil, false_imp_iff, implies_true, and_true, exec_bar, exec_elect,
      exec_gred, exec_gbcast, execBar, execElect, execGred, execGbcast]
    exact ⟨fun h => groupOp_of h rfl _ _ _, fun h => groupOp_of h rfl _ _ _, fun h => groupOp_of h rfl _ _ _,
      fun h => groupOp_of h rfl _ _ _⟩
  case elect =>
    rw [exec_electRel, execElectRel]
    exact flagged_per h _
  case release => exact (exec_flagCompletion_part ho hp).trans (congrArg _ (State.partStep_electRel hins p))
  case kill =>
    rw [exec_gkill, execGkill]
    exact flagged_per_acting h _ _

end Sys2Proof.Machine
end

section
/-! PROOFS. The operations that act at their issue (R157, R160, R230 to R232, R255, R256, R260, R261, R313, R329). -/
namespace Sys2Proof.Machine

/-- The representative runs of an instruction, one for each home warp that has a run, by rising home warp. -/
def State.firstRuns (s : State) (is : Issue) (c : Ctl) : List Run :=
  ((s.runs is c).filter fun r => !((s.runs is c).any fun q =>
    (s.inst is.iid).hwOf q.t.tid == (s.inst is.iid).hwOf r.t.tid && decide (q.t.lane < r.t.lane))).insertionSort
      fun p q => (s.inst is.iid).hwOf p.t.tid ≤ (s.inst is.iid).hwOf q.t.tid

/-- A flagged operation with a part for each home warp that also acts at its issue. -/
theorem flagged_hw_acting {s : State} {is : Issue} {ins : Instr} {c : Ctl} (h : Issues s is ins c [])
    (f : State → Issue → Run → List DWord) (after : State → Issue → Nat → State) :
    flagged ins c noMore (partHw f) after s = .next
      ((after (s.startOp is ins c ((s.firstRuns is c).map fun r => partOf r (f s is r)) []) is s.nextId).past is c) := by
  rw [flagged_of (more := noMore) h]
  rfl

/-! ### What keeps an instance paired (R263) -/

/-- Two folds agree where their steps do under what the second one keeps. -/
theorem foldl_congr_of_keeps {α β : Type} (P : α → Prop) {f g : α → β → α} (l : List β) {a : α} (h : P a)
    (keeps : ∀ a b, P a → P (g a b)) (agree : ∀ a b, P a → f a b = g a b) : l.foldl f a = l.foldl g a := by
  induction l generalizing a with
  | nil => rfl
  | cons b r ih => rw [List.foldl_cons, List.foldl_cons, agree a b h, ih (keeps a b h)]

theorem State.modInst_paired (s : State) (k : Nat) {f : Inst → Inst} (hf : ∀ i : Inst, (f i).paired = i.paired) :
    ((s.modInst k f).inst k).paired = (s.inst k).paired := by
  rcases s.inst_modInst_cases k f with e | e <;> rw [e]
  exact hf _

theorem State.modHw_paired (s : State) (k h : Nat) (f : HWarp → HWarp) : ((s.modHw k h f).inst k).paired = (s.inst k).paired :=
  s.modInst_paired k fun _ => rfl

theorem State.modTh_paired (s : State) (k t : Nat) (f : Thread → Thread) : ((s.modTh k t f).inst k).paired = (s.inst k).paired :=
  s.modInst_paired k fun _ => rfl

theorem Inst.SameData.paired {i j : Inst} (e : i.SameData j) : j.paired = i.paired := by
  obtain ⟨_, _, _, rfl, -⟩ := e
  rfl

theorem Inst.SameData.die {i j : Inst} (e : i.SameData j) (k : Nat) : j.die k = i.die k := by
  obtain ⟨_, _, _, rfl, -⟩ := e
  rfl

/-- Counting an operation in its flag and noting its hazards changes nothing that programs see (R36, R40). -/
theorem Inst.incFlags_addHaz_sameData (i : Inst) (sets : List (Nat × Nat)) (f : Nat) (z : Nat → Haz) :
    i.SameData ((i.incFlags sets f).addHaz sets z) := by
  have counted : i.SameData (i.incFlags sets f) :=
    foldl_keeps i.SameData _ _ (.refl i) fun _ _ h => h.trans (Inst.putFlag_sameData _ _ _ _ _)
  exact foldl_keeps i.SameData _ _ counted fun _ _ h => h.trans (.modHw _ _ fun _ => ⟨rfl, rfl⟩)

/-- An operation that goes in flight changes nothing that programs see. -/
theorem State.startOp_sameData (s : State) (is : Issue) (ins : Instr) (c : Ctl) (ps : List Part) (more : List RU) :
    s.SameData (s.startOp is ins c ps more) := by
  unfold State.startOp
  dsimp only
  split
  · exact .of_insts rfl rfl rfl rfl
  · refine .trans ?_ (.modInst _ _ fun i => i.incFlags_addHaz_sameData _ _ _)
    exact .of_insts rfl rfl rfl rfl

theorem State.openRegion_paired (s : State) (iid hw : Nat) (r : Region) :
    ((s.openRegion iid hw r).inst iid).paired = (s.inst iid).paired := by
  unfold State.openRegion
  extract_lets c held slot r u
  have opened : (u.inst iid).paired = (s.inst iid).paired := by
    refine (State.modHw_paired _ _ _ _).trans ?_
    rw [State.inst, State.spoilSlot, State.scribble_insts, State.inst]
  split
  · exact foldl_keeps (fun t : State => (t.inst iid).paired = (s.inst iid).paired) _ _ opened fun t _ ht =>
      (t.modTh_paired _ _ _).trans ht
  · exact opened

theorem State.openAt_paired (s : State) (is : Issue) (id : Nat) (strict : Bool) (handler : DWord) (a : Nat) (p : Part) :
    ((s.openAt is id strict handler a p).inst is.iid).paired = (s.inst is.iid).paired := by
  unfold State.openAt
  dsimp only
  split
  · exact State.openRegion_paired _ _ _ _
  · rfl

/-! ### Opening a region (R261, R263) -/

/-- A change of a thread's part is decided by what it makes of parts of that thread. -/
theorem PendOp.modPart_congr (o : PendOp) {tid : Nat} {f g : Part → Part} (h : ∀ q : Part, q.tid = tid → f q = g q) :
    o.modPart tid f = o.modPart tid g := by
  refine congrArg (fun ps => { o with parts := ps }) (List.map_congr_left fun q _ => ?_)
  split
  · exact h q (beq_iff_eq.1 ‹_›)
  · rfl

/-- The part of an opened region may ask for its home warp in its own record: it is the thread's. -/
theorem State.openAt_eq (t : State) (is : Issue) (id : Nat) (strict : Bool) (handler : DWord) (a : Nat) (p : Part) :
    t.openAt is id strict handler a p =
      let hw (q : Part) : Nat := (t.inst is.iid).hwOf q.tid
      let r := t.newRegion is id (hw p) (p.arg 0) strict false 0 handler a
      let u := t.modOp id fun o => o.modPart p.tid fun q => { q with args := [q.arg 0, if t.canOpen is.iid (hw q) then 1 else 0] }
      if t.canOpen is.iid (hw p) then u.openRegion is.iid (hw p) r else u := by
  have parts (o : PendOp) := o.modPart_congr (tid := p.tid)
    (f := fun q => { q with args := [q.arg 0, if t.canOpen is.iid ((t.inst is.iid).hwOf p.tid) then 1 else 0] })
    (g := fun q => { q with args := [q.arg 0, if t.canOpen is.iid ((t.inst is.iid).hwOf q.tid) then 1 else 0] })
    fun q hq => by rw [hq]
  unfold State.openAt
  simp only [parts]

/-- What PAIR.OPEN leaves of a part: in a paired instance a region that waits for the other copy, elsewhere that of CREG.OPEN. -/
def State.pairOpenAt (s : State) (is : Issue) (id : Nat) (slack : Nat) (handler : DWord) (a : Nat) (paired : Bool) (p : Part) : State :=
  if paired then
    s.modHw is.iid ((s.inst is.iid).hwOf p.tid) fun w =>
      { w with opening := some (s.newRegion is id ((s.inst is.iid).hwOf p.tid) (p.arg 0) false true slack handler a) }
  else s.openAt is id false handler a p

theorem State.pairOpenAt_paired (s : State) (is : Issue) (id : Nat) (slack : Nat) (handler : DWord) (a : Nat) (paired : Bool) (p : Part) :
    ((s.pairOpenAt is id slack handler a paired p).inst is.iid).paired = (s.inst is.iid).paired := by
  unfold State.pairOpenAt
  split
  · exact s.modHw_paired _ _ _
  · exact s.openAt_paired _ _ _ _ _ _

/-- PAIR.OPEN treats every home warp as its instance stood at the issue: opening a region pairs and parts none. -/
theorem execPairOpen_of {s : State} {is : Issue} {c : Ctl} {pd a slack : Nat} {off : BitVec 16} {paired : Bool}
    (h : Issues s is (.pairOpen c pd a off slack) c []) (hp : (s.inst is.iid).paired = paired) :
    execPairOpen c pd a off slack s = .next
      (let t := s.startOp is (.pairOpen c pd a off slack) c ((s.firstRuns is c).map fun r =>
         partOf r (hwMask s is c ((s.inst is.iid).hwOf r.t.tid) :: if paired then [2] else [])) []
       ((((t.op? s.nextId).map (·.parts)).getD []).foldl
         (fun u p => u.pairOpenAt is s.nextId slack (is.hdrAt + 8 * off.signExtend 64) a paired p) t).past is c) := by
  subst hp
  refine (flagged_hw_acting h _ _).trans (congrArg (fun t : State => Host.Outcome.next (t.past is c)) ?_)
  refine foldl_congr_of_keeps (fun t : State => (t.inst is.iid).paired = (s.inst is.iid).paired) _
    ((s.startOp_sameData _ _ _ _ _).inst _).paired
    (fun t p ht => (t.pairOpenAt_paired _ _ _ _ _ _ p).trans ht) fun t p ht => ?_
  simp only [ht, State.pairOpenAt]

/-! ### SAMPLE and the statement -/

/-- SAMPLE without sampling only goes in flight (R325). -/
theorem execSample_off {s : State} {is : Issue} {c : Ctl} {b : BSrc} (h : Issues s is (.sample c b) c [])
    (off : (s.die ((s.inst is.iid).die is.iid)).trace.ctl.getLsbD 0 = false) :
    execSample c b s = .next (s.inFlight is (.sample c b) c ((s.runs is c).map fun r => partOf r [s.srcB is r .n32 b]) []) := by
  unfold execSample
  rw [flagged_per_acting h]
  have same := s.startOp_sameData is (.sample c b) c ((s.runs is c).map fun r => partOf r [s.srcB is r .n32 b]) []
  rw [← same.die, ← (same.inst is.iid).die] at off
  simp only [off, Bool.not_false, if_true]
  rfl

/-- Settles O40: each acts at its issue part by part; PAIR.OPEN by `execPairOpen_of`, the test of a free slot by `State.openAt_eq`. -/
theorem actingOperations : Obligations.ActingOperations := by
  unfold Obligations.ActingOperations
  intro s is c b strict pd a d n k fifo slack off o16 sk dk hw firsts mask last count run claims close
  refine ⟨?acting, ?opening, fun hp h => ?pairing, fun h => ?popping, execSample_off⟩
  case acting =>
    simp only [List.forall_mem_cons, List.not_mem_nil, false_imp_iff, implies_true, and_true, exec_cntcapStart, exec_cntcapStop,
      exec_regshrink, exec_dqdone, exec_claimNew, exec_claimUse, exec_clrel, exec_cregClose, exec_pairClose, execCntcapStart,
      execCntcapStop, execRegshrink, execDqdone, execClaimNew, execClaimUse, execClrel, execCregClose, execPairClose, closeOp]
    exact ⟨fun h => flagged_hw_acting h _ _, fun h => flagged_per_acting h _ _, fun h => flagged_hw_acting h _ _,
      fun h => flagged_hw_acting h _ _, fun h => flagged_per_acting h _ _, fun h => flagged_per_acting h _ _,
      fun h => flagged_per_acting h _ _, fun h => flagged_hw_acting h _ _, fun h => flagged_hw_acting h _ _⟩
  case opening =>
    simp only [List.forall_mem_cons, List.not_mem_nil, false_imp_iff, implies_true, and_true]
    refine ⟨fun _ h => ?creg, fun hp h => ?pair⟩
    case creg =>
      rw [exec_cregOpen, execCregOpen, flagged_hw_acting h]
      simp only [State.openAt_eq]
      rfl
    case pair =>
      rw [exec_pairOpen, execPairOpen_of h (hp.resolve_right nofun)]
      simp only [State.pairOpenAt, State.openAt_eq, Bool.false_eq_true, if_false]
      rfl
  case pairing =>
    rw [exec_pairOpen, execPairOpen_of h hp]
    simp only [State.pairOpenAt, if_true]
    rfl
  case popping =>
    rw [exec_dqpop, execDqpop, flagged_hw_acting h]
    simp only [decide_eq_true_eq]
    rfl

end Sys2Proof.Machine
end

section
/-!
PROOFS. What MMA and MMA.J post (R170, R171, R186): a request of its own, the first half of a joint one, its second half; and an
entry without an operation, from which the statement and the model count otherwise what was issued since its first half (R179).
-/
namespace Sys2Proof.Machine

section
variable {s : State} {is : Issue} {c : Ctl} {f : MmaF} {h1 : Bool} {k : Nat} {r : Rsv}

/-- A half and the other one differ. -/
theorem other_half_ne (h1 : Bool) : (some (1 - h1.toNat) == some h1.toNat) = false := by
  cases h1 <;> rfl

/-- The request that the second half makes of the entry of the first. -/
def State.joinedRsv (s : State) (is : Issue) (c : Ctl) (f : MmaF) (h1 : Bool) (r : Rsv) : Rsv :=
  { r with
    half := none, ops := r.ops ++ [s.nextId], mask := r.mask ||| s.rowMask is c f (some h1.toNat)
    lanes0 := if h1 then r.lanes0 else is.reach, lanes1 := if h1 then is.reach else r.lanes1
    seen := r.seen ++ s.scaleSeen is f, posts := r.posts ++ [(is.uid, is.slot)] }

/-- The second half leaves the operation of the first in front: from either record the same operations lie between the halves (R179). -/
theorem State.joinedRsv_first (posted : r.ops ≠ []) : (s.joinedRsv is c f h1 r).ops.headD 0 = r.ops.headD 0 := by
  obtain ⟨first, rest, hops⟩ := List.exists_cons_of_ne_nil posted
  simp only [State.joinedRsv, hops, List.cons_append, List.headD_cons]

/-- MMA takes the lowest free entry. -/
theorem execMma_free (h : Issues s is (.mma c f) c []) (hk : lowestFree (s.cluster (s.inst is.iid).engine).resv = some k) :
    execMma c f s = .next ((((s.markMld is.iid f.tile).startMma is (.mma c f) c).modCluster (s.inst is.iid).engine fun y =>
      { y with resv := sput y.resv k (s.newRsv is c f none s.nextId) }).past is c) := by
  unfold execMma
  refine issued_go h ?_
  simp only [hk]

/-- A half that meets no incomplete entry takes the lowest free one; entries whose time is up become complete. -/
theorem execMmaj_first (h : Issues s is (.mmaj c f h1) c []) (hj : s.jointOf is.iid f = none)
    (hk : lowestFree (s.cluster (s.inst is.iid).engine).resv = some k) :
    execMmaj c f h1 s = .next ((((s.markMld is.iid f.tile).startMma is (.mmaj c f h1) c).modCluster (s.inst is.iid).engine fun y =>
      { y with resv := sput (y.resv.map fun p => (p.1, p.2.expire (s.jointNow (s.inst is.iid).ctx))) k
                         (s.newRsv is c f (some h1.toNat) s.nextId) }).past is c) := by
  unfold execMmaj
  refine issued_go h ?_
  simp only [hj, hk, Cluster.expire]

/-- The state after the second half, where what was issued on its tile after operation `first` lies between the halves. -/
def State.joinedFrom (s : State) (is : Issue) (c : Ctl) (f : MmaF) (h1 : Bool) (k : Nat) (r : Rsv) (first : Nat) : State :=
  (((s.joinRows is.iid first f.tile (s.rowMask is c f (some h1.toNat))).startMma is (.mmaj c f h1) c).modCluster
    (s.inst is.iid).engine fun y => { y with resv := sput y.resv k (s.joinedRsv is c f h1 r) }).past is c

/-- A half that meets the entry of the other half of its request completes it. -/
theorem execMmaj_second (h : Issues s is (.mmaj c f h1) c []) (hj : s.jointOf is.iid f = some (k, r))
    (other : r.half = some (1 - h1.toNat)) (same : r.f = f) :
    execMmaj c f h1 s = .next (s.joinedFrom is c f h1 k r (r.ops.headD 0)) := by
  have agrees : (r.half == some h1.toNat || r.f != f) = false := by
    rw [other, other_half_ne, same, bne_self_eq_false, Bool.or_self]
  unfold execMmaj
  refine issued_go h ?_
  simp only [hj, agrees, Bool.false_eq_true, if_false, State.joinedRsv]

/-- The row that O41 states for the second half, for an entry that some operation has posted. -/
theorem execMmaj_second_posted (h : Issues s is (.mmaj c f h1) c []) (hj : s.jointOf is.iid f = some (k, r))
    (other : r.half = some (1 - h1.toNat)) (same : r.f = f) (posted : r.ops ≠ []) :
    execMmaj c f h1 s = .next (s.joinedFrom is c f h1 k r ((s.joinedRsv is c f h1 r).ops.headD 0)) := by
  rw [execMmaj_second h hj other same, State.joinedRsv_first posted]

end

/-! ### An entry without an operation -/

/-- An instruction of 96 bits that names flag A. -/
def flagA96 : Ctl := { len := .l96, gp := 0, gn := false, once := false, fsel := .a, dly := 0 }

/-- A request of 64 rows without scales. -/
def tallMma : MmaF :=
  { tile := 0, ta := .i8, tb := .i8, nz := false, pri := 0, fa := 0, fb := 0, shape := 2, sa := 0, selA := 0, sb := 0, selB := 0 }

/-- The entry of its first half, in which no operation stands. -/
def unpostedRsv : Rsv :=
  { iid := 400, core := 0, part := 0, hw := 0, f := tallMma, joint := true, half := some 0, posted := 0, ops := [], mask := 0
    lanes0 := [], lanes1 := [], prio := 0, granted := none, timeout := false, seen := [], opA := [], opB := [], spoilTile := false
    spoilRows := 0, spoilCols := 0 }

/-- A clause of four instructions with flags 0 and 1, at the first of which one thread stands. -/
def unpostedIssue : Issue :=
  { q := .part 0 0, iid := 400, hdrAt := 0x1000, addr := 0x1008, idx := 0, slot := 0, lanes := [⟨0, 0, true⟩]
    hdr := { yld := false, land := false, seta := some 0, setb := some 1, wait := 0, size := 5, ni := 4 } }

/-- A stage instance of one thread with four accumulator tiles. -/
def unpostedInst : Inst :=
  { kind := .stage, ctx := 3, launch := 1, stage := 0, core := 0, no := 0, gang := 1, threads := 1, accTiles := 4
    ths := [(0, { pc := 0x1008, status := .ready })], hws := [(0, { n := 64, vb := 0 })] }

/-- An MCLR of the tile that is in flight. -/
def unpostedClear : PendOp :=
  { id := 1, iid := 400, ins := .mclr flagA96 .both 0, hdr := 0x1000, idx := 0, born := 0, flag := none, shares := []
    parts := [{ tid := 0, lane := 0, args := [], done := 0, arrived := false }], lanes := [] }

/-- The second half stands at its issue, and its operation will have the number 2. -/
def unpostedState : State :=
  { State.reset with focus := some (.part 0 0), issues := [unpostedIssue], insts := [(400, unpostedInst)]
                     clusters := [(0, { resv := [(0, unpostedRsv)] })], ops := [unpostedClear], nextId := 2 }

/-- What an outcome leaves in the parts of operation 1: for a tile instruction the rows that a pass leaves unspecified. -/
def outcomeMarks : Host.Outcome State Fault Refusal → List Nat
  | .next t => ((t.op? 1).map fun o => o.parts.map (·.done)).getD []
  | _ => []

theorem unpostedState_issues : Issues unpostedState unpostedIssue (.mmaj flagA96 tallMma true) flagA96 [] :=
  issues_of_issuesB (by decide)

theorem unpostedState_jointOf : unpostedState.jointOf unpostedIssue.iid tallMma = some (0, unpostedRsv) := by decide

/-- The model counts from operation 0: the MCLR lies between the halves, and row 32 of its tile is marked. -/
theorem unpostedState_exec : outcomeMarks (exec (.mmaj flagA96 tallMma true) unpostedState) = [2 ^ 33] := by decide

/-- Counted from the second half itself, nothing lies between. -/
theorem unpostedState_joined :
    outcomeMarks (.next (unpostedState.joinedFrom unpostedIssue flagA96 tallMma true 0 unpostedRsv
      ((unpostedState.joinedRsv unpostedIssue flagA96 tallMma true unpostedRsv).ops.headD 0))) = [0] := by decide

/-- Refutes O41: in its row for the second half the operations that lie between the halves are counted from the record that the second
half leaves, the model counts them from the record of the first. In `unpostedState` no operation stands in that record, so the
first of the new one is the second half itself, and the MCLR before it is marked by the model alone. For a record with an operation
the row holds (`execMmaj_second_posted`), and so do the rows of MMA (`execMma_free`) and of a first half (`execMmaj_first`). -/
theorem not_matrixRequests : ¬ Obligations.MatrixRequests := by
  unfold Obligations.MatrixRequests
  intro h
  obtain ⟨-, -, second⟩ := h unpostedState unpostedIssue flagA96 tallMma true 0 unpostedRsv
  have row := second unpostedState_issues unpostedState_jointOf rfl rfl
  have marks := (congrArg outcomeMarks row).trans unpostedState_joined
  rw [unpostedState_exec] at marks
  exact absurd marks (by decide)

end Sys2Proof.Machine
end

section
/-! PROOFS. FLOW and FLWAIT at their issue (R226, R229, R255, R256), and the contributions that FRED sends (R349). -/
namespace Sys2Proof.Machine

/-! ### FLOW and FLWAIT -/

section
variable {s u : State} {is : Issue} {c : Ctl} {k : Nat} {sc : Scope}

/-- A FLOW without a limit on its scope whose parts all start or are refused: the refused ones park, and no part of it is left at the
issue. -/
theorem flowOp_through {ins : Instr} {f : State → Issue → Run → List DWord} {rs : List (Nat × Nat)} (h : Issues s is ins c [])
    (fresh : is.part = none) (scope : sc ≠ .sy)
    (memory : ((s.handle (s.inst is.iid).ctx k).map fun g => (s.claim g).dk == .peer).getD false = false)
    (starts : (let t := s.startOp is ins c ((s.runs is c).map fun r => partOf r (f s is r ++ [BitVec.ofNat 64 sc.code, 0])) []
      flowParts s.nextId k false t ((((t.op? s.nextId).map (·.parts)).getD []).filter fun (p : Part) => !p.arrived)) = (true, rs, u)) :
    flowOp ins c k sc f s = .next
      (let t := u.parkFlows s.nextId rs
       ({ t with issues := t.issues.map fun (x : Issue) => if x.q == is.q then { x with part := none } else x } : State).past is c) := by
  have free : (sc == .sy || ((s.handle (s.inst is.iid).ctx k).map fun g => (s.claim g).dk == .peer).getD false) = false := by
    rw [memory, Bool.or_false, beq_eq_false_iff_ne]
    exact scope
  simp only [partOf] at starts
  unfold flowOp
  refine issued_go (more := fun _ => []) h ?_
  simp only [fresh, free, partPer, Bool.false_eq_true, if_false, starts, if_true]

/-- FLWAIT without a limit on its scope goes in flight with the entry that its handle names; 0 stands for none. -/
theorem execFlwait_of (h : Issues s is (.flwait c k sc) c []) (scope : sc ≠ .sy) :
    execFlwait c k sc s = .next (s.inFlight is (.flwait c k sc) c ((s.runs is c).map fun r =>
      partOf r [BitVec.ofNat 64 sc.code, BitVec.ofNat 64 (((s.handle (s.inst is.iid).ctx k).map (· + 1)).getD 0)]) []) := by
  have free : (sc == .sy) = false := beq_eq_false_iff_ne.mpr scope
  unfold execFlwait
  refine issued_go (more := fun _ => []) h ?_
  simp only [free, Bool.false_eq_true, if_false]
  rfl

end

/-! ### The threads of a home warp -/

/-- The representative of a home warp is one of its threads. -/
theorem lowest_mem {ls : List LaneT} (h : ls ≠ []) : lowest ls ∈ ls := by
  obtain ⟨l, r, rfl⟩ := List.exists_cons_of_ne_nil h
  show r.foldl (fun m x => if x.lane < m.lane then x else m) l ∈ l :: r
  induction r generalizing l with
  | nil => exact List.mem_singleton_self l
  | cons x r ih =>
    have kept := ih (if x.lane < l.lane then x else l) (by simp)
    rw [List.foldl_cons]
    rcases List.mem_cons.mp kept with e | e
    · rw [e]
      split <;> simp
    · exact List.mem_cons_of_mem _ (List.mem_cons_of_mem _ e)

/-- The representative of each home warp of a formed warp stands in that home warp. -/
theorem hwOf_lowest_of_mem_byHw {i : Inst} {ls : List LaneT} {g : Nat × List LaneT} (h : g ∈ byHw i ls) :
    i.hwOf (lowest g.2).tid = g.1 := by
  simp only [byHw, List.mem_map, List.mem_insertionSort, List.mem_eraseDups] at h
  obtain ⟨n, ⟨l, hl, rfl⟩, rfl⟩ := h
  have some_thread : (ls.filter fun x => i.hwOf x.tid == i.hwOf l.tid) ≠ [] :=
    List.ne_nil_of_mem (List.mem_filter.mpr ⟨hl, beq_self_eq_true _⟩)
  exact beq_iff_eq.mp (List.mem_filter.mp (lowest_mem some_thread)).2

/-- A mask of positions has the bits of the positions gathered. -/
theorem getLsbD_foldl_twoPow {α : Type} (w : Nat) (f : α → Nat) (xs : List α) (m : BitVec w) {l : Nat} (hl : l < w) :
    (xs.foldl (fun m x => m ||| BitVec.twoPow w (f x)) m).getLsbD l = (m.getLsbD l || xs.any fun x => f x == l) := by
  induction xs generalizing m with
  | nil => simp
  | cons x xs ih =>
    have bit : (BitVec.twoPow w (f x)).getLsbD l = (f x == l) := by
      rw [BitVec.getLsbD_twoPow, Bool.eq_iff_iff]
      simp only [Bool.and_eq_true, decide_eq_true_eq, beq_iff_eq]
      omega
    rw [List.foldl_cons, ih, BitVec.getLsbD_or, bit, List.any_cons, Bool.or_assoc]

/-! ### FRED -/

/-- The runs of an instruction in a home warp. -/
def State.runsIn (s : State) (is : Issue) (c : Ctl) (h : Nat) : List Run :=
  (s.runs is c).filter fun r => (s.inst is.iid).hwOf r.t.tid == h

/-- The lanes of a home warp in which FRED has a run. -/
def State.fredMask (s : State) (is : Issue) (c : Ctl) (h : Nat) : BitVec 32 :=
  (s.runsIn is c h).foldl (fun m r => m ||| BitVec.twoPow 32 ((s.inst is.iid).laneOf r.t.tid)) 0

/-- The word that a home warp contributes at a lane: its run's there, elsewhere the identity. -/
def State.fredWord (s : State) (is : Issue) (c : Ctl) (bf : Bool) (op : FrOp) (o : O2) (h l : Nat) : DWord :=
  match (s.runsIn is c h).find? fun r => (s.inst is.iid).laneOf r.t.tid == l with
  | some r => lo32 (s.srcV is r false o.a)
  | none => BitVec.ofNat 64 (fredIdentity bf op)

/-- The part that FRED sends for a home warp: group, round, lanes and words. -/
def State.fredPart (s : State) (is : Issue) (c : Ctl) (bf : Bool) (op : FrOp) (o : O2) (g : Nat × List LaneT) : Part :=
  let b := (s.srcB is ⟨lowest g.2, c.once⟩ .n32 o.b).toNat
  partOf ⟨lowest g.2, c.once⟩
    ([BitVec.ofNat 64 (b % 2 ^ 16), BitVec.ofNat 64 (b / 2 ^ 16 % 256), (s.fredMask is c g.1).setWidth 64] ++
      (List.range 32).map (s.fredWord is c bf op o g.1))

section
variable {s : State} {is : Issue} {c : Ctl} {bf : Bool} {op : FrOp} {o : O2}

/-- FRED goes in flight with one part for each home warp of its formed warp. -/
theorem execFred_of (h : Issues s is (.fred c bf op o) c []) :
    execFred c bf op o s = .next (s.inFlight is (.fred c bf op o) c
      ((byHw (s.inst is.iid) is.lanes).map (s.fredPart is c bf op o)) []) := by
  unfold execFred
  rw [flagged_of (more := noMore) h]
  rfl

/-- The lanes of a part are those of the runs in its home warp. -/
theorem State.fredPart_lanes (g : Nat × List LaneT) {l : Nat} (hl : l < 32) :
    ((s.fredPart is c bf op o g).arg 2).getLsbD l = (s.runsIn is c g.1).any fun r => (s.inst is.iid).laneOf r.t.tid == l := by
  have mask : (s.fredPart is c bf op o g).arg 2 = (s.fredMask is c g.1).setWidth 64 := rfl
  rw [mask, BitVec.getLsbD_setWidth, decide_eq_true (show l < 64 by omega), Bool.true_and, State.fredMask,
    getLsbD_foldl_twoPow 32 _ _ _ hl, BitVec.ofNat_eq_ofNat, BitVec.getLsbD_zero, Bool.false_or]

theorem State.fredPart_word (g : Nat × List LaneT) {l : Nat} (hl : l < 32) :
    (s.fredPart is c bf op o g).arg (3 + l) = s.fredWord is c bf op o g.1 l := by
  simp [State.fredPart, partOf, Part.arg, Nat.add_comm 3 l, hl]

/-- A part of FRED names the lanes of its home warp that have a run, and carries the identity in the others. -/
theorem State.fredPart_spec {g : Nat × List LaneT} (hg : g ∈ byHw (s.inst is.iid) is.lanes) {l : Nat} (hl : l < 32) :
    let i := s.inst is.iid
    let p := s.fredPart is c bf op o g
    (∀ r ∈ s.runs is c, i.hwOf r.t.tid = i.hwOf p.tid → i.laneOf r.t.tid = l → (p.arg 2).getLsbD l = true) ∧
      ((∀ r ∈ s.runs is c, i.hwOf r.t.tid = i.hwOf p.tid → i.laneOf r.t.tid ≠ l) →
        (p.arg 2).getLsbD l = false ∧ p.arg (3 + l) = BitVec.ofNat 64 (fredIdentity bf op)) := by
  intro i p
  have home : i.hwOf p.tid = g.1 := hwOf_lowest_of_mem_byHw hg
  rw [home, State.fredPart_lanes g hl, State.fredPart_word g hl]
  refine ⟨fun r hr hw lane => ?_, fun empty => ?_⟩
  · exact List.any_eq_true.mpr ⟨r, List.mem_filter.mpr ⟨hr, beq_iff_eq.mpr hw⟩, beq_iff_eq.mpr lane⟩
  · have vacant : ∀ r ∈ s.runsIn is c g.1, ¬ (i.laneOf r.t.tid == l) = true := fun r hr => by
      obtain ⟨hrun, hw⟩ := List.mem_filter.mp hr
      exact fun lane => empty r hrun (beq_iff_eq.mp hw) (beq_iff_eq.mp lane)
    refine ⟨List.any_eq_false.mpr vacant, ?_⟩
    rw [State.fredWord, List.find?_eq_none.mpr vacant]

end

/-- Settles O44: both forms of FLOW by `flowOp_through`, FLWAIT as it goes in flight, FRED by the part of each home warp. -/
theorem flowsAndReductions : Obligations.FlowsAndReductions := by
  unfold Obligations.FlowsAndReductions
  intro s u is c k a so d n sc rs bf op o i
  refine ⟨?flow, execFlwait_of, fun h => ⟨_, execFred_of h, ?tids, ?words⟩⟩
  case flow =>
    simp only [List.forall_mem_cons, List.not_mem_nil, false_imp_iff, implies_true, and_true, exec_flowReg, exec_flowImm,
      execFlowReg, execFlowImm]
    exact ⟨fun h fresh scope memory starts => flowOp_through h fresh scope memory starts,
      fun h fresh scope memory starts => flowOp_through h fresh scope memory starts⟩
  case tids => exact List.map_map
  case words =>
    intro p hp l hl
    obtain ⟨g, hg, rfl⟩ := List.mem_map.mp hp
    exact State.fredPart_spec hg hl

end Sys2Proof.Machine
end

section
/-! PROOFS. What the axioms R242 to R244 say, edge by edge, of an execution that they allow. -/
namespace Sys2Proof.Machine.Ordering

section
variable {x : Execution} {l : Place} {a b v w r : Nat}

/-! ### Executions (R235, R240) -/

theorem axioms_of_allowed (h : allowed x = true) :
    formed x = true ∧ coherent x = true ∧ atomic x = true ∧ causal x = true := by
  simp only [allowed, Bool.and_eq_true] at h
  obtain ⟨⟨⟨⟨⟨formed, -⟩, coherent⟩, atomic⟩, causal⟩, -⟩ := h
  exact ⟨formed, coherent, atomic, causal⟩

/-- Reads-from goes from a write to a read of the byte. -/
theorem ends_of_rf (h : formed x = true) (rf : (l, w, r) ∈ x.rf) :
    ((ev x w).writes = true ∧ l ∈ (ev x w).locs ∧ w < size x) ∧ (ev x r).reads = true ∧ r < size x := by
  simp only [formed, Bool.and_eq_true] at h
  obtain ⟨⟨⟨⟨⟨-, edges⟩, -⟩, -⟩, -⟩, -⟩ := h
  have edge := List.all_eq_true.mp edges _ rf
  simp only [Bool.and_eq_true, List.contains_iff_mem, decide_eq_true_eq] at edge
  obtain ⟨⟨⟨⟨⟨⟨writes, wrote⟩, reads⟩, -⟩, hw⟩, hr⟩, -⟩ := edge
  exact ⟨⟨writes, wrote, hw⟩, reads, hr⟩

/-- The coherence order of a byte that an event touches lists the writes to it. -/
theorem mem_coOf_iff (h : formed x = true) (hb : b < size x) (touched : l ∈ (ev x b).locs) :
    a ∈ coOf x l ↔ a < size x ∧ (ev x a).writes = true ∧ l ∈ (ev x a).locs := by
  simp only [formed, Bool.and_eq_true] at h
  obtain ⟨⟨⟨⟨-, orders⟩, -⟩, -⟩, -⟩ := h
  have event : ev x b ∈ x.evs := by
    rw [ev, List.getD_eq_getElem _ _ hb]
    exact List.getElem_mem hb
  have order := List.all_eq_true.mp orders l (List.mem_eraseDups.mpr (List.mem_flatMap.mpr ⟨_, event, touched⟩))
  simp only [Bool.and_eq_true, List.all_eq_true, List.contains_iff_mem, List.mem_filter, List.mem_range] at order
  obtain ⟨⟨⟨-, only⟩, every⟩, -⟩ := order
  exact ⟨only a, every a⟩

theorem coBefore_iff :
    coBefore x l a b = true ↔ a ∈ coOf x l ∧ b ∈ coOf x l ∧ (coOf x l).idxOf a < (coOf x l).idxOf b := by
  simp only [coBefore, Bool.and_eq_true, List.contains_iff_mem, decide_eq_true_eq, and_assoc]

/-- What is co-after the write that a read takes its byte from is a write. -/
theorem writes_of_rf_of_coBefore (h : formed x = true) (rf : (l, v, r) ∈ x.rf) (co : coBefore x l v w = true) :
    w < size x ∧ (ev x w).writes = true := by
  obtain ⟨⟨-, wrote, hv⟩, -⟩ := ends_of_rf h rf
  obtain ⟨-, listed, -⟩ := coBefore_iff.mp co
  obtain ⟨hw, writes, -⟩ := (mem_coOf_iff h hv wrote).mp listed
  exact ⟨hw, writes⟩

/-- A write is no mere read. -/
theorem kind_ne_read_of_writes (h : (ev x a).writes = true) : (ev x a).kind ≠ .read := by
  intro read
  rw [Event.writes, read] at h
  exact absurd h (by decide)

/-! ### The relations (R240) -/

@[simp] theorem length_poRel : (poRel x).length = size x := (ERel.length_closure _).trans (ERel.length_of _ _)
@[simp] theorem length_eoRel : (eoRel x).length = size x := ERel.length_of _ _
@[simp] theorem length_sw : (sw x).length = size x := ERel.length_of _ _
@[simp] theorem length_pairing : (pairing x).length = size x := ERel.length_of _ _
@[simp] theorem length_rfRel : (rfRel x).length = size x := ERel.length_of _ _
@[simp] theorem length_coRel : (coRel x).length = size x := ERel.length_of _ _
@[simp] theorem length_frRel : (frRel x).length = size x := ERel.length_of _ _

@[simp] theorem length_hb : (hb x).length = size x := by
  rw [hb, ERel.length_closure, ERel.length_or _ _ (by rw [ERel.length_or _ _ (by simp)]; simp), ERel.length_or _ _ (by simp), length_poRel]

theorem cause_of_hb (h : (hb x).has a b = true) : (cause x).has a b = true := by
  refine ERel.closure_has _ ?_
  rw [ERel.has_or _ _ (by simp), h, Bool.true_or]

/-- Extended coherence has the edges of reads-from and of from-reads. -/
theorem eco_of_edge (h : (rfRel x).has a b = true ∨ (frRel x).has a b = true) : (eco x).has a b = true := by
  refine ERel.closure_has _ ?_
  rw [ERel.has_or _ _ (by rw [ERel.length_or _ _ (by simp)]; simp), ERel.has_or _ _ (by simp)]
  obtain h | h := h <;> simp [h]

theorem eco_of_rf (hf : formed x = true) (rf : (l, w, r) ∈ x.rf) : (eco x).has w r = true := by
  obtain ⟨⟨-, -, hw⟩, -, hr⟩ := ends_of_rf hf rf
  refine eco_of_edge (.inl ?_)
  rw [rfRel, ERel.has_of, decide_eq_true hw, decide_eq_true hr]
  exact List.any_eq_true.mpr ⟨_, rf, beq_self_eq_true _⟩

theorem eco_of_fr (hf : formed x = true) (rf : (l, v, r) ∈ x.rf) (co : coBefore x l v w = true) (ne : r ≠ w) :
    (eco x).has r w = true := by
  obtain ⟨hw, -⟩ := writes_of_rf_of_coBefore hf rf co
  obtain ⟨-, -, hr⟩ := ends_of_rf hf rf
  refine eco_of_edge (.inr ?_)
  rw [frRel, ERel.has_of, decide_eq_true hw, decide_eq_true hr, bne_iff_ne.mpr ne]
  exact List.any_eq_true.mpr ⟨_, rf, by simp only [beq_self_eq_true, co, Bool.and_self]⟩

/-! ### The axioms (R242 to R244) -/

/-- Causal order has no cycle (R244). -/
theorem cause_irrefl (h : causal x = true) (a : Nat) : (cause x).has a a = false := by
  simp only [causal, Bool.and_eq_true] at h
  obtain ⟨acyclic, -⟩ := h
  refine Bool.eq_false_iff.mpr fun cycle => ?_
  exact absurd (ERel.not_has_of_acyclic acyclic a) (by rw [ERel.closure_has _ cycle]; decide)

theorem hb_irrefl (h : causal x = true) (a : Nat) : (hb x).has a a = false :=
  Bool.eq_false_iff.mpr fun cycle => absurd (cause_irrefl h a) (by rw [cause_of_hb cycle]; decide)

/-- What happens before an event that is eco-before it falls under one of the two exceptions to R242. -/
theorem excepted_of_coherent (h : coherent x = true) (before : (hb x).has a b = true) (lt : b < size x) (back : (eco x).has b a = true) :
    unseen x a b = true ∨ uncaused x a b = true := by
  have ha : a < size x := length_hb (x := x) ▸ ERel.lt_of_has _ before
  have pair := List.all_eq_true.mp (List.all_eq_true.mp h a (List.mem_range.mpr ha)) b (List.mem_range.mpr lt)
  simpa only [before, back, Bool.and_self, Bool.not_true, Bool.false_or, Bool.or_eq_true] using pair

/-- The exception for a chain across dies is between two reads on different dies, of which the first takes nothing from a write that is
cause-before it and eco-after the second (R254). -/
theorem uncaused_iff : uncaused x a b = true ↔ ((ev x a).kind = .read ∧ (ev x b).kind = .read) ∧
    ((ev x a).agent.modNo, (ev x a).agent.die) ≠ ((ev x b).agent.modNo, (ev x b).agent.die) ∧
    ∀ l w, (l, w, a) ∈ x.rf → (eco x).has b w = true → (cause x).has w a = false := by
  have edge (e : Place × Nat × Nat) : (e.2.2 != a || !((eco x).has b e.2.1) || !(cause x).has e.2.1 a) = true ↔
      (e.2.2 = a → (eco x).has b e.2.1 = true → (cause x).has e.2.1 a = false) := by
    rw [Bool.or_eq_true, Bool.or_eq_true, bne_iff_ne, Bool.not_eq_true', Bool.not_eq_true', ← Bool.not_eq_true, or_assoc, ← imp_iff_not_or,
      ← imp_iff_not_or]
  simp only [uncaused, Bool.and_eq_true, beq_iff_eq, bne_iff_ne, List.all_eq_true, edge, and_assoc]
  refine and_congr_right fun _ => and_congr_right fun _ => and_congr_right fun _ => ⟨fun all l w rf => all _ rf rfl, ?_⟩
  rintro all ⟨l, w, c⟩ rf rfl
  exact all l w rf

/-- Where one of the two events is a write, only what a flow may miss excepts them from R242. -/
theorem unseen_of_coherent (h : coherent x = true) (before : (hb x).has a b = true) (lt : b < size x) (back : (eco x).has b a = true)
    (write : (ev x a).writes = true ∨ (ev x b).writes = true) : unseen x a b = true := by
  refine (excepted_of_coherent h before lt back).resolve_right fun chain => ?_
  obtain ⟨⟨first, second⟩, -⟩ := uncaused_iff.mp chain
  obtain write | write := write
  · exact kind_ne_read_of_writes write first
  · exact kind_ne_read_of_writes write second

end

section
variable {x : Execution} (h : allowed x = true) {l : Place} {a b v w q r u : Nat}
include h

/-! ### The clauses -/

/-- Two writes to one byte are ordered by coherence (R240). -/
theorem coBefore_total (ha : a < size x) (hb : b < size x) (ne : a ≠ b) (wa : (ev x a).writes = true) (wb : (ev x b).writes = true)
    (la : l ∈ (ev x a).locs) (lb : l ∈ (ev x b).locs) : coBefore x l a b = true ∨ coBefore x l b a = true := by
  obtain ⟨hf, -⟩ := axioms_of_allowed h
  have first := (mem_coOf_iff hf ha la).mpr ⟨ha, wa, la⟩
  have second := (mem_coOf_iff hf hb lb).mpr ⟨hb, wb, lb⟩
  obtain lt | lt := Nat.lt_or_gt_of_ne fun e => ne ((List.idxOf_inj first).mp e)
  · exact .inl (coBefore_iff.mpr ⟨first, second, lt⟩)
  · exact .inr (coBefore_iff.mpr ⟨second, first, lt⟩)

/-- A read takes no byte from a write that happens after it (R242). -/
theorem unseen_of_rf_of_hb (rf : (l, w, r) ∈ x.rf) (before : (hb x).has r w = true) : unseen x r w = true := by
  obtain ⟨hf, coh, -⟩ := axioms_of_allowed h
  obtain ⟨⟨writes, -, hw⟩, -⟩ := ends_of_rf hf rf
  exact unseen_of_coherent coh before hw (eco_of_rf hf rf) (.inr writes)

/-- A read takes no byte from a write that is co-before one that happens before it (R242). -/
theorem unseen_of_hb_of_coBefore (rf : (l, v, r) ∈ x.rf) (co : coBefore x l v w = true) (before : (hb x).has w r = true) :
    unseen x w r = true := by
  obtain ⟨hf, coh, -, caus⟩ := axioms_of_allowed h
  obtain ⟨-, -, hr⟩ := ends_of_rf hf rf
  obtain ⟨-, writes⟩ := writes_of_rf_of_coBefore hf rf co
  have ne : r ≠ w := by
    rintro rfl
    rw [hb_irrefl caus] at before
    exact absurd before (by decide)
  exact unseen_of_coherent coh before hr (eco_of_fr hf rf co ne) (.inl writes)

/-- Of two reads related by happens-before the later goes back in coherence order only in the two exceptions (R242). -/
theorem excepted_of_reads (rfq : (l, w, q) ∈ x.rf) (rfr : (l, v, r) ∈ x.rf) (co : coBefore x l v w = true) (before : (hb x).has q r = true) :
    unseen x q r = true ∨ (cause x).has w q = false ∧
      ((ev x q).agent.modNo, (ev x q).agent.die) ≠ ((ev x r).agent.modNo, (ev x r).agent.die) := by
  obtain ⟨hf, coh, -⟩ := axioms_of_allowed h
  by_cases same : r = w
  · subst same
    exact .inl (unseen_of_rf_of_hb h rfq before)
  obtain ⟨-, -, hr⟩ := ends_of_rf hf rfr
  have back := eco_of_fr hf rfr co same
  refine (excepted_of_coherent coh before hr (ERel.closure_trans _ back (eco_of_rf hf rfq))).imp_right fun chain => ?_
  obtain ⟨-, dies, unrelated⟩ := uncaused_iff.mp chain
  exact ⟨unrelated l w rfq back, dies⟩

/-- No read takes a byte from a write that is co-before one that is cause-before the read (R244). -/
theorem unseen_of_cause_of_coBefore (rf : (l, v, r) ∈ x.rf) (co : coBefore x l v w = true) (before : (cause x).has w r = true) :
    unseen x w r = true := by
  obtain ⟨-, -, -, caus⟩ := axioms_of_allowed h
  simp only [causal, Bool.and_eq_true] at caus
  obtain ⟨-, older⟩ := caus
  obtain ⟨-, listed, -⟩ := coBefore_iff.mp co
  have excepted := List.all_eq_true.mp (List.all_eq_true.mp older _ rf) w listed
  simpa only [co, before, Bool.and_self, Bool.not_true, Bool.false_or] using excepted

/-- No write stands between a read-modify-write and the write that it reads from (R243). -/
theorem not_coBefore_rmw (rf : (l, w, u) ∈ x.rf) (rmw : (ev x u).kind = .rmw) (co : coBefore x l w v = true) : coBefore x l v u = false := by
  obtain ⟨-, -, atom, -⟩ := axioms_of_allowed h
  have next : (coOf x l).idxOf u = (coOf x l).idxOf w + 1 := by
    simpa [rmw] using List.all_eq_true.mp atom _ rf
  obtain ⟨-, -, after⟩ := coBefore_iff.mp co
  refine Bool.eq_false_iff.mpr fun between => ?_
  obtain ⟨-, -, earlier⟩ := coBefore_iff.mp between
  omega

end

/-- Settles O60: each clause from its rule. Where the later of two reads is itself the write that the earlier one reads from, the earlier one
takes its byte from a write that happens after it. -/
theorem executionsAreCoherent : Obligations.ExecutionsAreCoherent := by
  unfold Obligations.ExecutionsAreCoherent
  intro x h
  obtain ⟨-, -, -, caus⟩ := axioms_of_allowed h
  exact ⟨fun _ _ _ => coBefore_total h, fun _ _ _ => unseen_of_rf_of_hb h, fun _ _ _ _ => unseen_of_hb_of_coBefore h,
    fun _ _ _ _ _ => excepted_of_reads h, fun _ _ _ _ => unseen_of_cause_of_coBefore h, fun _ _ _ _ => not_coBefore_rmw h,
    fun a => ⟨cause_irrefl caus a, hb_irrefl caus a⟩⟩

end Sys2Proof.Machine.Ordering
end

section
/-! PROOFS. The answers of the fabric (R334 to R343), the packets of other modules (R340), and the rounds of a switch reduction (R349). -/
namespace Sys2Proof.Machine

/-! ### Answers to this module's requests -/

section
variable {s : State} {req : Nat} {f : FReq}

theorem State.id_of_freq? (h : s.freq? req = some f) : f.id = req :=
  beq_iff_eq.mp (List.find?_some (p := fun (f : FReq) => f.id == req) h)

theorem execRemoteAck_of (h : s.freq? req = some f) (peer : f.peer ≠ s.modId) (data : DWord) :
    execRemoteAck req data s = .next (s.ackReq f data) := by
  simp only [execRemoteAck, h, if_neg peer]

theorem execRemoteRefusal_of (h : s.freq? req = some f) (peer : f.peer ≠ s.modId) {cause : Nat} (refusal : cause ∈ [1, 2, 3, 5]) :
    execRemoteRefusal req cause s = .next (s.refuse f cause) := by
  have known : cause = 1 ∨ cause = 2 ∨ cause = 3 ∨ cause = 5 := by simpa using refusal
  simp only [execRemoteRefusal, h, if_neg peer, if_pos known]

/-- A refused masked write leaves a record of its entry in the core's queue (R338). -/
theorem State.refuse_write {e : HEntry} (write : f.kind = .write e) (cause : Nat) :
    s.refuse f cause = (s.dropReq f.id).pushSf f.core (e.record e.low cause e.data.length) := by
  rw [State.refuse, write]

theorem execAckTimeout_of (h : s.freq? req = some f) (late : f.sent + Config.ackCycles ≤ s.now) :
    execAckTimeout req s = execDestinationUnreachable f.peer s := by
  simp only [execAckTimeout, h, if_pos late, execDestinationUnreachable]

end

theorem execProbeAnswer_of {s : State} {peer : Nat} (probing : s.probing.contains peer = true) :
    execProbeAnswer peer s = .next { s with probing := s.probing.filter (· != peer), down := s.down.filter (· != peer) } := by
  rw [execProbeAnswer, if_pos probing]

/-! ### Requests of other modules -/

/-- A packet that comes in its turn, while none of its source, source die and class is in service, is taken and served (R340). -/
theorem State.receive_turn {s : State} {p : Packet} {cls : Nat} {kind : SKind} (foreign : p.src ≠ s.modId)
    (idle : ∀ v ∈ s.served, v.pkt.src ≠ p.src ∨ v.pkt.srcDie ≠ p.srcDie ∨ v.pkt.cls ≠ cls)
    (turn : p.seqNo = sget 0 s.rxSeq ((p.src * 8 + p.srcDie) * 4 + cls)) :
    s.receive p cls kind =
      (let v : Served := { id := s.nextId, pkt := { p with cls }, kind }
       ({ s with nextId := s.nextId + 1, served := s.served ++ [v]
                 rxSeq := sset 0 s.rxSeq ((p.src * 8 + p.srcDie) * 4 + cls) (p.seqNo + 1) } : State).serve v) := by
  have fresh : (s.served.find? fun (v : Served) => v.pkt == { p with cls } && v.kind == kind) = none := by
    refine List.find?_eq_none.mpr fun v hv same => ?_
    obtain ⟨pkt, -⟩ := Bool.and_eq_true_iff.mp same
    have other := idle v hv
    rw [beq_iff_eq.mp pkt] at other
    simp at other
  have first : (s.served.any fun (v : Served) => v.before { p with cls }) = false := by
    refine List.any_eq_false.mpr fun v hv before => ?_
    simp only [Served.before, Bool.and_eq_true, beq_iff_eq] at before
    obtain ⟨⟨⟨src, die⟩, same⟩, -⟩ := before
    obtain other | other | other := idle v hv
    · exact other src
    · exact other die
    · exact other same
  have taken : ¬ (p.seqNo ≠ sget 0 s.rxSeq ((p.src * 8 + p.srcDie) * 4 + cls) ∨
      (s.served.any fun (v : Served) => v.before { p with cls }) = true ∨ p.src = s.modId) := by
    rintro (late | busy | own)
    · exact late turn
    · rw [first] at busy
      exact absurd busy (by decide)
    · exact foreign own
  simp only [State.receive, fresh, if_neg taken, State.newId]

/-! ### Revocations across modules -/

/-- A grant that stands for no claim of the module itself is gone at the report that its flows have ended (R343). -/
theorem execFlowsDrainedReport_of {s : State} {die entry : Nat}
    (foreign : ∀ g, find? (s.die die).grants entry = some g → ∀ x ∈ s.claimList, s.ownGrant g x.2 = false) :
    execFlowsDrainedReport die entry s = .next (s.modDie die fun d => { d with grants := sdel d.grants entry }) := by
  have done : ((find? (s.die die).grants entry).elim false fun g =>
      (svals s.claimList).any fun (c : Claim) => s.ownGrant g c && (c.flows != 0 || c.st == .held)) = false := by
    cases grant : find? (s.die die).grants entry with
    | none => rfl
    | some g =>
      refine List.any_eq_false.mpr fun c hc => ?_
      obtain ⟨x, hx, rfl⟩ := List.mem_map.mp hc
      simp only [foreign g grant x hx, Bool.false_and, Bool.false_eq_true, not_false_eq_true]
  simp only [execFlowsDrainedReport, done, Bool.false_eq_true, if_false]

/-! ### Switch reductions -/

section
variable {s : State} {c : Contrib} {o : PendOp} {cl : Ctl} {bf : Bool} {fop : FrOp} {x : O2} {q : Part}

/-- A round with one contribution of this module, which has no second copy, ends that contribution with the sums (R349, R350). -/
theorem execFredRoundComplete_single (only : s.contribs = [c]) (op : s.op? c.op = some o) (ins : o.ins = .fred cl bf fop x)
    (unpaired : (s.inst o.iid).paired = false) (part : o.part? c.tid = some q) (others : List (List Word)) :
    execFredRoundComplete c.group c.round others s = .next
      (({ s with contribs := [] } : State).fredOut o q x.d ((List.range 32).map fun l => fredWord c.bf c.fop
        (c.elems.getD l 0 :: others.map fun ws => (ws.map (·.toNat)).getD l 0))) := by
  have mine : (s.contribs.filter fun (d : Contrib) => d.group == c.group && d.round == c.round) = [c] := by simp [only]
  have left : (s.contribs.filter fun (d : Contrib) => !([c].contains d)) = [] := by simp [only]
  have kept : ({ s with contribs := [] } : State).op? c.op = some o := op
  have single : (({ s with contribs := [] } : State).inst o.iid).paired = false := unpaired
  simp only [execFredRoundComplete, mine, left, List.foldl_cons, List.foldl_nil, kept, single, ins, part, Bool.false_eq_true, if_false,
    List.map_cons, List.map_nil, List.singleton_append, List.map_map, Function.comp_def, Option.getD_some]

theorem execFredRefusal_single (only : s.contribs = [c]) (op : s.op? c.op = some o) (part : o.part? c.tid = some q)
    (park : ∀ t ∈ (s.inst o.iid).maskTids ((s.inst o.iid).hwOf c.tid) (q.arg 2), s.canPark o t = true) :
    execFredRefusal c.id s = .next (((({ s with contribs := [] } : State).partDone o.id c.tid).threadFault o.iid
      ((s.inst o.iid).hwOf c.tid) ((s.inst o.iid).maskTids ((s.inst o.iid).hwOf c.tid) (q.arg 2)) 1
      ([0, 1, 3, 4, 5, 6, 7].getD ((Config.openRead s.fresh 13).toNat % 7) 0) 0 o.hdr o.flag)) := by
  have parks : (((s.inst o.iid).maskTids ((s.inst o.iid).hwOf c.tid) (q.arg 2)).all fun t => s.canPark o t) = true :=
    List.all_eq_true.mpr park
  simp only [execFredRefusal, only, List.find?_cons, List.filter_cons, List.filter_nil, beq_self_eq_true, bne_self_eq_false,
    Bool.false_eq_true, if_false, op, part, Option.getD_some, parks, if_true]

end

/-- Settles O49: an answer by the kind of its request, the loss of a peer by the state in which it is up, a packet by its turn. -/
theorem fabricEvents : Obligations.FabricEvents := by
  unfold Obligations.FabricEvents
  intro s req peer core line cause data va f p r die len entry isDst drop word
  refine ⟨?requests, ?gone, execProbeAnswer_of, rfl, ?packets, ?revoked, ?drained, ?reductions⟩
  case requests =>
    intro h peer
    have ends : s.dropReq f.id = drop := by rw [State.id_of_freq? h]
    simp only [exec_remoteAck, execRemoteAck_of h peer, State.ackReq, ends]
    refine ⟨fun e k => by rw [k], fun op tid w own k => by rw [k], fun op tid k => by rw [k], fun d e dst k => by rw [k],
      fun id n k => by rw [k], execRemoteRefusal_of h peer, fun e write refusal => ?_, execAckTimeout_of h⟩
    rw [← ends, ← State.refuse_write write]
    exact execRemoteRefusal_of h peer refusal
  case gone =>
    intro probing down
    exact congrArg Host.Outcome.next ((if_neg (by rw [probing]; decide)).trans (if_neg (by rw [down]; decide)))
  case packets =>
    simp only [List.forall_mem_cons, List.not_mem_nil, false_imp_iff, implies_true, and_true, exec_remoteMaskedWrite,
      exec_remoteLoadRequest, exec_multicastCopy, exec_remoteAtomicRequest, exec_grantRequest]
    refine ⟨?write, ?load, ?copy, ?atomic, ?grant⟩
    case grant =>
      intro onDie nonempty foreign idle turn
      rw [execGrantRequest, if_pos ⟨onDie, nonempty⟩]
      exact congrArg Host.Outcome.next (State.receive_turn foreign idle turn)
    all_goals exact fun _ _ foreign idle turn => congrArg Host.Outcome.next (State.receive_turn foreign idle turn)
  case revoked =>
    intro known
    simp only [exec_peerRevokeMessage, execPeerRevokeMessage, if_pos known]
  case drained =>
    intro foreign
    refine ⟨_, execFlowsDrainedReport_of foreign, ?_, rfl⟩
    rw [State.die_modDie_self]
    exact find?_sdel_self _ _
  case reductions =>
    intro c o cl bf fop x others q only op ins unpaired part
    exact ⟨execFredRoundComplete_single only op ins unpaired part others, fun park => ⟨_, execFredRefusal_single only op part park⟩⟩

end Sys2Proof.Machine
end

section
/-! PROOFS. Entry of a steward's thread into a level (R302). -/
namespace Sys2Proof.Machine

/-- The states differ in the table of the dies at most. -/
def State.SameButDies (s t : State) : Prop := ∃ ds, t = { s with dies := ds }

theorem State.SameButDies.refl (s : State) : s.SameButDies s := ⟨s.dies, rfl⟩

theorem State.SameButDies.modDie (s : State) (d : Nat) (f : Die → Die) : s.SameButDies (s.modDie d f) := ⟨_, rfl⟩

/-- An event of the control-flow trace changes the trace of its die alone (R326, R327). -/
theorem State.traceWarp_sameButDies (s : State) (iid : Nat) (warp tids : List Nat) (kind : Nat) (target : DWord) :
    s.SameButDies (s.traceWarp iid warp tids kind target) := by
  unfold State.traceWarp
  extract_lets i d t first ts w f seq e f' s'
  split
  case isTrue => exact .refl s
  case isFalse =>
    split
    case isTrue =>
      split
      case isTrue => exact .refl s
      case isFalse => exact .modDie s d _
    case isFalse =>
      split
      case isTrue => exact ⟨_, rfl⟩
      case isFalse => exact .modDie s d _

theorem Steward.regs_setRegs_self (x : Steward) (level : Nat) (r : TrapRegs) : (x.setRegs level r).regs level = r := by
  by_cases h : level = 2 <;> simp [Steward.regs, Steward.setRegs, h]

/-- Of the two levels, a change of one leaves the other. -/
theorem Steward.regs_setRegs_other (x : Steward) {level : Nat} (h : level = 1 ∨ level = 2) (r : TrapRegs) :
    (x.setRegs level r).regs (3 - level) = x.regs (3 - level) := by
  rcases h with rfl | rfl <;> rfl

theorem State.steward_setSteward_self (s : State) (k : Nat) (x : Steward) : (s.setSteward k x).steward k = x :=
  sget_sset_self _ _ _ _

/-- The trap registers of the level that a steward's thread enters (R302). -/
def TrapRegs.onEntry (r : TrapRegs) (old : Nat) (t : TrapInfo) (resume : DWord) : TrapRegs :=
  { r with epc := resume, ecause := BitVec.ofNat 64 (t.cause % 256) ||| (BitVec.ofNat 64 t.detail <<< 32)
           epriv := BitVec.ofNat 64 (if old = 2 then 2 else 1), ie := false, eaddr := t.addr }

/-- The entry as updates of the state: but for its trace event it changes the steward and its thread alone. -/
theorem State.enterLevel_eq (s : State) (k level : Nat) (t : TrapInfo) (resume : DWord) : ∃ ds, s.enterLevel k level t resume =
    (({ s with dies := ds } : State).setSteward k ((s.steward k).setRegs level
      (TrapRegs.onEntry ((s.steward k).regs level) ((s.inst k).th 0).level t resume))).modTh k 0
        fun th => { th with pc := ((s.steward k).regs level).vec + 8, level := level } := by
  obtain ⟨ds, traced⟩ := s.traceWarp_sameButDies k [0] [0] 3 ((s.steward k).regs level).vec
  refine ⟨ds, ?_⟩
  unfold State.enterLevel
  rw [← traced]
  rfl

theorem State.enterLevel_steward (s : State) (k level : Nat) (t : TrapInfo) (resume : DWord) :
    (s.enterLevel k level t resume).steward k = (s.steward k).setRegs level
      (TrapRegs.onEntry ((s.steward k).regs level) ((s.inst k).th 0).level t resume) := by
  obtain ⟨ds, entered⟩ := s.enterLevel_eq k level t resume
  rw [entered]
  exact State.steward_setSteward_self _ _ _

theorem State.enterLevel_mem (s : State) (k level : Nat) (t : TrapInfo) (resume : DWord) : (s.enterLevel k level t resume).mem = s.mem := by
  obtain ⟨ds, entered⟩ := s.enterLevel_eq k level t resume
  rw [entered]
  rfl

theorem State.enterLevel_th {s : State} {k : Nat} {i : Inst} {th : Thread} (hi : s.inst? k = some i) (ht : i.th? 0 = some th)
    (level : Nat) (t : TrapInfo) (resume : DWord) : ((s.enterLevel k level t resume).inst k).th 0 =
      { th with pc := ((s.steward k).regs level).vec + 8, level := level } := by
  obtain ⟨ds, entered⟩ := s.enterLevel_eq k level t resume
  have kept : (({ s with dies := ds } : State).setSteward k ((s.steward k).setRegs level
    (TrapRegs.onEntry ((s.steward k).regs level) ((s.inst k).th 0).level t resume))).inst? k = some i := hi
  rw [entered, State.modTh, State.inst_modInst_of _ kept, Inst.th_modTh_of _ ht]

theorem State.stewardTrapAt_enters {s : State} {k level : Nat} (ie : ((s.steward k).regs level).ie = true) (t : TrapInfo) (resume : DWord) :
    s.stewardTrapAt k level t resume = s.enterLevel k level t resume := if_pos ie

/-- Settles O32: with IE set the trap is the entry alone, and the two double traps are the branches with IE clear. -/
theorem stewardEntry : Obligations.StewardEntry := by
  unfold Obligations.StewardEntry
  refine ⟨fun s k t resume i th hi ht level hl ie => ?enters, fun s k t resume clear => ⟨fun ie => ?monitor, fun clear2 => ?halts⟩⟩
  case enters =>
    have old : ((s.inst k).th 0).level = th.level := by rw [State.inst_of_inst? hi, Inst.th, ← Inst.th?, ht]; rfl
    rw [State.stewardTrapAt_enters ie]
    simp only [State.enterLevel_steward, Steward.regs_setRegs_self, Steward.regs_setRegs_other _ hl, State.enterLevel_mem,
      State.enterLevel_th hi ht, TrapRegs.onEntry, old, and_self, and_true, true_and]
    split <;> rfl
  case monitor =>
    rw [State.stewardTrapAt_enters ie, State.stewardTrapAt]
    simp only [clear, ie, Bool.false_eq_true, if_false, if_true]
  case halts =>
    rw [State.stewardTrapAt]
    simp only [clear, clear2, Bool.false_eq_true, if_false, if_true, and_self]

end Sys2Proof.Machine
end

section
/-! PROOFS. SCALL, MCALL and ERET (R301, R302, R306, R307). -/
namespace Sys2Proof.Machine

/-- Settles O33: with a run on a steward core neither of the checks of ERET ends it. -/
theorem exceptionReturn : Obligations.ExceptionReturn := by
  unfold Obligations.ExceptionReturn
  intro s is c h nonempty steward l r
  rw [exec_eret, execEret]
  exact transfer_of h ((if_neg (mt List.isEmpty_iff.1 nonempty)).trans (if_neg (by simp [steward])))

/-- Threads of one home warp are one group. -/
theorem byHw_of_forall_eq {i : Inst} {h : Nat} {ls : List LaneT} (nonempty : ls ≠ []) (one : ∀ l ∈ ls, i.hwOf l.tid = h) :
    byHw i ls = [(h, ls)] := by
  have names : (ls.map fun l => i.hwOf l.tid).eraseDups = [h] :=
    eraseDups_of_forall_eq (by simpa using nonempty) (by simpa using one)
  have all : (ls.filter fun l => i.hwOf l.tid == h) = ls := List.filter_eq_self.2 (by simpa using one)
  simp only [byHw, names, List.insertionSort_cons, List.insertionSort_nil, List.orderedInsert_nil, List.map_cons, List.map_nil, all]

section
variable {s : State} {is : Issue} {c : Ctl} (nonempty : s.runs is c ≠ [])
include nonempty

/-- SCALL of one code in one home warp parks its threads with one record (R306). -/
theorem execScall_single {b : BSrc} {k h : Nat} (issued : Issues s is (.scall c b) c []) (stage : (s.inst is.iid).kind = .stage)
    (code : ∀ r ∈ s.runs is c, (s.srcB is r .b32 b).toNat % 256 = k) (home : ∀ r ∈ s.runs is c, (s.inst is.iid).hwOf r.t.tid = h) :
    execScall c b s = .next (((s.leaveIssue is.iid ((s.runs is c).map (·.t.tid))).toSupervisor is.iid h
      ((s.runs is c).map (·.t.tid)) 1 k ⟨k, 0, 0, is.follow, is.hdrAt, laneMask ((s.runs is c).map (·.t)), is.idx, 0x3C1, false⟩
      false).settleAt is c) := by
  have codes : (((s.runs is c).map fun r => ((s.srcB is r .b32 b).toNat % 256, r.t)).map (·.1)).eraseDups = [k] :=
    eraseDups_of_forall_eq (by simpa using nonempty) (by simpa using code)
  have all : (((s.runs is c).map fun r => ((s.srcB is r .b32 b).toNat % 256, r.t)).filter fun p => p.1 == k).map (·.2) =
      (s.runs is c).map (·.t) := by
    rw [List.filter_eq_self.2 (by simpa using code), List.map_map]
    rfl
  have group : byHw (s.inst is.iid) ((s.runs is c).map (·.t)) = [(h, (s.runs is c).map (·.t))] :=
    byHw_of_forall_eq (by simpa using nonempty) (by simpa using home)
  refine transfer_of issued ((if_neg (mt List.isEmpty_iff.1 nonempty)).trans ((if_neg (by simp [stage])).trans ?_))
  simp only [codes, List.insertionSort_cons, List.insertionSort_nil, List.orderedInsert_nil, List.foldl_cons, List.foldl_nil, all, group]
  rw [List.map_map]
  rfl

/-- MCALL of an allocated function in one home warp parks its threads for the monitor (R307). -/
theorem execMcall_stage {fn : BitVec 8} {h : Nat} (issued : Issues s is (.mcall c fn) c []) (stage : (s.inst is.iid).kind = .stage)
    (allocated : fn.toNat < 8) (home : ∀ r ∈ s.runs is c, (s.inst is.iid).hwOf r.t.tid = h) :
    execMcall c fn s = .next (((s.leaveIssue is.iid ((s.runs is c).map (·.t.tid))).newSub is.iid h
        ((s.runs is c).map (·.t.tid)) [] is.follow is.hdrAt 0 (.monitor fn.toNat)).2.settleAt is c) := by
  have group : byHw (s.inst is.iid) ((s.runs is c).map (·.t)) = [(h, (s.runs is c).map (·.t))] :=
    byHw_of_forall_eq (by simpa using nonempty) (by simpa using home)
  refine transfer_of issued ((if_neg (mt List.isEmpty_iff.1 nonempty)).trans ?_)
  simp only [stage, Nat.not_le.2 allocated, if_false, group, List.foldl_cons, List.foldl_nil, List.map_map]
  rfl

/-- MCALL of a steward's thread at S enters M (R307). -/
theorem execMcall_supervisor {fn : BitVec 8} (issued : Issues s is (.mcall c fn) c []) (steward : (s.inst is.iid).kind = .steward)
    (level : ((s.inst is.iid).th 0).level = 1) :
    execMcall c fn s = .next (((s.leaveIssue is.iid [0]).stewardTrapAt is.iid 2 ⟨4, fn.toNat, 0⟩ is.follow).settleAt is c) := by
  refine transfer_of issued ((if_neg (mt List.isEmpty_iff.1 nonempty)).trans ?_)
  simp only [steward, level]
  rfl

/-- MCALL of a thread at M answers 2 (R307). -/
theorem execMcall_monitor {fn : BitVec 8} (issued : Issues s is (.mcall c fn) c []) (kind : (s.inst is.iid).kind ≠ .stage)
    (level : ((s.inst is.iid).th 0).level = 2) :
    execMcall c fn s = .next ((s.asyncWrites is.iid [(.v 0 0, 2)]).settleAt is c) := by
  refine transfer_of issued ((if_neg (mt List.isEmpty_iff.1 nonempty)).trans ?_)
  cases k : (s.inst is.iid).kind with
  | stage => exact absurd k kind
  | steward => simp only [level, if_true]; rfl
  | walker => simp only [level, if_true]; rfl

end

/-- Settles O31: SCALL, and MCALL from each of the three levels. -/
theorem callsForService : Obligations.CallsForService := by
  unfold Obligations.CallsForService
  exact ⟨fun s is c b k h issued nonempty stage code home => execScall_single nonempty issued stage code home,
    fun s is c fn h issued nonempty => ⟨execMcall_stage nonempty issued, execMcall_supervisor nonempty issued,
      execMcall_monitor nonempty issued⟩⟩

end Sys2Proof.Machine
end

section
/-! PROOFS. The state after power-on (R276, R298). -/
namespace Sys2Proof.Machine

/-- A table that lists a function's values lists them at the keys given, and nothing else. -/
theorem find?_tabulate {β : Type} (f : Nat → β) (ks : List Nat) (a : Nat) :
    find? (ks.map fun k => (k, f k)) a = if a ∈ ks then some (f a) else none := by
  induction ks with
  | nil => rfl
  | cons k ks ih =>
    by_cases h : a = k
    · simp [find?, h]
    · simp [find?, h, ih]

/-- After power-on the stewards' instances are listed, and no others. -/
theorem State.reset_inst? (k : Nat) : State.reset.inst? k = if k < 64 then some (stewardInst k) else none := by
  rw [State.inst?, State.reset, find?_tabulate]
  simp only [List.mem_range]

/-- Settles O6: the tables are empty but that of the instances. -/
theorem resetState : Obligations.ResetState := by
  unfold Obligations.ResetState
  refine ⟨rfl, rfl, rfl, rfl, fun _ => rfl, fun _ => rfl, rfl, rfl, rfl, fun _ => ⟨rfl, rfl⟩, fun d n hd hn => ?stewards, fun k i hi => ?only⟩
  case stewards =>
    have listed : stewardId d n < 64 := by rw [stewardId]; omega
    have number : stewardId d n % 8 = n := by rw [stewardId]; omega
    refine ⟨stewardInst (stewardId d n), by rw [State.reset_inst?, if_pos listed], rfl, ?_⟩
    show (if stewardId d n % 8 = 0 then 2 else 1) = _
    rw [number]
  case only =>
    rw [State.reset_inst?] at hi
    split at hi
    case isTrue listed => exact ⟨by rw [← Option.some.inj hi]; rfl, listed⟩
    case isFalse => cases hi

end Sys2Proof.Machine
end

section
/-! PROOFS. Boot, the management port and the power of the module (R291, R294, R295, R298 to R300). -/
namespace Sys2Proof.Machine

/-- The measurement of an image extends the chain of the images before it (R294). -/
def measured (chain : List Byte) (img : BootImage) : List Byte := shake256 64 (chain ++ img.meas)

/-- A boot whose images all verify measures them in order. -/
theorem bootChain_of_ok {imgs : List BootImage} (ok : ∀ i ∈ imgs, i.sigOk = true) (s : State) :
    bootChain s imgs = (true, { s with monitor := { s.monitor with chain := imgs.foldl measured s.monitor.chain } }) := by
  induction imgs generalizing s with
  | nil => rfl
  | cons img imgs ih =>
    obtain ⟨first, rest⟩ := List.forall_mem_cons.1 ok
    rw [bootChain, if_pos first, ih rest]
    rfl

/-- A boot with an image that does not verify ends there. -/
theorem bootChain_of_bad {imgs : List BootImage} (bad : ∃ i ∈ imgs, i.sigOk = false) (s : State) :
    ∃ t, bootChain s imgs = (false, t) ∧ t.booted = s.booted := by
  induction imgs generalizing s with
  | nil =>
    obtain ⟨i, listed, -⟩ := bad
    cases listed
  | cons img imgs ih =>
    cases first : img.sigOk with
    | false => exact ⟨s, if_neg (by simp [first]), rfl⟩
    | true =>
      have later : ∃ i ∈ imgs, i.sigOk = false := by
        obtain ⟨i, listed, unsigned⟩ := bad
        rcases List.mem_cons.1 listed with rfl | listed
        · rw [first] at unsigned
          cases unsigned
        · exact ⟨i, listed, unsigned⟩
      obtain ⟨t, ends, same⟩ := ih later (s.extend img)
      exact ⟨t, (if_pos first).trans ends, same⟩

/-- A reading where only the keys with a property are kept. -/
theorem find?_filterKeys {β : Type} (p : Nat → Bool) (m : SMap β) (a : Nat) :
    find? (m.filter fun x => p x.1) a = if p a = true then find? m a else none := by
  induction m with
  | nil => simp [find?]
  | cons x m ih =>
    obtain ⟨k, v⟩ := x
    by_cases h : a = k
    · subst h
      cases kept : p a with
      | true => simp [kept, find?]
      | false => simpa [kept] using ih
    · cases kept : p k with
      | true => simp [kept, find?, h, ih]
      | false => simp [kept, find?, h, ih]

section
variable {s : State} {imgs : List BootImage}

/-- POWER_ON_BOOT starts where the module neither is up nor has halted, with the images of the three stages. -/
theorem powerOnBoot_starts_iff : ¬(s.booted || s.halted || decide (imgs.length < 3)) = true ↔
    (s.booted = false ∧ s.halted = false) ∧ 3 ≤ imgs.length := by
  simp

/-- A boot whose images all verify ends with their chain (R298). -/
theorem execPowerOnBoot_of_ok (starts : (s.booted = false ∧ s.halted = false) ∧ 3 ≤ imgs.length) (ok : ∀ i ∈ imgs, i.sigOk = true) :
    execPowerOnBoot imgs s =
      .next { s with booted := true, monitor := { s.monitor with chain := imgs.foldl measured s.monitor.chain } } := by
  rw [execPowerOnBoot, if_neg (powerOnBoot_starts_iff.2 starts), bootChain_of_ok ok]

/-- A boot with an image that does not verify halts the module (R298). -/
theorem execPowerOnBoot_of_bad (starts : (s.booted = false ∧ s.halted = false) ∧ 3 ≤ imgs.length) (bad : ∃ i ∈ imgs, i.sigOk = false) :
    ∃ t, execPowerOnBoot imgs s = .next t ∧ t.halted = true ∧ t.booted = false := by
  obtain ⟨t, ends, same⟩ := bootChain_of_bad bad s
  rw [execPowerOnBoot, if_neg (powerOnBoot_starts_iff.2 starts), ends]
  exact ⟨_, rfl, rfl, same.trans starts.1.1⟩

end

/-- A compute-side reset keeps the bytes of the far tier alone (R291). -/
theorem execComputeSideReset_keeps_far (s : State) : ∃ t, execComputeSideReset s = .next t ∧ t.booted = false ∧ t.issues = [] ∧
    t.launches = [] ∧ t.insts = State.reset.insts ∧ ∀ a, t.byteAt a = if paFar a = true then s.byteAt a else unlistedByte := by
  refine ⟨_, rfl, rfl, rfl, rfl, rfl, fun a => ?_⟩
  show sget unlistedByte (s.mem.filter fun p => paFar p.1) a = _
  rw [sget, find?_filterKeys]
  split <;> rfl

/-- Settles O51: boot by the two lemmas of its chain, the reset by what it keeps; the others are single updates. -/
theorem moduleEvents : Obligations.ModuleEvents := by
  unfold Obligations.ModuleEvents
  intro s imgs img nonce on
  refine ⟨fun down running enough => ⟨execPowerOnBoot_of_ok ⟨⟨down, running⟩, enough⟩, execPowerOnBoot_of_bad ⟨⟨down, running⟩, enough⟩⟩,
    fun activating next => ?activated, fun up => ?port, rfl, rfl, execComputeSideReset_keeps_far s⟩
  case activated =>
    rw [exec_activationEnd, execActivationEnd, next]
    exact congrArg Host.Outcome.next (if_pos activating)
  case port =>
    have up : ¬(!s.booted) = true := by simp [up]
    refine ⟨fun idle ok => ?image, fun idle => ?attest, ⟨_, congrArg Host.Outcome.next (if_neg up)⟩⟩
    case image => exact congrArg Host.Outcome.next ((if_neg up).trans (if_neg (by simp [idle, ok])))
    case attest => exact congrArg Host.Outcome.next ((if_neg up).trans (if_neg (by simp [idle])))

end Sys2Proof.Machine
end

section
/-! PROOFS. The status space, trace marks and error injection (R264, R303, R326), and the ends of walks and launches (R266, R305, R313). -/
namespace Sys2Proof.Machine

section
variable {s : State} {is : Issue} {c : Ctl}

/-- MOVPS of allocated indices settles with what it reads there (R303). -/
theorem execMovps_of {d : Nat} {b : BSrc} (h : Issues s is (.movps c d b) c [])
    (ok : ∀ r ∈ s.runs is c, s.psOk is.iid (psIdx (s.srcB is r .n32 b).toNat) = true) :
    execMovps c d b s = .next (s.settle is c 3
      ((s.runs is c).flatMap fun r => s.dst is r true d (s.psRead is.iid (psIdx (s.srcB is r .n32 b).toNat)))) := by
  have allocated : ((s.runs is c).any fun r => !s.psOk is.iid (psIdx (s.srcB is r .n32 b).toNat)) = false := by
    simpa [List.any_eq_false] using ok
  unfold execMovps
  rw [inClause_of h.focus, issueIns_of h]
  simp only [allocated, Bool.false_eq_true, if_false]
  rfl

section
variable {a : VSrc} {b : BSrc} {r : Run} (h : Issues s is (.movpsW c a b) c []) (one : s.runs is c = [r])
  (ok : s.psOk is.iid (psIdx (s.srcB is r .n32 b).toNat) = true)
include h one ok

/-- MOVPS.w settles in the state that its write leaves. -/
theorem execMovpsW_done {t : State} (wrote : s.psWrite is.iid ((s.inst is.iid).th (lowest is.lanes).tid).level
    (psIdx (s.srcB is r .n32 b).toNat) (s.srcV is r true a) = .done t) : execMovpsW c a b s = .next (t.settle is c 3 []) := by
  unfold execMovpsW
  rw [inClause_of h.focus, issueIns_of h]
  simp only [one, ok, wrote, Bool.not_true, Bool.false_eq_true, if_false]
  rfl

/-- MOVPS.w of what only M may write traps. -/
theorem execMovpsW_privilege (lacks : s.psWrite is.iid ((s.inst is.iid).th (lowest is.lanes).tid).level
    (psIdx (s.srcB is r .n32 b).toNat) (s.srcV is r true a) = .privilege) :
    execMovpsW c a b s = .next (s.trapThreads is [r.t.tid] 2 0x3C9 0 is.hdrAt 0x3C9) := by
  unfold execMovpsW
  rw [inClause_of h.focus, issueIns_of h]
  simp only [one, ok, lacks, Bool.not_true, Bool.false_eq_true, if_false]

end

/-- TRMARK settles after an event for each tag of its threads (R326). -/
theorem execTrmark_of {b : BSrc} (h : Issues s is (.trmark c b) c []) : execTrmark c b s = .next
    (let ts := (s.runs is c).map fun r => ((s.srcB is r .n32 b &&& 0xFFFF), r.t.tid)
     (((ts.map (·.1)).eraseDups).foldl (fun s x => s.traceEvent is ((Config.openRead s.fresh 326).toNat % 256)
       ((ts.filter fun t => t.1 == x).map (·.2)) x) s).settle is c 3 []) := by
  unfold execTrmark
  rw [inClause_of h.focus, issueIns_of h]
  rfl

/-- Without the context's leave, and outside compute threads, an injection does nothing; with it, and outside record and replay, it acts in
every thread whose memory effects count (R262, R264). -/
theorem einjOp_of {ins : Instr} (kind : Nat) (act : State → Issue → Run → State) (h : Issues s is ins c []) :
    ((s.ctx (s.inst is.iid).ctx).ccb.inj = false ∨ (s.inst is.iid).kind ≠ .stage →
      einjOp ins c kind act s = .next (s.inFlight is ins c ((s.runs is c).map fun r => partOf r []) [])) ∧
    ((s.ctx (s.inst is.iid).ctx).ccb.inj = true → (s.inst is.iid).kind = .stage → (s.ctx (s.inst is.iid).ctx).ccb.recB = false →
      (s.ctx (s.inst is.iid).ctx).ccb.rplB = false → einjOp ins c kind act s = .next
        (let t := ((s.runs is c).filter fun r => !s.muted is.iid r.t.tid s.nextId).foldl (fun s r => act s is r) s
         t.inFlight is ins c ((t.runs is c).map fun r => partOf r []) [])) := by
  unfold einjOp
  rw [inClause_of h.focus, issueIns_of h]
  refine ⟨fun off => ?off, fun on stage unrecorded live => ?on⟩
  case off =>
    have off : (!(s.ctx (s.inst is.iid).ctx).ccb.inj || (s.inst is.iid).kind != .stage) = true := by simpa using off
    simp only [off, if_true]
    rfl
  case on =>
    have on : ¬(!(s.ctx (s.inst is.iid).ctx).ccb.inj || (s.inst is.iid).kind != .stage) = true := by simp [on, stage]
    have plain : s.plain (s.inst is.iid).ctx := ⟨unrecorded, live⟩
    simp only [on, live, State.gateAll_plain plain, Bool.false_eq_true, if_false, if_true]
    rfl

/-- WRET ends the walk of its walker (R266). -/
theorem wretOp_ends {ins : Instr} {k : Nat} {w : Walk} (e : Walk → WalkEnd) (h : Issues s is ins c []) (nonempty : s.runs is c ≠ [])
    (walks : s.walkOf is.iid = some (k, w)) (current : w.again = false) :
    wretOp ins c e s = .next ((s.endWalk (is.iid - 64) (e w)).settleAt is c) := by
  refine transfer_of h ((if_neg (mt List.isEmpty_iff.1 nonempty)).trans ?_)
  simp only [walks, current, Bool.false_eq_true, if_false]

/-- LAUNCH goes on once the descriptors of all its parts are read and none of them names another context (R305). -/
theorem execLaunch_read {o : O1} {id : Nat} {y : PendOp} (h : Issues s is (.launch c o) c []) (started : is.part = some id)
    (op : s.op? id = some y) (read : ∀ p ∈ y.parts, 2 ≤ (p.arg 3).toNat ∧ (p.arg 3 = 2 → (p.arg 8).toNat % 2 ^ 16 = (s.inst is.iid).ctx)) :
    execLaunch c o s = .next
      (({ s with issues := s.issues.map fun (x : Issue) => if x.q == is.q then { x with part := none } else x } : State).past is c) := by
  have far {p : Part} (hp : p ∈ y.parts) : ¬p.arg 3 ≤ 1 ∧ p.arg 3 ≠ 0 ∧ p.arg 3 ≠ 1 := by
    have := (read p hp).1
    refine ⟨?_, ?_, ?_⟩ <;> bv_omega
  unfold execLaunch
  refine issued_go (more := fun _ => _) h ?_
  simp only [started]
  rw [List.foldl_fixed']
  · simp only [op, Option.map_some, Option.getD_some]
    refine (if_neg ?known).trans (if_pos ?own)
    case known => exact (List.any_eq_true.not.2 fun ⟨p, hp, unread⟩ => (far hp).1 (of_decide_eq_true unread))
    case own =>
      refine List.isEmpty_iff.2 (List.filter_eq_nil_iff.2 fun p hp => ?_)
      replace hp : p ∈ ((s.op? id).map (·.parts)).getD [] := hp
      rw [op] at hp
      have := (read p hp).2
      simp only [Bool.and_eq_true, beq_iff_eq, bne_iff_ne, not_and, not_not]
      exact fun is2 => this is2.1
  · intro p
    split
    case h_1 => rfl
    case h_2 x q found =>
      simp only [op, Option.bind_some, Option.map_eq_some_iff] at found
      obtain ⟨q', part, same⟩ := found
      obtain ⟨rfl, rfl⟩ := Prod.mk.inj same
      obtain ⟨known, not0, not1⟩ := far (List.mem_of_find?_eq_some part)
      simp only [known, not0, not1, decide_false, Bool.false_and, Bool.false_eq_true, if_false]

end

/-- Settles O45: the two ends of an injection are one rule for its four kinds, and that of a walk one for the three of WRET. -/
theorem systemOperations : Obligations.SystemOperations := by
  unfold Obligations.SystemOperations
  intro s t is c d id cause a b o i ix
  refine ⟨execMovps_of, fun r h one ok => ⟨execMovpsW_done h one ok, execMovpsW_privilege h one ok⟩, execTrmark_of, ?inject,
    fun k w nonempty walks current => ?wret, fun y => execLaunch_read⟩
  case inject =>
    simp only [List.forall_mem_cons, List.not_mem_nil, false_imp_iff, implies_true, and_true]
    exact ⟨einjOp_of _ _, einjOp_of _ _, einjOp_of _ _, einjOp_of _ _⟩
  case wret =>
    have ends {ins : Instr} (e : Walk → WalkEnd) (h : Issues s is ins c []) := wretOp_ends e h nonempty walks current
    simp only [List.forall_mem_cons, List.not_mem_nil, false_imp_iff, implies_true, and_true]
    exact ⟨ends _, ends _, ends _⟩

end Sys2Proof.Machine
end

section
/-! PROOFS. Record and replay, precise stops and the trace (R314 to R328). -/
namespace Sys2Proof.Machine

theorem State.ctx_modCtx_self (s : State) (c : Nat) (f : Ctx → Ctx) : (s.modCtx c f).ctx c = f (s.ctx c) := sget_sset_self _ _ _ _

theorem State.ctx_pushEvent (s : State) (d event sub ctx unit page c : Nat) : (s.pushEvent d event sub ctx unit page).ctx c = s.ctx c := rfl

section
variable {s : State} {ctx src : Nat}

/-- The oldest record that waits is written once the ring has room (R314). -/
theorem execLogRecordWrite_room {a : Nat} {r : List Byte} {rest : List (Nat × List Byte)} (recording : (s.ctx ctx).ccb.recB = true)
    (room : (s.ctx ctx).log.full = false) (held : (s.ctx ctx).log.held = (a, r) :: rest) :
    execLogRecordWrite ctx s = .next ((s.logWrite ctx a r).modCtx ctx fun x => { x with log := { x.log with
      held := rest, ready := x.log.ready ++ [(a, r)] }.unwait }) := by
  rw [execLogRecordWrite, if_pos recording, State.logHeld]
  simp only [room, held, Bool.false_eq_true, if_false]

section
variable (replaying : (s.ctx ctx).ccb.rplB = true)
include replaying

/-- A source without a record at hand takes its next one (R317). -/
theorem execReplayRecordApply_takes {y : Nat × List Byte} (free : find? ((s.skipFabric ctx).ctx ctx).log.next src = none)
    (next : (s.skipFabric ctx).logNext ctx src = some y) : execReplayRecordApply ctx src s = .next
      (((s.skipFabric ctx).applyNext ctx src).modCtx ctx fun x => { x with log := { x.log with waits := sdel x.log.waits src } }) := by
  rw [execReplayRecordApply, if_pos replaying, State.replayApply]
  simp only [free, next]

/-- A source without a next record waits, and the supervisor is told once (R317). -/
theorem execReplayRecordApply_waits (free : find? ((s.skipFabric ctx).ctx ctx).log.next src = none)
    (dry : (s.skipFabric ctx).logNext ctx src = none) (untold : find? ((s.skipFabric ctx).ctx ctx).log.waits src ≠ some 0) :
    execReplayRecordApply ctx src s = .next
      (((s.skipFabric ctx).modCtx ctx fun x => { x with log := { x.log with waits := sput x.log.waits src 0 } }).pushEvent 0 7 1 ctx 0
        ((s.skipFabric ctx).ctx ctx).log.producer) := by
  rw [execReplayRecordApply, if_pos replaying, State.replayApply]
  simp only [free, dry, beq_eq_false_iff_ne.2 untold, Bool.false_eq_true, if_false]

section
variable (live : (s.ctx ctx).log.diverged = false)
include live

/-- A divergence that an instruction has met stops the context (R319). -/
theorem execReplayDivergence_met {k n : Nat} (met : (s.ctx ctx).log.diverge = some (k, n)) (h2 : k ≠ 2) (h4 : k ≠ 4) :
    execReplayDivergence ctx k s = .next (s.diverge ctx k n) := by
  rw [execReplayDivergence]
  simp only [live, replaying, met, Bool.not_true, Bool.false_eq_true, if_false, if_true]

/-- So does a record of a reserved type (R319). -/
theorem execReplayDivergence_reserved {k : Nat} (reserved : s.reservedRec ctx = some k) :
    execReplayDivergence ctx 2 s = .next (s.diverge ctx 2 k) := by
  rw [execReplayDivergence]
  simp only [live, replaying, reserved, Bool.not_true, Bool.false_eq_true, if_false]

/-- So does a context of which nothing can go on (R319). -/
theorem execReplayDivergence_stuck (stuck : s.stuck ctx = true) :
    execReplayDivergence ctx 4 s = .next (s.diverge ctx 4 (s.ctx ctx).log.replay) := by
  rw [execReplayDivergence]
  simp only [live, replaying, stuck, Bool.not_true, Bool.false_eq_true, if_false, if_true]

end
end

/-- Partners compare the oldest signatures that both have (R321). -/
theorem State.comparePair_of {a b : Nat} {as bs : List Nat} (mine : (s.ctx ctx).sigs = a :: as)
    (other : (s.ctx (s.ctx ctx).log.partner).sigs = b :: bs) (mates : s.mates ctx = true) : s.comparePair ctx =
      (let p := (s.ctx ctx).log.partner
       let t := (s.modCtx ctx fun x => { x with sigs := x.sigs.drop 1 }).modCtx p fun x => { x with sigs := x.sigs.drop 1 }
       if a = b then t else (t.diverge ctx 6 0).diverge p 6 0) := by
  rw [State.comparePair]
  simp only [mates, mine, other, Bool.not_true, Bool.false_eq_true, if_false]

/-- A clause without results and operations stops its context at once (R323). -/
theorem execPreciseStop_settled {is : Issue} (stops : (s.issues.find? fun (y : Issue) => (s.inst y.iid).kind == .stage &&
      (s.inst y.iid).ctx == ctx && y.stopAt == some y.idx) = some is) (settled : is.writes = [])
    (running : (s.ctx ctx).log.stopped = false) (quiet : s.ops = []) : ∃ t, execPreciseStop ctx s = .next t ∧
      (t.ctx ctx).log.stopped = true ∧ t.mem = s.mem ∧ t.cores = s.cores ∧ t.insts = s.insts := by
  rw [execPreciseStop]
  simp only [stops, running, quiet, settled, List.any_nil, Bool.or_self, Bool.false_eq_true, if_false, List.reverse_nil, List.foldl_nil]
  refine ⟨_, rfl, ?_, rfl, rfl, rfl⟩
  rw [State.ctx_pushEvent, State.ctx_modCtx_self]

end

/-- Records that are handed over for the trace change the traces of the dies alone. -/
theorem State.traceQueue_foldl (s : State) (d core : Nat) (recs : List (List Byte)) :
    ∃ ds, recs.foldl (fun s r => s.traceQueue d core r) s = { s with dies := ds } := by
  induction recs generalizing s with
  | nil => exact ⟨s.dies, rfl⟩
  | cons r recs ih => exact ih (s.traceQueue d core r)

/-- A bin after its core has emitted its counts: those of an enabled bin are cleared (R328). -/
def Bin.emitted (b : Bin) : Bin := if b.ctl.getLsbD 0 then { b with cnt := [0, 0, 0, 0, 0] } else b

theorem Bin.emitted_cnt {b : Bin} (on : b.emitted.ctl.getLsbD 0 = true) : b.emitted.cnt = [0, 0, 0, 0, 0] := by
  unfold Bin.emitted at on ⊢
  split
  case isTrue => rfl
  case isFalse off =>
    rw [if_neg off] at on
    exact absurd on off

/-- A core after it has emitted its lane-cycle records (R328). -/
def Core.emitted (k : Core) (now : Nat) : Core := { k with laneAt := now, bins := k.bins.map fun b => (b.1, b.2.emitted) }

theorem Core.bin_emitted {k : Core} {now b : Nat} {y : Bin} (found : find? (k.emitted now).bins b = some y) : ∃ z, Bin.emitted z = y := by
  rw [Core.emitted, find?_mapKeyed (f := fun b : Nat × Bin => (b.1, b.2.emitted)) _ fun _ => rfl] at found
  obtain ⟨z, -, same⟩ := Option.map_eq_some_iff.1 found
  exact ⟨z, same⟩

/-- A core emits the counts of its bins once in a period, and clears them (R328). -/
theorem execLaneCycleEmit_due {s : State} {core : Nat} (on : (s.die (core / Config.coresPerDie)).trace.ctl.getLsbD 1 = true)
    (counted : (s.die (core / Config.coresPerDie)).trace.ctl.toNat / 2 ^ 8 % 2 ^ 16 * 2 ^ 12 ≠ 0)
    (due : (s.core core).laneAt / ((s.die (core / Config.coresPerDie)).trace.ctl.toNat / 2 ^ 8 % 2 ^ 16 * 2 ^ 12) ≠
      s.now / ((s.die (core / Config.coresPerDie)).trace.ctl.toNat / 2 ^ 8 % 2 ^ 16 * 2 ^ 12)) :
    ∃ ds, execLaneCycleEmit core s = .next (({ s with dies := ds } : State).modCore core fun k => k.emitted s.now) := by
  have clears : (fun b : Nat × Bin => if b.2.ctl.getLsbD 0 then (b.1, { b.2 with cnt := [0, 0, 0, 0, 0] }) else b) =
      fun b => (b.1, b.2.emitted) := by
    funext b
    unfold Bin.emitted
    split <;> rfl
  rw [execLaneCycleEmit]
  simp only [on, beq_eq_false_iff_ne.2 counted, beq_eq_false_iff_ne.2 due, Bool.not_true, Bool.or_self, Bool.false_eq_true, if_false, clears]
  generalize List.flatMap _ _ = recs
  obtain ⟨ds, handed⟩ := s.traceQueue_foldl (core / Config.coresPerDie) core recs
  exact ⟨ds, by rw [handed]; rfl⟩

/-- Settles O53: each event by its lemma, the writes and the closing of trace frames by the test that lets them through. -/
theorem recordEvents : Obligations.RecordEvents := by
  unfold Obligations.RecordEvents
  intro s ctx src core die x g
  refine ⟨fun a r rest => execLogRecordWrite_room, fun replaying => ⟨fun free => ⟨?takes, ?waits⟩, fun live => ⟨?met, ?reserved, ?stuck⟩⟩,
    fun a b as bs mine other valid valid' back => ?pair, fun is => execPreciseStop_settled, fun idle => ?frame, fun queued open_ => ?record,
    fun f opened late => ?close, ?emit⟩
  case takes => exact fun y => execReplayRecordApply_takes replaying free
  case waits => exact execReplayRecordApply_waits replaying free
  case met => exact fun k n => execReplayDivergence_met replaying live
  case reserved => exact fun k => execReplayDivergence_reserved replaying live
  case stuck => exact execReplayDivergence_stuck replaying live
  case pair =>
    have mates : s.mates ctx = true := by
      simp only [State.mates, Bool.and_eq_true, beq_iff_eq]
      exact ⟨⟨valid, valid'⟩, back⟩
    exact congrArg Host.Outcome.next (State.comparePair_of mine other mates)
  case frame => exact congrArg Host.Outcome.next (if_pos (by simp [idle]))
  case record => exact congrArg Host.Outcome.next (if_neg (by simp [queued, open_]))
  case close =>
    rw [exec_traceFrameClose, execTraceFrameClose, opened]
    exact congrArg Host.Outcome.next (if_pos late)
  case emit =>
    intro d ctl period on counted due
    obtain ⟨ds, emits⟩ := execLaneCycleEmit_due on counted due
    refine ⟨_, emits, rfl, by rw [State.core_modCore_self, Core.emitted], fun b y found enabled => ?_⟩
    rw [State.core_modCore_self] at found
    obtain ⟨z, rfl⟩ := Core.bin_emitted found
    exact Bin.emitted_cnt enabled

end Sys2Proof.Machine
end
